-- ==== Sys2Proof/Word.lean ====
section
/-! DEFINITION. The widths and index ranges the spec uses: bytes and 16-bit words of frames (R166), 32-bit path positions
(R19), and the numbers of stations, zones, covers, bins, routes and tracking tags (R1 to R5, R57). -/

namespace Sys2Proof

/-- One byte of a frame (R166). -/
abbrev Byte := BitVec 8

/-- A 16-bit value of a frame, of the path image or of a limits field (R17, R177). -/
abbrev Word := BitVec 16

/-- A path position, a 32-bit value of P or derived from P (R19). -/
abbrev Pos := BitVec 32

/-- An order number, 16 bits, modulo 65,536 (R35). -/
abbrev OrderNo := BitVec 16

/-- A station input, 0 to 15 (R1). -/
abbrev Station := Fin 16

/-- A zone of the path, 0 to 11 (R2). -/
abbrev Zone := Fin 12

/-- A cover interlock, 0 to 3 (R3). -/
abbrev Cover := Fin 4

/-- An output bin, 0 to 7 (R4). -/
abbrev Bin := Fin 8

/-- A route of the route table, 0 to 31 (R5). -/
abbrev RouteIx := Fin 32

/-- The tag of a tracking record, 0 to 23 (R57). -/
abbrev Tag := Fin 24

/-- A process speed class, 0 to 2 (R158). -/
abbrev SpeedClass := Fin 3

/-- A set of zones; bit n set for zone n, as frames carry it (R177). -/
abbrev ZoneSet := BitVec 12

/-- A set of the ten event kinds of Trace Capture, bit k for kind k (R188, R190). -/
abbrev EventMask := BitVec 10

end Sys2Proof
end

