-- ==== Sys2Proof/Syntax.lean ====
section
/-! DEFINITION. The commands of the part: one constructor of Instr for each row of spec/opcode_table.json, in its order,
with the operands the row's rules give it (log 3). -/

namespace Sys2Proof

/-- The three ports, in the order LINK ERROR codes them (R177). -/
inductive Port
  | upper
  | lower
  | service
deriving DecidableEq, Repr

/-- The two ports that take MANAGE requests (R178). -/
inductive MgmtPort
  | upper
  | service
deriving DecidableEq, Repr

/-- One asynchronous character as a receiver sees it: its eight data bits and whether its stop bit is high (R166, R167). -/
structure RxChar where
  byte : Byte
  stopHigh : Bool
deriving DecidableEq, Repr

/-- The commands. The rows that serve a MANAGE request take the port whose oldest waiting request is served (R178): the
request's tag and arguments are the bytes that request holds. A frame's command carries the payload of a frame that has
passed its check (R168), and its Kind where the row covers more than one. -/
inductive Instr
  /-- Application of power (R152). -/
  | powerOnReset
  /-- Assertion of RESET (R152). -/
  | pinReset
  /-- The end of autoload (R18); `image` is the words that the serial memory holds, from address 0 on (R17; log 13). -/
  | autoloadEnd (image : List Word)
  /-- LINK START has been sent whole (R45). -/
  | linkStartSent
  /-- A HALT has been sent whole (R46). -/
  | haltSent
  /-- A SET VOID has been sent whole (R143). -/
  | setVoidSent
  /-- A SPEED CHANGE has been sent whole (R160). -/
  | speedChangeSent
  /-- A FORWARDED ORDER has been sent whole (R171). -/
  | forwardedOrderSent
  /-- Any other frame of the lower port has been sent whole (R173). -/
  | lowerFrameSent
  /-- A frame of the upper port has been sent whole (R174). -/
  | upperFrameSent
  /-- A frame of the service port has been sent whole (R176). -/
  | serviceFrameSent
  /-- Characters arrive on `port`, with the ends of the frames in them that are discarded (R167, R169). -/
  | frameDiscard (port : Port) (chars : List RxChar)
  /-- The gap limit runs out inside the frame under way on `port` (R167). -/
  | gap (port : Port)
  /-- An ORDER frame from the upper port (R36). -/
  | order (payload : List Byte)
  /-- An ENGINE COMMAND, or a frame of unknown `kind`, from the upper port (R170). -/
  | engineCommand (kind : Byte) (payload : List Byte)
  /-- A BARRIER COMMAND from the upper port (R171). -/
  | barrierCommand (payload : List Byte)
  /-- A MANAGE frame on either port that takes them (R170, R176). -/
  | manage (port : MgmtPort) (payload : List Byte)
  /-- Serving of a request whose command code is not known (R178). -/
  | unknownCommand (port : MgmtPort)
  /-- Serving of IDENTIFY (R180). -/
  | identify (port : MgmtPort)
  /-- Serving of READ STATE (R180). -/
  | readState (port : MgmtPort)
  /-- Serving of WRITE STATION (R12). -/
  | writeStation (port : MgmtPort)
  /-- Serving of WRITE ZONE (R11). -/
  | writeZone (port : MgmtPort)
  /-- Serving of WRITE BIN (R11). -/
  | writeBin (port : MgmtPort)
  /-- Serving of WRITE ROUTE (R11). -/
  | writeRoute (port : MgmtPort)
  /-- Serving of WRITE LIMITS (R7). -/
  | writeLimits (port : MgmtPort)
  /-- Serving of READ TABLE (R13). -/
  | readTable (port : MgmtPort)
  /-- Serving of CHECK TABLES (R15). -/
  | checkTables (port : MgmtPort)
  /-- Serving of READ ORDER (R182). -/
  | readOrder (port : MgmtPort)
  /-- Serving of READ PLAN (R117). -/
  | readPlan (port : MgmtPort)
  /-- Serving of RESUME (R122). -/
  | resume (port : MgmtPort)
  /-- Serving of SKIP ORDER (R53). -/
  | skipOrder (port : MgmtPort)
  /-- Serving of CANCEL JOB (R54). -/
  | cancelJob (port : MgmtPort)
  /-- Serving of STANDBY (R163). -/
  | standby (port : MgmtPort)
  /-- Serving of WAKE (R164). -/
  | wake (port : MgmtPort)
  /-- Serving of CLAIM CAPTURE (R191). -/
  | claimCapture (port : MgmtPort)
  /-- Serving of RELEASE CAPTURE (R191). -/
  | releaseCapture (port : MgmtPort)
  /-- Serving of ARM CAPTURE (R190). -/
  | armCapture (port : MgmtPort)
  /-- Serving of READ CAPTURE (R192). -/
  | readCapture (port : MgmtPort)
  /-- Serving of RESET PART (R187). -/
  | resetPart (port : MgmtPort)
  /-- A frame on the service port that is no MANAGE (R176). -/
  | serviceManageDiscard (kind : Byte) (payload : List Byte)
  /-- The 10 ms point of a break on the service receive line (R176). -/
  | serviceReset
  /-- A PICK from the engine (R48). -/
  | pick (payload : List Byte)
  /-- A SPEED READY from the engine (R161). -/
  | speedReady (payload : List Byte)
  /-- A SET DONE from the engine (R144). -/
  | setDone (payload : List Byte)
  /-- A SET FAULT from the engine (R145). -/
  | setFault (payload : List Byte)
  /-- A SET CLEARED from the engine (R146). -/
  | setCleared (payload : List Byte)
  /-- A CREDIT from the engine (R45). -/
  | engineCredit (payload : List Byte)
  /-- An ENGINE REPORT, or a frame of unknown `kind`, from the engine (R172). -/
  | engineReport (kind : Byte) (payload : List Byte)
  /-- A pulse at ENC (R19). -/
  | encoderPulse
  /-- The raw level at TRUN changes to its opposite (R24). -/
  | trunRawChange
  /-- The raw TRUN level has held for 1 ms (R24). -/
  | trunQualified
  /-- The raw level of a station changes to its opposite (R26). -/
  | stationRawChange (st : Station)
  /-- A qualified ON of a station is accepted, outside STANDBY (R26, R68). -/
  | onEdge (st : Station)
  /-- A qualified OFF of a station is accepted, outside STANDBY (R26, R73). -/
  | offEdge (st : Station)
  /-- The start of an emitter pulse in STANDBY (R28). -/
  | emitPulse
  /-- The end of an emitter pulse: every defined station is sampled (R28). `order` lists stations whose edges are handed on
  first, in its order; the others follow in ascending number (R27 leaves the order open; log 12). -/
  | standbySample (order : List Station)
  /-- The raw level of a cover line changes to its opposite (R30). -/
  | coverRawChange (c : Cover)
  /-- A cover's change to open has held for 5 ms (R31). -/
  | coverOpen (c : Cover)
  /-- A cover's change to closed has held for 5 ms (R31). -/
  | coverClosed (c : Cover)
  /-- P has passed the late bound of a station's head (R75). -/
  | lateExpiry (st : Station)
  /-- P has passed the OFF late bound of a station's occupant (R76). -/
  | stuckExpiry (st : Station)
  /-- The stall limit runs out (R23). -/
  | stall
  /-- The settle time has passed (R98). -/
  | settle
  /-- The set-confirm timer of a set runs out (R143). -/
  | setConfirmExpiry (bin : Bin) (set : Byte)
  /-- The speed wait runs out (R162). -/
  | speedWaitExpiry
  /-- After a break the service receive line returns high (R176). -/
  | serviceLineReturnsHigh
deriving DecidableEq, Repr

end Sys2Proof
end

