-- ==== Sys2Proof/Config.lean ====
section
/-! DEFINITION. What an implementation fixes and the spec does not state: constants with no body, so that no proof sees a
value (log 14). -/

namespace Sys2Proof

/-- The revision byte that IDENTIFY returns (R180); the spec gives no value. DESIGN CHOICE (log 14). -/
opaque Config.revision : Byte

/-- What a two-byte number field of a notice carries when the flag beside it says that the number is absent (R177); the spec gives no
value. The argument is a plain counter of State, so that each use is a fresh value.
DESIGN CHOICE (log 14). -/
opaque Config.absentWord : Nat → Word

end Sys2Proof
end

