-- ==== Sys2Proof/Machine/State.lean ====
section
/-! DEFINITION. The state of the part, block by block as 00_scope.md 2.1 divides it, and the state after power-on reset.
Times are counts of CLK periods since the end of the last power-on or pin reset (log 1). -/

namespace Sys2Proof.Machine

/-- Why a step can stop with a fault. The spec names no event that stops the part (INVENTORY.md, Faults), so there is no
such reason and no constructor. -/
inductive Fault
deriving DecidableEq, Repr

/-- Why a command has no meaning. -/
inductive Refusal
  /-- Raised only by an arm of `exec` whose row has no meaning yet; safe: nothing is claimed of that command. -/
  | notModelled (mnemonic : String)
deriving DecidableEq, Repr

/-! ### Geometry Tables -/

/-- A station record (R1). -/
structure StationRec where
  defined : Bool
  zone : Zone
  qualify : Nat
deriving DecidableEq, Repr

/-- A zone record (R2). -/
structure ZoneRec where
  defined : Bool
  purgeable : Bool
  cover : Option Cover
deriving DecidableEq, Repr

/-- The kind of a bin (R4). -/
inductive BinKind
  | stack
  | set
deriving DecidableEq, Repr

/-- A bin record (R4). -/
structure BinRec where
  defined : Bool
  kind : BinKind
  zone : Zone
deriving DecidableEq, Repr

/-- From which event a visit's expected ON is measured (R5). -/
inductive Anchor
  | pick
  | prevOn
  | prevOff
deriving DecidableEq, Repr

/-- One visit of a route (R5). -/
structure Visit where
  station : Station
  anchor : Anchor
  distance : Word
  check : Bool
deriving DecidableEq, Repr

/-- The divert of a route: its divert index d and its waste route w (R5). -/
structure Divert where
  d : Fin 16
  w : RouteIx
deriving DecidableEq, Repr

/-- A route record (R5). -/
structure RouteRec where
  defined : Bool
  visits : List Visit
  bin : Bin
  completeAfter : Fin 16
  divert : Option Divert
deriving DecidableEq, Repr

/-- The limits record, in the row order of R7. -/
structure Limits where
  earlyBase : Nat
  lateBase : Nat
  slip : Nat
  trailBase : Nat
  stretch : Nat
  lengthBase : Nat
  lengthTol : Nat
  settleTime : Nat
  stall0 : Nat
  stall1 : Nat
  stall2 : Nat
  setConfirm : Nat
  speedWait : Nat
  attemptLimit : Nat
deriving DecidableEq, Repr

/-- The table a fault record names (R16). -/
inductive FaultTable
  | station
  | bin
  | route
deriving DecidableEq, Repr

/-- The fault codes of validation, in the order of R16. -/
inductive FaultCode
  | stationZone
  | binZone
  | visitAnchor
  | visitStation
  | visitRepeat
  | completeIndex
  | routeBin
  | divertIndex
  | wasteRoute
  | wasteBin
  | wasteAnchor
  | wasteDivert
  | noRoute
deriving DecidableEq, Repr

/-- A fault record (R16); table and index are absent for NO ROUTE. -/
structure FaultRec where
  table : Option FaultTable
  index : Option Nat
  visit : Option Nat
  fault : FaultCode
deriving DecidableEq, Repr

/-- The outcome of an autoload, in the order R181 codes it (R18). -/
inductive LoadOutcome
  | loaded
  | noSignature
  | badLength
  | badRecord
  | tableFault
deriving DecidableEq, Repr

/-- The load result record (R18). -/
structure LoadResult where
  outcome : LoadOutcome
  length : Option Word
  fault : Option FaultRec
deriving DecidableEq, Repr

/-- What the loader reads next (R18): the signature, the length, the limits with the words read so far, a record of one
word, the route count, or a route with the routes left, the indexes already listed and the words of the route read so far;
or the end of the load. -/
inductive LoadStage
  | signature
  | length
  | limits (read : List Word)
  | station (i : Station)
  | zone (i : Zone)
  | bin (i : Bin)
  | routeCount
  | route (left : Nat) (seen : List RouteIx) (read : List Word)
  | complete
  | failed (outcome : LoadOutcome)
deriving DecidableEq, Repr

/-- How far the image has been read: the words read, the image length that word 1 states, and what comes next (R18). -/
structure Reading where
  count : Nat
  length : Option Word
  stage : LoadStage
deriving DecidableEq, Repr

/-- The loader (R17): the outputs MSEL (true is asserted), MCLK and MDO, the bytes that the serial memory on MDI holds from
address 0 on, the CLK periods since MSEL was asserted, the bits of the word under way, and the reading. -/
structure Loader where
  msel : Bool
  mclk : Bool
  mdo : Bool
  memory : List Byte
  periods : Nat
  shift : Word
  reading : Reading
deriving DecidableEq, Repr

/-- The Geometry Tables; `guarded` is the cover table of R3. -/
structure Tables where
  stations : Vector StationRec 16
  zones : Vector ZoneRec 12
  guarded : Vector ZoneSet 4
  bins : Vector BinRec 8
  routes : Vector RouteRec 32
  limits : Limits
  checked : Bool
  loadResult : LoadResult
deriving DecidableEq, Repr

/-! ### Position Counter -/

/-- The stall timer (R23): stopped, measuring from a moment, or waiting after its event. -/
inductive StallTimer
  | stopped
  | running (since : Nat)
  | waiting
deriving DecidableEq, Repr

/-- The Position Counter. `clock` counts CLK periods since the last power-on or pin reset; `settleFrom` is the entry into
STOPPING from which a running settle watch measures (R22). -/
structure PosCounter where
  clock : Nat
  p : Pos
  lastPulse : Nat
  msCount : Word
  settleFrom : Option Nat
  stallTimer : StallTimer
  trunRaw : Bool
  trunQual : Bool
  trunPending : Option Nat
deriving DecidableEq, Repr

/-! ### Sensor Front End -/

/-- A pending change of a station: its direction, the P and the time noted at its start (R26). -/
structure PendingChange where
  toCovered : Bool
  p : Pos
  time : Nat
deriving DecidableEq, Repr

/-- The sensing of one station; `sample` is the P of the first differing sample (R28). -/
structure StationSense where
  raw : Bool
  qual : Bool
  pending : Option PendingChange
  sample : Option Pos
deriving DecidableEq, Repr

/-- The sensing of one cover; `true` is closed, `pending` the start of a pending change (R30). -/
structure CoverSense where
  rawClosed : Bool
  closed : Bool
  pending : Option Nat
deriving DecidableEq, Repr

/-- The Sensor Front End; `emitFrom` is the start of the running 20 ms period of EMIT in STANDBY (R28). -/
structure FrontEnd where
  stations : Vector StationSense 16
  covers : Vector CoverSense 4
  emit : Bool
  emitFrom : Nat
deriving DecidableEq, Repr

/-! ### Retention Queue and Order Forwarder -/

/-- The eight entry states, in the order of R34. -/
inductive EntryState
  | queued
  | forwarded
  | inFlight
  | delivered
  | committed
  | skipped
  | reprint
  | held
deriving DecidableEq, Repr

/-- A plan mark of an entry and a disposition of a tracking record (R33, R57). -/
inductive Mark
  | salvage
  | wasteDivert
  | wasteAtDest
deriving DecidableEq, Repr

/-- A retention entry (R33). `back` holds the back page bytes as received, which count only where `backPresent` says so.
`firstSent`: the FORWARDED ORDER frame of its first forwarding has been sent whole or withdrawn (R171). -/
structure Entry where
  order : OrderNo
  job : Word
  sheetIndex : Word
  front : Word
  back : Word
  backPresent : Bool
  route : RouteIx
  length : Word
  cls : SpeedClass
  set : Option Byte
  setLast : Bool
  attempt : Nat
  unpicked : Bool
  state : EntryState
  tag : Option Tag
  mark : Option Mark
  firstSent : Bool
deriving DecidableEq, Repr

/-- A finisher set is named by its bin and set number (R139). -/
structure SetName where
  bin : Bin
  set : Byte
deriving DecidableEq, Repr

/-- The Retention Queue, head first (R35), with the expected next number (R37) and the receiving set (R39). -/
structure Retention where
  entries : List Entry
  expected : Option OrderNo
  receiving : Option SetName
deriving DecidableEq, Repr

/-- The Order Forwarder (03 section 3.4, R158): `f` is the forwarded count F, `limit` the engine limit. -/
structure Forwarder where
  f : Byte
  limit : Byte
  windowHold : Bool
  speed : SpeedClass
  request : Option (SpeedClass × OrderNo)
deriving DecidableEq, Repr

/-! ### Sheet Tracker -/

/-- A tracking record; its tag is its place in the tracking table (R57). -/
structure TrackRec where
  order : OrderNo
  route : RouteIx
  length : Word
  next : Nat
  occupied : List (Station × Pos)
  wasteTail : Bool
  complete : Bool
  disp : Option Mark
deriving DecidableEq, Repr

/-- An expectation of a station's list (R60). -/
structure Expectation where
  tag : Tag
  visit : Nat
  e : Pos
  early : Pos
  late : Pos
  spent : Bool
deriving DecidableEq, Repr

/-- What is done at the matched OFF of an occupant (R61, R74). -/
inductive OffAction
  | nothing
  | postNext
  | beginWaste
  | delivery
deriving DecidableEq, Repr

/-- The occupant of a station (R61). -/
structure Occupant where
  tag : Tag
  visit : Nat
  onPos : Pos
  offLate : Pos
  check : Bool
  action : OffAction
  spent : Bool
deriving DecidableEq, Repr

/-- The Sheet Tracker; `notedP` is the P noted at the entry into AWAIT CLEAR (R79). -/
structure Tracker where
  table : Vector (Option TrackRec) 24
  lists : Vector (List Expectation) 16
  slots : Vector (Option Occupant) 16
  notedP : Option Pos
deriving DecidableEq, Repr

/-! ### Jam Detector and Recovery Planner -/

/-- The kinds of a cause, in the order of R81. -/
inductive CauseKind
  | late
  | early
  | unexpected
  | stuck
  | lengthShort
  | lengthLong
  | overrun
  | stall
  | cover
  | finisher
  | pathLost
deriving DecidableEq, Repr

/-- A cause record (R81). -/
structure Cause where
  kind : CauseKind
  station : Option Station
  cover : Option Cover
  set : Option SetName
  zones : ZoneSet
  sheet : Option OrderNo
  pos : Pos
deriving DecidableEq, Repr

/-- The Jam Detector (05). -/
structure Jam where
  causes : List Cause
  more : Bool
  deferred : List Cause
deriving DecidableEq, Repr

/-- How a plan was formed (R100). -/
inductive PlanKind
  | stop
  | foreign
  | pathLost
deriving DecidableEq, Repr

/-- A disposition of a plan's list, in the order R182 codes them from 1 (R100). -/
inductive Disposition
  | salvage
  | wasteDivert
  | wasteAtDest
  | unpicked
  | lost
deriving DecidableEq, Repr

/-- The plan record (R100). -/
structure PlanRec where
  number : Byte
  kind : PlanKind
  isOpen : Bool
  causes : List Cause
  more : Bool
  pos : Pos
  clear : ZoneSet
  dispositions : List (OrderNo × Disposition)
  voided : List SetName
  resume : Option OrderNo
  reprint : Nat
deriving DecidableEq, Repr

/-- The Recovery Planner (06). -/
structure Planner where
  plan : Option PlanRec
  counter : Byte
deriving DecidableEq, Repr

/-! ### Set Monitor -/

/-- The state of a set record (R139). -/
inductive SetState
  | opened
  | completeAwaiting
  | voided
  | done
deriving DecidableEq, Repr

/-- A set record (R139); `deadline` is the confirm deadline, the time at which its timer runs out (R143). `rebuilt` says of a
cancelled record that replay has returned members of it since CANCEL JOB last acted on it, so that deliveries into it are counted
afresh (R148; log 39, log 41). -/
structure SetRec where
  name : SetName
  first : OrderNo
  last : Option OrderNo
  members : Nat
  delivered : Nat
  state : SetState
  cancelled : Bool
  rebuilt : Bool
  deadline : Option Nat
deriving DecidableEq, Repr

/-- The Set Monitor: the records and the void order list (R139). -/
structure SetMonitor where
  records : List SetRec
  voidOrder : List SetName
deriving DecidableEq, Repr

/-! ### Path Supervisor -/

/-- The ten part states, in the order of R150. -/
inductive PartState
  | starting
  | unconfigured
  | idle
  | running
  | speedChange
  | stopping
  | awaitClear
  | purging
  | held
  | standby
deriving DecidableEq, Repr

/-- The reset cause (R154). -/
inductive ResetCause
  | power
  | pin
  | link
deriving DecidableEq, Repr

/-- The held reason while there is one (R135). -/
inductive HeldReason
  | attempts
  | speed
deriving DecidableEq, Repr

/-- The phase of a purge (R126). -/
inductive PurgePhase
  | driveOut
  | voidWait
deriving DecidableEq, Repr

/-- The purge state held while the part is in PURGING (R126). -/
structure Purge where
  phase : PurgePhase
  outstanding : List SetName
deriving DecidableEq, Repr

/-- The Path Supervisor; `speedWait` is the time at which a running speed-wait timer runs out (R160). -/
structure Supervisor where
  state : PartState
  pathHalt : Bool
  resetCause : ResetCause
  heldReason : Option HeldReason
  speedWait : Option Nat
  purge : Option Purge
deriving DecidableEq, Repr

/-! ### Frames -/

/-- Why an order is refused, in the order ORDER REFUSED codes it (R36, R177). -/
inductive OrderRefusal
  | notReady
  | sequence
  | noCredit
  | field
deriving DecidableEq, Repr

/-- The reasons of LINK ERROR, in the order of R177. -/
inductive LinkReason
  | length
  | check
  | framing
  | gap
  | format
  | overflow
  | noticeLoss
deriving DecidableEq, Repr

/-- The treatment of a cause in its JAM notice, in the order of R89. -/
inductive Treatment
  | declared
  | joined
  | notStored
  | deferred
deriving DecidableEq, Repr

/-- The summary of a plan that a PLAN notice carries (R116). `filler` is what its resume point field carries when the
resume point is absent (log 14). -/
structure PlanSummary where
  number : Byte
  kind : PlanKind
  causeCount : Nat
  more : Bool
  clear : ZoneSet
  resume : Option OrderNo
  filler : Word
  reprint : Nat
  unpicked : Nat
  lost : Nat
  salvage : Nat
  wasteDivert : Nat
  wasteAtDest : Nat
  voidedCount : Nat
deriving DecidableEq, Repr

/-- A notice (R175, R177). The list index of a JAM notice is 0 when absent; its `filler` is what the named sheet field
carries when no sheet is named (log 14). The third byte of LINK ERROR is the Kind or the loss count. -/
inductive Notice
  | jam (treatment : Treatment) (index : Nat) (cause : Cause) (filler : Word)
  | plan (summary : PlanSummary)
  | state (st : PartState) (reason : Option HeldReason)
  | orderRefused (order : OrderNo) (reason : OrderRefusal)
  | foreignSheet (st : Station)
  | held (order : OrderNo) (reason : HeldReason)
  | linkError (port : Port) (reason : LinkReason) (third : Byte)
  | unexpectedReport (kind bin : Byte) (number : Word)
  | captureDone (count : Nat)
  | captureLost
deriving DecidableEq, Repr

/-- The statuses of a reply, in the order of R179. -/
inductive Status
  | done
  | busy
  | state
  | range
  | stale
  | notClear
  | coverOpen
  | owned
  | notOwner
  | set
  | unknown
  | tableFault
  | notReady
deriving DecidableEq, Repr

/-- A MANAGE REPLY: tag, status and the bytes of its results (R178). -/
structure Reply where
  tag : Byte
  status : Status
  results : List Byte
deriving DecidableEq, Repr

/-- The content of a CREDIT frame sent upstream (R42). -/
structure CreditContent where
  limit : Word
  oldest : Word
  isOpen : Bool
deriving DecidableEq, Repr

/-- A PATH CONTROL frame (R177). -/
inductive PathControl
  | linkStart
  | halt
  | run
  | purgeRun (part count : Nat) (items : List (OrderNo × Mark))
  | speedChange (cls : SpeedClass)
  | setVoid (name : SetName)
deriving DecidableEq, Repr

/-- A FORWARDED ORDER frame: the order fields of the entry as accepted and the attempt count at forwarding (R44). `live`
is cleared when a link reset discards the entry while the frame is being sent (log 28). -/
structure ForwardedOrder where
  entry : Entry
  live : Bool
deriving DecidableEq, Repr

/-- A frame of the command queue; `mark` is none for a frame that is ready at once, and for a BARRIER COMMAND the orders
of its mark that do not yet satisfy it (R171). -/
structure Command where
  kind : Byte
  payload : List Byte
  mark : Option (List OrderNo)
deriving DecidableEq, Repr

/-- A frame passed upstream as received (R172). -/
structure RawFrame where
  kind : Byte
  payload : List Byte
deriving DecidableEq, Repr

/-- A frame the lower transmitter sends (R173). -/
inductive LowerFrame
  | pathControl (frame : PathControl)
  | command (frame : Command)
  | forwardedOrder (frame : ForwardedOrder)
deriving DecidableEq, Repr

/-- A frame the upper transmitter sends (R174). -/
inductive UpperFrame
  | credit (content : CreditContent)
  | reply (r : Reply)
  | notice (n : Notice)
  | report (frame : RawFrame)
deriving DecidableEq, Repr

/-- A frame the service transmitter sends (R176). -/
inductive ServiceFrame
  | reply (r : Reply)
  | notice (n : Notice)
deriving DecidableEq, Repr

/-! ### Link Interface and Service Port -/

/-- The receive states of R167, and the wait of the service receiver for its line to return high after a break (R176). -/
inductive RxMode
  | hunting
  | inFrame
  | lineLow
deriving DecidableEq, Repr

/-- A receiver: its state, the bytes after Start of the frame under way, and the end of the last character (R167). -/
structure Receiver where
  mode : RxMode
  bytes : List Byte
  lastChar : Nat
deriving DecidableEq, Repr

/-- The Link Interface (10). -/
structure Link where
  rxUpper : Receiver
  rxLower : Receiver
  commands : List Command
  holding : List (List Byte)
  reports : List RawFrame
  pathControl : List PathControl
  forwarded : List ForwardedOrder
  linkStarted : Bool
  lowerTx : Option LowerFrame
  credit : Option CreditContent
  replies : List Reply
  notices : List Notice
  lossCount : Nat
  upperTx : Option UpperFrame
deriving DecidableEq, Repr

/-- The receive frame of the service port: a MANAGE payload, and whether it has been served (R176). -/
structure ServiceHeld where
  payload : List Byte
  served : Bool
deriving DecidableEq, Repr

/-- The Service Port (10.6). `highAt` is the latest moment at which the service line is known to have been high, from which the
10 ms of a break are measured (R176; log 29). -/
structure ServicePort where
  rx : Receiver
  highAt : Nat
  held : Option ServiceHeld
  claim : Bool
  reply : Option Reply
  notices : List Notice
  tx : Option ServiceFrame
deriving DecidableEq, Repr

/-! ### Trace Capture -/

/-- Who owns the capture (R188). -/
inductive Owner
  | free
  | controller
  | service
deriving DecidableEq, Repr

/-- The capture state (R188). -/
inductive CaptureState
  | disarmed
  | running
  | stopped
deriving DecidableEq, Repr

/-- The ten event kinds, in the order R188 codes them. -/
inductive EventKind
  | on
  | off
  | matched
  | expiry
  | cause
  | plan
  | commit
  | pick
  | linkError
  | state
deriving DecidableEq, Repr

/-- The mode of the capture (R188). -/
inductive CaptureMode
  | count (n : Nat)
  | trigger (kind : EventKind) (post : Nat)
deriving DecidableEq, Repr

/-- A capture record (R188). -/
structure TraceRec where
  kind : EventKind
  p : Pos
  ms : Word
  station : Option Station
  order : Option OrderNo
  detail : Byte
deriving DecidableEq, Repr

/-- Trace Capture (R188); `post` is post remaining. -/
structure Capture where
  owner : Owner
  state : CaptureState
  mode : CaptureMode
  mask : EventMask
  post : Option Nat
  buffer : List TraceRec
deriving DecidableEq, Repr

/-! ### The moment of a declaration -/

/-- The reports of the moment at which a stop is declared: what R84 lets be taken second, and join. A watch is named by its station and
the head or occupant that it watches, as they were then; a cover stands here whose opening has qualified (R20, R31, R84, R92, R93;
the model's own, log 35). -/
structure Reached where
  late : List (Station × Expectation)
  stuck : List (Station × Occupant)
  stall : Bool
  covers : List Cover
deriving DecidableEq, Repr

/-! ### The whole part -/

/-- The state of the part: the queue of waiting commands, the thirteen blocks with the loader of the tables, the reports
of the moment at which a stop is declared (log 35), and the counter of free values (log 14). -/
structure State where
  pending : List Instr
  tables : Tables
  load : Loader
  pos : PosCounter
  front : FrontEnd
  ret : Retention
  fwd : Forwarder
  trk : Tracker
  jam : Jam
  plan : Planner
  sets : SetMonitor
  sup : Supervisor
  link : Link
  svc : ServicePort
  cap : Capture
  reached : Reached
  free : Nat
deriving DecidableEq, Repr

/-! ### The values after power-on reset -/

/-- An undefined station (R1). -/
def StationRec.undefined : StationRec := { defined := false, zone := 0, qualify := 20 }

/-- An undefined zone (R2). -/
def ZoneRec.undefined : ZoneRec := { defined := false, purgeable := false, cover := none }

/-- An undefined bin (R4). -/
def BinRec.undefined : BinRec := { defined := false, kind := .stack, zone := 0 }

/-- An undefined route (R5). -/
def RouteRec.undefined : RouteRec :=
  { defined := false, visits := [], bin := 0, completeAfter := 0, divert := none }

/-- The defaults of the limits record (R7). -/
def Limits.defaults : Limits :=
  { earlyBase := 40, lateBase := 60, slip := 30, trailBase := 50, stretch := 20, lengthBase := 25, lengthTol := 10,
    settleTime := 200, stall0 := 30, stall1 := 50, stall2 := 80, setConfirm := 50, speedWait := 50, attemptLimit := 3 }

/-- The load result from a power-on or pin reset to the end of the autoload that follows it, which writes it: the first one
and every later one. DESIGN CHOICE (log 7). -/
def LoadResult.initial : LoadResult := { outcome := .noSignature, length := none, fault := none }

/-- The emptied tables (R8). -/
def Tables.empty : Tables :=
  { stations := Vector.replicate 16 .undefined, zones := Vector.replicate 12 .undefined,
    guarded := Vector.replicate 4 0, bins := Vector.replicate 8 .undefined,
    routes := Vector.replicate 32 .undefined, limits := .defaults, checked := false, loadResult := .initial }

/-- Nothing of the image has been read (R18). -/
def Reading.start : Reading := { count := 0, length := none, stage := .signature }

/-- A transfer that has just begun: MSEL is asserted, and MCLK and MDO are low (R17; the levels of MCLK and of MDO where R17
names no bit are a DESIGN CHOICE, log 13). -/
def Loader.start (memory : List Byte) : Loader :=
  { msel := true, mclk := false, mdo := false, memory := memory, periods := 0, shift := 0, reading := .start }

/-- The Position Counter after reset, TRUN low (R19, R21; log 6). -/
def PosCounter.initial : PosCounter :=
  { clock := 0, p := 0, lastPulse := 0, msCount := 0, settleFrom := none, stallTimer := .stopped, trunRaw := false,
    trunQual := false, trunPending := none }

/-- An uncovered station with nothing pending (R25; log 6). -/
def StationSense.initial : StationSense := { raw := false, qual := false, pending := none, sample := none }

/-- A closed cover with nothing pending (R30; log 6). -/
def CoverSense.initial : CoverSense := { rawClosed := true, closed := true, pending := none }

/-- The Sensor Front End after reset, EMIT asserted (R28). -/
def FrontEnd.initial : FrontEnd :=
  { stations := Vector.replicate 16 .initial, covers := Vector.replicate 4 .initial, emit := true, emitFrom := 0 }

/-- The empty Retention Queue (R56). -/
def Retention.empty : Retention := { entries := [], expected := none, receiving := none }

/-- The Order Forwarder after power-on or pin reset (R45, R158). -/
def Forwarder.initial : Forwarder := { f := 0, limit := 0, windowHold := true, speed := 0, request := none }

/-- The empty Sheet Tracker (R80). -/
def Tracker.empty : Tracker :=
  { table := Vector.replicate 24 none, lists := Vector.replicate 16 [], slots := Vector.replicate 16 none, notedP := none }

/-- The empty Jam Detector (R99). -/
def Jam.empty : Jam := { causes := [], more := false, deferred := [] }

/-- The empty Set Monitor (R149). -/
def SetMonitor.empty : SetMonitor := { records := [], voidOrder := [] }

/-- A receiver that hunts, with no bytes held (R167). -/
def Receiver.hunting : Receiver := { mode := .hunting, bytes := [], lastChar := 0 }

/-- The Link Interface after power-on or pin reset (10.8). -/
def Link.initial : Link :=
  { rxUpper := .hunting, rxLower := .hunting, commands := [], holding := [], reports := [], pathControl := [],
    forwarded := [], linkStarted := false, lowerTx := none, credit := none, replies := [], notices := [], lossCount := 0,
    upperTx := none }

/-- The Service Port after power-on reset (10.8). -/
def ServicePort.initial : ServicePort :=
  { rx := .hunting, highAt := 0, held := none, claim := false, reply := none, notices := [], tx := none }

/-- Trace Capture after power-on reset (R188). -/
def Capture.initial : Capture :=
  { owner := .free, state := .disarmed, mode := .count 512, mask := 0, post := none, buffer := [] }

/-- No report of a declaration's moment is left (log 35). -/
def Reached.nothing : Reached := { late := [], stuck := [], stall := false, covers := [] }

/-- The part right after power-on reset: STARTING with PATH HALT asserted, tables empty, autoload under way (R152). That no
serial memory answers it is a DESIGN CHOICE (log 13). -/
def State.reset : State :=
  { pending := [], tables := .empty, load := .start [], pos := .initial, front := .initial, ret := .empty, fwd := .initial, trk := .empty,
    jam := .empty, plan := { plan := none, counter := 0 }, sets := .empty,
    sup := { state := .starting, pathHalt := true, resetCause := .power, heldReason := none, speedWait := none,
             purge := none },
    link := .initial, svc := .initial, cap := .initial, reached := .nothing, free := 0 }

end Sys2Proof.Machine
end

