-- ==== Sys2Proof/Machine/Flags.lean ====
section
/-! DEFINITION. The codes of the enumerated values (R177, R179, R181, R182, R189) and the flag bytes of frames and replies. -/

namespace Sys2Proof.Machine

/-- Part states are coded in the order of R150, from STARTING 0 to STANDBY 9 (R177). -/
def PartState.code : PartState → Byte
  | .starting => 0
  | .unconfigured => 1
  | .idle => 2
  | .running => 3
  | .speedChange => 4
  | .stopping => 5
  | .awaitClear => 6
  | .purging => 7
  | .held => 8
  | .standby => 9

/-- The held reason: none 0, ATTEMPTS 1, SPEED 2 (R177, R180). -/
def HeldReason.code : Option HeldReason → Byte
  | none => 0
  | some .attempts => 1
  | some .speed => 2

/-- The reset cause: POWER 0, PIN 1, LINK 2 (R180). -/
def ResetCause.code : ResetCause → Byte
  | .power => 0
  | .pin => 1
  | .link => 2

/-- Entry states are coded in the order of R34 (R182). -/
def EntryState.code : EntryState → Byte
  | .queued => 0
  | .forwarded => 1
  | .inFlight => 2
  | .delivered => 3
  | .committed => 4
  | .skipped => 5
  | .reprint => 6
  | .held => 7

/-- A plan mark: absent 0, SALVAGE 1, WASTE-DIVERT 2, WASTE-AT-DESTINATION 3 (R182). -/
def Mark.code : Option Mark → Byte
  | none => 0
  | some .salvage => 1
  | some .wasteDivert => 2
  | some .wasteAtDest => 3

/-- A disposition of READ PLAN: SALVAGE 1, WASTE-DIVERT 2, WASTE-AT-DESTINATION 3, UNPICKED 4, LOST 5 (R182). -/
def Disposition.code : Disposition → Byte
  | .salvage => 1
  | .wasteDivert => 2
  | .wasteAtDest => 3
  | .unpicked => 4
  | .lost => 5

/-- The disposition of a plan's list that a mark stands for (R108, R112). -/
def Mark.disposition : Mark → Disposition
  | .salvage => .salvage
  | .wasteDivert => .wasteDivert
  | .wasteAtDest => .wasteAtDest

/-- Whether a mark sends a sheet out as waste (R51). -/
def Mark.isWaste : Mark → Bool
  | .salvage => false
  | .wasteDivert => true
  | .wasteAtDest => true

/-- Cause kinds are coded in the order of R81, from LATE 0 to PATH LOST 10 (R177). -/
def CauseKind.code : CauseKind → Byte
  | .late => 0
  | .early => 1
  | .unexpected => 2
  | .stuck => 3
  | .lengthShort => 4
  | .lengthLong => 5
  | .overrun => 6
  | .stall => 7
  | .cover => 8
  | .finisher => 9
  | .pathLost => 10

/-- Treatments of a cause: DECLARED 0, JOINED 1, NOT STORED 2, DEFERRED 3 (R89, R189). -/
def Treatment.code : Treatment → Byte
  | .declared => 0
  | .joined => 1
  | .notStored => 2
  | .deferred => 3

/-- Plan kinds: STOP 0, FOREIGN 1, PATH LOST 2 (R177). -/
def PlanKind.code : PlanKind → Byte
  | .stop => 0
  | .foreign => 1
  | .pathLost => 2

/-- The reasons of ORDER REFUSED (R177). -/
def OrderRefusal.code : OrderRefusal → Byte
  | .notReady => 0
  | .sequence => 1
  | .noCredit => 2
  | .field => 3

/-- The ports of LINK ERROR: UPPER 0, LOWER 1, SERVICE 2 (R177). -/
def portCode : Port → Byte
  | .upper => 0
  | .lower => 1
  | .service => 2

/-- The reasons of LINK ERROR (R177). -/
def LinkReason.code : LinkReason → Byte
  | .length => 0
  | .check => 1
  | .framing => 2
  | .gap => 3
  | .format => 4
  | .overflow => 5
  | .noticeLoss => 6

/-- The statuses of a reply (R179). -/
def Status.code : Status → Byte
  | .done => 0
  | .busy => 1
  | .state => 2
  | .range => 3
  | .stale => 4
  | .notClear => 5
  | .coverOpen => 6
  | .owned => 7
  | .notOwner => 8
  | .set => 9
  | .unknown => 10
  | .tableFault => 11
  | .notReady => 12

/-- The owner of the capture: FREE 0, CONTROLLER 1, SERVICE 2 (R191). -/
def Owner.code : Owner → Byte
  | .free => 0
  | .controller => 1
  | .service => 2

/-- The event kinds of Trace Capture (R188). -/
def EventKind.number : EventKind → Nat
  | .on => 0
  | .off => 1
  | .matched => 2
  | .expiry => 3
  | .cause => 4
  | .plan => 5
  | .commit => 6
  | .pick => 7
  | .linkError => 8
  | .state => 9

/-- The event kind a code stands for; none above 9 (R190). -/
def EventKind.ofCode (b : Byte) : Option EventKind :=
  match b.toNat with
  | 0 => some .on
  | 1 => some .off
  | 2 => some .matched
  | 3 => some .expiry
  | 4 => some .cause
  | 5 => some .plan
  | 6 => some .commit
  | 7 => some .pick
  | 8 => some .linkError
  | 9 => some .state
  | _ => none

/-- The kinds of a bin: STACK 0, SET 1 (R181). -/
def BinKind.code : BinKind → Byte
  | .stack => 0
  | .set => 1

/-- The anchors of a visit: PICK 0, PREV_ON 1, PREV_OFF 2 (R181). -/
def Anchor.number : Anchor → Nat
  | .pick => 0
  | .prevOn => 1
  | .prevOff => 2

/-- The anchor a two-bit code stands for; 3 stands for none (R18, R181). -/
def Anchor.ofNumber : Nat → Option Anchor
  | 0 => some .pick
  | 1 => some .prevOn
  | 2 => some .prevOff
  | _ => none

/-- The table of a fault record: STATION 0, BIN 1, ROUTE 2, none 0xFF (R181). -/
def FaultTable.code : Option FaultTable → Byte
  | none => 0xFF
  | some .station => 0
  | some .bin => 1
  | some .route => 2

/-- The fault codes, from STATION ZONE 0 to NO ROUTE 12 (R181). -/
def FaultCode.code : FaultCode → Byte
  | .stationZone => 0
  | .binZone => 1
  | .visitAnchor => 2
  | .visitStation => 3
  | .visitRepeat => 4
  | .completeIndex => 5
  | .routeBin => 6
  | .divertIndex => 7
  | .wasteRoute => 8
  | .wasteBin => 9
  | .wasteAnchor => 10
  | .wasteDivert => 11
  | .noRoute => 12

/-- The outcomes of a load, in the order of R181. -/
def LoadOutcome.code : LoadOutcome → Byte
  | .loaded => 0
  | .noSignature => 1
  | .badLength => 2
  | .badRecord => 3
  | .tableFault => 4

/-- A yes-or-no field of a payload (R181). -/
def boolByte (b : Bool) : Byte := if b then 1 else 0

/-- One named bit of a flags byte. -/
def flagBit (n : Nat) (b : Bool) : Byte := if b then 1 <<< n else 0

/-- A flags byte from its named bits; bits not named are sent as 0 (R177). -/
def flagsByte (bits : List (Nat × Bool)) : Byte := bits.foldl (fun acc x => acc ||| flagBit x.1 x.2) 0

/-- A number from 0 to 255 as one byte. -/
def byteOf (n : Nat) : Byte := BitVec.ofNat 8 n

/-- The high byte of a word. -/
def hiByte (w : Word) : Byte := w.extractLsb' 8 8

/-- The low byte of a word. -/
def loByte (w : Word) : Byte := w.extractLsb' 0 8

/-- A 16-bit value, high byte first (R166). -/
def wordBytes (w : Word) : List Byte := [hiByte w, loByte w]

/-- A position, high byte first (R166). -/
def posBytes (p : Pos) : List Byte := [p.extractLsb' 24 8, p.extractLsb' 16 8, p.extractLsb' 8 8, p.extractLsb' 0 8]

/-- A zone set as two bytes, bit n for zone n (R177). -/
def zoneSetBytes (z : ZoneSet) : List Byte := wordBytes (z.setWidth 16)

/-- An absent station, bin, cover or tag is sent as 0xFF (R177, R181, R182). -/
def finByte {n : Nat} : Option (Fin n) → Byte
  | none => 0xFF
  | some i => byteOf i.val

/-- Two bytes as a 16-bit value, high byte first (R166). -/
def wordOf (hi lo : Byte) : Word := hi ++ lo

end Sys2Proof.Machine
end

