-- ==== Sys2Proof/Machine/Operands.lean ====
section
/-! DEFINITION. The operand forms of the commands: the frame check of R168, the receiver of R167, and the payload and
argument layouts of R177, R181 and R190. -/

namespace Sys2Proof.Machine

/-! ### The frame check and the receiver -/

/-- One bit into the check register: generator x^16 + x^12 + x^5 + 1 (R168). -/
def crcBit (reg : Word) (bit : Bool) : Word :=
  if reg.msb != bit then (reg <<< 1) ^^^ 0x1021 else reg <<< 1

/-- One byte into the check register, most significant bit first (R168). -/
def crcByte (reg : Word) (b : Byte) : Word :=
  [7, 6, 5, 4, 3, 2, 1, 0].foldl (fun r i => crcBit r (b.getLsbD i)) reg

/-- The byte of 8 data bits, the least significant first (R166). -/
def byteOfLevels (bits : List Bool) : Byte := bits.foldr (fun b acc => (acc <<< 1) ||| (if b then 1 else 0)) 0

/-- The character that ten levels of a line spell: a low start bit, 8 data bits with the least significant first, and the stop bit as
it stands; the characters in the operands of the commands are read so (R166, R167; log 3). -/
def charOf (levels : List Bool) : Option RxChar :=
  match levels with
  | false :: rest =>
    if rest.length = 9 then some { byte := byteOfLevels (rest.take 8), stopHigh := rest.getLastD true } else none
  | _ => none

/-- A character holds a high level of the line: a data bit of 1, or its stop bit (R166, R176). -/
def holdsHigh (c : RxChar) : Bool := c.stopHigh || c.byte != 0

/-- The check of Kind, Length and Payload; the register starts at 0xFFFF (R168). -/
def crc16 (bytes : List Byte) : Word := bytes.foldl crcByte 0xFFFF

/-- What a character brings about in a receiver: nothing yet, a discard, or a complete frame that passes (R167, R169). -/
inductive RxEvent
  | going
  | discarded (reason : LinkReason) (kind : Option Byte)
  | complete (kind : Byte) (payload : List Byte)
deriving DecidableEq, Repr

/-- The end of a frame whose last check byte has arrived (R167, R168). -/
def frameEnd (bytes : List Byte) : RxEvent :=
  let body := bytes.dropLast.dropLast
  let check := bytes.drop body.length
  if wordBytes (crc16 body) = check then .complete (body.headD 0) (body.drop 2)
  else .discarded .check bytes.head?

/-- One character into a receiver. While HUNTING every byte other than 0xA5, and every character with a low stop bit, is
dropped (R167, R176). -/
def rxChar (now : Nat) (c : RxChar) (r : Receiver) : Receiver × RxEvent :=
  match r.mode with
  | .lineLow => (r, .going)
  | .hunting =>
    if c.stopHigh && c.byte = 0xA5 then ({ mode := .inFrame, bytes := [], lastChar := now }, .going) else (r, .going)
  | .inFrame =>
    let idle : Receiver := { mode := .hunting, bytes := [], lastChar := now }
    if c.stopHigh then
      let bytes := r.bytes ++ [c.byte]
      match bytes with
      | _ :: len :: _ =>
        if 60 < len.toNat then (idle, .discarded .length bytes.head?)
        else if bytes.length < len.toNat + 4 then ({ mode := .inFrame, bytes := bytes, lastChar := now }, .going)
        else (idle, frameEnd bytes)
      | _ => ({ mode := .inFrame, bytes := bytes, lastChar := now }, .going)
    else (idle, .discarded .framing r.bytes.head?)

/-! ### Payloads -/

/-- The fields of an ORDER as received (R177). -/
structure OrderFields where
  order : OrderNo
  job : Word
  sheetIndex : Word
  front : Word
  back : Word
  flags : Byte
  route : Byte
  length : Word
  cls : Byte
  set : Byte
deriving DecidableEq, Repr

/-- The payload of an ORDER; none where its Length is not 16 (R170, R177). -/
def decodeOrder : List Byte → Option OrderFields
  | [n1, n0, j1, j0, s1, s0, f1, f0, b1, b0, flags, route, l1, l0, cls, set] =>
    some { order := wordOf n1 n0, job := wordOf j1 j0, sheetIndex := wordOf s1 s0, front := wordOf f1 f0,
           back := wordOf b1 b0, flags := flags, route := route, length := wordOf l1 l0, cls := cls, set := set }
  | _ => none

/-- Bit 0 of the flags: back page present (R177). -/
def OrderFields.backPresent (o : OrderFields) : Bool := o.flags.getLsbD 0

/-- Bit 1 of the flags: set-last (R177). -/
def OrderFields.setLast (o : OrderFields) : Bool := o.flags.getLsbD 1

/-- The set number; 0 stands for absent (R33, R177). -/
def OrderFields.setNumber (o : OrderFields) : Option Byte := if o.set = 0 then none else some o.set

/-- A byte as an index below `n`; none where it is out of range. -/
def indexOf (n : Nat) (b : Byte) : Option (Fin n) := if h : b.toNat < n then some ⟨b.toNat, h⟩ else none

/-- The set a finisher report names; none where its bin is no bin (R144). -/
def setNameOf (bin set : Byte) : Option SetName := (indexOf 8 bin).map fun b => { bin := b, set := set }

/-- A yes-or-no byte: 0 or 1; anything else is out of range (R10, R181). -/
def yesNo (b : Byte) : Option Bool := if b = 0 then some false else if b = 1 then some true else none

/-- A kind byte of WRITE BIN: STACK 0, SET 1 (R181). -/
def binKindOf (b : Byte) : Option BinKind := if b = 0 then some .stack else if b = 1 then some .set else none

/-- A cover byte: 0 to 3, or 0xFF for none (R10, R181). -/
def coverOf (b : Byte) : Option (Option Cover) := if b = 0xFF then some none else (indexOf 4 b).map some

/-! ### Arguments of the table writes -/

/-- A station record from zone and qualify time; a qualify time of 0 is stored as 1 (R10). -/
def stationOf (zone qualify : Byte) : Option StationRec :=
  (indexOf 12 zone).map fun z => { defined := true, zone := z, qualify := max 1 qualify.toNat }

/-- A zone record from purgeable and cover (R10). -/
def zoneOf (purgeable cover : Byte) : Option ZoneRec := do
  let p ← yesNo purgeable
  let c ← coverOf cover
  return { defined := true, purgeable := p, cover := c }

/-- A bin record from kind and zone (R10). -/
def binOf (kind zone : Byte) : Option BinRec := do
  let k ← binKindOf kind
  let z ← indexOf 12 zone
  return { defined := true, kind := k, zone := z }

/-- One visit of WRITE ROUTE from its station-and-flags byte and its distance (R181). -/
def visitOf (flags hi lo : Byte) : Option Visit := do
  let a ← Anchor.ofNumber (flags.extractLsb' 2 2).toNat
  return { station := (flags.extractLsb' 4 4).toFin, anchor := a, distance := wordOf hi lo,
           check := flags.getLsbD 0 }

/-- The visits of WRITE ROUTE, three bytes each (R181). -/
def visitsOf : List Byte → Option (List Visit)
  | [] => some []
  | f :: hi :: lo :: rest => do
    let v ← visitOf f hi lo
    let vs ← visitsOf rest
    return v :: vs
  | _ => none

/-- The divert of WRITE ROUTE: d and w count only when it is present (R10, R181). -/
def divertOf (present d w : Byte) : Option (Option Divert) := do
  let p ← yesNo present
  if p then
    let d ← indexOf 16 d
    let w ← indexOf 32 w
    return some { d := d, w := w }
  else return none

/-- A route record from the arguments after the visit count (R10, R181). -/
def routeOf (bin c present d w : Byte) (visits : List Byte) : Option RouteRec := do
  let b ← indexOf 8 bin
  let c ← indexOf 16 c
  let dv ← divertOf present d w
  let vs ← visitsOf visits
  return { defined := true, visits := vs, bin := b, completeAfter := c, divert := dv }

/-- A limit stored within its range: the nearer end where it is outside (R7). -/
def clampTo (lo hi v : Nat) : Nat := max lo (min hi v)

/-- The limits record from 14 values in the row order of R7, each clamped as R7 states. -/
def limitsOf : List Nat → Option Limits
  | [eb, lb, sl, tb, sr, ln, lt, se, s0, s1, s2, sc, sw, al] =>
    some { earlyBase := clampTo 0 4095 eb, lateBase := clampTo 0 4095 lb, slip := clampTo 0 200 sl,
           trailBase := clampTo 0 4095 tb, stretch := clampTo 0 200 sr, lengthBase := clampTo 0 4095 ln,
           lengthTol := clampTo 0 200 lt, settleTime := clampTo 50 1000 se, stall0 := clampTo 1 255 s0,
           stall1 := clampTo 1 255 s1, stall2 := clampTo 1 255 s2, setConfirm := clampTo 1 255 sc,
           speedWait := clampTo 10 255 sw, attemptLimit := clampTo 1 7 al }
  | _ => none

/-- The 14 values of a limits record in the row order of R7. -/
def limitsValues (l : Limits) : List Nat :=
  [l.earlyBase, l.lateBase, l.slip, l.trailBase, l.stretch, l.lengthBase, l.lengthTol, l.settleTime, l.stall0, l.stall1,
   l.stall2, l.setConfirm, l.speedWait, l.attemptLimit]

/-- Pairs of bytes as 16-bit values, high byte first; none where a byte is left over (R166). -/
def wordsOf : List Byte → Option (List Word)
  | [] => some []
  | hi :: lo :: rest => (wordsOf rest).map (wordOf hi lo :: ·)
  | _ => none

/-- Whether the arguments of a table write have the length R181 gives: with defined 0 they need only reach the defined
byte, else they have exactly `len` bytes. -/
def writeLengthOk (len : Nat) (args : List Byte) : Bool :=
  match args with
  | _ :: defined :: _ => if defined = 0 then true else args.length = len
  | _ => false

/-- The length check of WRITE ROUTE: with defined 1 a visit count of 0 or above 16 fails before the length is judged
(R178, R181). -/
def routeLengthOk (args : List Byte) : Bool :=
  match args with
  | _ :: defined :: rest =>
    if defined = 0 then true
    else match rest with
      | count :: _ =>
        if defined = 1 && (count.toNat = 0 || 16 < count.toNat) then false else args.length = 8 + 3 * count.toNat
      | [] => false
  | _ => false

/-- The mode, count, trigger kind and mask of ARM CAPTURE; none in the cases R190 refuses. Bits of the mask above the ten
kinds name no kind (log 18). -/
def armOf (mode count : Nat) (kindByte : Byte) (mask : EventMask) : Option CaptureMode :=
  if mask = 0 then none
  else if mode = 0 then (if 1 ≤ count ∧ count ≤ 512 then some (.count count) else none)
  else if mode = 1 then
    match EventKind.ofCode kindByte with
    | some k => if count ≤ 511 ∧ mask.getLsbD k.number then some (.trigger k count) else none
    | none => none
  else none

end Sys2Proof.Machine
end

