-- ==== Sys2Proof/Machine/Ops.lean ====
section
/-! DEFINITION. The operations every family shares: positions and order numbers, notices, trace events, the stall timer,
sensing at the edge of STANDBY, the change of part state, credit, PATH CONTROL frames, barriers and the arbiters. -/

namespace Sys2Proof.Machine

/-! ### Tables of fixed size -/

/-- The vector whose entry at `i` is `f i`. -/
def tabulate {α : Type} {n : Nat} (f : Fin n → α) : Vector α n := ⟨⟨List.ofFn f⟩, by simp⟩

/-- All indexes below `n` that satisfy `p`, ascending. -/
def indexesWhere {n : Nat} (p : Fin n → Bool) : List (Fin n) := (List.finRange n).filter p

/-! ### Positions, distances and times -/

/-- The modular difference of two positions (R20). -/
def posDiff (a b : Pos) : Int := (a - b).toInt

/-- `a` is at or beyond `b` (R20). -/
def atOrBeyond (a b : Pos) : Bool := decide (0 ≤ posDiff a b)

/-- `a` is before `b` (R20). -/
def before (a b : Pos) : Bool := decide (posDiff a b < 0)

/-- A per-mille term, rounded up (00_scope.md 3.4). -/
def perMille (x rate : Nat) : Nat := (x * rate + 999) / 1000

/-- The distance of order number `n` above H (R35). -/
def orderDist (h n : OrderNo) : Nat := (n - h).toNat

/-- CLK periods in 50 µs, the unit of the qualify time, at 24 MHz. -/
def clk50us : Nat := 1200

/-- CLK periods in 1 ms. -/
def clkMs : Nat := 24000

/-- Passing of one CLK period: the millisecond count follows (R21; log 1). -/
def tick (s : State) : State :=
  let now := s.pos.clock + 1
  { s with pos.clock := now
           pos.msCount := if now % clkMs = 0 then s.pos.msCount + 1 else s.pos.msCount }

/-! ### Notices and trace events -/

/-- A notice joins the notice queue of the upper port, or is counted as lost when it holds 48 (R174). -/
def makeNotice (n : Notice) (s : State) : State :=
  if s.link.notices.length < 48 then { s with link.notices := s.link.notices ++ [n] }
  else { s with link.lossCount := min 255 (s.link.lossCount + 1) }

/-- A notice joins the service notice queue, or is discarded when it holds 8 (R176). -/
def makeServiceNotice (n : Notice) (s : State) : State :=
  if s.svc.notices.length < 8 then { s with svc.notices := s.svc.notices ++ [n] } else s

/-- A LINK ERROR goes to the service port for a service-port condition and to the upper port otherwise (R169, R175). -/
def makeLinkError (port : Port) (reason : LinkReason) (third : Byte) (s : State) : State :=
  match port with
  | .service => makeServiceNotice (.linkError port reason third) s
  | .upper => makeNotice (.linkError port reason third) s
  | .lower => makeNotice (.linkError port reason third) s

/-- The CAPTURE DONE notice goes where the service claim flag says (R190, 10.6). -/
def makeCaptureDone (s : State) : State :=
  if s.svc.claim then makeServiceNotice (.captureDone s.cap.buffer.length) s
  else makeNotice (.captureDone s.cap.buffer.length) s

/-- A record added to a RUNNING capture, by its mode (R190). -/
def addRecord (r : TraceRec) (c : Capture) : Capture :=
  match c.mode with
  | .count n =>
    let buffer := c.buffer ++ [r]
    { c with buffer := buffer, state := if n ≤ buffer.length then .stopped else c.state }
  | .trigger k count =>
    let buffer := (if 512 ≤ c.buffer.length then c.buffer.drop 1 else c.buffer) ++ [r]
    let post := match c.post with
      | none => if r.kind = k then some count else none
      | some m => some (m - 1)
    { c with buffer := buffer, post := post, state := if post = some 0 then .stopped else c.state }

/-- An event offered to Trace Capture: recorded when the capture is RUNNING and the kind is in the mask (R189). -/
def offerEvent (k : EventKind) (p : Pos) (st : Option Station) (order : Option OrderNo) (detail : Byte) (s : State) :
    State :=
  if s.cap.state = .running ∧ s.cap.mask.getLsbD k.number then
    let c := addRecord { kind := k, p := p, ms := s.pos.msCount, station := st, order := order, detail := detail } s.cap
    let s' := { s with cap := c }
    if c.state = .stopped then makeCaptureDone s' else s'
  else s

/-- A free word for a number field that is absent (log 14). -/
def freeWord (s : State) : Word := Config.absentWord s.free

/-- The next free words are fresh ones. -/
def useFree (n : Nat) (s : State) : State := { s with free := s.free + n }

/-! ### Stall timer and sensing modes -/

/-- The tracking table holds no record. -/
def trackingEmpty (s : State) : Bool := s.trk.table.toList.all (·.isNone)

/-- The number of tracking records held. -/
def trackingCount (s : State) : Nat := (s.trk.table.toList.filter (·.isSome)).length

/-- The four states in which a stall is measured (R23). -/
def stallState : PartState → Bool
  | .running => true
  | .speedChange => true
  | .purging => true
  | .held => true
  | .starting => false
  | .unconfigured => false
  | .idle => false
  | .stopping => false
  | .awaitClear => false
  | .standby => false

/-- The three conditions under which the stall timer is measured (R23). -/
def stallMeasured (s : State) : Bool := stallState s.sup.state && s.pos.trunQual && !trackingEmpty s

/-- The stall timer after an event: stopped where a condition fails; started where they come to hold; started again from
now where the event is one of the four moments of R23. An event taken after the limit has run out and before STALL does the
same: the STALL is then no longer due (log 5). -/
def syncStall (moment : Bool) (s : State) : State :=
  { s with pos.stallTimer :=
      if stallMeasured s then
        (if moment || s.pos.stallTimer = .stopped then .running s.pos.clock else s.pos.stallTimer)
      else .stopped }

/-- Entry into STANDBY: pending changes are dropped and sampling begins (R28, R29). -/
def beginSampling (s : State) : State :=
  { s with front.emit := false
           front.emitFrom := s.pos.clock
           front.stations := tabulate fun i =>
             let x := s.front.stations[i]
             { x with pending := none, sample := none } }

/-- Leaving STANDBY: EMIT is held asserted, first differing samples are dropped, and a defined station whose raw level
differs from its qualified level starts a pending change (R29). -/
def endSampling (s : State) : State :=
  { s with front.emit := true
           front.stations := tabulate fun i =>
             let x := s.front.stations[i]
             if s.tables.stations[i].defined && x.raw != x.qual then
               { x with sample := none, pending := some { toCovered := x.raw, p := s.pos.p, time := s.pos.clock } }
             else { x with sample := none, pending := none } }

/-! ### The part state -/

/-- The states in which PATH HALT is asserted (R151). -/
def haltAsserted : PartState → Bool
  | .starting => true
  | .stopping => true
  | .awaitClear => true
  | .unconfigured => false
  | .idle => false
  | .running => false
  | .speedChange => false
  | .purging => false
  | .held => false
  | .standby => false

/-- What a change of part state does to the Supervisor's own items: PATH HALT follows the state (R151), the held reason is
none outside HELD (R135), the purge state is discarded outside PURGING (R126). -/
def Supervisor.moveTo (x : Supervisor) (st : PartState) : Supervisor :=
  { x with state := st, pathHalt := haltAsserted st,
           heldReason := if st = .held then x.heldReason else none,
           purge := if st = .purging then x.purge else none }

/-- The settle watch runs from the entry into STOPPING until the part leaves it (R22), P is noted at the entry into
AWAIT CLEAR (R79), and a report of the declaration's moment is no longer taken once the part has left STOPPING (log 35). -/
def enterTimers (st : PartState) (s : State) : State :=
  { s with pos.settleFrom := if st = .stopping then some s.pos.clock else none
           reached := if st = .stopping then s.reached else .nothing
           trk.notedP := if st = .awaitClear then some s.pos.p else s.trk.notedP }

/-- Sensing changes with the part state (R29). -/
def enterSensing (st : PartState) (s : State) : State :=
  if s.sup.state = .standby then endSampling s else if st = .standby then beginSampling s else s

/-- A change of part state with its STATE event and STATE notice; entering the state the part holds is no change (R150). The
event is offered first, so that a CAPTURE DONE which it makes precedes the STATE notice; the spec orders the two nowhere, and this is
the model's choice (log 19). -/
def enterState (st : PartState) (s : State) : State :=
  if s.sup.state = st then s
  else
    let s1 := enterTimers st (enterSensing st s)
    let s2 := syncStall true { s1 with sup := s1.sup.moveTo st }
    makeNotice (.state st s2.sup.heldReason) (offerEvent .state s2.pos.p none none st.code s2)

/-! ### Entries and credit -/

/-- Apply `f` to every retention entry. -/
def mapEntries (f : Entry → Entry) (s : State) : State := { s with ret.entries := s.ret.entries.map f }

/-- Apply `f` to the entry numbered `n`. -/
def updateEntry (n : OrderNo) (f : Entry → Entry) (s : State) : State :=
  mapEntries (fun e => if e.order = n then f e else e) s

/-- The entry numbered `n`, if held. -/
def findEntry (s : State) (n : OrderNo) : Option Entry := s.ret.entries.find? (fun e => e.order = n)

/-- H: the head's order number, else the expected next number, else unset (R41). -/
def Retention.h (r : Retention) : Option OrderNo :=
  match r.entries with
  | e :: _ => some e.order
  | [] => r.expected

/-- What a CREDIT frame carries (R41, R42). -/
def creditContent (r : Retention) : CreditContent :=
  match r.h with
  | some h => { limit := h + 31, oldest := h, isOpen := false }
  | none => { limit := 31, oldest := 0, isOpen := true }

/-- A CREDIT frame waits with the current content; a waiting frame takes the new content (R42). -/
def makeCredit (s : State) : State := { s with link.credit := some (creditContent s.ret) }

/-- A CREDIT frame is made when an event has changed the content (R42). -/
def creditIfChanged (old : CreditContent) (s : State) : State := if creditContent s.ret = old then s else makeCredit s

/-- COMMITTED and SKIPPED entries leave from the head, as one run (R52). -/
def removeHeads (s : State) : State :=
  creditIfChanged (creditContent s.ret)
    { s with ret.entries := s.ret.entries.dropWhile (fun e => e.state = .committed || e.state = .skipped) }

/-- The lowest-numbered QUEUED entry (R43). -/
def lowestQueued (s : State) : Option Entry := s.ret.entries.find? (fun e => e.state = .queued)

/-- The lowest-numbered entry that is QUEUED or is a HELD entry (R133). -/
def lowestWaiting (s : State) : Option Entry := s.ret.entries.find? (fun e => e.state = .queued || e.state = .held)

/-- The number of FORWARDED entries. -/
def forwardedCount (s : State) : Nat := (s.ret.entries.filter (fun e => e.state = .forwarded)).length

/-- The engine window: a value above 8 means closed (R45). -/
def engineWindow (x : Forwarder) : Nat :=
  let w := (x.limit - x.f).toNat
  if w ≤ 8 then w else 0

/-! ### PATH CONTROL frames -/

/-- A PATH CONTROL frame joins the lower transmitter's waiting frames (R173). -/
def queueControl (f : PathControl) (s : State) : State := { s with link.pathControl := s.link.pathControl ++ [f] }

/-- The sub-commands that a HALT lets stand: LINK START, HALT and SET VOID (R86). -/
def PathControl.survivesHalt : PathControl → Bool
  | .linkStart => true
  | .halt => true
  | .setVoid _ => true
  | .run => false
  | .purgeRun _ _ _ => false
  | .speedChange _ => false

/-- Whether a frame is a SET VOID. -/
def PathControl.isSetVoid : PathControl → Bool
  | .setVoid _ => true
  | .linkStart => false
  | .halt => false
  | .run => false
  | .purgeRun _ _ _ => false
  | .speedChange _ => false

/-- The waiting frames after a HALT is requested: RUN, PURGE RUN and SPEED CHANGE are withdrawn, a waiting HALT is merged
with, and SET VOID frames stay behind the HALT (R86; log 10). -/
def haltFrames (waiting : List PathControl) : List PathControl :=
  let kept := waiting.filter (·.survivesHalt)
  if kept.contains .halt then kept
  else kept.takeWhile (!·.isSetVoid) ++ .halt :: kept.dropWhile (!·.isSetVoid)

/-- A HALT is requested: the engine limit is set to F and the window-hold flag is set (R46, R86). -/
def requestHalt (s : State) : State :=
  { s with link.pathControl := haltFrames s.link.pathControl
           fwd.limit := s.fwd.f
           fwd.windowHold := true }

/-! ### Barriers and the arbiters -/

/-- An entry satisfies a barrier when its first FORWARDED ORDER frame has been sent whole or withdrawn, when it is
SKIPPED, or when it has left the queue (R171). -/
def satisfiesBarrier (entries : List Entry) (n : OrderNo) : Bool :=
  match entries.find? (fun e => e.order = n) with
  | some e => e.firstSent || e.state = .skipped
  | none => true

/-- The test of every waiting barrier: orders that satisfy it leave its mark (R171). -/
def retestBarriers (s : State) : State :=
  { s with link.commands := s.link.commands.map fun c =>
      { c with mark := c.mark.map fun m => m.filter fun n => !satisfiesBarrier s.ret.entries n } }

/-- The oldest ready frame of the command queue, and the queue without it: a barrier is ready when it is releasable and
no barrier is ahead of it (R171). `blocked` says that one is. -/
def takeReady (blocked : Bool) : List Command → Option (Command × List Command)
  | [] => none
  | c :: cs =>
    let ready := match c.mark with
      | none => true
      | some m => !blocked && m.isEmpty
    if ready then some (c, cs)
    else (takeReady (blocked || c.mark.isSome) cs).map fun x => (x.1, c :: x.2)

/-- The grant of the lower transmitter: PATH CONTROL, then the command queue, then FORWARDED ORDER; until LINK START has
been sent whole, PATH CONTROL only (R173). -/
def grantLower (s : State) : State :=
  match s.link.lowerTx with
  | some _ => s
  | none =>
    match s.link.pathControl with
    | f :: rest => { s with link.pathControl := rest, link.lowerTx := some (.pathControl f) }
    | [] =>
      if s.link.linkStarted then
        match takeReady false s.link.commands with
        | some (c, rest) => { s with link.commands := rest, link.lowerTx := some (.command c) }
        | none =>
          match s.link.forwarded with
          | f :: rest => { s with link.forwarded := rest, link.lowerTx := some (.forwardedOrder f) }
          | [] => s
      else s

/-- The notice queue after its oldest notice has left it: a LINK ERROR with reason NOTICE LOSS joins when notices have
been lost (R174). -/
def afterNoticeLeaves (rest : List Notice) (loss : Nat) : List Notice :=
  if 0 < loss then rest ++ [.linkError .upper .noticeLoss (byteOf loss)] else rest

/-- The grant of the upper transmitter: CREDIT, replies, notices, forwarded frames (R174). -/
def grantUpper (s : State) : State :=
  match s.link.upperTx with
  | some _ => s
  | none =>
    match s.link.credit with
    | some c => { s with link.credit := none, link.upperTx := some (.credit c) }
    | none =>
      match s.link.replies with
      | r :: rest => { s with link.replies := rest, link.upperTx := some (.reply r) }
      | [] =>
        match s.link.notices with
        | n :: rest =>
          { s with link.notices := afterNoticeLeaves rest s.link.lossCount
                   link.lossCount := 0
                   link.upperTx := some (.notice n) }
        | [] =>
          match s.link.reports with
          | f :: rest => { s with link.reports := rest, link.upperTx := some (.report f) }
          | [] => s

/-- The grant of the service transmitter: the reply slot, then the service notices; the receive frame is free once the
reply starts (R176). -/
def grantService (s : State) : State :=
  match s.svc.tx with
  | some _ => s
  | none =>
    match s.svc.reply with
    | some r => { s with svc.reply := none, svc.held := none, svc.tx := some (.reply r) }
    | none =>
      match s.svc.notices with
      | n :: rest => { s with svc.notices := rest, svc.tx := some (.notice n) }
      | [] => s

/-- The end of every command: barriers are tested and each idle transmitter is granted a frame (R171, R173, R174, R176;
log 4). -/
def finish (s : State) : State := grantService (grantUpper (grantLower (retestBarriers s)))

/-- A command that takes its effect: the effect, then the end of the command. -/
def done (s : State) : Host.Outcome State Fault Refusal := .next (finish s)

/-- A command whose occasion may fail to hold: without it the event has not happened and the state stays (log 2). -/
def doneIf (occasion : Bool) (s t : State) : Host.Outcome State Fault Refusal :=
  if occasion then done t else .next s

end Sys2Proof.Machine
end

