-- ==== Sys2Proof/Machine/Forward.lean ====
section
/-! DEFINITION. The Order Forwarder and the part-state changes it brings about (R43, R44, R135, R137, R155, R159, R160):
shared operations of every family that can let an order go on. -/

namespace Sys2Proof.Machine

/-- The two states in which the forwarder acts (R43, R150). -/
def forwarderActs : PartState → Bool
  | .idle => true
  | .running => true
  | .starting => false
  | .unconfigured => false
  | .speedChange => false
  | .stopping => false
  | .awaitClear => false
  | .purging => false
  | .held => false
  | .standby => false

/-- A HELD entry is below the entry numbered `n` (R43). -/
def heldBelow (s : State) (n : OrderNo) : Bool :=
  (s.ret.entries.takeWhile fun x => x.order ≠ n).any fun x => x.state = .held

/-- The conditions of R43 but for the speed class. -/
def mayForward (s : State) (e : Entry) : Bool :=
  forwarderActs s.sup.state && !heldBelow s e.order && 0 < engineWindow s.fwd && forwardedCount s < 8

/-- The entry as forwarding leaves it (R44). -/
def Entry.forward (e : Entry) : Entry :=
  { e with state := .forwarded, attempt := if e.unpicked then e.attempt else e.attempt + 1, unpicked := false }

/-- Forwarding: the entry, F and the FORWARDED ORDER frame (R44); taken from IDLE it moves the part to RUNNING (R43). -/
def forwardEntry (e : Entry) (s : State) : State :=
  let s1 := updateEntry e.order Entry.forward s
  let s2 := { s1 with fwd.f := s.fwd.f + 1
                      link.forwarded := s.link.forwarded ++ [{ entry := e.forward, live := true }] }
  if s.sup.state = .idle then enterState .running s2 else s2

/-- The forwarder considers the lowest QUEUED entry and goes on until a condition fails; an entry of another class forms
the speed request (R43, R159). The first argument bounds the number of entries considered. -/
def considerQueue : Nat → State → State
  | 0, s => s
  | n + 1, s =>
    if s.fwd.request.isSome then s
    else match lowestQueued s with
      | none => s
      | some e =>
        if mayForward s e then
          if e.cls = s.fwd.speed then considerQueue n (forwardEntry e s)
          else { s with fwd.request := some (e.cls, e.order) }
        else s

/-- A speed request held in RUNNING follows the lowest QUEUED entry when the entry it names is no longer that one (R159;
log 16). -/
def reviewRequest (s : State) : State :=
  match s.fwd.request with
  | none => s
  | some (_, n) =>
    if s.sup.state = .running then
      match lowestQueued s with
      | none => { s with fwd.request := none }
      | some e =>
        if e.order = n then s
        else if e.cls = s.fwd.speed || heldBelow s e.order then { s with fwd.request := none }
        else { s with fwd.request := some (e.cls, e.order) }
    else s

/-- The drain is complete when a request is held, the tracking table is empty and no entry is FORWARDED: a SPEED CHANGE
frame is queued and the part enters SPEED CHANGE (R159, R160). -/
def drainCheck (s : State) : State :=
  match s.fwd.request with
  | none => s
  | some (cls, _) =>
    if forwarderActs s.sup.state && trackingEmpty s && forwardedCount s = 0 then
      enterState .speedChange (queueControl (.speedChange cls) s)
    else s

/-- Entry into HELD: the HELD notice, then the STATE notice (R135, R162). That the HELD notice is ahead of the STATE event as well is
the model's choice (log 19). -/
def enterHeld (reason : HeldReason) (n : OrderNo) (s : State) : State :=
  let s1 := makeNotice (.held n reason) s
  enterState .held { s1 with sup.heldReason := some reason }

/-- In RUNNING, the HELD condition brings the part to HELD with reason ATTEMPTS (R135). -/
def heldCheck (s : State) : State :=
  if s.sup.state = .running then
    match lowestWaiting s with
    | some e => if e.state = .held then enterHeld .attempts e.order s else s
    | none => s
  else s

/-- Whether nothing keeps the part in RUNNING (R155). -/
def nothingToRun (s : State) : Bool :=
  (lowestQueued s).isNone && forwardedCount s = 0 && trackingEmpty s && s.fwd.request.isNone

/-- RUNNING to IDLE (R155). -/
def idleCheck (s : State) : State :=
  if s.sup.state = .running && nothingToRun s then enterState .idle s else s

/-- All that follows when something lets the forwarder consider the queue: the request, the queue, the drain, the HELD
condition and the return to IDLE. -/
def forwarderPass (s : State) : State :=
  let s1 := reviewRequest s
  idleCheck (heldCheck (drainCheck (considerQueue (s1.ret.entries.length + 1) s1)))

/-- The state replay and an accepted SPEED READY choose: from the lowest entry that is QUEUED or is a HELD entry (R133,
R161). -/
def chosenState (s : State) : PartState :=
  match lowestWaiting s with
  | some e => if e.state = .held then .held else .running
  | none => .idle

/-- The part enters the chosen state, with the HELD notice ahead of the STATE notice where that state is HELD (R133,
R135). -/
def enterChosen (s : State) : State :=
  match lowestWaiting s with
  | some e => if e.state = .held then enterHeld .attempts e.order s else enterState .running s
  | none => enterState .idle s

/-- The order number of the lowest HELD entry. -/
def lowestHeld (s : State) : Option OrderNo := (s.ret.entries.find? fun e => e.state = .held).map (·.order)

/-- What SKIP ORDER and CANCEL JOB do to a part in HELD with reason ATTEMPTS; `old` is the lowest HELD entry before the
command (R135, R137). -/
def leaveHeld (old : Option OrderNo) (s : State) : State :=
  match lowestWaiting s with
  | some e =>
    if e.state = .held then
      (if old = some e.order then s else makeNotice (.held e.order .attempts) s)
    else forwarderPass (enterState .running s)
  | none =>
    if trackingEmpty s && forwardedCount s = 0 then enterState .idle s else forwarderPass (enterState .running s)

/-- What follows the withdrawal of entries by SKIP ORDER or CANCEL JOB, by the part state (R53, R137, R155, R159). -/
def afterWithdrawal (old : Option OrderNo) (s : State) : State :=
  if s.sup.state = .held then
    (if s.sup.heldReason = some .attempts then leaveHeld old s else s)
  else forwarderPass s

/-- The part wakes from STANDBY to IDLE (R164). -/
def wakeToIdle (s : State) : State := if s.sup.state = .standby then enterState .idle s else s

end Sys2Proof.Machine
end

