-- ==== Sys2Proof/Machine/Moment.lean ====
section
/-! DEFINITION. What is due at a moment: the position watches (R58, R75 to R77), the stall limit (R23) and the covers (R30,
R31), and what of it a declaration of a stop finds due, which joins that stop (R20, R31, R84, R92; log 35). -/

namespace Sys2Proof.Machine

/-! ### Position watches -/

/-- The states in which watches are acted on (R58). -/
def watchesActed : PartState → Bool
  | .idle => true
  | .standby => true
  | .running => true
  | .speedChange => true
  | .held => true
  | .purging => true
  | .stopping => false
  | .awaitClear => false
  | .starting => false
  | .unconfigured => false

/-- The watched position, one step beyond a bound, is reached (R20, R75, R76). -/
def watchReached (s : State) (bound : Pos) : Bool := atOrBeyond s.pos.p (bound + 1)

/-- A change that is still qualifying defers an expiry: it is toward the level that satisfies the watch and began at or
before the bound; in STANDBY a first differing sample counts in the same way (R77). -/
def deferred (s : State) (st : Station) (toCovered : Bool) (bound : Pos) : Bool :=
  let x := s.front.stations[st]
  (match x.pending with
    | some c => c.toCovered = toCovered && atOrBeyond bound c.p
    | none => false) ||
  (match x.sample with
    | some p => s.sup.state = .standby && x.qual != toCovered && atOrBeyond bound p
    | none => false)

/-- A watch toward a level is reached in a state that acts on watches, and no change defers its expiry (R58, R75 to R77). -/
def watchDue (s : State) (st : Station) (toCovered : Bool) (bound : Pos) : Bool :=
  watchesActed s.sup.state && watchReached s bound && !deferred s st toCovered bound

/-- In STOPPING, a watch that was due when the stop was declared is still to be acted on: each watch that one pulse reaches is
(R20), and its cause joins the stop (R84; log 35). It is the watch of this very head or occupant `x`, unspent: one that takes its
place at the station is watched anew, which STOPPING does not act on (R75, R76, R78), and a watch that has been taken leaves the list
(lateSettled, stuckSettled). -/
def joinsStop {α : Type} [DecidableEq α] (s : State) (watches : List (Station × α)) (st : Station) (x : α) : Bool :=
  s.sup.state = .stopping && decide ((st, x) ∈ watches)

/-- The head of the station's list is due for its LATE expiry: now (R75, R77), or since the declaration of the stop under way
(R20, R84; log 35). -/
def lateDue (s : State) (st : Station) : Bool :=
  match s.trk.lists[st] with
  | x :: _ => !x.spent && (watchDue s st true x.late || joinsStop s s.reached.late st x)
  | [] => false

/-- The occupant of the station is due for its STUCK expiry: now (R76, R77), or since the declaration of the stop under way
(R20, R84; log 35). -/
def stuckDue (s : State) (st : Station) : Bool :=
  match s.trk.slots[st] with
  | some o => !o.spent && (watchDue s st false o.offLate || joinsStop s s.reached.stuck st o)
  | none => false

/-! ### The stall limit -/

/-- The stall limit of the current speed class, in units of 10 ms (R7, R23). -/
def stallLimit (s : State) : Nat :=
  match s.fwd.speed with
  | 0 => s.tables.limits.stall0
  | 1 => s.tables.limits.stall1
  | 2 => s.tables.limits.stall2

/-- The stall limit has run out (R23), or had run out when the stop under way was declared (R84, R92; log 35). -/
def stallDue (s : State) : Bool :=
  (match s.pos.stallTimer with
    | .running since => decide (stallLimit s * (10 * clkMs) ≤ s.pos.clock - since)
    | .stopped => false
    | .waiting => false) ||
  (s.sup.state = .stopping && s.reached.stall)

/-! ### Covers -/

/-- A pending change has held for `limit` CLK periods. -/
def heldFor (limit now : Nat) (pending : Option Nat) : Bool :=
  match pending with
  | some t => limit ≤ now - t
  | none => false

/-- The change of a cover to a level has held for 5 ms (R30). -/
def coverHeld (c : Cover) (toClosed : Bool) (s : State) : Bool :=
  let x := s.front.covers[c]
  heldFor (5 * clkMs) s.pos.clock x.pending && x.rawClosed = toClosed && x.closed ≠ toClosed

/-- An opening raises a COVER cause while sheets are tracked or the part is in RUNNING or PURGING (R31, R93). -/
def coverMatters (s : State) : Bool := !trackingEmpty s || s.sup.state = .running || s.sup.state = .purging

/-- The opening of a cover raises a COVER cause now (R31, R93), or would have done so at the moment at which the stop under way
was declared, and joins it (R31, R84; log 35). -/
def openingMatters (c : Cover) (s : State) : Bool :=
  coverMatters s || (s.sup.state = .stopping && s.reached.covers.contains c)

/-! ### The moment of a declaration -/

/-- The head of a station's list, as a watch. -/
def headWatch (s : State) (st : Station) : Option (Station × Expectation) := ((s.trk.lists[st]).head?).map fun x => (st, x)

/-- The occupant of a station, as a watch. -/
def slotWatch (s : State) (st : Station) : Option (Station × Occupant) := (s.trk.slots[st]).map fun o => (st, o)

/-- What is due in this state and has not been taken: the reports that join a stop declared now (R20, R31, R84, R92;
log 35). -/
def reachedNow (s : State) : Reached :=
  { late := (indexesWhere (lateDue s)).filterMap (headWatch s)
    stuck := (indexesWhere (stuckDue s)).filterMap (slotWatch s)
    stall := stallDue s
    covers := indexesWhere fun c : Cover => coverHeld c false s && coverMatters s }

/-- The LATE watch of head `x` is no longer one of the declaration's moment: its expiry has been taken or has been settled by an ON
(R75, R77), or the head has left the list (R60, R75). An expectation posted later is another watch, be it equal to `x`, and STOPPING
does not act on it (R78; log 35). -/
def lateSettled (st : Station) (x : Expectation) (s : State) : State :=
  { s with reached.late := s.reached.late.filter fun w => w ≠ (st, x) }

/-- The STUCK watch of occupant `o` is no longer one of the declaration's moment: its expiry has been taken, or the slot has been
emptied (R76; log 35). -/
def stuckSettled (st : Station) (o : Occupant) (s : State) : State :=
  { s with reached.stuck := s.reached.stuck.filter fun w => w ≠ (st, o) }

/-- The cover's opening is no longer one of the declaration's moment (log 35). -/
def coverSettled (c : Cover) (s : State) : State :=
  { s with reached.covers := s.reached.covers.filter fun d => d ≠ c }

end Sys2Proof.Machine
end

