-- ==== Sys2Proof/Machine/Jam.lean ====
section
/-! DEFINITION. The Jam Detector (05): cause records and their zones, the JAM notice, the declaration of a stop, the causes
that join it, and the deferred list. These are shared operations; the meanings that use them stand in the family files. -/

namespace Sys2Proof.Machine

/-- A cause report of the Sheet Tracker (R59). -/
structure Report where
  kind : CauseKind
  station : Station
  sheet : Option OrderNo
  pos : Pos
deriving DecidableEq, Repr

/-- The set of one zone. -/
def zoneBit (z : Zone) : ZoneSet := 1 <<< z.val

/-- The zone of a station's record. -/
def stationZone (t : Tables) (st : Station) : Zone := (t.stations[st]).zone

/-- Every defined zone (R82). -/
def definedZones (t : Tables) : ZoneSet :=
  (indexesWhere fun z : Zone => (t.zones[z]).defined).foldl (fun acc z => acc ||| zoneBit z) 0

/-- The guarded set of each cover: every defined zone whose cover field names it (R3). -/
def guardedSets (zones : Vector ZoneRec 12) : Vector ZoneSet 4 :=
  tabulate fun c =>
    (indexesWhere fun z : Zone => (zones[z]).defined && (zones[z]).cover = some c).foldl
      (fun acc z => acc ||| zoneBit z) 0

/-- The cause record of a tracker report (R81, R82). -/
def trackerCause (s : State) (r : Report) : Cause :=
  { kind := r.kind, station := some r.station, cover := none, set := none,
    zones := zoneBit (stationZone s.tables r.station), sheet := r.sheet, pos := r.pos }

/-- The cause record of a STALL event (R92). -/
def stallCause (s : State) : Cause :=
  { kind := .stall, station := none, cover := none, set := none, zones := 0, sheet := none, pos := s.pos.p }

/-- The cause record of a cover that became open (R93). -/
def coverCause (s : State) (c : Cover) : Cause :=
  { kind := .cover, station := none, cover := some c, set := none, zones := s.tables.guarded[c], sheet := none,
    pos := s.pos.p }

/-- The cause record of a finisher fault (R94). -/
def finisherCause (s : State) (n : SetName) : Cause :=
  { kind := .finisher, station := none, cover := none, set := some n,
    zones := zoneBit (s.tables.bins[n.bin]).zone, sheet := none, pos := s.pos.p }

/-- The PATH LOST cause of a link reset with tracked sheets (R82, R95). -/
def pathLostCause (s : State) : Cause :=
  { kind := .pathLost, station := none, cover := none, set := none, zones := definedZones s.tables, sheet := none,
    pos := s.pos.p }

/-- The JAM notice and the CAUSE event of a cause, with its treatment and list index (R89, R189). That the notice comes first is the
model's choice (log 19). -/
def announceCause (t : Treatment) (index : Nat) (c : Cause) (s : State) : State :=
  offerEvent .cause c.pos c.station c.sheet (c.kind.code ||| (t.code <<< 4))
    (useFree 1 (makeNotice (.jam t index c (freeWord s)) s))

/-- Whether a waiting FORWARDED ORDER frame is for an entry that is FORWARDED. -/
def isForForwarded (s : State) (f : ForwardedOrder) : Bool :=
  s.ret.entries.any fun e => e.order = f.entry.order && e.state = .forwarded

/-- Every FORWARDED entry returns to QUEUED as unpicked, and its waiting FORWARDED ORDER frame is withdrawn (R47). -/
def returnForwarded (s : State) : State :=
  let gone := s.link.forwarded.filter (isForForwarded s)
  { s with
    link.forwarded := s.link.forwarded.filter fun f => !isForForwarded s f
    ret.entries := s.ret.entries.map fun e =>
      if e.state = .forwarded then
        { e with state := .queued, unpicked := true,
                 firstSent := e.firstSent || gone.any fun f => f.entry.order = e.order }
      else e }

/-- The speed request is discarded and the speed-wait timer stops (R87, R156, R159). -/
def dropSpeedChange (s : State) : State := { s with fwd.request := none, sup.speedWait := none }

/-- The cause list holds one cause, and the more flag is clear (R85, R95). -/
def startCauses (c : Cause) (s : State) : State := { s with jam.causes := [c], jam.more := false }

/-- The reports of this moment that are still to be taken join the stop that is being declared (R20, R31, R84, R92;
log 35). -/
def keepReached (s : State) : State := { s with reached := reachedNow s }

/-- The declaration of a stop, one step over five blocks (R85, R86, R87). The JAM notice precedes the STATE notice (R85); that the
CAUSE event precedes the STATE event and the STATE notice is the model's choice (log 19). -/
def declareStop (c : Cause) (s : State) : State :=
  enterState .stopping
    (announceCause .declared 1 c (dropSpeedChange (returnForwarded (requestHalt (startCauses c (keepReached s))))))

/-- A cause joins the stop under way, or sets the more flag when the list is full (R90). -/
def joinStop (c : Cause) (s : State) : State :=
  if s.jam.causes.length < 4 then
    announceCause .joined (s.jam.causes.length + 1) c { s with jam.causes := s.jam.causes ++ [c] }
  else announceCause .notStored 0 c { s with jam.more := true }

/-- A FINISHER cause is put on the deferred list, unless its set already has a record there (R96). -/
def deferCause (c : Cause) (s : State) : State :=
  if s.jam.deferred.any (fun d => d.set = c.set) || 8 ≤ s.jam.deferred.length then s
  else announceCause .deferred 0 c { s with jam.deferred := s.jam.deferred ++ [c] }

/-- The treatment of a cause by the part state (R83). -/
def takeCause (c : Cause) (s : State) : State :=
  match s.sup.state with
  | .idle => declareStop c s
  | .standby => declareStop c s
  | .running => declareStop c s
  | .speedChange => declareStop c s
  | .held => declareStop c s
  | .purging => declareStop c s
  | .stopping => joinStop c s
  | .awaitClear => if c.kind = .finisher then deferCause c s else s
  | .starting => s
  | .unconfigured => s

/-- Tracker reports are taken in the order of the list, which is the model's choice where one edge makes two: EARLY or the length
report first, and then OVERRUN (R59, R84; log 40). -/
def takeReports (rs : List Report) (s : State) : State := rs.foldl (fun s r => takeCause (trackerCause s r) s) s

end Sys2Proof.Machine
end

