-- ==== Sys2Proof/Machine/Sets.lean ====
section
/-! DEFINITION. The Set Monitor (08): members, deliveries into a finisher, voiding, release and re-forming of set records. -/

namespace Sys2Proof.Machine

/-- The set an entry's set number names: the bin its route leads to, and the number (R139). -/
def entrySet (t : Tables) (e : Entry) : Option SetName :=
  e.set.map fun n => { bin := (t.routes[e.route]).bin, set := n }

/-- Order number `n` lies at or above `first`, which may have left the queue: the difference is read as a signed number
(R107; log 15). -/
def fromFirst (first n : OrderNo) : Bool := decide (0 ≤ (n - first).toInt)

/-- An entry is a member of a set record (R139; log 15). -/
def memberOf (t : Tables) (r : SetRec) (e : Entry) : Bool :=
  entrySet t e = some r.name && fromFirst r.first e.order

/-- The record of a set, if held. -/
def findSet (s : State) (n : SetName) : Option SetRec := s.sets.records.find? fun r => r.name = n

/-- Apply `f` to the record of a set. -/
def updateSet (n : SetName) (f : SetRec → SetRec) (s : State) : State :=
  { s with sets.records := s.sets.records.map fun r => if r.name = n then f r else r }

/-- The set-confirm timer starts now: its deadline (R143). -/
def confirmDeadline (s : State) : Nat := s.pos.clock + s.tables.limits.setConfirm * (100 * clkMs)

/-- A record becomes VOIDED and joins the void order list at its end (R139). -/
def becomeVoided (n : SetName) (s : State) : State :=
  let s1 := updateSet n (fun r => { r with state := .voided, deadline := none }) s
  { s1 with sets.voidOrder := s.sets.voidOrder ++ [n] }

/-- A record is freed; in AWAIT CLEAR a deferred cause of the set leaves the deferred list (R96, R140). -/
def freeSet (n : SetName) (s : State) : State :=
  { s with sets.records := s.sets.records.filter fun r => r.name ≠ n
           sets.voidOrder := s.sets.voidOrder.filter fun m => m ≠ n
           jam.deferred := if s.sup.state = .awaitClear then s.jam.deferred.filter fun c => c.set ≠ some n
                           else s.jam.deferred }

/-- A SET VOID frame is queued for a set (R55, R130, R141). -/
def queueSetVoid (n : SetName) (s : State) : State := queueControl (.setVoid n) s

/-- The SET VOID of a set that a delivery voids: left to the end of the drive-out in PURGING, queued at once in any other
state (R141). -/
def queueSetVoidOutsidePurge (n : SetName) (s : State) : State :=
  if s.sup.state = .purging then s else queueSetVoid n s

/-- A sheet is bound for a set (R142). -/
def isBound (t : Tables) (r : SetRec) (e : Entry) : Bool :=
  e.state = .inFlight && memberOf t r e && (e.mark = some .wasteAtDest || (r.cancelled && e.mark = none))

/-- At least one sheet is bound for the set (R142). -/
def anyBound (s : State) (r : SetRec) : Bool := s.ret.entries.any (isBound s.tables r)

/-- The re-formed record: OPEN from its lowest held member that is not SKIPPED (R146). -/
def reform (s : State) (r : SetRec) : SetRec :=
  let first := (s.ret.entries.find? fun e => memberOf s.tables r e && e.state ≠ .skipped).map (·.order)
  { r with first := first.getD r.first, delivered := 0, state := .opened, deadline := none }

/-- A set whose finisher holds nothing of it and for which no sheet is bound: freed when no member is held, re-formed
otherwise (R142, R146). -/
def releaseSet (r : SetRec) (s : State) : State :=
  if r.members = 0 then freeSet r.name s else updateSet r.name (fun _ => reform s r) s

/-- A member withdrawn at its delivery: SKIPPED in a cancelled set, which lowers the member count, else REPRINT (R141). -/
def withdrawDelivered (r : SetRec) (n : OrderNo) (s : State) : State :=
  if r.cancelled then
    updateSet r.name (fun r => { r with members := r.members - 1 }) (updateEntry n (fun e => { e with state := .skipped }) s)
  else updateEntry n (fun e => { e with state := .reprint }) s

/-- A counted delivery into an OPEN record; the last member makes it COMPLETE-AWAITING (R141). -/
def countDelivery (s : State) (r : SetRec) : SetRec :=
  if r.last.isSome ∧ r.delivered + 1 = r.members then
    { r with delivered := r.delivered + 1, state := .completeAwaiting, deadline := some (confirmDeadline s) }
  else { r with delivered := r.delivered + 1 }

/-- A delivery into the set is withdrawn: CANCEL JOB has withdrawn the job of the set, and replay has returned no member of it since
(R141, R148; log 39). -/
def withdraws (r : SetRec) : Bool := r.cancelled && !r.rebuilt

/-- A delivery into a SET bin reaches the Set Monitor: a waste arrival or a counted delivery (R141). Into a cancelled OPEN record the
sheet that was in flight comes SKIPPED and voids the record, by the table of R141; the members that replay has returned are counted
into it afresh, as R146 and R148 say of them (log 39). -/
def deliverToSet (name : SetName) (n : OrderNo) (waste : Bool) (s : State) : State :=
  match findSet s name with
  | none => s
  | some r =>
    match r.state, waste with
    | .opened, false =>
      if withdraws r then
        queueSetVoidOutsidePurge name (becomeVoided name (withdrawDelivered r n s))
      else updateSet name (countDelivery s) s
    | .voided, false => withdrawDelivered r n s
    | .done, false => queueSetVoidOutsidePurge name (becomeVoided name (withdrawDelivered r n s))
    | .done, true => queueSetVoidOutsidePurge name (becomeVoided name s)
    | .completeAwaiting, false => s
    | .opened, true => s
    | .voided, true => s
    | .completeAwaiting, true => s

/-- Acceptance of a set member: the set is opened or joined, and closed by its set-last member (R40, R140). -/
def acceptMember (name : SetName) (n : OrderNo) (setLast : Bool) (s : State) : State :=
  let s1 := match s.ret.receiving with
    | none =>
      { s with sets.records := s.sets.records ++
          [{ name := name, first := n, last := none, members := 1, delivered := 0, state := .opened, cancelled := false,
             rebuilt := false, deadline := none }] }
    | some _ => updateSet name (fun r => { r with members := r.members + 1 }) s
  if setLast then
    let s2 := updateSet name (fun r => { r with last := some n }) s1
    { s2 with ret.receiving := none }
  else { s1 with ret.receiving := some name }

/-- The record once replay returns the REPRINT members of its set: a cancelled set with such a member is rebuilt from then on
(R146, R148; log 39, log 41). -/
def SetRec.replayed (t : Tables) (entries : List Entry) (r : SetRec) : SetRec :=
  { r with rebuilt := r.rebuilt || (r.cancelled && entries.any fun e => e.state = .reprint && memberOf t r e) }

/-- The set records as replay finds the queue (R148). -/
def rebuildSets (s : State) : State :=
  { s with sets.records := s.sets.records.map (SetRec.replayed s.tables s.ret.entries) }

/-- The members of a record whose state satisfies `p`. -/
def membersWhere (s : State) (r : SetRec) (p : EntryState → Bool) : List Entry :=
  s.ret.entries.filter fun e => memberOf s.tables r e && p e.state

end Sys2Proof.Machine
end

