-- ==== Sys2Proof/Machine/Tracker.lean ====
section
/-! DEFINITION. The Sheet Tracker (04): windows, expectation lists, occupants, posting, matching of edges, delivery, the
position watches and the rebasing after a clearing. -/

namespace Sys2Proof.Machine

/-! ### Window arithmetic -/

/-- A position `n` steps beyond `a`. -/
def ahead (a : Pos) (n : Nat) : Pos := a + BitVec.ofNat 32 n

/-- A position `n` steps before `a`. -/
def behind (a : Pos) (n : Nat) : Pos := a - BitVec.ofNat 32 n

/-- The slip term of a visit (R63). -/
def slipTerm (l : Limits) (distance : Word) : Nat := perMille distance.toNat l.slip

/-- The expected ON position (R63). -/
def expectedOn (a : Pos) (distance : Word) : Pos := ahead a distance.toNat

/-- The early bound (R63). -/
def earlyBound (l : Limits) (a : Pos) (distance : Word) : Pos :=
  behind (expectedOn a distance) (l.earlyBase + slipTerm l distance)

/-- The late bound (R63). -/
def lateBound (l : Limits) (a : Pos) (distance : Word) : Pos :=
  ahead (expectedOn a distance) (l.lateBase + slipTerm l distance)

/-- The OFF late bound of an occupant (R64). -/
def offLateBound (l : Limits) (on : Pos) (length : Word) : Pos :=
  ahead on (length.toNat + l.trailBase + perMille length.toNat l.stretch)

/-- The length tolerance of a sheet (R64). -/
def lengthTolerance (l : Limits) (length : Word) : Nat := l.lengthBase + perMille length.toNat l.lengthTol

/-- The length fault of a measured length, compared as signed integers (R64, R73). -/
def lengthFault (l : Limits) (length : Word) (m : Int) : Option CauseKind :=
  let tol : Int := lengthTolerance l length
  if m < (length.toNat : Int) - tol then some .lengthShort
  else if (length.toNat : Int) + tol < m then some .lengthLong
  else none

/-! ### Routes of a sheet -/

/-- A tracking record's followed route: the waste route of its own route's divert while its waste tail is active (R57). -/
def followedRoute (t : Tables) (r : TrackRec) : RouteRec :=
  let own := t.routes[r.route]
  if r.wasteTail then
    match own.divert with
    | some dv => t.routes[dv.w]
    | none => own
  else own

/-- Visit `k` of the followed route (R57). -/
def followedVisit (t : Tables) (r : TrackRec) (k : Nat) : Option Visit := (followedRoute t r).visits[k]?

/-- The anchor of visit 0 of the waste route of a record's own route (R67). -/
def wasteAnchor (t : Tables) (r : TrackRec) : Option Anchor :=
  match (t.routes[r.route]).divert with
  | some dv => ((t.routes[dv.w]).visits.head?).map (·.anchor)
  | none => none

/-- The sheet turns onto its waste route at visit `k` (R67, R71). -/
def divertsAt (t : Tables) (r : TrackRec) (k : Nat) : Bool :=
  r.disp = some .wasteDivert && !r.wasteTail &&
    match (t.routes[r.route]).divert with
    | some dv => dv.d.val = k
    | none => false

/-! ### Lists, slots and records -/

/-- Put a record into the tracking table under its tag, or free the tag. -/
def setRecord (tag : Tag) (r : Option TrackRec) (s : State) : State := { s with trk.table := s.trk.table.set tag r }

/-- Put a list at a station. -/
def setList (st : Station) (l : List Expectation) (s : State) : State := { s with trk.lists := s.trk.lists.set st l }

/-- Put an occupant into a station's slot, or empty it. -/
def setSlot (st : Station) (o : Option Occupant) (s : State) : State := { s with trk.slots := s.trk.slots.set st o }

/-- A new expectation stands behind every entry whose E is at or before its own (R60). -/
def insertExpectation (x : Expectation) (l : List Expectation) : List Expectation :=
  l.takeWhile (fun y => atOrBeyond x.e y.e) ++ x :: l.dropWhile fun y => atOrBeyond x.e y.e

/-- The expectation of a visit posted from anchor `a` (R63, R65). -/
def expectationOf (l : Limits) (tag : Tag) (k : Nat) (a : Pos) (v : Visit) : Expectation :=
  { tag := tag, visit := k, e := expectedOn a v.distance, early := earlyBound l a v.distance,
    late := lateBound l a v.distance, spent := false }

/-- Visit `k` of a sheet is posted from anchor `a`, or an OVERRUN is reported when the station's list is full (R65,
R66). -/
def postVisit (tag : Tag) (k : Nat) (a : Pos) (s : State) : State × List Report :=
  match s.trk.table[tag] with
  | none => (s, [])
  | some r =>
    match followedVisit s.tables r k with
    | none => (s, [])
    | some v =>
      if (s.trk.lists[v.station]).length < 8 then
        (setList v.station (insertExpectation (expectationOf s.tables.limits tag k a v) s.trk.lists[v.station]) s, [])
      else (s, [{ kind := .overrun, station := v.station, sheet := some r.order, pos := s.pos.p }])

/-- Freeing a record: its expectation, its occupants and its tag (R62). -/
def freeRecord (tag : Tag) (s : State) : State :=
  syncStall false
    { s with trk.table := s.trk.table.set tag none
             trk.lists := tabulate fun st => (s.trk.lists[st]).filter fun x => x.tag ≠ tag
             trk.slots := tabulate fun st =>
               match s.trk.slots[st] with
               | some o => if o.tag = tag then none else some o
               | none => none }

/-- The lowest free tag (R57). -/
def lowestFreeTag (s : State) : Option Tag := (List.finRange 24).find? fun t => (s.trk.table[t]).isNone

/-- The sheet turns onto its waste route, whose visit 0 is posted from anchor `a` (R67). -/
def startWasteTail (tag : Tag) (a : Pos) (s : State) : State × List Report :=
  match s.trk.table[tag] with
  | none => (s, [])
  | some r => postVisit tag 0 a (setRecord tag (some { r with wasteTail := true, next := 0 }) s)

/-! ### ON edges -/

/-- The action at OFF decided at the matched ON of visit `k` (R67, R71). -/
def actionAtOff (t : Tables) (r : TrackRec) (k : Nat) : OffAction :=
  if divertsAt t r k then (if wasteAnchor t r = some .prevOn then .nothing else .beginWaste)
  else match followedVisit t r (k + 1) with
    | some v =>
      match v.anchor with
      | .prevOn => .nothing
      | .prevOff => .postNext
      | .pick => .delivery
    | none => .delivery

/-- The record after the matched ON of visit `k` at station `st` (R71). -/
def TrackRec.matchedOn (t : Tables) (r : TrackRec) (st : Station) (stamp : Pos) (k : Nat) : TrackRec :=
  { r with next := k + 1, occupied := r.occupied ++ [(st, stamp)],
           complete := r.complete || (!r.wasteTail && k = (t.routes[r.route]).completeAfter.val) }

/-- The occupant a matched ON of visit `k` leaves in the slot (R61, R71). -/
def occupantOf (t : Tables) (r : TrackRec) (tag : Tag) (stamp : Pos) (k : Nat) : Occupant :=
  { tag := tag, visit := k, onPos := stamp, offLate := offLateBound t.limits stamp r.length,
    check := match followedVisit t r k with
      | some v => v.check
      | none => false,
    action := actionAtOff t r k, spent := false }

/-- The posting that the matched ON of visit `k` brings about (R65, R67, R71). -/
def postAtOn (t : Tables) (r : TrackRec) (tag : Tag) (stamp : Pos) (k : Nat) (s : State) : State × List Report :=
  if divertsAt t r k then
    (if wasteAnchor t r = some .prevOn then startWasteTail tag stamp s else (s, []))
  else match followedVisit t r (k + 1) with
    | some v => if v.anchor = .prevOn then postVisit tag (k + 1) stamp s else (s, [])
    | none => (s, [])

/-- The detail of a MATCH event: the visit index, and bit 7 for OFF (R189). -/
def matchDetail (k : Nat) (off : Bool) : Byte := (byteOf k &&& 0x1F) ||| flagBit 7 off

/-- An ON is matched to the head `x` of the station's list, whose watch goes with it (R60, R71, R75). -/
def matchOn (st : Station) (stamp : Pos) (x : Expectation) (rest : List Expectation) (s : State) :
    State × List Report :=
  match s.trk.table[x.tag] with
  | none => (setList st rest (lateSettled st x s), [])
  | some r =>
    let s1 := setRecord x.tag (some (TrackRec.matchedOn s.tables r st stamp x.visit))
      (setSlot st (some (occupantOf s.tables r x.tag stamp x.visit)) (setList st rest (lateSettled st x s)))
    let (s2, reports) := postAtOn s.tables r x.tag stamp x.visit s1
    (offerEvent .matched stamp (some st) (some r.order) (matchDetail x.visit false) s2, reports)

/-- The order number of the sheet with a tag. -/
def sheetOf (s : State) (tag : Tag) : Option OrderNo := (s.trk.table[tag]).map (·.order)

/-- An UNEXPECTED report (R59). -/
def unexpectedReport (st : Station) (stamp : Pos) : Report :=
  { kind := .unexpected, station := st, sheet := none, pos := stamp }

/-- The tracker's handling of an ON that is no foreign sheet: an occupied slot, an empty list, an early ON, a match
(R68 to R71). The EARLY report of an ON stands ahead of the OVERRUN report of what its match posts: R84 lets reports of one moment be
taken in either order, and this one is the model's choice (log 40). -/
def trackOn (st : Station) (stamp : Pos) (s : State) : State × List Report :=
  match s.trk.slots[st], s.trk.lists[st] with
  | some _, _ => (s, [unexpectedReport st stamp])
  | none, [] => (s, [unexpectedReport st stamp])
  | none, x :: rest =>
    let early : List Report :=
      if before stamp x.early then [{ kind := .early, station := st, sheet := sheetOf s x.tag, pos := stamp }] else []
    let (s1, reports) := matchOn st stamp x rest s
    (s1, early ++ reports)

/-- An ON is a foreign sheet: in IDLE or STANDBY, with an empty tracking table, an empty slot and an empty list (R68,
R69). -/
def isForeignOn (st : Station) (s : State) : Bool :=
  (s.sup.state = .idle || s.sup.state = .standby) && trackingEmpty s && (s.trk.slots[st]).isNone &&
    (s.trk.lists[st]).isEmpty

/-! ### Delivery and OFF edges -/

/-- An entry made COMMITTED, with its COMMIT event (R51, R144, R189). -/
def commitEntry (n : OrderNo) (detail : Byte) (s : State) : State :=
  offerEvent .commit s.pos.p none (some n) detail (updateEntry n (fun e => { e with state := .committed }) s)

/-- The entry's part of a delivery, by its plan mark and the kind of the bin (R51). -/
def deliverEntry (e : Entry) (kind : BinKind) (s : State) : State :=
  match e.mark with
  | some .wasteDivert => updateEntry e.order (fun e => { e with state := .reprint }) s
  | some .wasteAtDest =>
    let s1 := updateEntry e.order (fun e => { e with state := .reprint }) s
    match kind, entrySet s.tables e with
    | .set, some name => deliverToSet name e.order true s1
    | .set, none => s1
    | .stack, _ => s1
  | some .salvage | none =>
    match kind with
    | .stack => commitEntry e.order 0 s
    | .set =>
      let s1 := updateEntry e.order (fun e => { e with state := .delivered }) s
      match entrySet s.tables e with
      | some name => deliverToSet name e.order false s1
      | none => s1

/-- The delivery of a sheet: its record is freed, its entry loses its tag and changes state, and finished entries leave
from the head (R51, R52, R62, R74). -/
def deliver (tag : Tag) (s : State) : State :=
  match s.trk.table[tag] with
  | none => s
  | some r =>
    let kind := (s.tables.bins[(followedRoute s.tables r).bin]).kind
    let s1 := freeRecord tag s
    match findEntry s1 r.order with
    | none => s1
    | some e => removeHeads (deliverEntry e kind (updateEntry r.order (fun e => { e with tag := none }) s1))

/-- The length report of a matched OFF, outside STOPPING and where the visit checks it (R73). -/
def lengthReports (st : Station) (stamp : Pos) (o : Occupant) (r : TrackRec) (s : State) : List Report :=
  if o.check && s.sup.state ≠ .stopping then
    match lengthFault s.tables.limits r.length (posDiff stamp o.onPos) with
    | some k => [{ kind := k, station := st, sheet := some r.order, pos := stamp }]
    | none => []
  else []

/-- The occupant's action at OFF (R74). -/
def offAction (stamp : Pos) (o : Occupant) (s : State) : State × List Report :=
  match o.action with
  | .nothing => (s, [])
  | .postNext => postVisit o.tag (o.visit + 1) stamp s
  | .beginWaste => startWasteTail o.tag stamp s
  | .delivery => (deliver o.tag s, [])

/-- An OFF is matched to the occupant of the station, whose watch goes with it (R73, R74). The length report of the OFF stands ahead
of the OVERRUN report of what is posted: R84 lets reports of one moment be taken in either order, and this one is the model's choice
(log 40). -/
def matchOff (st : Station) (stamp : Pos) (o : Occupant) (s : State) : State × List Report :=
  match s.trk.table[o.tag] with
  | none => (setSlot st none (stuckSettled st o s), [])
  | some r =>
    let s1 := setRecord o.tag (some { r with occupied := r.occupied.filter fun x => x.1 ≠ st })
      (setSlot st none (stuckSettled st o s))
    let s2 := offerEvent .matched stamp (some st) (some r.order) (matchDetail o.visit true) s1
    let (s3, reports) := offAction stamp o s2
    (s3, lengthReports st stamp o r s ++ reports)

/-- The tracker's handling of an OFF (R72, R73). -/
def trackOff (st : Station) (stamp : Pos) (s : State) : State × List Report :=
  match s.trk.slots[st] with
  | some o => matchOff st stamp o s
  | none =>
    if (s.sup.state = .idle || s.sup.state = .standby) && trackingEmpty s then (s, [])
    else (s, [unexpectedReport st stamp])

/-! ### Position watches -/

/-- A LATE expiry: the spent flag, the EXPIRY event and the report (R75); it is taken once (log 35). That the EXPIRY event is offered
ahead of the JAM notice and the CAUSE event of the report is the model's choice, since R189 does not order the two (log 19). -/
def takeLate (st : Station) (s : State) : State :=
  match s.trk.lists[st] with
  | x :: rest =>
    let s1 := setList st ({ x with spent := true } :: rest) (lateSettled st x s)
    let s2 := offerEvent .expiry s.pos.p (some st) (sheetOf s x.tag) 0 s1
    takeReports [{ kind := .late, station := st, sheet := sheetOf s x.tag, pos := s.pos.p }] s2
  | [] => s

/-- A STUCK expiry: the spent flag, the EXPIRY event and the report (R76); it is taken once (log 35). The EXPIRY event is offered
first, as at LATE (log 19). -/
def takeStuck (st : Station) (s : State) : State :=
  match s.trk.slots[st] with
  | some o =>
    let s1 := setSlot st (some { o with spent := true }) (stuckSettled st o s)
    let s2 := offerEvent .expiry s.pos.p (some st) (sheetOf s o.tag) 1 s1
    takeReports [{ kind := .stuck, station := st, sheet := sheetOf s o.tag, pos := s.pos.p }] s2
  | none => s

/-- A change that is dropped settles the expiry it deferred: it is taken at the moment of the drop (R77). Where both expiries of
the station are due then, LATE is taken before STUCK, which joins the stop that LATE declares; R84 lets reports of one moment be
taken in either order, and this one is the model's choice (log 38). -/
def takeDueExpiries (st : Station) (s : State) : State :=
  let s1 := if lateDue s st then takeLate st s else s
  if stuckDue s1 st then takeStuck st s1 else s1

/-! ### The matched PICK and the rebasing -/

/-- A PICK that names the oldest FORWARDED entry takes a free record for it and posts visit 0 (R49, R57). -/
def allocate (tag : Tag) (e : Entry) (s : State) : State × List Report :=
  let r : TrackRec :=
    { order := e.order, route := e.route, length := e.length, next := 0, occupied := [], wasteTail := false,
      complete := false, disp := none }
  let s1 := setRecord tag (some r) s
  let s2 := updateEntry e.order (fun e => { e with state := .inFlight, tag := some tag }) s1
  postVisit tag 0 s.pos.p (syncStall (trackingEmpty s) s2)

/-- The remaining records are moved forward by the clear travel, and watched afresh (R79). -/
def rebase (s : State) : State :=
  let travel : Pos := s.pos.p - s.trk.notedP.getD s.pos.p
  { s with trk.lists := tabulate fun st =>
             (s.trk.lists[st]).map fun x =>
               { x with e := x.e + travel, early := x.early + travel, late := x.late + travel, spent := false }
           trk.slots := tabulate fun st =>
             (s.trk.slots[st]).map fun o => { o with offLate := o.offLate + travel, check := false, spent := false } }

end Sys2Proof.Machine
end

