-- ==== Sys2Proof/Machine/Plan.lean ====
section
/-! DEFINITION. The Recovery Planner (06): the eight steps of the snapshot, the plan record and its notice, the empty plan of
a foreign sheet, and what closes a plan. -/

namespace Sys2Proof.Machine

/-! ### The plan record and its notice -/

/-- The next plan number: the counter plus one, or 1 when it holds 255 (R101). -/
def nextPlanNumber (counter : Byte) : Byte := if counter = 255 then 1 else counter + 1

/-- The number of items of a plan's list with a disposition (R116). -/
def dispositionCount (p : PlanRec) (d : Disposition) : Nat := (p.dispositions.filter fun x => x.2 = d).length

/-- The summary of a plan record (R116); `filler` stands for an absent resume point: a free word in the notice (log 14), 0xFFFF
in a reply (R181). -/
def planSummary (p : PlanRec) (filler : Word) : PlanSummary :=
  { number := p.number, kind := p.kind, causeCount := p.causes.length, more := p.more, clear := p.clear,
    resume := p.resume, filler := filler, reprint := p.reprint, unpicked := dispositionCount p .unpicked,
    lost := dispositionCount p .lost, salvage := dispositionCount p .salvage,
    wasteDivert := dispositionCount p .wasteDivert, wasteAtDest := dispositionCount p .wasteAtDest,
    voidedCount := p.voided.length }

/-- A plan record is held as the current plan and its number is issued; then its PLAN notice and PLAN event, in the order in which
R112 names the two (R101, R112, R116; log 19). -/
def formPlan (p : PlanRec) (s : State) : State :=
  let p := { p with number := nextPlanNumber s.plan.counter, isOpen := true }
  let s1 := { s with plan := { plan := some p, counter := p.number } }
  offerEvent .plan p.pos none none p.number (useFree 1 (makeNotice (.plan (planSummary p (freeWord s1))) s1))

/-- Every plan mark and disposition is cleared (R102). -/
def clearMarks (s : State) : State :=
  { s with ret.entries := s.ret.entries.map fun e => { e with mark := none }
           trk.table := tabulate fun t => (s.trk.table[t]).map fun r => { r with disp := none } }

/-- The current plan becomes CLOSED, and the marks are cleared (R102, R133). -/
def closePlan (s : State) : State :=
  clearMarks { s with plan.plan := s.plan.plan.map fun p => { p with isOpen := false } }

/-- The number of the current plan: the held record while it is OPEN (R100). -/
def currentPlan (s : State) : Option PlanRec :=
  match s.plan.plan with
  | some p => if p.isOpen then some p else none
  | none => none

/-! ### The empty plan of a foreign sheet -/

/-- The defined stations whose qualified level is covered, ascending (R25). -/
def coveredStations (s : State) : List Station :=
  indexesWhere fun st : Station => (s.tables.stations[st]).defined && (s.front.stations[st]).qual

/-- The zones of a list of stations. -/
def zonesOf (t : Tables) (sts : List Station) : ZoneSet :=
  sts.foldl (fun acc st => acc ||| zoneBit (stationZone t st)) 0

/-- The empty plan (R114). -/
def emptyPlan (st : Station) (at_ : Pos) (s : State) : PlanRec :=
  { number := 0, kind := .foreign, isOpen := true,
    causes := [trackerCause s { kind := .unexpected, station := st, sheet := none, pos := at_ }], more := false,
    pos := s.pos.p, clear := zonesOf s.tables (coveredStations s), dispositions := [], voided := [], resume := none,
    reprint := 0 }

/-- The handling of a foreign sheet: FOREIGN SHEET, the empty plan with its PLAN notice, AWAIT CLEAR (R114, R165). -/
def foreignSheet (st : Station) (at_ : Pos) (s : State) : State :=
  let s1 := clearMarks (makeNotice (.foreignSheet st) s)
  enterState .awaitClear (formPlan (emptyPlan st at_ s1) s1)

/-- The part enters IDLE when no defined station is covered, and treats covered ones as a foreign sheet otherwise (R15,
R153, R157). -/
def idleOrForeign (s : State) : State :=
  match coveredStations s with
  | [] => enterState .idle s
  | st :: _ => foreignSheet st s.pos.p s

/-! ### The eight steps of the snapshot -/

/-- A fault zone is in the zone set of a cause, or its zone record says purgeable no (R105). -/
def faultZones (s : State) : ZoneSet :=
  (indexesWhere fun z : Zone => !(s.tables.zones[z]).purgeable).foldl (fun acc z => acc ||| zoneBit z)
    (s.jam.causes.foldl (fun acc c => acc ||| c.zones) 0)

/-- A station lies in a zone of the set. -/
def inZones (t : Tables) (zs : ZoneSet) (st : Station) : Bool := zs.getLsbD (stationZone t st).val

/-- Step 2: a tracked sheet is LOST (R105). -/
def isLost (s : State) (r : TrackRec) : Bool :=
  s.jam.causes.any (fun c => c.sheet = some r.order) ||
  r.occupied.any (fun x => inZones s.tables (faultZones s) x.1) ||
  (r.occupied.isEmpty &&
    match followedVisit s.tables r r.next with
    | some v => inZones s.tables (faultZones s) v.station
    | none => false)

/-- The tracking record of an IN FLIGHT entry. -/
def recordOf (s : State) (e : Entry) : Option TrackRec :=
  match e.state, e.tag with
  | .inFlight, some t => s.trk.table[t]
  | _, _ => none

/-- Step 3: whether an entry is one of the items of which b is the lowest (R106). -/
def breaksJob (s : State) (e : Entry) : Bool :=
  (match recordOf s e with
    | some r => isLost s r || !r.complete || r.disp = some .wasteDivert || r.disp = some .wasteAtDest
    | none => false) ||
  (e.state = .delivered &&
    s.jam.causes.any fun c => c.kind = .finisher && c.set.isSome && c.set = entrySet s.tables e) ||
  e.state = .reprint

/-- Step 3: the break point b (R106). -/
def breakPoint (s : State) : Option Entry := s.ret.entries.find? (breaksJob s)

/-- Step 4: the resume point r (R107). -/
def resumePoint (s : State) : Option OrderNo :=
  match breakPoint s with
  | none => none
  | some b =>
    match entrySet s.tables b with
    | none => some b.order
    | some name =>
      match findSet s name with
      | none => some b.order
      | some rec => some (((s.ret.entries.find? (memberOf s.tables rec)).map (·.order)).getD b.order)

/-- Order number `n` is at or above r, counted from H (R35, R107); never when r is absent. -/
def atOrAbove (s : State) (r : Option OrderNo) (n : OrderNo) : Bool :=
  match r, s.ret.h with
  | some r, some h => orderDist h r ≤ orderDist h n
  | _, _ => false

/-- Step 5: the disposition of a PURGE sheet (R108). -/
def splitPurge (s : State) (rec : TrackRec) : Mark :=
  if atOrAbove s (resumePoint s) rec.order then
    if rec.wasteTail then .wasteDivert
    else match (s.tables.routes[rec.route]).divert with
      | some dv => if rec.next ≤ dv.d.val then .wasteDivert else .wasteAtDest
      | none => .wasteAtDest
  else .salvage

/-- Steps 5 and 6 on one entry: its plan mark and its state (R108, R109). -/
def markEntry (s : State) (e : Entry) : Entry :=
  match recordOf s e with
  | some r =>
    if isLost s r then { e with state := .reprint, tag := none, mark := none }
    else { e with mark := some (splitPurge s r) }
  | none =>
    if e.state = .delivered && atOrAbove s (resumePoint s) e.order then { e with state := .reprint, mark := none }
    else { e with mark := none }

/-- Step 5 on one tracking record: its disposition (R102, R108). -/
def markRecord (s : State) (r : TrackRec) : TrackRec :=
  { r with disp := if isLost s r then none else some (splitPurge s r) }

/-- Step 7: a record is voided by this plan (R110). -/
def isVoidedNow (s : State) (r : SetRec) : Bool :=
  (r.state = .opened || r.state = .completeAwaiting) &&
  s.ret.entries.any fun e =>
    memberOf s.tables r e && atOrAbove s (resumePoint s) e.order &&
    (e.state = .delivered ||
      match recordOf s e with
      | some t => !isLost s t && splitPurge s t = .wasteAtDest
      | none => false)

/-- The place of a set record by its first order number, which may lie below H (R110; log 15). -/
def firstPlace (s : State) (r : SetRec) : Int :=
  match s.ret.h with
  | some h => (r.first - h).toInt
  | none => 0

/-- Insert a record before the first one whose first order number is higher. -/
def insertByFirst (s : State) (r : SetRec) : List SetRec → List SetRec
  | [] => [r]
  | x :: xs => if firstPlace s r < firstPlace s x then r :: x :: xs else x :: insertByFirst s r xs

/-- The sets voided by this plan, in ascending order of their first order numbers (R110). -/
def voidedNow (s : State) : List SetName :=
  (((s.sets.records.filter (isVoidedNow s)).foldl (fun acc r => insertByFirst s r acc) []).map (·.name))

/-- Step 6 on a set record: DELIVERED members that become REPRINT leave its count (R109, R147). -/
def uncountDelivered (s : State) (r : SetRec) : SetRec :=
  { r with delivered := r.delivered - (s.ret.entries.filter fun e =>
      memberOf s.tables r e && e.state = .delivered && atOrAbove s (resumePoint s) e.order).length }

/-- Step 8: the clear zones (R111). -/
def clearZones (s : State) : ZoneSet :=
  (s.trk.table.toList.foldl (fun acc o =>
    match o with
    | some r =>
      if isLost s r then
        acc ||| zonesOf s.tables (r.occupied.map (·.1)) |||
          (if r.occupied.isEmpty then
            match followedVisit s.tables r r.next with
            | some v => zoneBit (stationZone s.tables v.station)
            | none => 0
          else 0)
      else acc
    | none => acc) (s.jam.causes.foldl (fun acc c => acc ||| c.zones) 0))

/-- The dispositions list: one item for every tracking record and one for every UNPICKED entry, in ascending order number
(R104, R112). -/
def planDispositions (s : State) : List (OrderNo × Disposition) :=
  s.ret.entries.filterMap fun e =>
    match recordOf s e with
    | some r => some (e.order, if isLost s r then .lost else (splitPurge s r).disposition)
    | none => if e.unpicked then some (e.order, .unpicked) else none

/-- The reprint count: entries that are REPRINT or IN FLIGHT with a WASTE plan mark (R109). -/
def reprintCount (entries : List Entry) : Nat :=
  (entries.filter fun e =>
    e.state = .reprint || (e.state = .inFlight && match e.mark with
      | some m => m.isWaste
      | none => false)).length

/-- The plan record of the snapshot, but for its number (R100, R112). -/
def snapshotPlan (s : State) : PlanRec :=
  { number := 0,
    kind := if (s.jam.causes.head?.map (·.kind)) = some .pathLost then .pathLost else .stop,
    isOpen := true, causes := s.jam.causes, more := s.jam.more, pos := s.pos.p, clear := clearZones s,
    dispositions := planDispositions s, voided := voidedNow s ++ s.sets.voidOrder, resume := resumePoint s,
    reprint := reprintCount (s.ret.entries.map (markEntry s)) }

/-- The tags of the LOST sheets. -/
def lostTags (s : State) : List Tag :=
  indexesWhere fun t : Tag => match s.trk.table[t] with
    | some r => isLost s r
    | none => false

/-- The marks of the plan on entries, tracking records and set counts (R102, R108, R109). -/
def applyMarks (s : State) : State :=
  { s with ret.entries := s.ret.entries.map (markEntry s)
           trk.table := tabulate fun t => (s.trk.table[t]).map (markRecord s)
           sets.records := s.sets.records.map (uncountDelivered s) }

/-- DONE records for which no sheet is bound are released (R142). A snapshot takes the last bound sheet from a record when the sheet
is LOST, and also when a cancelled record's bound sheet, which had no mark, is given SALVAGE: R142 holds DONE only while a sheet is
bound, and names LOST and the WASTE-DIVERT mark alone, so that the release in the second case is the model's reading (log 24). -/
def releaseDone (s : State) : State :=
  (s.sets.records.filter fun r => r.state = .done && !anyBound s r).foldl (fun s r => releaseSet r s) s

/-- The snapshot (R103 to R112, R142, R147): the marks, the voided sets, the freed records, the plan, AWAIT CLEAR. The
cause list passes to the plan and is emptied (R98). -/
def snapshot (s : State) : State :=
  let s1 := applyMarks s
  let s2 := (voidedNow s).foldl (fun s n => becomeVoided n s) s1
  let s3 := (lostTags s).foldl (fun s t => freeRecord t s) s2
  let s4 := formPlan (snapshotPlan s) { s3 with jam.causes := [], jam.more := false }
  enterState .awaitClear (releaseDone s4)

end Sys2Proof.Machine
end

