-- ==== Sys2Proof/Machine/Geometry.lean ====
section
/-! DEFINITION. The Geometry Tables (01): validation, the path image of autoload, the layouts of table records in replies,
and the effect of an applied record on the sensing of a station. -/

namespace Sys2Proof.Machine

/-! ### Validation (R16) -/

/-- Some defined route names `i` as its waste route (R16). -/
def isNamedWaste (t : Tables) (i : RouteIx) : Bool :=
  t.routes.toList.any fun r => r.defined && (r.divert.map (·.w)) = some i

/-- The first fault of a list of checks. -/
def firstFault : List (Bool × FaultCode) → Option FaultCode
  | [] => none
  | (bad, code) :: rest => if bad then some code else firstFault rest

/-- The three checks of a visit; `prev` is the visit before it, absent for visit 0 (R16). -/
def visitFault (t : Tables) (named : Bool) (prev : Option Visit) (v : Visit) : Option FaultCode :=
  firstFault
    [(match prev with
        | none => v.anchor ≠ .pick && !named
        | some _ => v.anchor = .pick, .visitAnchor),
     (!(t.stations[v.station]).defined, .visitStation),
     ((prev.map (·.station)) = some v.station, .visitRepeat)]

/-- The checks of the visits of a route in order, with the index of the first visit that fails (R16). -/
def visitsFault (t : Tables) (named : Bool) : Nat → Option Visit → List Visit → Option (Nat × FaultCode)
  | _, _, [] => none
  | k, prev, v :: vs =>
    match visitFault t named prev v with
    | some code => some (k, code)
    | none => visitsFault t named (k + 1) (some v) vs

/-- The six checks of a divert (R16). -/
def divertFault (t : Tables) (r : RouteRec) (dv : Divert) : Option FaultCode :=
  let w := t.routes[dv.w]
  let wFirst := w.visits.head?
  firstFault
    [(decide (r.visits.length ≤ dv.d.val), .divertIndex),
     (!w.defined, .wasteRoute),
     ((t.bins[w.bin]).defined && (t.bins[w.bin]).kind ≠ .stack, .wasteBin),
     ((wFirst.map (·.anchor)) = some .pick, .wasteAnchor),
     (wFirst.isSome && (wFirst.map (·.station)) = (r.visits[dv.d.val]?).map (·.station), .visitRepeat),
     ((r.visits.head?.map (·.anchor)) ≠ some .pick, .wasteDivert)]

/-- The fault record of a route, its checks in the order of R16. -/
def routeFault (t : Tables) (i : RouteIx) : Option FaultRec :=
  let r := t.routes[i]
  let rec_ (visit : Option Nat) (code : FaultCode) : FaultRec :=
    { table := some .route, index := some i.val, visit := visit, fault := code }
  if !r.defined then none
  else match visitsFault t (isNamedWaste t i) 0 none r.visits with
    | some (k, code) => some (rec_ (some k) code)
    | none =>
      if r.visits.length ≤ r.completeAfter.val then some (rec_ none .completeIndex)
      else if !(t.bins[r.bin]).defined then some (rec_ none .routeBin)
      else match r.divert with
        | none => none
        | some dv =>
          (divertFault t r dv).map fun code =>
            rec_ (if code = .visitRepeat then some dv.d.val else none) code

/-- A defined station whose zone is undefined (R16). -/
def stationFault (t : Tables) (st : Station) : Option FaultRec :=
  let x := t.stations[st]
  if x.defined && !(t.zones[x.zone]).defined then
    some { table := some .station, index := some st.val, visit := none, fault := .stationZone }
  else none

/-- A defined bin whose zone is undefined (R16). -/
def binFault (t : Tables) (b : Bin) : Option FaultRec :=
  let x := t.bins[b]
  if x.defined && !(t.zones[x.zone]).defined then
    some { table := some .bin, index := some b.val, visit := none, fault := .binZone }
  else none

/-- A defined route with visit 0 anchored PICK (R6). -/
def isPrintRoute (r : RouteRec) : Bool := r.defined && (r.visits.head?.map (·.anchor)) = some .pick

/-- Validation: stations, bins, routes, then the need of a print route; the first fault met (R16). -/
def validate (t : Tables) : Option FaultRec :=
  match (List.finRange 16).findSome? (stationFault t) with
  | some f => some f
  | none =>
    match (List.finRange 8).findSome? (binFault t) with
    | some f => some f
    | none =>
      match (List.finRange 32).findSome? (routeFault t) with
      | some f => some f
      | none =>
        if t.routes.toList.any isPrintRoute then none
        else some { table := none, index := none, visit := none, fault := .noRoute }

/-! ### The path image (R17, R18) -/

/-- The next word of the image; the stated length reached is BAD LENGTH (R18). -/
def nextWord : List Word → Except LoadOutcome (Word × List Word)
  | [] => .error .badLength
  | w :: ws => .ok (w, ws)

/-- A value that a field must have, else BAD RECORD (R18). -/
def orBadRecord {α : Type} : Option α → Except LoadOutcome α
  | some a => .ok a
  | none => .error .badRecord

/-- Bits `lo` to `lo + len - 1` of a word. -/
def bitsOf (w : Word) (lo len : Nat) : Nat := (w.extractLsb' lo len).toNat

/-- A number as an index below `n`. -/
def finOf (n k : Nat) : Option (Fin n) := if h : k < n then some ⟨k, h⟩ else none

/-- A station word (R18). -/
def stationWord (w : Word) : Option StationRec :=
  if w.getLsbD 15 then
    (finOf 12 (bitsOf w 8 4)).map fun z => { defined := true, zone := z, qualify := max 1 (bitsOf w 0 8) }
  else some .undefined

/-- A zone word: cover 0 to 3, or 7 for none (R18). -/
def zoneWord (w : Word) : Option ZoneRec :=
  if w.getLsbD 15 then
    if bitsOf w 0 3 = 7 then some { defined := true, purgeable := w.getLsbD 14, cover := none }
    else (finOf 4 (bitsOf w 0 3)).map fun c => { defined := true, purgeable := w.getLsbD 14, cover := some c }
  else some .undefined

/-- A bin word (R18). -/
def binWord (w : Word) : Option BinRec :=
  if w.getLsbD 15 then
    (finOf 12 (bitsOf w 0 4)).map fun z =>
      { defined := true, kind := if w.getLsbD 14 then .set else .stack, zone := z }
  else some .undefined

/-- The visits of a route, two words each (R18). -/
def readVisits : Nat → List Word → Except LoadOutcome (List Visit × List Word)
  | 0, ws => .ok ([], ws)
  | n + 1, ws => do
    let (v, ws) ← nextWord ws
    let a ← orBadRecord (Anchor.ofNumber (bitsOf v 8 2))
    let (d, ws) ← nextWord ws
    let (vs, ws) ← readVisits n ws
    return ({ station := (v.extractLsb' 12 4).toFin, anchor := a, distance := d, check := v.getLsbD 0 } :: vs, ws)

/-- One route: words A, B and C and its visits (R18). `seen` holds the indexes already listed. -/
def readRoute (seen : List RouteIx) (ws : List Word) : Except LoadOutcome ((RouteIx × RouteRec) × List Word) := do
  let (a, ws) ← nextWord ws
  let i ← orBadRecord (finOf 32 (bitsOf a 8 8))
  let count := bitsOf a 0 8
  if seen.contains i || count = 0 || 16 < count then .error .badRecord
  let (b, ws) ← nextWord ws
  let bin ← orBadRecord (finOf 8 (bitsOf b 8 8))
  let c ← orBadRecord (finOf 16 (bitsOf b 0 8))
  let (w, ws) ← nextWord ws
  let dv : Option Divert :=
    if w.getLsbD 15 then some { d := (w.extractLsb' 0 4).toFin, w := (w.extractLsb' 8 5).toFin } else none
  let (visits, ws) ← readVisits count ws
  return ((i, { defined := true, visits := visits, bin := bin, completeAfter := c, divert := dv }), ws)

/-- The load goes on to `stage` with `n` words read: the stated length must be reached by the word that completes the last
record, and by no word before it (R18). -/
def Reading.goTo (r : Reading) (n : Nat) (stage : LoadStage) : Reading :=
  let last := r.length.map (·.toNat) = some n
  { r with
    count := n
    stage := match stage with
      | .complete => if last then .complete else .failed .badLength
      | .failed o => .failed o
      | other => if last then .failed .badLength else other }

/-- The stage after the record of station `i`. -/
def afterStation (i : Station) : LoadStage := if h : i.val + 1 < 16 then .station ⟨i.val + 1, h⟩ else .zone 0

/-- The stage after the record of zone `i`. -/
def afterZone (i : Zone) : LoadStage := if h : i.val + 1 < 12 then .zone ⟨i.val + 1, h⟩ else .bin 0

/-- The stage after the record of bin `i`. -/
def afterBin (i : Bin) : LoadStage := if h : i.val + 1 < 8 then .bin ⟨i.val + 1, h⟩ else .routeCount

/-- The stage when `left` routes are still to be read. -/
def routesFrom (left : Nat) (seen : List RouteIx) : LoadStage := if left = 0 then .complete else .route left seen []

/-- The tables with a zone record put in, and the guarded sets that follow from the zones (R3). -/
def Tables.setZone (t : Tables) (i : Zone) (r : ZoneRec) : Tables :=
  { t with zones := t.zones.set i r, guarded := guardedSets (t.zones.set i r) }

/-- The stage that a word leads to, and the tables with the record applied that it completes (R18). -/
def readWord (w : Word) (stage : LoadStage) (t : Tables) : LoadStage × Tables :=
  match stage with
  | .signature => (if w = 0x4D53 then .length else .failed .noSignature, t)
  | .length => (if w.toNat < 53 || 1173 < w.toNat then .failed .badLength else .limits [], t)
  | .limits read =>
    match limitsOf ((read ++ [w]).map (·.toNat)) with
    | some l => (.station 0, { t with limits := l })
    | none => (.limits (read ++ [w]), t)
  | .station i =>
    match stationWord w with
    | some r => (afterStation i, { t with stations := t.stations.set i r })
    | none => (.failed .badRecord, t)
  | .zone i =>
    match zoneWord w with
    | some r => (afterZone i, t.setZone i r)
    | none => (.failed .badRecord, t)
  | .bin i =>
    match binWord w with
    | some r => (afterBin i, { t with bins := t.bins.set i r })
    | none => (.failed .badRecord, t)
  | .routeCount => (if 32 < w.toNat then .failed .badRecord else routesFrom w.toNat [], t)
  | .route left seen read =>
    match readRoute seen (read ++ [w]) with
    | .ok ((i, r), _) => (routesFrom (left - 1) (i :: seen), { t with routes := t.routes.set i r })
    | .error .badLength => (.route left seen (read ++ [w]), t)
    | .error o => (.failed o, t)
  | .complete => (.complete, t)
  | .failed o => (.failed o, t)

/-- The load has ended: its last word has been read, or a check has failed (R17, R18). -/
def Reading.ended (r : Reading) : Bool :=
  match r.stage with
  | .complete => true
  | .failed _ => true
  | _ => false

/-- A failure empties the tables again (R18). -/
def LoadStage.leaves (stage : LoadStage) (t : Tables) : Tables :=
  match stage with
  | .failed _ => .empty
  | _ => t

/-- One word of the image read into the tables: records are applied as they are read, and word 1 is the stated length
(R18). -/
def loadWord (x : Reading × Tables) (w : Word) : Reading × Tables :=
  if x.1.ended then x
  else
    let out := readWord w x.1.stage x.2
    let r := { x.1 with length := if x.1.stage = LoadStage.length then some w else x.1.length }.goTo (x.1.count + 1) out.1
    (r, r.stage.leaves out.2)

/-- Words read one after the other, as far as the load needs them (R17). -/
def loadWords : List Word → Reading × Tables → Reading × Tables
  | [], x => x
  | w :: ws, x => if x.1.ended then x else loadWords ws (loadWord x w)

/-- The first `n` words of the memory; words beyond the given image read as 0xFFFF (R17; log 13). -/
def imageWords (image : List Word) (n : Nat) : List Word := image.take n ++ List.replicate (n - image.length) 0xFFFF

/-- The words that a serial memory with these bytes gives, each its high byte followed by its low byte; 0xFF where no memory
answers (R17). -/
def memoryWords (memory : List Byte) (n : Nat) : List Word :=
  (List.range n).map fun i => wordOf (memory[2 * i]?.getD 0xFF) (memory[2 * i + 1]?.getD 0xFF)

/-- The emptied tables with a load result (R8, R18). -/
def emptyTablesWith (r : LoadResult) : Tables := { Tables.empty with loadResult := r }

/-- What the end of a load leaves in the tables: emptied with the load result of the failure, or validated, and then checked
(R18). A load that has not ended has not reached its stated length. -/
def loadEnd (r : Reading) (t : Tables) : Tables :=
  match r.stage with
  | .complete =>
    match validate t with
    | some f => emptyTablesWith { outcome := .tableFault, length := r.length, fault := some f }
    | none => { t with checked := true, loadResult := { outcome := .loaded, length := r.length, fault := none } }
  | .failed o => emptyTablesWith { outcome := o, length := r.length, fault := none }
  | _ => emptyTablesWith { outcome := .badLength, length := r.length, fault := none }

/-! ### Applied records and sensing -/

/-- The sensing of a station once a record that defines it is applied: its qualified level is its raw level, with no edge
(R12, R25). -/
def StationSense.defineAt (x : StationSense) : StationSense := { x with qual := x.raw, pending := none, sample := none }

/-- The sensing of an undefined station: uncovered, nothing pending (R1, R12). -/
def StationSense.undefine (x : StationSense) : StationSense := { x with qual := false, pending := none, sample := none }

/-- The sensing of a station whose record is written: from undefined to defined its level is the raw level, undefined it is
uncovered, and staying defined it goes on (R12, R25). -/
def senseAfterWrite (old new : StationRec) (x : StationSense) : StationSense :=
  if new.defined then (if old.defined then x else x.defineAt) else x.undefine

/-- Tables that autoload applies, with the sensing of the stations they define or leave undefined (R18, R25). -/
def applyTables (t : Tables) (s : State) : State :=
  { s with tables := t
           front.stations := tabulate fun st =>
             senseAfterWrite s.tables.stations[st] t.stations[st] s.front.stations[st] }

/-! ### Records in replies (R181) -/

/-- A station record in the layout of WRITE STATION. -/
def stationBytes (i : Station) (r : StationRec) : List Byte :=
  [byteOf i.val, boolByte r.defined, byteOf r.zone.val, byteOf r.qualify]

/-- A zone record in the layout of WRITE ZONE. -/
def zoneBytes (i : Zone) (r : ZoneRec) : List Byte :=
  [byteOf i.val, boolByte r.defined, boolByte r.purgeable, finByte r.cover]

/-- A bin record in the layout of WRITE BIN. -/
def binBytes (i : Bin) (r : BinRec) : List Byte :=
  [byteOf i.val, boolByte r.defined, r.kind.code, byteOf r.zone.val]

/-- A visit in the layout of WRITE ROUTE. -/
def visitBytes (v : Visit) : List Byte :=
  byteOf (v.station.val * 16 + v.anchor.number * 4 + (if v.check then 1 else 0)) :: wordBytes v.distance

/-- A route record in the layout of WRITE ROUTE; absent divert values are sent as 0xFF (R181; log 26). -/
def routeBytes (i : RouteIx) (r : RouteRec) : List Byte :=
  [byteOf i.val, boolByte r.defined, byteOf r.visits.length, byteOf r.bin.val, byteOf r.completeAfter.val,
   boolByte r.divert.isSome, finByte (r.divert.map (·.d)), finByte (r.divert.map (·.w))] ++
  r.visits.flatMap visitBytes

/-- The limits record in the layout of WRITE LIMITS. -/
def limitsBytes (l : Limits) : List Byte := (limitsValues l).flatMap fun v => wordBytes (BitVec.ofNat 16 v)

/-- The cover table: four zone sets, covers 0 to 3. -/
def guardedBytes (t : Tables) : List Byte := t.guarded.toList.flatMap zoneSetBytes

/-- A number that may be absent, as one byte. -/
def optByte : Option Nat → Byte
  | some n => byteOf n
  | none => 0xFF

/-- A fault record (R181). -/
def faultBytes (f : FaultRec) : List Byte :=
  [FaultTable.code f.table, optByte f.index, optByte f.visit, f.fault.code]

/-- The load result: outcome, image length and fault record, all of it 0xFF where absent (R181). -/
def loadResultBytes (r : LoadResult) : List Byte :=
  r.outcome.code :: wordBytes (r.length.getD 0xFFFF) ++
    match r.fault with
    | some f => faultBytes f
    | none => [0xFF, 0xFF, 0xFF, 0xFF]

end Sys2Proof.Machine
end

