-- ==== Sys2Proof/Machine/Frames.lean ====
section
/-! DEFINITION. The frames the part sends, byte for byte (R166, R168, R177): payload, Kind, Length and check of every frame
of the three transmitters, and the plan, cause, order and capture layouts that replies share with them (R182, R192). -/

namespace Sys2Proof.Machine

/-- The 16 bytes of the ORDER as accepted; flag bits not named are sent as 0 (R177, R182; log 17). -/
def orderBytes (e : Entry) : List Byte :=
  wordBytes e.order ++ wordBytes e.job ++ wordBytes e.sheetIndex ++ wordBytes e.front ++ wordBytes e.back ++
  [flagsByte [(0, e.backPresent), (1, e.setLast)], byteOf e.route.val] ++ wordBytes e.length ++
  [byteOf e.cls.val, e.set.getD 0]

/-- What a reply carries for an absent value of two bytes: 0xFF in each (R181; log 37). -/
def absentInReply : Word := 0xFFFF

/-- A bin and set number that may be absent: the bin is then 0xFF, and the set number `absent`, 0 in a notice (R177) and 0xFF in a
reply (R181). -/
def setBytes (absent : Byte) : Option SetName → List Byte
  | some n => [byteOf n.bin.val, n.set]
  | none => [0xFF, absent]

/-- The 14 bytes of a cause: kind, station, cover, bin, set number, zone set, flags, named sheet, position (R177, R182); `noSet` and
`noSheet` stand for an absent set number and an absent sheet. -/
def causeBytes (c : Cause) (noSet : Byte) (noSheet : Word) : List Byte :=
  [c.kind.code, finByte c.station, finByte c.cover] ++ setBytes noSet c.set ++ zoneSetBytes c.zones ++
  [flagsByte [(0, c.sheet.isSome)]] ++ wordBytes (c.sheet.getD noSheet) ++ posBytes c.pos

/-- The 15-byte body of a PLAN notice (R177). -/
def summaryBytes (p : PlanSummary) : List Byte :=
  [p.number, p.kind.code, byteOf p.causeCount, flagsByte [(0, p.more), (1, p.resume.isSome)]] ++ zoneSetBytes p.clear ++
  wordBytes (p.resume.getD p.filler) ++
  [byteOf p.reprint, byteOf p.unpicked, byteOf p.lost, byteOf p.salvage, byteOf p.wasteDivert, byteOf p.wasteAtDest,
   byteOf p.voidedCount]

/-- The payload of a NOTICE: its kind and body (R177). -/
def noticeBytes : Notice → List Byte
  | .jam t index c filler => [1, t.code, byteOf index] ++ causeBytes c 0 filler
  | .plan p => 2 :: summaryBytes p
  | .state st reason => [3, st.code, HeldReason.code reason]
  | .orderRefused n reason => 4 :: wordBytes n ++ [reason.code]
  | .foreignSheet st => [5, byteOf st.val]
  | .held n reason => 6 :: wordBytes n ++ [HeldReason.code (some reason)]
  | .linkError port reason third => [7, portCode port, reason.code, third]
  | .unexpectedReport kind bin number => [8, kind, bin] ++ wordBytes number
  | .captureDone count => 9 :: wordBytes (BitVec.ofNat 16 count)
  | .captureLost => [10]

/-- The payload of a MANAGE REPLY (R178). -/
def replyBytes (r : Reply) : List Byte := r.tag :: r.status.code :: r.results

/-- The payload of a CREDIT sent upstream (R42, R177). -/
def creditBytes (c : CreditContent) : List Byte :=
  wordBytes c.limit ++ wordBytes c.oldest ++ [flagsByte [(0, c.isOpen)]]

/-- The payload of a PATH CONTROL frame (R177). -/
def controlBytes : PathControl → List Byte
  | .linkStart => [1]
  | .halt => [2]
  | .run => [3]
  | .purgeRun part count items =>
    [4, byteOf part, byteOf count, byteOf items.length] ++
      items.flatMap fun x => wordBytes x.1 ++ [Mark.code (some x.2)]
  | .speedChange cls => [5, byteOf cls.val]
  | .setVoid n => [6, byteOf n.bin.val, n.set]

/-- Kind and payload of a frame of the lower transmitter (R177). -/
def LowerFrame.content : LowerFrame → Byte × List Byte
  | .pathControl f => (0x30, controlBytes f)
  | .command c => (c.kind, c.payload)
  | .forwardedOrder f => (0x31, orderBytes f.entry ++ [byteOf f.entry.attempt])

/-- Kind and payload of a frame of the upper transmitter (R177). -/
def UpperFrame.content : UpperFrame → Byte × List Byte
  | .credit c => (0x46, creditBytes c)
  | .reply r => (0x21, replyBytes r)
  | .notice n => (0x50, noticeBytes n)
  | .report f => (f.kind, f.payload)

/-- Kind and payload of a frame of the service transmitter (R177). -/
def ServiceFrame.content : ServiceFrame → Byte × List Byte
  | .reply r => (0x21, replyBytes r)
  | .notice n => (0x50, noticeBytes n)

/-- A frame on the wire: Start, Kind, Length, Payload and the check over the frame exactly as sent (R166, R168). -/
def wireFrame (kind : Byte) (payload : List Byte) : List Byte :=
  let body := kind :: byteOf payload.length :: payload
  0xA5 :: body ++ wordBytes (crc16 body)

/-- The levels of one asynchronous character on the line, in the order in which they are sent: a low start bit, the 8 data bits with
the least significant first, and a high stop bit, with no parity (R166). -/
def charLevels (b : Byte) : List Bool := false :: (List.range 8).map b.getLsbD ++ [true]

/-- The levels of a whole frame on the line, one character after the other (R166; when each stands on it is left out, log 21). -/
def frameLevels (kind : Byte) (payload : List Byte) : List Bool := (wireFrame kind payload).flatMap charLevels

/-- The 12 bytes of a capture record (R181, R192). -/
def captureRecordBytes (r : TraceRec) : List Byte :=
  byteOf r.kind.number :: posBytes r.p ++ wordBytes r.ms ++ [finByte r.station, flagsByte [(0, r.order.isSome)]] ++
  wordBytes (r.order.getD absentInReply) ++ [r.detail]

end Sys2Proof.Machine
end

