-- ==== Sys2Proof/Machine/Receive.lean ====
section
/-! DEFINITION. The receivers (R167, R169), the frames that are passed on or held (R170, R171, R172, R176), and the service
port's break (R176). -/

namespace Sys2Proof.Machine

/-- The receiver of a port. -/
def receiverOf (port : Port) (s : State) : Receiver :=
  match port with
  | .upper => s.link.rxUpper
  | .lower => s.link.rxLower
  | .service => s.svc.rx

/-- Put the receiver of a port. -/
def setReceiver (port : Port) (r : Receiver) (s : State) : State :=
  match port with
  | .upper => { s with link.rxUpper := r }
  | .lower => { s with link.rxLower := r }
  | .service => { s with svc.rx := r }

/-- The receiver returns to HUNTING (R167). -/
def hunt (port : Port) (s : State) : State :=
  setReceiver port { mode := .hunting, bytes := [], lastChar := s.pos.clock } s

/-- The line of a port is high at this moment. Of the service line that moment is held, since a break is measured from it (R176;
log 29). -/
def lineHigh (port : Port) (s : State) : State :=
  match port with
  | .service => { s with svc.highAt := s.pos.clock }
  | .upper => s
  | .lower => s

/-- A frame has been received whole, and its last stop bit was high: the receiver returns to HUNTING (R166, R167). -/
def received (port : Port) (s : State) : State := hunt port (lineHigh port s)

/-- What a character shows of the line of its port: it has been high where a bit of the character is (R166, R176; log 29). -/
def hear (port : Port) (c : RxChar) (s : State) : State := if holdsHigh c then lineHigh port s else s

/-- A discard makes a LINK ERROR, and on a link port a LINK ERROR event; the Kind is 0 when none was received (R169,
R177, R189). No rule orders the two: that the notice is made before the event is offered, so that a CAPTURE DONE which the event
brings follows it on the upper port, is the model's choice (log 19). -/
def discardFrame (port : Port) (reason : LinkReason) (kind : Option Byte) (s : State) : State :=
  let s1 := makeLinkError port reason (kind.getD 0) s
  if port = .service then s1
  else offerEvent .linkError s.pos.p none none (portCode port ||| (reason.code <<< 4)) s1

/-- The gap limit of a port in CLK periods: 1 ms on the link ports, 20 ms on the service port (R167). -/
def gapLimit : Port → Nat
  | .upper => clkMs
  | .lower => clkMs
  | .service => 20 * clkMs

/-- A frame is under way and more than the gap limit has passed since its last character (R167). -/
def gapDue (port : Port) (s : State) : Bool :=
  (receiverOf port s).mode = .inFrame && gapLimit port < s.pos.clock - (receiverOf port s).lastChar

/-- The frame under way is discarded with reason GAP (R167, R169). -/
def discardGap (port : Port) (s : State) : State :=
  discardFrame port .gap (receiverOf port s).bytes.head? (hunt port s)

/-- GAP (R167, R169). -/
def execGap (port : Port) (s : State) : Host.Outcome State Fault Refusal := doneIf (gapDue port s) s (discardGap port s)

/-- Characters go through the receiver of a port one by one, each discard with its LINK ERROR (R167, R169). None where one
completes a frame that passes its check. A discard finds the line high: the stop bit of a Length or check byte is high, and a low
stop bit counts as a framing error once the line has returned high without the 10 ms of a break, since R176 takes a longer low level
first (R167). So the low level of a FRAMING discard is no break any more; the sender lets a level that lasts for a break end in
SERVICE_RESET instead (log 29). -/
def takeChars (port : Port) : List RxChar → State → Option State
  | [], s => some s
  | c :: cs, s =>
    match rxChar s.pos.clock c (receiverOf port s) with
    | (r, .going) => takeChars port cs (setReceiver port r (hear port c s))
    | (r, .discarded reason kind) => takeChars port cs (discardFrame port reason kind (setReceiver port r (lineHigh port s)))
    | (_, .complete _ _) => none

/-- A character that ends beyond the gap limit finds the frame under way discarded (R167). -/
def beforeChars (port : Port) (chars : List RxChar) (s : State) : State :=
  if gapDue port s && !chars.isEmpty then discardGap port s else s

/-- FRAME_DISCARD: the characters go through the receiver, and every discard is reported; characters that end inside a
frame stay as the frame under way. A frame that passes its check comes by its own row, so that characters which complete one
are no such event (R167, R169; log 3). -/
def execFrameDiscard (port : Port) (chars : List RxChar) (s : State) : Host.Outcome State Fault Refusal :=
  match takeChars port chars (beforeChars port chars s) with
  | some t => done t
  | none => .next s

/-- A frame that passes its check can complete on a port: the receiver is HUNTING, or it is IN FRAME within the gap limit and
the bytes it holds are the first of that frame (R167; log 3). -/
def frameCompletes (port : Port) (kind : Byte) (payload : List Byte) (s : State) : Bool :=
  match (receiverOf port s).mode with
  | .hunting => true
  | .inFrame => !gapDue port s && (receiverOf port s).bytes.isPrefixOf (wireFrame kind payload).tail
  | .lineLow => false

/-- A frame is received whole on a port: the receiver returns to HUNTING, and the frame is taken by `act` (R167). -/
def takeFrame (port : Port) (kind : Byte) (payload : List Byte) (act : State → State) (s : State) :
    Host.Outcome State Fault Refusal :=
  doneIf (frameCompletes port kind payload s) s (act (received port s))

/-- A frame joins the command queue, or overflows it (R170). -/
def joinCommands (c : Command) (s : State) : State :=
  if s.link.commands.length < 16 then { s with link.commands := s.link.commands ++ [c] }
  else makeLinkError .upper .overflow c.kind s

/-- ENGINE_COMMAND: the frame joins the command queue and is ready at once (R170, R171). -/
def execEngineCommand (kind : Byte) (payload : List Byte) (s : State) : Host.Outcome State Fault Refusal :=
  takeFrame .upper kind payload (joinCommands { kind := kind, payload := payload, mark := none }) s

/-- BARRIER_COMMAND: the frame joins the command queue with the mark of the orders held at that moment (R170, R171). -/
def execBarrierCommand (payload : List Byte) (s : State) : Host.Outcome State Fault Refusal :=
  takeFrame .upper 0x12 payload
    (joinCommands { kind := 0x12, payload := payload, mark := some (s.ret.entries.map (·.order)) }) s

/-- A MANAGE frame on the upper port: too short, held, or overflowing the four places (R170). A frame that is too short makes
FORMAT alone, whether or not the places are full (log 33). -/
def holdUpper (payload : List Byte) (s : State) : State :=
  if payload.length < 2 then makeLinkError .upper .format 0x20 s
  else if s.link.holding.length < 4 then { s with link.holding := s.link.holding ++ [payload] }
  else makeLinkError .upper .overflow 0x20 s

/-- A MANAGE frame on the service port: too short, held in the receive frame, or overflowing it (R176). A frame that is too
short makes FORMAT alone, whether or not the receive frame is full (log 33). -/
def holdService (payload : List Byte) (s : State) : State :=
  if payload.length < 2 then makeLinkError .service .format 0x20 s
  else if s.svc.held.isSome then makeLinkError .service .overflow 0x20 s
  else { s with svc.held := some { payload := payload, served := false } }

/-- The service line is held low after a break, so that no frame can complete (R176). -/
def serviceLineLow (s : State) : Bool := s.svc.rx.mode = .lineLow

/-- The service line can have been low for the 10 ms of a break: it is not known to have been high since, and the break under way,
if there is one, has not been taken already (R176; log 29). -/
def breakDue (s : State) : Bool := !serviceLineLow s && 10 * clkMs ≤ s.pos.clock - s.svc.highAt

/-- MANAGE: the request waits to be served, on the port it came from (R170, R176). -/
def execManage (port : MgmtPort) (payload : List Byte) (s : State) : Host.Outcome State Fault Refusal :=
  match port with
  | .upper => takeFrame .upper 0x20 payload (holdUpper payload) s
  | .service => takeFrame .service 0x20 payload (holdService payload) s

/-- SERVICE_MANAGE_DISCARD: a frame that is no MANAGE is discarded on the service port with no notice (R176). -/
def execServiceManageDiscard (kind : Byte) (payload : List Byte) (s : State) : Host.Outcome State Fault Refusal :=
  takeFrame .service kind payload id s

/-- A capture owned by SERVICE becomes FREE, empty and DISARMED at a service reset (R193). -/
def captureAfterServiceReset (c : Capture) : Capture :=
  if c.owner = .service then { c with owner := .free, state := .disarmed, post := none, buffer := [] } else c

/-- SERVICE_RESET: the break of 10 ms; a break that lasts longer is one service reset (R176, R193). -/
def execServiceReset (s : State) : Host.Outcome State Fault Refusal :=
  doneIf (breakDue s) s
    { s with svc := { rx := { mode := .lineLow, bytes := [], lastChar := s.pos.clock }, highAt := s.svc.highAt, held := none,
                      claim := false, reply := none, notices := [], tx := s.svc.tx }
             cap := captureAfterServiceReset s.cap }

/-- SERVICE_LINE_RETURNS_HIGH: the service receiver enters HUNTING, and the next break is measured from here (R176). -/
def execServiceLineReturnsHigh (s : State) : Host.Outcome State Fault Refusal :=
  doneIf (serviceLineLow s) s (received .service s)

/-- A frame from the engine joins the upstream forward queue, or overflows it (R172). -/
def forwardUp (kind : Byte) (payload : List Byte) (s : State) : State :=
  if s.link.reports.length < 32 then { s with link.reports := s.link.reports ++ [{ kind := kind, payload := payload }] }
  else makeLinkError .lower .overflow kind s

/-- A frame of the engine that is passed upstream, whatever else it does (R172). Where it cannot be, its OVERFLOW comes before
the notices of what else it does (log 32). -/
def passUp (kind : Byte) (payload : List Byte) (s : State) : State := forwardUp kind payload (received .lower s)

/-- A frame of the engine is received whole and passed upstream, and then read by `act` (R172). -/
def takeReport (kind : Byte) (payload : List Byte) (act : State → State) (s : State) : Host.Outcome State Fault Refusal :=
  doneIf (frameCompletes .lower kind payload s) s (act (passUp kind payload s))

/-- ENGINE_REPORT: passed upstream unread (R172). -/
def execEngineReport (kind : Byte) (payload : List Byte) (s : State) : Host.Outcome State Fault Refusal :=
  takeReport kind payload id s

end Sys2Proof.Machine
end

