-- ==== Sys2Proof/Machine/Replay.lean ====
section
/-! DEFINITION. Purge and replay (07): the deferred list, replay, the void phase, the PURGE RUN frames, and what follows the
tracker's handling of an edge. -/

namespace Sys2Proof.Machine

/-- The Set Monitor still holds the set of a deferred cause in state OPEN or COMPLETE-AWAITING (R96). -/
def stillOwed (s : State) (c : Cause) : Bool :=
  match c.set with
  | some n =>
    match findSet s n with
    | some r => r.state = .opened || r.state = .completeAwaiting
    | none => false
  | none => false

/-- The deferred list is settled at the entry into the state that RESUME leads to: the records that do not lapse are
taken in order, the first declaring a stop and the later ones joining it (R96). -/
def settleDeferred (s : State) : State :=
  s.jam.deferred.foldl (fun s c => if stillOwed s c then takeCause c s else s) { s with jam.deferred := [] }

/-- Replay of one entry: a REPRINT entry becomes QUEUED, or a HELD entry when its next attempt would pass the limit
(R133). -/
def replayEntry (limit : Nat) (e : Entry) : Entry :=
  if e.state = .reprint then { e with state := if e.attempt + 1 ≤ limit then .queued else .held } else e

/-- The entries returned and the plan closed: steps 1 and 2 of replay (R133). The cancelled sets whose members are returned are rebuilt
from here on (R148). -/
def returnEntries (s : State) : State :=
  closePlan (mapEntries (replayEntry s.tables.limits.attemptLimit) (rebuildSets s))

/-- Replay: entries, plan, state with its notices, deferred list, forwarding (R133). -/
def replay (s : State) : State := forwarderPass (settleDeferred (enterChosen (returnEntries s)))

/-- The sets of VOIDED records, in the order in which they were voided (R130, R139). -/
def voidedSets (s : State) : List SetName := s.sets.voidOrder

/-- The start of the void phase: a SET VOID frame for every VOIDED set, and the outstanding void list (R130). -/
def startVoidPhase (s : State) : State :=
  let s1 := (voidedSets s).foldl (fun s n => queueSetVoid n s) s
  { s1 with sup.purge := some { phase := .voidWait, outstanding := voidedSets s } }

/-- The end of the drive-out: the void phase, or replay when no set record is VOIDED (R130). -/
def endDriveOut (s : State) : State := if (voidedSets s).isEmpty then replay s else startVoidPhase s

/-- The part is in the drive-out phase of a purge (R126). -/
def inDriveOut (s : State) : Bool :=
  match s.sup.purge with
  | some p => s.sup.state = .purging && p.phase = .driveOut
  | none => false

/-- The items of PURGE RUN: the disposition of every tracking record, in ascending order number (R127). -/
def purgeItems (s : State) : List (OrderNo × Mark) :=
  s.ret.entries.filterMap fun e =>
    match recordOf s e with
    | some r => r.disp.map fun m => (e.order, m)
    | none => none

/-- The PURGE RUN frames of one purge: at most 16 items a frame (R127). That the first of two frames carries 16 items and the
second the rest is the model's choice (log 36). -/
def purgeFrames (items : List (OrderNo × Mark)) : List PathControl :=
  if items.length ≤ 16 then [.purgeRun 1 1 items] else [.purgeRun 1 2 (items.take 16), .purgeRun 2 2 (items.drop 16)]

/-- An accepted RESUME in AWAIT CLEAR enters PURGING in its drive-out phase: PURGE RUN frames, rebasing, STATE notice,
deferred list (R79, R96, R125, R127). The deferred causes are taken in this step, ahead of any watch that its rebased bound finds
reached at once, which joins the stop that one of them declares: R84 leaves that order open (log 34). -/
def beginDriveOut (s : State) : State :=
  let s1 := (purgeFrames (purgeItems s)).foldl (fun s f => queueControl f s) s
  settleDeferred
    (enterState .purging (rebase { s1 with sup.purge := some { phase := .driveOut, outstanding := [] } }))

/-- What an accepted RESUME in AWAIT CLEAR leads to (R125). -/
inductive ResumePath
  | driveOut
  | voidPhase
  | replay
deriving DecidableEq, Repr

/-- The path that follows an accepted RESUME, chosen by what remains (R125). -/
def resumePath (s : State) : ResumePath :=
  if !trackingEmpty s then .driveOut else if (voidedSets s).isEmpty then .replay else .voidPhase

/-- The state an accepted RESUME in AWAIT CLEAR leads to (R123, R125). -/
def resumeTarget (s : State) : PartState :=
  match resumePath s with
  | .driveOut => .purging
  | .voidPhase => .purging
  | .replay => chosenState (returnEntries s)

/-- An accepted RESUME in AWAIT CLEAR (R125). -/
def acceptResume (s : State) : State :=
  let s1 := queueControl .run s
  match resumePath s with
  | .driveOut => beginDriveOut s1
  | .voidPhase => settleDeferred (enterState .purging (startVoidPhase s1))
  | .replay => replay s1

/-- What follows the tracker's handling of an edge: its reports are taken, and then the part acts on what the handling
left: the end of the drive-out, or the forwarder and the state changes that go with it (R84, R130, R155, R159; log 11). The
MATCH event of the edge, and the COMMIT event of a delivery, are made by the handling and so come ahead of the CAUSE events of its
reports: the spec leaves that order open (R189; log 19). -/
def afterTracking (x : State × List Report) : State :=
  let s := takeReports x.2 x.1
  if inDriveOut s && trackingEmpty s then endDriveOut s else forwarderPass s

/-- The states in which an accepted edge is handed to the Sheet Tracker (R27). -/
def edgesHanded : PartState → Bool
  | .idle => true
  | .running => true
  | .speedChange => true
  | .stopping => true
  | .purging => true
  | .held => true
  | .standby => true
  | .starting => false
  | .unconfigured => false
  | .awaitClear => false

/-- Put the sensing of a station. -/
def setSense (st : Station) (x : StationSense) (s : State) : State :=
  { s with front.stations := s.front.stations.set st x }

/-- The level part of an accepted edge: the qualified level takes the new level, the pending change and the first
differing sample are removed, and the ON or OFF event is offered (R26, R27, R28), ahead of all that the tracker makes of the edge,
which R27 leaves open (log 19). -/
def acceptLevel (st : Station) (covered : Bool) (stamp : Pos) (detail : Byte) (s : State) : State :=
  let x := s.front.stations[st]
  offerEvent (if covered then .on else .off) stamp (some st) none detail
    (setSense st { x with qual := covered, pending := none, sample := none } s)

/-- What an ON stamped `stamp`, accepted in `s`, leaves of the reports of a declaration's moment in `t`: at an occupied slot the ON is
matched to nothing (R68), and yet, accepted, it has settled the expiry of the head that it deferred, and none is taken (R77; log 35). -/
def settledByOn (s : State) (st : Station) (stamp : Pos) (t : State) : State :=
  match s.trk.slots[st], s.trk.lists[st] with
  | some _, x :: _ =>
    if atOrBeyond x.late stamp then lateSettled st x t else t
  | _, _ => t

/-- An accepted edge is handed on to the Sheet Tracker in the states that R27 gives; a foreign sheet goes to the Path
Supervisor (R69). -/
def handEdge (st : Station) (covered : Bool) (stamp : Pos) (s : State) : State :=
  if edgesHanded s.sup.state then
    if covered then
      if isForeignOn st s then foreignSheet st stamp s else settledByOn s st stamp (afterTracking (trackOn st stamp s))
    else afterTracking (trackOff st stamp s)
  else s

end Sys2Proof.Machine
end

