-- ==== Sys2Proof/Machine/Finisher.lean ====
section
/-! DEFINITION. The finisher reports and the set-confirm timer (R143 to R146, R131). -/

namespace Sys2Proof.Machine

/-- A finisher report that fits no record, or no state of it (R144). -/
def unexpectedFinisher (kind bin set : Byte) (s : State) : State :=
  makeNotice (.unexpectedReport kind bin (set.setWidth 16)) s

/-- The record a finisher report names (R144). -/
def reportedSet (bin set : Byte) (s : State) : Option SetRec := (setNameOf bin set).bind (findSet s)

/-- A finisher report that is passed upstream, as it is read: in every state but STARTING; of another Length than 2 it is
not read (R144, R172; log 22). -/
def readFinisherReport (kind : Byte) (payload : List Byte) (act : SetRec → State → Option State) (s : State) : State :=
  match payload with
  | [bin, set] =>
    if s.sup.state = .starting then s
    else ((reportedSet bin set s).bind fun r => act r s).getD (unexpectedFinisher kind bin set s)
  | _ => makeLinkError .lower .format kind s

/-! ### SET DONE -/

/-- One member becomes COMMITTED at SET DONE (R144). -/
def commitMember (s : State) (e : Entry) : State := commitEntry e.order 1 s

/-- Every DELIVERED member becomes COMMITTED, in ascending order number, each with its COMMIT event (R144, R189). -/
def commitMembers (r : SetRec) (s : State) : State :=
  (membersWhere s r fun st => st = .delivered).foldl commitMember s

/-- SET DONE for a record in COMPLETE-AWAITING (R144). -/
def confirmSet (r : SetRec) (s : State) : Option State :=
  if r.state = .completeAwaiting then some (removeHeads (freeSet r.name (commitMembers r s))) else none

/-- SET_DONE (R144). -/
def execSetDone (payload : List Byte) (s : State) : Host.Outcome State Fault Refusal :=
  takeReport 0x43 payload (readFinisherReport 0x43 payload confirmSet) s

/-! ### SET FAULT and the timer -/

/-- The set-confirm timer of a record stops (R143). -/
def stopConfirm (n : SetName) (s : State) : State := updateSet n (fun r => { r with deadline := none }) s

/-- A FINISHER cause for a set, its timer stopped (R143, R145). -/
def faultSet (n : SetName) (s : State) : State := takeCause (finisherCause s n) (stopConfirm n s)

/-- SET_FAULT (R145). -/
def execSetFault (payload : List Byte) (s : State) : Host.Outcome State Fault Refusal :=
  takeReport 0x44 payload (readFinisherReport 0x44 payload (fun r s => some (faultSet r.name s))) s

/-- The set-confirm timer of a set has run out (R143). -/
def confirmDue (n : SetName) (s : State) : Bool :=
  match findSet s n with
  | some r => match r.deadline with
    | some t => t ≤ s.pos.clock
    | none => false
  | none => false

/-- SET_CONFIRM_EXPIRY: the record keeps its state, and the FINISHER cause is handed to the Jam Detector (R143). -/
def execSetConfirmExpiry (bin : Bin) (set : Byte) (s : State) : Host.Outcome State Fault Refusal :=
  doneIf (confirmDue { bin := bin, set := set } s) s (faultSet { bin := bin, set := set } s)

/-! ### SET CLEARED -/

/-- A waiting SET VOID frame for the set is withdrawn (R146). -/
def withdrawSetVoid (n : SetName) (s : State) : State :=
  { s with link.pathControl := s.link.pathControl.filter fun f => f ≠ .setVoid n }

/-- The record leaves the void order list, and is DONE while a sheet is bound for it, else freed or re-formed (R146). -/
def settleCleared (r : SetRec) (s : State) : State :=
  let s1 := { s with sets.voidOrder := s.sets.voidOrder.filter fun n => n ≠ r.name }
  if anyBound s1 r then updateSet r.name (fun r => { r with state := .done, deadline := none }) s1
  else releaseSet r s1

/-- In VOID WAIT the set leaves the outstanding void list, and replay is taken when that empties it (R131). -/
def leaveOutstanding (n : SetName) (s : State) : State :=
  match s.sup.purge with
  | some p =>
    if p.phase = .voidWait && p.outstanding.contains n then
      let rest := p.outstanding.filter fun m => m ≠ n
      let s1 := { s with sup.purge := some { p with outstanding := rest } }
      if rest.isEmpty then replay s1 else s1
    else s
  | none => s

/-- SET CLEARED for a VOIDED record (R146, R131). -/
def clearSet (r : SetRec) (s : State) : Option State :=
  if r.state = .voided then some (leaveOutstanding r.name (settleCleared r (withdrawSetVoid r.name s))) else none

/-- SET_CLEARED (R146). -/
def execSetCleared (payload : List Byte) (s : State) : Host.Outcome State Fault Refusal :=
  takeReport 0x45 payload (readFinisherReport 0x45 payload clearSet) s

end Sys2Proof.Machine
end

