-- ==== Sys2Proof/Machine/Orders.lean ====
section
/-! DEFINITION. ORDER, PICK and the engine CREDIT (R36 to R40, R45, R48 to R50), and the withdrawal of orders by SKIP ORDER
and CANCEL JOB (R53 to R55, R148). -/

namespace Sys2Proof.Machine

/-! ### ORDER -/

/-- The field check: the route is a print route, the length is 500 to 6,000 steps, the class is at most 2. It answers the
route and the class (R38). -/
def orderFieldsOf (t : Tables) (o : OrderFields) : Option (RouteIx × SpeedClass) := do
  let r ← indexOf 32 o.route
  let c ← indexOf 3 o.cls
  if isPrintRoute t.routes[r] && 500 ≤ o.length.toNat && o.length.toNat ≤ 6000 then some (r, c) else none

/-- A row of the set table of R39 applies to an order whose route leads to `bin`. -/
def setRefused (s : State) (bin : Bin) (set : Option Byte) (setLast : Bool) : Bool :=
  match set with
  | none => setLast || (s.tables.bins[bin]).kind = .set || s.ret.receiving.isSome
  | some n =>
    (s.tables.bins[bin]).kind = .stack ||
    match s.ret.receiving with
    | none => (findSet s { bin := bin, set := n }).isSome || 8 ≤ s.sets.records.length
    | some r => r ≠ { bin := bin, set := n }

/-- The sequence check (R37). -/
def sequenceOk (s : State) (n : OrderNo) : Bool :=
  match s.ret.expected with
  | none => true
  | some e => n = e

/-- The entry of an accepted order (R33, R40). -/
def entryOf (o : OrderFields) (r : RouteIx) (c : SpeedClass) : Entry :=
  { order := o.order, job := o.job, sheetIndex := o.sheetIndex, front := o.front, back := o.back,
    backPresent := o.backPresent, route := r, length := o.length, cls := c, set := o.setNumber, setLast := o.setLast,
    attempt := 0, unpicked := false, state := .queued, tag := none, mark := none, firstSent := false }

/-- The four checks of an ORDER, the first refusal first; the entry where it passes (R36). -/
def checkOrder (s : State) (o : OrderFields) : Except OrderRefusal Entry :=
  if s.sup.state = .starting || s.sup.state = .unconfigured then .error .notReady
  else if !sequenceOk s o.order then .error .sequence
  else if 32 ≤ s.ret.entries.length then .error .noCredit
  else match orderFieldsOf s.tables o with
    | none => .error .field
    | some (r, c) =>
      if setRefused s (s.tables.routes[r]).bin o.setNumber o.setLast then .error .field else .ok (entryOf o r c)

/-- The set part of acceptance (R40, R140). -/
def joinSet (e : Entry) (s : State) : State :=
  match entrySet s.tables e with
  | some name => acceptMember name e.order e.setLast s
  | none => s

/-- Acceptance: the entry at the tail, the expected next number, the set, the credit (R40, R42). -/
def acceptEntry (e : Entry) (s : State) : State :=
  creditIfChanged (creditContent s.ret)
    (joinSet e { s with ret.entries := s.ret.entries ++ [e], ret.expected := some (e.order + 1) })

/-- An ORDER of 16 bytes: the wake, the checks, and acceptance or the ORDER REFUSED notice (R36). -/
def takeOrder (o : OrderFields) (s : State) : State :=
  let s := wakeToIdle s
  match checkOrder s o with
  | .error reason => makeNotice (.orderRefused o.order reason) s
  | .ok e => forwarderPass (acceptEntry e s)

/-- ORDER; with another Length it is consumed with a LINK ERROR, reason FORMAT (R36, R170). -/
def execOrder (payload : List Byte) (s : State) : Host.Outcome State Fault Refusal :=
  takeFrame .upper 0x10 payload
    (match decodeOrder payload with
      | none => makeLinkError .upper .format 0x10
      | some o => takeOrder o) s

/-! ### PICK and CREDIT -/

/-- The oldest FORWARDED entry: the lowest-numbered one (R48). -/
def oldestForwarded (s : State) : Option Entry := s.ret.entries.find? fun e => e.state = .forwarded

/-- What a PICK of order `n` is matched to: the oldest FORWARDED entry and a free tag (R49). -/
def pickMatch (n : OrderNo) (s : State) : Option (Entry × Tag) :=
  match oldestForwarded s, lowestFreeTag s with
  | some e, some tag => if e.order = n then some (e, tag) else none
  | _, _ => none

/-- The PICK event (R48, R189). -/
def pickEvent (n : OrderNo) (detail : Byte) (s : State) : State := offerEvent .pick s.pos.p none (some n) detail s

/-- A PICK that is read (R48 to R50). Where the posting of visit 0 reports OVERRUN, that cause is taken before the forwarder considers
the queue for the entry that has left FORWARDED, so that a stop it declares lets no further order go: the spec leaves that order open
(R43, R49, R66, R84; log 11). The PICK event is offered ahead of the JAM notice and the CAUSE event of that OVERRUN, and an UNEXPECTED
REPORT notice is made ahead of the PICK event: R189 lets either order occur, and both are the model's choice (log 19). -/
def takePick (n : OrderNo) (s : State) : State :=
  match pickMatch n s with
  | some (e, tag) => afterTracking (allocate tag e (pickEvent n 0 s))
  | none => pickEvent n 1 (makeNotice (.unexpectedReport 0x41 0xFF n) s)

/-- PICK: passed upstream; read in every state but STARTING; of another Length than 2 it is not read (R48, R172;
log 22). -/
def execPick (payload : List Byte) (s : State) : Host.Outcome State Fault Refusal :=
  takeReport 0x41 payload
    (match payload with
      | [hi, lo] => fun s => if s.sup.state = .starting then s else takePick (wordOf hi lo) s
      | _ => makeLinkError .lower .format 0x41) s

/-- An engine CREDIT that is read (R45). -/
def takeCredit (limit : Byte) (s : State) : State :=
  if s.sup.state = .starting || s.fwd.windowHold then s else forwarderPass { s with fwd.limit := limit }

/-- ENGINE_CREDIT: consumed; of another Length than 1 it is not read (R45, R172). -/
def execEngineCredit (payload : List Byte) (s : State) : Host.Outcome State Fault Refusal :=
  takeFrame .lower 0x46 payload
    (match payload with
      | [limit] => takeCredit limit
      | _ => makeLinkError .lower .format 0x46) s

/-! ### Withdrawal -/

/-- An entry made SKIPPED (R53, R54). -/
def Entry.skip (e : Entry) : Entry := { e with state := .skipped, unpicked := false }

/-- The engine has not been given the order, or is not to be given it again before replay (R53). -/
def isWaiting (e : Entry) : Bool := e.state = .queued || e.state = .held

/-- How SKIP ORDER is decided on the named entry (R53). -/
def skipStatus (s : State) (n : OrderNo) : Status :=
  match findEntry s n with
  | none => .range
  | some e => if isWaiting e then (if e.set.isSome then .set else .done) else .state

/-- SKIP ORDER after the wake: the status, and the entry made SKIPPED where it is DONE (R53, R137). -/
def skipOrder (n : OrderNo) (s : State) : State × Status :=
  if skipStatus s n = .done then
    (afterWithdrawal (lowestHeld s) (removeHeads (updateEntry n Entry.skip s)), .done)
  else (s, skipStatus s n)

/-- CANCEL JOB withdraws an entry of the job in one of three states (R54). -/
def isCancelled (job : Word) (e : Entry) : Bool := e.job = job && (isWaiting e || e.state = .reprint)

/-- A set belongs to the job when any held member carries the job number (R55). -/
def isSetOfJob (s : State) (job : Word) (r : SetRec) : Bool :=
  s.ret.entries.any fun e => e.job = job && memberOf s.tables r e

/-- The number of members of a record that CANCEL JOB makes SKIPPED for their own state (R148). -/
def cancelledMembers (s : State) (job : Word) (r : SetRec) : Nat :=
  (s.ret.entries.filter fun e => isCancelled job e && memberOf s.tables r e).length

/-- The number of DELIVERED members of a record. -/
def deliveredMembers (s : State) (r : SetRec) : Nat := (membersWhere s r fun st => st = .delivered).length

/-- CANCEL JOB voids a record: it is OPEN and has a DELIVERED member (R55). -/
def isVoidedByCancel (s : State) (r : SetRec) : Bool := r.state = .opened && 0 < deliveredMembers s r

/-- The highest accepted member of a set (R148). -/
def highestMember (s : State) (r : SetRec) : Option OrderNo :=
  ((s.ret.entries.filter (memberOf s.tables r)).getLast?).map (·.order)

/-- The record of a set of the job but for its voiding: last order number, cancelled, counts (R148). What is delivered into a set
cancelled again is withdrawn again (R134, R148; log 41). -/
def cancelRecord (s : State) (job : Word) (r : SetRec) : SetRec :=
  let lost := if isVoidedByCancel s r then deliveredMembers s r else 0
  { r with last := if s.ret.receiving = some r.name then highestMember s r else r.last
           cancelled := r.cancelled || r.state ≠ .completeAwaiting
           rebuilt := r.rebuilt && r.state = .completeAwaiting
           members := r.members - cancelledMembers s job r - lost
           delivered := r.delivered - lost }

/-- A set voided by CANCEL JOB: VOIDED, its SET VOID frame, and a place on the outstanding void list in VOID WAIT (R55,
R131). -/
def voidByCancel (n : SetName) (s : State) : State :=
  let s1 := queueSetVoid n (becomeVoided n s)
  { s1 with sup.purge := s.sup.purge.map fun p =>
      if p.phase = .voidWait then { p with outstanding := p.outstanding ++ [n] } else p }

/-- A record whose member count has fallen to 0 is freed, unless it is VOIDED or DONE (R148). -/
def freeIfEmpty (n : SetName) (s : State) : State :=
  match findSet s n with
  | some r => if r.members = 0 && (r.state = .opened || r.state = .completeAwaiting) then freeSet n s else s
  | none => s

/-- The sets of the job. -/
def setsOfJob (s : State) (job : Word) : List SetRec := s.sets.records.filter (isSetOfJob s job)

/-- An entry that CANCEL JOB makes SKIPPED: of the job itself, or a DELIVERED member of a set it voids (R54, R55). -/
def cancelsEntry (s : State) (job : Word) (e : Entry) : Bool :=
  isCancelled job e ||
  (e.state = .delivered && (setsOfJob s job).any fun r => isVoidedByCancel s r && memberOf s.tables r e)

/-- The entries and set records as CANCEL JOB leaves them, judged on the state it is taken in (R54, R55, R148). -/
def cancelEntries (job : Word) (s : State) : State :=
  { s with ret.entries := s.ret.entries.map fun e => if cancelsEntry s job e then e.skip else e
           ret.receiving := if (setsOfJob s job).any fun r => s.ret.receiving = some r.name then none
                            else s.ret.receiving
           sets.records := s.sets.records.map fun r => if isSetOfJob s job r then cancelRecord s job r else r }

/-- CANCEL JOB after the wake, and the number of entries made SKIPPED (R54, R55, R137, R148). Several sets are voided in the
order of the record list (log 31). -/
def cancelJob (job : Word) (s : State) : State × Nat :=
  let voided := (setsOfJob s job).filter (isVoidedByCancel s)
  let s1 := voided.foldl (fun s r => voidByCancel r.name s) (cancelEntries job s)
  let s2 := (setsOfJob s job).foldl (fun s r => freeIfEmpty r.name s) s1
  (afterWithdrawal (lowestHeld s) (removeHeads s2), (s.ret.entries.filter (cancelsEntry s job)).length)

end Sys2Proof.Machine
end

