-- ==== Sys2Proof/Machine/Manage.lean ====
section
/-! DEFINITION. The service of MANAGE requests (R178), the read commands (R180, R182, R117), and SKIP ORDER and CANCEL JOB
as commands (R53, R54). -/

namespace Sys2Proof.Machine

/-! ### The service of a request -/

/-- A request: its tag, command code and arguments (R178). -/
structure Request where
  tag : Byte
  code : Byte
  args : List Byte
deriving DecidableEq, Repr

/-- A request from the payload of a MANAGE frame. -/
def requestOf : List Byte → Option Request
  | tag :: code :: args => some { tag := tag, code := code, args := args }
  | _ => none

/-- The request of a port that is next to be served: on the upper port the oldest one held, while fewer than 4 replies
wait; on the service port the one in the receive frame, not yet served (R176, R178). -/
def nextRequest (port : MgmtPort) (s : State) : Option Request :=
  match port with
  | .upper => if 4 ≤ s.link.replies.length then none else s.link.holding.head?.bind requestOf
  | .service =>
    match s.svc.held with
    | some h => if h.served then none else requestOf h.payload
    | none => none

/-- The served request leaves the holding; on the service port it occupies the receive frame until its reply starts (R176,
R178). -/
def takeRequest (port : MgmtPort) (s : State) : State :=
  match port with
  | .upper => { s with link.holding := s.link.holding.tail }
  | .service => { s with svc.held := s.svc.held.map fun h => { h with served := true } }

/-- A reply joins the upper reply queue or the service reply slot (R176, R178). -/
def putReply (port : MgmtPort) (r : Reply) (s : State) : State :=
  match port with
  | .upper => { s with link.replies := s.link.replies ++ [r] }
  | .service => { s with svc.reply := some r }

/-- What the service of a command comes to: the state, the status and the results of the reply. -/
structure Served where
  state : State
  status : Status
  results : List Byte := []
deriving DecidableEq, Repr

/-- The command codes of R181. -/
def knownCodes : List Byte :=
  [0x01, 0x02, 0x10, 0x11, 0x12, 0x13, 0x14, 0x15, 0x16, 0x20, 0x21, 0x22, 0x23, 0x24, 0x30, 0x31, 0x40, 0x41, 0x42,
   0x43, 0x50]

/-- The steps of R178 on a request taken: NOT READY in STARTING, RANGE where the argument length is wrong, else the command
itself. -/
def settle (lengthOk : List Byte → Bool) (act : List Byte → State → Served) (q : Request) (s : State) : Served :=
  if s.sup.state = .starting then { state := s, status := .notReady }
  else if lengthOk q.args then act q.args s
  else { state := s, status := .range }

/-- The service of the next request of a port, where its code is one of the command's; the reply is made after the
command's effects and their notices (R178, R182). -/
def serve (port : MgmtPort) (isCode : Byte → Bool) (lengthOk : List Byte → Bool)
    (act : List Byte → State → Served) (s : State) : Host.Outcome State Fault Refusal :=
  match nextRequest port s with
  | none => .next s
  | some q =>
    if isCode q.code then
      let r := settle lengthOk act q (takeRequest port s)
      done (putReply port { tag := q.tag, status := r.status, results := r.results } r.state)
    else .next s

/-- The arguments have exactly `n` bytes (R181). -/
def exactly (n : Nat) (args : List Byte) : Bool := args.length = n

/-- The two bytes of a 16-bit argument. -/
def wordArg (args : List Byte) : Word := wordOf (args.getD 0 0) (args.getD 1 0)

/-- UNKNOWN_COMMAND: a code not in the table of R181 is answered UNKNOWN, whatever its arguments (R178). -/
def execUnknownCommand (port : MgmtPort) (s : State) : Host.Outcome State Fault Refusal :=
  serve port (fun c => !knownCodes.contains c) (fun _ => true) (fun _ s => { state := s, status := .unknown }) s

/-! ### Reading the part -/

/-- The part code of IDENTIFY (R180). -/
def partCode : Word := 0x5218

/-- The results of IDENTIFY (R180). -/
def identifyBytes (s : State) : List Byte := wordBytes partCode ++ [Config.revision, s.sup.resetCause.code]

/-- IDENTIFY (R180). -/
def execIdentify (port : MgmtPort) (s : State) : Host.Outcome State Fault Refusal :=
  serve port (· = 0x01) (exactly 0) (fun _ s => { state := s, status := .done, results := identifyBytes s }) s

/-- The plan number and plan state of READ STATE (R180). -/
def planStateBytes : Option PlanRec → List Byte
  | some p => [p.number, boolByte (!p.isOpen)]
  | none => [0, 0xFF]

/-- The results of READ STATE (R180). -/
def stateBytes (s : State) : List Byte :=
  let credit := creditContent s.ret
  [s.sup.state.code, HeldReason.code s.sup.heldReason, byteOf s.fwd.speed.val, finByte (s.fwd.request.map (·.1)),
   byteOf s.ret.entries.length, byteOf (trackingCount s)] ++ planStateBytes s.plan.plan ++
  wordBytes credit.limit ++ wordBytes credit.oldest ++
  [flagsByte [(0, credit.isOpen), (1, s.fwd.windowHold), (2, s.tables.checked)], byteOf (engineWindow s.fwd), s.fwd.f]

/-- READ_STATE (R180). -/
def execReadState (port : MgmtPort) (s : State) : Host.Outcome State Fault Refusal :=
  serve port (· = 0x02) (exactly 0) (fun _ s => { state := s, status := .done, results := stateBytes s }) s

/-- The 21 bytes of READ ORDER (R182). -/
def entryBytes (e : Entry) : List Byte :=
  orderBytes e ++ [e.state.code, byteOf e.attempt, flagsByte [(0, e.unpicked)], finByte e.tag, Mark.code e.mark]

/-- What READ ORDER answers for a number (R182). -/
def readOrder (n : OrderNo) (s : State) : Served :=
  match findEntry s n with
  | some e => { state := s, status := .done, results := entryBytes e }
  | none => { state := s, status := .range }

/-- READ_ORDER (R182). -/
def execReadOrder (port : MgmtPort) (s : State) : Host.Outcome State Fault Refusal :=
  serve port (· = 0x20) (exactly 2) (fun args s => readOrder (wordArg args) s) s

/-- The last page of a plan record (R117). -/
def lastPage (p : PlanRec) : Nat := 3 + (p.dispositions.length - 1) / 8

/-- The cause records of page 1, with what is absent as 0xFF (R181, R182). -/
def causesBytes (cs : List Cause) : List Byte := cs.flatMap fun c => causeBytes c 0xFF absentInReply

/-- One item of a plan's list (R182). -/
def itemBytes (x : OrderNo × Disposition) : List Byte := wordBytes x.1 ++ [x.2.code]

/-- A page of a plan record (R117, R182), with what is absent as 0xFF (R181). -/
def pageBytes (p : PlanRec) (page : Nat) : List Byte :=
  match page with
  | 0 => boolByte (!p.isOpen) :: summaryBytes (planSummary p absentInReply) ++ posBytes p.pos
  | 1 => (byteOf p.causes.length ||| flagBit 7 p.more) :: causesBytes p.causes
  | 2 => zoneSetBytes p.clear ++ byteOf p.voided.length :: p.voided.flatMap fun n => [byteOf n.bin.val, n.set]
  | k + 3 =>
    let items := (p.dispositions.drop (8 * k)).take 8
    byteOf items.length :: items.flatMap itemBytes

/-- What READ PLAN answers (R117, R118). -/
def readPlan (number : Byte) (page : Nat) (s : State) : Served :=
  match s.plan.plan with
  | none => { state := s, status := .stale }
  | some p =>
    if number ≠ 0 && number ≠ p.number then { state := s, status := .stale }
    else if lastPage p < page then { state := s, status := .range }
    else { state := s, status := .done, results := p.number :: pageBytes p page }

/-- READ_PLAN (R117). -/
def execReadPlan (port : MgmtPort) (s : State) : Host.Outcome State Fault Refusal :=
  serve port (· = 0x21) (exactly 2) (fun args s => readPlan (args.getD 0 0) (args.getD 1 0).toNat s) s

/-! ### Withdrawing orders -/

/-- SKIP_ORDER: taken in STANDBY it wakes the part first (R53, R164). -/
def execSkipOrder (port : MgmtPort) (s : State) : Host.Outcome State Fault Refusal :=
  serve port (· = 0x23) (exactly 2)
    (fun args s => let r := skipOrder (wordArg args) (wakeToIdle s); { state := r.1, status := r.2 }) s

/-- CANCEL_JOB: taken in STANDBY it wakes the part first (R54, R164). -/
def execCancelJob (port : MgmtPort) (s : State) : Host.Outcome State Fault Refusal :=
  serve port (· = 0x24) (exactly 2)
    (fun args s =>
      let r := cancelJob (wordArg args) (wakeToIdle s)
      { state := r.1, status := .done, results := [byteOf r.2] }) s

end Sys2Proof.Machine
end

