-- ==== Sys2Proof/Machine/Recovery.lean ====
section
/-! DEFINITION. RESUME and SETTLE (R22, R98, R122, R123, R125, R138). -/

namespace Sys2Proof.Machine

/-- The covers whose qualified level is open (R123). -/
def openCovers (s : State) : List Cover := indexesWhere fun c : Cover => !(s.front.covers[c]).closed

/-- One byte with bit n set for each open cover n (R182). -/
def coverBits (cs : List Cover) : Byte := flagsByte (cs.map fun c => (c.val, true))

/-- The defined stations in a clear zone of the plan whose qualified level is covered, ascending (R123). -/
def stationsNotClear (s : State) (p : PlanRec) : List Station :=
  (coveredStations s).filter (inZones s.tables p.clear)

/-- A refusal of RESUME in AWAIT CLEAR: its status and results (R123, R182). -/
def clearRefusal (s : State) (number : Byte) : Option (Status × List Byte) :=
  match currentPlan s with
  | none => some (.stale, [])
  | some p =>
    if number ≠ p.number then some (.stale, [])
    else if !(openCovers s).isEmpty then some (.coverOpen, [coverBits (openCovers s)])
    else if !(stationsNotClear s p).isEmpty then
      some (.notClear, byteOf (stationsNotClear s p).length :: (stationsNotClear s p).map fun st => byteOf st.val)
    else none

/-- The current plan has this number (R122). -/
def namesCurrentPlan (s : State) (number : Byte) : Bool :=
  match currentPlan s with
  | some p => p.number = number
  | none => false

/-- A HELD entry released by RESUME 0 (R138). -/
def Entry.release (e : Entry) : Entry := if e.state = .held then { e with state := .queued, attempt := 0 } else e

/-- The state RESUME 0 releases a HELD part to, seen on the released entries (R138). -/
def releaseTarget (s : State) : PartState :=
  if (lowestQueued s).isNone && forwardedCount s = 0 && trackingEmpty s then .idle else .running

/-- RESUME 0 in HELD: the HELD entries become QUEUED with attempt count 0, the part enters RUNNING or IDLE, and the
forwarder considers the queue (R138). The reply names the state entered at the release (log 23). -/
def releaseHeld (s : State) : Served :=
  let s1 := mapEntries Entry.release s
  { state := forwarderPass (enterState (releaseTarget s1) s1), status := .done, results := [(releaseTarget s1).code] }

/-- RESUME by the part state and the plan number (R122, R123). -/
def resume (number : Byte) (s : State) : Served :=
  match s.sup.state with
  | .awaitClear =>
    match clearRefusal s number with
    | some (status, results) => { state := s, status := status, results := results }
    | none => { state := acceptResume s, status := .done, results := [(resumeTarget s).code] }
  | .held => if number = 0 then releaseHeld s else { state := s, status := .stale }
  | .stopping => { state := s, status := if namesCurrentPlan s number then .state else .stale }
  | .purging => { state := s, status := if namesCurrentPlan s number then .state else .stale }
  | .starting => { state := s, status := .notReady }
  | .unconfigured => { state := s, status := if number = 0 then .state else .stale }
  | .idle => { state := s, status := if number = 0 then .state else .stale }
  | .running => { state := s, status := if number = 0 then .state else .stale }
  | .speedChange => { state := s, status := if number = 0 then .state else .stale }
  | .standby => { state := s, status := if number = 0 then .state else .stale }

/-- RESUME (R122). -/
def execResume (port : MgmtPort) (s : State) : Host.Outcome State Fault Refusal :=
  serve port (· = 0x22) (exactly 1) (fun args s => resume (args.getD 0 0) s) s

/-- The settle time has passed since the later of the entry into STOPPING and the last encoder pulse (R22). A pulse taken
after it has run out and before SETTLE starts it again (log 5). -/
def settleDue (s : State) : Bool :=
  match s.pos.settleFrom with
  | some t => s.sup.state = .stopping && s.tables.limits.settleTime * clkMs ≤ s.pos.clock - max t s.pos.lastPulse
  | none => false

/-- SETTLE: the stop is handed to the Recovery Planner, whose snapshot forms the plan and brings the part to AWAIT CLEAR
(R98, R103, R112). -/
def execSettle (s : State) : Host.Outcome State Fault Refusal := doneIf (settleDue s) s (snapshot s)

end Sys2Proof.Machine
end

