-- ==== Sys2Proof/Machine/TableCommands.lean ====
section
/-! DEFINITION. The table writes, READ TABLE and CHECK TABLES (R7, R9 to R16, R181). -/

namespace Sys2Proof.Machine

/-- Why a table write or CHECK TABLES is not admitted; none where it is (R9, R15). -/
def tablesRefusal (s : State) : Option Status :=
  let free := s.ret.entries.isEmpty && s.sets.records.isEmpty
  match s.sup.state with
  | .starting => some .notReady
  | .unconfigured => none
  | .idle => if free then none else some .busy
  | .standby => if free then none else some .busy
  | .running => some .busy
  | .speedChange => some .busy
  | .stopping => some .busy
  | .awaitClear => some .busy
  | .purging => some .busy
  | .held => some .busy

/-- What every admitted write does: the tables-checked flag is cleared, and IDLE and STANDBY are left for UNCONFIGURED
(R11). -/
def afterWrite (s : State) : State :=
  let s1 := { s with tables.checked := false }
  if s.sup.state = .idle || s.sup.state = .standby then enterState .unconfigured s1 else s1

/-- A table write: admitted or refused by the part state, then by its structural values; `record` is none where one is out
of range, and else the state with the record stored and the record in the layout of its write (R9 to R11). -/
def writeTable (record : Option (State × List Byte)) (s : State) : Served :=
  match tablesRefusal s with
  | some status => { state := s, status := status }
  | none =>
    match record with
    | none => { state := s, status := .range }
    | some (s1, bytes) => { state := afterWrite s1, status := .done, results := bytes }

/-- The index and the record of a write: with defined 0 the empty record, with defined 1 the one its other arguments give
(R10, R11). -/
def indexedRecord {α : Type} (n : Nat) (empty : α) (parse : List Byte → Option α) (args : List Byte) :
    Option (Fin n × α) :=
  match args with
  | i :: defined :: rest => do
    let i ← indexOf n i
    let d ← yesNo defined
    let r ← if d then parse rest else some empty
    return (i, r)
  | _ => none

/-! ### WRITE STATION -/

/-- The record of WRITE STATION (R10, R181). -/
def stationArgs (args : List Byte) : Option (Station × StationRec) :=
  indexedRecord 16 .undefined (fun rest => match rest with
    | [zone, qualify] => stationOf zone qualify
    | _ => none) args

/-- A station record is stored, with its effect on the station's sensing (R11, R12). -/
def storeStation (i : Station) (r : StationRec) (s : State) : State :=
  setSense i (senseAfterWrite s.tables.stations[i] r s.front.stations[i])
    { s with tables.stations := s.tables.stations.set i r }

/-- The qualify time of a station has passed since its pending change began (R26). -/
def qualified (s : State) (st : Station) (c : PendingChange) : Bool :=
  (s.tables.stations[st]).qualify * clk50us ≤ s.pos.clock - c.time

/-- A pending change whose new qualify time has already passed at the write is accepted at the write; the part is then in
UNCONFIGURED, where an edge changes only the level (R12, R27), so that its ON or OFF event follows the STATE event and the STATE
notice of that change (log 19). -/
def acceptAtWrite (st : Station) (s : State) : State :=
  match (s.front.stations[st]).pending with
  | some c => if qualified s st c then acceptLevel st c.toCovered c.p 0 s else s
  | none => s

/-- WRITE STATION as a served command (R12). -/
def writeStation (args : List Byte) (s : State) : Served :=
  match stationArgs args with
  | some (i, r) =>
    let w := writeTable (some (storeStation i r s, stationBytes i r)) s
    if w.status = .done then { w with state := acceptAtWrite i w.state } else w
  | none => writeTable none s

/-- WRITE_STATION (R12). -/
def execWriteStation (port : MgmtPort) (s : State) : Host.Outcome State Fault Refusal :=
  serve port (· = 0x10) (writeLengthOk 4) writeStation s

/-! ### WRITE ZONE, WRITE BIN, WRITE ROUTE, WRITE LIMITS -/

/-- The record of WRITE ZONE (R10, R181). -/
def zoneArgs (args : List Byte) : Option (Zone × ZoneRec) :=
  indexedRecord 12 .undefined (fun rest => match rest with
    | [purgeable, cover] => zoneOf purgeable cover
    | _ => none) args

/-- A zone record is stored, and the guarded sets are formed anew (R3, R11). -/
def storeZone (i : Zone) (r : ZoneRec) (s : State) : State :=
  let zones := s.tables.zones.set i r
  { s with tables.zones := zones, tables.guarded := guardedSets zones }

/-- WRITE ZONE as a served command (R11). -/
def writeZone (args : List Byte) (s : State) : Served :=
  writeTable ((zoneArgs args).map fun x => (storeZone x.1 x.2 s, zoneBytes x.1 x.2)) s

/-- WRITE_ZONE (R11). -/
def execWriteZone (port : MgmtPort) (s : State) : Host.Outcome State Fault Refusal :=
  serve port (· = 0x11) (writeLengthOk 4) writeZone s

/-- The record of WRITE BIN (R10, R181). -/
def binArgs (args : List Byte) : Option (Bin × BinRec) :=
  indexedRecord 8 .undefined (fun rest => match rest with
    | [kind, zone] => binOf kind zone
    | _ => none) args

/-- A bin record is stored (R11). -/
def storeBin (i : Bin) (r : BinRec) (s : State) : State := { s with tables.bins := s.tables.bins.set i r }

/-- WRITE BIN as a served command (R11). -/
def writeBin (args : List Byte) (s : State) : Served :=
  writeTable ((binArgs args).map fun x => (storeBin x.1 x.2 s, binBytes x.1 x.2)) s

/-- WRITE_BIN (R11). -/
def execWriteBin (port : MgmtPort) (s : State) : Host.Outcome State Fault Refusal :=
  serve port (· = 0x12) (writeLengthOk 4) writeBin s

/-- The record of WRITE ROUTE; its length was judged against its visit count (R10, R181). -/
def routeArgs (args : List Byte) : Option (RouteIx × RouteRec) :=
  indexedRecord 32 .undefined (fun rest => match rest with
    | _ :: bin :: c :: present :: d :: w :: visits => routeOf bin c present d w visits
    | _ => none) args

/-- A route record is stored (R11). -/
def storeRoute (i : RouteIx) (r : RouteRec) (s : State) : State := { s with tables.routes := s.tables.routes.set i r }

/-- WRITE ROUTE as a served command (R11). -/
def writeRoute (args : List Byte) (s : State) : Served :=
  writeTable ((routeArgs args).map fun x => (storeRoute x.1 x.2 s, routeBytes x.1 x.2)) s

/-- WRITE_ROUTE (R11). -/
def execWriteRoute (port : MgmtPort) (s : State) : Host.Outcome State Fault Refusal :=
  serve port (· = 0x13) routeLengthOk writeRoute s

/-- The limits record that the 28 bytes of WRITE LIMITS give, clamped (R7, R10). -/
def limitsArgs (args : List Byte) : Option Limits := (wordsOf args).bind fun ws => limitsOf (ws.map (·.toNat))

/-- WRITE LIMITS as a served command (R7). -/
def writeLimits (args : List Byte) (s : State) : Served :=
  writeTable ((limitsArgs args).map fun l => ({ s with tables.limits := l }, limitsBytes l)) s

/-- WRITE_LIMITS (R7). -/
def execWriteLimits (port : MgmtPort) (s : State) : Host.Outcome State Fault Refusal :=
  serve port (· = 0x14) (exactly 28) writeLimits s

/-! ### READ TABLE and CHECK TABLES -/

/-- The record READ TABLE returns, by its table byte and index byte; none is out of range (R13, R181). -/
def tableBytes (t : Tables) (table index : Byte) : Option (List Byte) :=
  match table.toNat with
  | 0 => (indexOf 16 index).map fun i => stationBytes i t.stations[i]
  | 1 => (indexOf 12 index).map fun i => zoneBytes i t.zones[i]
  | 2 => (indexOf 8 index).map fun i => binBytes i t.bins[i]
  | 3 => (indexOf 32 index).map fun i => routeBytes i t.routes[i]
  | 4 => some (guardedBytes t)
  | 5 => some (limitsBytes t.limits)
  | 6 => some (loadResultBytes t.loadResult)
  | _ => none

/-- What READ TABLE answers (R13). -/
def readTable (args : List Byte) (s : State) : Served :=
  match tableBytes s.tables (args.getD 0 0) (args.getD 1 0) with
  | some bytes => { state := s, status := .done, results := bytes }
  | none => { state := s, status := .range }

/-- READ_TABLE (R13). -/
def execReadTable (port : MgmtPort) (s : State) : Host.Outcome State Fault Refusal :=
  serve port (· = 0x15) (exactly 2) readTable s

/-- A pass of CHECK TABLES: in UNCONFIGURED the flag is set and the sensors are checked; in IDLE and STANDBY nothing changes
(R15). -/
def tablesPass (s : State) : State :=
  if s.sup.state = .unconfigured then idleOrForeign { s with tables.checked := true } else s

/-- What CHECK TABLES answers; with TABLE FAULT the flag is sent as 0 (R15, R181). -/
def checkTables (s : State) : Served :=
  match tablesRefusal s with
  | some status => { state := s, status := status }
  | none =>
    match validate s.tables with
    | some f => { state := s, status := .tableFault, results := faultBytes f ++ [0] }
    | none => { state := tablesPass s, status := .done, results := [1] }

/-- CHECK_TABLES (R15). -/
def execCheckTables (port : MgmtPort) (s : State) : Host.Outcome State Fault Refusal :=
  serve port (· = 0x16) (exactly 0) (fun _ s => checkTables s) s

end Sys2Proof.Machine
end

