-- ==== Sys2Proof/Machine/Sensing.lean ====
section
/-! DEFINITION. The pins: encoder, transport run, stations and covers, and the expiries measured on P and on the encoder
(R19 to R31, R75 to R77, R92, R93). A qualification or an expiry is taken only when its time or position has been reached
(log 2, log 5). -/

namespace Sys2Proof.Machine

/-! ### Encoder and transport run -/

/-- ENCODER_PULSE: P steps by one, the quiet time starts again, and so does a stall timer that is measured (R19, R21,
R23). -/
def execEncoderPulse (s : State) : Host.Outcome State Fault Refusal :=
  done (syncStall true { s with pos.p := s.pos.p + 1, pos.lastPulse := s.pos.clock })

/-- A pending change of a line with two levels after its raw level has changed: dropped where the raw level is the
qualified one, begun now where none is pending (R24, R30). A raw change taken after the change has held for its time, and before
its row, drops it all the same (log 5). -/
def linePending (raw qual : Bool) (pending : Option Nat) (now : Nat) : Option Nat :=
  if raw = qual then none else some (pending.getD now)

/-- TRUN_RAW_CHANGE (R24). -/
def execTrunRawChange (s : State) : Host.Outcome State Fault Refusal :=
  done { s with pos.trunRaw := !s.pos.trunRaw
                pos.trunPending := linePending (!s.pos.trunRaw) s.pos.trunQual s.pos.trunPending s.pos.clock }

/-- TRUN_QUALIFIED: the qualified level takes the raw level after 1 ms, and the stall timer follows (R23, R24). -/
def execTrunQualified (s : State) : Host.Outcome State Fault Refusal :=
  doneIf (heldFor clkMs s.pos.clock s.pos.trunPending) s
    (syncStall true { s with pos.trunQual := s.pos.trunRaw, pos.trunPending := none })

/-! ### Stations -/

/-- Continuous qualification applies to a defined station outside STANDBY (R26, R28). -/
def continuous (s : State) (st : Station) : Bool := (s.tables.stations[st]).defined && s.sup.state ≠ .standby

/-- A defined station outside STANDBY after its raw level has changed: a pending change begins, or is dropped, which settles
an expiry it deferred (R26, R77). A raw change taken after the qualify time has passed, and before the edge's row, drops the
change all the same (log 5). -/
def followRaw (st : Station) (s : State) : State :=
  let x := s.front.stations[st]
  if x.raw = x.qual then
    (if x.pending.isSome then takeDueExpiries st (setSense st { x with pending := none } s) else s)
  else if x.pending.isSome then s
  else setSense st { x with pending := some { toCovered := x.raw, p := s.pos.p, time := s.pos.clock } } s

/-- STATION_RAW_CHANGE (R26). -/
def execStationRawChange (st : Station) (s : State) : Host.Outcome State Fault Refusal :=
  let x := s.front.stations[st]
  let s1 := setSense st { x with raw := !x.raw } s
  done (if continuous s st then followRaw st s1 else s1)

/-- The pending change of a station toward a level, once its qualify time has passed and no expiry of the station is due
(R26, R75 to R77; log 5). -/
def acceptable (st : Station) (covered : Bool) (s : State) : Option PendingChange :=
  match (s.front.stations[st]).pending with
  | some c =>
    if continuous s st && c.toCovered = covered && qualified s st c && !lateDue s st && !stuckDue s st then some c
    else none
  | none => none

/-- An edge accepted by continuous qualification: the level, then the tracker (R26, R27). -/
def acceptEdge (st : Station) (covered : Bool) (s : State) : Host.Outcome State Fault Refusal :=
  match acceptable st covered s with
  | some c => done (handEdge st covered c.p (acceptLevel st covered c.p 0 s))
  | none => .next s

/-- ON_EDGE (R26, R68). -/
def execOnEdge (st : Station) (s : State) : Host.Outcome State Fault Refusal := acceptEdge st true s

/-- OFF_EDGE (R26, R73). -/
def execOffEdge (st : Station) (s : State) : Host.Outcome State Fault Refusal := acceptEdge st false s

/-! ### Sampling in STANDBY -/

/-- EMIT_PULSE: EMIT is asserted 20 ms after the entry into STANDBY or after the pulse before (R28). -/
def execEmitPulse (s : State) : Host.Outcome State Fault Refusal :=
  doneIf (s.sup.state = .standby && !s.front.emit && 20 * clkMs ≤ s.pos.clock - s.front.emitFrom) s
    { s with front.emit := true, front.emitFrom := s.pos.clock }

/-- The sensing of a defined station after a sample at P (R28). -/
def StationSense.sampled (p : Pos) (x : StationSense) : StationSense :=
  if x.raw = x.qual then { x with sample := none }
  else if x.sample.isSome then { x with qual := x.raw, sample := none }
  else { x with sample := some p }

/-- An edge that a sample accepts: the station, whether it is ON, and the position of the first differing sample (R28). -/
def sampledEdge (s : State) (st : Station) : Option (Station × Bool × Pos) :=
  let x := s.front.stations[st]
  if (s.tables.stations[st]).defined && x.raw != x.qual then x.sample.map fun p => (st, x.raw, p) else none

/-- Every defined station is sampled once, and EMIT is released (R28). -/
def sampleAll (s : State) : State :=
  { s with front.emit := false
           front.stations := tabulate fun st =>
             let x := s.front.stations[st]
             if (s.tables.stations[st]).defined then x.sampled s.pos.p else x }

/-- The stations in the order in which their edges are handed on: those listed, then the others ascending (log 12). -/
def samplingOrder (order : List Station) : List Station :=
  order ++ (List.finRange 16).filter fun st => !order.contains st

/-- A first differing sample of the station is dropped by the sample that follows it (R28). -/
def dropsSample (s : State) (st : Station) : Bool :=
  let x := s.front.stations[st]
  (s.tables.stations[st]).defined && x.sample.isSome && x.raw = x.qual

/-- An edge that a sample accepts is offered to Trace Capture with detail 1 and handed on (R27, R28, R189). That its event is offered
only now, behind what the edges handed on before it have brought about, is the model's choice (log 12). -/
def handSample (s : State) (x : Station × Bool × Pos) : State :=
  handEdge x.1 x.2.1 x.2.2 (offerEvent (if x.2.1 then .on else .off) x.2.2 (some x.1) none 1 s)

/-- The edges that samples accept are handed on one by one (R27, R28). -/
def handSampled (edges : List (Station × Bool × Pos)) (s : State) : State := edges.foldl handSample s

/-- STANDBY_SAMPLE: at the end of the 0.5 ms pulse all levels are sampled; a dropped sample settles an expiry it deferred
(R77), and the accepted edges are handed on (R28; log 12). -/
def execStandbySample (order : List Station) (s : State) : Host.Outcome State Fault Refusal :=
  let sts := samplingOrder order
  doneIf (s.sup.state = .standby && s.front.emit && 10 * clk50us ≤ s.pos.clock - s.front.emitFrom) s
    (handSampled (sts.filterMap (sampledEdge s))
      ((sts.filter (dropsSample s)).foldl (fun s st => takeDueExpiries st s) (sampleAll s)))

/-! ### Covers -/

/-- Put the sensing of a cover. -/
def setCover (c : Cover) (x : CoverSense) (s : State) : State := { s with front.covers := s.front.covers.set c x }

/-- COVER_RAW_CHANGE (R30); a change that it drops is none of a declaration's moment any more (log 35). -/
def execCoverRawChange (c : Cover) (s : State) : Host.Outcome State Fault Refusal :=
  let x := s.front.covers[c]
  done (coverSettled c (setCover c { x with rawClosed := !x.rawClosed
                                            pending := linePending (!x.rawClosed) x.closed x.pending s.pos.clock } s))

/-- The qualified level of a cover takes its raw level (R30). -/
def acceptCover (c : Cover) (s : State) : State :=
  let x := s.front.covers[c]
  setCover c { x with closed := x.rawClosed, pending := none } s

/-- COVER_OPEN: of two covers that open at one moment the second joins the stop that the first declares (R31, R93;
log 35). -/
def execCoverOpen (c : Cover) (s : State) : Host.Outcome State Fault Refusal :=
  let s1 := coverSettled c (acceptCover c s)
  doneIf (coverHeld c false s) s (if openingMatters c s then takeCause (coverCause s1 c) s1 else s1)

/-- COVER_CLOSED: only the qualified level changes (R31). -/
def execCoverClosed (c : Cover) (s : State) : Host.Outcome State Fault Refusal :=
  doneIf (coverHeld c true s) s (acceptCover c s)

/-! ### Expiries -/

/-- LATE_EXPIRY (R75). -/
def execLateExpiry (st : Station) (s : State) : Host.Outcome State Fault Refusal :=
  doneIf (lateDue s st) s (takeLate st s)

/-- STUCK_EXPIRY (R76). -/
def execStuckExpiry (st : Station) (s : State) : Host.Outcome State Fault Refusal :=
  doneIf (stuckDue s st) s (takeStuck st s)

/-- The stall timer after its event: it waits, and one that a declaration has stopped stays so (R23, R92). -/
def StallTimer.afterEvent : StallTimer → StallTimer
  | .running _ => .waiting
  | .waiting => .waiting
  | .stopped => .stopped

/-- STALL: the timer waits after its event, and a STALL cause is raised, or joins the stop of its moment (R23, R92; log 35). -/
def execStall (s : State) : Host.Outcome State Fault Refusal :=
  doneIf (stallDue s) s
    (takeCause (stallCause s) { s with pos.stallTimer := s.pos.stallTimer.afterEvent, reached.stall := false })

end Sys2Proof.Machine
end

