-- ==== Sys2Proof/Machine/Startup.lean ====
section
/-! DEFINITION. POWER_ON_RESET, PIN_RESET and AUTOLOAD_END (R8, R17, R18, R152, R153). -/

namespace Sys2Proof.Machine

/-- Trace Capture at a power-on or pin reset: a SERVICE capture is carried through a pin reset (R193). -/
def captureAfterReset (cause : ResetCause) (c : Capture) : Capture :=
  if cause = .pin ∧ c.owner = .service then c else .initial

/-- A power-on or pin reset of the whole part (R152). The pins keep the levels they have outside; TRUN and cover levels are
qualified as they stand at the end of the reset (R24, R30); the loader begins afresh on the memory attached (R17; log 13); the STATE
event for STARTING is offered (R189), and the STATE notice is made when the part was in another state (R150; log 8). The
model's choices: the load result goes back to its initial value (log 7), a frame being sent is cut off (log 30), and a break
under way on the service line is forgotten (log 29). -/
def wholeReset (cause : ResetCause) (s : State) : State :=
  let cap := captureAfterReset cause s.cap
  let s1 : State :=
    { State.reset with
      pending := s.pending
      load := .start s.load.memory
      free := s.free
      pos := { PosCounter.initial with trunRaw := s.pos.trunRaw, trunQual := s.pos.trunRaw }
      front := { FrontEnd.initial with
        stations := tabulate fun i => { StationSense.initial with raw := (s.front.stations[i]).raw }
        covers := tabulate fun i =>
          { CoverSense.initial with rawClosed := (s.front.covers[i]).rawClosed, closed := (s.front.covers[i]).rawClosed } }
      sup := { State.reset.sup with resetCause := cause }
      svc := { ServicePort.initial with claim := cap.owner = .service }
      cap := cap }
  let s2 := offerEvent .state 0 none none PartState.starting.code s1
  if s.sup.state = .starting then s2 else makeNotice (.state .starting none) s2

/-- POWER_ON_RESET (R152). -/
def execPowerOnReset (s : State) : Host.Outcome State Fault Refusal := done (wholeReset .power s)

/-- PIN_RESET (R152): as at power-on, but a capture owned by SERVICE survives (R193). -/
def execPinReset (s : State) : Host.Outcome State Fault Refusal := done (wholeReset .pin s)

/-! ### The transfer from the serial memory (R17) -/

/-- MDO during bit `i` of the transfer: the read instruction 0x03 and the address 0x0000, high byte first (R17). That each byte
goes out most significant bit first is the model's choice, as R17 gives the bit order of MDI alone; so is the low level after
them (log 13). -/
def mdoLevel (i : Nat) : Bool := decide (i < 24) && (0x030000#24).getMsbD i

/-- MDI during data bit `i`: the bytes from address 0 on, most significant bit first; held high where no memory answers
(R17; log 13). -/
def mdiLevel (memory : List Byte) (i : Nat) : Bool := ((memory[i / 8]?).getD 0xFF).getMsbD (i % 8)

/-- A word is complete: it is read into the tables and its record applied, and MSEL is negated when the load has ended (R17,
R18, R25). -/
def takeWord (w : Word) (s : State) : State :=
  let x := loadWord (s.load.reading, s.tables) w
  let s1 := applyTables x.2 s
  { s1 with load.reading := x.1
            load.msel := !x.1.ended
            load.mclk := s.load.mclk && !x.1.ended }

/-- The rising edge of MCLK in data bit `i` samples MDI; each word is its high byte followed by its low byte (R17). -/
def sampleMdi (i : Nat) (s : State) : State :=
  let w : Word := (s.load.shift <<< 1) ||| (if mdiLevel s.load.memory i then 1 else 0)
  let s1 := { s with load.shift := w }
  if i % 16 = 15 then takeWord w s1 else s1

/-- One CLK period of the loader: a bit lasts the 24 periods of 1 MHz, with MCLK low in its first half (R17). -/
def loaderPeriod (s : State) : State :=
  if s.load.msel then
    let n := s.load.periods + 1
    let s1 := { s with load.periods := n, load.mclk := 12 ≤ n % 24, load.mdo := mdoLevel (n / 24) }
    if n % 24 = 12 ∧ 24 ≤ n / 24 then sampleMdi (n / 24 - 24) s1 else s1
  else s

/-- What time does to the part in one CLK period while no command waits (log 1). -/
def period (s : State) : State := loaderPeriod (tick s)

/-- The words that the loader has read are the first words of `image` (R17; log 13). -/
def agreesWithRead (image : List Word) (s : State) : Bool :=
  memoryWords s.load.memory s.load.reading.count = imageWords image s.load.reading.count

/-- The transfer comes to its end with the words of `image`: those not read yet are read now, with their records applied, and
MSEL is negated (R17, R18; log 13). No image is longer than 1,173 words. -/
def endTransfer (image : List Word) (s : State) : State :=
  let x := loadWords ((imageWords image 1173).drop s.load.reading.count) (s.load.reading, s.tables)
  let s1 := applyTables x.2 s
  { s1 with load := { s.load with msel := false, mclk := false, mdo := false, memory := image.flatMap wordBytes,
                                  reading := x.1 } }

/-- The end of autoload: the transfer, the tables and the load result, LINK START, and the next state by the outcome (R18,
R152, R153). -/
def endAutoload (image : List Word) (s : State) : State :=
  let s1 := endTransfer image s
  let s2 := queueControl .linkStart (applyTables (loadEnd s1.load.reading s1.tables) s1)
  if s2.tables.checked then idleOrForeign s2 else enterState .unconfigured s2

/-- AUTOLOAD_END (R18): autoload runs while the part is in STARTING, and ends with the words of `image`, of which it may have
read some in the CLK periods before (log 13). -/
def execAutoloadEnd (image : List Word) (s : State) : Host.Outcome State Fault Refusal :=
  doneIf (s.sup.state = .starting && agreesWithRead image s) s (endAutoload image s)

end Sys2Proof.Machine
end

