-- ==== Sys2Proof/Machine/Supervise.lean ====
section
/-! DEFINITION. STANDBY, WAKE, SPEED_READY, SPEED_WAIT_EXPIRY and RESET_PART (R156, R157, R161 to R164, R187). -/

namespace Sys2Proof.Machine

/-- What STANDBY answers (R163). -/
def goStandby (s : State) : Served :=
  if s.sup.state = .idle then
    (if (lowestQueued s).isSome then { state := s, status := .busy }
     else { state := enterState .standby s, status := .done })
  else { state := s, status := .state }

/-- STANDBY (R163). -/
def execStandby (port : MgmtPort) (s : State) : Host.Outcome State Fault Refusal :=
  serve port (· = 0x30) (exactly 0) (fun _ s => goStandby s) s

/-- What WAKE answers (R164). -/
def goWake (s : State) : Served :=
  if s.sup.state = .standby then { state := enterState .idle s, status := .done } else { state := s, status := .state }

/-- WAKE (R164). -/
def execWake (port : MgmtPort) (s : State) : Host.Outcome State Fault Refusal :=
  serve port (· = 0x31) (exactly 0) (fun _ s => goWake s) s

/-! ### Speed changes -/

/-- The class of the speed change under way that a SPEED READY names, if it names it (R161). -/
def readyClass (cls : Byte) (s : State) : Option SpeedClass :=
  if s.sup.state = .speedChange then
    match s.fwd.request with
    | some (c, _) => if byteOf c.val = cls then some c else none
    | none => none
  else none

/-- An accepted SPEED READY: the class, the timer, the request, and the state chosen as at replay (R161). -/
def speedReached (c : SpeedClass) (s : State) : State :=
  forwarderPass (enterChosen (dropSpeedChange { s with fwd.speed := c }))

/-- A SPEED READY that is read (R161). -/
def takeSpeedReady (cls : Byte) (s : State) : State :=
  match readyClass cls s with
  | some c => speedReached c s
  | none => makeNotice (.unexpectedReport 0x42 0xFF (cls.setWidth 16)) s

/-- SPEED_READY: passed upstream; read in every state but STARTING (R161, R172; log 22). -/
def execSpeedReady (payload : List Byte) (s : State) : Host.Outcome State Fault Refusal :=
  takeReport 0x42 payload
    (match payload with
      | [cls] => fun s => if s.sup.state = .starting then s else takeSpeedReady cls s
      | _ => makeLinkError .lower .format 0x42) s

/-- The speed wait has run out in SPEED CHANGE (R160, R162). -/
def speedWaitDue (s : State) : Bool :=
  match s.sup.speedWait with
  | some t => s.sup.state = .speedChange && t ≤ s.pos.clock
  | none => false

/-- SPEED_WAIT_EXPIRY: the HELD notice names the order of the request, and the part enters HELD with reason SPEED (R162). -/
def execSpeedWaitExpiry (s : State) : Host.Outcome State Fault Refusal :=
  match s.fwd.request with
  | some (_, n) => doneIf (speedWaitDue s) s (enterHeld .speed n (dropSpeedChange s))
  | none => .next s

/-! ### The link reset -/

/-- A capture owned by CONTROLLER becomes FREE, empty and DISARMED at a link reset (R193). -/
def captureAfterLinkReset (c : Capture) : Capture :=
  if c.owner = .controller then { c with owner := .free, state := .disarmed, post := none, buffer := [] } else c

/-- The FORWARDED ORDER frame being sent is no longer an entry's frame (log 28). -/
def orphanFrame : Option LowerFrame → Option LowerFrame
  | some (.forwardedOrder f) => some (.forwardedOrder { f with live := false })
  | other => other

/-- The job state discarded by a link reset (R156); with it goes what a declaration left to be taken (log 35). A CONTROLLER capture is
freed here, ahead of the events that the state chosen afterwards offers, which it does not record: R156 takes all of it together, and
this order is the model's choice (log 19). -/
def discardJob (s : State) : State :=
  { s with ret := .empty
           trk := .empty
           sets := .empty
           jam := .empty
           plan.plan := none
           fwd.request := none
           sup := { s.sup with resetCause := .link, heldReason := none, speedWait := none, purge := none }
           reached := .nothing
           link.forwarded := []
           link.lowerTx := orphanFrame s.link.lowerTx
           cap := captureAfterLinkReset s.cap }

/-- The path-lost stop: PATH LOST alone in the cause list, its JAM notice, STOPPING and a settle watch started afresh
(R95). -/
def pathLostStop (s : State) : State :=
  let c := pathLostCause s
  let s1 := enterState .stopping (announceCause .declared 1 c (startCauses c s))
  { s1 with pos.settleFrom := some s1.pos.clock }

/-- The state a link reset leads to; `tracked` says whether the tracking table held a record (R157). -/
def afterLinkReset (tracked : Bool) (s : State) : State :=
  if !s.tables.checked then enterState .unconfigured s
  else if tracked then pathLostStop s
  else idleOrForeign s

/-- The link reset (R156, R157): the job state is discarded, a HALT is requested, the open CREDIT is made, and the state is
chosen. -/
def linkReset (s : State) : State :=
  afterLinkReset (!trackingEmpty s) (syncStall false (makeCredit (requestHalt (discardJob s))))

/-- What RESET PART answers (R187). -/
def resetPart (port : MgmtPort) (s : State) : Served :=
  match port with
  | .service => { state := s, status := .state }
  | .upper =>
    let s1 := linkReset s
    { state := s1, status := .done, results := [s1.sup.state.code] }

/-- RESET_PART (R187). -/
def execResetPart (port : MgmtPort) (s : State) : Host.Outcome State Fault Refusal :=
  serve port (· = 0x50) (exactly 0) (fun _ s => resetPart port s) s

end Sys2Proof.Machine
end

