-- ==== Sys2Proof/Machine/TraceCommands.lean ====
section
/-! DEFINITION. The capture commands (R184, R188, R190 to R192). -/

namespace Sys2Proof.Machine

/-- The requester of a capture command (R184). -/
def requester : MgmtPort → Owner
  | .upper => .controller
  | .service => .service

/-- A change of owner: the buffer is emptied, the capture is DISARMED, and the service claim flag follows the owner (R188,
R191). -/
def setOwner (o : Owner) (s : State) : State :=
  { s with cap := { s.cap with owner := o, state := .disarmed, post := none, buffer := [] }
           svc.claim := o = .service }

/-- The reply to a CLAIM carried out: the owner after the command (R191). -/
def claimed (s : State) : Served := { state := s, status := .done, results := [s.cap.owner.code] }

/-- CLAIM by owner and force (R191). -/
def claimCapture (port : MgmtPort) (force : Byte) (s : State) : Served :=
  if 1 < force.toNat || (force = 1 && port = .upper) then { state := s, status := .range }
  else if s.cap.owner = requester port then claimed s
  else if s.cap.owner = .free then claimed (setOwner (requester port) s)
  else if force = 1 then claimed (makeNotice .captureLost (setOwner (requester port) s))
  else { state := s, status := .owned }

/-- CLAIM_CAPTURE (R191). -/
def execClaimCapture (port : MgmtPort) (s : State) : Host.Outcome State Fault Refusal :=
  serve port (· = 0x40) (exactly 1) (fun args s => claimCapture port (args.getD 0 0) s) s

/-- RELEASE from the owner frees the capture (R191). -/
def releaseCapture (port : MgmtPort) (s : State) : Served :=
  if s.cap.owner = requester port then { state := setOwner .free s, status := .done }
  else { state := s, status := .notOwner }

/-- RELEASE_CAPTURE (R191). -/
def execReleaseCapture (port : MgmtPort) (s : State) : Host.Outcome State Fault Refusal :=
  serve port (· = 0x41) (exactly 0) (fun _ s => releaseCapture port s) s

/-- The event mask of two bytes; only the ten kinds count (R190; log 18). -/
def maskOf (hi lo : Byte) : EventMask := (wordOf hi lo).setWidth 10

/-- The capture as an ARM leaves it (R190). -/
def armed (mode : CaptureMode) (mask : EventMask) (c : Capture) : Capture :=
  { c with state := .running, mode := mode, mask := mask, post := none, buffer := [] }

/-- ARM from the owner, with its six argument bytes (R190). -/
def armCapture (port : MgmtPort) (args : List Byte) (s : State) : Served :=
  if s.cap.owner = requester port then
    match args with
    | [mode, c1, c0, kind, m1, m0] =>
      match armOf mode.toNat (wordOf c1 c0).toNat kind (maskOf m1 m0) with
      | some m => { state := { s with cap := armed m (maskOf m1 m0) s.cap }, status := .done }
      | none => { state := s, status := .range }
    | _ => { state := s, status := .range }
  else { state := s, status := .notOwner }

/-- ARM_CAPTURE (R190). -/
def execArmCapture (port : MgmtPort) (s : State) : Host.Outcome State Fault Refusal :=
  serve port (· = 0x42) (exactly 6) (armCapture port) s

/-- Records of the buffer (R192). -/
def recordsBytes (rs : List TraceRec) : List Byte := rs.flatMap captureRecordBytes

/-- READ from the owner: BUSY while RUNNING, RANGE beyond the records, else up to four records (R192). -/
def readCapture (port : MgmtPort) (start : Word) (s : State) : Served :=
  let buffer := s.cap.buffer
  if s.cap.owner ≠ requester port then { state := s, status := .notOwner }
  else if s.cap.state = .running then { state := s, status := .busy }
  else if buffer.length ≤ start.toNat && !(buffer.isEmpty && start = 0) then { state := s, status := .range }
  else
    let records := (buffer.drop start.toNat).take 4
    { state := s, status := .done,
      results := wordBytes (BitVec.ofNat 16 buffer.length) ++ wordBytes start ++ byteOf records.length ::
        recordsBytes records }

/-- READ_CAPTURE (R192). -/
def execReadCapture (port : MgmtPort) (s : State) : Host.Outcome State Fault Refusal :=
  serve port (· = 0x43) (exactly 2) (fun args s => readCapture port (wordArg args) s) s

end Sys2Proof.Machine
end

