-- ==== Sys2Proof/Machine/Transmit.lean ====
section
/-! DEFINITION. The completions of sending (R45, R46, R143, R160, R171, R173, R174, R176). A completion happens only while a
frame of its kind is being sent (log 2). -/

namespace Sys2Proof.Machine

/-- The lower transmitter becomes idle. -/
def lowerIdle (s : State) : State := { s with link.lowerTx := none }

/-- Whether a HALT waits and has not started (R86). -/
def haltWaits (s : State) : Bool := s.link.pathControl.contains .halt

/-- The window-hold flag is cleared, unless a requested HALT still waits (R46, R86; log 9). -/
def releaseWindowHold (s : State) : State := if haltWaits s then s else { s with fwd.windowHold := false }

/-- LINK_START_SENT: the window-hold flag is cleared, the CREDIT frame is made with the current content, and the lower
arbiter may grant its other sources (R42, R45, R173). -/
def execLinkStartSent (s : State) : Host.Outcome State Fault Refusal :=
  doneIf (s.link.lowerTx = some (.pathControl .linkStart)) s
    (let s1 := lowerIdle s
     makeCredit (releaseWindowHold { s1 with link.linkStarted := true }))

/-- HALT_SENT: the last requested HALT clears the window-hold flag (R46, R86). -/
def execHaltSent (s : State) : Host.Outcome State Fault Refusal :=
  doneIf (s.link.lowerTx = some (.pathControl .halt)) s (releaseWindowHold (lowerIdle s))

/-- The set-confirm timer of a VOIDED record starts (R143). -/
def startVoidTimer (n : SetName) (s : State) : State :=
  updateSet n (fun r => if r.state = .voided then { r with deadline := some (confirmDeadline s) } else r) s

/-- SET_VOID_SENT: the timer of the record named starts, from each sending afresh (R143). -/
def execSetVoidSent (s : State) : Host.Outcome State Fault Refusal :=
  match s.link.lowerTx with
  | some (.pathControl (.setVoid n)) => done (startVoidTimer n (lowerIdle s))
  | _ => .next s

/-- Whether a SPEED CHANGE frame waits. -/
def speedChangeWaits (s : State) : Bool :=
  s.link.pathControl.any fun f => match f with
    | .speedChange _ => true
    | _ => false

/-- The speed-wait timer starts in SPEED CHANGE, for the frame of the change under way (R160). -/
def startSpeedWait (s : State) : State :=
  if s.sup.state = .speedChange && !speedChangeWaits s then
    { s with sup.speedWait := some (s.pos.clock + s.tables.limits.speedWait * (100 * clkMs)) }
  else s

/-- SPEED_CHANGE_SENT: the speed-wait timer starts (R160). -/
def execSpeedChangeSent (s : State) : Host.Outcome State Fault Refusal :=
  match s.link.lowerTx with
  | some (.pathControl (.speedChange _)) => done (startSpeedWait (lowerIdle s))
  | _ => .next s

/-- FORWARDED_ORDER_SENT: the entry's first forwarding has been sent, and barriers are tested again (R171). -/
def execForwardedOrderSent (s : State) : Host.Outcome State Fault Refusal :=
  match s.link.lowerTx with
  | some (.forwardedOrder f) =>
    done (let s1 := lowerIdle s
          if f.live then updateEntry f.entry.order (fun e => { e with firstSent := true }) s1 else s1)
  | _ => .next s

/-- The frames of the lower port that have no completion row of their own: RUN, PURGE RUN and commands. -/
def isOtherLower : LowerFrame → Bool
  | .command _ => true
  | .pathControl .run => true
  | .pathControl (.purgeRun _ _ _) => true
  | .pathControl .linkStart => false
  | .pathControl .halt => false
  | .pathControl (.speedChange _) => false
  | .pathControl (.setVoid _) => false
  | .forwardedOrder _ => false

/-- LOWER_FRAME_SENT: the arbiter grants the next waiting source (R173). -/
def execLowerFrameSent (s : State) : Host.Outcome State Fault Refusal :=
  match s.link.lowerTx with
  | some f => doneIf (isOtherLower f) s (lowerIdle s)
  | none => .next s

/-- UPPER_FRAME_SENT: the arbiter grants the next waiting source (R174). -/
def execUpperFrameSent (s : State) : Host.Outcome State Fault Refusal :=
  doneIf s.link.upperTx.isSome s { s with link.upperTx := none }

/-- SERVICE_FRAME_SENT: the service transmitter grants the next frame (R176). -/
def execServiceFrameSent (s : State) : Host.Outcome State Fault Refusal :=
  doneIf s.svc.tx.isSome s { s with svc.tx := none }

end Sys2Proof.Machine
end

