-- ==== Sys2Proof/Machine/Dispatch.lean ====
section
/-! DEFINITION. The meaning of every command: one arm for each constructor of Instr, each one direct call. -/

namespace Sys2Proof.Machine

/-- What a command does to the part. -/
def exec (i : Instr) (s : State) : Host.Outcome State Fault Refusal :=
  match i with
  | .powerOnReset => Sys2Proof.Machine.execPowerOnReset s
  | .pinReset => Sys2Proof.Machine.execPinReset s
  | .autoloadEnd image => Sys2Proof.Machine.execAutoloadEnd image s
  | .linkStartSent => Sys2Proof.Machine.execLinkStartSent s
  | .haltSent => Sys2Proof.Machine.execHaltSent s
  | .setVoidSent => Sys2Proof.Machine.execSetVoidSent s
  | .speedChangeSent => Sys2Proof.Machine.execSpeedChangeSent s
  | .forwardedOrderSent => Sys2Proof.Machine.execForwardedOrderSent s
  | .lowerFrameSent => Sys2Proof.Machine.execLowerFrameSent s
  | .upperFrameSent => Sys2Proof.Machine.execUpperFrameSent s
  | .serviceFrameSent => Sys2Proof.Machine.execServiceFrameSent s
  | .frameDiscard port chars => Sys2Proof.Machine.execFrameDiscard port chars s
  | .gap port => Sys2Proof.Machine.execGap port s
  | .order payload => Sys2Proof.Machine.execOrder payload s
  | .engineCommand kind payload => Sys2Proof.Machine.execEngineCommand kind payload s
  | .barrierCommand payload => Sys2Proof.Machine.execBarrierCommand payload s
  | .manage port payload => Sys2Proof.Machine.execManage port payload s
  | .unknownCommand port => Sys2Proof.Machine.execUnknownCommand port s
  | .identify port => Sys2Proof.Machine.execIdentify port s
  | .readState port => Sys2Proof.Machine.execReadState port s
  | .writeStation port => Sys2Proof.Machine.execWriteStation port s
  | .writeZone port => Sys2Proof.Machine.execWriteZone port s
  | .writeBin port => Sys2Proof.Machine.execWriteBin port s
  | .writeRoute port => Sys2Proof.Machine.execWriteRoute port s
  | .writeLimits port => Sys2Proof.Machine.execWriteLimits port s
  | .readTable port => Sys2Proof.Machine.execReadTable port s
  | .checkTables port => Sys2Proof.Machine.execCheckTables port s
  | .readOrder port => Sys2Proof.Machine.execReadOrder port s
  | .readPlan port => Sys2Proof.Machine.execReadPlan port s
  | .resume port => Sys2Proof.Machine.execResume port s
  | .skipOrder port => Sys2Proof.Machine.execSkipOrder port s
  | .cancelJob port => Sys2Proof.Machine.execCancelJob port s
  | .standby port => Sys2Proof.Machine.execStandby port s
  | .wake port => Sys2Proof.Machine.execWake port s
  | .claimCapture port => Sys2Proof.Machine.execClaimCapture port s
  | .releaseCapture port => Sys2Proof.Machine.execReleaseCapture port s
  | .armCapture port => Sys2Proof.Machine.execArmCapture port s
  | .readCapture port => Sys2Proof.Machine.execReadCapture port s
  | .resetPart port => Sys2Proof.Machine.execResetPart port s
  | .serviceManageDiscard kind payload => Sys2Proof.Machine.execServiceManageDiscard kind payload s
  | .serviceReset => Sys2Proof.Machine.execServiceReset s
  | .pick payload => Sys2Proof.Machine.execPick payload s
  | .speedReady payload => Sys2Proof.Machine.execSpeedReady payload s
  | .setDone payload => Sys2Proof.Machine.execSetDone payload s
  | .setFault payload => Sys2Proof.Machine.execSetFault payload s
  | .setCleared payload => Sys2Proof.Machine.execSetCleared payload s
  | .engineCredit payload => Sys2Proof.Machine.execEngineCredit payload s
  | .engineReport kind payload => Sys2Proof.Machine.execEngineReport kind payload s
  | .encoderPulse => Sys2Proof.Machine.execEncoderPulse s
  | .trunRawChange => Sys2Proof.Machine.execTrunRawChange s
  | .trunQualified => Sys2Proof.Machine.execTrunQualified s
  | .stationRawChange st => Sys2Proof.Machine.execStationRawChange st s
  | .onEdge st => Sys2Proof.Machine.execOnEdge st s
  | .offEdge st => Sys2Proof.Machine.execOffEdge st s
  | .emitPulse => Sys2Proof.Machine.execEmitPulse s
  | .standbySample order => Sys2Proof.Machine.execStandbySample order s
  | .coverRawChange c => Sys2Proof.Machine.execCoverRawChange c s
  | .coverOpen c => Sys2Proof.Machine.execCoverOpen c s
  | .coverClosed c => Sys2Proof.Machine.execCoverClosed c s
  | .lateExpiry st => Sys2Proof.Machine.execLateExpiry st s
  | .stuckExpiry st => Sys2Proof.Machine.execStuckExpiry st s
  | .stall => Sys2Proof.Machine.execStall s
  | .settle => Sys2Proof.Machine.execSettle s
  | .setConfirmExpiry bin set => Sys2Proof.Machine.execSetConfirmExpiry bin set s
  | .speedWaitExpiry => Sys2Proof.Machine.execSpeedWaitExpiry s
  | .serviceLineReturnsHigh => Sys2Proof.Machine.execServiceLineReturnsHigh s

end Sys2Proof.Machine
end

