-- ==== Sys2Proof/Safety.lean ====
section
/-! DEFINITION. What the statements about the part speak of: the invariants of State, the frames and notices a port still
owes, the part after a reset, and the requests that wait to be served. -/

namespace Sys2Proof.Machine

/-! ### Invariants -/

/-- The Supervisor's items agree with the part state: PATH HALT (R151), the held reason (R135), the purge state (R126), the
settle watch, which runs in STOPPING (R22), and the reports of a declaration's moment, which join it there alone (R84; log 35). -/
def SupervisorInv (s : State) : Prop :=
  s.sup.pathHalt = haltAsserted s.sup.state ∧
  (s.sup.heldReason.isSome = true ↔ s.sup.state = .held) ∧
  (s.sup.purge.isSome = true ↔ s.sup.state = .purging) ∧
  (s.pos.settleFrom.isSome = true ↔ s.sup.state = .stopping) ∧
  (s.sup.state ≠ .stopping → s.reached = .nothing)

/-- The capture can still take a record, in COUNT mode, without passing its limit (R190). -/
def CountWithin (c : Capture) : Prop :=
  match c.mode with
  | .count n => n ≤ 512 ∧ (c.state = .running → c.buffer.length < n)
  | .trigger _ _ => True

/-- The capture: a FREE one is DISARMED with an empty buffer, the buffer holds at most 512 records, and the service claim
flag is set while SERVICE owns it (R188). -/
def CaptureInv (s : State) : Prop :=
  s.svc.claim = decide (s.cap.owner = .service) ∧
  (s.cap.owner = .free → s.cap.state = .disarmed ∧ s.cap.buffer = []) ∧
  s.cap.buffer.length ≤ 512 ∧
  CountWithin s.cap

/-- `n` consecutive order numbers from `h` on, modulo 65,536 (R35). -/
def numbersFrom (h : OrderNo) : Nat → List OrderNo
  | 0 => []
  | n + 1 => h :: numbersFrom (h + 1) n

/-- The Retention Queue holds at most 32 entries, with the consecutive numbers from H up to one below the expected next
number (R35), and at most 8 of them are FORWARDED (R43). -/
def RetentionInv (s : State) : Prop :=
  s.ret.entries.length ≤ 32 ∧
  (match s.ret.expected with
    | none => s.ret.entries = []
    | some e => s.ret.entries.map (·.order) =
        numbersFrom (e - BitVec.ofNat 16 s.ret.entries.length) s.ret.entries.length) ∧
  forwardedCount s ≤ 8

/-- An undefined station is uncovered with nothing pending (R25); EMIT is held asserted outside STANDBY (R28). -/
def SensingInv (s : State) : Prop :=
  (∀ st : Station, (s.tables.stations[st]).defined = false →
    (s.front.stations[st]).qual = false ∧ (s.front.stations[st]).pending = none) ∧
  (s.sup.state ≠ .standby → s.front.emit = true)

/-- The limits of the link's queues (R170, R172, R174, R176, R178), at most one waiting HALT (R86), and a reply slot that is
filled only for a request already served (R176). -/
def LinkInv (s : State) : Prop :=
  s.link.commands.length ≤ 16 ∧ s.link.holding.length ≤ 4 ∧ s.link.reports.length ≤ 32 ∧ s.link.replies.length ≤ 4 ∧
  s.link.notices.length ≤ 48 ∧ s.link.lossCount ≤ 255 ∧ s.svc.notices.length ≤ 8 ∧
  s.link.pathControl.count .halt ≤ 1 ∧
  (s.svc.reply.isSome = true → ∃ h, s.svc.held = some h ∧ h.served = true)

/-- The limits of what the part holds beside the link: expectation lists (R60, R66), the cause list (R90), the deferred list
(R96) and set records, no two of them of the same set (R139); and the held plan record, which carries the number the plan counter
holds, never 0 (R101). -/
def HoldingInv (s : State) : Prop :=
  (∀ st : Station, (s.trk.lists[st]).length ≤ 8) ∧ s.jam.causes.length ≤ 4 ∧ s.jam.deferred.length ≤ 8 ∧
  s.sets.records.length ≤ 8 ∧ (s.sets.records.map (·.name)).Nodup ∧
  ∀ p, s.plan.plan = some p → p.number = s.plan.counter ∧ p.number ≠ 0

/-- No transmitter is idle while a source it may grant has a frame waiting, and no barrier's mark holds an order that already
satisfies it (R171, R173, R174, R176). -/
def Granted (s : State) : Prop :=
  (s.link.lowerTx = none → s.link.pathControl = [] ∧
    (s.link.linkStarted = true → takeReady false s.link.commands = none ∧ s.link.forwarded = [])) ∧
  (s.link.upperTx = none → s.link.credit = none ∧ s.link.replies = [] ∧ s.link.notices = [] ∧ s.link.reports = []) ∧
  (s.svc.tx = none → s.svc.reply = none ∧ s.svc.notices = []) ∧
  (∀ c ∈ s.link.commands, ∀ m, c.mark = some m → ∀ n ∈ m, satisfiesBarrier s.ret.entries n = false)

/-! ### The receivers -/

/-- Characters into a receiver up to the first end of a frame, good or bad (R167). -/
def rxChars (now : Nat) : List RxChar → Receiver → Receiver × RxEvent
  | [], r => (r, .going)
  | c :: cs, r =>
    match rxChar now c r with
    | (r', .going) => rxChars now cs r'
    | out => out

/-! ### What a port still owes -/

/-- The notices of the upper port that have not been sent whole, oldest first. -/
def noticesHeld (s : State) : List Notice :=
  (match s.link.upperTx with
    | some (.notice n) => [n]
    | _ => []) ++ s.link.notices

/-- The replies of a port that have not been sent whole, oldest first. -/
def repliesHeld (port : MgmtPort) (s : State) : List Reply :=
  match port with
  | .upper =>
    (match s.link.upperTx with
      | some (.reply r) => [r]
      | _ => []) ++ s.link.replies
  | .service =>
    (match s.svc.tx with
      | some (.reply r) => [r]
      | _ => []) ++ s.svc.reply.toList

/-- The PATH CONTROL frames that have not been sent whole, in the order of their sending. -/
def controlHeld (s : State) : List PathControl :=
  (match s.link.lowerTx with
    | some (.pathControl f) => [f]
    | _ => []) ++ s.link.pathControl

/-- The frames of the engine that have not been sent whole on the upper port, oldest first (R172). -/
def reportsHeld (s : State) : List RawFrame :=
  (match s.link.upperTx with
    | some (.report f) => [f]
    | _ => []) ++ s.link.reports

/-- The content of the CREDIT frame that is newest on its way: the waiting one, else the one being sent (R42). -/
def creditHeld (s : State) : Option CreditContent :=
  match s.link.credit with
  | some c => some c
  | none =>
    match s.link.upperTx with
    | some (.credit c) => some c
    | _ => none

/-! ### The path image -/

/-- What autoload makes of an image: its words are read into the emptied tables, at most the 1,173 of the largest image
(R18). -/
def loadImage (image : List Word) : Tables :=
  let x := loadWords (imageWords image 1173) (.start, .empty)
  loadEnd x.1 x.2

/-- `n` CLK periods of the loader. -/
def loaderPeriods : Nat → State → State
  | 0, s => s
  | n + 1, s => loaderPeriods n (loaderPeriod s)

/-- The word of a station record (R18). -/
def stationImage (r : StationRec) : Word :=
  if r.defined then 0x8000 ||| BitVec.ofNat 16 (r.zone.val * 256 + r.qualify) else 0

/-- The word of a zone record; cover 7 stands for none (R18). -/
def zoneImage (r : ZoneRec) : Word :=
  if r.defined then
    0x8000 ||| (if r.purgeable then 0x4000 else 0) ||| (match r.cover with
      | some c => BitVec.ofNat 16 c.val
      | none => 7)
  else 0

/-- The word of a bin record (R18). -/
def binImage (r : BinRec) : Word :=
  if r.defined then 0x8000 ||| (if r.kind = .set then 0x4000 else 0) ||| BitVec.ofNat 16 r.zone.val else 0

/-- The two words of a visit (R18). -/
def visitImage (v : Visit) : List Word :=
  [BitVec.ofNat 16 (v.station.val * 4096 + v.anchor.number * 256 + (if v.check then 1 else 0)), v.distance]

/-- The words A, B and C of a listed route, and the words of its visits (R18). -/
def routeImage (i : RouteIx) (r : RouteRec) : List Word :=
  [BitVec.ofNat 16 (i.val * 256 + r.visits.length), BitVec.ofNat 16 (r.bin.val * 256 + r.completeAfter.val),
   match r.divert with
    | some dv => 0x8000 ||| BitVec.ofNat 16 (dv.w.val * 256 + dv.d.val)
    | none => 0] ++ r.visits.flatMap visitImage

/-- The defined routes. -/
def listedRoutes (t : Tables) : List RouteIx := (List.finRange 32).filter fun i : RouteIx => (t.routes[i]).defined

/-- The image of tables in the layout of R18: signature, length, limits, stations, zones, bins, and the defined routes. -/
def imageOf (t : Tables) : List Word :=
  let records := (limitsValues t.limits).map (BitVec.ofNat 16) ++ t.stations.toList.map stationImage ++
    t.zones.toList.map zoneImage ++ t.bins.toList.map binImage ++ BitVec.ofNat 16 (listedRoutes t).length ::
    (listedRoutes t).flatMap fun i => routeImage i t.routes[i]
  0x4D53 :: BitVec.ofNat 16 (records.length + 2) :: records

/-- Tables that WRITE commands and images can leave: every value in the range that R7 and R10 give it, undefined records with
the empty values of R1, R2, R4 and R5, and the guarded sets that follow from the zones (R3). -/
def Storable (t : Tables) : Prop :=
  limitsOf (limitsValues t.limits) = some t.limits ∧
  (∀ st : Station, if (t.stations[st]).defined then 1 ≤ (t.stations[st]).qualify ∧ (t.stations[st]).qualify ≤ 255
    else t.stations[st] = .undefined) ∧
  (∀ z : Zone, (t.zones[z]).defined = false → t.zones[z] = .undefined) ∧
  (∀ b : Bin, (t.bins[b]).defined = false → t.bins[b] = .undefined) ∧
  (∀ r : RouteIx, if (t.routes[r]).defined then 1 ≤ (t.routes[r]).visits.length ∧ (t.routes[r]).visits.length ≤ 16
    else t.routes[r] = .undefined) ∧
  t.guarded = guardedSets t.zones

/-! ### Resets -/

/-- The part after a power-on or pin reset (R152): every block at its reset value, the transfer begun afresh on the memory
attached, with MSEL asserted (R17), the pins at the levels they have outside, TRUN and the covers qualified as
they stand (R24, R30). No frame that was being sent goes on: the upper port sends the STATE notice, if there is one, and no other
notice waits (10.8; log 8, log 30). -/
def Restarted (s t : State) : Prop :=
  t.pending = s.pending ∧ t.tables = .empty ∧ t.load = .start s.load.memory ∧ t.load.msel = true ∧
  t.pos = { PosCounter.initial with trunRaw := s.pos.trunRaw, trunQual := s.pos.trunRaw } ∧
  (∀ st : Station, t.front.stations[st] =
    { raw := (s.front.stations[st]).raw, qual := false, pending := none, sample := none }) ∧
  (∀ c : Cover, t.front.covers[c] =
    { rawClosed := (s.front.covers[c]).rawClosed, closed := (s.front.covers[c]).rawClosed, pending := none }) ∧
  t.front.emit = true ∧ t.ret = .empty ∧ t.fwd = .initial ∧ t.trk = .empty ∧ t.jam = .empty ∧
  t.plan = { plan := none, counter := 0 } ∧ t.sets = .empty ∧ t.sup.state = .starting ∧ t.sup.pathHalt = true ∧
  t.sup.heldReason = none ∧ t.sup.speedWait = none ∧ t.sup.purge = none ∧
  t.link.rxUpper = .hunting ∧ t.link.rxLower = .hunting ∧ t.link.commands = [] ∧ t.link.holding = [] ∧
  t.link.reports = [] ∧ t.link.pathControl = [] ∧ t.link.forwarded = [] ∧ t.link.linkStarted = false ∧
  t.link.lowerTx = none ∧ t.link.credit = none ∧ t.link.replies = [] ∧ t.link.notices = [] ∧
  t.link.upperTx = (if s.sup.state = .starting then none else some (.notice (.state .starting none))) ∧
  t.link.lossCount = 0 ∧ t.reached = .nothing ∧ t.svc.rx = .hunting ∧ t.svc.highAt = 0 ∧ t.svc.held = none ∧
  t.svc.reply = none ∧ t.svc.notices = [] ∧ t.svc.claim = decide (t.cap.owner = .service) ∧ t.free = s.free

/-! ### Requests -/

/-- The end of the service of a request: its reply with tag, status and results joins the port of the request, after the
effects that `s` holds (R178). -/
def answered (port : MgmtPort) (q : Request) (status : Status) (results : List Byte) (s : State) : State :=
  finish (putReply port { tag := q.tag, status := status, results := results } s)

/-- The rows that serve a request: the port, the command codes of the row, and the argument lengths it admits (R181). -/
def servedRow : Instr → Option (MgmtPort × (Byte → Bool) × (List Byte → Bool))
  | .unknownCommand port => some (port, fun c => !knownCodes.contains c, fun _ => true)
  | .identify port => some (port, (· = 0x01), exactly 0)
  | .readState port => some (port, (· = 0x02), exactly 0)
  | .writeStation port => some (port, (· = 0x10), writeLengthOk 4)
  | .writeZone port => some (port, (· = 0x11), writeLengthOk 4)
  | .writeBin port => some (port, (· = 0x12), writeLengthOk 4)
  | .writeRoute port => some (port, (· = 0x13), routeLengthOk)
  | .writeLimits port => some (port, (· = 0x14), exactly 28)
  | .readTable port => some (port, (· = 0x15), exactly 2)
  | .checkTables port => some (port, (· = 0x16), exactly 0)
  | .readOrder port => some (port, (· = 0x20), exactly 2)
  | .readPlan port => some (port, (· = 0x21), exactly 2)
  | .resume port => some (port, (· = 0x22), exactly 1)
  | .skipOrder port => some (port, (· = 0x23), exactly 2)
  | .cancelJob port => some (port, (· = 0x24), exactly 2)
  | .standby port => some (port, (· = 0x30), exactly 0)
  | .wake port => some (port, (· = 0x31), exactly 0)
  | .claimCapture port => some (port, (· = 0x40), exactly 1)
  | .releaseCapture port => some (port, (· = 0x41), exactly 0)
  | .armCapture port => some (port, (· = 0x42), exactly 6)
  | .readCapture port => some (port, (· = 0x43), exactly 2)
  | .resetPart port => some (port, (· = 0x50), exactly 0)
  | _ => none

/-- The request next to be served on a port has this code and these arguments, and the part serves commands, as it does in
every state but STARTING (R178). -/
def Awaits (port : MgmtPort) (q : Request) (code : Byte) (args : List Byte) (s : State) : Prop :=
  nextRequest port s = some q ∧ q.code = code ∧ q.args = args ∧ s.sup.state ≠ .starting

end Sys2Proof.Machine
end

