-- ==== Sys2Proof/Certificates/Slice0/Obligations.lean ====
section
/-! DEFINITION. The statements about the part. A statement that says `exec c s = .next t` says that the command completes, and
`t` is written as `s` with what changes, so that it also says what stays. `finish` is the end of every command: the barriers
are tested and each idle transmitter is granted a frame (log 4). -/

open Sys2Proof Sys2Proof.Machine

/-! ### The machine -/

/-- A step takes the front command of the queue; while no command waits it is one CLK period, 24,000 of which are the
millisecond of R21, and the loader's share of it, which is nothing once MSEL is negated (R17). That a step on an empty queue is a CLK
period is the model's choice (log 1, log 13). -/
def Obligations.StepTakesTheFrontCommand : Prop :=
  (∀ (c : Instr) (rest : List Instr) (s : State), s.pending = c :: rest → step s = exec c { s with pending := rest }) ∧
  (∀ s : State, s.pending = [] →
     step s = .next (loaderPeriod { s with
       pos.clock := s.pos.clock + 1
       pos.msCount := if (s.pos.clock + 1) % 24000 = 0 then s.pos.msCount + 1 else s.pos.msCount })) ∧
  (∀ s : State, s.load.msel = false → loaderPeriod s = s)

/-- Every command has a next state in every state, and leaves the queue of commands to the step. -/
def Obligations.EveryCommandAnswersANextState : Prop :=
  ∀ (c : Instr) (s : State), ∃ t, exec c s = .next t ∧ t.pending = s.pending

/-- The values the spec gives for power-on reset (R8, R17, R19, R21 to R23, R28, R45, R56, R80, R99, R119, R126, R135, R149, R152,
R154, R158, R160, R167, R188 and the table of 10.8), in every block. The model's own among them: that TRUN and the stations are
low and the covers closed at the pins (log 6), MCLK and MDO low (log 13), and the moments 0 of a receiver's last
character (log 25) and of the service line's last high level (log 29). -/
def Obligations.ResetHoldsTheSpecsValues : Prop :=
  State.reset.sup = { state := .starting, pathHalt := true, resetCause := .power, heldReason := none, speedWait := none,
                      purge := none } ∧
  (∀ st : Station, State.reset.tables.stations[st] = { defined := false, zone := 0, qualify := 20 }) ∧
  (∀ z : Zone, State.reset.tables.zones[z] = { defined := false, purgeable := false, cover := none }) ∧
  (∀ c : Cover, State.reset.tables.guarded[c] = 0) ∧
  (∀ b : Bin, State.reset.tables.bins[b] = { defined := false, kind := .stack, zone := 0 }) ∧
  (∀ r : RouteIx, (State.reset.tables.routes[r]).defined = false ∧ (State.reset.tables.routes[r]).visits = []) ∧
  limitsValues State.reset.tables.limits = [40, 60, 30, 50, 20, 25, 10, 200, 30, 50, 80, 50, 50, 3] ∧
  State.reset.tables.checked = false ∧ State.reset.load.msel = true ∧ State.reset.load.mclk = false ∧
  State.reset.load.mdo = false ∧ State.reset.load.periods = 0 ∧ State.reset.load.reading.count = 0 ∧
  State.reset.pos = { clock := 0, p := 0, lastPulse := 0, msCount := 0, settleFrom := none, stallTimer := .stopped,
                      trunRaw := false, trunQual := false, trunPending := none } ∧
  State.reset.front.emit = true ∧
  (∀ st : Station, State.reset.front.stations[st] = { raw := false, qual := false, pending := none, sample := none }) ∧
  (∀ c : Cover, State.reset.front.covers[c] = { rawClosed := true, closed := true, pending := none }) ∧
  State.reset.ret = { entries := [], expected := none, receiving := none } ∧
  State.reset.fwd = { f := 0, limit := 0, windowHold := true, speed := 0, request := none } ∧
  (∀ tag : Tag, State.reset.trk.table[tag] = none) ∧
  (∀ st : Station, State.reset.trk.lists[st] = [] ∧ State.reset.trk.slots[st] = none) ∧
  State.reset.trk.notedP = none ∧ State.reset.jam = { causes := [], more := false, deferred := [] } ∧
  State.reset.plan = { plan := none, counter := 0 } ∧ State.reset.sets = { records := [], voidOrder := [] } ∧
  State.reset.link = { rxUpper := { mode := .hunting, bytes := [], lastChar := 0 }
                       rxLower := { mode := .hunting, bytes := [], lastChar := 0 }
                       commands := [], holding := [], reports := [], pathControl := [], forwarded := []
                       linkStarted := false, lowerTx := none, credit := none, replies := [], notices := []
                       lossCount := 0, upperTx := none } ∧
  State.reset.svc = { rx := { mode := .hunting, bytes := [], lastChar := 0 }, highAt := 0, held := none, claim := false
                      reply := none, notices := [], tx := none } ∧
  State.reset.cap = { owner := .free, state := .disarmed, mode := .count 512, mask := 0, post := none, buffer := [] }

/-- The invariants below hold right after power-on reset. That the Supervisor's has no report of a declaration's moment outside
STOPPING is the model's choice (log 35). -/
def Obligations.InvariantsHoldAtReset : Prop :=
  SupervisorInv State.reset ∧ CaptureInv State.reset ∧ RetentionInv State.reset ∧ SensingInv State.reset ∧
  LinkInv State.reset ∧ HoldingInv State.reset ∧ Granted State.reset

/-- PATH HALT, the held reason, the purge state and the settle watch stay in agreement with the part state (R22, R126, R135,
R151). The last clause of the invariant, that the reports of the moment of a declaration are held in STOPPING alone, is the
model's choice (log 35). -/
def Obligations.SupervisorItemsFollowThePartState : Prop :=
  ∀ s t : State, SupervisorInv s → step s = .next t → SupervisorInv t

/-- The capture stays within its owner, its buffer limit and its COUNT (R188, R190, R193). -/
def Obligations.CaptureStaysWithinItsMode : Prop :=
  ∀ s t : State, CaptureInv s → step s = .next t → CaptureInv t

/-- The Retention Queue keeps at most 32 entries with consecutive numbers up to the expected next number, at most 8 of them
FORWARDED (R35, R43). -/
def Obligations.RetentionKeepsConsecutiveNumbers : Prop :=
  ∀ s t : State, RetentionInv s → step s = .next t → RetentionInv t

/-- An undefined station senses nothing, and EMIT is asserted outside STANDBY (R12, R25, R28). -/
def Obligations.UndefinedStationsSenseNothing : Prop :=
  ∀ s t : State, SensingInv s → step s = .next t → SensingInv t

/-- The queues of the link keep their limits, and at most one HALT waits (R86, R170, R172, R174, R176, R178). -/
def Obligations.LinkQueuesKeepTheirLimits : Prop :=
  ∀ s t : State, LinkInv s → step s = .next t → LinkInv t

/-- Expectation lists, causes, deferred causes and set records keep their limits, no set has two records, and the held plan
carries the number of the plan counter (R60, R90, R96, R101, R139). -/
def Obligations.HoldingsKeepTheirLimits : Prop :=
  ∀ s t : State, HoldingInv s → step s = .next t → HoldingInv t

/-- After every step each idle transmitter has nothing it could send, and no barrier waits for an order that already satisfies it
(R171, R173, R174, R176; log 4). -/
def Obligations.NoTransmitterIdlesBesideAReadyFrame : Prop :=
  ∀ s t : State, Granted s → step s = .next t → Granted t

/-! ### Resets and start-up -/

/-- The two resets of the whole part; a RUNNING capture of SERVICE goes on over a pin reset, and takes the STATE event of STARTING
(R17, R152, R189, R190, R193). The model's choices: the raw levels stay (log 6), the load result (log 7), the STATE notice when
the part was in another state (log 8), MCLK and MDO low (log 13), a break forgotten and the line taken as high (log 29), a frame
being sent cut off (log 30), the mode and mask that a freed capture has (log 18), and that no report of the moment of a declaration
is left (log 35). -/
def Obligations.PowerAndPinResetRestartThePart : Prop :=
  ∀ s : State,
    (∃ t, exec .powerOnReset s = .next t ∧ Restarted s t ∧ t.sup.resetCause = .power ∧ t.cap = .initial ∧
      t.svc.tx = none ∧ noticesHeld t = if s.sup.state = .starting then [] else [.state .starting none]) ∧
    (∃ t, exec .pinReset s = .next t ∧ Restarted s t ∧ t.sup.resetCause = .pin ∧
      (noticesHeld t = if s.sup.state = .starting then [] else [.state .starting none]) ∧
      (s.cap.owner ≠ .service → t.cap = .initial ∧ t.svc.tx = none) ∧
      (s.cap.owner = .service →
        let e : TraceRec := { kind := .state, p := 0, ms := 0, station := none, order := none, detail := 0 }
        let kept := (if 512 ≤ s.cap.buffer.length then s.cap.buffer.drop 1 else s.cap.buffer) ++ [e]
        t.cap.owner = .service ∧ t.cap.mode = s.cap.mode ∧ t.cap.mask = s.cap.mask ∧
        (s.cap.state ≠ .running ∨ s.cap.mask.getLsbD 9 = false → t.cap = s.cap ∧ t.svc.tx = none) ∧
        (s.cap.state = .running → s.cap.mask.getLsbD 9 = true →
          (∀ n, s.cap.mode = .count n → t.cap.buffer = s.cap.buffer ++ [e] ∧ t.cap.post = s.cap.post ∧
            t.cap.state = if n ≤ s.cap.buffer.length + 1 then .stopped else .running) ∧
          (∀ k count, s.cap.mode = .trigger k count → t.cap.buffer = kept ∧
            (t.cap.post = match s.cap.post with
              | none => if k = .state then some count else none
              | some m => some (m - 1)) ∧
            t.cap.state = if t.cap.post = some 0 then .stopped else .running) ∧
          t.svc.tx = if t.cap.state = .stopped then some (.notice (.captureDone t.cap.buffer.length)) else none)))

/-- The loader: with MSEL asserted it shifts 0x03 and 0x0000 out on MDO and then samples MDI at the rising edges of MCLK, 24 CLK
periods a bit, most significant bit first; each word is read when its last bit arrives and its record is applied, with the level
of a station it defines, and MSEL is negated when the load ends (R17, R18, R25). AUTOLOAD_END takes the words that the loader has
not read, if any, leaves the tables that the load ends with, requests LINK START, and enters the state that follows; a qualified
level that the check reads is as it stands (R18, R152, R153). MDO after the address, MCLK's phase, MDI without a memory answering,
and an AUTOLOAD_END that comes before the last CLK period of the transfer are log 13's; that an emptied station is uncovered is
R12's. -/
def Obligations.AutoloadEndLeavesStarting : Prop :=
  (∀ s : State, s.load.msel = true →
     let n := s.load.periods + 1
     let u : State := { s with
       load.periods := n
       load.mclk := decide (12 ≤ n % 24)
       load.mdo := decide (n / 24 < 24) && (0x030000#24).getMsbD (n / 24) }
     let t := loaderPeriod s
     (n % 24 ≠ 12 ∨ n < 576 → t = u) ∧
     (∀ i, n = 24 * (24 + i) + 12 →
       let bit := ((s.load.memory[i / 8]?).getD 0xFF).getMsbD (i % 8)
       let w : Word := (s.load.shift <<< 1) ||| (if bit then 1 else 0)
       let x := loadWord (s.load.reading, s.tables) w
       (i % 16 ≠ 15 → t = { u with load.shift := w }) ∧
       (i % 16 = 15 →
         t = { u with
           tables := x.2
           load := { u.load with shift := w, reading := x.1, msel := !x.1.ended, mclk := !x.1.ended }
           front.stations := t.front.stations } ∧
         ∀ st : Station, t.front.stations[st] =
           let y := s.front.stations[st]
           if (x.2.stations[st]).defined then
             (if (s.tables.stations[st]).defined then y else { y with qual := y.raw, pending := none, sample := none })
           else { y with qual := false, pending := none, sample := none }))) ∧
  (∀ (image : List Word) (s : State), s.sup.state = .starting →
    memoryWords s.load.memory s.load.reading.count = imageWords image s.load.reading.count →
    let x := loadWords ((imageWords image 1173).drop s.load.reading.count) (s.load.reading, s.tables)
    let l := loadEnd x.1 x.2
    let covered := fun st : Station => (l.stations[st]).defined &&
      (if (s.tables.stations[st]).defined then (s.front.stations[st]).qual else (s.front.stations[st]).raw)
    ∃ t, exec (.autoloadEnd image) s = .next t ∧ t.tables = l ∧ (s.load.reading.ended = true → x = (s.load.reading, s.tables)) ∧
      t.load = { s.load with
        msel := false
        mclk := false
        mdo := false
        memory := image.flatMap wordBytes
        reading := x.1 } ∧
      controlHeld t = controlHeld s ++ [.linkStart] ∧
      (∀ st : Station, (t.front.stations[st]).raw = (s.front.stations[st]).raw ∧
        (t.front.stations[st]).qual = covered st) ∧
      t.sup.state =
        (if l.checked = false then .unconfigured
         else if ∃ st : Station, covered st = true then .awaitClear
         else .idle) ∧
      t.pos.p = s.pos.p ∧ t.ret.expected = s.ret.expected ∧
      t.ret.entries.map (·.order) = s.ret.entries.map (·.order) ∧
      t.fwd = s.fwd ∧ t.sets = s.sets ∧ t.trk.lists = s.trk.lists ∧
      t.trk.slots = s.trk.slots ∧ t.jam = s.jam ∧ t.svc.claim = s.svc.claim ∧
      t.link.commands.map (fun c => (c.kind, c.payload)) = s.link.commands.map (fun c => (c.kind, c.payload)))

/-- A load that fails leaves the emptied tables with its load result, one that succeeds leaves tables that pass validation
with the tables-checked flag set; a missing signature and a stated length outside 53 to 1,173 are such failures (R18). The transfer
reads the words of the memory in order, and the image of tables that pass validation loads those tables (R17, R18; MDI without a
memory answering is log 13's). -/
def Obligations.LoadLeavesCheckedOrEmptiedTables : Prop :=
  (∀ image : List Word,
    ((loadImage image).checked = true ↔ (loadImage image).loadResult.outcome = .loaded) ∧
    ((loadImage image).loadResult.outcome = .loaded → validate (loadImage image) = none) ∧
    ((loadImage image).loadResult.outcome ≠ .loaded →
      loadImage image = { Tables.empty with loadResult := (loadImage image).loadResult }) ∧
    (∀ w ws, image = w :: ws → w ≠ 0x4D53 →
      (loadImage image).loadResult = { outcome := .noSignature, length := none, fault := none }) ∧
    (∀ n ws, image = 0x4D53 :: n :: ws → n.toNat < 53 ∨ 1173 < n.toNat →
      (loadImage image).loadResult = { outcome := .badLength, length := some n, fault := none })) ∧
  (∀ (r : Reading) (t : Tables),
    (r.stage = .complete → validate t = none → loadEnd r t =
      { t with checked := true, loadResult := { outcome := .loaded, length := r.length, fault := none } }) ∧
    (∀ f, r.stage = .complete → validate t = some f → loadEnd r t =
      { Tables.empty with loadResult := { outcome := .tableFault, length := r.length, fault := some f } }) ∧
    (∀ o, r.stage = .failed o → loadEnd r t =
      { Tables.empty with loadResult := { outcome := o, length := r.length, fault := none } })) ∧
  (∀ (memory : List Byte) (k : Nat) (s : State), s.load = .start memory →
    let x := loadWords (memoryWords memory k) (.start, s.tables)
    let t := loaderPeriods (576 + 384 * k) s
    t.load.reading = x.1 ∧ t.tables = x.2 ∧ (t.load.msel = true ↔ x.1.ended = false)) ∧
  (∀ t : Tables, Storable t → validate t = none → loadImage (imageOf t) =
    { t with checked := true, loadResult :=
      { outcome := .loaded, length := some (BitVec.ofNat 16 (imageOf t).length), fault := none } }) ∧
  (∀ (memory : List Byte) (image : List Word) (n i : Nat), i < n →
    (memoryWords memory n)[i]? = some (wordOf (memory[2 * i]?.getD 0xFF) (memory[2 * i + 1]?.getD 0xFF)) ∧
    (imageWords image n)[i]? = some (image[i]?.getD 0xFFFF))

/-! ### The ends of frames -/

/-- LINK START and HALT sent whole release the window hold, with a HALT still waiting not yet (R42, R45, R46, R173; log 9). SET
VOID sent whole starts the set-confirm timer of a VOIDED record, SPEED CHANGE sent whole starts the speed wait; both run in units
of 100 ms, 2,400,000 CLK periods (R143, R160). -/
def Obligations.PathControlSentHasItsEffect : Prop :=
  (∀ s : State,
     (s.link.lowerTx = some (.pathControl .linkStart) →
       exec .linkStartSent s = .next (finish { s with
         link.lowerTx := none
         link.linkStarted := true
         link.credit := some (creditContent s.ret)
         fwd.windowHold := if .halt ∈ s.link.pathControl then s.fwd.windowHold else false })) ∧
     (s.link.lowerTx = some (.pathControl .halt) →
       exec .haltSent s = .next (finish { s with
         link.lowerTx := none
         fwd.windowHold := if .halt ∈ s.link.pathControl then s.fwd.windowHold else false }))) ∧
  (∀ s : State,
     (∀ n, s.link.lowerTx = some (.pathControl (.setVoid n)) →
       exec .setVoidSent s = .next (finish { s with
         link.lowerTx := none
         sets.records := s.sets.records.map fun r =>
           if r.name = n ∧ r.state = .voided then
             { r with deadline := some (s.pos.clock + s.tables.limits.setConfirm * 2400000) }
           else r })) ∧
     (∀ c, s.link.lowerTx = some (.pathControl (.speedChange c)) → s.sup.state = .speedChange →
       (∀ d, .speedChange d ∉ s.link.pathControl) →
       exec .speedChangeSent s = .next (finish { s with
         link.lowerTx := none
         sup.speedWait := some (s.pos.clock + s.tables.limits.speedWait * 2400000) })) ∧
     (∀ c, s.link.lowerTx = some (.pathControl (.speedChange c)) →
       s.sup.state ≠ .speedChange ∨ (∃ d, .speedChange d ∈ s.link.pathControl) →
       exec .speedChangeSent s = .next (finish { s with link.lowerTx := none })))

/-- A FORWARDED ORDER sent whole counts for the barriers; after every other frame of the lower port the transmitter is idle;
an idle lower transmitter is granted PATH CONTROL first, before LINK START nothing else, then the oldest ready command, then
FORWARDED ORDER. A barrier is ready when every order of its mark has had its first forwarding sent or withdrawn, is SKIPPED or has
left, and no barrier is ahead of it; a command passes the barriers that wait (R171, R173). That a frame overtaken by a link reset
counts for no order is the model's choice (log 28). -/
def Obligations.LowerTransmitterGrantsInOrder : Prop :=
  ∀ s : State,
    (∀ f, s.link.lowerTx = some (.forwardedOrder f) → f.live = true →
      exec .forwardedOrderSent s = .next (finish { s with
        link.lowerTx := none
        ret.entries := s.ret.entries.map fun e => if e.order = f.entry.order then { e with firstSent := true } else e })) ∧
    (∀ f, s.link.lowerTx = some (.forwardedOrder f) → f.live = false →
      exec .forwardedOrderSent s = .next (finish { s with link.lowerTx := none })) ∧
    (∀ f, s.link.lowerTx = some f →
      (∃ c, f = .command c) ∨ f = .pathControl .run ∨ (∃ a b l, f = .pathControl (.purgeRun a b l)) →
      exec .lowerFrameSent s = .next (finish { s with link.lowerTx := none })) ∧
    (s.link.lowerTx = none →
      let waitsFor := fun n : OrderNo => ∃ e, s.ret.entries.find? (fun e => e.order = n) = some e ∧
        e.firstSent = false ∧ e.state ≠ .skipped
      let blocked := fun c : Command => ∃ m, c.mark = some m ∧ ∃ n ∈ m, waitsFor n
      (∀ f rest, s.link.pathControl = f :: rest →
        (finish s).link.lowerTx = some (.pathControl f) ∧ (finish s).link.pathControl = rest) ∧
      (s.link.pathControl = [] → s.link.linkStarted = false → (finish s).link.lowerTx = none) ∧
      (∀ c rest, s.link.pathControl = [] → s.link.linkStarted = true → s.link.commands = c :: rest → c.mark = none →
        (finish s).link.lowerTx = some (.command c)) ∧
      (∀ f rest, s.link.pathControl = [] → s.link.linkStarted = true → s.link.commands = [] →
        s.link.forwarded = f :: rest →
        (finish s).link.lowerTx = some (.forwardedOrder f) ∧ (finish s).link.forwarded = rest) ∧
      (∀ c m rest, s.link.pathControl = [] → s.link.linkStarted = true → s.link.commands = c :: rest →
        c.mark = some m → (∀ n ∈ m, ¬waitsFor n) →
        (finish s).link.lowerTx = some (.command { c with mark := some [] }) ∧
        (finish s).link.commands.map (fun c => (c.kind, c.payload)) = rest.map (fun c => (c.kind, c.payload))) ∧
      (∀ b bs c rest, s.link.pathControl = [] → s.link.linkStarted = true →
        s.link.commands = b :: bs ++ c :: rest → blocked b → (∀ x ∈ bs, x.mark.isSome = true) → c.mark = none →
        (finish s).link.lowerTx = some (.command c) ∧
        (finish s).link.commands.map (fun c => (c.kind, c.payload)) =
          (b :: bs ++ rest).map (fun c => (c.kind, c.payload))) ∧
      (∀ b bs f rest, s.link.pathControl = [] → s.link.linkStarted = true → s.link.commands = b :: bs → blocked b →
        (∀ x ∈ bs, x.mark.isSome = true) → s.link.forwarded = f :: rest →
        (finish s).link.lowerTx = some (.forwardedOrder f) ∧ (finish s).link.forwarded = rest ∧
        (finish s).link.commands.map (fun c => (c.kind, c.payload)) = s.link.commands.map (fun c => (c.kind, c.payload))))

/-- After a frame of the upper port the next one is CREDIT, else a reply, else a notice, else a forwarded frame; the service
port grants its reply before its notices (R174, R176). A notice joins the notice queue while that holds fewer than 48, and is counted
as lost, up to 255, at 48; the service port discards a notice made while it holds 8 (R174, R176). -/
def Obligations.UpperAndServiceTransmittersGrantInOrder : Prop :=
  ∀ s : State,
    (s.link.upperTx.isSome = true → ∃ t, exec .upperFrameSent s = .next t ∧
      (∀ c, s.link.credit = some c → t.link.upperTx = some (.credit c) ∧ t.link.credit = none ∧
        t.link.replies = s.link.replies ∧ t.link.notices = s.link.notices ∧ t.link.reports = s.link.reports) ∧
      (∀ r rs, s.link.credit = none → s.link.replies = r :: rs →
        t.link.upperTx = some (.reply r) ∧ t.link.replies = rs ∧ t.link.notices = s.link.notices ∧
        t.link.reports = s.link.reports) ∧
      (∀ n ns, s.link.credit = none → s.link.replies = [] → s.link.notices = n :: ns →
        t.link.upperTx = some (.notice n) ∧ t.link.reports = s.link.reports ∧ t.link.lossCount = 0 ∧
        t.link.notices = ns ++ (if s.link.lossCount = 0 then []
          else [.linkError .upper .noticeLoss (BitVec.ofNat 8 s.link.lossCount)])) ∧
      (∀ f fs, s.link.credit = none → s.link.replies = [] → s.link.notices = [] → s.link.reports = f :: fs →
        t.link.upperTx = some (.report f) ∧ t.link.reports = fs) ∧
      (s.link.credit = none → s.link.replies = [] → s.link.notices = [] → s.link.reports = [] →
        t.link.upperTx = none) ∧
      t.tables = s.tables ∧ t.pos = s.pos ∧ t.front = s.front ∧ t.ret = s.ret ∧ t.fwd = s.fwd ∧ t.trk = s.trk ∧
      t.jam = s.jam ∧ t.plan = s.plan ∧ t.sets = s.sets ∧ t.sup = s.sup ∧ t.cap = s.cap) ∧
    (s.svc.tx.isSome = true → ∃ t, exec .serviceFrameSent s = .next t ∧
      (∀ r, s.svc.reply = some r → t.svc = { s.svc with reply := none, held := none, tx := some (.reply r) }) ∧
      (∀ n ns, s.svc.reply = none → s.svc.notices = n :: ns →
        t.svc = { s.svc with notices := ns, tx := some (.notice n) }) ∧
      (s.svc.reply = none → s.svc.notices = [] → t.svc = { s.svc with tx := none }) ∧
      t.tables = s.tables ∧ t.pos = s.pos ∧ t.front = s.front ∧ t.ret = s.ret ∧ t.fwd = s.fwd ∧ t.trk = s.trk ∧
      t.jam = s.jam ∧ t.plan = s.plan ∧ t.sets = s.sets ∧ t.sup = s.sup ∧ t.cap = s.cap) ∧
    (∀ n : Notice,
      (s.link.notices.length < 48 → makeNotice n s = { s with link.notices := s.link.notices ++ [n] }) ∧
      (48 ≤ s.link.notices.length →
        makeNotice n s = { s with
          link.lossCount := if s.link.lossCount < 255 then s.link.lossCount + 1 else 255 }) ∧
      (s.svc.notices.length < 8 → makeServiceNotice n s = { s with svc.notices := s.svc.notices ++ [n] }) ∧
      (8 ≤ s.svc.notices.length → makeServiceNotice n s = s))

/-! ### The receivers -/

/-- A hunting receiver takes a frame as the part sends it, with at most 60 payload bytes, as that frame (R166, R167, R168). The
frames are laid out as R177 gives them: the notices, PATH CONTROL, CREDIT, FORWARDED ORDER and MANAGE REPLY; a number that is absent
is sent as a free word (log 14). The lists at the end are the codes of the enumerated values that frames, replies and capture records
carry (R177, R179, R180, R181, R182, R188, R191). On the line a character is a low start bit, 8 data bits with the least significant
first, and a high stop bit, with no parity; values of 16 bits are sent high byte first (R166). The check register starts at 0xFFFF and
takes the bits of each byte from the most significant one (R168). -/
def Obligations.SentFramesPassTheReceiver : Prop :=
  (∀ (b : Byte) (stop : Bool),
    charLevels b = [false, b.getLsbD 0, b.getLsbD 1, b.getLsbD 2, b.getLsbD 3, b.getLsbD 4, b.getLsbD 5, b.getLsbD 6,
      b.getLsbD 7, true] ∧
    charOf [false, b.getLsbD 0, b.getLsbD 1, b.getLsbD 2, b.getLsbD 3, b.getLsbD 4, b.getLsbD 5, b.getLsbD 6,
      b.getLsbD 7, stop] = some { byte := b, stopHigh := stop }) ∧
  (∀ (kind : Byte) (payload : List Byte),
    frameLevels kind payload = (wireFrame kind payload).flatMap charLevels ∧
    wireFrame kind payload = 0xA5 :: kind :: byteOf payload.length :: payload ++
      wordBytes (crc16 (kind :: byteOf payload.length :: payload))) ∧
  (crc16 [] = 0xFFFF ∧ crc16 [0x31, 0x32, 0x33, 0x34, 0x35, 0x36, 0x37, 0x38, 0x39] = 0x29B1) ∧
  (∀ (bytes : List Byte) (b : Byte), crc16 (bytes ++ [b]) =
    [7, 6, 5, 4, 3, 2, 1, 0].foldl
      (fun (r : Word) i => if r.msb != b.getLsbD i then (r <<< 1) ^^^ 0x1021 else r <<< 1) (crc16 bytes)) ∧
  (∀ hi lo : Byte, wordBytes (wordOf hi lo) = [hi, lo] ∧ (wordOf hi lo).toNat = 256 * hi.toNat + lo.toNat) ∧
  (∀ (now : Nat) (r : Receiver) (kind : Byte) (payload : List Byte), r.mode = .hunting → payload.length ≤ 60 →
    rxChars now ((wireFrame kind payload).map fun b => { byte := b, stopHigh := true }) r =
      ({ mode := .hunting, bytes := [], lastChar := now }, .complete kind payload)) ∧
  (∀ (n : Notice) (r : Reply),
    (ServiceFrame.notice n).content = (UpperFrame.notice n).content ∧
    (ServiceFrame.reply r).content = (UpperFrame.reply r).content ∧
    (UpperFrame.reply r).content = (0x21, r.tag :: r.status.code :: r.results)) ∧
  (∀ (t : Treatment) (index : Nat) (c : Cause) (filler : Word),
    (UpperFrame.notice (.jam t index c filler)).content = (0x50,
      [1, t.code, byteOf index, c.kind.code, finByte c.station, finByte c.cover] ++
      (match c.set with
        | some n => [byteOf n.bin.val, n.set]
        | none => [0xFF, 0]) ++
      wordBytes (c.zones.setWidth 16) ++ [if c.sheet.isSome then 1 else 0] ++ wordBytes (c.sheet.getD filler) ++
      [c.pos.extractLsb' 24 8, c.pos.extractLsb' 16 8, c.pos.extractLsb' 8 8, c.pos.extractLsb' 0 8])) ∧
  (∀ p : PlanSummary,
    (UpperFrame.notice (.plan p)).content = (0x50,
      [2, p.number, p.kind.code, byteOf p.causeCount,
       (if p.more then 1 else 0) ||| (if p.resume.isSome then 2 else 0)] ++
      wordBytes (p.clear.setWidth 16) ++ wordBytes (p.resume.getD p.filler) ++
      [byteOf p.reprint, byteOf p.unpicked, byteOf p.lost, byteOf p.salvage, byteOf p.wasteDivert, byteOf p.wasteAtDest,
       byteOf p.voidedCount])) ∧
  (∀ (st : PartState) (held : Option HeldReason) (n : OrderNo) (why : OrderRefusal) (station : Station)
      (reason : HeldReason) (port : Port) (err : LinkReason) (third kind bin : Byte) (number : Word) (count : Nat),
    (UpperFrame.notice (.state st held)).content = (0x50, [3, st.code, HeldReason.code held]) ∧
    (UpperFrame.notice (.orderRefused n why)).content = (0x50, 4 :: wordBytes n ++ [why.code]) ∧
    (UpperFrame.notice (.foreignSheet station)).content = (0x50, [5, byteOf station.val]) ∧
    (UpperFrame.notice (.held n reason)).content = (0x50, 6 :: wordBytes n ++ [HeldReason.code (some reason)]) ∧
    (UpperFrame.notice (.linkError port err third)).content = (0x50, [7, portCode port, err.code, third]) ∧
    (UpperFrame.notice (.unexpectedReport kind bin number)).content = (0x50, [8, kind, bin] ++ wordBytes number) ∧
    (UpperFrame.notice (.captureDone count)).content = (0x50, 9 :: wordBytes (BitVec.ofNat 16 count)) ∧
    (UpperFrame.notice .captureLost).content = (0x50, [10])) ∧
  (∀ (part count : Nat) (items : List (OrderNo × Mark)) (cls : SpeedClass) (n : SetName) (f : ForwardedOrder)
      (c : CreditContent),
    (LowerFrame.pathControl .linkStart).content = (0x30, [1]) ∧ (LowerFrame.pathControl .halt).content = (0x30, [2]) ∧
    (LowerFrame.pathControl .run).content = (0x30, [3]) ∧
    (LowerFrame.pathControl (.purgeRun part count items)).content = (0x30,
      [4, byteOf part, byteOf count, byteOf items.length] ++
        items.flatMap fun x => wordBytes x.1 ++ [Mark.code (some x.2)]) ∧
    (LowerFrame.pathControl (.speedChange cls)).content = (0x30, [5, byteOf cls.val]) ∧
    (LowerFrame.pathControl (.setVoid n)).content = (0x30, [6, byteOf n.bin.val, n.set]) ∧
    (LowerFrame.forwardedOrder f).content = (0x31, orderBytes f.entry ++ [byteOf f.entry.attempt]) ∧
    (UpperFrame.credit c).content = (0x46, wordBytes c.limit ++ wordBytes c.oldest ++ [if c.isOpen then 1 else 0])) ∧
  [PartState.starting, .unconfigured, .idle, .running, .speedChange, .stopping, .awaitClear, .purging, .held,
    .standby].map PartState.code = [0, 1, 2, 3, 4, 5, 6, 7, 8, 9] ∧
  [CauseKind.late, .early, .unexpected, .stuck, .lengthShort, .lengthLong, .overrun, .stall, .cover, .finisher,
    .pathLost].map CauseKind.code = [0, 1, 2, 3, 4, 5, 6, 7, 8, 9, 10] ∧
  [Treatment.declared, .joined, .notStored, .deferred].map Treatment.code = [0, 1, 2, 3] ∧
  [PlanKind.stop, .foreign, .pathLost].map PlanKind.code = [0, 1, 2] ∧
  [OrderRefusal.notReady, .sequence, .noCredit, .field].map OrderRefusal.code = [0, 1, 2, 3] ∧
  [LinkReason.length, .check, .framing, .gap, .format, .overflow, .noticeLoss].map LinkReason.code =
    [0, 1, 2, 3, 4, 5, 6] ∧
  [none, some HeldReason.attempts, some .speed].map HeldReason.code = [0, 1, 2] ∧
  [Port.upper, .lower, .service].map portCode = [0, 1, 2] ∧
  [none, some Mark.salvage, some .wasteDivert, some .wasteAtDest].map Mark.code = [0, 1, 2, 3] ∧
  [Status.done, .busy, .state, .range, .stale, .notClear, .coverOpen, .owned, .notOwner, .set, .unknown, .tableFault,
    .notReady].map Status.code = [0, 1, 2, 3, 4, 5, 6, 7, 8, 9, 10, 11, 12] ∧
  [ResetCause.power, .pin, .link].map ResetCause.code = [0, 1, 2] ∧
  [EntryState.queued, .forwarded, .inFlight, .delivered, .committed, .skipped, .reprint, .held].map EntryState.code =
    [0, 1, 2, 3, 4, 5, 6, 7] ∧
  [Disposition.salvage, .wasteDivert, .wasteAtDest, .unpicked, .lost].map Disposition.code = [1, 2, 3, 4, 5] ∧
  [BinKind.stack, .set].map BinKind.code = [0, 1] ∧
  [Anchor.pick, .prevOn, .prevOff].map Anchor.number = [0, 1, 2] ∧
  [none, some FaultTable.station, some .bin, some .route].map FaultTable.code = [0xFF, 0, 1, 2] ∧
  [FaultCode.stationZone, .binZone, .visitAnchor, .visitStation, .visitRepeat, .completeIndex, .routeBin, .divertIndex,
    .wasteRoute, .wasteBin, .wasteAnchor, .wasteDivert, .noRoute].map FaultCode.code =
    [0, 1, 2, 3, 4, 5, 6, 7, 8, 9, 10, 11, 12] ∧
  [LoadOutcome.loaded, .noSignature, .badLength, .badRecord, .tableFault].map LoadOutcome.code = [0, 1, 2, 3, 4] ∧
  [Owner.free, .controller, .service].map Owner.code = [0, 1, 2] ∧
  [EventKind.on, .off, .matched, .expiry, .cause, .plan, .commit, .pick, .linkError, .state].map EventKind.number =
    [0, 1, 2, 3, 4, 5, 6, 7, 8, 9]

/-- A frame that a receiver ends early or that fails its check is discarded with a LINK ERROR, reasons LENGTH, CHECK, FRAMING and
GAP, at the character that decides it, whatever bytes are held by then; characters that stay within a frame only wait there, a
list of characters is taken one by one, the ones after a discard are hunted again, and one that ends beyond the gap limit finds
the frame under way discarded (R167, R168, R169). The LINK ERROR is a notice of the upper port with a LINK ERROR event for a
discard on a link port, and a notice of the service port for one on it; its third byte is the Kind received, or 0 (R169, R177,
R189). That the notice is made before the event is offered is the model's choice (log 19). Characters that complete a frame which
passes are no FRAME_DISCARD, and a frame is taken whole by its own row where the receiver can complete it (log 3). The moment at
which the service line was last known to be high is the model's own; a FRAMING discard on it is one of a low level that has ended
before the 10 ms of a break, which would be taken instead (R167, R176; log 29). -/
def Obligations.BadFramesAreDiscarded : Prop :=
  (∀ (port : Port) (s : State),
    let limit := if port = .service then 480000 else 24000
    let r := receiverOf port s
    let now := s.pos.clock
    let idle : Receiver := { mode := .hunting, bytes := [], lastChar := now }
    (r.mode = .hunting → ∀ (kind len : Byte), 60 < len.toNat →
      exec (.frameDiscard port [⟨0xA5, true⟩, ⟨kind, true⟩, ⟨len, true⟩]) s =
        .next (finish (discardFrame port .length (some kind) (received port s)))) ∧
    (r.mode = .hunting → ∀ (kind : Byte) (payload : List Byte) (hi lo : Byte), payload.length ≤ 60 →
      [hi, lo] ≠ wordBytes (crc16 (kind :: byteOf payload.length :: payload)) →
      exec (.frameDiscard port
          ((0xA5 :: kind :: byteOf payload.length :: payload ++ [hi, lo]).map fun b => ⟨b, true⟩)) s =
        .next (finish (discardFrame port .check (some kind) (received port s)))) ∧
    (r.mode = .inFrame → now - r.lastChar ≤ limit → ∀ b : Byte,
      exec (.frameDiscard port [⟨b, false⟩]) s =
        .next (finish (discardFrame port .framing r.bytes.head? (received port s))) ∧
      exec (.frameDiscard port [⟨b, false⟩, ⟨0xA5, true⟩]) s =
        .next (finish (setReceiver port { mode := .inFrame, bytes := [], lastChar := now }
          (discardFrame port .framing r.bytes.head? (received port s))))) ∧
    (r.mode = .inFrame → limit < now - r.lastChar →
      exec (.gap port) s = .next (finish (discardFrame port .gap r.bytes.head? (setReceiver port idle s))) ∧
      exec (.frameDiscard port [⟨0xA5, true⟩]) s =
        .next (finish (setReceiver port { mode := .inFrame, bytes := [], lastChar := now }
          (discardFrame port .gap r.bytes.head? (received port s)))) ∧
      ∀ (c : RxChar) (cs : List RxChar), exec (.frameDiscard port (c :: cs)) s =
        match takeChars port (c :: cs) (discardFrame port .gap r.bytes.head? (setReceiver port idle s)) with
        | some t => .next (finish t)
        | none => .next s) ∧
    (r.mode = .inFrame → now - r.lastChar ≤ limit → ∀ b : Byte,
      let bytes := r.bytes ++ [b]
      let waits : Prop := exec (.frameDiscard port [⟨b, true⟩]) s =
        .next (finish (setReceiver port { mode := .inFrame, bytes := bytes, lastChar := now } (received port s)))
      let discarded : LinkReason → Prop := fun reason => exec (.frameDiscard port [⟨b, true⟩]) s =
        .next (finish (discardFrame port reason bytes.head? (received port s)))
      (r.bytes = [] → waits) ∧
      ∀ (kind len : Byte) (rest : List Byte), bytes = kind :: len :: rest →
        (60 < len.toNat → discarded .length) ∧
        (len.toNat ≤ 60 → rest.length < len.toNat + 2 → waits) ∧
        (len.toNat ≤ 60 → rest.length = len.toNat + 2 →
          let passes : Prop := rest.drop len.toNat = wordBytes (crc16 (kind :: len :: rest.take len.toNat))
          (¬ passes → discarded .check) ∧ (passes → exec (.frameDiscard port [⟨b, true⟩]) s = .next s))) ∧
    ((r.mode = .inFrame → now - r.lastChar ≤ limit) → ∀ cs : List RxChar, exec (.frameDiscard port cs) s =
      match takeChars port cs s with
      | some t => .next (finish t)
      | none => .next s) ∧
    takeChars port [] s = some s ∧
    (∀ (c : RxChar) (cs : List RxChar), takeChars port (c :: cs) s = (takeChars port [c] s).bind (takeChars port cs)) ∧
    (r.mode = .hunting →
      exec (.frameDiscard port [⟨0xA5, true⟩]) s =
        .next (finish (setReceiver port { mode := .inFrame, bytes := [], lastChar := now } (received port s))) ∧
      (∀ b : Byte, b ≠ 0xA5 →
        exec (.frameDiscard port [⟨b, true⟩]) s = .next (finish (setReceiver port r (received port s)))) ∧
      ∀ (kind : Byte) (payload : List Byte), payload.length ≤ 60 →
        exec (.frameDiscard port ((wireFrame kind payload).map fun b => ⟨b, true⟩)) s = .next s) ∧
    (∀ (kind : Byte) (payload : List Byte),
      (r.mode = .hunting → frameCompletes port kind payload s = true) ∧
      (r.mode = .inFrame →
        (frameCompletes port kind payload s = true ↔
          now - r.lastChar ≤ limit ∧ ∃ rest, wireFrame kind payload = 0xA5 :: r.bytes ++ rest)) ∧
      (r.mode = .lineLow → frameCompletes port kind payload s = false))) ∧
  (∀ (reason : LinkReason) (kind : Option Byte) (r : Receiver) (s : State),
    let idle : Receiver := { mode := .hunting, bytes := [], lastChar := s.pos.clock }
    (∀ port, port = .upper ∨ port = .lower →
      discardFrame port reason kind s =
        offerEvent .linkError s.pos.p none none (portCode port ||| (reason.code <<< 4))
          (makeNotice (.linkError port reason (kind.getD 0)) s)) ∧
    discardFrame .service reason kind s = makeServiceNotice (.linkError .service reason (kind.getD 0)) s ∧
    receiverOf .upper s = s.link.rxUpper ∧ receiverOf .lower s = s.link.rxLower ∧ receiverOf .service s = s.svc.rx ∧
    setReceiver .upper r s = { s with link.rxUpper := r } ∧ setReceiver .lower r s = { s with link.rxLower := r } ∧
    setReceiver .service r s = { s with svc.rx := r } ∧
    received .upper s = { s with link.rxUpper := idle } ∧ received .lower s = { s with link.rxLower := idle } ∧
    received .service s = { s with
      svc.rx := idle
      svc.highAt := s.pos.clock })

/-- Commands join the command queue of 16, a barrier with the orders held at that moment as its mark; frames of the engine join
the upstream queue of 32, whatever else they do; a full queue makes a LINK ERROR, reason OVERFLOW (R170, R171, R172). An ORDER,
SPEED READY, SET FAULT, SET CLEARED or engine CREDIT of another Length than its own makes a LINK ERROR, reason FORMAT, and is not
read. These LINK ERRORs make no trace event (log 27), the wrong Lengths are answered in STARTING too (log 22), the OVERFLOW of a
frame of the engine that cannot be passed upstream precedes its FORMAT (log 32), and each row is taken where its frame can
complete (log 3). -/
def Obligations.PassedFramesJoinOrOverflow : Prop :=
  ∀ (kind : Byte) (payload : List Byte) (s : State),
    (s.link.commands.length < 16 →
      (frameCompletes .upper kind payload s = true →
        exec (.engineCommand kind payload) s = .next (finish { s with
          link.rxUpper := { mode := .hunting, bytes := [], lastChar := s.pos.clock }
          link.commands := s.link.commands ++ [{ kind := kind, payload := payload, mark := none }] })) ∧
      (frameCompletes .upper 0x12 payload s = true →
        exec (.barrierCommand payload) s = .next (finish { s with
          link.rxUpper := { mode := .hunting, bytes := [], lastChar := s.pos.clock }
          link.commands := s.link.commands ++
            [{ kind := 0x12, payload := payload, mark := some (s.ret.entries.map (·.order)) }] }))) ∧
    (16 ≤ s.link.commands.length →
      (frameCompletes .upper kind payload s = true →
        exec (.engineCommand kind payload) s =
          .next (finish (makeNotice (.linkError .upper .overflow kind) (received .upper s)))) ∧
      (frameCompletes .upper 0x12 payload s = true →
        exec (.barrierCommand payload) s =
          .next (finish (makeNotice (.linkError .upper .overflow 0x12) (received .upper s))))) ∧
    (frameCompletes .lower kind payload s = true →
      (s.link.reports.length < 32 →
        exec (.engineReport kind payload) s = .next (finish { s with
          link.rxLower := { mode := .hunting, bytes := [], lastChar := s.pos.clock }
          link.reports := s.link.reports ++ [{ kind := kind, payload := payload }] })) ∧
      (32 ≤ s.link.reports.length →
        exec (.engineReport kind payload) s =
          .next (finish (makeNotice (.linkError .lower .overflow kind) (received .lower s))))) ∧
    (s.link.reports.length < 32 →
      passUp kind payload s = { s with
        link.rxLower := { mode := .hunting, bytes := [], lastChar := s.pos.clock }
        link.reports := s.link.reports ++ [{ kind := kind, payload := payload }] }) ∧
    (32 ≤ s.link.reports.length →
      passUp kind payload s = makeNotice (.linkError .lower .overflow kind) { s with
        link.rxLower := { mode := .hunting, bytes := [], lastChar := s.pos.clock } }) ∧
    (payload.length ≠ 16 → frameCompletes .upper 0x10 payload s = true →
      exec (.order payload) s = .next (finish (makeNotice (.linkError .upper .format 0x10) (received .upper s)))) ∧
    (payload.length ≠ 1 → frameCompletes .lower 0x42 payload s = true →
      exec (.speedReady payload) s =
        .next (finish (makeNotice (.linkError .lower .format 0x42) (passUp 0x42 payload s)))) ∧
    (payload.length ≠ 2 → frameCompletes .lower 0x44 payload s = true →
      exec (.setFault payload) s =
        .next (finish (makeNotice (.linkError .lower .format 0x44) (passUp 0x44 payload s)))) ∧
    (payload.length ≠ 2 → frameCompletes .lower 0x45 payload s = true →
      exec (.setCleared payload) s =
        .next (finish (makeNotice (.linkError .lower .format 0x45) (passUp 0x45 payload s)))) ∧
    (payload.length ≠ 1 → frameCompletes .lower 0x46 payload s = true →
      exec (.engineCredit payload) s =
        .next (finish (makeNotice (.linkError .lower .format 0x46) (received .lower s))))

/-- A MANAGE frame waits in the holding of its port, or is turned away: FORMAT below two bytes, OVERFLOW beyond four waiting
requests on the upper port or one on the service port (R170, R176). A frame that is too short makes FORMAT alone, whether or not the
holding is full (log 33); these LINK ERRORs make no trace event (log 27). The row is taken where its frame can complete (log 3), and
that the service line is known to have been high at that moment is the model's (log 29). -/
def Obligations.ManageFramesAreHeld : Prop :=
  ∀ (payload : List Byte) (s : State),
    (frameCompletes .upper 0x20 payload s = true →
      (2 ≤ payload.length → s.link.holding.length < 4 →
        exec (.manage .upper payload) s = .next (finish { s with
          link.rxUpper := { mode := .hunting, bytes := [], lastChar := s.pos.clock }
          link.holding := s.link.holding ++ [payload] })) ∧
      (payload.length < 2 →
        exec (.manage .upper payload) s =
          .next (finish (makeNotice (.linkError .upper .format 0x20) (received .upper s)))) ∧
      (2 ≤ payload.length → 4 ≤ s.link.holding.length →
        exec (.manage .upper payload) s =
          .next (finish (makeNotice (.linkError .upper .overflow 0x20) (received .upper s))))) ∧
    (frameCompletes .service 0x20 payload s = true →
      (2 ≤ payload.length → s.svc.held = none →
        exec (.manage .service payload) s = .next (finish { s with
          svc.rx := { mode := .hunting, bytes := [], lastChar := s.pos.clock }
          svc.highAt := s.pos.clock
          svc.held := some { payload := payload, served := false } })) ∧
      (payload.length < 2 →
        exec (.manage .service payload) s =
          .next (finish (makeServiceNotice (.linkError .service .format 0x20) (received .service s)))) ∧
      (2 ≤ payload.length → s.svc.held.isSome = true →
        exec (.manage .service payload) s =
          .next (finish (makeServiceNotice (.linkError .service .overflow 0x20) (received .service s)))))

/-- The service port: frames that are no MANAGE leave nothing; a break of 10 ms, 240,000 CLK periods without a high level of the
line, empties the port and frees a SERVICE capture but lets the frame being sent go on; when the line returns high the receiver hunts,
and a second break needs 10 ms more (R176, R193). That the 10 ms are counted from the last moment at which a character, a frame, the
line's return or the end of a reset shows the line high is the model's (log 29), and so are the mode and mask that the freed capture
keeps (log 18), and that a frame is taken where it can complete (log 3). -/
def Obligations.ServicePortBreaks : Prop :=
  ∀ (kind : Byte) (payload : List Byte) (s : State),
    (frameCompletes .service kind payload s = true →
      exec (.serviceManageDiscard kind payload) s = .next (finish { s with
        svc.rx := { mode := .hunting, bytes := [], lastChar := s.pos.clock }
        svc.highAt := s.pos.clock })) ∧
    (s.svc.rx.mode ≠ .lineLow → 240000 ≤ s.pos.clock - s.svc.highAt → ∃ t, exec .serviceReset s = .next t ∧
      t.svc = { rx := { mode := .lineLow, bytes := [], lastChar := s.pos.clock }, highAt := s.svc.highAt, held := none,
                claim := false, reply := none, notices := [], tx := s.svc.tx } ∧
      (s.cap.owner = .service → t.cap =
        { s.cap with owner := .free, state := .disarmed, post := none, buffer := [] }) ∧
      (s.cap.owner ≠ .service → t.cap = s.cap) ∧
      t.tables = s.tables ∧ t.pos = s.pos ∧ t.front = s.front ∧ t.ret = s.ret ∧ t.fwd = s.fwd ∧ t.trk = s.trk ∧
      t.jam = s.jam ∧ t.plan = s.plan ∧ t.sets = s.sets ∧ t.sup = s.sup ∧ (Granted s → t.link = s.link)) ∧
    (s.svc.rx.mode = .lineLow →
      exec .serviceLineReturnsHigh s = .next (finish { s with
        svc.rx := { mode := .hunting, bytes := [], lastChar := s.pos.clock }
        svc.highAt := s.pos.clock }))

/-! ### Orders -/

/-- The refusals of an ORDER, the first check that fails giving the reason; in STANDBY the part is first woken. A refused order
leaves the queue, the expected number, the sets and the credit as they were (R36, R37, R38, R39). The set check refuses by the rows
of the table of R39, and a print route is a defined one whose visit 0 is anchored PICK (R6). The frame is one that its receiver can
complete (log 3). -/
def Obligations.OrdersAreRefusedInOrder : Prop :=
  (∀ (payload : List Byte) (o : OrderFields) (s : State), decodeOrder payload = some o →
    frameCompletes .upper 0x10 payload s = true →
    let u := wakeToIdle (received .upper s)
    (s.sup.state = .starting ∨ s.sup.state = .unconfigured →
      exec (.order payload) s = .next (finish (makeNotice (.orderRefused o.order .notReady) u))) ∧
    (s.sup.state ≠ .starting → s.sup.state ≠ .unconfigured → (∃ e, s.ret.expected = some e ∧ o.order ≠ e) →
      exec (.order payload) s = .next (finish (makeNotice (.orderRefused o.order .sequence) u))) ∧
    (s.sup.state ≠ .starting → s.sup.state ≠ .unconfigured → (∀ e, s.ret.expected = some e → o.order = e) →
      32 ≤ s.ret.entries.length →
      exec (.order payload) s = .next (finish (makeNotice (.orderRefused o.order .noCredit) u))) ∧
    (s.sup.state ≠ .starting → s.sup.state ≠ .unconfigured → (∀ e, s.ret.expected = some e → o.order = e) →
      s.ret.entries.length < 32 →
      o.length.toNat < 500 ∨ 6000 < o.length.toNat ∨ 3 ≤ o.cls.toNat ∨ 32 ≤ o.route.toNat ∨
        (∃ r : RouteIx, r.val = o.route.toNat ∧
          (isPrintRoute s.tables.routes[r] = false ∨
            setRefused s (s.tables.routes[r]).bin o.setNumber o.setLast = true)) →
      exec (.order payload) s = .next (finish (makeNotice (.orderRefused o.order .field) u)))) ∧
  (∀ (bin : Bin) (number : Option Byte) (setLast : Bool) (s : State),
    setRefused s bin number setLast = true ↔
      (setLast = true ∧ number = none) ∨
      (number = none ∧ (s.tables.bins[bin]).kind = .set) ∨
      (number.isSome = true ∧ (s.tables.bins[bin]).kind = .stack) ∨
      (∃ n, s.ret.receiving = none ∧ number = some n ∧ ∃ r ∈ s.sets.records, r.name = { bin := bin, set := n }) ∨
      (s.ret.receiving = none ∧ number.isSome = true ∧ 8 ≤ s.sets.records.length) ∨
      (s.ret.receiving.isSome = true ∧ number = none) ∨
      (∃ m n, s.ret.receiving = some m ∧ number = some n ∧ (n ≠ m.set ∨ bin ≠ m.bin))) ∧
  (∀ r : RouteRec, isPrintRoute r = true ↔ r.defined = true ∧ ∃ v, r.visits[0]? = some v ∧ v.anchor = .pick) ∧
  (∀ s : State, (s.sup.state = .standby → wakeToIdle s = enterState .idle s) ∧
    (s.sup.state ≠ .standby → wakeToIdle s = s))

/-- An ORDER that passes every check joins the queue at the tail as QUEUED with attempt count 0, sets the expected next number,
joins its set, makes the CREDIT frame where the credit changes, and the forwarder considers the queue (R40, R42, R43, R140). Its set
is opened where none is being received, as a new record, and joined otherwise, which raises the member count; the set-last member
closes it (R140). The CREDIT frame carries H + 31, H and a clear open flag, H being the head's number or else the expected one; with
neither it carries 31, 0 and the open flag; it is made where that content changes (R41, R42). The fields of the 16 bytes are those of
R177. The frame is one that its receiver can complete (log 3). -/
def Obligations.AcceptedOrderJoinsTheTail : Prop :=
  (∀ (payload : List Byte) (o : OrderFields) (r : RouteIx) (c : SpeedClass) (s : State), decodeOrder payload = some o →
    frameCompletes .upper 0x10 payload s = true → s.sup.state ≠ .starting → s.sup.state ≠ .unconfigured →
    (∀ e, s.ret.expected = some e → o.order = e) → s.ret.entries.length < 32 → r.val = o.route.toNat → c.val = o.cls.toNat →
    isPrintRoute s.tables.routes[r] = true → 500 ≤ o.length.toNat → o.length.toNat ≤ 6000 →
    setRefused s (s.tables.routes[r]).bin o.setNumber o.setLast = false →
    let e : Entry :=
      { order := o.order, job := o.job, sheetIndex := o.sheetIndex, front := o.front, back := o.back,
        backPresent := o.backPresent, route := r, length := o.length, cls := c, set := o.setNumber,
        setLast := o.setLast, attempt := 0, unpicked := false, state := .queued, tag := none, mark := none,
        firstSent := false }
    let u := wakeToIdle (received .upper s)
    let v := { u with ret.entries := u.ret.entries ++ [e], ret.expected := some (o.order + 1) }
    (o.setNumber = none →
      exec (.order payload) s = .next (finish (forwarderPass (creditIfChanged (creditContent s.ret) v)))) ∧
    (∀ n, o.setNumber = some n →
      exec (.order payload) s = .next (finish (forwarderPass (creditIfChanged (creditContent s.ret)
        (acceptMember { bin := (s.tables.routes[r]).bin, set := n } o.order o.setLast v)))))) ∧
  (∀ (name : SetName) (n : OrderNo) (setLast : Bool) (s : State),
    let receiving := if setLast then none else some name
    (s.ret.receiving = none → (∀ r ∈ s.sets.records, r.name ≠ name) →
      acceptMember name n setLast s = { s with
        ret.receiving := receiving
        sets.records := s.sets.records ++
          [{ name := name, first := n, last := if setLast then some n else none, members := 1, delivered := 0,
             state := .opened, cancelled := false, rebuilt := false, deadline := none }] }) ∧
    (s.ret.receiving = some name →
      acceptMember name n setLast s = { s with
        ret.receiving := receiving
        sets.records := s.sets.records.map fun r =>
          if r.name = name then { r with members := r.members + 1, last := if setLast then some n else r.last }
          else r })) ∧
  (∀ r : Retention,
    (∀ e es, r.entries = e :: es →
      r.h = some e.order ∧ creditContent r = { limit := e.order + 31, oldest := e.order, isOpen := false }) ∧
    (∀ n, r.entries = [] → r.expected = some n →
      r.h = some n ∧ creditContent r = { limit := n + 31, oldest := n, isOpen := false }) ∧
    (r.entries = [] → r.expected = none →
      r.h = none ∧ creditContent r = { limit := 31, oldest := 0, isOpen := true })) ∧
  (∀ (old : CreditContent) (s : State),
    (creditContent s.ret = old → creditIfChanged old s = s) ∧
    (creditContent s.ret ≠ old → creditIfChanged old s = { s with link.credit := some (creditContent s.ret) })) ∧
  (∀ n1 n0 j1 j0 s1 s0 f1 f0 b1 b0 flags route l1 l0 cls set : Byte, ∃ o,
    decodeOrder [n1, n0, j1, j0, s1, s0, f1, f0, b1, b0, flags, route, l1, l0, cls, set] = some o ∧
    o.order = wordOf n1 n0 ∧ o.job = wordOf j1 j0 ∧ o.sheetIndex = wordOf s1 s0 ∧ o.front = wordOf f1 f0 ∧
    o.back = wordOf b1 b0 ∧ o.backPresent = flags.getLsbD 0 ∧ o.setLast = flags.getLsbD 1 ∧ o.route = route ∧
    o.length = wordOf l1 l0 ∧ o.cls = cls ∧ o.setNumber = if set = 0 then none else some set)

/-- The engine window, the engine CREDIT and the resets of the window (R45). The model's choices: the CREDIT is taken where its
receiver can complete the frame (log 3), and a LINK START sent while a HALT waits behind it does not release the window hold, which
that HALT keeps, so that the last clause is about one sent with no HALT waiting (log 9). -/
def Obligations.EngineCreditSetsTheWindow : Prop :=
  (∀ x : Forwarder,
    (1 ≤ (x.limit - x.f).toNat → (x.limit - x.f).toNat ≤ 8 → engineWindow x = (x.limit - x.f).toNat) ∧
    ((x.limit - x.f).toNat = 0 ∨ 8 < (x.limit - x.f).toNat → engineWindow x = 0)) ∧
  (∀ (limit : Byte) (s : State), frameCompletes .lower 0x46 [limit] s = true →
    (s.fwd.windowHold = false → s.sup.state ≠ .starting →
      exec (.engineCredit [limit]) s = .next (finish (forwarderPass { s with
        link.rxLower := { mode := .hunting, bytes := [], lastChar := s.pos.clock }
        fwd.limit := limit }))) ∧
    (s.fwd.windowHold = true ∨ s.sup.state = .starting →
      exec (.engineCredit [limit]) s = .next (finish { s with
        link.rxLower := { mode := .hunting, bytes := [], lastChar := s.pos.clock } })) ∧
    (∀ t, exec (.engineCredit [limit]) s = .next t → reportsHeld t = reportsHeld s)) ∧
  (∀ s t : State, exec .powerOnReset s = .next t ∨ exec .pinReset s = .next t →
    t.fwd.f = 0 ∧ t.fwd.limit = 0 ∧ t.fwd.windowHold = true) ∧
  (∀ s t : State, s.link.lowerTx = some (.pathControl .linkStart) → .halt ∉ s.link.pathControl →
    exec .linkStartSent s = .next t → t.fwd.windowHold = false)

/-- The forwarder takes the lowest QUEUED entry while the part is in IDLE or RUNNING, no HELD entry is below it, the window is
open, fewer than 8 entries are FORWARDED and its class is the current one: the entry is FORWARDED, its attempt count rises unless
it is unpicked, F counts one on, and its FORWARDED ORDER frame is queued. An entry of another class becomes the speed request
(R43, R44, R159). The queue is considered entry by entry until a condition fails or no entry is QUEUED. What then follows is, in
this order, the drain of a speed request, which queues SPEED CHANGE; HELD where the lowest entry is a HELD one; and IDLE where
nothing is left to run (R135, R155, R159, R160). That a request in RUNNING follows the lowest QUEUED entry is the model's reading
(log 16). All that follows when the forwarder considers the queue leaves the tables, the tracker's records, the sets, the causes
and the plan as they are. -/
def Obligations.ForwardingTakesTheLowestQueuedEntry : Prop :=
  (∀ (n : Nat) (e : Entry) (s : State), s.fwd.request = none →
     s.ret.entries.find? (fun x => x.state = .queued) = some e →
     ((s.sup.state = .running ∨ s.sup.state = .idle) → heldBelow s e.order = false → 1 ≤ engineWindow s.fwd →
       forwardedCount s < 8 →
       let f := { e with state := .forwarded, attempt := if e.unpicked then e.attempt else e.attempt + 1,
                         unpicked := false }
       let u := { s with
         ret.entries := s.ret.entries.map fun x =>
           if x.order = e.order then
             { x with state := .forwarded, attempt := if x.unpicked then x.attempt else x.attempt + 1, unpicked := false }
           else x
         fwd.f := s.fwd.f + 1
         link.forwarded := s.link.forwarded ++ [{ entry := f, live := true }] }
       (e.cls = s.fwd.speed → s.sup.state = .running → considerQueue (n + 1) s = considerQueue n u) ∧
       (e.cls = s.fwd.speed → s.sup.state = .idle → considerQueue (n + 1) s = considerQueue n (enterState .running u)) ∧
       (e.cls ≠ s.fwd.speed → considerQueue (n + 1) s = { s with fwd.request := some (e.cls, e.order) })) ∧
     ((s.sup.state ≠ .running ∧ s.sup.state ≠ .idle) ∨ heldBelow s e.order = true ∨ engineWindow s.fwd = 0 ∨
         8 ≤ forwardedCount s →
       considerQueue (n + 1) s = s)) ∧
  (∀ (n : Nat) (s : State), (∀ e ∈ s.ret.entries, e.state ≠ .queued) → considerQueue n s = s) ∧
  (∀ s : State, considerQueue 0 s = s) ∧
  (∀ s : State,
    let r := reviewRequest s
    let drained := (s.sup.state = .running ∨ s.sup.state = .idle) ∧ trackingEmpty s = true ∧
      ∀ e ∈ s.ret.entries, e.state ≠ .forwarded
    let atRest := s.sup.state = .running ∧ s.fwd.request = none ∧ trackingEmpty s = true ∧
      ∀ e ∈ s.ret.entries, e.state ≠ .forwarded ∧ e.state ≠ .queued
    forwarderPass s = idleCheck (heldCheck (drainCheck (considerQueue (s.ret.entries.length + 1) r))) ∧
    (∀ n x, s.fwd.request = some x → considerQueue n s = s) ∧
    (∀ c n, s.fwd.request = some (c, n) → drained →
      drainCheck s = enterState .speedChange { s with link.pathControl := s.link.pathControl ++ [.speedChange c] }) ∧
    (s.fwd.request = none ∨ ¬drained → drainCheck s = s) ∧
    (∀ e, s.sup.state = .running →
      s.ret.entries.find? (fun x => x.state = .queued || x.state = .held) = some e →
      (e.state = .held → heldCheck s = enterState .held { makeNotice (.held e.order .attempts) s with
        sup := { s.sup with heldReason := some .attempts } }) ∧
      (e.state = .queued → heldCheck s = s)) ∧
    (s.sup.state ≠ .running ∨ (∀ e ∈ s.ret.entries, e.state ≠ .queued ∧ e.state ≠ .held) → heldCheck s = s) ∧
    (atRest → idleCheck s = enterState .idle s) ∧ (¬atRest → idleCheck s = s) ∧
    (s.fwd.request = none ∨ s.sup.state ≠ .running → r = s) ∧
    (∀ c n, s.fwd.request = some (c, n) → s.sup.state = .running →
      ((∀ e ∈ s.ret.entries, e.state ≠ .queued) → r = { s with fwd.request := none }) ∧
      (∀ e, s.ret.entries.find? (fun x => x.state = .queued) = some e →
        (e.order = n → r = s) ∧
        (e.order ≠ n → e.cls = s.fwd.speed ∨ heldBelow s e.order = true → r = { s with fwd.request := none }) ∧
        (e.order ≠ n → e.cls ≠ s.fwd.speed → heldBelow s e.order = false →
          r = { s with fwd.request := some (e.cls, e.order) })))) ∧
  (∀ s : State,
    let t := forwarderPass s
    t.tables = s.tables ∧ t.pos.p = s.pos.p ∧ t.front.covers = s.front.covers ∧ t.trk.table = s.trk.table ∧
    t.trk.lists = s.trk.lists ∧ t.trk.slots = s.trk.slots ∧ t.jam = s.jam ∧ t.plan = s.plan ∧ t.sets = s.sets ∧
    t.ret.expected = s.ret.expected ∧ t.ret.receiving = s.ret.receiving ∧
    t.ret.entries.map (·.order) = s.ret.entries.map (·.order) ∧ t.fwd.limit = s.fwd.limit ∧
    t.fwd.windowHold = s.fwd.windowHold ∧ t.fwd.speed = s.fwd.speed ∧ t.link.commands = s.link.commands ∧
    t.link.holding = s.link.holding ∧ t.link.reports = s.link.reports ∧ t.link.replies = s.link.replies) ∧
  (∀ (n : OrderNo) (s : State),
    (heldBelow s n = true ↔ ∃ front x back, s.ret.entries = front ++ x :: back ∧ x.state = .held ∧
      ∀ y ∈ front ++ [x], y.order ≠ n) ∧
    forwardedCount s = (s.ret.entries.filter fun e => decide (e.state = .forwarded)).length ∧
    (trackingEmpty s = true ↔ ∀ tag : Tag, s.trk.table[tag] = none))

/-- A PICK of the oldest FORWARDED entry with a free tracking record: the entry is IN FLIGHT with that tag, the record is
allocated, and visit 0 is posted from the present P, or an OVERRUN is reported where the list of its station is full (R48, R49,
R57, R63, R65, R66, R172). A PICK that cannot be matched is answered UNEXPECTED REPORT; in STARTING it is only passed on, and one
of another Length than 2 makes a LINK ERROR, reason FORMAT (R48, R50, R172), in STARTING too (log 22) and with no trace event (log
27). UNEXPECTED REPORT precedes the PICK event, and the PICK event the JAM notice and the CAUSE event of an OVERRUN (both the
model's choice, log 19), the OVERFLOW of a frame that cannot be passed upstream precedes them, and the FORMAT too (log 32), and
the frame is one that its receiver can complete (log 3). That the cause of an OVERRUN is taken before the forwarder considers the
queue is the model's choice (log 11). An expectation is inserted behind the entries of its list whose E is at or before its own
and ahead of the first whose E is beyond it (R60). -/
def Obligations.PickStartsTrackingOrIsReported : Prop :=
  (∀ (hi lo : Byte) (e : Entry) (tag : Tag) (v : Visit) (s : State), s.sup.state ≠ .starting →
     frameCompletes .lower 0x41 [hi, lo] s = true →
     s.ret.entries.find? (fun x => x.state = .forwarded) = some e → e.order = wordOf hi lo →
     s.trk.table[tag] = none → (∀ g : Tag, g < tag → s.trk.table[g] ≠ none) →
     (s.tables.routes[e.route]).visits[0]? = some v →
     let l := s.tables.limits
     let slip := (v.distance.toNat * l.slip + 999) / 1000
     let on : Pos := s.pos.p + BitVec.ofNat 32 v.distance.toNat
     let x : Expectation :=
       { tag := tag, visit := 0, e := on, early := on - BitVec.ofNat 32 (l.earlyBase + slip),
         late := on + BitVec.ofNat 32 (l.lateBase + slip), spent := false }
     let w := offerEvent .pick s.pos.p none (some e.order) 0 (passUp 0x41 [hi, lo] s)
     let u := syncStall (trackingEmpty s) { w with
       trk.table := s.trk.table.set tag (some
         { order := e.order, route := e.route, length := e.length, next := 0, occupied := [], wasteTail := false,
           complete := false, disp := none })
       ret.entries := s.ret.entries.map fun y =>
         if y.order = e.order then { y with state := .inFlight, tag := some tag } else y }
     ((s.trk.lists[v.station]).length < 8 →
       exec (.pick [hi, lo]) s = .next (finish (afterTracking
         ({ u with trk.lists := s.trk.lists.set v.station (insertExpectation x s.trk.lists[v.station]) }, [])))) ∧
     (8 ≤ (s.trk.lists[v.station]).length →
       exec (.pick [hi, lo]) s = .next (finish (afterTracking
         (u, [{ kind := .overrun, station := v.station, sheet := some e.order, pos := s.pos.p }]))))) ∧
  (∀ (hi lo : Byte) (s : State), frameCompletes .lower 0x41 [hi, lo] s = true →
     (s.sup.state ≠ .starting →
       (∀ e, s.ret.entries.find? (fun x => x.state = .forwarded) = some e →
         e.order ≠ wordOf hi lo ∨ ∀ g : Tag, s.trk.table[g] ≠ none) →
       exec (.pick [hi, lo]) s = .next (finish (offerEvent .pick s.pos.p none (some (wordOf hi lo)) 1
         (makeNotice (.unexpectedReport 0x41 0xFF (wordOf hi lo)) (passUp 0x41 [hi, lo] s))))) ∧
     (s.sup.state = .starting → exec (.pick [hi, lo]) s = .next (finish (passUp 0x41 [hi, lo] s)))) ∧
  (∀ (payload : List Byte) (s : State), payload.length ≠ 2 → frameCompletes .lower 0x41 payload s = true →
     exec (.pick payload) s = .next (finish (makeNotice (.linkError .lower .format 0x41) (passUp 0x41 payload s)))) ∧
  (∀ (x : Expectation) (front back : List Expectation), (∀ y ∈ front, 0 ≤ (x.e - y.e).toInt) →
     (∀ y, back.head? = some y → (x.e - y.e).toInt < 0) →
     insertExpectation x (front ++ back) = front ++ x :: back)

/-- SKIP ORDER is decided on the named entry (R53, R164). CANCEL JOB: every QUEUED, HELD or REPRINT entry of the job is SKIPPED,
the others are left, and the reply carries their number (R54, R52). A set of the job is cancelled, its reception ends, and its
counts lose the members made SKIPPED; an OPEN one with a DELIVERED member is voided, its DELIVERED members SKIPPED and its SET
VOID frame queued; one left with no member is freed (R55, R148). In HELD with reason ATTEMPTS the withdrawal of the HELD entries
lets the part go on (R137). The model's choices: several sets are voided in the order of the record list (log 31), a cancelled set
that was being rebuilt is so no more, unless it is COMPLETE-AWAITING (log 41), and memberOf reads the distance from a first member
as a signed number (log 15). -/
def Obligations.OrdersAreWithdrawn : Prop :=
  (∀ (port : MgmtPort) (q : Request) (hi lo : Byte) (s : State), Awaits port q 0x23 [hi, lo] s →
     let u := wakeToIdle (takeRequest port s)
     (findEntry s (wordOf hi lo) = none →
       exec (.skipOrder port) s = .next (answered port q .range [] u)) ∧
     (∀ e, findEntry s (wordOf hi lo) = some e →
       (e.state = .queued ∨ e.state = .held →
         (e.set.isSome = true → exec (.skipOrder port) s = .next (answered port q .set [] u)) ∧
         (e.set = none →
           exec (.skipOrder port) s = .next (answered port q .done [] (afterWithdrawal (lowestHeld s) (removeHeads
             { u with ret.entries := u.ret.entries.map fun x =>
                 if x.order = wordOf hi lo then { x with state := .skipped, unpicked := false } else x }))))) ∧
       (e.state ≠ .queued → e.state ≠ .held →
         exec (.skipOrder port) s = .next (answered port q .state [] u)))) ∧
  (∀ (port : MgmtPort) (q : Request) (hi lo : Byte) (s : State), Awaits port q 0x24 [hi, lo] s →
     let u := wakeToIdle (takeRequest port s)
     let gone := fun e : Entry => e.job = wordOf hi lo ∧ (e.state = .queued ∨ e.state = .held ∨ e.state = .reprint)
     (∃ t results, exec (.cancelJob port) s = .next (answered port q .done results t)) ∧
     (setsOfJob s (wordOf hi lo) = [] →
       exec (.cancelJob port) s =
         .next (answered port q .done [BitVec.ofNat 8 (s.ret.entries.filter fun e => decide (gone e)).length]
           (afterWithdrawal (lowestHeld s) (removeHeads
             { u with ret.entries := u.ret.entries.map fun e =>
                 if gone e then { e with state := .skipped, unpicked := false } else e })))) ∧
     (∀ r ∈ setsOfJob s (wordOf hi lo), r.state = .opened →
       (∃ e ∈ s.ret.entries, e.state = .delivered ∧ memberOf s.tables r e = true) →
       ∃ t, exec (.cancelJob port) s = .next t ∧ .setVoid r.name ∈ controlHeld t ∧
         ∀ x ∈ t.sets.records, x.name = r.name → x.state = .voided)) ∧
  (∀ (port : MgmtPort) (q : Request) (hi lo : Byte) (s : State), Awaits port q 0x24 [hi, lo] s →
     (s.sets.records.map (·.name)).Nodup →
     let u := wakeToIdle (takeRequest port s)
     let gone := fun e : Entry => e.job = wordOf hi lo ∧ (e.state = .queued ∨ e.state = .held ∨ e.state = .reprint)
     let count := fun p : Entry → Bool => (s.ret.entries.filter p).length
     let members := fun r : SetRec => s.ret.entries.filter fun e => memberOf s.tables r e
     let ofJob := fun r : SetRec => ∃ e ∈ members r, e.job = wordOf hi lo
     let voids := fun r : SetRec => ofJob r ∧ r.state = .opened ∧ ∃ e ∈ members r, e.state = .delivered
     let skipped := fun e : Entry => gone e ∨ (e.state = .delivered ∧ ∃ r ∈ s.sets.records, voids r ∧ e ∈ members r)
     let lost := fun r : SetRec =>
       if voids r then ((members r).filter fun e => decide (e.state = .delivered)).length else 0
     let left : SetRec → SetRec := fun r => { r with
       last := if s.ret.receiving = some r.name then (members r).getLast?.map (·.order) else r.last
       cancelled := r.cancelled || decide (r.state ≠ .completeAwaiting)
       rebuilt := r.rebuilt && decide (r.state = .completeAwaiting)
       members := r.members - ((members r).filter fun e => decide (gone e)).length - lost r
       delivered := r.delivered - lost r
       state := if voids r then .voided else r.state
       deadline := if voids r then none else r.deadline }
     let freed := fun r : SetRec => ofJob r ∧ (left r).members = 0 ∧
       ((left r).state = .opened ∨ (left r).state = .completeAwaiting)
     let voided := (s.sets.records.filter fun r => decide (voids r)).map (·.name)
     let kept : List SetRec := (s.sets.records.filter fun r => decide (¬freed r)).map fun r => if ofJob r then left r else r
     let keeps := fun n : SetName => decide (∀ r ∈ s.sets.records, freed r → r.name ≠ n)
     exec (.cancelJob port) s =
       .next (answered port q .done [BitVec.ofNat 8 (count fun e => decide (skipped e))]
         (afterWithdrawal (lowestHeld s) (removeHeads { u with
           ret := { s.ret with
             entries := s.ret.entries.map fun e =>
               if skipped e then { e with state := .skipped, unpicked := false } else e
             receiving := if ∃ r ∈ s.sets.records, ofJob r ∧ s.ret.receiving = some r.name then none
               else s.ret.receiving }
           sets := {
             records := kept
             voidOrder := (s.sets.voidOrder ++ voided).filter keeps }
           link.pathControl := s.link.pathControl ++ voided.map .setVoid
           sup.purge := u.sup.purge.map fun p =>
             if p.phase = .voidWait then { p with outstanding := p.outstanding ++ voided } else p
           jam.deferred := if s.sup.state = .awaitClear then
               s.jam.deferred.filter fun c => decide (∀ r ∈ s.sets.records, freed r → c.set ≠ some r.name)
             else s.jam.deferred })))) ∧
  (∀ (old : Option OrderNo) (s : State),
     let waiting := s.ret.entries.find? fun e => e.state = .queued || e.state = .held
     (s.sup.state ≠ .held → afterWithdrawal old s = forwarderPass s) ∧
     (s.sup.state = .held → s.sup.heldReason ≠ some .attempts → afterWithdrawal old s = s) ∧
     (s.sup.state = .held → s.sup.heldReason = some .attempts →
       (∀ e, waiting = some e → e.state = .held → old = some e.order → afterWithdrawal old s = s) ∧
       (∀ e, waiting = some e → e.state = .held → old ≠ some e.order →
         afterWithdrawal old s = makeNotice (.held e.order .attempts) s) ∧
       (∀ e, waiting = some e → e.state = .queued →
         afterWithdrawal old s = forwarderPass (enterState .running s)) ∧
       (waiting = none → (trackingEmpty s = true ∧ ∀ e ∈ s.ret.entries, e.state ≠ .forwarded) →
         afterWithdrawal old s = enterState .idle s) ∧
       (waiting = none → (trackingEmpty s = false ∨ ∃ e ∈ s.ret.entries, e.state = .forwarded) →
         afterWithdrawal old s = forwarderPass (enterState .running s)))) ∧
  (∀ (n : OrderNo) (job : Word) (s : State),
     findEntry s n = s.ret.entries.find? (fun e => decide (e.order = n)) ∧
     lowestHeld s = (s.ret.entries.find? fun e => decide (e.state = .held)).map (·.order) ∧
     setsOfJob s job = s.sets.records.filter fun r =>
       s.ret.entries.any fun e => decide (e.job = job) && memberOf s.tables r e)

/-! ### Management -/

/-- IDENTIFY, READ STATE, READ ORDER, READ TABLE and READ PLAN answer what the part holds and change nothing but the holding of
the request (R13, R117, R180, R182; the revision byte is the model's free value, log 14). The pages of READ PLAN: the state, the
summary of R116 and the snapshot position; the causes and the more flag; the clear zones and the voided sets; then the
dispositions, eight to a page (R117, R182). What is absent is sent as 0xFF (R181); that both bytes of an absent number are, and
those of an absent resume point on page 0 too, is the model's reading (log 37). -/
def Obligations.ReadCommandsAnswerWhatIsHeld : Prop :=
  (∀ (port : MgmtPort) (q : Request) (s : State),
    let u := takeRequest port s
    (Awaits port q 0x01 [] s →
      exec (.identify port) s = .next (answered port q .done
        [0x52, 0x18, Config.revision, match s.sup.resetCause with
          | .power => 0
          | .pin => 1
          | .link => 2] u)) ∧
    (Awaits port q 0x02 [] s →
      exec (.readState port) s = .next (answered port q .done
        ([s.sup.state.code, HeldReason.code s.sup.heldReason, byteOf s.fwd.speed.val,
          (match s.fwd.request with
            | some x => byteOf x.1.val
            | none => 0xFF),
          byteOf s.ret.entries.length, byteOf (trackingCount s)] ++
          (match s.plan.plan with
            | some p => [p.number, if p.isOpen then 0 else 1]
            | none => [0, 0xFF]) ++
          (match s.ret.h with
            | some h => wordBytes (h + 31) ++ wordBytes h
            | none => [0, 31, 0, 0]) ++
          [(if s.ret.h = none then 1 else 0) ||| (if s.fwd.windowHold then 2 else 0) |||
            (if s.tables.checked then 4 else 0),
           byteOf (engineWindow s.fwd), s.fwd.f]) u)) ∧
    (∀ hi lo, Awaits port q 0x20 [hi, lo] s →
      (∀ e, findEntry s (wordOf hi lo) = some e →
        exec (.readOrder port) s = .next (answered port q .done
          (orderBytes e ++ [e.state.code, byteOf e.attempt, boolByte e.unpicked, finByte e.tag, Mark.code e.mark]) u)) ∧
      (findEntry s (wordOf hi lo) = none → exec (.readOrder port) s = .next (answered port q .range [] u))) ∧
    (∀ table index, Awaits port q 0x15 [table, index] s →
      (∀ i : Station, table = 0 → index = byteOf i.val →
        exec (.readTable port) s = .next (answered port q .done (stationBytes i s.tables.stations[i]) u)) ∧
      (∀ i : Zone, table = 1 → index = byteOf i.val →
        exec (.readTable port) s = .next (answered port q .done (zoneBytes i s.tables.zones[i]) u)) ∧
      (∀ i : Bin, table = 2 → index = byteOf i.val →
        exec (.readTable port) s = .next (answered port q .done (binBytes i s.tables.bins[i]) u)) ∧
      (∀ i : RouteIx, table = 3 → index = byteOf i.val →
        exec (.readTable port) s = .next (answered port q .done (routeBytes i s.tables.routes[i]) u)) ∧
      (table = 4 → exec (.readTable port) s = .next (answered port q .done (guardedBytes s.tables) u)) ∧
      (table = 5 → exec (.readTable port) s = .next (answered port q .done (limitsBytes s.tables.limits) u)) ∧
      (table = 6 → exec (.readTable port) s = .next (answered port q .done (loadResultBytes s.tables.loadResult) u)) ∧
      ((table = 0 ∧ 16 ≤ index.toNat) ∨ (table = 1 ∧ 12 ≤ index.toNat) ∨ (table = 2 ∧ 8 ≤ index.toNat) ∨
          (table = 3 ∧ 32 ≤ index.toNat) ∨ 7 ≤ table.toNat →
        exec (.readTable port) s = .next (answered port q .range [] u))) ∧
    (∀ number page, Awaits port q 0x21 [number, page] s →
      (s.plan.plan = none → exec (.readPlan port) s = .next (answered port q .stale [] u)) ∧
      (∀ p, s.plan.plan = some p →
        (number ≠ 0 → number ≠ p.number → exec (.readPlan port) s = .next (answered port q .stale [] u)) ∧
        (number = 0 ∨ number = p.number →
          (3 + (p.dispositions.length - 1) / 8 < page.toNat →
            exec (.readPlan port) s = .next (answered port q .range [] u)) ∧
          (page.toNat ≤ 3 + (p.dispositions.length - 1) / 8 →
            exec (.readPlan port) s = .next (answered port q .done (p.number :: pageBytes p page.toNat) u)))))) ∧
  (∀ p : PlanRec,
    let count := fun d : Disposition => byteOf (p.dispositions.filter fun x => x.2 = d).length
    pageBytes p 0 =
      [if p.isOpen then 0 else 1, p.number, p.kind.code, byteOf p.causes.length,
       (if p.more then 1 else 0) ||| (if p.resume.isSome then 2 else 0)] ++
      wordBytes (p.clear.setWidth 16) ++ wordBytes (p.resume.getD 0xFFFF) ++
      [byteOf p.reprint, count .unpicked, count .lost, count .salvage, count .wasteDivert, count .wasteAtDest,
       byteOf p.voided.length] ++
      [p.pos.extractLsb' 24 8, p.pos.extractLsb' 16 8, p.pos.extractLsb' 8 8, p.pos.extractLsb' 0 8] ∧
    pageBytes p 1 =
      (byteOf p.causes.length ||| (if p.more then 0x80 else 0)) ::
      p.causes.flatMap (fun c =>
        [c.kind.code, finByte c.station, finByte c.cover] ++
        (match c.set with
          | some n => [byteOf n.bin.val, n.set]
          | none => [0xFF, 0xFF]) ++
        wordBytes (c.zones.setWidth 16) ++ [if c.sheet.isSome then 1 else 0] ++ wordBytes (c.sheet.getD 0xFFFF) ++
        [c.pos.extractLsb' 24 8, c.pos.extractLsb' 16 8, c.pos.extractLsb' 8 8, c.pos.extractLsb' 0 8]) ∧
    pageBytes p 2 =
      wordBytes (p.clear.setWidth 16) ++ byteOf p.voided.length :: p.voided.flatMap (fun n => [byteOf n.bin.val, n.set]) ∧
    ∀ k, pageBytes p (k + 3) =
      byteOf ((p.dispositions.drop (8 * k)).take 8).length ::
        ((p.dispositions.drop (8 * k)).take 8).flatMap fun x => wordBytes x.1 ++ [x.2.code])

/-- A request is settled by the first of these: NOT READY in STARTING, UNKNOWN for a code of no command, RANGE for a wrong
argument length; none of them changes anything but the holding of the request (R178). The request served on the upper port is the
oldest one held, while fewer than 4 replies wait, and its reply joins the reply queue; on the service port it is the one in the
receive frame, which it occupies until its reply starts, and its reply takes the reply slot (R176, R178). The codes of a command
are those of R181, and the arguments have exactly its length; a table write with defined 0 need only reach the defined byte, and a
route with a visit count of 0 or above 16 has no length that is right (R178, R181). -/
def Obligations.RequestsAreSettledBeforeTheCommand : Prop :=
  (∀ (c : Instr) (port : MgmtPort) (isCode : Byte → Bool) (lengthOk : List Byte → Bool) (q : Request) (s : State),
    servedRow c = some (port, isCode, lengthOk) → nextRequest port s = some q → isCode q.code = true →
    (s.sup.state = .starting → exec c s = .next (answered port q .notReady [] (takeRequest port s))) ∧
    (s.sup.state ≠ .starting → c = .unknownCommand port →
      exec c s = .next (answered port q .unknown [] (takeRequest port s))) ∧
    (s.sup.state ≠ .starting → lengthOk q.args = false →
      exec c s = .next (answered port q .range [] (takeRequest port s)))) ∧
  (∀ (tag code : Byte) (args : List Byte) (rest : List (List Byte)) (s : State),
    let q : Request := { tag := tag, code := code, args := args }
    (s.link.holding = (tag :: code :: args) :: rest →
      takeRequest .upper s = { s with link.holding := rest } ∧
      (s.link.replies.length < 4 → nextRequest .upper s = some q)) ∧
    (4 ≤ s.link.replies.length ∨ s.link.holding = [] → nextRequest .upper s = none) ∧
    (s.svc.held = some { payload := tag :: code :: args, served := false } →
      takeRequest .service s = { s with svc.held := some { payload := tag :: code :: args, served := true } } ∧
      nextRequest .service s = some q) ∧
    (s.svc.held = none ∨ (∃ h, s.svc.held = some h ∧ h.served = true) → nextRequest .service s = none)) ∧
  (∀ (q : Request) (status : Status) (results : List Byte) (s : State),
    let r : Reply := { tag := q.tag, status := status, results := results }
    answered .upper q status results s = finish { s with link.replies := s.link.replies ++ [r] } ∧
    answered .service q status results s = finish { s with svc.reply := some r }) ∧
  knownCodes = [0x01, 0x02, 0x10, 0x11, 0x12, 0x13, 0x14, 0x15, 0x16, 0x20, 0x21, 0x22, 0x23, 0x24, 0x30, 0x31, 0x40, 0x41,
    0x42, 0x43, 0x50] ∧
  (∀ (n : Nat) (args : List Byte), exactly n args = true ↔ args.length = n) ∧
  (∀ (len : Nat) (args : List Byte), writeLengthOk len args = true ↔
    ∃ i d rest, args = i :: d :: rest ∧ (d = 0 ∨ args.length = len)) ∧
  (∀ args : List Byte, routeLengthOk args = true ↔
    ∃ i d rest, args = i :: d :: rest ∧
      (d = 0 ∨ ∃ count tail, rest = count :: tail ∧ (d = 1 → 1 ≤ count.toNat ∧ count.toNat ≤ 16) ∧
        args.length = 8 + 3 * count.toNat))

/-- An admitted table write stores the record its arguments give, clears the tables-checked flag, brings IDLE and STANDBY to
UNCONFIGURED, and answers the record as stored; out-of-range arguments change nothing (R10, R11, R12). A limit outside its range
is stored as its nearer end, a qualify time of 0 as 1, and defined 0 as the empty record; an index, zone, bin, cover, kind, anchor
or yes-or-no byte outside its range is refused (R7, R10). A cover guards the defined zones that name it (R3), and a pending change
whose new qualify time has already passed is accepted at the write (R12), its event behind those of the change to UNCONFIGURED
(log 19). -/
def Obligations.TableWritesStoreTheRecord : Prop :=
  (∀ (port : MgmtPort) (q : Request) (args : List Byte) (s : State),
    (s.sup.state = .unconfigured ∨
      ((s.sup.state = .idle ∨ s.sup.state = .standby) ∧ s.ret.entries = [] ∧ s.sets.records = [])) →
    let u := takeRequest port s
    let leave := fun v : State =>
      if s.sup.state = .idle ∨ s.sup.state = .standby then enterState .unconfigured v else v
    (Awaits port q 0x10 args s → writeLengthOk 4 args = true →
      (∀ i r, stationArgs args = some (i, r) →
        exec (.writeStation port) s = .next (answered port q .done (stationBytes i r) (acceptAtWrite i (leave { u with
          tables.stations := s.tables.stations.set i r
          tables.checked := false
          front.stations := s.front.stations.set i
            (if r.defined then
              (if (s.tables.stations[i]).defined then s.front.stations[i]
               else { s.front.stations[i] with qual := (s.front.stations[i]).raw, pending := none, sample := none })
             else { s.front.stations[i] with qual := false, pending := none, sample := none }) })))) ∧
      (stationArgs args = none → exec (.writeStation port) s = .next (answered port q .range [] u))) ∧
    (Awaits port q 0x11 args s → writeLengthOk 4 args = true →
      (∀ i r, zoneArgs args = some (i, r) →
        exec (.writeZone port) s = .next (answered port q .done (zoneBytes i r) (leave { u with
          tables.zones := s.tables.zones.set i r
          tables.guarded := guardedSets (s.tables.zones.set i r)
          tables.checked := false }))) ∧
      (zoneArgs args = none → exec (.writeZone port) s = .next (answered port q .range [] u))) ∧
    (Awaits port q 0x12 args s → writeLengthOk 4 args = true →
      (∀ i r, binArgs args = some (i, r) →
        exec (.writeBin port) s = .next (answered port q .done (binBytes i r) (leave { u with
          tables.bins := s.tables.bins.set i r
          tables.checked := false }))) ∧
      (binArgs args = none → exec (.writeBin port) s = .next (answered port q .range [] u))) ∧
    (Awaits port q 0x13 args s → routeLengthOk args = true →
      (∀ i r, routeArgs args = some (i, r) →
        exec (.writeRoute port) s = .next (answered port q .done (routeBytes i r) (leave { u with
          tables.routes := s.tables.routes.set i r
          tables.checked := false }))) ∧
      (routeArgs args = none → exec (.writeRoute port) s = .next (answered port q .range [] u))) ∧
    (Awaits port q 0x14 args s → args.length = 28 →
      ∃ l, limitsArgs args = some l ∧
        exec (.writeLimits port) s = .next (answered port q .done (limitsBytes l) (leave { u with
          tables.limits := l
          tables.checked := false })))) ∧
  (∀ (st : Station) (s : State),
    let x := s.front.stations[st]
    let wait := (s.tables.stations[st]).qualify * 1200
    (∀ c, x.pending = some c → wait ≤ s.pos.clock - c.time →
      acceptAtWrite st s = offerEvent (if c.toCovered then .on else .off) c.p (some st) none 0 { s with
        front.stations := s.front.stations.set st { x with qual := c.toCovered, pending := none, sample := none } }) ∧
    (x.pending = none ∨ (∃ c, x.pending = some c ∧ s.pos.clock - c.time < wait) → acceptAtWrite st s = s)) ∧
  (∀ (zones : Vector ZoneRec 12) (c : Cover) (z : Zone),
    ((guardedSets zones)[c]).getLsbD z.val = true ↔ (zones[z]).defined = true ∧ (zones[z]).cover = some c) ∧
  (∀ (st : Station) (z : Zone) (b : Bin) (r : RouteIx) (q : Byte) (rest : List Byte),
    stationArgs [byteOf st.val, 1, byteOf z.val, q] =
      some (st, { defined := true, zone := z, qualify := if q = 0 then 1 else q.toNat }) ∧
    stationArgs (byteOf st.val :: 0 :: rest) = some (st, { defined := false, zone := 0, qualify := 20 }) ∧
    zoneArgs (byteOf z.val :: 0 :: rest) = some (z, { defined := false, purgeable := false, cover := none }) ∧
    binArgs (byteOf b.val :: 0 :: rest) = some (b, { defined := false, kind := .stack, zone := 0 }) ∧
    routeArgs (byteOf r.val :: 0 :: rest) =
      some (r, { defined := false, visits := [], bin := 0, completeAfter := 0, divert := none })) ∧
  (∀ i d x y : Byte,
    (16 ≤ i.toNat ∨ 2 ≤ d.toNat ∨ (d = 1 ∧ 12 ≤ x.toNat) → stationArgs [i, d, x, y] = none) ∧
    (12 ≤ i.toNat ∨ 2 ≤ d.toNat ∨ (d = 1 ∧ (2 ≤ x.toNat ∨ (4 ≤ y.toNat ∧ y ≠ 0xFF))) → zoneArgs [i, d, x, y] = none) ∧
    (8 ≤ i.toNat ∨ 2 ≤ d.toNat ∨ (d = 1 ∧ (2 ≤ x.toNat ∨ 12 ≤ y.toNat)) → binArgs [i, d, x, y] = none)) ∧
  (∀ (i d n bin c present dv w : Byte) (visits : List Byte),
    32 ≤ i.toNat ∨ 2 ≤ d.toNat ∨ (d = 1 ∧ (8 ≤ bin.toNat ∨ 16 ≤ c.toNat ∨ 2 ≤ present.toNat ∨
      (present = 1 ∧ (16 ≤ dv.toNat ∨ 32 ≤ w.toNat)) ∨
      ∃ k f, visits[3 * k]? = some f ∧ f.extractLsb' 2 2 = 3)) →
    routeArgs (i :: d :: n :: bin :: c :: present :: dv :: w :: visits) = none) ∧
  (∀ eb lb sl tb sr ln lt se s0 s1 s2 sc sw al : Word,
    let within := fun (lo hi : Nat) (v : Word) => if v.toNat < lo then lo else if hi < v.toNat then hi else v.toNat
    limitsArgs ([eb, lb, sl, tb, sr, ln, lt, se, s0, s1, s2, sc, sw, al].flatMap wordBytes) = some
      { earlyBase := within 0 4095 eb, lateBase := within 0 4095 lb, slip := within 0 200 sl,
        trailBase := within 0 4095 tb, stretch := within 0 200 sr, lengthBase := within 0 4095 ln,
        lengthTol := within 0 200 lt, settleTime := within 50 1000 se, stall0 := within 1 255 s0,
        stall1 := within 1 255 s1, stall2 := within 1 255 s2, setConfirm := within 1 255 sc,
        speedWait := within 10 255 sw, attemptLimit := within 1 7 al })

/-- Whether a table write is admitted (R9). -/
def Obligations.TableWritesAreAdmittedByState : Prop :=
  ∀ (c : Instr) (port : MgmtPort) (isCode : Byte → Bool) (lengthOk : List Byte → Bool) (q : Request) (s : State),
    c = .writeStation port ∨ c = .writeZone port ∨ c = .writeBin port ∨ c = .writeRoute port ∨ c = .writeLimits port →
    servedRow c = some (port, isCode, lengthOk) → nextRequest port s = some q → isCode q.code = true →
    lengthOk q.args = true →
    (s.sup.state = .starting → exec c s = .next (answered port q .notReady [] (takeRequest port s))) ∧
    (s.sup.state = .running ∨ s.sup.state = .speedChange ∨ s.sup.state = .stopping ∨ s.sup.state = .awaitClear ∨
        s.sup.state = .purging ∨ s.sup.state = .held ∨
        ((s.sup.state = .idle ∨ s.sup.state = .standby) ∧ (s.ret.entries ≠ [] ∨ s.sets.records ≠ [])) →
      exec c s = .next (answered port q .busy [] (takeRequest port s))) ∧
    (s.sup.state = .unconfigured ∨
        ((s.sup.state = .idle ∨ s.sup.state = .standby) ∧ s.ret.entries = [] ∧ s.sets.records = []) →
      ∃ status results u, exec c s = .next (answered port q status results u) ∧
        ((status = .done ∧ u.sup.state = .unconfigured ∧ u.tables.checked = false) ∨
         (status = .range ∧ u = takeRequest port s)))

/-- CHECK TABLES validates the tables as they stand (R15). Validation reports the first fault it meets, in the order of stations,
bins, routes and NO ROUTE, and within a route in the order of its visits, c, bin and divert, each with its checks in the order of
R16. -/
def Obligations.CheckTablesValidates : Prop :=
  (∀ (port : MgmtPort) (q : Request) (s : State), Awaits port q 0x16 [] s →
    let u := takeRequest port s
    let free := s.ret.entries = [] ∧ s.sets.records = []
    (s.sup.state ≠ .unconfigured → ¬((s.sup.state = .idle ∨ s.sup.state = .standby) ∧ free) →
      exec (.checkTables port) s = .next (answered port q .busy [] u)) ∧
    (s.sup.state = .unconfigured ∨ ((s.sup.state = .idle ∨ s.sup.state = .standby) ∧ free) →
      (∀ f, validate s.tables = some f →
        exec (.checkTables port) s = .next (answered port q .tableFault (faultBytes f ++ [0]) u)) ∧
      (validate s.tables = none →
        (s.sup.state ≠ .unconfigured → exec (.checkTables port) s = .next (answered port q .done [1] u)) ∧
        (s.sup.state = .unconfigured → coveredStations s = [] →
          exec (.checkTables port) s =
            .next (answered port q .done [1] (enterState .idle { u with tables.checked := true }))) ∧
        (∀ st rest, s.sup.state = .unconfigured → coveredStations s = st :: rest →
          exec (.checkTables port) s =
            .next (answered port q .done [1] (foreignSheet st s.pos.p { u with tables.checked := true })))))) ∧
  (∀ t : Tables,
    let badStation := fun st : Station => (t.stations[st]).defined = true ∧
      (t.zones[(t.stations[st]).zone]).defined = false
    let badBin := fun b : Bin => (t.bins[b]).defined = true ∧ (t.zones[(t.bins[b]).zone]).defined = false
    let print := ∃ i : RouteIx, (t.routes[i]).defined = true ∧ (t.routes[i]).visits.head?.map (·.anchor) = some .pick
    (∀ st, badStation st → (∀ x, x < st → ¬badStation x) →
      validate t = some { table := some .station, index := some st.val, visit := none, fault := .stationZone }) ∧
    ((∀ st, ¬badStation st) →
      (∀ b, badBin b → (∀ x, x < b → ¬badBin x) →
        validate t = some { table := some .bin, index := some b.val, visit := none, fault := .binZone }) ∧
      ((∀ b, ¬badBin b) →
        (∀ i f, routeFault t i = some f → (∀ j, j < i → routeFault t j = none) → validate t = some f) ∧
        ((∀ i, routeFault t i = none) → print → validate t = none) ∧
        ((∀ i, routeFault t i = none) → ¬print →
          validate t = some { table := none, index := none, visit := none, fault := .noRoute })))) ∧
  (∀ (t : Tables) (i : RouteIx),
    let r := t.routes[i]
    let named := ∃ j : RouteIx, (t.routes[j]).defined = true ∧ (t.routes[j]).divert.map (·.w) = some i
    let fault := fun (visit : Option Nat) (code : FaultCode) =>
      some ({ table := some .route, index := some i.val, visit := visit, fault := code } : FaultRec)
    let fails := fun (k : Nat) (v : Visit) =>
      if (k = 0 ∧ v.anchor ≠ .pick ∧ ¬named) ∨ (0 < k ∧ v.anchor = .pick) then some FaultCode.visitAnchor
      else if (t.stations[v.station]).defined = false then some .visitStation
      else if 0 < k ∧ r.visits[k - 1]?.map (·.station) = some v.station then some .visitRepeat
      else none
    (r.defined = false → routeFault t i = none) ∧
    (r.defined = true →
      (∀ k v code, r.visits[k]? = some v → fails k v = some code →
        (∀ j x, j < k → r.visits[j]? = some x → fails j x = none) → routeFault t i = fault (some k) code) ∧
      ((∀ k v, r.visits[k]? = some v → fails k v = none) →
        routeFault t i =
          if r.visits.length ≤ r.completeAfter.val then fault none .completeIndex
          else if (t.bins[r.bin]).defined = false then fault none .routeBin
          else match r.divert with
            | none => none
            | some dv =>
              let w := t.routes[dv.w]
              if r.visits.length ≤ dv.d.val then fault none .divertIndex
              else if w.defined = false then fault none .wasteRoute
              else if (t.bins[w.bin]).defined = true ∧ (t.bins[w.bin]).kind ≠ .stack then fault none .wasteBin
              else if w.visits.head?.map (·.anchor) = some .pick then fault none .wasteAnchor
              else if w.visits ≠ [] ∧ w.visits.head?.map (·.station) = r.visits[dv.d.val]?.map (·.station) then
                fault (some dv.d.val) .visitRepeat
              else if r.visits.head?.map (·.anchor) ≠ some .pick then fault none .wasteDivert
              else none))) ∧
  (∀ s : State, coveredStations s = (List.finRange 16).filter fun st : Station =>
    (s.tables.stations[st]).defined && (s.front.stations[st]).qual)

/-- A record in the layout of its reply is read back as that record: WRITE takes what READ TABLE and its own reply give (R10,
R181), and an ORDER's 16 bytes give its fields (R177). The layouts of the records of READ TABLE, of the fault record and of the load
result are those of R181. The value sent for an absent back page (log 17) and an absent divert (log 26) is the model's. -/
def Obligations.RecordsReadBackAsWritten : Prop :=
  (∀ (i : Station) (r : StationRec), r.defined = true → 1 ≤ r.qualify → r.qualify ≤ 255 →
    stationArgs (stationBytes i r) = some (i, r)) ∧
  (∀ (i : Zone) (r : ZoneRec), r.defined = true → zoneArgs (zoneBytes i r) = some (i, r)) ∧
  (∀ (i : Bin) (r : BinRec), r.defined = true → binArgs (binBytes i r) = some (i, r)) ∧
  (∀ (i : RouteIx) (r : RouteRec), r.defined = true → routeArgs (routeBytes i r) = some (i, r)) ∧
  (∀ l : Limits, limitsOf (limitsValues l) = some l → limitsArgs (limitsBytes l) = some l) ∧
  (∀ e : Entry, orderBytes e = wordBytes e.order ++ wordBytes e.job ++ wordBytes e.sheetIndex ++ wordBytes e.front ++
    wordBytes e.back ++ [(if e.backPresent then 1 else 0) ||| (if e.setLast then 2 else 0), byteOf e.route.val] ++
    wordBytes e.length ++ [byteOf e.cls.val, match e.set with
      | some n => n
      | none => 0]) ∧
  (∀ e : Entry, e.set ≠ some 0 → ∃ o, decodeOrder (orderBytes e) = some o ∧ o.order = e.order ∧ o.job = e.job ∧
    o.sheetIndex = e.sheetIndex ∧ o.front = e.front ∧ o.back = e.back ∧ o.backPresent = e.backPresent ∧
    o.setLast = e.setLast ∧ o.route = byteOf e.route.val ∧ o.length = e.length ∧ o.cls = byteOf e.cls.val ∧
    o.setNumber = e.set) ∧
  (∀ (st : Station) (r : StationRec) (z : Zone) (zr : ZoneRec) (b : Bin) (br : BinRec) (i : RouteIx) (rr : RouteRec)
      (t : Tables) (f : FaultRec) (o : LoadOutcome) (w : Word),
    let bit := fun x : Bool => (if x then 1 else 0 : Byte)
    let index := fun x : Option Nat => match x with
      | some n => byteOf n
      | none => (0xFF : Byte)
    stationBytes st r = [byteOf st.val, bit r.defined, byteOf r.zone.val, byteOf r.qualify] ∧
    zoneBytes z zr = [byteOf z.val, bit zr.defined, bit zr.purgeable, finByte zr.cover] ∧
    binBytes b br = [byteOf b.val, bit br.defined, br.kind.code, byteOf br.zone.val] ∧
    routeBytes i rr =
      [byteOf i.val, bit rr.defined, byteOf rr.visits.length, byteOf rr.bin.val, byteOf rr.completeAfter.val,
       bit rr.divert.isSome, index (rr.divert.map fun d => d.d.val), index (rr.divert.map fun d => d.w.val)] ++
      rr.visits.flatMap (fun v =>
        byteOf (v.station.val * 16 + v.anchor.number * 4 + if v.check then 1 else 0) :: wordBytes v.distance) ∧
    limitsBytes t.limits = (limitsValues t.limits).flatMap (fun v => wordBytes (BitVec.ofNat 16 v)) ∧
    guardedBytes t = (List.finRange 4).flatMap (fun c : Cover => wordBytes ((t.guarded[c]).setWidth 16)) ∧
    faultBytes f = [FaultTable.code f.table, index f.index, index f.visit, f.fault.code] ∧
    loadResultBytes { outcome := o, length := none, fault := none } = [o.code, 0xFF, 0xFF, 0xFF, 0xFF, 0xFF, 0xFF] ∧
    loadResultBytes { outcome := o, length := some w, fault := none } =
      o.code :: wordBytes w ++ [0xFF, 0xFF, 0xFF, 0xFF] ∧
    loadResultBytes { outcome := o, length := some w, fault := some f } = o.code :: wordBytes w ++ faultBytes f)

/-- RESUME outside AWAIT CLEAR is answered STATE or STALE and changes no state (R122), but for RESUME 0 in HELD: every HELD
entry is QUEUED with attempt count 0, the part enters RUNNING, or IDLE when nothing is QUEUED, FORWARDED or tracked, and the
forwarder considers the queue (R138; the state byte of the reply is the model's reading, log 23). -/
def Obligations.ResumeOutsideAwaitClear : Prop :=
  (∀ (port : MgmtPort) (q : Request) (n : Byte) (s : State), Awaits port q 0x22 [n] s →
     let u := takeRequest port s
     let plain := s.sup.state = .unconfigured ∨ s.sup.state = .idle ∨ s.sup.state = .standby ∨ s.sup.state = .running ∨
       s.sup.state = .speedChange
     let current := ∃ p, s.plan.plan = some p ∧ p.isOpen = true ∧ p.number = n
     (plain → n = 0 → exec (.resume port) s = .next (answered port q .state [] u)) ∧
     (plain → n ≠ 0 → exec (.resume port) s = .next (answered port q .stale [] u)) ∧
     (s.sup.state = .stopping ∨ s.sup.state = .purging → current →
       exec (.resume port) s = .next (answered port q .state [] u)) ∧
     (s.sup.state = .stopping ∨ s.sup.state = .purging → ¬current →
       exec (.resume port) s = .next (answered port q .stale [] u)) ∧
     (s.sup.state = .held → n ≠ 0 → exec (.resume port) s = .next (answered port q .stale [] u))) ∧
  (∀ (port : MgmtPort) (q : Request) (s : State), Awaits port q 0x22 [0] s → s.sup.state = .held →
     let entries := s.ret.entries.map fun e => if e.state = .held then { e with state := .queued, attempt := 0 } else e
     let v := { takeRequest port s with ret.entries := entries }
     ((∀ e ∈ entries, e.state ≠ .queued ∧ e.state ≠ .forwarded) → trackingEmpty s = true →
       exec (.resume port) s = .next (answered port q .done [2] (forwarderPass (enterState .idle v)))) ∧
     ((∃ e ∈ entries, e.state = .queued ∨ e.state = .forwarded) ∨ trackingEmpty s = false →
       exec (.resume port) s = .next (answered port q .done [3] (forwarderPass (enterState .running v)))))

/-- RESUME in AWAIT CLEAR: the three checks in order, then acceptance: RUN is requested; with tracked sheets the drive-out begins
with its PURGE RUN frames, every expectation and watch moved on by the clear travel and unspent, with VOIDED sets alone the void
phase begins with their SET VOID frames, else replay is taken. PURGING is entered with its STATE notice, and the deferred causes
are settled after it; the clauses that read off what PURGING is take an empty deferred list (R79, R96, R123, R125, R127, R130).
The reply carries the state that the RESUME leads to, which a deferred cause or a drain that follows at once may change (log 23),
and the deferred causes are taken ahead of a watch reached at once (log 34). PURGE RUN carries the disposition of every tracked
sheet of the queue in ascending order number from H, in one frame up to 16 items and in two beyond (R127); that the first of two
carries 16 is the model's choice (log 36). -/
def Obligations.ResumeInAwaitClearIsChecked : Prop :=
  (∀ (port : MgmtPort) (q : Request) (n : Byte) (s : State), Awaits port q 0x22 [n] s → s.sup.state = .awaitClear →
    let u := takeRequest port s
    let covered := fun (p : PlanRec) (st : Station) => (s.tables.stations[st]).defined = true ∧
      (s.front.stations[st]).qual = true ∧ p.clear.getLsbD (s.tables.stations[st]).zone.val = true
    ((∀ p, s.plan.plan = some p → p.isOpen = true → p.number ≠ n) →
      exec (.resume port) s = .next (answered port q .stale [] u)) ∧
    (∀ p, s.plan.plan = some p → p.isOpen = true → p.number = n →
      ((∃ c : Cover, (s.front.covers[c]).closed = false) →
        ∃ bits : Byte, (∀ c : Cover, bits.getLsbD c.val = !(s.front.covers[c]).closed) ∧
          (∀ k : Nat, 4 ≤ k → bits.getLsbD k = false) ∧
          exec (.resume port) s = .next (answered port q .coverOpen [bits] u)) ∧
      ((∀ c : Cover, (s.front.covers[c]).closed = true) → (∃ st, covered p st) →
        let sts := (List.finRange 16).filter fun st => decide (covered p st)
        exec (.resume port) s =
          .next (answered port q .notClear (byteOf sts.length :: sts.map fun st => byteOf st.val) u)) ∧
      ((∀ c : Cover, (s.front.covers[c]).closed = true) → (∀ st, ¬covered p st) →
        let accepted := fun (state : Byte) (t : State) =>
          exec (.resume port) s = .next (answered port q .done [state] t)
        let purging := fun (frames : List PathControl) (purge : Purge) (lists : Vector (List Expectation) 16)
            (slots : Vector (Option Occupant) 16) => settleDeferred (enterState .purging { u with
          link.pathControl := s.link.pathControl ++ .run :: frames
          sup.purge := some purge
          trk.lists := lists
          trk.slots := slots })
        let returned : List Entry := s.ret.entries.map fun e =>
          { e with
            mark := none
            state := if e.state = .reprint then
                (if e.attempt + 1 ≤ s.tables.limits.attemptLimit then .queued else .held)
              else e.state }
        let replayed := replay { u with link.pathControl := s.link.pathControl ++ [.run] }
        (∃ state t, accepted state t) ∧
        (trackingEmpty s = false → ∀ p0, s.trk.notedP = some p0 →
          let travel := s.pos.p - p0
          accepted 7 (purging (purgeFrames (purgeItems s)) { phase := .driveOut, outstanding := [] }
            (s.trk.lists.map fun l => l.map fun x =>
              { x with e := x.e + travel, early := x.early + travel, late := x.late + travel, spent := false })
            (s.trk.slots.map fun y => y.map fun o =>
              { o with offLate := o.offLate + travel, check := false, spent := false }))) ∧
        (trackingEmpty s = true → s.sets.voidOrder ≠ [] →
          accepted 7 (purging (s.sets.voidOrder.map .setVoid) { phase := .voidWait, outstanding := s.sets.voidOrder }
            s.trk.lists s.trk.slots)) ∧
        (trackingEmpty s = true → s.sets.voidOrder = [] →
          (∀ e, returned.find? (fun e => e.state = .queued || e.state = .held) = some e →
            (e.state = .queued → accepted 3 replayed) ∧ (e.state = .held → accepted 8 replayed)) ∧
          ((∀ e ∈ returned, e.state ≠ .queued ∧ e.state ≠ .held) → accepted 2 replayed)) ∧
        (trackingEmpty s = false → s.jam.deferred = [] → ∃ t, exec (.resume port) s = .next t ∧
          t.sup.state = .purging ∧ t.sup.pathHalt = false ∧
          t.sup.purge = some { phase := .driveOut, outstanding := [] } ∧
          controlHeld t = controlHeld s ++ .run :: purgeFrames (purgeItems s) ∧
          t.trk.table = s.trk.table ∧
          ∀ p0, s.trk.notedP = some p0 →
            let travel := s.pos.p - p0
            ∀ st : Station,
              t.trk.lists[st] = (s.trk.lists[st]).map (fun x =>
                { x with e := x.e + travel, early := x.early + travel, late := x.late + travel, spent := false }) ∧
              t.trk.slots[st] = (s.trk.slots[st]).map (fun o =>
                { o with offLate := o.offLate + travel, check := false, spent := false })) ∧
        (trackingEmpty s = true → s.sets.voidOrder ≠ [] → s.jam.deferred = [] →
          ∃ t, exec (.resume port) s = .next t ∧ t.sup.state = .purging ∧ t.sup.pathHalt = false ∧
            t.sup.purge = some { phase := .voidWait, outstanding := s.sets.voidOrder } ∧
            controlHeld t = controlHeld s ++ .run :: s.sets.voidOrder.map .setVoid)))) ∧
  (∀ s : State,
    purgeItems s = s.ret.entries.filterMap (fun e =>
      if e.state = .inFlight then
        match e.tag with
        | some tag => (s.trk.table[tag]).bind fun r => r.disp.map fun m => (e.order, m)
        | none => none
      else none) ∧
    (∀ h, RetentionInv s → s.ret.h = some h →
      (purgeItems s).Pairwise fun a b => (a.1 - h).toNat < (b.1 - h).toNat)) ∧
  (∀ items : List (OrderNo × Mark),
    (items.length ≤ 16 → purgeFrames items = [.purgeRun 1 1 items]) ∧
    (16 < items.length → purgeFrames items = [.purgeRun 1 2 (items.take 16), .purgeRun 2 2 (items.drop 16)]))

/-- Replay returns every REPRINT entry to QUEUED, or to HELD where its next attempt would pass the limit, and closes the plan with
its marks before the state is chosen from the lowest entry that is QUEUED or HELD, HELD with reason ATTEMPTS and the HELD notice
ahead of the STATE notice; of the sets, a cancelled one that has a REPRINT member is rebuilt from then on (R148; log 39, log 41),
and nothing else changes with the entries and the plan. The deferred causes whose set is still OPEN or COMPLETE-AWAITING are then
taken in their order (R96, R102, R133, R135). The reports of an edge are taken in their order; the drive-out ends when nothing is
tracked, with the void phase, which queues SET VOID for every VOIDED set, or with replay where there is none (R84, R130). That the
reports are taken before the forwarder considers the queue in the same step is the model's choice (log 11). -/
def Obligations.ReplayReturnsEntriesAndClosesThePlan : Prop :=
  (∀ s : State,
    replay s = forwarderPass (settleDeferred (enterChosen (returnEntries s))) ∧
    (returnEntries s).ret.entries = s.ret.entries.map (fun e =>
      { e with
        mark := none
        state := if e.state = .reprint then
            (if e.attempt + 1 ≤ s.tables.limits.attemptLimit then .queued else .held)
          else e.state }) ∧
    returnEntries s = { s with
      ret.entries := (returnEntries s).ret.entries
      sets.records := s.sets.records.map fun r => { r with
        rebuilt := r.rebuilt || (r.cancelled &&
          s.ret.entries.any fun e => decide (e.state = .reprint) && memberOf s.tables r e) }
      plan.plan := s.plan.plan.map fun p => { p with isOpen := false }
      trk.table := (returnEntries s).trk.table } ∧
    (∀ tag : Tag, (returnEntries s).trk.table[tag] = (s.trk.table[tag]).map fun r => { r with disp := none }) ∧
    (∀ e, s.ret.entries.find? (fun e => e.state = .queued || e.state = .held) = some e →
      (e.state = .queued → enterChosen s = enterState .running s) ∧
      (e.state = .held → enterChosen s = enterState .held { makeNotice (.held e.order .attempts) s with
        sup := { s.sup with heldReason := some .attempts } })) ∧
    ((∀ e ∈ s.ret.entries, e.state ≠ .queued ∧ e.state ≠ .held) → enterChosen s = enterState .idle s)) ∧
  (∀ s : State, settleDeferred s = s.jam.deferred.foldl
    (fun v c => match c.set.bind (findSet v) with
      | some r => if r.state = .opened ∨ r.state = .completeAwaiting then takeCause c v else v
      | none => v) { s with jam.deferred := [] }) ∧
  (∀ s : State,
    let driveOut := s.sup.state = .purging ∧ (∃ p, s.sup.purge = some p ∧ p.phase = .driveOut) ∧ trackingEmpty s = true
    (∀ r rest, afterTracking (s, r :: rest) = afterTracking (takeCause
      { kind := r.kind, station := some r.station, cover := none, set := none,
        zones := zoneBit (s.tables.stations[r.station]).zone, sheet := r.sheet, pos := r.pos } s, rest)) ∧
    (¬driveOut → afterTracking (s, []) = forwarderPass s) ∧
    (driveOut → s.sets.voidOrder = [] → afterTracking (s, []) = replay s) ∧
    (driveOut → s.sets.voidOrder ≠ [] → afterTracking (s, []) = { s with
      link.pathControl := s.link.pathControl ++ s.sets.voidOrder.map .setVoid
      sup.purge := some { phase := .voidWait, outstanding := s.sets.voidOrder } }))

/-- STANDBY is taken in IDLE with no entry QUEUED, WAKE in STANDBY (R163, R164). A change of part state drives PATH HALT and
EMIT, makes the STATE notice, and leaves the orders, the tracker's records, the sets and the levels as they are (R28, R150,
R151). Entry into STANDBY drops every pending change and begins the sampling with no first differing sample; leaving it drops every
first differing sample, and a defined station whose raw level differs from its qualified level starts a pending change (R29). The
stall timer starts at the entry into a state that measures it (R23), the settle watch at the entry into STOPPING (R22), and P is noted
at the entry into AWAIT CLEAR (R79). Entering the state that the part holds is no change (R150). The STATE event precedes the STATE
notice (log 19), and the reports of the moment of a declaration are kept in STOPPING alone (log 35). -/
def Obligations.StandbyAndWakeChangeTheState : Prop :=
  (∀ (port : MgmtPort) (q : Request) (s : State),
     let u := takeRequest port s
     (Awaits port q 0x30 [] s →
       (s.sup.state = .idle → (∀ e ∈ s.ret.entries, e.state ≠ .queued) →
         exec (.standby port) s = .next (answered port q .done [] (enterState .standby u))) ∧
       (s.sup.state = .idle → (∃ e ∈ s.ret.entries, e.state = .queued) →
         exec (.standby port) s = .next (answered port q .busy [] u)) ∧
       (s.sup.state ≠ .idle → exec (.standby port) s = .next (answered port q .state [] u))) ∧
     (Awaits port q 0x31 [] s →
       (s.sup.state = .standby → exec (.wake port) s = .next (answered port q .done [] (enterState .idle u))) ∧
       (s.sup.state ≠ .standby → exec (.wake port) s = .next (answered port q .state [] u)))) ∧
  (∀ (st : PartState) (s : State), s.sup.state ≠ st →
    let t := enterState st s
    t.sup.state = st ∧ (t.sup.pathHalt = true ↔ st = .starting ∨ st = .stopping ∨ st = .awaitClear) ∧
    (st = .standby → t.front.emit = false ∧ t.front.emitFrom = s.pos.clock ∧
      ∀ i : Station, t.front.stations[i] = { s.front.stations[i] with pending := none, sample := none }) ∧
    (s.sup.state = .standby → t.front.emit = true ∧
      ∀ i : Station, t.front.stations[i] = { s.front.stations[i] with
        sample := none
        pending := if (s.tables.stations[i]).defined = true ∧ (s.front.stations[i]).raw ≠ (s.front.stations[i]).qual
          then some { toCovered := (s.front.stations[i]).raw, p := s.pos.p, time := s.pos.clock } else none }) ∧
    (s.sup.state ≠ .standby → st ≠ .standby → t.front = s.front) ∧
    (∀ i : Station, (t.front.stations[i]).raw = (s.front.stations[i]).raw ∧
      (t.front.stations[i]).qual = (s.front.stations[i]).qual) ∧
    t.tables = s.tables ∧ t.pos.p = s.pos.p ∧ t.front.covers = s.front.covers ∧ t.ret = s.ret ∧ t.fwd = s.fwd ∧
    t.trk.table = s.trk.table ∧ t.trk.lists = s.trk.lists ∧ t.trk.slots = s.trk.slots ∧ t.jam = s.jam ∧
    t.plan = s.plan ∧ t.sets = s.sets ∧ t.link.pathControl = s.link.pathControl ∧ t.link.replies = s.link.replies ∧
    (t.pos.stallTimer = if (st = .running ∨ st = .speedChange ∨ st = .purging ∨ st = .held) ∧ s.pos.trunQual = true ∧
      (∃ tag : Tag, s.trk.table[tag] ≠ none) then .running s.pos.clock else .stopped) ∧
    (t.sup.heldReason = if st = .held then s.sup.heldReason else none) ∧
    (t.sup.purge = if st = .purging then s.sup.purge else none) ∧
    (t.pos.settleFrom = if st = .stopping then some s.pos.clock else none) ∧
    (t.trk.notedP = if st = .awaitClear then some s.pos.p else s.trk.notedP) ∧
    t.sup.resetCause = s.sup.resetCause ∧ t.reached = (if st = .stopping then s.reached else .nothing) ∧
    (∃ v, t = makeNotice (.state st t.sup.heldReason) (offerEvent .state s.pos.p none none st.code v) ∧
      v.link = s.link ∧ v.svc = s.svc ∧ v.cap = s.cap ∧ v.pos.msCount = s.pos.msCount) ∧
    (s.cap.state ≠ .running → s.link.notices.length < 48 →
      t.link.notices = s.link.notices ++ [.state st t.sup.heldReason])) ∧
  (∀ s : State, enterState s.sup.state s = s)

/-- CLAIM and RELEASE by owner, requester and force (R191). The mode and mask that a claimed or released capture keeps are the
model's (log 18). -/
def Obligations.CaptureIsClaimedAndReleased : Prop :=
  ∀ (port : MgmtPort) (q : Request) (s : State),
    let u := takeRequest port s
    let me : Owner := match port with
      | .upper => .controller
      | .service => .service
    let given := fun o : Owner => { u with
      cap := { s.cap with owner := o, state := .disarmed, post := none, buffer := [] }
      svc.claim := decide (o = .service) }
    (∀ force, Awaits port q 0x40 [force] s →
      (2 ≤ force.toNat ∨ (force = 1 ∧ port = .upper) →
        exec (.claimCapture port) s = .next (answered port q .range [] u)) ∧
      (force = 0 ∨ (force = 1 ∧ port = .service) → s.cap.owner = me →
        exec (.claimCapture port) s = .next (answered port q .done [me.code] u)) ∧
      (force = 0 ∨ (force = 1 ∧ port = .service) → s.cap.owner = .free →
        exec (.claimCapture port) s = .next (answered port q .done [me.code] (given me))) ∧
      (force = 0 → s.cap.owner ≠ .free → s.cap.owner ≠ me →
        exec (.claimCapture port) s = .next (answered port q .owned [] u)) ∧
      (force = 1 → port = .service → s.cap.owner = .controller →
        exec (.claimCapture port) s =
          .next (answered port q .done [2] (makeNotice .captureLost (given .service))))) ∧
    (Awaits port q 0x41 [] s →
      (s.cap.owner = me → exec (.releaseCapture port) s = .next (answered port q .done [] (given .free))) ∧
      (s.cap.owner ≠ me → exec (.releaseCapture port) s = .next (answered port q .notOwner [] u)))

/-- ARM and READ CAPTURE from the owner (R190, R191, R192). The model's choices: bits of the mask above the ten kinds name no kind
(log 18), and an order number that is absent from a record is sent as 0xFF in both its bytes (R181; log 37). A record takes 12
bytes: kind, P and millisecond stamps, station, a flag for the order number, the order number and the detail (R192). A RUNNING
capture records an event whose kind is in its mask: in COUNT mode it stops at its count; in TRIGGER mode it keeps the last 512
records, an event of its kind starts the post count, and it stops when that reaches 0. CAPTURE DONE goes to the service port while
the service claim flag is set, else to the upper port (R189, R190). -/
def Obligations.CaptureIsArmedAndRead : Prop :=
  (∀ (port : MgmtPort) (q : Request) (s : State),
    let u := takeRequest port s
    let me : Owner := match port with
      | .upper => .controller
      | .service => .service
    (∀ mode c1 c0 kind m1 m0, Awaits port q 0x42 [mode, c1, c0, kind, m1, m0] s →
      let count := (wordOf c1 c0).toNat
      let mask : EventMask := (wordOf m1 m0).setWidth 10
      let armedWith := fun m : CaptureMode => { u with
        cap := { s.cap with state := .running, mode := m, mask := mask, post := none, buffer := [] } }
      (s.cap.owner ≠ me → exec (.armCapture port) s = .next (answered port q .notOwner [] u)) ∧
      (s.cap.owner = me →
        (mode = 0 → 1 ≤ count → count ≤ 512 → mask ≠ 0 →
          exec (.armCapture port) s = .next (answered port q .done [] (armedWith (.count count)))) ∧
        (∀ k : EventKind, mode = 1 → count ≤ 511 → kind = byteOf k.number → mask.getLsbD k.number = true →
          exec (.armCapture port) s = .next (answered port q .done [] (armedWith (.trigger k count)))) ∧
        (2 ≤ mode.toNat ∨ mask = 0 ∨ (mode = 0 ∧ (count = 0 ∨ 512 < count)) ∨
            (mode = 1 ∧ (511 < count ∨ 9 < kind.toNat ∨ mask.getLsbD kind.toNat = false)) →
          exec (.armCapture port) s = .next (answered port q .range [] u)))) ∧
    (∀ hi lo, Awaits port q 0x43 [hi, lo] s →
      let start := wordOf hi lo
      (s.cap.owner ≠ me → exec (.readCapture port) s = .next (answered port q .notOwner [] u)) ∧
      (s.cap.owner = me → s.cap.state = .running →
        exec (.readCapture port) s = .next (answered port q .busy [] u)) ∧
      (s.cap.owner = me → s.cap.state ≠ .running →
        (s.cap.buffer.length ≤ start.toNat → s.cap.buffer ≠ [] ∨ start ≠ 0 →
          exec (.readCapture port) s = .next (answered port q .range [] u)) ∧
        (start.toNat < s.cap.buffer.length ∨ (s.cap.buffer = [] ∧ start = 0) →
          exec (.readCapture port) s = .next (answered port q .done
            (wordBytes (BitVec.ofNat 16 s.cap.buffer.length) ++ wordBytes start ++
              byteOf ((s.cap.buffer.drop start.toNat).take 4).length ::
              recordsBytes ((s.cap.buffer.drop start.toNat).take 4)) u))))) ∧
  (∀ rs : List TraceRec,
    recordsBytes rs = rs.flatMap fun r =>
      [byteOf r.kind.number, r.p.extractLsb' 24 8, r.p.extractLsb' 16 8, r.p.extractLsb' 8 8, r.p.extractLsb' 0 8] ++
      wordBytes r.ms ++ [finByte r.station, if r.order.isSome then 1 else 0] ++ wordBytes (r.order.getD 0xFFFF) ++
      [r.detail]) ∧
  (∀ (k : EventKind) (p : Pos) (st : Option Station) (order : Option OrderNo) (detail : Byte) (s : State),
    let r : TraceRec := { kind := k, p := p, ms := s.pos.msCount, station := st, order := order, detail := detail }
    let t := offerEvent k p st order detail s
    let finished := fun c : Capture =>
      let done : Notice := .captureDone c.buffer.length
      let u : State := { s with cap := { c with state := .stopped } }
      if s.svc.claim then makeServiceNotice done u else makeNotice done u
    (s.cap.state ≠ .running ∨ s.cap.mask.getLsbD k.number = false → t = s) ∧
    (s.cap.state = .running → s.cap.mask.getLsbD k.number = true →
      (∀ n, s.cap.mode = .count n →
        let c := { s.cap with buffer := s.cap.buffer ++ [r] }
        (s.cap.buffer.length + 1 < n → t = { s with cap := c }) ∧
        (n ≤ s.cap.buffer.length + 1 → t = finished c)) ∧
      (∀ kind count, s.cap.mode = .trigger kind count →
        let kept := if 512 ≤ s.cap.buffer.length then s.cap.buffer.drop 1 else s.cap.buffer
        let post := match s.cap.post with
          | none => if k = kind then some count else none
          | some m => some (m - 1)
        let c := { s.cap with buffer := kept ++ [r], post := post }
        (post ≠ some 0 → t = { s with cap := c }) ∧ (post = some 0 → t = finished c))))

/-- RESET PART is the link reset from the upper port and refused STATE from the service port. The link reset discards the job
state, requests HALT, makes the open CREDIT, keeps the tables, P, F and the plan counter, keeps the command queue with its
barriers releasable, the upper holding and the frames of the engine, withdraws RUN, PURGE RUN and SPEED CHANGE as at a declaration
and keeps SET VOID (haltFrames, which CausesStopThePartOrJoin gives), keeps the qualified levels, and continuous qualification
resumes in a part that leaves STANDBY; it frees a CONTROLLER capture and keeps a SERVICE one, and leads to UNCONFIGURED, STOPPING
with a PATH LOST cause that holds every defined zone, IDLE, or AWAIT CLEAR with the empty plan of the lowest-numbered covered
station, with the notices of that state (R29, R46, R56, R80, R82, R86, R95, R114, R119, R149, R156, R157, R165, R171, R187, R193).
The model's choices: the mode and mask that the freed capture keeps (log 18), the order of the frames that wait beside the HALT
(log 10), the free words of absent fields (log 14), that no report of the moment of a declaration is left (log 35), and that a
CONTROLLER capture is freed ahead of the events of the same reset, which it does not record (log 19). -/
def Obligations.ResetPartDiscardsTheJobState : Prop :=
  ∀ (q : Request) (s : State),
    (Awaits .service q 0x50 [] s →
      exec (.resetPart .service) s = .next (answered .service q .state [] (takeRequest .service s))) ∧
    (Awaits .upper q 0x50 [] s → ∃ t, exec (.resetPart .upper) s = .next t ∧
      repliesHeld .upper t = repliesHeld .upper s ++
        [{ tag := q.tag, status := .done, results := [t.sup.state.code] }] ∧
      creditHeld t = some { limit := 31, oldest := 0, isOpen := true } ∧ .halt ∈ controlHeld t ∧
      controlHeld t = (match s.link.lowerTx with
        | some (.pathControl f) => [f]
        | _ => []) ++ haltFrames s.link.pathControl ∧
      t.sup.resetCause = .link ∧ t.sup.heldReason = none ∧ t.sup.purge = none ∧ t.sup.speedWait = none ∧
      t.ret = { entries := [], expected := none, receiving := none } ∧ t.sets = { records := [], voidOrder := [] } ∧
      (∀ tag : Tag, t.trk.table[tag] = none) ∧ (∀ st : Station, t.trk.lists[st] = [] ∧ t.trk.slots[st] = none) ∧
      t.jam.deferred = [] ∧ t.fwd.request = none ∧ t.fwd.f = s.fwd.f ∧ t.fwd.limit = s.fwd.f ∧
      t.fwd.windowHold = true ∧ t.fwd.speed = s.fwd.speed ∧ t.tables = s.tables ∧ t.pos.p = s.pos.p ∧
      t.front.covers = s.front.covers ∧ t.reached = .nothing ∧ t.link.linkStarted = s.link.linkStarted ∧
      t.link.rxUpper = s.link.rxUpper ∧ t.link.rxLower = s.link.rxLower ∧
      (∀ st : Station, (t.front.stations[st]).raw = (s.front.stations[st]).raw ∧
        (t.front.stations[st]).qual = (s.front.stations[st]).qual) ∧
      (s.sup.state ≠ .standby → t.front = s.front) ∧ (s.sup.state = .standby → t.front.emit = true) ∧
      coveredStations s = (List.finRange 16).filter (fun st =>
        decide ((s.tables.stations[st]).defined = true ∧ (s.front.stations[st]).qual = true)) ∧
      (s.tables.checked = false → t.sup.state = .unconfigured ∧ t.plan = { plan := none, counter := s.plan.counter }) ∧
      (s.tables.checked = true → trackingEmpty s = false →
        t.sup.state = .stopping ∧
        (∃ zones : ZoneSet, (∀ z : Zone, zones.getLsbD z.val = (s.tables.zones[z]).defined) ∧
          t.jam.causes = [{ kind := .pathLost, station := none, cover := none, set := none, zones := zones,
                            sheet := none, pos := s.pos.p }] ∧ t.jam.more = false) ∧
        t.plan = { plan := none, counter := s.plan.counter } ∧ t.pos.settleFrom = some s.pos.clock) ∧
      (s.tables.checked = true → trackingEmpty s = true → coveredStations s = [] →
        t.sup.state = .idle ∧ t.plan = { plan := none, counter := s.plan.counter }) ∧
      (s.tables.checked = true → trackingEmpty s = true → coveredStations s ≠ [] → t.sup.state = .awaitClear) ∧
      (∀ st rest, s.tables.checked = true → trackingEmpty s = true → coveredStations s = st :: rest →
        let number := if s.plan.counter = 255 then 1 else s.plan.counter + 1
        t.plan = {
          plan := some {
            number := number, kind := .foreign, isOpen := true
            causes := [{ kind := .unexpected, station := some st, cover := none, set := none,
                         zones := zoneBit (s.tables.stations[st]).zone, sheet := none, pos := s.pos.p }]
            more := false, pos := s.pos.p, clear := zonesOf s.tables (coveredStations s), dispositions := []
            voided := [], resume := none, reprint := 0 }
          counter := number }) ∧
      (trackingEmpty s = true ∨ s.tables.checked = false → t.jam.causes = [] ∧ t.jam.more = false) ∧
      t.link.commands = s.link.commands.map (fun c => { c with mark := c.mark.map fun _ => [] }) ∧
      t.link.holding = s.link.holding.tail ∧ reportsHeld t = reportsHeld s ∧ t.link.forwarded = [] ∧
      (s.cap.owner = .controller →
        t.cap = { s.cap with owner := .free, state := .disarmed, post := none, buffer := [] }) ∧
      (s.cap.owner ≠ .controller → t.cap.owner = s.cap.owner ∧ t.cap.mode = s.cap.mode ∧ t.cap.mask = s.cap.mask ∧
        (s.cap.state ≠ .running → t.cap = s.cap)) ∧
      (s.cap.state ≠ .running ∨ s.cap.owner = .controller →
        s.link.lossCount = 0 → s.link.notices.length + 3 ≤ 48 →
        let entered := fun st : PartState => if s.sup.state = st then ([] : List Notice) else [.state st none]
        (s.tables.checked = false → noticesHeld t = noticesHeld s ++ entered .unconfigured) ∧
        (s.tables.checked = true → trackingEmpty s = false → ∃ c, t.jam.causes = [c] ∧
          noticesHeld t = noticesHeld s ++ .jam .declared 1 c (Config.absentWord s.free) :: entered .stopping) ∧
        (s.tables.checked = true → trackingEmpty s = true → coveredStations s = [] →
          noticesHeld t = noticesHeld s ++ entered .idle) ∧
        (∀ st rest, s.tables.checked = true → trackingEmpty s = true → coveredStations s = st :: rest →
          let summary : PlanSummary :=
            { number := t.plan.counter, kind := .foreign, causeCount := 1, more := false,
              clear := zonesOf s.tables (coveredStations s), resume := none, filler := Config.absentWord s.free,
              reprint := 0, unpicked := 0, lost := 0, salvage := 0, wasteDivert := 0, wasteAtDest := 0, voidedCount := 0 }
          noticesHeld t = noticesHeld s ++ .foreignSheet st :: .plan summary :: entered .awaitClear)))

/-! ### Pins and sensing -/

/-- P steps by one on each pulse, in every state, and wraps; a power-on or pin reset sets it to 0; nothing else changes it
(R19). -/
def Obligations.PulsesStepThePathPosition : Prop :=
  (∀ s : State, ∃ t, exec .encoderPulse s = .next t ∧ t.pos.p = s.pos.p + 1 ∧
    (s.pos.p = 4294967295 → t.pos.p = 0)) ∧
  (∀ s t : State, exec .powerOnReset s = .next t ∨ exec .pinReset s = .next t →
    t.pos.p = 0) ∧
  (∀ (c : Instr) (s t : State), c ≠ .encoderPulse → c ≠ .powerOnReset → c ≠ .pinReset →
    exec c s = .next t → t.pos.p = s.pos.p) ∧
  (∀ s t : State, s.pending = [] → step s = .next t → t.pos.p = s.pos.p)

/-- A pulse also starts the quiet time and a measured stall timer again, and changes nothing else (R21, R23). TRUN: a raw change
begins or drops a pending change, which is accepted after 1 ms (R24). The stall timer is measured in RUNNING, SPEED CHANGE,
PURGING and HELD with TRUN high and a sheet tracked: it is stopped where one of these fails, starts where they come to hold, and
starts again at a pulse, a change of TRUN or of the part state, and the first tracked sheet (R23). That a pulse after the limit
has run out still starts the stall timer again, and that a raw change back after the 1 ms still drops the pending change, is the
model's choice (log 5). -/
def Obligations.PulseAndTransportRunDriveTheTimers : Prop :=
  (∀ s : State,
     exec .encoderPulse s = .next (finish { s with
       pos := { s.pos with
         p := s.pos.p + 1
         lastPulse := s.pos.clock
         stallTimer :=
           if (s.sup.state = .running ∨ s.sup.state = .speedChange ∨ s.sup.state = .purging ∨ s.sup.state = .held) ∧
               s.pos.trunQual = true ∧ (∃ tag : Tag, s.trk.table[tag] ≠ none)
             then .running s.pos.clock else .stopped } })) ∧
  (∀ s : State,
     (s.pos.trunRaw = s.pos.trunQual → s.pos.trunPending = none →
       exec .trunRawChange s = .next (finish { s with
         pos.trunRaw := !s.pos.trunRaw
         pos.trunPending := some s.pos.clock })) ∧
     (s.pos.trunRaw ≠ s.pos.trunQual →
       exec .trunRawChange s = .next (finish { s with pos.trunRaw := !s.pos.trunRaw, pos.trunPending := none })) ∧
     (∀ since, s.pos.trunPending = some since → since + 24000 ≤ s.pos.clock →
       exec .trunQualified s = .next (finish (syncStall true { s with
         pos.trunQual := s.pos.trunRaw
         pos.trunPending := none })))) ∧
  (∀ (moment : Bool) (s : State),
     let measured := (s.sup.state = .running ∨ s.sup.state = .speedChange ∨ s.sup.state = .purging ∨ s.sup.state = .held) ∧
       s.pos.trunQual = true ∧ ∃ tag : Tag, s.trk.table[tag] ≠ none
     (¬measured → syncStall moment s = { s with pos.stallTimer := .stopped }) ∧
     (measured → moment = true ∨ s.pos.stallTimer = .stopped →
       syncStall moment s = { s with pos.stallTimer := .running s.pos.clock }) ∧
     (measured → moment = false → s.pos.stallTimer ≠ .stopped → syncStall moment s = s))

/-- A raw change of a station: in STANDBY or undefined the raw level alone; else it begins a pending change that notes P and the
time, or drops the pending one, which settles an expiry it deferred (R26, R28, R77). That a raw change back after the qualify time
has passed still drops the pending change is the model's choice (log 5), and so is what is due then in STOPPING (log 35). -/
def Obligations.StationChangeBeginsOrDrops : Prop :=
  ∀ (st : Station) (s : State),
    let x := s.front.stations[st]
    let sensed := fun y : StationSense => { s with front.stations := s.front.stations.set st y }
    ((s.tables.stations[st]).defined = false ∨ s.sup.state = .standby →
      exec (.stationRawChange st) s = .next (finish (sensed { x with raw := !x.raw }))) ∧
    ((s.tables.stations[st]).defined = true → s.sup.state ≠ .standby →
      (x.raw = x.qual → x.pending = none →
        exec (.stationRawChange st) s = .next (finish (sensed { x with
          raw := !x.raw
          pending := some { toCovered := !x.raw, p := s.pos.p, time := s.pos.clock } }))) ∧
      (x.raw ≠ x.qual → x.pending.isSome = true →
        exec (.stationRawChange st) s =
          .next (finish (takeDueExpiries st (sensed { x with raw := !x.raw, pending := none })))))

/-- An accepted ON at a station with an empty slot and a head in its list is matched to the head, early or in the window: the head
leaves the list, the slot takes the sheet with its OFF late bound, the record moves on, and the next visit is posted or its
posting is left to the OFF (R26, R27, R64, R70, R71). A WASTE-DIVERT sheet at the visit of its divert turns onto its waste route
instead, at the ON where visit 0 of that route is anchored PREV_ON and at the OFF otherwise, and that visit 0 is posted (R67). The
ON event precedes the MATCH event, and the MATCH event the CAUSE event of the edge's reports (log 19); insertExpectation is
expanded in PickStartsTrackingOrIsReported. An edge can be accepted once the pending change toward its level has lasted the
qualify time at a defined station outside STANDBY (R26), and no expiry of the station is due (log 5, log 35): the level changes,
the pending change ends, and the ON or OFF event is offered (R27, R189). A posted visit joins the list of its station, or is
reported OVERRUN where that holds 8 (R65, R66); the waste route is followed once the waste tail has begun (R57). The model's
choices: the EARLY report is taken ahead of the OVERRUN report of the same edge (log 40), and the watch of a head that is matched
is none of those that join a stop any more (log 35). -/
def Obligations.MatchedOnMovesTheSheetOn : Prop :=
  (∀ (st : Station) (covered : Bool) (c : PendingChange) (s : State),
    let x := s.front.stations[st]
    (acceptable st covered s = some c ↔
      (s.tables.stations[st]).defined = true ∧ s.sup.state ≠ .standby ∧ x.pending = some c ∧ c.toCovered = covered ∧
      (s.tables.stations[st]).qualify * 1200 ≤ s.pos.clock - c.time ∧ lateDue s st = false ∧ stuckDue s st = false) ∧
    (∀ (stamp : Pos) (detail : Byte), acceptLevel st covered stamp detail s =
      offerEvent (if covered then .on else .off) stamp (some st) none detail { s with
        front.stations := s.front.stations.set st { x with qual := covered, pending := none, sample := none } }) ∧
    (edgesHanded s.sup.state = true ↔
      s.sup.state ≠ .starting ∧ s.sup.state ≠ .unconfigured ∧ s.sup.state ≠ .awaitClear)) ∧
  (∀ (st : Station) (c : PendingChange) (x : Expectation) (rest : List Expectation) (s : State),
    acceptable st true s = some c → edgesHanded s.sup.state = true → s.trk.slots[st] = none →
    s.trk.lists[st] = x :: rest →
    exec (.onEdge st) s = .next (finish (afterTracking (trackOn st c.p (acceptLevel st true c.p 0 s))))) ∧
  (∀ (st : Station) (p : Pos) (x : Expectation) (rest : List Expectation) (r : TrackRec) (s : State),
    s.trk.slots[st] = none → s.trk.lists[st] = x :: rest → s.trk.table[x.tag] = some r →
    let l := s.tables.limits
    let early : List Report :=
      if (p - x.early).toInt < 0 then [{ kind := .early, station := st, sheet := some r.order, pos := p }] else []
    let onto := fun a : OffAction => { s with
      reached.late := s.reached.late.filter fun w => decide (w ≠ (st, x))
      trk.lists := s.trk.lists.set st rest
      trk.slots := s.trk.slots.set st (some
        { tag := x.tag, visit := x.visit, onPos := p,
          offLate := p + BitVec.ofNat 32 (r.length.toNat + l.trailBase + (r.length.toNat * l.stretch + 999) / 1000),
          check := ((followedRoute s.tables r).visits[x.visit]?.map (·.check)).getD false, action := a, spent := false })
      trk.table := s.trk.table.set x.tag (some { r with
        next := x.visit + 1
        occupied := r.occupied ++ [(st, p)]
        complete := r.complete || (!r.wasteTail && x.visit = (s.tables.routes[r.route]).completeAfter.val) }) }
    let matched := fun u : State =>
      offerEvent .matched p (some st) (some r.order) (matchDetail x.visit false) u
    (divertsAt s.tables r x.visit = false →
      ((followedRoute s.tables r).visits[x.visit + 1]? = none →
        trackOn st p s = (matched (onto .delivery), early)) ∧
      (∀ v, (followedRoute s.tables r).visits[x.visit + 1]? = some v → v.anchor = .prevOff →
        trackOn st p s = (matched (onto .postNext), early)) ∧
      (∀ v, (followedRoute s.tables r).visits[x.visit + 1]? = some v → v.anchor = .prevOn →
        trackOn st p s = (matched (postVisit x.tag (x.visit + 1) p (onto .nothing)).1,
          early ++ (postVisit x.tag (x.visit + 1) p (onto .nothing)).2))) ∧
    (∀ (dv : Divert) (v : Visit), r.disp = some .wasteDivert → r.wasteTail = false →
      (s.tables.routes[r.route]).divert = some dv → dv.d.val = x.visit →
      (s.tables.routes[dv.w]).visits.head? = some v →
      (v.anchor = .prevOn →
        trackOn st p s = (matched (startWasteTail x.tag p (onto .nothing)).1,
          early ++ (startWasteTail x.tag p (onto .nothing)).2)) ∧
      (v.anchor ≠ .prevOn →
        trackOn st p s = (matched (onto .beginWaste), early)))) ∧
  (∀ (st : Station) (p : Pos) (s : State), s.trk.slots[st] ≠ none ∨ s.trk.lists[st] = [] →
    trackOn st p s = (s, [{ kind := .unexpected, station := st, sheet := none, pos := p }])) ∧
  (∀ (t : Tables) (r : TrackRec) (k : Nat),
    divertsAt t r k = true ↔ r.disp = some .wasteDivert ∧ r.wasteTail = false ∧
      ∃ dv, (t.routes[r.route]).divert = some dv ∧ dv.d.val = k) ∧
  (∀ (tag : Tag) (a : Pos) (r : TrackRec) (dv : Divert) (v : Visit) (s : State),
    s.trk.table[tag] = some r → (s.tables.routes[r.route]).divert = some dv →
    (s.tables.routes[dv.w]).visits.head? = some v →
    let u : State := { s with trk.table := s.trk.table.set tag (some { r with wasteTail := true, next := 0 }) }
    ((s.trk.lists[v.station]).length < 8 → startWasteTail tag a s =
      ({ u with
        trk.lists := s.trk.lists.set v.station
          (insertExpectation (expectationOf s.tables.limits tag 0 a v) s.trk.lists[v.station]) }, [])) ∧
    (8 ≤ (s.trk.lists[v.station]).length → startWasteTail tag a s =
      (u, [{ kind := .overrun, station := v.station, sheet := some r.order, pos := s.pos.p }]))) ∧
  (∀ (tag : Tag) (k : Nat) (a : Pos) (r : TrackRec) (v : Visit) (s : State),
    s.trk.table[tag] = some r → (followedRoute s.tables r).visits[k]? = some v →
    ((s.trk.lists[v.station]).length < 8 → postVisit tag k a s =
      ({ s with
        trk.lists := s.trk.lists.set v.station
          (insertExpectation (expectationOf s.tables.limits tag k a v) s.trk.lists[v.station]) }, [])) ∧
    (8 ≤ (s.trk.lists[v.station]).length → postVisit tag k a s =
      (s, [{ kind := .overrun, station := v.station, sheet := some r.order, pos := s.pos.p }]))) ∧
  (∀ (t : Tables) (r : TrackRec),
    (r.wasteTail = false → followedRoute t r = t.routes[r.route]) ∧
    (∀ dv, r.wasteTail = true → (t.routes[r.route]).divert = some dv → followedRoute t r = t.routes[dv.w])) ∧
  (∀ k : Nat, k < 16 → matchDetail k false = byteOf k ∧ matchDetail k true = byteOf (k + 128))

/-- An accepted ON with nothing to match: a foreign sheet in IDLE or STANDBY with nothing tracked, else an UNEXPECTED report; in
the states that hand no edge on, a level alone (R27, R68, R69). A foreign sheet brings an empty plan over the zones of the covered
stations, and AWAIT CLEAR: the FOREIGN SHEET notice, then the PLAN notice with its summary and the PLAN event, then the STATE
notice, and every plan mark is cleared (R102, R114, R116, R165). The absent resume point is sent as a free word (log 14). An ON
accepted at an occupied slot has settled the expiry of the head that it deferred, so that this watch is none of those that join
the stop which the ON's report declares (R68, R77; what joins is log 35's). When an ON can be accepted, and the level change that
acceptLevel makes of it, is said in MatchedOnMovesTheSheetOn. The report is taken before the forwarder considers the queue (log
11), and the ON event is offered ahead of all of these (log 19). -/
def Obligations.UnmatchedOnIsForeignOrUnexpected : Prop :=
  (∀ (st : Station) (c : PendingChange) (s : State), acceptable st true s = some c →
     let u := acceptLevel st true c.p 0 s
     let unexpected : Report := { kind := .unexpected, station := st, sheet := none, pos := c.p }
     (s.sup.state = .starting ∨ s.sup.state = .unconfigured ∨ s.sup.state = .awaitClear →
       exec (.onEdge st) s = .next (finish u)) ∧
     (s.trk.slots[st] = none → s.trk.lists[st] = [] → s.sup.state = .idle → trackingEmpty s = true →
       exec (.onEdge st) s = .next (finish (foreignSheet st c.p u))) ∧
     (edgesHanded s.sup.state = true → s.trk.slots[st] ≠ none →
       let v := afterTracking (u, [unexpected])
       (s.trk.lists[st] = [] → exec (.onEdge st) s = .next (finish v)) ∧
       (∀ x rest, s.trk.lists[st] = x :: rest →
         ((x.late - c.p).toInt < 0 → exec (.onEdge st) s = .next (finish v)) ∧
         (0 ≤ (x.late - c.p).toInt → exec (.onEdge st) s = .next (finish { v with
           reached.late := v.reached.late.filter fun w => decide (w ≠ (st, x)) })))) ∧
     (edgesHanded s.sup.state = true → s.trk.slots[st] = none → s.trk.lists[st] = [] →
       s.sup.state ≠ .idle ∨ trackingEmpty s = false →
       exec (.onEdge st) s = .next (finish (afterTracking (u, [unexpected]))))) ∧
  (∀ (st : Station) (at_ : Pos) (s : State),
    let t := foreignSheet st at_ s
    (∃ p, t.plan = { plan := some p, counter := p.number } ∧ p.kind = .foreign ∧ p.isOpen = true ∧
      p.number = (if s.plan.counter = 255 then 1 else s.plan.counter + 1) ∧ p.clear = zonesOf s.tables (coveredStations s) ∧
      p.dispositions = [] ∧ p.voided = [] ∧ p.resume = none ∧ p.reprint = 0) ∧
    t.sup.state = .awaitClear ∧ t.tables = s.tables ∧ t.pos.p = s.pos.p ∧ t.fwd = s.fwd ∧ t.sets = s.sets ∧
    t.jam = s.jam ∧ t.trk.lists = s.trk.lists ∧ t.trk.slots = s.trk.slots ∧ t.ret.expected = s.ret.expected) ∧
  (∀ (st : Station) (at_ : Pos) (s : State),
    let zone := (s.tables.stations[st]).zone
    let p : PlanRec :=
      { number := if s.plan.counter = 255 then 1 else s.plan.counter + 1, kind := .foreign, isOpen := true,
        causes := [{ kind := .unexpected, station := some st, cover := none, set := none, zones := zoneBit zone,
                     sheet := none, pos := at_ }],
        more := false, pos := s.pos.p, clear := zonesOf s.tables (coveredStations s), dispositions := [], voided := [],
        resume := none, reprint := 0 }
    let summary : PlanSummary :=
      { number := p.number, kind := .foreign, causeCount := 1, more := false, clear := p.clear, resume := none,
        filler := Config.absentWord s.free, reprint := 0, unpicked := 0, lost := 0, salvage := 0, wasteDivert := 0,
        wasteAtDest := 0, voidedCount := 0 }
    let u : State := { makeNotice (.plan summary) (makeNotice (.foreignSheet st) s) with
      plan := { plan := some p, counter := p.number }
      free := s.free + 1
      ret.entries := s.ret.entries.map fun e => { e with mark := none }
      trk.table := s.trk.table.map fun o => o.map fun r => { r with disp := none } }
    foreignSheet st at_ s = enterState .awaitClear (offerEvent .plan s.pos.p none none p.number u) ∧
    (∀ z : Zone, p.clear.getLsbD z.val = true ↔ ∃ i : Station, (s.tables.stations[i]).defined = true ∧
      (s.front.stations[i]).qual = true ∧ (s.tables.stations[i]).zone = z) ∧
    (s.cap.state ≠ .running → s.sup.state ≠ .awaitClear → s.link.notices.length + 3 ≤ 48 →
      (foreignSheet st at_ s).link.notices = s.link.notices ++ [.foreignSheet st, .plan summary, .state .awaitClear none]))

/-- An accepted OFF empties the slot of its occupant, checks the length outside STOPPING and carries the action out; with no
occupant it is unexpected, or a level alone in IDLE with nothing tracked (R64, R72, R73, R74). The OFF event precedes the MATCH
event, and the MATCH event the CAUSE event of the edge's reports (log 19). When an OFF can be accepted, the level change that
acceptLevel makes of it, and the posting of a visit are said in MatchedOnMovesTheSheetOn. The reports are taken before the
forwarder considers the queue (log 11), the length report ahead of the OVERRUN report of the same edge (log 40), and the watch of
the occupant is none of those that join a stop any more (log 35). -/
def Obligations.MatchedOffEmptiesTheSlot : Prop :=
  ∀ (st : Station) (c : PendingChange) (s : State), acceptable st false s = some c →
    let u := acceptLevel st false c.p 0 s
    (s.sup.state = .starting ∨ s.sup.state = .unconfigured ∨ s.sup.state = .awaitClear →
      exec (.offEdge st) s = .next (finish u)) ∧
    (edgesHanded s.sup.state = true → s.trk.slots[st] = none →
      (s.sup.state = .idle → trackingEmpty s = true → exec (.offEdge st) s = .next (finish (afterTracking (u, [])))) ∧
      (s.sup.state ≠ .idle ∨ trackingEmpty s = false →
        exec (.offEdge st) s = .next (finish (afterTracking
          (u, [{ kind := .unexpected, station := st, sheet := none, pos := c.p }]))))) ∧
    (∀ o r, edgesHanded s.sup.state = true → s.trk.slots[st] = some o → s.trk.table[o.tag] = some r →
      let m : Int := (c.p - o.onPos).toInt
      let tol : Int := s.tables.limits.lengthBase + (r.length.toNat * s.tables.limits.lengthTol + 999) / 1000
      let length : List Report :=
        if o.check = true ∧ s.sup.state ≠ .stopping then
          (if m < r.length.toNat - tol then [{ kind := .lengthShort, station := st, sheet := some r.order, pos := c.p }]
           else if r.length.toNat + tol < m then
             [{ kind := .lengthLong, station := st, sheet := some r.order, pos := c.p }]
           else [])
        else []
      let v := offerEvent .matched c.p (some st) (some r.order) (matchDetail o.visit true) { u with
        reached.stuck := s.reached.stuck.filter fun w => decide (w ≠ (st, o))
        trk.slots := s.trk.slots.set st none
        trk.table := s.trk.table.set o.tag (some { r with occupied := r.occupied.filter fun y => y.1 ≠ st }) }
      (o.action = .nothing → exec (.offEdge st) s = .next (finish (afterTracking (v, length)))) ∧
      (o.action = .delivery → exec (.offEdge st) s = .next (finish (afterTracking (deliver o.tag v, length)))) ∧
      (o.action = .postNext →
        exec (.offEdge st) s = .next (finish (afterTracking ((postVisit o.tag (o.visit + 1) c.p v).1,
          length ++ (postVisit o.tag (o.visit + 1) c.p v).2)))) ∧
      (o.action = .beginWaste →
        exec (.offEdge st) s = .next (finish (afterTracking ((startWasteTail o.tag c.p v).1,
          length ++ (startWasteTail o.tag c.p v).2)))))

/-- A delivery frees the tracking record and changes the entry by its plan mark and the kind of the bin: COMMITTED in a STACK bin,
REPRINT for waste; finished entries leave from the head (R51, R52, R62). Into a SET bin, the Set Monitor is told: a member of an
OPEN set is DELIVERED and counted, and the last one starts the confirm timer; one of a cancelled, VOIDED or DONE set is withdrawn,
which voids a cancelled OPEN set and a DONE one; waste that reaches a DONE set voids it (R141, R143). A member of a cancelled OPEN
set is counted into it afresh, as in a set that is not cancelled, once replay has returned members of the set (R146, R148; that
these two rules go before the table of R141 there is log 39's, and that every member counts from then on log 41's). The SET VOID
that follows is left to the end of the drive-out in PURGING. The COMMITTED and SKIPPED entries at the head leave together, the
others stay in their order, and the CREDIT frame is made where the credit changes (R42, R52). A freed record leaves its lists and
slots with its tag, and the stall timer stops when it was the last one (R23, R62). -/
def Obligations.DeliverySettlesTheEntry : Prop :=
  (∀ (tag : Tag) (r : TrackRec) (e : Entry) (s : State), s.trk.table[tag] = some r → findEntry s r.order = some e →
    let kind := (s.tables.bins[(followedRoute s.tables r).bin]).kind
    let freed := freeRecord tag s
    let turned := fun (st : EntryState) (u : State) => { u with
      ret.entries := s.ret.entries.map fun x => if x.order = r.order then { x with state := st, tag := none } else x }
    ((e.mark = none ∨ e.mark = some .salvage) → kind = .stack →
      deliver tag s = removeHeads (offerEvent .commit s.pos.p none (some r.order) 0 (turned .committed freed))) ∧
    (e.mark = some .wasteDivert → deliver tag s = removeHeads (turned .reprint freed)) ∧
    (e.mark = some .wasteAtDest → kind = .stack → deliver tag s = removeHeads (turned .reprint freed)) ∧
    (freed.trk.table[tag] = none ∧ ∀ st : Station, (∀ x ∈ freed.trk.lists[st], x.tag ≠ tag) ∧
      ∀ o, freed.trk.slots[st] = some o → o.tag ≠ tag)) ∧
  (∀ (tag : Tag) (r : TrackRec) (e : Entry) (n : Byte) (m : SetRec) (s : State),
    s.trk.table[tag] = some r → findEntry s r.order = some e →
    (s.tables.bins[(followedRoute s.tables r).bin]).kind = .set → e.set = some n →
    let name : SetName := { bin := (s.tables.routes[e.route]).bin, set := n }
    findSet s name = some m →
    let entries := fun st : EntryState =>
      s.ret.entries.map fun x => if x.order = r.order then { x with state := st, tag := none } else x
    let records := fun f : SetRec → SetRec => s.sets.records.map fun x => if x.name = name then f x else x
    let fewer := fun x : SetRec => if m.cancelled then { x with members := x.members - 1 } else x
    let withdrawn := entries (if m.cancelled then .skipped else .reprint)
    let voids := fun x : SetRec => { x with state := .voided, deadline := none }
    let frames := if s.sup.state = .purging then s.link.pathControl else s.link.pathControl ++ [.setVoid name]
    let freed := freeRecord tag s
    ((e.mark = none ∨ e.mark = some .salvage) →
      (m.state = .opened → m.cancelled = false ∨ m.rebuilt = true →
        deliver tag s = removeHeads { freed with
          ret.entries := entries .delivered
          sets.records := records fun x =>
            if x.last.isSome = true ∧ x.delivered + 1 = x.members then { x with
              delivered := x.delivered + 1
              state := .completeAwaiting
              deadline := some (s.pos.clock + s.tables.limits.setConfirm * 2400000) }
            else { x with delivered := x.delivered + 1 } }) ∧
      (m.state = .voided →
        deliver tag s = removeHeads { freed with ret.entries := withdrawn, sets.records := records fewer }) ∧
      (m.state = .done ∨ (m.state = .opened ∧ m.cancelled = true ∧ m.rebuilt = false) →
        deliver tag s = removeHeads { freed with
          ret.entries := withdrawn
          sets := { records := records fun x => voids (fewer x), voidOrder := s.sets.voidOrder ++ [name] }
          link.pathControl := frames }) ∧
      (m.state = .completeAwaiting →
        deliver tag s = removeHeads { freed with ret.entries := entries .delivered })) ∧
    (e.mark = some .wasteAtDest →
      (m.state ≠ .done → deliver tag s = removeHeads { freed with ret.entries := entries .reprint }) ∧
      (m.state = .done → deliver tag s = removeHeads { freed with
        ret.entries := entries .reprint
        sets := { records := records voids, voidOrder := s.sets.voidOrder ++ [name] }
        link.pathControl := frames }))) ∧
  (∀ (front back : List Entry) (s : State), s.ret.entries = front ++ back →
    (∀ e ∈ front, e.state = .committed ∨ e.state = .skipped) →
    (∀ e, back.head? = some e → e.state ≠ .committed ∧ e.state ≠ .skipped) →
    let u : State := { s with ret.entries := back }
    (creditContent u.ret = creditContent s.ret → removeHeads s = u) ∧
    (creditContent u.ret ≠ creditContent s.ret → removeHeads s = { u with link.credit := some (creditContent u.ret) })) ∧
  (∀ (tag : Tag) (s : State), ∃ v, freeRecord tag s = syncStall false v ∧
    v = { s with trk := { v.trk with table := s.trk.table.set tag none, notedP := s.trk.notedP } } ∧
    ∀ st : Station, v.trk.lists[st] = (s.trk.lists[st]).filter (fun x => decide (x.tag ≠ tag)) ∧
      v.trk.slots[st] = (s.trk.slots[st]).filter fun o => decide (o.tag ≠ tag))

/-- Sampling in STANDBY: the emitter pulses every 20 ms for 0.5 ms; at the end of the pulse a sample equal to the level drops a
first differing sample, which settles an expiry it deferred; a first differing sample is held with its P; a second one changes the
level, with its ON or OFF event at the P of the first (R28, R77, R189). The edges are then handed on in the order the command
names, the rest ascending, each with its event as it is handed on (log 12): an ON in STANDBY with nothing tracked is a foreign
sheet, after which the part is in AWAIT CLEAR and the edges that follow are levels alone (R27, R69, R165). An ON at an occupied
slot has settled the expiry of the head that it deferred (R68, R77; log 35), and the reports of an edge are taken before the
forwarder considers the queue (log 11). -/
def Obligations.StandbySamplesTheStations : Prop :=
  (∀ s : State, s.sup.state = .standby → s.front.emit = false → s.front.emitFrom + 480000 ≤ s.pos.clock →
    exec .emitPulse s = .next (finish { s with front.emit := true, front.emitFrom := s.pos.clock })) ∧
  (∀ (order : List Station) (s : State), s.sup.state = .standby → s.front.emit = true →
    s.front.emitFrom + 12000 ≤ s.pos.clock →
    let sensed := fun st : Station => s.front.stations[st]
    let isDefined := fun st : Station => (s.tables.stations[st]).defined = true
    let w : State := { s with
      front.emit := false
      front.stations := tabulate fun st =>
        if isDefined st then
          (if (sensed st).raw = (sensed st).qual then { sensed st with sample := none }
           else if (sensed st).sample = none then { sensed st with sample := some s.pos.p }
           else { sensed st with qual := (sensed st).raw, sample := none })
        else sensed st }
    let sts := order ++ (List.finRange 16).filter fun st => decide (st ∉ order)
    let dropped := fun st => decide (isDefined st ∧ (sensed st).raw = (sensed st).qual ∧ (sensed st).sample ≠ none)
    let edge := fun st => decide (isDefined st ∧ (sensed st).raw ≠ (sensed st).qual ∧ (sensed st).sample ≠ none)
    let handOn := fun (v : State) (st : Station) =>
      let p := (sensed st).sample.getD 0
      handEdge st (sensed st).raw p
        (offerEvent (if (sensed st).raw then .on else .off) p (some st) none 1 v)
    exec (.standbySample order) s =
      .next (finish ((sts.filter edge).foldl handOn ((sts.filter dropped).foldl (fun v st => takeDueExpiries st v) w)))) ∧
  (∀ (st : Station) (p : Pos) (v : State),
    (v.sup.state = .standby → trackingEmpty v = true → v.trk.slots[st] = none →
      (v.trk.lists[st] = [] → handEdge st true p v = foreignSheet st p v) ∧
      handEdge st false p v = afterTracking (v, [])) ∧
    (v.sup.state = .standby → trackingEmpty v = false ∨ v.trk.lists[st] ≠ [] → v.trk.slots[st] = none →
      handEdge st true p v = afterTracking (trackOn st p v)) ∧
    (v.sup.state = .standby ∨ v.sup.state = .stopping → v.trk.slots[st] ≠ none →
      let w := afterTracking (v, [{ kind := .unexpected, station := st, sheet := none, pos := p }])
      (v.trk.lists[st] = [] → handEdge st true p v = w) ∧
      (∀ x rest, v.trk.lists[st] = x :: rest →
        ((x.late - p).toInt < 0 → handEdge st true p v = w) ∧
        (0 ≤ (x.late - p).toInt → handEdge st true p v = { w with
          reached.late := w.reached.late.filter fun y => decide (y ≠ (st, x)) }))) ∧
    (v.sup.state = .stopping → v.trk.slots[st] = none → handEdge st true p v = afterTracking (trackOn st p v)) ∧
    (v.sup.state = .awaitClear → ∀ covered, handEdge st covered p v = v)) ∧
  (∀ (order : List Station) (s : State), s.sup.state = .standby → s.front.emit = true →
    s.front.emitFrom + 12000 ≤ s.pos.clock →
    ∃ t, exec (.standbySample order) s = .next t ∧ t.pos.p = s.pos.p ∧ t.tables = s.tables ∧
      (∀ st : Station, (t.front.stations[st]).raw = (s.front.stations[st]).raw ∧
        (t.front.stations[st]).qual =
          (if (s.tables.stations[st]).defined ∧ (s.front.stations[st]).sample.isSome
            then (s.front.stations[st]).raw else (s.front.stations[st]).qual)) ∧
      ((∀ st : Station, (s.tables.stations[st]).defined = true → (s.front.stations[st]).sample = none) →
        Granted s →
        t = { s with
          front.emit := false
          front.stations := t.front.stations } ∧
        ∀ st : Station, t.front.stations[st] =
          if (s.tables.stations[st]).defined ∧ (s.front.stations[st]).raw ≠ (s.front.stations[st]).qual
            then { s.front.stations[st] with sample := some s.pos.p } else s.front.stations[st]))

/-- Covers: a raw change begins or drops a pending change; after 5 ms it is accepted; an opening raises a COVER cause with the
guarded zones while sheets are tracked or the part is in RUNNING or PURGING; a closing changes the level alone (R30, R31, R93). Of two
covers that open at one moment the second joins the stop that the first declares, with an empty tracking table too (R31, R84); what
belongs to the moment of a declaration is the model's (log 35). That a raw change back after the 5 ms have passed still drops the
pending change is the model's choice (log 5). -/
def Obligations.CoversAreQualifiedAndWatched : Prop :=
  ∀ (c : Cover) (s : State),
    let x := s.front.covers[c]
    let sensed := fun y : CoverSense => { s with front.covers := s.front.covers.set c y }
    let settled := fun y : CoverSense => { sensed y with reached.covers := s.reached.covers.filter fun d => decide (d ≠ c) }
    (x.rawClosed = x.closed → x.pending = none →
      exec (.coverRawChange c) s =
        .next (finish (settled { x with rawClosed := !x.rawClosed, pending := some s.pos.clock }))) ∧
    (x.rawClosed ≠ x.closed →
      exec (.coverRawChange c) s = .next (finish (settled { x with rawClosed := !x.rawClosed, pending := none }))) ∧
    (∀ since, x.pending = some since → since + 120000 ≤ s.pos.clock →
      let u := settled { x with closed := x.rawClosed, pending := none }
      let raises := trackingEmpty s = false ∨ s.sup.state = .running ∨ s.sup.state = .purging ∨
        (s.sup.state = .stopping ∧ c ∈ s.reached.covers)
      (x.rawClosed = false → x.closed = true → raises →
        exec (.coverOpen c) s = .next (finish (takeCause
          { kind := .cover, station := none, cover := some c, set := none, zones := s.tables.guarded[c], sheet := none,
            pos := s.pos.p } u))) ∧
      (x.rawClosed = false → x.closed = true → ¬raises → exec (.coverOpen c) s = .next (finish u)) ∧
      (x.rawClosed = true → x.closed = false → exec (.coverClosed c) s =
        .next (finish (sensed { x with closed := x.rawClosed, pending := none }))))

/-! ### Expiries, stops and recovery -/

/-- The LATE and STUCK expiries: one step beyond the bound, in the states that act on watches, STANDBY among them, the EXPIRY
event is offered, the watch is spent and the report is taken (R58, R75, R76). A pending change toward the awaited level that began
at or before the bound defers the expiry, and so does a first differing sample of that kind in STANDBY; a change that is dropped
takes the expiry that is then due (R77), LATE before STUCK where both are (log 38). In the other states a watch is not acted on,
but each watch that one pulse reaches is: one that was due when a stop was declared is still taken in STOPPING, and joins that
stop (R20, R84; what belongs to the moment of a declaration is the model's, log 35). Such a watch is that of the very head or
occupant that was due: one that takes its place at the station is another, and one that is taken is taken once (R78). The EXPIRY
event is offered ahead of the JAM notice and the CAUSE event of the report, an order that R189 leaves open, so that it is the
model's choice (log 19); a watch, or a limit, that has run out stays due until its row is taken, which is the model's choice (log
5). A STALL is raised when the limit of the speed class, in units of 10 ms, has run out since the timer began, and the timer then
waits (R7, R23, R92); one of the moment of a declaration joins that stop (R84, R92; log 35). -/
def Obligations.ExpiriesReportLateStuckAndStall : Prop :=
  (∀ (st : Station) (s : State),
     let sensed := s.front.stations[st]
     let watching := s.sup.state = .idle ∨ s.sup.state = .standby ∨ s.sup.state = .running ∨ s.sup.state = .speedChange ∨
       s.sup.state = .held ∨ s.sup.state = .purging
     let defers := fun (toCovered : Bool) (bound : Pos) =>
       (∃ c, sensed.pending = some c ∧ c.toCovered = toCovered ∧ 0 ≤ (bound - c.p).toInt) ∨
       (s.sup.state = .standby ∧ ∃ p, sensed.sample = some p ∧ sensed.qual ≠ toCovered ∧ 0 ≤ (bound - p).toInt)
     let due := fun (toCovered : Bool) (bound : Pos) =>
       watching ∧ 0 ≤ (s.pos.p - (bound + 1)).toInt ∧ ¬defers toCovered bound
     let late := fun x : Expectation => x.spent = false ∧
       (due true x.late ∨ (s.sup.state = .stopping ∧ (st, x) ∈ s.reached.late))
     let stuck := fun o : Occupant => o.spent = false ∧
       (due false o.offLate ∨ (s.sup.state = .stopping ∧ (st, o) ∈ s.reached.stuck))
     (lateDue s st = true ↔ ∃ x rest, s.trk.lists[st] = x :: rest ∧ late x) ∧
     (stuckDue s st = true ↔ ∃ o, s.trk.slots[st] = some o ∧ stuck o)) ∧
  (∀ (st : Station) (s : State),
     let report := fun (kind : CauseKind) (sheet : OrderNo) =>
       ({ kind := kind, station := some st, cover := none, set := none, zones := zoneBit (s.tables.stations[st]).zone,
          sheet := some sheet, pos := s.pos.p } : Cause)
     let takesLate := fun (x : Expectation) (rest : List Expectation) (r : TrackRec) =>
       takeCause (report .late r.order) (offerEvent .expiry s.pos.p (some st) (some r.order) 0 { s with
         reached.late := s.reached.late.filter fun w => decide (w ≠ (st, x))
         trk.lists := s.trk.lists.set st ({ x with spent := true } :: rest) })
     let takesStuck := fun (o : Occupant) (r : TrackRec) (u : State) =>
       takeCause (report .stuck r.order) (offerEvent .expiry s.pos.p (some st) (some r.order) 1 { u with
         reached.stuck := u.reached.stuck.filter fun w => decide (w ≠ (st, o))
         trk.slots := s.trk.slots.set st (some { o with spent := true }) })
     (∀ x rest r, s.trk.lists[st] = x :: rest → s.trk.table[x.tag] = some r → lateDue s st = true →
       exec (.lateExpiry st) s = .next (finish (takesLate x rest r)) ∧
       (stuckDue (takesLate x rest r) st = false → takeDueExpiries st s = takesLate x rest r) ∧
       (∀ o q, s.trk.slots[st] = some o → s.trk.table[o.tag] = some q → stuckDue (takesLate x rest r) st = true →
         takeDueExpiries st s = takesStuck o q (takesLate x rest r))) ∧
     (lateDue s st = false → exec (.lateExpiry st) s = .next s) ∧
     (∀ o r, s.trk.slots[st] = some o → s.trk.table[o.tag] = some r → stuckDue s st = true →
       exec (.stuckExpiry st) s = .next (finish (takesStuck o r s)) ∧
       (lateDue s st = false → takeDueExpiries st s = takesStuck o r s)) ∧
     (stuckDue s st = false → exec (.stuckExpiry st) s = .next s) ∧
     (lateDue s st = false → stuckDue s st = false → takeDueExpiries st s = s)) ∧
  (∀ s : State,
     let limit := match s.fwd.speed with
       | 0 => s.tables.limits.stall0
       | 1 => s.tables.limits.stall1
       | 2 => s.tables.limits.stall2
     (stallDue s = true ↔
       (∃ since, s.pos.stallTimer = .running since ∧ limit * 240000 ≤ s.pos.clock - since) ∨
       (s.sup.state = .stopping ∧ s.reached.stall = true)) ∧
     (stallDue s = true → exec .stall s = .next (finish (takeCause
       { kind := .stall, station := none, cover := none, set := none, zones := 0, sheet := none, pos := s.pos.p }
       { s with
         pos.stallTimer := if s.pos.stallTimer = .stopped then .stopped else .waiting
         reached.stall := false }))))

/-- SETTLE, once the settle time in ms has passed since the later of the entry into STOPPING and the last pulse: the snapshot
forms an OPEN plan with the next plan number from the causes of the stop, LOST sheets are freed, with their expectations and their
slots, while those of the others stay, and the part enters AWAIT CLEAR with the cause list emptied (R22, R62, R98, R101, R103,
R105, R112). A sheet is LOST that a cause names, that covers a station of a fault zone, or that covers none and goes next to one
(R105); the resume point is the lowest item that breaks the job, or the first held member of its set (R106, R107); tracked sheets
are marked, and DELIVERED ones from the resume point on go back to REPRINT (R108, R109); sets that hold such sheets are voided
(R110, R147), and the clear zones are those of the causes and of the LOST sheets (R111). The places of sets whose first member has
left the queue are read as signed distances (log 15). The PLAN notice with its summary, the PLAN event and the STATE notice are
made in this order (R112, R116); an absent resume point is sent as a free word (log 14). The DELIVERED members that go back leave
the delivered count of their set (R147), and a DONE record for which no sheet is bound is freed, or opened again where it has
members (R142, R146; that every DONE record is tested is the model's reading, log 24). -/
def Obligations.SettleFormsThePlan : Prop :=
  (∀ (since : Nat) (s : State), s.sup.state = .stopping → s.pos.settleFrom = some since →
    max since s.pos.lastPulse + s.tables.limits.settleTime * 24000 ≤ s.pos.clock →
    ∃ t p, exec .settle s = .next t ∧ t.plan = { plan := some p, counter := p.number } ∧ p.isOpen = true ∧
      p.number = (if s.plan.counter = 255 then 1 else s.plan.counter + 1) ∧ p.causes = s.jam.causes ∧
      p.more = s.jam.more ∧ p.pos = s.pos.p ∧ p.resume = resumePoint s ∧ p.clear = clearZones s ∧
      p.dispositions = planDispositions s ∧
      p.kind = (if (s.jam.causes.head?.map (·.kind)) = some .pathLost then .pathLost else .stop) ∧
      t.sup.state = .awaitClear ∧ t.sup.pathHalt = true ∧ t.trk.notedP = some s.pos.p ∧
      t.jam.causes = [] ∧ t.jam.more = false ∧ t.tables = s.tables ∧ t.pos.p = s.pos.p ∧
      (∀ (tag : Tag) (r : TrackRec), s.trk.table[tag] = some r →
        (t.trk.table[tag] = none ↔ isLost s r = true) ∧
        (isLost s r = false → t.trk.table[tag] = some { r with disp := some (splitPurge s r) })) ∧
      (let stays := fun tag : Tag => match s.trk.table[tag] with
        | some r => !isLost s r
        | none => true
       ∀ st : Station, t.trk.lists[st] = (s.trk.lists[st]).filter (fun x => stays x.tag) ∧
         t.trk.slots[st] = (s.trk.slots[st]).filter fun o => stays o.tag) ∧
      t.ret.expected = s.ret.expected ∧ t.ret.entries.map (·.order) = s.ret.entries.map (·.order) ∧
      t.ret.entries = s.ret.entries.map (fun e =>
        match recordOf s e with
        | some r =>
          if isLost s r then { e with state := .reprint, tag := none, mark := none }
          else { e with mark := some (splitPurge s r) }
        | none =>
          if e.state = .delivered ∧ atOrAbove s (resumePoint s) e.order = true then
            { e with state := .reprint, mark := none }
          else { e with mark := none }) ∧
      p.reprint = (t.ret.entries.filter fun e => e.state = .reprint ||
        (e.state = .inFlight && (e.mark = some .wasteDivert || e.mark = some .wasteAtDest))).length ∧
      (let count := fun d : Disposition => (p.dispositions.filter fun x => x.2 = d).length
       let summary : PlanSummary :=
         { number := p.number, kind := p.kind, causeCount := p.causes.length, more := p.more, clear := p.clear,
           resume := p.resume, filler := Config.absentWord s.free, reprint := p.reprint, unpicked := count .unpicked,
           lost := count .lost, salvage := count .salvage, wasteDivert := count .wasteDivert,
           wasteAtDest := count .wasteAtDest, voidedCount := p.voided.length }
       let w := offerEvent .plan s.pos.p none none p.number (makeNotice (.plan summary) s)
       (∃ v, t = finish (enterState .awaitClear v) ∧ v.link = w.link ∧ v.svc = w.svc ∧ v.cap = w.cap ∧
         v.sup = s.sup ∧ v.front = s.front) ∧
       (s.cap.state ≠ .running → s.link.lossCount = 0 → s.link.notices.length + 2 ≤ 48 →
         noticesHeld t = noticesHeld s ++ [.plan summary, .state .awaitClear none])) ∧
      ∃ newly : List SetRec, p.voided = newly.map (·.name) ++ s.sets.voidOrder ∧
        newly.Pairwise (fun a b => firstPlace s a ≤ firstPlace s b) ∧
        (∀ x, x ∈ newly ↔ x ∈ s.sets.records ∧ isVoidedNow s x = true) ∧
        ((s.sets.records.map (·.name)).Nodup →
          let bound := fun x : SetRec => ∃ e ∈ t.ret.entries, e.state = .inFlight ∧ memberOf s.tables x e = true ∧
            (e.mark = some .wasteAtDest ∨ (x.cancelled = true ∧ e.mark = none))
          let freed := fun x : SetRec => x.state = .done ∧ ¬bound x ∧ x.members = 0
          let gone := fun x : SetRec => (s.ret.entries.filter fun e => memberOf s.tables x e &&
            decide (e.state = .delivered) && atOrAbove s (resumePoint s) e.order).length
          t.sets.records = (s.sets.records.filter fun x => decide (¬freed x)).map (fun x =>
            if x.state = .done ∧ ¬bound x then { x with
              first := ((t.ret.entries.find? fun e => memberOf s.tables x e && decide (e.state ≠ .skipped)).map
                (·.order)).getD x.first
              delivered := 0
              state := .opened
              deadline := none }
            else if isVoidedNow s x = true then
              { x with delivered := x.delivered - gone x, state := .voided, deadline := none }
            else { x with delivered := x.delivered - gone x }) ∧
          t.sets.voidOrder = (s.sets.voidOrder ++ newly.map (·.name)).filter fun n =>
            decide (∀ x ∈ s.sets.records, freed x → x.name ≠ n))) ∧
  (∀ s : State,
    let fault := fun z : Zone => (∃ c ∈ s.jam.causes, c.zones.getLsbD z.val = true) ∨ (s.tables.zones[z]).purgeable = false
    let zone := fun st : Station => (s.tables.stations[st]).zone
    let nextStation := fun r : TrackRec => ((followedRoute s.tables r).visits[r.next]?).map (·.station)
    (∀ (e : Entry) (r : TrackRec), recordOf s e = some r ↔
      e.state = .inFlight ∧ ∃ tag, e.tag = some tag ∧ s.trk.table[tag] = some r) ∧
    (∀ r : TrackRec, isLost s r = true ↔
      (∃ c ∈ s.jam.causes, c.sheet = some r.order) ∨ (∃ x ∈ r.occupied, fault (zone x.1)) ∨
      (r.occupied = [] ∧ ∃ st, nextStation r = some st ∧ fault (zone st))) ∧
    (∀ e : Entry, breaksJob s e = true ↔
      (∃ r, recordOf s e = some r ∧
        (isLost s r = true ∨ r.complete = false ∨ r.disp = some .wasteDivert ∨ r.disp = some .wasteAtDest)) ∨
      (e.state = .delivered ∧ ∃ c ∈ s.jam.causes, c.kind = .finisher ∧ c.set.isSome = true ∧
        c.set = e.set.map fun n => { bin := (s.tables.routes[e.route]).bin, set := n }) ∨
      e.state = .reprint) ∧
    ((∀ e ∈ s.ret.entries, breaksJob s e = false) → resumePoint s = none) ∧
    (∀ b, s.ret.entries.find? (breaksJob s) = some b →
      (b.set = none → resumePoint s = some b.order) ∧
      (∀ n, b.set = some n →
        let name : SetName := { bin := (s.tables.routes[b.route]).bin, set := n }
        (findSet s name = none → resumePoint s = some b.order) ∧
        (∀ x m, findSet s name = some x → s.ret.entries.find? (memberOf s.tables x) = some m →
          resumePoint s = some m.order))) ∧
    (∀ n : OrderNo, atOrAbove s (resumePoint s) n = true ↔
      ∃ r h, resumePoint s = some r ∧ s.ret.h = some h ∧ (r - h).toNat ≤ (n - h).toNat) ∧
    (∀ r : TrackRec,
      (atOrAbove s (resumePoint s) r.order = false → splitPurge s r = .salvage) ∧
      (atOrAbove s (resumePoint s) r.order = true →
        (r.wasteTail = true → splitPurge s r = .wasteDivert) ∧
        (∀ dv, r.wasteTail = false → (s.tables.routes[r.route]).divert = some dv →
          splitPurge s r = if r.next ≤ dv.d.val then .wasteDivert else .wasteAtDest) ∧
        (r.wasteTail = false → (s.tables.routes[r.route]).divert = none → splitPurge s r = .wasteAtDest))) ∧
    (∀ x : SetRec, isVoidedNow s x = true ↔ (x.state = .opened ∨ x.state = .completeAwaiting) ∧
      ∃ e ∈ s.ret.entries, memberOf s.tables x e = true ∧ atOrAbove s (resumePoint s) e.order = true ∧
        (e.state = .delivered ∨
          ∃ r, recordOf s e = some r ∧ isLost s r = false ∧ splitPurge s r = .wasteAtDest)) ∧
    (∀ z : Zone, (clearZones s).getLsbD z.val = true ↔
      (∃ c ∈ s.jam.causes, c.zones.getLsbD z.val = true) ∨
      ∃ (tag : Tag) (r : TrackRec), s.trk.table[tag] = some r ∧ isLost s r = true ∧
        ((∃ x ∈ r.occupied, zone x.1 = z) ∨ (r.occupied = [] ∧ ∃ st, nextStation r = some st ∧ zone st = z))) ∧
    planDispositions s = s.ret.entries.filterMap (fun e =>
      match recordOf s e with
      | some r => some (e.order, if isLost s r then .lost else match splitPurge s r with
        | .salvage => .salvage
        | .wasteDivert => .wasteDivert
        | .wasteAtDest => .wasteAtDest)
      | none => if e.unpicked then some (e.order, .unpicked) else none) ∧
    ∀ (x : SetRec) (h : OrderNo), s.ret.h = some h → firstPlace s x = (x.first - h).toInt)

/-- The declaration of a stop, by a cause taken in a declaring state (R85, R86, R87, R89): the cause list holds it alone, its JAM
notice is made, FORWARDED entries return to QUEUED as unpicked with their attempt counts, their waiting FORWARDED ORDER frames are
withdrawn (R47), which satisfies the barriers that wait for them (R171), a HALT is requested and the engine window closed, the
speed request and its timer end, and the part enters STOPPING with PATH HALT asserted. Of the PATH CONTROL frames that wait, RUN,
PURGE RUN and SPEED CHANGE are withdrawn, a HALT that waits is merged with, and every SET VOID is kept, in its order, behind the
HALT (R86); a waiting LINK START stays ahead of the HALT, which is the model's reading (log 10). Later causes join the list in
STOPPING up to four and then set the more flag; in AWAIT CLEAR a FINISHER cause is deferred once for a set; in STARTING and
UNCONFIGURED none is taken (R83, R90, R96). The expiries, the stall and the cover openings that are due at the declaration and not
taken yet are kept, to join the stop in STOPPING (R20, R31, R84, R92; log 35). A cause is announced by its JAM notice and then its
CAUSE event, and the CAUSE event of a declaration precedes the STATE event (R89, R189; log 19); a sheet that is not named is sent
as a free word (log 14). -/
def Obligations.CausesStopThePartOrJoin : Prop :=
  (∀ (c : Cause) (s : State),
     s.sup.state = .idle ∨ s.sup.state = .standby ∨ s.sup.state = .running ∨ s.sup.state = .speedChange ∨
       s.sup.state = .held ∨ s.sup.state = .purging →
     let t := takeCause c s
     t.sup.state = .stopping ∧ t.sup.pathHalt = true ∧ t.pos.settleFrom = some s.pos.clock ∧
     t.jam.causes = [c] ∧ t.jam.more = false ∧ t.jam.deferred = s.jam.deferred ∧
     t.fwd.limit = s.fwd.f ∧ t.fwd.windowHold = true ∧ t.fwd.f = s.fwd.f ∧ t.fwd.request = none ∧
     t.sup.speedWait = none ∧ t.sup.heldReason = none ∧ t.sup.purge = none ∧
     t.link.pathControl.count .halt = max 1 (s.link.pathControl.count .halt) ∧
     (∀ f ∈ t.link.pathControl, f = .halt ∨ f = .linkStart ∨ ∃ n, f = .setVoid n) ∧
     t.link.pathControl = haltFrames s.link.pathControl ∧
     t.ret.expected = s.ret.expected ∧ t.ret.receiving = s.ret.receiving ∧
     t.ret.entries = s.ret.entries.map (fun e =>
       if e.state = .forwarded then
         { e with
           state := .queued
           unpicked := true
           firstSent := e.firstSent || s.link.forwarded.any fun f => decide (f.entry.order = e.order) }
       else e) ∧
     t.link.forwarded = s.link.forwarded.filter (fun f =>
       !(s.ret.entries.any fun e => decide (e.order = f.entry.order) && decide (e.state = .forwarded))) ∧
     t.trk.table = s.trk.table ∧ t.trk.lists = s.trk.lists ∧ t.trk.slots = s.trk.slots ∧ t.plan = s.plan ∧
     t.sets = s.sets ∧ t.tables = s.tables ∧ t.pos.p = s.pos.p ∧ t.link.commands = s.link.commands ∧
     (∀ st : Station,
       (∀ x, (st, x) ∈ t.reached.late ↔ lateDue s st = true ∧ (s.trk.lists[st]).head? = some x) ∧
       (∀ o, (st, o) ∈ t.reached.stuck ↔ stuckDue s st = true ∧ s.trk.slots[st] = some o)) ∧
     t.reached.stall = stallDue s ∧
     (∀ d : Cover, d ∈ t.reached.covers ↔
       (s.front.covers[d]).rawClosed = false ∧ (s.front.covers[d]).closed = true ∧
       (∃ since, (s.front.covers[d]).pending = some since ∧ 120000 ≤ s.pos.clock - since) ∧
       (trackingEmpty s = false ∨ s.sup.state = .running ∨ s.sup.state = .purging)) ∧
     (∃ v, t = enterState .stopping (announceCause .declared 1 c v) ∧ v.link.notices = s.link.notices ∧ v.cap = s.cap ∧
       v.svc = s.svc ∧ v.free = s.free ∧ v.pos = s.pos) ∧
     (s.cap.state ≠ .running → s.link.notices.length + 2 ≤ 48 → t.link.notices =
       s.link.notices ++ [.jam .declared 1 c (Config.absentWord s.free), .state .stopping none])) ∧
  (∀ waiting : List PathControl,
     let isVoid := fun f : PathControl => match f with
       | .setVoid _ => true
       | _ => false
     let kept := waiting.filter fun f => decide (f = .linkStart) || decide (f = .halt) || isVoid f
     (.halt ∈ waiting → haltFrames waiting = kept) ∧
     (.halt ∉ waiting → haltFrames waiting =
       kept.takeWhile (fun f => !isVoid f) ++ .halt :: kept.dropWhile (fun f => !isVoid f)) ∧
     (haltFrames waiting).filter isVoid = waiting.filter isVoid ∧
     (.halt ∉ waiting → ∃ front back, haltFrames waiting = front ++ .halt :: back ∧ (∀ f ∈ front, f = .linkStart) ∧
       ∀ f, back.head? = some f → isVoid f = true)) ∧
  (∀ (c : Cause) (s : State),
     (s.sup.state = .stopping → s.jam.causes.length < 4 →
       takeCause c s = announceCause .joined (s.jam.causes.length + 1) c
         { s with jam.causes := s.jam.causes ++ [c] }) ∧
     (s.sup.state = .stopping → 4 ≤ s.jam.causes.length →
       takeCause c s = announceCause .notStored 0 c { s with jam.more := true }) ∧
     (s.sup.state = .awaitClear → c.kind = .finisher → (∀ d ∈ s.jam.deferred, d.set ≠ c.set) →
       s.jam.deferred.length < 8 →
       takeCause c s = announceCause .deferred 0 c { s with jam.deferred := s.jam.deferred ++ [c] }) ∧
     (s.sup.state = .awaitClear → c.kind ≠ .finisher ∨ (∃ d ∈ s.jam.deferred, d.set = c.set) →
       takeCause c s = s) ∧
     (s.sup.state = .starting ∨ s.sup.state = .unconfigured → takeCause c s = s)) ∧
  (∀ (treatment : Treatment) (index : Nat) (c : Cause) (s : State),
     announceCause treatment index c s =
       offerEvent .cause c.pos c.station c.sheet (c.kind.code ||| (treatment.code <<< 4))
         { makeNotice (.jam treatment index c (Config.absentWord s.free)) s with free := s.free + 1 }) ∧
  (∀ z w : Zone, (zoneBit z).getLsbD w.val = true ↔ w = z)

/-! ### Finisher sets and speed -/

/-- SET DONE for a record in COMPLETE-AWAITING commits its DELIVERED members and frees it; in another state, or for no record, it
is answered UNEXPECTED REPORT; in STARTING and with a wrong length it is not read (R144, R172). The wrong Length is answered in
STARTING too (log 22) and makes no trace event (log 27), and memberOf reads the distance from a first member as a signed number
(log 15). The OVERFLOW of a frame that cannot be passed upstream precedes the frame's own notices (log 32). The frame is one that its
receiver can complete (log 3). -/
def Obligations.SetDoneCommitsTheSet : Prop :=
  (∀ (bin set : Byte) (s : State), frameCompletes .lower 0x43 [bin, set] s = true →
    let up := passUp 0x43 [bin, set] s
    (∀ (b : Bin) (r : SetRec), s.sup.state ≠ .starting → bin = byteOf b.val →
      findSet s { bin := b, set := set } = some r → r.state = .completeAwaiting →
      exec (.setDone [bin, set]) s = .next (finish (removeHeads (freeSet { bin := b, set := set }
        ((s.ret.entries.filter fun e => memberOf s.tables r e && e.state = .delivered).foldl
          (fun u e => offerEvent .commit s.pos.p none (some e.order) 1 { u with
            ret.entries := u.ret.entries.map fun x => if x.order = e.order then { x with state := .committed } else x })
          up))))) ∧
    (s.sup.state ≠ .starting →
      (∀ b : Bin, bin = byteOf b.val → ∀ r, findSet s { bin := b, set := set } = some r →
        r.state ≠ .completeAwaiting) →
      exec (.setDone [bin, set]) s =
        .next (finish (makeNotice (.unexpectedReport 0x43 bin (set.setWidth 16)) up))) ∧
    (s.sup.state = .starting → exec (.setDone [bin, set]) s = .next (finish up))) ∧
  (∀ (payload : List Byte) (s : State), payload.length ≠ 2 → frameCompletes .lower 0x43 payload s = true →
    exec (.setDone payload) s = .next (finish (makeNotice (.linkError .lower .format 0x43) (passUp 0x43 payload s)))) ∧
  (∀ (n : SetName) (s : State),
    findSet s n = s.sets.records.find? (fun r => decide (r.name = n)) ∧
    freeSet n s = { s with
      sets := {
        records := s.sets.records.filter fun r => decide (r.name ≠ n)
        voidOrder := s.sets.voidOrder.filter fun m => decide (m ≠ n) }
      jam.deferred := if s.sup.state = .awaitClear then s.jam.deferred.filter fun c => decide (c.set ≠ some n)
        else s.jam.deferred })

/-- SET FAULT for a held record, and the running-out of its confirm timer, stop the timer and raise a FINISHER cause in the zone
of its bin (R94, R143, R145). For no held record it is answered UNEXPECTED REPORT, and in STARTING it is passed on alone (R144, R145).
The OVERFLOW of a frame that cannot be passed upstream precedes the frame's own notices (log 32). The frame is one that its receiver
can complete (log 3). -/
def Obligations.FinisherFaultsRaiseACause : Prop :=
  (∀ (b : Bin) (set : Byte) (r : SetRec) (s : State), findSet s { bin := b, set := set } = some r →
    let n : SetName := { bin := b, set := set }
    let cause : Cause :=
      { kind := .finisher, station := none, cover := none, set := some n, zones := zoneBit (s.tables.bins[b]).zone,
        sheet := none, pos := s.pos.p }
    let stopped := fun u : State => { u with
      sets.records := s.sets.records.map fun x => if x.name = n then { x with deadline := none } else x }
    (s.sup.state ≠ .starting → frameCompletes .lower 0x44 [byteOf b.val, set] s = true →
      exec (.setFault [byteOf b.val, set]) s =
        .next (finish (takeCause cause (stopped (passUp 0x44 [byteOf b.val, set] s))))) ∧
    (∀ due, r.deadline = some due → due ≤ s.pos.clock →
      exec (.setConfirmExpiry b set) s = .next (finish (takeCause cause (stopped s))))) ∧
  (∀ (bin set : Byte) (s : State), frameCompletes .lower 0x44 [bin, set] s = true →
    let up := passUp 0x44 [bin, set] s
    (s.sup.state ≠ .starting → (∀ b : Bin, bin = byteOf b.val → findSet s { bin := b, set := set } = none) →
      exec (.setFault [bin, set]) s = .next (finish (makeNotice (.unexpectedReport 0x44 bin (set.setWidth 16)) up))) ∧
    (s.sup.state = .starting → exec (.setFault [bin, set]) s = .next (finish up)))

/-- SET CLEARED for a VOIDED record: a waiting SET VOID frame for it is withdrawn, the set leaves the void order list, and its
record becomes DONE while a sheet is bound for it, is freed with no member held, or is opened again. In VOID WAIT the set also
leaves the outstanding void list, and replay is taken when that empties it; otherwise nothing else follows. For a record in
another state, or for no held record, it is answered UNEXPECTED REPORT, and in STARTING it is passed on alone (R96, R131, R142,
R144, R146). The members of a record and the sheets bound for it are those of R139 and R142, the distance from its first member
read as a signed number (log 15). The OVERFLOW of a frame that cannot be passed upstream precedes the frame's own notices (log
32). The frame is one that its receiver can complete (log 3). -/
def Obligations.SetClearedSettlesAVoidedSet : Prop :=
  (∀ (b : Bin) (set : Byte) (r : SetRec) (s : State), findSet s { bin := b, set := set } = some r →
    s.sup.state ≠ .starting → frameCompletes .lower 0x45 [byteOf b.val, set] s = true →
    let n : SetName := { bin := b, set := set }
    let up := passUp 0x45 [byteOf b.val, set] s
    let u : State := { up with
      link.pathControl := s.link.pathControl.filter fun f : PathControl => f ≠ .setVoid n
      sets.voidOrder := s.sets.voidOrder.filter fun m : SetName => m ≠ n }
    let bound := s.ret.entries.any (isBound s.tables r)
    let settled : State :=
      if bound then { u with
        sets.records := s.sets.records.map fun x : SetRec =>
          if x.name = n then { x with state := .done, deadline := none } else x }
      else if r.members = 0 then { u with
        sets.records := s.sets.records.filter fun x : SetRec => x.name ≠ n
        jam.deferred := if s.sup.state = .awaitClear then s.jam.deferred.filter fun c : Cause => c.set ≠ some n
          else s.jam.deferred }
      else { u with
        sets.records := s.sets.records.map fun x : SetRec => if x.name = n then
          { r with
            first := ((s.ret.entries.find? fun e : Entry => memberOf s.tables r e && e.state ≠ .skipped).map (·.order)).getD
              r.first
            delivered := 0
            state := .opened
            deadline := none }
          else x }
    (r.state = .voided →
      (s.sup.purge = none → exec (.setCleared [byteOf b.val, set]) s = .next (finish settled)) ∧
      (∀ p, s.sup.purge = some p →
        (p.phase = .driveOut ∨ n ∉ p.outstanding →
          exec (.setCleared [byteOf b.val, set]) s = .next (finish settled)) ∧
        (p.phase = .voidWait → n ∈ p.outstanding →
          let v : State := { settled with
            sup.purge := some { p with outstanding := p.outstanding.filter (fun m : SetName => m ≠ n) } }
          ((∃ m ∈ p.outstanding, m ≠ n) → exec (.setCleared [byteOf b.val, set]) s = .next (finish v)) ∧
          ((∀ m ∈ p.outstanding, m = n) → exec (.setCleared [byteOf b.val, set]) s = .next (finish (replay v)))))) ∧
    (r.state ≠ .voided →
      exec (.setCleared [byteOf b.val, set]) s =
        .next (finish (makeNotice (.unexpectedReport 0x45 (byteOf b.val) (set.setWidth 16)) up)))) ∧
  (∀ (bin set : Byte) (s : State), frameCompletes .lower 0x45 [bin, set] s = true →
    let up := passUp 0x45 [bin, set] s
    (s.sup.state ≠ .starting → (∀ b : Bin, bin = byteOf b.val → findSet s { bin := b, set := set } = none) →
      exec (.setCleared [bin, set]) s = .next (finish (makeNotice (.unexpectedReport 0x45 bin (set.setWidth 16)) up))) ∧
    (s.sup.state = .starting → exec (.setCleared [bin, set]) s = .next (finish up))) ∧
  (∀ (t : Tables) (r : SetRec) (e : Entry),
    (memberOf t r e = true ↔ (∃ n, e.set = some n ∧ r.name = { bin := (t.routes[e.route]).bin, set := n }) ∧
      0 ≤ (e.order - r.first).toInt) ∧
    (isBound t r e = true ↔ e.state = .inFlight ∧ memberOf t r e = true ∧
      (e.mark = some .wasteAtDest ∨ (r.cancelled = true ∧ e.mark = none))))

/-- SPEED READY with the class of the change under way takes the class, ends the request and its timer, and enters the state
chosen as at replay; any other is answered UNEXPECTED REPORT, but for STARTING, where it is passed on alone. The running-out of
the speed wait brings the part to HELD with reason SPEED, the HELD notice ahead of the STATE notice (R160, R161, R162, R172). The
OVERFLOW of a frame that cannot be passed upstream precedes the frame's own notices (log 32). The frame is one that its receiver
can complete (log 3). -/
def Obligations.SpeedChangeEnds : Prop :=
  ∀ (cls : Byte) (s : State),
    let up := passUp 0x42 [cls] s
    (frameCompletes .lower 0x42 [cls] s = true →
      (∀ c n, s.sup.state = .speedChange → s.fwd.request = some (c, n) → cls = byteOf c.val →
        exec (.speedReady [cls]) s = .next (finish (forwarderPass (enterChosen { up with
          fwd.speed := c
          fwd.request := none
          sup.speedWait := none })))) ∧
      (s.sup.state ≠ .starting →
        s.sup.state ≠ .speedChange ∨ s.fwd.request = none ∨ (∃ c n, s.fwd.request = some (c, n) ∧ cls ≠ byteOf c.val) →
        exec (.speedReady [cls]) s =
          .next (finish (makeNotice (.unexpectedReport 0x42 0xFF (cls.setWidth 16)) up))) ∧
      (s.sup.state = .starting → exec (.speedReady [cls]) s = .next (finish up))) ∧
    (∀ c n due, s.sup.state = .speedChange → s.fwd.request = some (c, n) → s.sup.speedWait = some due →
      due ≤ s.pos.clock → ∃ t, exec .speedWaitExpiry s = .next t ∧
        t.sup.state = .held ∧ t.sup.heldReason = some .speed ∧ t.sup.speedWait = none ∧ t.sup.pathHalt = false ∧
        t.fwd = { s.fwd with request := none } ∧ t.ret = s.ret ∧ t.trk.table = s.trk.table ∧ t.sets = s.sets ∧
        t.tables = s.tables ∧ t.pos.p = s.pos.p ∧ t.plan = s.plan ∧ t.jam = s.jam ∧
        (s.cap.state ≠ .running → s.link.lossCount = 0 → s.link.notices.length + 2 ≤ 48 →
          noticesHeld t = noticesHeld s ++ [.held n .speed, .state .held (some .speed)]))

/-! ### Rules of one register -/

/-- The reset cause names the most recent reset of the three kinds, and IDENTIFY reports it (R154). -/
def Obligations.ResetCauseNamesTheMostRecentReset : Prop :=
  (∀ s t : State, exec .powerOnReset s = .next t → t.sup.resetCause = .power) ∧
  (∀ s t : State, exec .pinReset s = .next t → t.sup.resetCause = .pin) ∧
  (∀ (q : Request) (s t : State), Awaits .upper q 0x50 [] s → exec (.resetPart .upper) s = .next t →
    t.sup.resetCause = .link) ∧
  (∀ (c : Instr) (s t : State), c ≠ .powerOnReset → c ≠ .pinReset → c ≠ .resetPart .upper →
    exec c s = .next t → t.sup.resetCause = s.sup.resetCause) ∧
  (∀ (port : MgmtPort) (q : Request) (s t : State), Awaits port q 0x01 [] s → repliesHeld port s = [] →
    exec (.identify port) s = .next t → ∃ r, repliesHeld port t = [r] ∧ r.results[3]? = some s.sup.resetCause.code)

/-- The window of a posted visit, and its greatest span (R63). -/
def Obligations.WindowsFollowTheLimits : Prop :=
  ∀ (tag : Tag) (k : Nat) (a : Pos) (v : Visit) (l : Limits),
    let x := expectationOf l tag k a v
    let slip := (v.distance.toNat * l.slip + 999) / 1000
    x.e = a + BitVec.ofNat 32 v.distance.toNat ∧
    x.early = x.e - BitVec.ofNat 32 (l.earlyBase + slip) ∧
    x.late = x.e + BitVec.ofNat 32 (l.lateBase + slip) ∧
    (l.earlyBase ≤ 4095 → l.lateBase ≤ 4095 → l.slip ≤ 200 →
      slip ≤ 13107 ∧ atOrBeyond x.e x.early = true ∧ atOrBeyond x.late x.e = true ∧ (x.late - x.early).toNat ≤ 34404)

/-- A command whose occasion does not hold is an event that has not happened: it leaves the state as it is (log 2). A frame that
the receiver of its port cannot complete is such a command (log 3), and so are an AUTOLOAD_END whose words are not those read (log
13), the end of a frame that is not the one being sent, a row that serves a request where none waits or one of another code waits,
a gap or a break before its time, a return of a line that is not held low, and a qualification, an expiry or a timer whose time
has not come; what is due is log 5's and log 35's, and the time of a break log 29's. -/
def Obligations.CommandsWithoutTheirOccasionChangeNothing : Prop :=
  (∀ s : State,
    (s.link.lowerTx = none →
      exec .linkStartSent s = .next s ∧ exec .haltSent s = .next s ∧ exec .setVoidSent s = .next s ∧
      exec .speedChangeSent s = .next s ∧ exec .forwardedOrderSent s = .next s ∧ exec .lowerFrameSent s = .next s) ∧
    (s.link.upperTx = none → exec .upperFrameSent s = .next s) ∧
    (s.svc.tx = none → exec .serviceFrameSent s = .next s) ∧
    (∀ image, s.sup.state ≠ .starting ∨
        memoryWords s.load.memory s.load.reading.count ≠ imageWords image s.load.reading.count →
      exec (.autoloadEnd image) s = .next s) ∧
    (s.sup.state ≠ .stopping ∨ s.pos.settleFrom = none ∨ (∃ since, s.pos.settleFrom = some since ∧
        s.pos.clock - max since s.pos.lastPulse < s.tables.limits.settleTime * 24000) →
      exec .settle s = .next s) ∧
    (s.sup.state ≠ .speedChange ∨ s.fwd.request = none ∨ s.sup.speedWait = none ∨
        (∃ due, s.sup.speedWait = some due ∧ s.pos.clock < due) →
      exec .speedWaitExpiry s = .next s) ∧
    (s.sup.state ≠ .standby ∨ s.front.emit = true ∨ s.pos.clock - s.front.emitFrom < 480000 →
      exec .emitPulse s = .next s) ∧
    (∀ order, s.sup.state ≠ .standby ∨ s.front.emit = false ∨ s.pos.clock - s.front.emitFrom < 12000 →
      exec (.standbySample order) s = .next s) ∧
    (stallDue s = false → exec .stall s = .next s) ∧
    (s.pos.trunPending = none ∨ (∃ since, s.pos.trunPending = some since ∧ s.pos.clock - since < 24000) →
      exec .trunQualified s = .next s) ∧
    (∀ st : Station,
      (acceptable st true s = none → exec (.onEdge st) s = .next s) ∧
      (acceptable st false s = none → exec (.offEdge st) s = .next s) ∧
      (lateDue s st = false → exec (.lateExpiry st) s = .next s) ∧
      (stuckDue s st = false → exec (.stuckExpiry st) s = .next s)) ∧
    (∀ c : Cover,
      let x := s.front.covers[c]
      let early := x.pending = none ∨ ∃ since, x.pending = some since ∧ s.pos.clock - since < 120000
      (early ∨ x.rawClosed = true ∨ x.closed = false → exec (.coverOpen c) s = .next s) ∧
      (early ∨ x.rawClosed = false ∨ x.closed = true → exec (.coverClosed c) s = .next s)) ∧
    (∀ b set, (∀ r, findSet s { bin := b, set := set } = some r →
        r.deadline = none ∨ ∃ due, r.deadline = some due ∧ s.pos.clock < due) →
      exec (.setConfirmExpiry b set) s = .next s) ∧
    (∀ port : Port, (receiverOf port s).mode ≠ .inFrame ∨
        s.pos.clock - (receiverOf port s).lastChar ≤ (if port = .service then 480000 else 24000) →
      exec (.gap port) s = .next s) ∧
    (s.svc.rx.mode = .lineLow ∨ s.pos.clock - s.svc.highAt < 240000 → exec .serviceReset s = .next s) ∧
    (s.svc.rx.mode ≠ .lineLow → exec .serviceLineReturnsHigh s = .next s)) ∧
  (∀ (f : LowerFrame) (s : State), s.link.lowerTx = some f →
    (f ≠ .pathControl .linkStart → exec .linkStartSent s = .next s) ∧
    (f ≠ .pathControl .halt → exec .haltSent s = .next s) ∧
    ((∀ n, f ≠ .pathControl (.setVoid n)) → exec .setVoidSent s = .next s) ∧
    ((∀ c, f ≠ .pathControl (.speedChange c)) → exec .speedChangeSent s = .next s) ∧
    ((∀ o, f ≠ .forwardedOrder o) → exec .forwardedOrderSent s = .next s) ∧
    (f = .pathControl .linkStart ∨ f = .pathControl .halt ∨ (∃ n, f = .pathControl (.setVoid n)) ∨
        (∃ c, f = .pathControl (.speedChange c)) ∨ (∃ o, f = .forwardedOrder o) →
      exec .lowerFrameSent s = .next s)) ∧
  (∀ (c : Instr) (port : MgmtPort) (isCode : Byte → Bool) (lengthOk : List Byte → Bool) (s : State),
    servedRow c = some (port, isCode, lengthOk) → (∀ q, nextRequest port s = some q → isCode q.code = false) →
    exec c s = .next s) ∧
  (∀ (kind : Byte) (payload : List Byte) (s : State),
    (frameCompletes .upper 0x10 payload s = false → exec (.order payload) s = .next s) ∧
    (frameCompletes .upper kind payload s = false → exec (.engineCommand kind payload) s = .next s) ∧
    (frameCompletes .upper 0x12 payload s = false → exec (.barrierCommand payload) s = .next s) ∧
    (frameCompletes .upper 0x20 payload s = false → exec (.manage .upper payload) s = .next s) ∧
    (frameCompletes .service 0x20 payload s = false → exec (.manage .service payload) s = .next s) ∧
    (frameCompletes .service kind payload s = false → exec (.serviceManageDiscard kind payload) s = .next s) ∧
    (frameCompletes .lower 0x41 payload s = false → exec (.pick payload) s = .next s) ∧
    (frameCompletes .lower 0x42 payload s = false → exec (.speedReady payload) s = .next s) ∧
    (frameCompletes .lower 0x43 payload s = false → exec (.setDone payload) s = .next s) ∧
    (frameCompletes .lower 0x44 payload s = false → exec (.setFault payload) s = .next s) ∧
    (frameCompletes .lower 0x45 payload s = false → exec (.setCleared payload) s = .next s) ∧
    (frameCompletes .lower 0x46 payload s = false → exec (.engineCredit payload) s = .next s) ∧
    (frameCompletes .lower kind payload s = false → exec (.engineReport kind payload) s = .next s))
end

