-- ==== Sys2Proof/Laws/Frames.lean ====
section
/-! SUPPORT. What each shared operation leaves unchanged: one lemma per operation, a conjunction over the blocks and fields of
State that it does not touch, so that no later proof unfolds the operation to see it. -/

namespace Sys2Proof.Machine

@[simp] theorem addRecord_frame (r : TraceRec) (c : Capture) :
    (addRecord r c).owner = c.owner ∧ (addRecord r c).mode = c.mode ∧ (addRecord r c).mask = c.mask := by
  simp only [addRecord]
  split <;> simp

@[simp] theorem moveTo_frame (x : Supervisor) (st : PartState) :
    (x.moveTo st).resetCause = x.resetCause ∧ (x.moveTo st).speedWait = x.speedWait := by
  simp [Supervisor.moveTo]

@[simp] theorem makeNotice_frame (n : Notice) (s : State) :
    (makeNotice n s).pending = s.pending ∧ (makeNotice n s).load = s.load ∧ (makeNotice n s).tables = s.tables ∧
    (makeNotice n s).reached = s.reached ∧ (makeNotice n s).pos = s.pos ∧
    (makeNotice n s).front = s.front ∧ (makeNotice n s).ret = s.ret ∧ (makeNotice n s).fwd = s.fwd ∧
    (makeNotice n s).trk = s.trk ∧ (makeNotice n s).jam = s.jam ∧ (makeNotice n s).plan = s.plan ∧
    (makeNotice n s).sets = s.sets ∧ (makeNotice n s).sup = s.sup ∧ (makeNotice n s).link.rxUpper = s.link.rxUpper ∧
    (makeNotice n s).link.rxLower = s.link.rxLower ∧ (makeNotice n s).link.commands = s.link.commands ∧
    (makeNotice n s).link.holding = s.link.holding ∧ (makeNotice n s).link.reports = s.link.reports ∧
    (makeNotice n s).link.pathControl = s.link.pathControl ∧ (makeNotice n s).link.forwarded = s.link.forwarded ∧
    (makeNotice n s).link.linkStarted = s.link.linkStarted ∧ (makeNotice n s).link.lowerTx = s.link.lowerTx ∧
    (makeNotice n s).link.credit = s.link.credit ∧ (makeNotice n s).link.replies = s.link.replies ∧
    (makeNotice n s).link.upperTx = s.link.upperTx ∧ (makeNotice n s).svc = s.svc ∧ (makeNotice n s).cap = s.cap ∧
    (makeNotice n s).free = s.free := by
  simp only [makeNotice]
  (repeat' split) <;> simp [*]

@[simp] theorem makeServiceNotice_frame (n : Notice) (s : State) :
    (makeServiceNotice n s).pending = s.pending ∧ (makeServiceNotice n s).load = s.load ∧
    (makeServiceNotice n s).tables = s.tables ∧
    (makeServiceNotice n s).reached = s.reached ∧ (makeServiceNotice n s).pos = s.pos ∧ (makeServiceNotice n s).front = s.front ∧
    (makeServiceNotice n s).ret = s.ret ∧ (makeServiceNotice n s).fwd = s.fwd ∧ (makeServiceNotice n s).trk = s.trk ∧
    (makeServiceNotice n s).jam = s.jam ∧ (makeServiceNotice n s).plan = s.plan ∧
    (makeServiceNotice n s).sets = s.sets ∧ (makeServiceNotice n s).sup = s.sup ∧
    (makeServiceNotice n s).link = s.link ∧ (makeServiceNotice n s).svc.rx = s.svc.rx ∧
    (makeServiceNotice n s).svc.held = s.svc.held ∧ (makeServiceNotice n s).svc.claim = s.svc.claim ∧
    (makeServiceNotice n s).svc.reply = s.svc.reply ∧ (makeServiceNotice n s).svc.tx = s.svc.tx ∧
    (makeServiceNotice n s).cap = s.cap ∧ (makeServiceNotice n s).free = s.free := by
  simp only [makeServiceNotice]
  (repeat' split) <;> simp [*]

@[simp] theorem makeLinkError_frame (port : Port) (reason : LinkReason) (third : Byte) (s : State) :
    (makeLinkError port reason third s).pending = s.pending ∧ (makeLinkError port reason third s).load = s.load ∧
    (makeLinkError port reason third s).tables = s.tables ∧
    (makeLinkError port reason third s).reached = s.reached ∧ (makeLinkError port reason third s).pos = s.pos ∧ (makeLinkError port reason third s).front = s.front ∧
    (makeLinkError port reason third s).ret = s.ret ∧ (makeLinkError port reason third s).fwd = s.fwd ∧
    (makeLinkError port reason third s).trk = s.trk ∧ (makeLinkError port reason third s).jam = s.jam ∧
    (makeLinkError port reason third s).plan = s.plan ∧ (makeLinkError port reason third s).sets = s.sets ∧
    (makeLinkError port reason third s).sup = s.sup ∧
    (makeLinkError port reason third s).link.rxUpper = s.link.rxUpper ∧
    (makeLinkError port reason third s).link.rxLower = s.link.rxLower ∧
    (makeLinkError port reason third s).link.commands = s.link.commands ∧
    (makeLinkError port reason third s).link.holding = s.link.holding ∧
    (makeLinkError port reason third s).link.reports = s.link.reports ∧
    (makeLinkError port reason third s).link.pathControl = s.link.pathControl ∧
    (makeLinkError port reason third s).link.forwarded = s.link.forwarded ∧
    (makeLinkError port reason third s).link.linkStarted = s.link.linkStarted ∧
    (makeLinkError port reason third s).link.lowerTx = s.link.lowerTx ∧
    (makeLinkError port reason third s).link.credit = s.link.credit ∧
    (makeLinkError port reason third s).link.replies = s.link.replies ∧
    (makeLinkError port reason third s).link.upperTx = s.link.upperTx ∧
    (makeLinkError port reason third s).svc.rx = s.svc.rx ∧
    (makeLinkError port reason third s).svc.held = s.svc.held ∧
    (makeLinkError port reason third s).svc.claim = s.svc.claim ∧
    (makeLinkError port reason third s).svc.reply = s.svc.reply ∧
    (makeLinkError port reason third s).svc.tx = s.svc.tx ∧ (makeLinkError port reason third s).cap = s.cap ∧
    (makeLinkError port reason third s).free = s.free := by
  simp only [makeLinkError]
  (repeat' split) <;> simp [*]

@[simp] theorem makeCaptureDone_frame (s : State) :
    (makeCaptureDone s).pending = s.pending ∧ (makeCaptureDone s).load = s.load ∧
    (makeCaptureDone s).tables = s.tables ∧
    (makeCaptureDone s).reached = s.reached ∧ (makeCaptureDone s).pos = s.pos ∧ (makeCaptureDone s).front = s.front ∧ (makeCaptureDone s).ret = s.ret ∧
    (makeCaptureDone s).fwd = s.fwd ∧ (makeCaptureDone s).trk = s.trk ∧ (makeCaptureDone s).jam = s.jam ∧
    (makeCaptureDone s).plan = s.plan ∧ (makeCaptureDone s).sets = s.sets ∧ (makeCaptureDone s).sup = s.sup ∧
    (makeCaptureDone s).link.rxUpper = s.link.rxUpper ∧ (makeCaptureDone s).link.rxLower = s.link.rxLower ∧
    (makeCaptureDone s).link.commands = s.link.commands ∧ (makeCaptureDone s).link.holding = s.link.holding ∧
    (makeCaptureDone s).link.reports = s.link.reports ∧ (makeCaptureDone s).link.pathControl = s.link.pathControl ∧
    (makeCaptureDone s).link.forwarded = s.link.forwarded ∧
    (makeCaptureDone s).link.linkStarted = s.link.linkStarted ∧ (makeCaptureDone s).link.lowerTx = s.link.lowerTx ∧
    (makeCaptureDone s).link.credit = s.link.credit ∧ (makeCaptureDone s).link.replies = s.link.replies ∧
    (makeCaptureDone s).link.upperTx = s.link.upperTx ∧ (makeCaptureDone s).svc.rx = s.svc.rx ∧
    (makeCaptureDone s).svc.held = s.svc.held ∧ (makeCaptureDone s).svc.claim = s.svc.claim ∧
    (makeCaptureDone s).svc.reply = s.svc.reply ∧ (makeCaptureDone s).svc.tx = s.svc.tx ∧
    (makeCaptureDone s).cap = s.cap ∧ (makeCaptureDone s).free = s.free := by
  simp only [makeCaptureDone]
  (repeat' split) <;> simp [*]

@[simp] theorem offerEvent_frame (k : EventKind) (p : Pos) (st : Option Station) (order : Option OrderNo) (detail : Byte) (s : State) :
    (offerEvent k p st order detail s).pending = s.pending ∧ (offerEvent k p st order detail s).load = s.load ∧
    (offerEvent k p st order detail s).tables = s.tables ∧
    (offerEvent k p st order detail s).reached = s.reached ∧ (offerEvent k p st order detail s).pos = s.pos ∧ (offerEvent k p st order detail s).front = s.front ∧
    (offerEvent k p st order detail s).ret = s.ret ∧ (offerEvent k p st order detail s).fwd = s.fwd ∧
    (offerEvent k p st order detail s).trk = s.trk ∧ (offerEvent k p st order detail s).jam = s.jam ∧
    (offerEvent k p st order detail s).plan = s.plan ∧ (offerEvent k p st order detail s).sets = s.sets ∧
    (offerEvent k p st order detail s).sup = s.sup ∧
    (offerEvent k p st order detail s).link.rxUpper = s.link.rxUpper ∧
    (offerEvent k p st order detail s).link.rxLower = s.link.rxLower ∧
    (offerEvent k p st order detail s).link.commands = s.link.commands ∧
    (offerEvent k p st order detail s).link.holding = s.link.holding ∧
    (offerEvent k p st order detail s).link.reports = s.link.reports ∧
    (offerEvent k p st order detail s).link.pathControl = s.link.pathControl ∧
    (offerEvent k p st order detail s).link.forwarded = s.link.forwarded ∧
    (offerEvent k p st order detail s).link.linkStarted = s.link.linkStarted ∧
    (offerEvent k p st order detail s).link.lowerTx = s.link.lowerTx ∧
    (offerEvent k p st order detail s).link.credit = s.link.credit ∧
    (offerEvent k p st order detail s).link.replies = s.link.replies ∧
    (offerEvent k p st order detail s).link.upperTx = s.link.upperTx ∧
    (offerEvent k p st order detail s).svc.rx = s.svc.rx ∧ (offerEvent k p st order detail s).svc.held = s.svc.held ∧
    (offerEvent k p st order detail s).svc.claim = s.svc.claim ∧
    (offerEvent k p st order detail s).svc.reply = s.svc.reply ∧
    (offerEvent k p st order detail s).svc.tx = s.svc.tx ∧
    (offerEvent k p st order detail s).cap.owner = s.cap.owner ∧
    (offerEvent k p st order detail s).cap.mode = s.cap.mode ∧
    (offerEvent k p st order detail s).cap.mask = s.cap.mask ∧ (offerEvent k p st order detail s).free = s.free := by
  simp only [offerEvent]
  (repeat' split) <;> simp [*]

@[simp] theorem useFree_frame (n : Nat) (s : State) :
    (useFree n s).pending = s.pending ∧ (useFree n s).load = s.load ∧ (useFree n s).tables = s.tables ∧
    (useFree n s).reached = s.reached ∧ (useFree n s).pos = s.pos ∧
    (useFree n s).front = s.front ∧ (useFree n s).ret = s.ret ∧ (useFree n s).fwd = s.fwd ∧
    (useFree n s).trk = s.trk ∧ (useFree n s).jam = s.jam ∧ (useFree n s).plan = s.plan ∧
    (useFree n s).sets = s.sets ∧ (useFree n s).sup = s.sup ∧ (useFree n s).link = s.link ∧
    (useFree n s).svc = s.svc ∧ (useFree n s).cap = s.cap := by
  simp only [useFree]
  (repeat' split) <;> simp [*]

@[simp] theorem syncStall_frame (moment : Bool) (s : State) :
    (syncStall moment s).pending = s.pending ∧ (syncStall moment s).load = s.load ∧
    (syncStall moment s).tables = s.tables ∧
    (syncStall moment s).pos.clock = s.pos.clock ∧ (syncStall moment s).pos.p = s.pos.p ∧
    (syncStall moment s).pos.lastPulse = s.pos.lastPulse ∧ (syncStall moment s).pos.msCount = s.pos.msCount ∧
    (syncStall moment s).reached = s.reached ∧ (syncStall moment s).pos.settleFrom = s.pos.settleFrom ∧ (syncStall moment s).pos.trunRaw = s.pos.trunRaw ∧
    (syncStall moment s).pos.trunQual = s.pos.trunQual ∧ (syncStall moment s).pos.trunPending = s.pos.trunPending ∧
    (syncStall moment s).front = s.front ∧ (syncStall moment s).ret = s.ret ∧ (syncStall moment s).fwd = s.fwd ∧
    (syncStall moment s).trk = s.trk ∧ (syncStall moment s).jam = s.jam ∧ (syncStall moment s).plan = s.plan ∧
    (syncStall moment s).sets = s.sets ∧ (syncStall moment s).sup = s.sup ∧ (syncStall moment s).link = s.link ∧
    (syncStall moment s).svc = s.svc ∧ (syncStall moment s).cap = s.cap ∧ (syncStall moment s).free = s.free := by
  simp only [syncStall]
  (repeat' split) <;> simp [*]

@[simp] theorem beginSampling_frame (s : State) :
    (beginSampling s).pending = s.pending ∧ (beginSampling s).load = s.load ∧ (beginSampling s).tables = s.tables ∧
    (beginSampling s).reached = s.reached ∧ (beginSampling s).pos = s.pos ∧
    (beginSampling s).front.covers = s.front.covers ∧ (beginSampling s).ret = s.ret ∧ (beginSampling s).fwd = s.fwd ∧
    (beginSampling s).trk = s.trk ∧ (beginSampling s).jam = s.jam ∧ (beginSampling s).plan = s.plan ∧
    (beginSampling s).sets = s.sets ∧ (beginSampling s).sup = s.sup ∧ (beginSampling s).link = s.link ∧
    (beginSampling s).svc = s.svc ∧ (beginSampling s).cap = s.cap ∧ (beginSampling s).free = s.free := by
  simp only [beginSampling]
  (repeat' split) <;> simp [*]

@[simp] theorem endSampling_frame (s : State) :
    (endSampling s).pending = s.pending ∧ (endSampling s).load = s.load ∧ (endSampling s).tables = s.tables ∧
    (endSampling s).reached = s.reached ∧ (endSampling s).pos = s.pos ∧
    (endSampling s).front.covers = s.front.covers ∧ (endSampling s).front.emitFrom = s.front.emitFrom ∧
    (endSampling s).ret = s.ret ∧ (endSampling s).fwd = s.fwd ∧ (endSampling s).trk = s.trk ∧
    (endSampling s).jam = s.jam ∧ (endSampling s).plan = s.plan ∧ (endSampling s).sets = s.sets ∧
    (endSampling s).sup = s.sup ∧ (endSampling s).link = s.link ∧ (endSampling s).svc = s.svc ∧
    (endSampling s).cap = s.cap ∧ (endSampling s).free = s.free := by
  simp only [endSampling]
  (repeat' split) <;> simp [*]

@[simp] theorem enterTimers_frame (st : PartState) (s : State) :
    (enterTimers st s).pending = s.pending ∧ (enterTimers st s).load = s.load ∧ (enterTimers st s).tables = s.tables ∧
    (enterTimers st s).pos.clock = s.pos.clock ∧ (enterTimers st s).pos.p = s.pos.p ∧
    (enterTimers st s).pos.lastPulse = s.pos.lastPulse ∧ (enterTimers st s).pos.msCount = s.pos.msCount ∧
    (enterTimers st s).pos.stallTimer = s.pos.stallTimer ∧ (enterTimers st s).pos.trunRaw = s.pos.trunRaw ∧
    (enterTimers st s).pos.trunQual = s.pos.trunQual ∧ (enterTimers st s).pos.trunPending = s.pos.trunPending ∧
    (enterTimers st s).front = s.front ∧ (enterTimers st s).ret = s.ret ∧ (enterTimers st s).fwd = s.fwd ∧
    (enterTimers st s).trk.table = s.trk.table ∧ (enterTimers st s).trk.lists = s.trk.lists ∧
    (enterTimers st s).trk.slots = s.trk.slots ∧ (enterTimers st s).jam = s.jam ∧ (enterTimers st s).plan = s.plan ∧
    (enterTimers st s).sets = s.sets ∧ (enterTimers st s).sup = s.sup ∧ (enterTimers st s).link = s.link ∧
    (enterTimers st s).svc = s.svc ∧ (enterTimers st s).cap = s.cap ∧ (enterTimers st s).free = s.free := by
  simp only [enterTimers]
  (repeat' split) <;> simp [*]

@[simp] theorem enterSensing_frame (st : PartState) (s : State) :
    (enterSensing st s).pending = s.pending ∧ (enterSensing st s).load = s.load ∧
    (enterSensing st s).tables = s.tables ∧
    (enterSensing st s).reached = s.reached ∧ (enterSensing st s).pos = s.pos ∧ (enterSensing st s).front.covers = s.front.covers ∧
    (enterSensing st s).ret = s.ret ∧ (enterSensing st s).fwd = s.fwd ∧ (enterSensing st s).trk = s.trk ∧
    (enterSensing st s).jam = s.jam ∧ (enterSensing st s).plan = s.plan ∧ (enterSensing st s).sets = s.sets ∧
    (enterSensing st s).sup = s.sup ∧ (enterSensing st s).link = s.link ∧ (enterSensing st s).svc = s.svc ∧
    (enterSensing st s).cap = s.cap ∧ (enterSensing st s).free = s.free := by
  simp only [enterSensing]
  (repeat' split) <;> simp [*]

@[simp] theorem enterState_frame (st : PartState) (s : State) :
    (enterState st s).pending = s.pending ∧ (enterState st s).load = s.load ∧ (enterState st s).tables = s.tables ∧
    (enterState st s).pos.clock = s.pos.clock ∧ (enterState st s).pos.p = s.pos.p ∧
    (enterState st s).pos.lastPulse = s.pos.lastPulse ∧ (enterState st s).pos.msCount = s.pos.msCount ∧
    (enterState st s).pos.trunRaw = s.pos.trunRaw ∧ (enterState st s).pos.trunQual = s.pos.trunQual ∧
    (enterState st s).pos.trunPending = s.pos.trunPending ∧ (enterState st s).front.covers = s.front.covers ∧
    (enterState st s).ret = s.ret ∧ (enterState st s).fwd = s.fwd ∧ (enterState st s).trk.table = s.trk.table ∧
    (enterState st s).trk.lists = s.trk.lists ∧ (enterState st s).trk.slots = s.trk.slots ∧
    (enterState st s).jam = s.jam ∧ (enterState st s).plan = s.plan ∧ (enterState st s).sets = s.sets ∧
    (enterState st s).sup.resetCause = s.sup.resetCause ∧ (enterState st s).sup.speedWait = s.sup.speedWait ∧
    (enterState st s).link.rxUpper = s.link.rxUpper ∧ (enterState st s).link.rxLower = s.link.rxLower ∧
    (enterState st s).link.commands = s.link.commands ∧ (enterState st s).link.holding = s.link.holding ∧
    (enterState st s).link.reports = s.link.reports ∧ (enterState st s).link.pathControl = s.link.pathControl ∧
    (enterState st s).link.forwarded = s.link.forwarded ∧ (enterState st s).link.linkStarted = s.link.linkStarted ∧
    (enterState st s).link.lowerTx = s.link.lowerTx ∧ (enterState st s).link.credit = s.link.credit ∧
    (enterState st s).link.replies = s.link.replies ∧ (enterState st s).link.upperTx = s.link.upperTx ∧
    (enterState st s).svc.rx = s.svc.rx ∧ (enterState st s).svc.held = s.svc.held ∧
    (enterState st s).svc.claim = s.svc.claim ∧ (enterState st s).svc.reply = s.svc.reply ∧
    (enterState st s).svc.tx = s.svc.tx ∧ (enterState st s).cap.owner = s.cap.owner ∧
    (enterState st s).cap.mode = s.cap.mode ∧ (enterState st s).cap.mask = s.cap.mask ∧
    (enterState st s).free = s.free := by
  simp only [enterState]
  (repeat' split) <;> simp [*]

@[simp] theorem mapEntries_frame (f : Entry → Entry) (s : State) :
    (mapEntries f s).pending = s.pending ∧ (mapEntries f s).load = s.load ∧ (mapEntries f s).tables = s.tables ∧
    (mapEntries f s).reached = s.reached ∧ (mapEntries f s).pos = s.pos ∧
    (mapEntries f s).front = s.front ∧ (mapEntries f s).ret.expected = s.ret.expected ∧
    (mapEntries f s).ret.receiving = s.ret.receiving ∧ (mapEntries f s).fwd = s.fwd ∧ (mapEntries f s).trk = s.trk ∧
    (mapEntries f s).jam = s.jam ∧ (mapEntries f s).plan = s.plan ∧ (mapEntries f s).sets = s.sets ∧
    (mapEntries f s).sup = s.sup ∧ (mapEntries f s).link = s.link ∧ (mapEntries f s).svc = s.svc ∧
    (mapEntries f s).cap = s.cap ∧ (mapEntries f s).free = s.free := by
  simp only [mapEntries]
  (repeat' split) <;> simp [*]

@[simp] theorem updateEntry_frame (n : OrderNo) (f : Entry → Entry) (s : State) :
    (updateEntry n f s).pending = s.pending ∧ (updateEntry n f s).load = s.load ∧
    (updateEntry n f s).tables = s.tables ∧
    (updateEntry n f s).reached = s.reached ∧ (updateEntry n f s).pos = s.pos ∧ (updateEntry n f s).front = s.front ∧
    (updateEntry n f s).ret.expected = s.ret.expected ∧ (updateEntry n f s).ret.receiving = s.ret.receiving ∧
    (updateEntry n f s).fwd = s.fwd ∧ (updateEntry n f s).trk = s.trk ∧ (updateEntry n f s).jam = s.jam ∧
    (updateEntry n f s).plan = s.plan ∧ (updateEntry n f s).sets = s.sets ∧ (updateEntry n f s).sup = s.sup ∧
    (updateEntry n f s).link = s.link ∧ (updateEntry n f s).svc = s.svc ∧ (updateEntry n f s).cap = s.cap ∧
    (updateEntry n f s).free = s.free := by
  simp only [updateEntry]
  (repeat' split) <;> simp [*]

@[simp] theorem makeCredit_frame (s : State) :
    (makeCredit s).pending = s.pending ∧ (makeCredit s).load = s.load ∧ (makeCredit s).tables = s.tables ∧
    (makeCredit s).reached = s.reached ∧ (makeCredit s).pos = s.pos ∧
    (makeCredit s).front = s.front ∧ (makeCredit s).ret = s.ret ∧ (makeCredit s).fwd = s.fwd ∧
    (makeCredit s).trk = s.trk ∧ (makeCredit s).jam = s.jam ∧ (makeCredit s).plan = s.plan ∧
    (makeCredit s).sets = s.sets ∧ (makeCredit s).sup = s.sup ∧ (makeCredit s).link.rxUpper = s.link.rxUpper ∧
    (makeCredit s).link.rxLower = s.link.rxLower ∧ (makeCredit s).link.commands = s.link.commands ∧
    (makeCredit s).link.holding = s.link.holding ∧ (makeCredit s).link.reports = s.link.reports ∧
    (makeCredit s).link.pathControl = s.link.pathControl ∧ (makeCredit s).link.forwarded = s.link.forwarded ∧
    (makeCredit s).link.linkStarted = s.link.linkStarted ∧ (makeCredit s).link.lowerTx = s.link.lowerTx ∧
    (makeCredit s).link.replies = s.link.replies ∧ (makeCredit s).link.notices = s.link.notices ∧
    (makeCredit s).link.lossCount = s.link.lossCount ∧ (makeCredit s).link.upperTx = s.link.upperTx ∧
    (makeCredit s).svc = s.svc ∧ (makeCredit s).cap = s.cap ∧ (makeCredit s).free = s.free := by
  simp only [makeCredit]
  (repeat' split) <;> simp [*]

@[simp] theorem creditIfChanged_frame (old : CreditContent) (s : State) :
    (creditIfChanged old s).pending = s.pending ∧ (creditIfChanged old s).load = s.load ∧
    (creditIfChanged old s).tables = s.tables ∧
    (creditIfChanged old s).reached = s.reached ∧ (creditIfChanged old s).pos = s.pos ∧ (creditIfChanged old s).front = s.front ∧
    (creditIfChanged old s).ret = s.ret ∧ (creditIfChanged old s).fwd = s.fwd ∧ (creditIfChanged old s).trk = s.trk ∧
    (creditIfChanged old s).jam = s.jam ∧ (creditIfChanged old s).plan = s.plan ∧
    (creditIfChanged old s).sets = s.sets ∧ (creditIfChanged old s).sup = s.sup ∧
    (creditIfChanged old s).link.rxUpper = s.link.rxUpper ∧ (creditIfChanged old s).link.rxLower = s.link.rxLower ∧
    (creditIfChanged old s).link.commands = s.link.commands ∧ (creditIfChanged old s).link.holding = s.link.holding ∧
    (creditIfChanged old s).link.reports = s.link.reports ∧
    (creditIfChanged old s).link.pathControl = s.link.pathControl ∧
    (creditIfChanged old s).link.forwarded = s.link.forwarded ∧
    (creditIfChanged old s).link.linkStarted = s.link.linkStarted ∧
    (creditIfChanged old s).link.lowerTx = s.link.lowerTx ∧ (creditIfChanged old s).link.replies = s.link.replies ∧
    (creditIfChanged old s).link.notices = s.link.notices ∧
    (creditIfChanged old s).link.lossCount = s.link.lossCount ∧
    (creditIfChanged old s).link.upperTx = s.link.upperTx ∧ (creditIfChanged old s).svc = s.svc ∧
    (creditIfChanged old s).cap = s.cap ∧ (creditIfChanged old s).free = s.free := by
  simp only [creditIfChanged]
  (repeat' split) <;> simp [*]

@[simp] theorem removeHeads_frame (s : State) :
    (removeHeads s).pending = s.pending ∧ (removeHeads s).load = s.load ∧ (removeHeads s).tables = s.tables ∧
    (removeHeads s).reached = s.reached ∧ (removeHeads s).pos = s.pos ∧
    (removeHeads s).front = s.front ∧ (removeHeads s).ret.expected = s.ret.expected ∧
    (removeHeads s).ret.receiving = s.ret.receiving ∧ (removeHeads s).fwd = s.fwd ∧ (removeHeads s).trk = s.trk ∧
    (removeHeads s).jam = s.jam ∧ (removeHeads s).plan = s.plan ∧ (removeHeads s).sets = s.sets ∧
    (removeHeads s).sup = s.sup ∧ (removeHeads s).link.rxUpper = s.link.rxUpper ∧
    (removeHeads s).link.rxLower = s.link.rxLower ∧ (removeHeads s).link.commands = s.link.commands ∧
    (removeHeads s).link.holding = s.link.holding ∧ (removeHeads s).link.reports = s.link.reports ∧
    (removeHeads s).link.pathControl = s.link.pathControl ∧ (removeHeads s).link.forwarded = s.link.forwarded ∧
    (removeHeads s).link.linkStarted = s.link.linkStarted ∧ (removeHeads s).link.lowerTx = s.link.lowerTx ∧
    (removeHeads s).link.replies = s.link.replies ∧ (removeHeads s).link.notices = s.link.notices ∧
    (removeHeads s).link.lossCount = s.link.lossCount ∧ (removeHeads s).link.upperTx = s.link.upperTx ∧
    (removeHeads s).svc = s.svc ∧ (removeHeads s).cap = s.cap ∧ (removeHeads s).free = s.free := by
  simp only [removeHeads]
  (repeat' split) <;> simp [*]

@[simp] theorem queueControl_frame (f : PathControl) (s : State) :
    (queueControl f s).pending = s.pending ∧ (queueControl f s).load = s.load ∧
    (queueControl f s).tables = s.tables ∧ (queueControl f s).reached = s.reached ∧ (queueControl f s).pos = s.pos ∧
    (queueControl f s).front = s.front ∧ (queueControl f s).ret = s.ret ∧ (queueControl f s).fwd = s.fwd ∧
    (queueControl f s).trk = s.trk ∧ (queueControl f s).jam = s.jam ∧ (queueControl f s).plan = s.plan ∧
    (queueControl f s).sets = s.sets ∧ (queueControl f s).sup = s.sup ∧
    (queueControl f s).link.rxUpper = s.link.rxUpper ∧ (queueControl f s).link.rxLower = s.link.rxLower ∧
    (queueControl f s).link.commands = s.link.commands ∧ (queueControl f s).link.holding = s.link.holding ∧
    (queueControl f s).link.reports = s.link.reports ∧ (queueControl f s).link.forwarded = s.link.forwarded ∧
    (queueControl f s).link.linkStarted = s.link.linkStarted ∧ (queueControl f s).link.lowerTx = s.link.lowerTx ∧
    (queueControl f s).link.credit = s.link.credit ∧ (queueControl f s).link.replies = s.link.replies ∧
    (queueControl f s).link.notices = s.link.notices ∧ (queueControl f s).link.lossCount = s.link.lossCount ∧
    (queueControl f s).link.upperTx = s.link.upperTx ∧ (queueControl f s).svc = s.svc ∧
    (queueControl f s).cap = s.cap ∧ (queueControl f s).free = s.free := by
  simp only [queueControl]
  (repeat' split) <;> simp [*]

@[simp] theorem requestHalt_frame (s : State) :
    (requestHalt s).pending = s.pending ∧ (requestHalt s).load = s.load ∧ (requestHalt s).tables = s.tables ∧
    (requestHalt s).reached = s.reached ∧ (requestHalt s).pos = s.pos ∧
    (requestHalt s).front = s.front ∧ (requestHalt s).ret = s.ret ∧ (requestHalt s).fwd.f = s.fwd.f ∧
    (requestHalt s).fwd.speed = s.fwd.speed ∧ (requestHalt s).fwd.request = s.fwd.request ∧
    (requestHalt s).trk = s.trk ∧ (requestHalt s).jam = s.jam ∧ (requestHalt s).plan = s.plan ∧
    (requestHalt s).sets = s.sets ∧ (requestHalt s).sup = s.sup ∧ (requestHalt s).link.rxUpper = s.link.rxUpper ∧
    (requestHalt s).link.rxLower = s.link.rxLower ∧ (requestHalt s).link.commands = s.link.commands ∧
    (requestHalt s).link.holding = s.link.holding ∧ (requestHalt s).link.reports = s.link.reports ∧
    (requestHalt s).link.forwarded = s.link.forwarded ∧ (requestHalt s).link.linkStarted = s.link.linkStarted ∧
    (requestHalt s).link.lowerTx = s.link.lowerTx ∧ (requestHalt s).link.credit = s.link.credit ∧
    (requestHalt s).link.replies = s.link.replies ∧ (requestHalt s).link.notices = s.link.notices ∧
    (requestHalt s).link.lossCount = s.link.lossCount ∧ (requestHalt s).link.upperTx = s.link.upperTx ∧
    (requestHalt s).svc = s.svc ∧ (requestHalt s).cap = s.cap ∧ (requestHalt s).free = s.free := by
  simp only [requestHalt]
  (repeat' split) <;> simp [*]

@[simp] theorem retestBarriers_frame (s : State) :
    (retestBarriers s).pending = s.pending ∧ (retestBarriers s).load = s.load ∧
    (retestBarriers s).tables = s.tables ∧ (retestBarriers s).reached = s.reached ∧ (retestBarriers s).pos = s.pos ∧
    (retestBarriers s).front = s.front ∧ (retestBarriers s).ret = s.ret ∧ (retestBarriers s).fwd = s.fwd ∧
    (retestBarriers s).trk = s.trk ∧ (retestBarriers s).jam = s.jam ∧ (retestBarriers s).plan = s.plan ∧
    (retestBarriers s).sets = s.sets ∧ (retestBarriers s).sup = s.sup ∧
    (retestBarriers s).link.rxUpper = s.link.rxUpper ∧ (retestBarriers s).link.rxLower = s.link.rxLower ∧
    (retestBarriers s).link.holding = s.link.holding ∧ (retestBarriers s).link.reports = s.link.reports ∧
    (retestBarriers s).link.pathControl = s.link.pathControl ∧ (retestBarriers s).link.forwarded = s.link.forwarded ∧
    (retestBarriers s).link.linkStarted = s.link.linkStarted ∧ (retestBarriers s).link.lowerTx = s.link.lowerTx ∧
    (retestBarriers s).link.credit = s.link.credit ∧ (retestBarriers s).link.replies = s.link.replies ∧
    (retestBarriers s).link.notices = s.link.notices ∧ (retestBarriers s).link.lossCount = s.link.lossCount ∧
    (retestBarriers s).link.upperTx = s.link.upperTx ∧ (retestBarriers s).svc = s.svc ∧
    (retestBarriers s).cap = s.cap ∧ (retestBarriers s).free = s.free := by
  simp only [retestBarriers]
  (repeat' split) <;> simp [*]

@[simp] theorem grantLower_frame (s : State) :
    (grantLower s).pending = s.pending ∧ (grantLower s).load = s.load ∧ (grantLower s).tables = s.tables ∧
    (grantLower s).reached = s.reached ∧ (grantLower s).pos = s.pos ∧
    (grantLower s).front = s.front ∧ (grantLower s).ret = s.ret ∧ (grantLower s).fwd = s.fwd ∧
    (grantLower s).trk = s.trk ∧ (grantLower s).jam = s.jam ∧ (grantLower s).plan = s.plan ∧
    (grantLower s).sets = s.sets ∧ (grantLower s).sup = s.sup ∧ (grantLower s).link.rxUpper = s.link.rxUpper ∧
    (grantLower s).link.rxLower = s.link.rxLower ∧ (grantLower s).link.holding = s.link.holding ∧
    (grantLower s).link.reports = s.link.reports ∧ (grantLower s).link.linkStarted = s.link.linkStarted ∧
    (grantLower s).link.credit = s.link.credit ∧ (grantLower s).link.replies = s.link.replies ∧
    (grantLower s).link.notices = s.link.notices ∧ (grantLower s).link.lossCount = s.link.lossCount ∧
    (grantLower s).link.upperTx = s.link.upperTx ∧ (grantLower s).svc = s.svc ∧ (grantLower s).cap = s.cap ∧
    (grantLower s).free = s.free := by
  simp only [grantLower]
  (repeat' split) <;> simp [*]

@[simp] theorem grantUpper_frame (s : State) :
    (grantUpper s).pending = s.pending ∧ (grantUpper s).load = s.load ∧ (grantUpper s).tables = s.tables ∧
    (grantUpper s).reached = s.reached ∧ (grantUpper s).pos = s.pos ∧
    (grantUpper s).front = s.front ∧ (grantUpper s).ret = s.ret ∧ (grantUpper s).fwd = s.fwd ∧
    (grantUpper s).trk = s.trk ∧ (grantUpper s).jam = s.jam ∧ (grantUpper s).plan = s.plan ∧
    (grantUpper s).sets = s.sets ∧ (grantUpper s).sup = s.sup ∧ (grantUpper s).link.rxUpper = s.link.rxUpper ∧
    (grantUpper s).link.rxLower = s.link.rxLower ∧ (grantUpper s).link.commands = s.link.commands ∧
    (grantUpper s).link.holding = s.link.holding ∧ (grantUpper s).link.pathControl = s.link.pathControl ∧
    (grantUpper s).link.forwarded = s.link.forwarded ∧ (grantUpper s).link.linkStarted = s.link.linkStarted ∧
    (grantUpper s).link.lowerTx = s.link.lowerTx ∧ (grantUpper s).svc = s.svc ∧ (grantUpper s).cap = s.cap ∧
    (grantUpper s).free = s.free := by
  simp only [grantUpper]
  (repeat' split) <;> simp [*]

@[simp] theorem grantService_frame (s : State) :
    (grantService s).pending = s.pending ∧ (grantService s).load = s.load ∧ (grantService s).tables = s.tables ∧
    (grantService s).reached = s.reached ∧ (grantService s).pos = s.pos ∧
    (grantService s).front = s.front ∧ (grantService s).ret = s.ret ∧ (grantService s).fwd = s.fwd ∧
    (grantService s).trk = s.trk ∧ (grantService s).jam = s.jam ∧ (grantService s).plan = s.plan ∧
    (grantService s).sets = s.sets ∧ (grantService s).sup = s.sup ∧ (grantService s).link = s.link ∧
    (grantService s).svc.rx = s.svc.rx ∧ (grantService s).svc.claim = s.svc.claim ∧ (grantService s).cap = s.cap ∧
    (grantService s).free = s.free := by
  simp only [grantService]
  (repeat' split) <;> simp [*]

@[simp] theorem finish_frame (s : State) :
    (finish s).pending = s.pending ∧ (finish s).load = s.load ∧ (finish s).tables = s.tables ∧ (finish s).reached = s.reached ∧ (finish s).pos = s.pos ∧
    (finish s).front = s.front ∧ (finish s).ret = s.ret ∧ (finish s).fwd = s.fwd ∧ (finish s).trk = s.trk ∧
    (finish s).jam = s.jam ∧ (finish s).plan = s.plan ∧ (finish s).sets = s.sets ∧ (finish s).sup = s.sup ∧
    (finish s).link.rxUpper = s.link.rxUpper ∧ (finish s).link.rxLower = s.link.rxLower ∧
    (finish s).link.holding = s.link.holding ∧ (finish s).link.linkStarted = s.link.linkStarted ∧
    (finish s).svc.rx = s.svc.rx ∧ (finish s).svc.claim = s.svc.claim ∧ (finish s).cap = s.cap ∧
    (finish s).free = s.free := by
  simp only [finish]
  (repeat' split) <;> simp [*]

@[simp] theorem announceCause_frame (t : Treatment) (index : Nat) (c : Cause) (s : State) :
    (announceCause t index c s).pending = s.pending ∧ (announceCause t index c s).load = s.load ∧
    (announceCause t index c s).tables = s.tables ∧
    (announceCause t index c s).reached = s.reached ∧ (announceCause t index c s).pos = s.pos ∧ (announceCause t index c s).front = s.front ∧
    (announceCause t index c s).ret = s.ret ∧ (announceCause t index c s).fwd = s.fwd ∧
    (announceCause t index c s).trk = s.trk ∧ (announceCause t index c s).jam = s.jam ∧
    (announceCause t index c s).plan = s.plan ∧ (announceCause t index c s).sets = s.sets ∧
    (announceCause t index c s).sup = s.sup ∧ (announceCause t index c s).link.rxUpper = s.link.rxUpper ∧
    (announceCause t index c s).link.rxLower = s.link.rxLower ∧
    (announceCause t index c s).link.commands = s.link.commands ∧
    (announceCause t index c s).link.holding = s.link.holding ∧
    (announceCause t index c s).link.reports = s.link.reports ∧
    (announceCause t index c s).link.pathControl = s.link.pathControl ∧
    (announceCause t index c s).link.forwarded = s.link.forwarded ∧
    (announceCause t index c s).link.linkStarted = s.link.linkStarted ∧
    (announceCause t index c s).link.lowerTx = s.link.lowerTx ∧
    (announceCause t index c s).link.credit = s.link.credit ∧
    (announceCause t index c s).link.replies = s.link.replies ∧
    (announceCause t index c s).link.upperTx = s.link.upperTx ∧ (announceCause t index c s).svc.rx = s.svc.rx ∧
    (announceCause t index c s).svc.held = s.svc.held ∧ (announceCause t index c s).svc.claim = s.svc.claim ∧
    (announceCause t index c s).svc.reply = s.svc.reply ∧ (announceCause t index c s).svc.tx = s.svc.tx ∧
    (announceCause t index c s).cap.owner = s.cap.owner ∧ (announceCause t index c s).cap.mode = s.cap.mode ∧
    (announceCause t index c s).cap.mask = s.cap.mask := by
  simp only [announceCause]
  (repeat' split) <;> simp [*]

@[simp] theorem returnForwarded_frame (s : State) :
    (returnForwarded s).pending = s.pending ∧ (returnForwarded s).load = s.load ∧
    (returnForwarded s).tables = s.tables ∧
    (returnForwarded s).reached = s.reached ∧ (returnForwarded s).pos = s.pos ∧ (returnForwarded s).front = s.front ∧
    (returnForwarded s).ret.expected = s.ret.expected ∧ (returnForwarded s).ret.receiving = s.ret.receiving ∧
    (returnForwarded s).fwd = s.fwd ∧ (returnForwarded s).trk = s.trk ∧ (returnForwarded s).jam = s.jam ∧
    (returnForwarded s).plan = s.plan ∧ (returnForwarded s).sets = s.sets ∧ (returnForwarded s).sup = s.sup ∧
    (returnForwarded s).link.rxUpper = s.link.rxUpper ∧ (returnForwarded s).link.rxLower = s.link.rxLower ∧
    (returnForwarded s).link.commands = s.link.commands ∧ (returnForwarded s).link.holding = s.link.holding ∧
    (returnForwarded s).link.reports = s.link.reports ∧ (returnForwarded s).link.pathControl = s.link.pathControl ∧
    (returnForwarded s).link.linkStarted = s.link.linkStarted ∧ (returnForwarded s).link.lowerTx = s.link.lowerTx ∧
    (returnForwarded s).link.credit = s.link.credit ∧ (returnForwarded s).link.replies = s.link.replies ∧
    (returnForwarded s).link.notices = s.link.notices ∧ (returnForwarded s).link.lossCount = s.link.lossCount ∧
    (returnForwarded s).link.upperTx = s.link.upperTx ∧ (returnForwarded s).svc = s.svc ∧
    (returnForwarded s).cap = s.cap ∧ (returnForwarded s).free = s.free := by
  simp only [returnForwarded]
  (repeat' split) <;> simp [*]

@[simp] theorem dropSpeedChange_frame (s : State) :
    (dropSpeedChange s).pending = s.pending ∧ (dropSpeedChange s).load = s.load ∧
    (dropSpeedChange s).tables = s.tables ∧
    (dropSpeedChange s).reached = s.reached ∧ (dropSpeedChange s).pos = s.pos ∧ (dropSpeedChange s).front = s.front ∧ (dropSpeedChange s).ret = s.ret ∧
    (dropSpeedChange s).fwd.f = s.fwd.f ∧ (dropSpeedChange s).fwd.limit = s.fwd.limit ∧
    (dropSpeedChange s).fwd.windowHold = s.fwd.windowHold ∧ (dropSpeedChange s).fwd.speed = s.fwd.speed ∧
    (dropSpeedChange s).trk = s.trk ∧ (dropSpeedChange s).jam = s.jam ∧ (dropSpeedChange s).plan = s.plan ∧
    (dropSpeedChange s).sets = s.sets ∧ (dropSpeedChange s).sup.state = s.sup.state ∧
    (dropSpeedChange s).sup.pathHalt = s.sup.pathHalt ∧ (dropSpeedChange s).sup.resetCause = s.sup.resetCause ∧
    (dropSpeedChange s).sup.heldReason = s.sup.heldReason ∧ (dropSpeedChange s).sup.purge = s.sup.purge ∧
    (dropSpeedChange s).link = s.link ∧ (dropSpeedChange s).svc = s.svc ∧ (dropSpeedChange s).cap = s.cap ∧
    (dropSpeedChange s).free = s.free := by
  simp only [dropSpeedChange]
  (repeat' split) <;> simp [*]

@[simp] theorem startCauses_frame (c : Cause) (s : State) :
    (startCauses c s).pending = s.pending ∧ (startCauses c s).load = s.load ∧ (startCauses c s).tables = s.tables ∧
    (startCauses c s).reached = s.reached ∧ (startCauses c s).pos = s.pos ∧
    (startCauses c s).front = s.front ∧ (startCauses c s).ret = s.ret ∧ (startCauses c s).fwd = s.fwd ∧
    (startCauses c s).trk = s.trk ∧ (startCauses c s).jam.deferred = s.jam.deferred ∧
    (startCauses c s).plan = s.plan ∧ (startCauses c s).sets = s.sets ∧ (startCauses c s).sup = s.sup ∧
    (startCauses c s).link = s.link ∧ (startCauses c s).svc = s.svc ∧ (startCauses c s).cap = s.cap ∧
    (startCauses c s).free = s.free := by
  simp only [startCauses]
  (repeat' split) <;> simp [*]

@[simp] theorem keepReached_frame (s : State) :
    (keepReached s).pending = s.pending ∧
    (keepReached s).load = s.load ∧
    (keepReached s).tables = s.tables ∧
    (keepReached s).pos = s.pos ∧
    (keepReached s).front = s.front ∧
    (keepReached s).ret = s.ret ∧
    (keepReached s).fwd = s.fwd ∧
    (keepReached s).trk = s.trk ∧
    (keepReached s).jam = s.jam ∧
    (keepReached s).plan = s.plan ∧
    (keepReached s).sets = s.sets ∧
    (keepReached s).sup = s.sup ∧
    (keepReached s).link = s.link ∧
    (keepReached s).svc = s.svc ∧
    (keepReached s).cap = s.cap ∧
    (keepReached s).free = s.free := by
  simp [keepReached]

@[simp] theorem coverSettled_frame (c : Cover) (s : State) :
    (coverSettled c s).pending = s.pending ∧
    (coverSettled c s).load = s.load ∧
    (coverSettled c s).tables = s.tables ∧
    (coverSettled c s).pos = s.pos ∧
    (coverSettled c s).front = s.front ∧
    (coverSettled c s).ret = s.ret ∧
    (coverSettled c s).fwd = s.fwd ∧
    (coverSettled c s).trk = s.trk ∧
    (coverSettled c s).jam = s.jam ∧
    (coverSettled c s).plan = s.plan ∧
    (coverSettled c s).sets = s.sets ∧
    (coverSettled c s).sup = s.sup ∧
    (coverSettled c s).link = s.link ∧
    (coverSettled c s).svc = s.svc ∧
    (coverSettled c s).cap = s.cap ∧
    (coverSettled c s).free = s.free := by
  simp [coverSettled]

@[simp] theorem lateSettled_frame (st : Station) (x : Expectation) (s : State) :
    (lateSettled st x s).pending = s.pending ∧
    (lateSettled st x s).load = s.load ∧
    (lateSettled st x s).tables = s.tables ∧
    (lateSettled st x s).pos = s.pos ∧
    (lateSettled st x s).front = s.front ∧
    (lateSettled st x s).ret = s.ret ∧
    (lateSettled st x s).fwd = s.fwd ∧
    (lateSettled st x s).trk = s.trk ∧
    (lateSettled st x s).jam = s.jam ∧
    (lateSettled st x s).plan = s.plan ∧
    (lateSettled st x s).sets = s.sets ∧
    (lateSettled st x s).sup = s.sup ∧
    (lateSettled st x s).link = s.link ∧
    (lateSettled st x s).svc = s.svc ∧
    (lateSettled st x s).cap = s.cap ∧
    (lateSettled st x s).free = s.free := by
  simp [lateSettled]

@[simp] theorem lateSettled_nothing (st : Station) (x : Expectation) (s : State) (h : s.reached = .nothing) :
    (lateSettled st x s).reached = .nothing := by
  simp [lateSettled, h, Reached.nothing]

@[simp] theorem stuckSettled_frame (st : Station) (o : Occupant) (s : State) :
    (stuckSettled st o s).pending = s.pending ∧
    (stuckSettled st o s).load = s.load ∧
    (stuckSettled st o s).tables = s.tables ∧
    (stuckSettled st o s).pos = s.pos ∧
    (stuckSettled st o s).front = s.front ∧
    (stuckSettled st o s).ret = s.ret ∧
    (stuckSettled st o s).fwd = s.fwd ∧
    (stuckSettled st o s).trk = s.trk ∧
    (stuckSettled st o s).jam = s.jam ∧
    (stuckSettled st o s).plan = s.plan ∧
    (stuckSettled st o s).sets = s.sets ∧
    (stuckSettled st o s).sup = s.sup ∧
    (stuckSettled st o s).link = s.link ∧
    (stuckSettled st o s).svc = s.svc ∧
    (stuckSettled st o s).cap = s.cap ∧
    (stuckSettled st o s).free = s.free := by
  simp [stuckSettled]

@[simp] theorem stuckSettled_nothing (st : Station) (o : Occupant) (s : State) (h : s.reached = .nothing) :
    (stuckSettled st o s).reached = .nothing := by
  simp [stuckSettled, h, Reached.nothing]

@[simp] theorem declareStop_frame (c : Cause) (s : State) :
    (declareStop c s).pending = s.pending ∧ (declareStop c s).load = s.load ∧ (declareStop c s).tables = s.tables ∧
    (declareStop c s).pos.clock = s.pos.clock ∧ (declareStop c s).pos.p = s.pos.p ∧
    (declareStop c s).pos.lastPulse = s.pos.lastPulse ∧ (declareStop c s).pos.msCount = s.pos.msCount ∧
    (declareStop c s).pos.trunRaw = s.pos.trunRaw ∧ (declareStop c s).pos.trunQual = s.pos.trunQual ∧
    (declareStop c s).pos.trunPending = s.pos.trunPending ∧ (declareStop c s).front.covers = s.front.covers ∧
    (declareStop c s).ret.expected = s.ret.expected ∧ (declareStop c s).ret.receiving = s.ret.receiving ∧
    (declareStop c s).fwd.f = s.fwd.f ∧ (declareStop c s).fwd.speed = s.fwd.speed ∧
    (declareStop c s).trk.table = s.trk.table ∧ (declareStop c s).trk.lists = s.trk.lists ∧
    (declareStop c s).trk.slots = s.trk.slots ∧ (declareStop c s).jam.deferred = s.jam.deferred ∧
    (declareStop c s).plan = s.plan ∧ (declareStop c s).sets = s.sets ∧
    (declareStop c s).sup.resetCause = s.sup.resetCause ∧ (declareStop c s).link.rxUpper = s.link.rxUpper ∧
    (declareStop c s).link.rxLower = s.link.rxLower ∧ (declareStop c s).link.commands = s.link.commands ∧
    (declareStop c s).link.holding = s.link.holding ∧ (declareStop c s).link.reports = s.link.reports ∧
    (declareStop c s).link.linkStarted = s.link.linkStarted ∧ (declareStop c s).link.lowerTx = s.link.lowerTx ∧
    (declareStop c s).link.credit = s.link.credit ∧ (declareStop c s).link.replies = s.link.replies ∧
    (declareStop c s).link.upperTx = s.link.upperTx ∧ (declareStop c s).svc.rx = s.svc.rx ∧
    (declareStop c s).svc.held = s.svc.held ∧ (declareStop c s).svc.claim = s.svc.claim ∧
    (declareStop c s).svc.reply = s.svc.reply ∧ (declareStop c s).svc.tx = s.svc.tx ∧
    (declareStop c s).cap.owner = s.cap.owner ∧ (declareStop c s).cap.mode = s.cap.mode ∧
    (declareStop c s).cap.mask = s.cap.mask := by
  simp only [declareStop]
  (repeat' split) <;> simp [*]

@[simp] theorem joinStop_frame (c : Cause) (s : State) :
    (joinStop c s).pending = s.pending ∧ (joinStop c s).load = s.load ∧ (joinStop c s).tables = s.tables ∧
    (joinStop c s).reached = s.reached ∧ (joinStop c s).pos = s.pos ∧
    (joinStop c s).front = s.front ∧ (joinStop c s).ret = s.ret ∧ (joinStop c s).fwd = s.fwd ∧
    (joinStop c s).trk = s.trk ∧ (joinStop c s).jam.deferred = s.jam.deferred ∧ (joinStop c s).plan = s.plan ∧
    (joinStop c s).sets = s.sets ∧ (joinStop c s).sup = s.sup ∧ (joinStop c s).link.rxUpper = s.link.rxUpper ∧
    (joinStop c s).link.rxLower = s.link.rxLower ∧ (joinStop c s).link.commands = s.link.commands ∧
    (joinStop c s).link.holding = s.link.holding ∧ (joinStop c s).link.reports = s.link.reports ∧
    (joinStop c s).link.pathControl = s.link.pathControl ∧ (joinStop c s).link.forwarded = s.link.forwarded ∧
    (joinStop c s).link.linkStarted = s.link.linkStarted ∧ (joinStop c s).link.lowerTx = s.link.lowerTx ∧
    (joinStop c s).link.credit = s.link.credit ∧ (joinStop c s).link.replies = s.link.replies ∧
    (joinStop c s).link.upperTx = s.link.upperTx ∧ (joinStop c s).svc.rx = s.svc.rx ∧
    (joinStop c s).svc.held = s.svc.held ∧ (joinStop c s).svc.claim = s.svc.claim ∧
    (joinStop c s).svc.reply = s.svc.reply ∧ (joinStop c s).svc.tx = s.svc.tx ∧
    (joinStop c s).cap.owner = s.cap.owner ∧ (joinStop c s).cap.mode = s.cap.mode ∧
    (joinStop c s).cap.mask = s.cap.mask := by
  simp only [joinStop]
  (repeat' split) <;> simp [*]

@[simp] theorem deferCause_frame (c : Cause) (s : State) :
    (deferCause c s).pending = s.pending ∧ (deferCause c s).load = s.load ∧ (deferCause c s).tables = s.tables ∧
    (deferCause c s).reached = s.reached ∧ (deferCause c s).pos = s.pos ∧
    (deferCause c s).front = s.front ∧ (deferCause c s).ret = s.ret ∧ (deferCause c s).fwd = s.fwd ∧
    (deferCause c s).trk = s.trk ∧ (deferCause c s).jam.causes = s.jam.causes ∧
    (deferCause c s).jam.more = s.jam.more ∧ (deferCause c s).plan = s.plan ∧ (deferCause c s).sets = s.sets ∧
    (deferCause c s).sup = s.sup ∧ (deferCause c s).link.rxUpper = s.link.rxUpper ∧
    (deferCause c s).link.rxLower = s.link.rxLower ∧ (deferCause c s).link.commands = s.link.commands ∧
    (deferCause c s).link.holding = s.link.holding ∧ (deferCause c s).link.reports = s.link.reports ∧
    (deferCause c s).link.pathControl = s.link.pathControl ∧ (deferCause c s).link.forwarded = s.link.forwarded ∧
    (deferCause c s).link.linkStarted = s.link.linkStarted ∧ (deferCause c s).link.lowerTx = s.link.lowerTx ∧
    (deferCause c s).link.credit = s.link.credit ∧ (deferCause c s).link.replies = s.link.replies ∧
    (deferCause c s).link.upperTx = s.link.upperTx ∧ (deferCause c s).svc.rx = s.svc.rx ∧
    (deferCause c s).svc.held = s.svc.held ∧ (deferCause c s).svc.claim = s.svc.claim ∧
    (deferCause c s).svc.reply = s.svc.reply ∧ (deferCause c s).svc.tx = s.svc.tx ∧
    (deferCause c s).cap.owner = s.cap.owner ∧ (deferCause c s).cap.mode = s.cap.mode ∧
    (deferCause c s).cap.mask = s.cap.mask := by
  simp only [deferCause]
  (repeat' split) <;> simp [*]

@[simp] theorem takeCause_frame (c : Cause) (s : State) :
    (takeCause c s).pending = s.pending ∧ (takeCause c s).load = s.load ∧ (takeCause c s).tables = s.tables ∧
    (takeCause c s).pos.clock = s.pos.clock ∧ (takeCause c s).pos.p = s.pos.p ∧
    (takeCause c s).pos.lastPulse = s.pos.lastPulse ∧ (takeCause c s).pos.msCount = s.pos.msCount ∧
    (takeCause c s).pos.trunRaw = s.pos.trunRaw ∧ (takeCause c s).pos.trunQual = s.pos.trunQual ∧
    (takeCause c s).pos.trunPending = s.pos.trunPending ∧ (takeCause c s).front.covers = s.front.covers ∧
    (takeCause c s).ret.expected = s.ret.expected ∧ (takeCause c s).ret.receiving = s.ret.receiving ∧
    (takeCause c s).fwd.f = s.fwd.f ∧ (takeCause c s).fwd.speed = s.fwd.speed ∧
    (takeCause c s).trk.table = s.trk.table ∧ (takeCause c s).trk.lists = s.trk.lists ∧
    (takeCause c s).trk.slots = s.trk.slots ∧ (takeCause c s).plan = s.plan ∧ (takeCause c s).sets = s.sets ∧
    (takeCause c s).sup.resetCause = s.sup.resetCause ∧ (takeCause c s).link.rxUpper = s.link.rxUpper ∧
    (takeCause c s).link.rxLower = s.link.rxLower ∧ (takeCause c s).link.commands = s.link.commands ∧
    (takeCause c s).link.holding = s.link.holding ∧ (takeCause c s).link.reports = s.link.reports ∧
    (takeCause c s).link.linkStarted = s.link.linkStarted ∧ (takeCause c s).link.lowerTx = s.link.lowerTx ∧
    (takeCause c s).link.credit = s.link.credit ∧ (takeCause c s).link.replies = s.link.replies ∧
    (takeCause c s).link.upperTx = s.link.upperTx ∧ (takeCause c s).svc.rx = s.svc.rx ∧
    (takeCause c s).svc.held = s.svc.held ∧ (takeCause c s).svc.claim = s.svc.claim ∧
    (takeCause c s).svc.reply = s.svc.reply ∧ (takeCause c s).svc.tx = s.svc.tx ∧
    (takeCause c s).cap.owner = s.cap.owner ∧ (takeCause c s).cap.mode = s.cap.mode ∧
    (takeCause c s).cap.mask = s.cap.mask := by
  simp only [takeCause]
  (repeat' split) <;> simp [*]

theorem takeReports_fold (l : List Report) (s t : State)
    (h : t = l.foldl (fun s r => takeCause (trackerCause s r) s) s) :
    t.pending = s.pending ∧ t.load = s.load ∧ t.tables = s.tables ∧ t.pos.clock = s.pos.clock ∧ t.pos.p = s.pos.p ∧
    t.pos.lastPulse = s.pos.lastPulse ∧ t.pos.msCount = s.pos.msCount ∧ t.pos.trunRaw = s.pos.trunRaw ∧
    t.pos.trunQual = s.pos.trunQual ∧ t.pos.trunPending = s.pos.trunPending ∧ t.front.covers = s.front.covers ∧
    t.ret.expected = s.ret.expected ∧ t.ret.receiving = s.ret.receiving ∧ t.fwd.f = s.fwd.f ∧
    t.fwd.speed = s.fwd.speed ∧ t.trk.table = s.trk.table ∧ t.trk.lists = s.trk.lists ∧ t.trk.slots = s.trk.slots ∧
    t.plan = s.plan ∧ t.sets = s.sets ∧ t.sup.resetCause = s.sup.resetCause ∧ t.link.rxUpper = s.link.rxUpper ∧
    t.link.rxLower = s.link.rxLower ∧ t.link.commands = s.link.commands ∧ t.link.holding = s.link.holding ∧
    t.link.reports = s.link.reports ∧ t.link.linkStarted = s.link.linkStarted ∧ t.link.lowerTx = s.link.lowerTx ∧
    t.link.credit = s.link.credit ∧ t.link.replies = s.link.replies ∧ t.link.upperTx = s.link.upperTx ∧
    t.svc.rx = s.svc.rx ∧ t.svc.held = s.svc.held ∧ t.svc.claim = s.svc.claim ∧ t.svc.reply = s.svc.reply ∧
    t.svc.tx = s.svc.tx ∧ t.cap.owner = s.cap.owner ∧ t.cap.mode = s.cap.mode ∧ t.cap.mask = s.cap.mask := by
  subst h
  induction l generalizing s with
  | nil => simp
  | cons a l ih => rw [List.foldl_cons]; simp [ih]; try (split <;> simp)

@[simp] theorem takeReports_frame (rs : List Report) (s : State) :
    (takeReports rs s).pending = s.pending ∧ (takeReports rs s).load = s.load ∧ (takeReports rs s).tables = s.tables ∧
    (takeReports rs s).pos.clock = s.pos.clock ∧ (takeReports rs s).pos.p = s.pos.p ∧
    (takeReports rs s).pos.lastPulse = s.pos.lastPulse ∧ (takeReports rs s).pos.msCount = s.pos.msCount ∧
    (takeReports rs s).pos.trunRaw = s.pos.trunRaw ∧ (takeReports rs s).pos.trunQual = s.pos.trunQual ∧
    (takeReports rs s).pos.trunPending = s.pos.trunPending ∧ (takeReports rs s).front.covers = s.front.covers ∧
    (takeReports rs s).ret.expected = s.ret.expected ∧ (takeReports rs s).ret.receiving = s.ret.receiving ∧
    (takeReports rs s).fwd.f = s.fwd.f ∧ (takeReports rs s).fwd.speed = s.fwd.speed ∧
    (takeReports rs s).trk.table = s.trk.table ∧ (takeReports rs s).trk.lists = s.trk.lists ∧
    (takeReports rs s).trk.slots = s.trk.slots ∧ (takeReports rs s).plan = s.plan ∧ (takeReports rs s).sets = s.sets ∧
    (takeReports rs s).sup.resetCause = s.sup.resetCause ∧ (takeReports rs s).link.rxUpper = s.link.rxUpper ∧
    (takeReports rs s).link.rxLower = s.link.rxLower ∧ (takeReports rs s).link.commands = s.link.commands ∧
    (takeReports rs s).link.holding = s.link.holding ∧ (takeReports rs s).link.reports = s.link.reports ∧
    (takeReports rs s).link.linkStarted = s.link.linkStarted ∧ (takeReports rs s).link.lowerTx = s.link.lowerTx ∧
    (takeReports rs s).link.credit = s.link.credit ∧ (takeReports rs s).link.replies = s.link.replies ∧
    (takeReports rs s).link.upperTx = s.link.upperTx ∧ (takeReports rs s).svc.rx = s.svc.rx ∧
    (takeReports rs s).svc.held = s.svc.held ∧ (takeReports rs s).svc.claim = s.svc.claim ∧
    (takeReports rs s).svc.reply = s.svc.reply ∧ (takeReports rs s).svc.tx = s.svc.tx ∧
    (takeReports rs s).cap.owner = s.cap.owner ∧ (takeReports rs s).cap.mode = s.cap.mode ∧
    (takeReports rs s).cap.mask = s.cap.mask := by
  simp only [takeReports]
  simp [takeReports_fold _ _ _ rfl]

@[simp] theorem forwardEntry_frame (e : Entry) (s : State) :
    (forwardEntry e s).pending = s.pending ∧ (forwardEntry e s).load = s.load ∧ (forwardEntry e s).tables = s.tables ∧
    (forwardEntry e s).pos.clock = s.pos.clock ∧ (forwardEntry e s).pos.p = s.pos.p ∧
    (forwardEntry e s).pos.lastPulse = s.pos.lastPulse ∧ (forwardEntry e s).pos.msCount = s.pos.msCount ∧
    (forwardEntry e s).pos.trunRaw = s.pos.trunRaw ∧ (forwardEntry e s).pos.trunQual = s.pos.trunQual ∧
    (forwardEntry e s).pos.trunPending = s.pos.trunPending ∧ (forwardEntry e s).front.covers = s.front.covers ∧
    (forwardEntry e s).ret.expected = s.ret.expected ∧ (forwardEntry e s).ret.receiving = s.ret.receiving ∧
    (forwardEntry e s).fwd.limit = s.fwd.limit ∧ (forwardEntry e s).fwd.windowHold = s.fwd.windowHold ∧
    (forwardEntry e s).fwd.speed = s.fwd.speed ∧ (forwardEntry e s).fwd.request = s.fwd.request ∧
    (forwardEntry e s).trk.table = s.trk.table ∧ (forwardEntry e s).trk.lists = s.trk.lists ∧
    (forwardEntry e s).trk.slots = s.trk.slots ∧ (forwardEntry e s).jam = s.jam ∧ (forwardEntry e s).plan = s.plan ∧
    (forwardEntry e s).sets = s.sets ∧ (forwardEntry e s).sup.resetCause = s.sup.resetCause ∧
    (forwardEntry e s).sup.speedWait = s.sup.speedWait ∧ (forwardEntry e s).link.rxUpper = s.link.rxUpper ∧
    (forwardEntry e s).link.rxLower = s.link.rxLower ∧ (forwardEntry e s).link.commands = s.link.commands ∧
    (forwardEntry e s).link.holding = s.link.holding ∧ (forwardEntry e s).link.reports = s.link.reports ∧
    (forwardEntry e s).link.pathControl = s.link.pathControl ∧
    (forwardEntry e s).link.linkStarted = s.link.linkStarted ∧ (forwardEntry e s).link.lowerTx = s.link.lowerTx ∧
    (forwardEntry e s).link.credit = s.link.credit ∧ (forwardEntry e s).link.replies = s.link.replies ∧
    (forwardEntry e s).link.upperTx = s.link.upperTx ∧ (forwardEntry e s).svc.rx = s.svc.rx ∧
    (forwardEntry e s).svc.held = s.svc.held ∧ (forwardEntry e s).svc.claim = s.svc.claim ∧
    (forwardEntry e s).svc.reply = s.svc.reply ∧ (forwardEntry e s).svc.tx = s.svc.tx ∧
    (forwardEntry e s).cap.owner = s.cap.owner ∧ (forwardEntry e s).cap.mode = s.cap.mode ∧
    (forwardEntry e s).cap.mask = s.cap.mask ∧ (forwardEntry e s).free = s.free := by
  simp only [forwardEntry]
  (repeat' split) <;> simp [*]

@[simp] theorem considerQueue_frame (n : Nat) (s : State) :
    (considerQueue n s).pending = s.pending ∧ (considerQueue n s).load = s.load ∧
    (considerQueue n s).tables = s.tables ∧
    (considerQueue n s).pos.clock = s.pos.clock ∧ (considerQueue n s).pos.p = s.pos.p ∧
    (considerQueue n s).pos.lastPulse = s.pos.lastPulse ∧ (considerQueue n s).pos.msCount = s.pos.msCount ∧
    (considerQueue n s).pos.trunRaw = s.pos.trunRaw ∧ (considerQueue n s).pos.trunQual = s.pos.trunQual ∧
    (considerQueue n s).pos.trunPending = s.pos.trunPending ∧ (considerQueue n s).front.covers = s.front.covers ∧
    (considerQueue n s).ret.expected = s.ret.expected ∧ (considerQueue n s).ret.receiving = s.ret.receiving ∧
    (considerQueue n s).fwd.limit = s.fwd.limit ∧ (considerQueue n s).fwd.windowHold = s.fwd.windowHold ∧
    (considerQueue n s).fwd.speed = s.fwd.speed ∧ (considerQueue n s).trk.table = s.trk.table ∧
    (considerQueue n s).trk.lists = s.trk.lists ∧ (considerQueue n s).trk.slots = s.trk.slots ∧
    (considerQueue n s).jam = s.jam ∧ (considerQueue n s).plan = s.plan ∧ (considerQueue n s).sets = s.sets ∧
    (considerQueue n s).sup.resetCause = s.sup.resetCause ∧ (considerQueue n s).sup.speedWait = s.sup.speedWait ∧
    (considerQueue n s).link.rxUpper = s.link.rxUpper ∧ (considerQueue n s).link.rxLower = s.link.rxLower ∧
    (considerQueue n s).link.commands = s.link.commands ∧ (considerQueue n s).link.holding = s.link.holding ∧
    (considerQueue n s).link.reports = s.link.reports ∧ (considerQueue n s).link.pathControl = s.link.pathControl ∧
    (considerQueue n s).link.linkStarted = s.link.linkStarted ∧ (considerQueue n s).link.lowerTx = s.link.lowerTx ∧
    (considerQueue n s).link.credit = s.link.credit ∧ (considerQueue n s).link.replies = s.link.replies ∧
    (considerQueue n s).link.upperTx = s.link.upperTx ∧ (considerQueue n s).svc.rx = s.svc.rx ∧
    (considerQueue n s).svc.held = s.svc.held ∧ (considerQueue n s).svc.claim = s.svc.claim ∧
    (considerQueue n s).svc.reply = s.svc.reply ∧ (considerQueue n s).svc.tx = s.svc.tx ∧
    (considerQueue n s).cap.owner = s.cap.owner ∧ (considerQueue n s).cap.mode = s.cap.mode ∧
    (considerQueue n s).cap.mask = s.cap.mask ∧ (considerQueue n s).free = s.free := by
  induction n generalizing s with
  | zero => simp [considerQueue]
  | succ n ih =>
    simp only [considerQueue]
    (repeat' split) <;> simp [ih]

@[simp] theorem reviewRequest_frame (s : State) :
    (reviewRequest s).pending = s.pending ∧ (reviewRequest s).load = s.load ∧ (reviewRequest s).tables = s.tables ∧
    (reviewRequest s).reached = s.reached ∧ (reviewRequest s).pos = s.pos ∧
    (reviewRequest s).front = s.front ∧ (reviewRequest s).ret = s.ret ∧ (reviewRequest s).fwd.f = s.fwd.f ∧
    (reviewRequest s).fwd.limit = s.fwd.limit ∧ (reviewRequest s).fwd.windowHold = s.fwd.windowHold ∧
    (reviewRequest s).fwd.speed = s.fwd.speed ∧ (reviewRequest s).trk = s.trk ∧ (reviewRequest s).jam = s.jam ∧
    (reviewRequest s).plan = s.plan ∧ (reviewRequest s).sets = s.sets ∧ (reviewRequest s).sup = s.sup ∧
    (reviewRequest s).link = s.link ∧ (reviewRequest s).svc = s.svc ∧ (reviewRequest s).cap = s.cap ∧
    (reviewRequest s).free = s.free := by
  simp only [reviewRequest]
  (repeat' split) <;> simp [*]

@[simp] theorem drainCheck_frame (s : State) :
    (drainCheck s).pending = s.pending ∧ (drainCheck s).load = s.load ∧ (drainCheck s).tables = s.tables ∧
    (drainCheck s).pos.clock = s.pos.clock ∧
    (drainCheck s).pos.p = s.pos.p ∧ (drainCheck s).pos.lastPulse = s.pos.lastPulse ∧
    (drainCheck s).pos.msCount = s.pos.msCount ∧ (drainCheck s).pos.trunRaw = s.pos.trunRaw ∧
    (drainCheck s).pos.trunQual = s.pos.trunQual ∧ (drainCheck s).pos.trunPending = s.pos.trunPending ∧
    (drainCheck s).front.covers = s.front.covers ∧ (drainCheck s).ret = s.ret ∧ (drainCheck s).fwd = s.fwd ∧
    (drainCheck s).trk.table = s.trk.table ∧ (drainCheck s).trk.lists = s.trk.lists ∧
    (drainCheck s).trk.slots = s.trk.slots ∧ (drainCheck s).jam = s.jam ∧ (drainCheck s).plan = s.plan ∧
    (drainCheck s).sets = s.sets ∧ (drainCheck s).sup.resetCause = s.sup.resetCause ∧
    (drainCheck s).sup.speedWait = s.sup.speedWait ∧ (drainCheck s).link.rxUpper = s.link.rxUpper ∧
    (drainCheck s).link.rxLower = s.link.rxLower ∧ (drainCheck s).link.commands = s.link.commands ∧
    (drainCheck s).link.holding = s.link.holding ∧ (drainCheck s).link.reports = s.link.reports ∧
    (drainCheck s).link.forwarded = s.link.forwarded ∧ (drainCheck s).link.linkStarted = s.link.linkStarted ∧
    (drainCheck s).link.lowerTx = s.link.lowerTx ∧ (drainCheck s).link.credit = s.link.credit ∧
    (drainCheck s).link.replies = s.link.replies ∧ (drainCheck s).link.upperTx = s.link.upperTx ∧
    (drainCheck s).svc.rx = s.svc.rx ∧ (drainCheck s).svc.held = s.svc.held ∧ (drainCheck s).svc.claim = s.svc.claim ∧
    (drainCheck s).svc.reply = s.svc.reply ∧ (drainCheck s).svc.tx = s.svc.tx ∧
    (drainCheck s).cap.owner = s.cap.owner ∧ (drainCheck s).cap.mode = s.cap.mode ∧
    (drainCheck s).cap.mask = s.cap.mask ∧ (drainCheck s).free = s.free := by
  simp only [drainCheck]
  (repeat' split) <;> simp [*]

@[simp] theorem enterHeld_frame (reason : HeldReason) (n : OrderNo) (s : State) :
    (enterHeld reason n s).pending = s.pending ∧ (enterHeld reason n s).load = s.load ∧
    (enterHeld reason n s).tables = s.tables ∧
    (enterHeld reason n s).pos.clock = s.pos.clock ∧ (enterHeld reason n s).pos.p = s.pos.p ∧
    (enterHeld reason n s).pos.lastPulse = s.pos.lastPulse ∧ (enterHeld reason n s).pos.msCount = s.pos.msCount ∧
    (enterHeld reason n s).pos.trunRaw = s.pos.trunRaw ∧ (enterHeld reason n s).pos.trunQual = s.pos.trunQual ∧
    (enterHeld reason n s).pos.trunPending = s.pos.trunPending ∧
    (enterHeld reason n s).front.covers = s.front.covers ∧ (enterHeld reason n s).ret = s.ret ∧
    (enterHeld reason n s).fwd = s.fwd ∧ (enterHeld reason n s).trk.table = s.trk.table ∧
    (enterHeld reason n s).trk.lists = s.trk.lists ∧ (enterHeld reason n s).trk.slots = s.trk.slots ∧
    (enterHeld reason n s).jam = s.jam ∧ (enterHeld reason n s).plan = s.plan ∧ (enterHeld reason n s).sets = s.sets ∧
    (enterHeld reason n s).sup.resetCause = s.sup.resetCause ∧
    (enterHeld reason n s).sup.speedWait = s.sup.speedWait ∧ (enterHeld reason n s).link.rxUpper = s.link.rxUpper ∧
    (enterHeld reason n s).link.rxLower = s.link.rxLower ∧ (enterHeld reason n s).link.commands = s.link.commands ∧
    (enterHeld reason n s).link.holding = s.link.holding ∧ (enterHeld reason n s).link.reports = s.link.reports ∧
    (enterHeld reason n s).link.pathControl = s.link.pathControl ∧
    (enterHeld reason n s).link.forwarded = s.link.forwarded ∧
    (enterHeld reason n s).link.linkStarted = s.link.linkStarted ∧
    (enterHeld reason n s).link.lowerTx = s.link.lowerTx ∧ (enterHeld reason n s).link.credit = s.link.credit ∧
    (enterHeld reason n s).link.replies = s.link.replies ∧ (enterHeld reason n s).link.upperTx = s.link.upperTx ∧
    (enterHeld reason n s).svc.rx = s.svc.rx ∧ (enterHeld reason n s).svc.held = s.svc.held ∧
    (enterHeld reason n s).svc.claim = s.svc.claim ∧ (enterHeld reason n s).svc.reply = s.svc.reply ∧
    (enterHeld reason n s).svc.tx = s.svc.tx ∧ (enterHeld reason n s).cap.owner = s.cap.owner ∧
    (enterHeld reason n s).cap.mode = s.cap.mode ∧ (enterHeld reason n s).cap.mask = s.cap.mask ∧
    (enterHeld reason n s).free = s.free := by
  simp only [enterHeld]
  (repeat' split) <;> simp [*]

@[simp] theorem heldCheck_frame (s : State) :
    (heldCheck s).pending = s.pending ∧ (heldCheck s).load = s.load ∧ (heldCheck s).tables = s.tables ∧
    (heldCheck s).pos.clock = s.pos.clock ∧
    (heldCheck s).pos.p = s.pos.p ∧ (heldCheck s).pos.lastPulse = s.pos.lastPulse ∧
    (heldCheck s).pos.msCount = s.pos.msCount ∧ (heldCheck s).pos.trunRaw = s.pos.trunRaw ∧
    (heldCheck s).pos.trunQual = s.pos.trunQual ∧ (heldCheck s).pos.trunPending = s.pos.trunPending ∧
    (heldCheck s).front.covers = s.front.covers ∧ (heldCheck s).ret = s.ret ∧ (heldCheck s).fwd = s.fwd ∧
    (heldCheck s).trk.table = s.trk.table ∧ (heldCheck s).trk.lists = s.trk.lists ∧
    (heldCheck s).trk.slots = s.trk.slots ∧ (heldCheck s).jam = s.jam ∧ (heldCheck s).plan = s.plan ∧
    (heldCheck s).sets = s.sets ∧ (heldCheck s).sup.resetCause = s.sup.resetCause ∧
    (heldCheck s).sup.speedWait = s.sup.speedWait ∧ (heldCheck s).link.rxUpper = s.link.rxUpper ∧
    (heldCheck s).link.rxLower = s.link.rxLower ∧ (heldCheck s).link.commands = s.link.commands ∧
    (heldCheck s).link.holding = s.link.holding ∧ (heldCheck s).link.reports = s.link.reports ∧
    (heldCheck s).link.pathControl = s.link.pathControl ∧ (heldCheck s).link.forwarded = s.link.forwarded ∧
    (heldCheck s).link.linkStarted = s.link.linkStarted ∧ (heldCheck s).link.lowerTx = s.link.lowerTx ∧
    (heldCheck s).link.credit = s.link.credit ∧ (heldCheck s).link.replies = s.link.replies ∧
    (heldCheck s).link.upperTx = s.link.upperTx ∧ (heldCheck s).svc.rx = s.svc.rx ∧
    (heldCheck s).svc.held = s.svc.held ∧ (heldCheck s).svc.claim = s.svc.claim ∧
    (heldCheck s).svc.reply = s.svc.reply ∧ (heldCheck s).svc.tx = s.svc.tx ∧ (heldCheck s).cap.owner = s.cap.owner ∧
    (heldCheck s).cap.mode = s.cap.mode ∧ (heldCheck s).cap.mask = s.cap.mask ∧ (heldCheck s).free = s.free := by
  simp only [heldCheck]
  (repeat' split) <;> simp [*]

@[simp] theorem idleCheck_frame (s : State) :
    (idleCheck s).pending = s.pending ∧ (idleCheck s).load = s.load ∧ (idleCheck s).tables = s.tables ∧
    (idleCheck s).pos.clock = s.pos.clock ∧
    (idleCheck s).pos.p = s.pos.p ∧ (idleCheck s).pos.lastPulse = s.pos.lastPulse ∧
    (idleCheck s).pos.msCount = s.pos.msCount ∧ (idleCheck s).pos.trunRaw = s.pos.trunRaw ∧
    (idleCheck s).pos.trunQual = s.pos.trunQual ∧ (idleCheck s).pos.trunPending = s.pos.trunPending ∧
    (idleCheck s).front.covers = s.front.covers ∧ (idleCheck s).ret = s.ret ∧ (idleCheck s).fwd = s.fwd ∧
    (idleCheck s).trk.table = s.trk.table ∧ (idleCheck s).trk.lists = s.trk.lists ∧
    (idleCheck s).trk.slots = s.trk.slots ∧ (idleCheck s).jam = s.jam ∧ (idleCheck s).plan = s.plan ∧
    (idleCheck s).sets = s.sets ∧ (idleCheck s).sup.resetCause = s.sup.resetCause ∧
    (idleCheck s).sup.speedWait = s.sup.speedWait ∧ (idleCheck s).link.rxUpper = s.link.rxUpper ∧
    (idleCheck s).link.rxLower = s.link.rxLower ∧ (idleCheck s).link.commands = s.link.commands ∧
    (idleCheck s).link.holding = s.link.holding ∧ (idleCheck s).link.reports = s.link.reports ∧
    (idleCheck s).link.pathControl = s.link.pathControl ∧ (idleCheck s).link.forwarded = s.link.forwarded ∧
    (idleCheck s).link.linkStarted = s.link.linkStarted ∧ (idleCheck s).link.lowerTx = s.link.lowerTx ∧
    (idleCheck s).link.credit = s.link.credit ∧ (idleCheck s).link.replies = s.link.replies ∧
    (idleCheck s).link.upperTx = s.link.upperTx ∧ (idleCheck s).svc.rx = s.svc.rx ∧
    (idleCheck s).svc.held = s.svc.held ∧ (idleCheck s).svc.claim = s.svc.claim ∧
    (idleCheck s).svc.reply = s.svc.reply ∧ (idleCheck s).svc.tx = s.svc.tx ∧ (idleCheck s).cap.owner = s.cap.owner ∧
    (idleCheck s).cap.mode = s.cap.mode ∧ (idleCheck s).cap.mask = s.cap.mask ∧ (idleCheck s).free = s.free := by
  simp only [idleCheck]
  (repeat' split) <;> simp [*]

@[simp] theorem forwarderPass_frame (s : State) :
    (forwarderPass s).pending = s.pending ∧ (forwarderPass s).load = s.load ∧ (forwarderPass s).tables = s.tables ∧
    (forwarderPass s).pos.clock = s.pos.clock ∧ (forwarderPass s).pos.p = s.pos.p ∧
    (forwarderPass s).pos.lastPulse = s.pos.lastPulse ∧ (forwarderPass s).pos.msCount = s.pos.msCount ∧
    (forwarderPass s).pos.trunRaw = s.pos.trunRaw ∧ (forwarderPass s).pos.trunQual = s.pos.trunQual ∧
    (forwarderPass s).pos.trunPending = s.pos.trunPending ∧ (forwarderPass s).front.covers = s.front.covers ∧
    (forwarderPass s).ret.expected = s.ret.expected ∧ (forwarderPass s).ret.receiving = s.ret.receiving ∧
    (forwarderPass s).fwd.limit = s.fwd.limit ∧ (forwarderPass s).fwd.windowHold = s.fwd.windowHold ∧
    (forwarderPass s).fwd.speed = s.fwd.speed ∧ (forwarderPass s).trk.table = s.trk.table ∧
    (forwarderPass s).trk.lists = s.trk.lists ∧ (forwarderPass s).trk.slots = s.trk.slots ∧
    (forwarderPass s).jam = s.jam ∧ (forwarderPass s).plan = s.plan ∧ (forwarderPass s).sets = s.sets ∧
    (forwarderPass s).sup.resetCause = s.sup.resetCause ∧ (forwarderPass s).sup.speedWait = s.sup.speedWait ∧
    (forwarderPass s).link.rxUpper = s.link.rxUpper ∧ (forwarderPass s).link.rxLower = s.link.rxLower ∧
    (forwarderPass s).link.commands = s.link.commands ∧ (forwarderPass s).link.holding = s.link.holding ∧
    (forwarderPass s).link.reports = s.link.reports ∧ (forwarderPass s).link.linkStarted = s.link.linkStarted ∧
    (forwarderPass s).link.lowerTx = s.link.lowerTx ∧ (forwarderPass s).link.credit = s.link.credit ∧
    (forwarderPass s).link.replies = s.link.replies ∧ (forwarderPass s).link.upperTx = s.link.upperTx ∧
    (forwarderPass s).svc.rx = s.svc.rx ∧ (forwarderPass s).svc.held = s.svc.held ∧
    (forwarderPass s).svc.claim = s.svc.claim ∧ (forwarderPass s).svc.reply = s.svc.reply ∧
    (forwarderPass s).svc.tx = s.svc.tx ∧ (forwarderPass s).cap.owner = s.cap.owner ∧
    (forwarderPass s).cap.mode = s.cap.mode ∧ (forwarderPass s).cap.mask = s.cap.mask ∧
    (forwarderPass s).free = s.free := by
  simp only [forwarderPass]
  (repeat' split) <;> simp [*]

@[simp] theorem enterChosen_frame (s : State) :
    (enterChosen s).pending = s.pending ∧ (enterChosen s).load = s.load ∧ (enterChosen s).tables = s.tables ∧
    (enterChosen s).pos.clock = s.pos.clock ∧ (enterChosen s).pos.p = s.pos.p ∧
    (enterChosen s).pos.lastPulse = s.pos.lastPulse ∧ (enterChosen s).pos.msCount = s.pos.msCount ∧
    (enterChosen s).pos.trunRaw = s.pos.trunRaw ∧ (enterChosen s).pos.trunQual = s.pos.trunQual ∧
    (enterChosen s).pos.trunPending = s.pos.trunPending ∧ (enterChosen s).front.covers = s.front.covers ∧
    (enterChosen s).ret = s.ret ∧ (enterChosen s).fwd = s.fwd ∧ (enterChosen s).trk.table = s.trk.table ∧
    (enterChosen s).trk.lists = s.trk.lists ∧ (enterChosen s).trk.slots = s.trk.slots ∧ (enterChosen s).jam = s.jam ∧
    (enterChosen s).plan = s.plan ∧ (enterChosen s).sets = s.sets ∧
    (enterChosen s).sup.resetCause = s.sup.resetCause ∧ (enterChosen s).sup.speedWait = s.sup.speedWait ∧
    (enterChosen s).link.rxUpper = s.link.rxUpper ∧ (enterChosen s).link.rxLower = s.link.rxLower ∧
    (enterChosen s).link.commands = s.link.commands ∧ (enterChosen s).link.holding = s.link.holding ∧
    (enterChosen s).link.reports = s.link.reports ∧ (enterChosen s).link.pathControl = s.link.pathControl ∧
    (enterChosen s).link.forwarded = s.link.forwarded ∧ (enterChosen s).link.linkStarted = s.link.linkStarted ∧
    (enterChosen s).link.lowerTx = s.link.lowerTx ∧ (enterChosen s).link.credit = s.link.credit ∧
    (enterChosen s).link.replies = s.link.replies ∧ (enterChosen s).link.upperTx = s.link.upperTx ∧
    (enterChosen s).svc.rx = s.svc.rx ∧ (enterChosen s).svc.held = s.svc.held ∧
    (enterChosen s).svc.claim = s.svc.claim ∧ (enterChosen s).svc.reply = s.svc.reply ∧
    (enterChosen s).svc.tx = s.svc.tx ∧ (enterChosen s).cap.owner = s.cap.owner ∧
    (enterChosen s).cap.mode = s.cap.mode ∧ (enterChosen s).cap.mask = s.cap.mask ∧
    (enterChosen s).free = s.free := by
  simp only [enterChosen]
  (repeat' split) <;> simp [*]

@[simp] theorem leaveHeld_frame (old : Option OrderNo) (s : State) :
    (leaveHeld old s).pending = s.pending ∧ (leaveHeld old s).load = s.load ∧ (leaveHeld old s).tables = s.tables ∧
    (leaveHeld old s).pos.clock = s.pos.clock ∧ (leaveHeld old s).pos.p = s.pos.p ∧
    (leaveHeld old s).pos.lastPulse = s.pos.lastPulse ∧ (leaveHeld old s).pos.msCount = s.pos.msCount ∧
    (leaveHeld old s).pos.trunRaw = s.pos.trunRaw ∧ (leaveHeld old s).pos.trunQual = s.pos.trunQual ∧
    (leaveHeld old s).pos.trunPending = s.pos.trunPending ∧ (leaveHeld old s).front.covers = s.front.covers ∧
    (leaveHeld old s).ret.expected = s.ret.expected ∧ (leaveHeld old s).ret.receiving = s.ret.receiving ∧
    (leaveHeld old s).fwd.limit = s.fwd.limit ∧ (leaveHeld old s).fwd.windowHold = s.fwd.windowHold ∧
    (leaveHeld old s).fwd.speed = s.fwd.speed ∧ (leaveHeld old s).trk.table = s.trk.table ∧
    (leaveHeld old s).trk.lists = s.trk.lists ∧ (leaveHeld old s).trk.slots = s.trk.slots ∧
    (leaveHeld old s).jam = s.jam ∧ (leaveHeld old s).plan = s.plan ∧ (leaveHeld old s).sets = s.sets ∧
    (leaveHeld old s).sup.resetCause = s.sup.resetCause ∧ (leaveHeld old s).sup.speedWait = s.sup.speedWait ∧
    (leaveHeld old s).link.rxUpper = s.link.rxUpper ∧ (leaveHeld old s).link.rxLower = s.link.rxLower ∧
    (leaveHeld old s).link.commands = s.link.commands ∧ (leaveHeld old s).link.holding = s.link.holding ∧
    (leaveHeld old s).link.reports = s.link.reports ∧ (leaveHeld old s).link.linkStarted = s.link.linkStarted ∧
    (leaveHeld old s).link.lowerTx = s.link.lowerTx ∧ (leaveHeld old s).link.credit = s.link.credit ∧
    (leaveHeld old s).link.replies = s.link.replies ∧ (leaveHeld old s).link.upperTx = s.link.upperTx ∧
    (leaveHeld old s).svc.rx = s.svc.rx ∧ (leaveHeld old s).svc.held = s.svc.held ∧
    (leaveHeld old s).svc.claim = s.svc.claim ∧ (leaveHeld old s).svc.reply = s.svc.reply ∧
    (leaveHeld old s).svc.tx = s.svc.tx ∧ (leaveHeld old s).cap.owner = s.cap.owner ∧
    (leaveHeld old s).cap.mode = s.cap.mode ∧ (leaveHeld old s).cap.mask = s.cap.mask ∧
    (leaveHeld old s).free = s.free := by
  simp only [leaveHeld]
  (repeat' split) <;> simp [*]

@[simp] theorem afterWithdrawal_frame (old : Option OrderNo) (s : State) :
    (afterWithdrawal old s).pending = s.pending ∧ (afterWithdrawal old s).load = s.load ∧
    (afterWithdrawal old s).tables = s.tables ∧
    (afterWithdrawal old s).pos.clock = s.pos.clock ∧ (afterWithdrawal old s).pos.p = s.pos.p ∧
    (afterWithdrawal old s).pos.lastPulse = s.pos.lastPulse ∧ (afterWithdrawal old s).pos.msCount = s.pos.msCount ∧
    (afterWithdrawal old s).pos.trunRaw = s.pos.trunRaw ∧ (afterWithdrawal old s).pos.trunQual = s.pos.trunQual ∧
    (afterWithdrawal old s).pos.trunPending = s.pos.trunPending ∧
    (afterWithdrawal old s).front.covers = s.front.covers ∧ (afterWithdrawal old s).ret.expected = s.ret.expected ∧
    (afterWithdrawal old s).ret.receiving = s.ret.receiving ∧ (afterWithdrawal old s).fwd.limit = s.fwd.limit ∧
    (afterWithdrawal old s).fwd.windowHold = s.fwd.windowHold ∧ (afterWithdrawal old s).fwd.speed = s.fwd.speed ∧
    (afterWithdrawal old s).trk.table = s.trk.table ∧ (afterWithdrawal old s).trk.lists = s.trk.lists ∧
    (afterWithdrawal old s).trk.slots = s.trk.slots ∧ (afterWithdrawal old s).jam = s.jam ∧
    (afterWithdrawal old s).plan = s.plan ∧ (afterWithdrawal old s).sets = s.sets ∧
    (afterWithdrawal old s).sup.resetCause = s.sup.resetCause ∧
    (afterWithdrawal old s).sup.speedWait = s.sup.speedWait ∧ (afterWithdrawal old s).link.rxUpper = s.link.rxUpper ∧
    (afterWithdrawal old s).link.rxLower = s.link.rxLower ∧ (afterWithdrawal old s).link.commands = s.link.commands ∧
    (afterWithdrawal old s).link.holding = s.link.holding ∧ (afterWithdrawal old s).link.reports = s.link.reports ∧
    (afterWithdrawal old s).link.linkStarted = s.link.linkStarted ∧
    (afterWithdrawal old s).link.lowerTx = s.link.lowerTx ∧ (afterWithdrawal old s).link.credit = s.link.credit ∧
    (afterWithdrawal old s).link.replies = s.link.replies ∧ (afterWithdrawal old s).link.upperTx = s.link.upperTx ∧
    (afterWithdrawal old s).svc.rx = s.svc.rx ∧ (afterWithdrawal old s).svc.held = s.svc.held ∧
    (afterWithdrawal old s).svc.claim = s.svc.claim ∧ (afterWithdrawal old s).svc.reply = s.svc.reply ∧
    (afterWithdrawal old s).svc.tx = s.svc.tx ∧ (afterWithdrawal old s).cap.owner = s.cap.owner ∧
    (afterWithdrawal old s).cap.mode = s.cap.mode ∧ (afterWithdrawal old s).cap.mask = s.cap.mask ∧
    (afterWithdrawal old s).free = s.free := by
  simp only [afterWithdrawal]
  (repeat' split) <;> simp [*]

@[simp] theorem wakeToIdle_frame (s : State) :
    (wakeToIdle s).pending = s.pending ∧ (wakeToIdle s).load = s.load ∧ (wakeToIdle s).tables = s.tables ∧
    (wakeToIdle s).pos.clock = s.pos.clock ∧
    (wakeToIdle s).pos.p = s.pos.p ∧ (wakeToIdle s).pos.lastPulse = s.pos.lastPulse ∧
    (wakeToIdle s).pos.msCount = s.pos.msCount ∧ (wakeToIdle s).pos.trunRaw = s.pos.trunRaw ∧
    (wakeToIdle s).pos.trunQual = s.pos.trunQual ∧ (wakeToIdle s).pos.trunPending = s.pos.trunPending ∧
    (wakeToIdle s).front.covers = s.front.covers ∧ (wakeToIdle s).ret = s.ret ∧ (wakeToIdle s).fwd = s.fwd ∧
    (wakeToIdle s).trk.table = s.trk.table ∧ (wakeToIdle s).trk.lists = s.trk.lists ∧
    (wakeToIdle s).trk.slots = s.trk.slots ∧ (wakeToIdle s).jam = s.jam ∧ (wakeToIdle s).plan = s.plan ∧
    (wakeToIdle s).sets = s.sets ∧ (wakeToIdle s).sup.resetCause = s.sup.resetCause ∧
    (wakeToIdle s).sup.speedWait = s.sup.speedWait ∧ (wakeToIdle s).link.rxUpper = s.link.rxUpper ∧
    (wakeToIdle s).link.rxLower = s.link.rxLower ∧ (wakeToIdle s).link.commands = s.link.commands ∧
    (wakeToIdle s).link.holding = s.link.holding ∧ (wakeToIdle s).link.reports = s.link.reports ∧
    (wakeToIdle s).link.pathControl = s.link.pathControl ∧ (wakeToIdle s).link.forwarded = s.link.forwarded ∧
    (wakeToIdle s).link.linkStarted = s.link.linkStarted ∧ (wakeToIdle s).link.lowerTx = s.link.lowerTx ∧
    (wakeToIdle s).link.credit = s.link.credit ∧ (wakeToIdle s).link.replies = s.link.replies ∧
    (wakeToIdle s).link.upperTx = s.link.upperTx ∧ (wakeToIdle s).svc.rx = s.svc.rx ∧
    (wakeToIdle s).svc.held = s.svc.held ∧ (wakeToIdle s).svc.claim = s.svc.claim ∧
    (wakeToIdle s).svc.reply = s.svc.reply ∧ (wakeToIdle s).svc.tx = s.svc.tx ∧
    (wakeToIdle s).cap.owner = s.cap.owner ∧ (wakeToIdle s).cap.mode = s.cap.mode ∧
    (wakeToIdle s).cap.mask = s.cap.mask ∧ (wakeToIdle s).free = s.free := by
  simp only [wakeToIdle]
  (repeat' split) <;> simp [*]

@[simp] theorem updateSet_frame (n : SetName) (f : SetRec → SetRec) (s : State) :
    (updateSet n f s).pending = s.pending ∧ (updateSet n f s).load = s.load ∧ (updateSet n f s).tables = s.tables ∧
    (updateSet n f s).reached = s.reached ∧ (updateSet n f s).pos = s.pos ∧
    (updateSet n f s).front = s.front ∧ (updateSet n f s).ret = s.ret ∧ (updateSet n f s).fwd = s.fwd ∧
    (updateSet n f s).trk = s.trk ∧ (updateSet n f s).jam = s.jam ∧ (updateSet n f s).plan = s.plan ∧
    (updateSet n f s).sets.voidOrder = s.sets.voidOrder ∧ (updateSet n f s).sup = s.sup ∧
    (updateSet n f s).link = s.link ∧ (updateSet n f s).svc = s.svc ∧ (updateSet n f s).cap = s.cap ∧
    (updateSet n f s).free = s.free := by
  simp only [updateSet]
  (repeat' split) <;> simp [*]

@[simp] theorem becomeVoided_frame (n : SetName) (s : State) :
    (becomeVoided n s).pending = s.pending ∧ (becomeVoided n s).load = s.load ∧
    (becomeVoided n s).tables = s.tables ∧ (becomeVoided n s).reached = s.reached ∧ (becomeVoided n s).pos = s.pos ∧
    (becomeVoided n s).front = s.front ∧ (becomeVoided n s).ret = s.ret ∧ (becomeVoided n s).fwd = s.fwd ∧
    (becomeVoided n s).trk = s.trk ∧ (becomeVoided n s).jam = s.jam ∧ (becomeVoided n s).plan = s.plan ∧
    (becomeVoided n s).sup = s.sup ∧ (becomeVoided n s).link = s.link ∧ (becomeVoided n s).svc = s.svc ∧
    (becomeVoided n s).cap = s.cap ∧ (becomeVoided n s).free = s.free := by
  simp only [becomeVoided]
  (repeat' split) <;> simp [*]

@[simp] theorem freeSet_frame (n : SetName) (s : State) :
    (freeSet n s).pending = s.pending ∧ (freeSet n s).load = s.load ∧ (freeSet n s).tables = s.tables ∧
    (freeSet n s).reached = s.reached ∧ (freeSet n s).pos = s.pos ∧
    (freeSet n s).front = s.front ∧ (freeSet n s).ret = s.ret ∧ (freeSet n s).fwd = s.fwd ∧
    (freeSet n s).trk = s.trk ∧ (freeSet n s).jam.causes = s.jam.causes ∧ (freeSet n s).jam.more = s.jam.more ∧
    (freeSet n s).plan = s.plan ∧ (freeSet n s).sup = s.sup ∧ (freeSet n s).link = s.link ∧
    (freeSet n s).svc = s.svc ∧ (freeSet n s).cap = s.cap ∧ (freeSet n s).free = s.free := by
  simp only [freeSet]
  (repeat' split) <;> simp [*]

@[simp] theorem queueSetVoid_frame (n : SetName) (s : State) :
    (queueSetVoid n s).pending = s.pending ∧ (queueSetVoid n s).load = s.load ∧
    (queueSetVoid n s).tables = s.tables ∧ (queueSetVoid n s).reached = s.reached ∧ (queueSetVoid n s).pos = s.pos ∧
    (queueSetVoid n s).front = s.front ∧ (queueSetVoid n s).ret = s.ret ∧ (queueSetVoid n s).fwd = s.fwd ∧
    (queueSetVoid n s).trk = s.trk ∧ (queueSetVoid n s).jam = s.jam ∧ (queueSetVoid n s).plan = s.plan ∧
    (queueSetVoid n s).sets = s.sets ∧ (queueSetVoid n s).sup = s.sup ∧
    (queueSetVoid n s).link.rxUpper = s.link.rxUpper ∧ (queueSetVoid n s).link.rxLower = s.link.rxLower ∧
    (queueSetVoid n s).link.commands = s.link.commands ∧ (queueSetVoid n s).link.holding = s.link.holding ∧
    (queueSetVoid n s).link.reports = s.link.reports ∧ (queueSetVoid n s).link.forwarded = s.link.forwarded ∧
    (queueSetVoid n s).link.linkStarted = s.link.linkStarted ∧ (queueSetVoid n s).link.lowerTx = s.link.lowerTx ∧
    (queueSetVoid n s).link.credit = s.link.credit ∧ (queueSetVoid n s).link.replies = s.link.replies ∧
    (queueSetVoid n s).link.notices = s.link.notices ∧ (queueSetVoid n s).link.lossCount = s.link.lossCount ∧
    (queueSetVoid n s).link.upperTx = s.link.upperTx ∧ (queueSetVoid n s).svc = s.svc ∧
    (queueSetVoid n s).cap = s.cap ∧ (queueSetVoid n s).free = s.free := by
  simp only [queueSetVoid]
  (repeat' split) <;> simp [*]

@[simp] theorem queueSetVoidOutsidePurge_frame (n : SetName) (s : State) :
    (queueSetVoidOutsidePurge n s).pending = s.pending ∧ (queueSetVoidOutsidePurge n s).load = s.load ∧
    (queueSetVoidOutsidePurge n s).tables = s.tables ∧
    (queueSetVoidOutsidePurge n s).reached = s.reached ∧ (queueSetVoidOutsidePurge n s).pos = s.pos ∧ (queueSetVoidOutsidePurge n s).front = s.front ∧
    (queueSetVoidOutsidePurge n s).ret = s.ret ∧ (queueSetVoidOutsidePurge n s).fwd = s.fwd ∧
    (queueSetVoidOutsidePurge n s).trk = s.trk ∧ (queueSetVoidOutsidePurge n s).jam = s.jam ∧
    (queueSetVoidOutsidePurge n s).plan = s.plan ∧ (queueSetVoidOutsidePurge n s).sets = s.sets ∧
    (queueSetVoidOutsidePurge n s).sup = s.sup ∧ (queueSetVoidOutsidePurge n s).link.rxUpper = s.link.rxUpper ∧
    (queueSetVoidOutsidePurge n s).link.rxLower = s.link.rxLower ∧
    (queueSetVoidOutsidePurge n s).link.commands = s.link.commands ∧
    (queueSetVoidOutsidePurge n s).link.holding = s.link.holding ∧
    (queueSetVoidOutsidePurge n s).link.reports = s.link.reports ∧
    (queueSetVoidOutsidePurge n s).link.forwarded = s.link.forwarded ∧
    (queueSetVoidOutsidePurge n s).link.linkStarted = s.link.linkStarted ∧
    (queueSetVoidOutsidePurge n s).link.lowerTx = s.link.lowerTx ∧
    (queueSetVoidOutsidePurge n s).link.credit = s.link.credit ∧
    (queueSetVoidOutsidePurge n s).link.replies = s.link.replies ∧
    (queueSetVoidOutsidePurge n s).link.notices = s.link.notices ∧
    (queueSetVoidOutsidePurge n s).link.lossCount = s.link.lossCount ∧
    (queueSetVoidOutsidePurge n s).link.upperTx = s.link.upperTx ∧ (queueSetVoidOutsidePurge n s).svc = s.svc ∧
    (queueSetVoidOutsidePurge n s).cap = s.cap ∧ (queueSetVoidOutsidePurge n s).free = s.free := by
  simp only [queueSetVoidOutsidePurge]
  (repeat' split) <;> simp [*]

@[simp] theorem releaseSet_frame (r : SetRec) (s : State) :
    (releaseSet r s).pending = s.pending ∧ (releaseSet r s).load = s.load ∧ (releaseSet r s).tables = s.tables ∧
    (releaseSet r s).reached = s.reached ∧ (releaseSet r s).pos = s.pos ∧
    (releaseSet r s).front = s.front ∧ (releaseSet r s).ret = s.ret ∧ (releaseSet r s).fwd = s.fwd ∧
    (releaseSet r s).trk = s.trk ∧ (releaseSet r s).jam.causes = s.jam.causes ∧
    (releaseSet r s).jam.more = s.jam.more ∧ (releaseSet r s).plan = s.plan ∧ (releaseSet r s).sup = s.sup ∧
    (releaseSet r s).link = s.link ∧ (releaseSet r s).svc = s.svc ∧ (releaseSet r s).cap = s.cap ∧
    (releaseSet r s).free = s.free := by
  simp only [releaseSet]
  (repeat' split) <;> simp [*]

@[simp] theorem withdrawDelivered_frame (r : SetRec) (n : OrderNo) (s : State) :
    (withdrawDelivered r n s).pending = s.pending ∧ (withdrawDelivered r n s).load = s.load ∧
    (withdrawDelivered r n s).tables = s.tables ∧
    (withdrawDelivered r n s).reached = s.reached ∧ (withdrawDelivered r n s).pos = s.pos ∧ (withdrawDelivered r n s).front = s.front ∧
    (withdrawDelivered r n s).ret.expected = s.ret.expected ∧
    (withdrawDelivered r n s).ret.receiving = s.ret.receiving ∧ (withdrawDelivered r n s).fwd = s.fwd ∧
    (withdrawDelivered r n s).trk = s.trk ∧ (withdrawDelivered r n s).jam = s.jam ∧
    (withdrawDelivered r n s).plan = s.plan ∧ (withdrawDelivered r n s).sets.voidOrder = s.sets.voidOrder ∧
    (withdrawDelivered r n s).sup = s.sup ∧ (withdrawDelivered r n s).link = s.link ∧
    (withdrawDelivered r n s).svc = s.svc ∧ (withdrawDelivered r n s).cap = s.cap ∧
    (withdrawDelivered r n s).free = s.free := by
  simp only [withdrawDelivered]
  (repeat' split) <;> simp [*]

theorem withdraws_iff (r : SetRec) : withdraws r = true ↔ r.cancelled = true ∧ r.rebuilt = false := by simp [withdraws]

/-- A delivery into an OPEN set that is not cancelled, or that is being rebuilt, is counted (R141, R148). -/
theorem deliverToSet_counts {name : SetName} {r : SetRec} {s : State} (n : OrderNo) (h : findSet s name = some r)
    (ho : r.state = .opened) (hw : withdraws r = false) :
    deliverToSet name n false s = updateSet name (countDelivery s) s := by
  simp [deliverToSet, h, ho, hw]

/-- A delivery of a sheet that was in flight at the cancelling of its set is withdrawn, and voids the set (R141, R148). -/
theorem deliverToSet_withdraws {name : SetName} {r : SetRec} {s : State} (n : OrderNo) (h : findSet s name = some r)
    (ho : r.state = .opened) (hw : withdraws r = true) :
    deliverToSet name n false s = queueSetVoidOutsidePurge name (becomeVoided name (withdrawDelivered r n s)) := by
  simp [deliverToSet, h, ho, hw]

@[simp] theorem deliverToSet_frame (name : SetName) (n : OrderNo) (waste : Bool) (s : State) :
    (deliverToSet name n waste s).pending = s.pending ∧ (deliverToSet name n waste s).load = s.load ∧
    (deliverToSet name n waste s).tables = s.tables ∧
    (deliverToSet name n waste s).reached = s.reached ∧ (deliverToSet name n waste s).pos = s.pos ∧ (deliverToSet name n waste s).front = s.front ∧
    (deliverToSet name n waste s).ret.expected = s.ret.expected ∧
    (deliverToSet name n waste s).ret.receiving = s.ret.receiving ∧ (deliverToSet name n waste s).fwd = s.fwd ∧
    (deliverToSet name n waste s).trk = s.trk ∧ (deliverToSet name n waste s).jam = s.jam ∧
    (deliverToSet name n waste s).plan = s.plan ∧ (deliverToSet name n waste s).sup = s.sup ∧
    (deliverToSet name n waste s).link.rxUpper = s.link.rxUpper ∧
    (deliverToSet name n waste s).link.rxLower = s.link.rxLower ∧
    (deliverToSet name n waste s).link.commands = s.link.commands ∧
    (deliverToSet name n waste s).link.holding = s.link.holding ∧
    (deliverToSet name n waste s).link.reports = s.link.reports ∧
    (deliverToSet name n waste s).link.forwarded = s.link.forwarded ∧
    (deliverToSet name n waste s).link.linkStarted = s.link.linkStarted ∧
    (deliverToSet name n waste s).link.lowerTx = s.link.lowerTx ∧
    (deliverToSet name n waste s).link.credit = s.link.credit ∧
    (deliverToSet name n waste s).link.replies = s.link.replies ∧
    (deliverToSet name n waste s).link.notices = s.link.notices ∧
    (deliverToSet name n waste s).link.lossCount = s.link.lossCount ∧
    (deliverToSet name n waste s).link.upperTx = s.link.upperTx ∧ (deliverToSet name n waste s).svc = s.svc ∧
    (deliverToSet name n waste s).cap = s.cap ∧ (deliverToSet name n waste s).free = s.free := by
  simp only [deliverToSet]
  (repeat' split) <;> simp [*]

@[simp] theorem acceptMember_frame (name : SetName) (n : OrderNo) (setLast : Bool) (s : State) :
    (acceptMember name n setLast s).pending = s.pending ∧ (acceptMember name n setLast s).load = s.load ∧
    (acceptMember name n setLast s).tables = s.tables ∧
    (acceptMember name n setLast s).reached = s.reached ∧ (acceptMember name n setLast s).pos = s.pos ∧ (acceptMember name n setLast s).front = s.front ∧
    (acceptMember name n setLast s).ret.entries = s.ret.entries ∧
    (acceptMember name n setLast s).ret.expected = s.ret.expected ∧ (acceptMember name n setLast s).fwd = s.fwd ∧
    (acceptMember name n setLast s).trk = s.trk ∧ (acceptMember name n setLast s).jam = s.jam ∧
    (acceptMember name n setLast s).plan = s.plan ∧
    (acceptMember name n setLast s).sets.voidOrder = s.sets.voidOrder ∧ (acceptMember name n setLast s).sup = s.sup ∧
    (acceptMember name n setLast s).link = s.link ∧ (acceptMember name n setLast s).svc = s.svc ∧
    (acceptMember name n setLast s).cap = s.cap ∧ (acceptMember name n setLast s).free = s.free := by
  simp only [acceptMember]
  (repeat' split) <;> simp [*]

@[simp] theorem setRecord_frame (tag : Tag) (r : Option TrackRec) (s : State) :
    (setRecord tag r s).pending = s.pending ∧ (setRecord tag r s).load = s.load ∧
    (setRecord tag r s).tables = s.tables ∧
    (setRecord tag r s).reached = s.reached ∧ (setRecord tag r s).pos = s.pos ∧ (setRecord tag r s).front = s.front ∧ (setRecord tag r s).ret = s.ret ∧
    (setRecord tag r s).fwd = s.fwd ∧ (setRecord tag r s).trk.lists = s.trk.lists ∧
    (setRecord tag r s).trk.slots = s.trk.slots ∧ (setRecord tag r s).trk.notedP = s.trk.notedP ∧
    (setRecord tag r s).jam = s.jam ∧ (setRecord tag r s).plan = s.plan ∧ (setRecord tag r s).sets = s.sets ∧
    (setRecord tag r s).sup = s.sup ∧ (setRecord tag r s).link = s.link ∧ (setRecord tag r s).svc = s.svc ∧
    (setRecord tag r s).cap = s.cap ∧ (setRecord tag r s).free = s.free := by
  simp only [setRecord]
  (repeat' split) <;> simp [*]

@[simp] theorem setList_frame (st : Station) (l : List Expectation) (s : State) :
    (setList st l s).pending = s.pending ∧ (setList st l s).load = s.load ∧ (setList st l s).tables = s.tables ∧
    (setList st l s).reached = s.reached ∧ (setList st l s).pos = s.pos ∧
    (setList st l s).front = s.front ∧ (setList st l s).ret = s.ret ∧ (setList st l s).fwd = s.fwd ∧
    (setList st l s).trk.table = s.trk.table ∧ (setList st l s).trk.slots = s.trk.slots ∧
    (setList st l s).trk.notedP = s.trk.notedP ∧ (setList st l s).jam = s.jam ∧ (setList st l s).plan = s.plan ∧
    (setList st l s).sets = s.sets ∧ (setList st l s).sup = s.sup ∧ (setList st l s).link = s.link ∧
    (setList st l s).svc = s.svc ∧ (setList st l s).cap = s.cap ∧ (setList st l s).free = s.free := by
  simp only [setList]
  (repeat' split) <;> simp [*]

@[simp] theorem setSlot_frame (st : Station) (o : Option Occupant) (s : State) :
    (setSlot st o s).pending = s.pending ∧ (setSlot st o s).load = s.load ∧ (setSlot st o s).tables = s.tables ∧
    (setSlot st o s).reached = s.reached ∧ (setSlot st o s).pos = s.pos ∧
    (setSlot st o s).front = s.front ∧ (setSlot st o s).ret = s.ret ∧ (setSlot st o s).fwd = s.fwd ∧
    (setSlot st o s).trk.table = s.trk.table ∧ (setSlot st o s).trk.lists = s.trk.lists ∧
    (setSlot st o s).trk.notedP = s.trk.notedP ∧ (setSlot st o s).jam = s.jam ∧ (setSlot st o s).plan = s.plan ∧
    (setSlot st o s).sets = s.sets ∧ (setSlot st o s).sup = s.sup ∧ (setSlot st o s).link = s.link ∧
    (setSlot st o s).svc = s.svc ∧ (setSlot st o s).cap = s.cap ∧ (setSlot st o s).free = s.free := by
  simp only [setSlot]
  (repeat' split) <;> simp [*]

@[simp] theorem postVisit_frame (tag : Tag) (k : Nat) (a : Pos) (s : State) :
    (postVisit tag k a s).1.pending = s.pending ∧ (postVisit tag k a s).1.load = s.load ∧
    (postVisit tag k a s).1.tables = s.tables ∧
    (postVisit tag k a s).1.reached = s.reached ∧ (postVisit tag k a s).1.pos = s.pos ∧ (postVisit tag k a s).1.front = s.front ∧
    (postVisit tag k a s).1.ret = s.ret ∧ (postVisit tag k a s).1.fwd = s.fwd ∧
    (postVisit tag k a s).1.trk.table = s.trk.table ∧ (postVisit tag k a s).1.trk.slots = s.trk.slots ∧
    (postVisit tag k a s).1.trk.notedP = s.trk.notedP ∧ (postVisit tag k a s).1.jam = s.jam ∧
    (postVisit tag k a s).1.plan = s.plan ∧ (postVisit tag k a s).1.sets = s.sets ∧
    (postVisit tag k a s).1.sup = s.sup ∧ (postVisit tag k a s).1.link = s.link ∧
    (postVisit tag k a s).1.svc = s.svc ∧ (postVisit tag k a s).1.cap = s.cap ∧
    (postVisit tag k a s).1.free = s.free := by
  simp only [postVisit]
  (repeat' split) <;> simp [*]

@[simp] theorem freeRecord_frame (tag : Tag) (s : State) :
    (freeRecord tag s).pending = s.pending ∧ (freeRecord tag s).load = s.load ∧ (freeRecord tag s).tables = s.tables ∧
    (freeRecord tag s).pos.clock = s.pos.clock ∧ (freeRecord tag s).pos.p = s.pos.p ∧
    (freeRecord tag s).pos.lastPulse = s.pos.lastPulse ∧ (freeRecord tag s).pos.msCount = s.pos.msCount ∧
    (freeRecord tag s).reached = s.reached ∧ (freeRecord tag s).pos.settleFrom = s.pos.settleFrom ∧ (freeRecord tag s).pos.trunRaw = s.pos.trunRaw ∧
    (freeRecord tag s).pos.trunQual = s.pos.trunQual ∧ (freeRecord tag s).pos.trunPending = s.pos.trunPending ∧
    (freeRecord tag s).front = s.front ∧ (freeRecord tag s).ret = s.ret ∧ (freeRecord tag s).fwd = s.fwd ∧
    (freeRecord tag s).trk.notedP = s.trk.notedP ∧ (freeRecord tag s).jam = s.jam ∧ (freeRecord tag s).plan = s.plan ∧
    (freeRecord tag s).sets = s.sets ∧ (freeRecord tag s).sup = s.sup ∧ (freeRecord tag s).link = s.link ∧
    (freeRecord tag s).svc = s.svc ∧ (freeRecord tag s).cap = s.cap ∧ (freeRecord tag s).free = s.free := by
  simp only [freeRecord]
  (repeat' split) <;> simp [*]

@[simp] theorem startWasteTail_frame (tag : Tag) (a : Pos) (s : State) :
    (startWasteTail tag a s).1.pending = s.pending ∧ (startWasteTail tag a s).1.load = s.load ∧
    (startWasteTail tag a s).1.tables = s.tables ∧
    (startWasteTail tag a s).1.reached = s.reached ∧ (startWasteTail tag a s).1.pos = s.pos ∧ (startWasteTail tag a s).1.front = s.front ∧
    (startWasteTail tag a s).1.ret = s.ret ∧ (startWasteTail tag a s).1.fwd = s.fwd ∧
    (startWasteTail tag a s).1.trk.slots = s.trk.slots ∧ (startWasteTail tag a s).1.trk.notedP = s.trk.notedP ∧
    (startWasteTail tag a s).1.jam = s.jam ∧ (startWasteTail tag a s).1.plan = s.plan ∧
    (startWasteTail tag a s).1.sets = s.sets ∧ (startWasteTail tag a s).1.sup = s.sup ∧
    (startWasteTail tag a s).1.link = s.link ∧ (startWasteTail tag a s).1.svc = s.svc ∧
    (startWasteTail tag a s).1.cap = s.cap ∧ (startWasteTail tag a s).1.free = s.free := by
  simp only [startWasteTail]
  (repeat' split) <;> simp [*]

@[simp] theorem postAtOn_frame (t : Tables) (r : TrackRec) (tag : Tag) (stamp : Pos) (k : Nat) (s : State) :
    (postAtOn t r tag stamp k s).1.pending = s.pending ∧ (postAtOn t r tag stamp k s).1.load = s.load ∧
    (postAtOn t r tag stamp k s).1.tables = s.tables ∧
    (postAtOn t r tag stamp k s).1.reached = s.reached ∧ (postAtOn t r tag stamp k s).1.pos = s.pos ∧ (postAtOn t r tag stamp k s).1.front = s.front ∧
    (postAtOn t r tag stamp k s).1.ret = s.ret ∧ (postAtOn t r tag stamp k s).1.fwd = s.fwd ∧
    (postAtOn t r tag stamp k s).1.trk.slots = s.trk.slots ∧
    (postAtOn t r tag stamp k s).1.trk.notedP = s.trk.notedP ∧ (postAtOn t r tag stamp k s).1.jam = s.jam ∧
    (postAtOn t r tag stamp k s).1.plan = s.plan ∧ (postAtOn t r tag stamp k s).1.sets = s.sets ∧
    (postAtOn t r tag stamp k s).1.sup = s.sup ∧ (postAtOn t r tag stamp k s).1.link = s.link ∧
    (postAtOn t r tag stamp k s).1.svc = s.svc ∧ (postAtOn t r tag stamp k s).1.cap = s.cap ∧
    (postAtOn t r tag stamp k s).1.free = s.free := by
  simp only [postAtOn]
  (repeat' split) <;> simp [*]

@[simp] theorem matchOn_frame (st : Station) (stamp : Pos) (x : Expectation) (rest : List Expectation) (s : State) :
    (matchOn st stamp x rest s).1.pending = s.pending ∧ (matchOn st stamp x rest s).1.load = s.load ∧
    (matchOn st stamp x rest s).1.tables = s.tables ∧
    (matchOn st stamp x rest s).1.pos = s.pos ∧ (matchOn st stamp x rest s).1.front = s.front ∧
    (matchOn st stamp x rest s).1.ret = s.ret ∧ (matchOn st stamp x rest s).1.fwd = s.fwd ∧
    (matchOn st stamp x rest s).1.trk.notedP = s.trk.notedP ∧ (matchOn st stamp x rest s).1.jam = s.jam ∧
    (matchOn st stamp x rest s).1.plan = s.plan ∧ (matchOn st stamp x rest s).1.sets = s.sets ∧
    (matchOn st stamp x rest s).1.sup = s.sup ∧ (matchOn st stamp x rest s).1.link.rxUpper = s.link.rxUpper ∧
    (matchOn st stamp x rest s).1.link.rxLower = s.link.rxLower ∧
    (matchOn st stamp x rest s).1.link.commands = s.link.commands ∧
    (matchOn st stamp x rest s).1.link.holding = s.link.holding ∧
    (matchOn st stamp x rest s).1.link.reports = s.link.reports ∧
    (matchOn st stamp x rest s).1.link.pathControl = s.link.pathControl ∧
    (matchOn st stamp x rest s).1.link.forwarded = s.link.forwarded ∧
    (matchOn st stamp x rest s).1.link.linkStarted = s.link.linkStarted ∧
    (matchOn st stamp x rest s).1.link.lowerTx = s.link.lowerTx ∧
    (matchOn st stamp x rest s).1.link.credit = s.link.credit ∧
    (matchOn st stamp x rest s).1.link.replies = s.link.replies ∧
    (matchOn st stamp x rest s).1.link.upperTx = s.link.upperTx ∧ (matchOn st stamp x rest s).1.svc.rx = s.svc.rx ∧
    (matchOn st stamp x rest s).1.svc.held = s.svc.held ∧ (matchOn st stamp x rest s).1.svc.claim = s.svc.claim ∧
    (matchOn st stamp x rest s).1.svc.reply = s.svc.reply ∧ (matchOn st stamp x rest s).1.svc.tx = s.svc.tx ∧
    (matchOn st stamp x rest s).1.cap.owner = s.cap.owner ∧ (matchOn st stamp x rest s).1.cap.mode = s.cap.mode ∧
    (matchOn st stamp x rest s).1.cap.mask = s.cap.mask ∧ (matchOn st stamp x rest s).1.free = s.free := by
  simp only [matchOn]
  (repeat' split) <;> simp [*]

@[simp] theorem matchOn_nothing (st : Station) (stamp : Pos) (x : Expectation) (rest : List Expectation) (s : State)
    (h : s.reached = .nothing) : (matchOn st stamp x rest s).1.reached = .nothing := by
  simp only [matchOn]
  (repeat' split) <;> simp [*]

@[simp] theorem trackOn_frame (st : Station) (stamp : Pos) (s : State) :
    (trackOn st stamp s).1.pending = s.pending ∧ (trackOn st stamp s).1.load = s.load ∧
    (trackOn st stamp s).1.tables = s.tables ∧
    (trackOn st stamp s).1.pos = s.pos ∧ (trackOn st stamp s).1.front = s.front ∧ (trackOn st stamp s).1.ret = s.ret ∧
    (trackOn st stamp s).1.fwd = s.fwd ∧ (trackOn st stamp s).1.trk.notedP = s.trk.notedP ∧
    (trackOn st stamp s).1.jam = s.jam ∧ (trackOn st stamp s).1.plan = s.plan ∧ (trackOn st stamp s).1.sets = s.sets ∧
    (trackOn st stamp s).1.sup = s.sup ∧ (trackOn st stamp s).1.link.rxUpper = s.link.rxUpper ∧
    (trackOn st stamp s).1.link.rxLower = s.link.rxLower ∧ (trackOn st stamp s).1.link.commands = s.link.commands ∧
    (trackOn st stamp s).1.link.holding = s.link.holding ∧ (trackOn st stamp s).1.link.reports = s.link.reports ∧
    (trackOn st stamp s).1.link.pathControl = s.link.pathControl ∧
    (trackOn st stamp s).1.link.forwarded = s.link.forwarded ∧
    (trackOn st stamp s).1.link.linkStarted = s.link.linkStarted ∧
    (trackOn st stamp s).1.link.lowerTx = s.link.lowerTx ∧ (trackOn st stamp s).1.link.credit = s.link.credit ∧
    (trackOn st stamp s).1.link.replies = s.link.replies ∧ (trackOn st stamp s).1.link.upperTx = s.link.upperTx ∧
    (trackOn st stamp s).1.svc.rx = s.svc.rx ∧ (trackOn st stamp s).1.svc.held = s.svc.held ∧
    (trackOn st stamp s).1.svc.claim = s.svc.claim ∧ (trackOn st stamp s).1.svc.reply = s.svc.reply ∧
    (trackOn st stamp s).1.svc.tx = s.svc.tx ∧ (trackOn st stamp s).1.cap.owner = s.cap.owner ∧
    (trackOn st stamp s).1.cap.mode = s.cap.mode ∧ (trackOn st stamp s).1.cap.mask = s.cap.mask ∧
    (trackOn st stamp s).1.free = s.free := by
  simp only [trackOn]
  (repeat' split) <;> simp [*]

@[simp] theorem trackOn_nothing (st : Station) (stamp : Pos) (s : State) (h : s.reached = .nothing) :
    (trackOn st stamp s).1.reached = .nothing := by
  simp only [trackOn]
  (repeat' split) <;> simp [*]

@[simp] theorem commitEntry_frame (n : OrderNo) (detail : Byte) (s : State) :
    (commitEntry n detail s).pending = s.pending ∧ (commitEntry n detail s).load = s.load ∧
    (commitEntry n detail s).tables = s.tables ∧
    (commitEntry n detail s).reached = s.reached ∧ (commitEntry n detail s).pos = s.pos ∧ (commitEntry n detail s).front = s.front ∧
    (commitEntry n detail s).ret.expected = s.ret.expected ∧
    (commitEntry n detail s).ret.receiving = s.ret.receiving ∧ (commitEntry n detail s).fwd = s.fwd ∧
    (commitEntry n detail s).trk = s.trk ∧ (commitEntry n detail s).jam = s.jam ∧
    (commitEntry n detail s).plan = s.plan ∧ (commitEntry n detail s).sets = s.sets ∧
    (commitEntry n detail s).sup = s.sup ∧ (commitEntry n detail s).link.rxUpper = s.link.rxUpper ∧
    (commitEntry n detail s).link.rxLower = s.link.rxLower ∧
    (commitEntry n detail s).link.commands = s.link.commands ∧
    (commitEntry n detail s).link.holding = s.link.holding ∧ (commitEntry n detail s).link.reports = s.link.reports ∧
    (commitEntry n detail s).link.pathControl = s.link.pathControl ∧
    (commitEntry n detail s).link.forwarded = s.link.forwarded ∧
    (commitEntry n detail s).link.linkStarted = s.link.linkStarted ∧
    (commitEntry n detail s).link.lowerTx = s.link.lowerTx ∧ (commitEntry n detail s).link.credit = s.link.credit ∧
    (commitEntry n detail s).link.replies = s.link.replies ∧ (commitEntry n detail s).link.upperTx = s.link.upperTx ∧
    (commitEntry n detail s).svc.rx = s.svc.rx ∧ (commitEntry n detail s).svc.held = s.svc.held ∧
    (commitEntry n detail s).svc.claim = s.svc.claim ∧ (commitEntry n detail s).svc.reply = s.svc.reply ∧
    (commitEntry n detail s).svc.tx = s.svc.tx ∧ (commitEntry n detail s).cap.owner = s.cap.owner ∧
    (commitEntry n detail s).cap.mode = s.cap.mode ∧ (commitEntry n detail s).cap.mask = s.cap.mask ∧
    (commitEntry n detail s).free = s.free := by
  simp only [commitEntry]
  (repeat' split) <;> simp [*]

@[simp] theorem deliverEntry_frame (e : Entry) (kind : BinKind) (s : State) :
    (deliverEntry e kind s).pending = s.pending ∧ (deliverEntry e kind s).load = s.load ∧
    (deliverEntry e kind s).tables = s.tables ∧
    (deliverEntry e kind s).reached = s.reached ∧ (deliverEntry e kind s).pos = s.pos ∧ (deliverEntry e kind s).front = s.front ∧
    (deliverEntry e kind s).ret.expected = s.ret.expected ∧ (deliverEntry e kind s).ret.receiving = s.ret.receiving ∧
    (deliverEntry e kind s).fwd = s.fwd ∧ (deliverEntry e kind s).trk = s.trk ∧ (deliverEntry e kind s).jam = s.jam ∧
    (deliverEntry e kind s).plan = s.plan ∧ (deliverEntry e kind s).sup = s.sup ∧
    (deliverEntry e kind s).link.rxUpper = s.link.rxUpper ∧ (deliverEntry e kind s).link.rxLower = s.link.rxLower ∧
    (deliverEntry e kind s).link.commands = s.link.commands ∧ (deliverEntry e kind s).link.holding = s.link.holding ∧
    (deliverEntry e kind s).link.reports = s.link.reports ∧
    (deliverEntry e kind s).link.forwarded = s.link.forwarded ∧
    (deliverEntry e kind s).link.linkStarted = s.link.linkStarted ∧
    (deliverEntry e kind s).link.lowerTx = s.link.lowerTx ∧ (deliverEntry e kind s).link.credit = s.link.credit ∧
    (deliverEntry e kind s).link.replies = s.link.replies ∧ (deliverEntry e kind s).link.upperTx = s.link.upperTx ∧
    (deliverEntry e kind s).svc.rx = s.svc.rx ∧ (deliverEntry e kind s).svc.held = s.svc.held ∧
    (deliverEntry e kind s).svc.claim = s.svc.claim ∧ (deliverEntry e kind s).svc.reply = s.svc.reply ∧
    (deliverEntry e kind s).svc.tx = s.svc.tx ∧ (deliverEntry e kind s).cap.owner = s.cap.owner ∧
    (deliverEntry e kind s).cap.mode = s.cap.mode ∧ (deliverEntry e kind s).cap.mask = s.cap.mask ∧
    (deliverEntry e kind s).free = s.free := by
  simp only [deliverEntry]
  (repeat' split) <;> simp [*]

@[simp] theorem deliver_frame (tag : Tag) (s : State) :
    (deliver tag s).pending = s.pending ∧ (deliver tag s).load = s.load ∧ (deliver tag s).tables = s.tables ∧
    (deliver tag s).pos.clock = s.pos.clock ∧ (deliver tag s).pos.p = s.pos.p ∧
    (deliver tag s).pos.lastPulse = s.pos.lastPulse ∧ (deliver tag s).pos.msCount = s.pos.msCount ∧
    (deliver tag s).reached = s.reached ∧ (deliver tag s).pos.settleFrom = s.pos.settleFrom ∧ (deliver tag s).pos.trunRaw = s.pos.trunRaw ∧
    (deliver tag s).pos.trunQual = s.pos.trunQual ∧ (deliver tag s).pos.trunPending = s.pos.trunPending ∧
    (deliver tag s).front = s.front ∧ (deliver tag s).ret.expected = s.ret.expected ∧
    (deliver tag s).ret.receiving = s.ret.receiving ∧ (deliver tag s).fwd = s.fwd ∧
    (deliver tag s).trk.notedP = s.trk.notedP ∧ (deliver tag s).jam = s.jam ∧ (deliver tag s).plan = s.plan ∧
    (deliver tag s).sup = s.sup ∧ (deliver tag s).link.rxUpper = s.link.rxUpper ∧
    (deliver tag s).link.rxLower = s.link.rxLower ∧ (deliver tag s).link.commands = s.link.commands ∧
    (deliver tag s).link.holding = s.link.holding ∧ (deliver tag s).link.reports = s.link.reports ∧
    (deliver tag s).link.forwarded = s.link.forwarded ∧ (deliver tag s).link.linkStarted = s.link.linkStarted ∧
    (deliver tag s).link.lowerTx = s.link.lowerTx ∧ (deliver tag s).link.replies = s.link.replies ∧
    (deliver tag s).link.upperTx = s.link.upperTx ∧ (deliver tag s).svc.rx = s.svc.rx ∧
    (deliver tag s).svc.held = s.svc.held ∧ (deliver tag s).svc.claim = s.svc.claim ∧
    (deliver tag s).svc.reply = s.svc.reply ∧ (deliver tag s).svc.tx = s.svc.tx ∧
    (deliver tag s).cap.owner = s.cap.owner ∧ (deliver tag s).cap.mode = s.cap.mode ∧
    (deliver tag s).cap.mask = s.cap.mask ∧ (deliver tag s).free = s.free := by
  simp only [deliver]
  (repeat' split) <;> simp [*]

@[simp] theorem offAction_frame (stamp : Pos) (o : Occupant) (s : State) :
    (offAction stamp o s).1.pending = s.pending ∧ (offAction stamp o s).1.load = s.load ∧
    (offAction stamp o s).1.tables = s.tables ∧
    (offAction stamp o s).1.pos.clock = s.pos.clock ∧ (offAction stamp o s).1.pos.p = s.pos.p ∧
    (offAction stamp o s).1.pos.lastPulse = s.pos.lastPulse ∧ (offAction stamp o s).1.pos.msCount = s.pos.msCount ∧
    (offAction stamp o s).1.reached = s.reached ∧ (offAction stamp o s).1.pos.settleFrom = s.pos.settleFrom ∧ (offAction stamp o s).1.pos.trunRaw = s.pos.trunRaw ∧
    (offAction stamp o s).1.pos.trunQual = s.pos.trunQual ∧
    (offAction stamp o s).1.pos.trunPending = s.pos.trunPending ∧ (offAction stamp o s).1.front = s.front ∧
    (offAction stamp o s).1.ret.expected = s.ret.expected ∧ (offAction stamp o s).1.ret.receiving = s.ret.receiving ∧
    (offAction stamp o s).1.fwd = s.fwd ∧ (offAction stamp o s).1.trk.notedP = s.trk.notedP ∧
    (offAction stamp o s).1.jam = s.jam ∧ (offAction stamp o s).1.plan = s.plan ∧
    (offAction stamp o s).1.sup = s.sup ∧ (offAction stamp o s).1.link.rxUpper = s.link.rxUpper ∧
    (offAction stamp o s).1.link.rxLower = s.link.rxLower ∧ (offAction stamp o s).1.link.commands = s.link.commands ∧
    (offAction stamp o s).1.link.holding = s.link.holding ∧ (offAction stamp o s).1.link.reports = s.link.reports ∧
    (offAction stamp o s).1.link.forwarded = s.link.forwarded ∧
    (offAction stamp o s).1.link.linkStarted = s.link.linkStarted ∧
    (offAction stamp o s).1.link.lowerTx = s.link.lowerTx ∧ (offAction stamp o s).1.link.replies = s.link.replies ∧
    (offAction stamp o s).1.link.upperTx = s.link.upperTx ∧ (offAction stamp o s).1.svc.rx = s.svc.rx ∧
    (offAction stamp o s).1.svc.held = s.svc.held ∧ (offAction stamp o s).1.svc.claim = s.svc.claim ∧
    (offAction stamp o s).1.svc.reply = s.svc.reply ∧ (offAction stamp o s).1.svc.tx = s.svc.tx ∧
    (offAction stamp o s).1.cap.owner = s.cap.owner ∧ (offAction stamp o s).1.cap.mode = s.cap.mode ∧
    (offAction stamp o s).1.cap.mask = s.cap.mask ∧ (offAction stamp o s).1.free = s.free := by
  simp only [offAction]
  (repeat' split) <;> simp [*]

@[simp] theorem matchOff_frame (st : Station) (stamp : Pos) (o : Occupant) (s : State) :
    (matchOff st stamp o s).1.pending = s.pending ∧ (matchOff st stamp o s).1.load = s.load ∧
    (matchOff st stamp o s).1.tables = s.tables ∧
    (matchOff st stamp o s).1.pos.clock = s.pos.clock ∧ (matchOff st stamp o s).1.pos.p = s.pos.p ∧
    (matchOff st stamp o s).1.pos.lastPulse = s.pos.lastPulse ∧
    (matchOff st stamp o s).1.pos.msCount = s.pos.msCount ∧
    (matchOff st stamp o s).1.pos.settleFrom = s.pos.settleFrom ∧
    (matchOff st stamp o s).1.pos.trunRaw = s.pos.trunRaw ∧ (matchOff st stamp o s).1.pos.trunQual = s.pos.trunQual ∧
    (matchOff st stamp o s).1.pos.trunPending = s.pos.trunPending ∧ (matchOff st stamp o s).1.front = s.front ∧
    (matchOff st stamp o s).1.ret.expected = s.ret.expected ∧
    (matchOff st stamp o s).1.ret.receiving = s.ret.receiving ∧ (matchOff st stamp o s).1.fwd = s.fwd ∧
    (matchOff st stamp o s).1.trk.notedP = s.trk.notedP ∧ (matchOff st stamp o s).1.jam = s.jam ∧
    (matchOff st stamp o s).1.plan = s.plan ∧ (matchOff st stamp o s).1.sup = s.sup ∧
    (matchOff st stamp o s).1.link.rxUpper = s.link.rxUpper ∧
    (matchOff st stamp o s).1.link.rxLower = s.link.rxLower ∧
    (matchOff st stamp o s).1.link.commands = s.link.commands ∧
    (matchOff st stamp o s).1.link.holding = s.link.holding ∧
    (matchOff st stamp o s).1.link.reports = s.link.reports ∧
    (matchOff st stamp o s).1.link.forwarded = s.link.forwarded ∧
    (matchOff st stamp o s).1.link.linkStarted = s.link.linkStarted ∧
    (matchOff st stamp o s).1.link.lowerTx = s.link.lowerTx ∧
    (matchOff st stamp o s).1.link.replies = s.link.replies ∧
    (matchOff st stamp o s).1.link.upperTx = s.link.upperTx ∧ (matchOff st stamp o s).1.svc.rx = s.svc.rx ∧
    (matchOff st stamp o s).1.svc.held = s.svc.held ∧ (matchOff st stamp o s).1.svc.claim = s.svc.claim ∧
    (matchOff st stamp o s).1.svc.reply = s.svc.reply ∧ (matchOff st stamp o s).1.svc.tx = s.svc.tx ∧
    (matchOff st stamp o s).1.cap.owner = s.cap.owner ∧ (matchOff st stamp o s).1.cap.mode = s.cap.mode ∧
    (matchOff st stamp o s).1.cap.mask = s.cap.mask ∧ (matchOff st stamp o s).1.free = s.free := by
  simp only [matchOff]
  (repeat' split) <;> simp [*]

@[simp] theorem matchOff_nothing (st : Station) (stamp : Pos) (o : Occupant) (s : State) (h : s.reached = .nothing) :
    (matchOff st stamp o s).1.reached = .nothing := by
  simp only [matchOff]
  (repeat' split) <;> simp [*]

@[simp] theorem trackOff_frame (st : Station) (stamp : Pos) (s : State) :
    (trackOff st stamp s).1.pending = s.pending ∧ (trackOff st stamp s).1.load = s.load ∧
    (trackOff st stamp s).1.tables = s.tables ∧
    (trackOff st stamp s).1.pos.clock = s.pos.clock ∧ (trackOff st stamp s).1.pos.p = s.pos.p ∧
    (trackOff st stamp s).1.pos.lastPulse = s.pos.lastPulse ∧ (trackOff st stamp s).1.pos.msCount = s.pos.msCount ∧
    (trackOff st stamp s).1.pos.settleFrom = s.pos.settleFrom ∧ (trackOff st stamp s).1.pos.trunRaw = s.pos.trunRaw ∧
    (trackOff st stamp s).1.pos.trunQual = s.pos.trunQual ∧
    (trackOff st stamp s).1.pos.trunPending = s.pos.trunPending ∧ (trackOff st stamp s).1.front = s.front ∧
    (trackOff st stamp s).1.ret.expected = s.ret.expected ∧ (trackOff st stamp s).1.ret.receiving = s.ret.receiving ∧
    (trackOff st stamp s).1.fwd = s.fwd ∧ (trackOff st stamp s).1.trk.notedP = s.trk.notedP ∧
    (trackOff st stamp s).1.jam = s.jam ∧ (trackOff st stamp s).1.plan = s.plan ∧
    (trackOff st stamp s).1.sup = s.sup ∧ (trackOff st stamp s).1.link.rxUpper = s.link.rxUpper ∧
    (trackOff st stamp s).1.link.rxLower = s.link.rxLower ∧ (trackOff st stamp s).1.link.commands = s.link.commands ∧
    (trackOff st stamp s).1.link.holding = s.link.holding ∧ (trackOff st stamp s).1.link.reports = s.link.reports ∧
    (trackOff st stamp s).1.link.forwarded = s.link.forwarded ∧
    (trackOff st stamp s).1.link.linkStarted = s.link.linkStarted ∧
    (trackOff st stamp s).1.link.lowerTx = s.link.lowerTx ∧ (trackOff st stamp s).1.link.replies = s.link.replies ∧
    (trackOff st stamp s).1.link.upperTx = s.link.upperTx ∧ (trackOff st stamp s).1.svc.rx = s.svc.rx ∧
    (trackOff st stamp s).1.svc.held = s.svc.held ∧ (trackOff st stamp s).1.svc.claim = s.svc.claim ∧
    (trackOff st stamp s).1.svc.reply = s.svc.reply ∧ (trackOff st stamp s).1.svc.tx = s.svc.tx ∧
    (trackOff st stamp s).1.cap.owner = s.cap.owner ∧ (trackOff st stamp s).1.cap.mode = s.cap.mode ∧
    (trackOff st stamp s).1.cap.mask = s.cap.mask ∧ (trackOff st stamp s).1.free = s.free := by
  simp only [trackOff]
  (repeat' split) <;> simp [*]

@[simp] theorem trackOff_nothing (st : Station) (stamp : Pos) (s : State) (h : s.reached = .nothing) :
    (trackOff st stamp s).1.reached = .nothing := by
  simp only [trackOff]
  (repeat' split) <;> simp [*]

@[simp] theorem takeLate_frame (st : Station) (s : State) :
    (takeLate st s).pending = s.pending ∧ (takeLate st s).load = s.load ∧ (takeLate st s).tables = s.tables ∧
    (takeLate st s).pos.clock = s.pos.clock ∧ (takeLate st s).pos.p = s.pos.p ∧
    (takeLate st s).pos.lastPulse = s.pos.lastPulse ∧ (takeLate st s).pos.msCount = s.pos.msCount ∧
    (takeLate st s).pos.trunRaw = s.pos.trunRaw ∧ (takeLate st s).pos.trunQual = s.pos.trunQual ∧
    (takeLate st s).pos.trunPending = s.pos.trunPending ∧ (takeLate st s).front.covers = s.front.covers ∧
    (takeLate st s).ret.expected = s.ret.expected ∧ (takeLate st s).ret.receiving = s.ret.receiving ∧
    (takeLate st s).fwd.f = s.fwd.f ∧ (takeLate st s).fwd.speed = s.fwd.speed ∧
    (takeLate st s).trk.table = s.trk.table ∧ (takeLate st s).trk.slots = s.trk.slots ∧
    (takeLate st s).plan = s.plan ∧ (takeLate st s).sets = s.sets ∧
    (takeLate st s).sup.resetCause = s.sup.resetCause ∧ (takeLate st s).link.rxUpper = s.link.rxUpper ∧
    (takeLate st s).link.rxLower = s.link.rxLower ∧ (takeLate st s).link.commands = s.link.commands ∧
    (takeLate st s).link.holding = s.link.holding ∧ (takeLate st s).link.reports = s.link.reports ∧
    (takeLate st s).link.linkStarted = s.link.linkStarted ∧ (takeLate st s).link.lowerTx = s.link.lowerTx ∧
    (takeLate st s).link.credit = s.link.credit ∧ (takeLate st s).link.replies = s.link.replies ∧
    (takeLate st s).link.upperTx = s.link.upperTx ∧ (takeLate st s).svc.rx = s.svc.rx ∧
    (takeLate st s).svc.held = s.svc.held ∧ (takeLate st s).svc.claim = s.svc.claim ∧
    (takeLate st s).svc.reply = s.svc.reply ∧ (takeLate st s).svc.tx = s.svc.tx ∧
    (takeLate st s).cap.owner = s.cap.owner ∧ (takeLate st s).cap.mode = s.cap.mode ∧
    (takeLate st s).cap.mask = s.cap.mask := by
  simp only [takeLate]
  (repeat' split) <;> simp [*]

@[simp] theorem takeStuck_frame (st : Station) (s : State) :
    (takeStuck st s).pending = s.pending ∧ (takeStuck st s).load = s.load ∧ (takeStuck st s).tables = s.tables ∧
    (takeStuck st s).pos.clock = s.pos.clock ∧ (takeStuck st s).pos.p = s.pos.p ∧
    (takeStuck st s).pos.lastPulse = s.pos.lastPulse ∧ (takeStuck st s).pos.msCount = s.pos.msCount ∧
    (takeStuck st s).pos.trunRaw = s.pos.trunRaw ∧ (takeStuck st s).pos.trunQual = s.pos.trunQual ∧
    (takeStuck st s).pos.trunPending = s.pos.trunPending ∧ (takeStuck st s).front.covers = s.front.covers ∧
    (takeStuck st s).ret.expected = s.ret.expected ∧ (takeStuck st s).ret.receiving = s.ret.receiving ∧
    (takeStuck st s).fwd.f = s.fwd.f ∧ (takeStuck st s).fwd.speed = s.fwd.speed ∧
    (takeStuck st s).trk.table = s.trk.table ∧ (takeStuck st s).trk.lists = s.trk.lists ∧
    (takeStuck st s).plan = s.plan ∧ (takeStuck st s).sets = s.sets ∧
    (takeStuck st s).sup.resetCause = s.sup.resetCause ∧ (takeStuck st s).link.rxUpper = s.link.rxUpper ∧
    (takeStuck st s).link.rxLower = s.link.rxLower ∧ (takeStuck st s).link.commands = s.link.commands ∧
    (takeStuck st s).link.holding = s.link.holding ∧ (takeStuck st s).link.reports = s.link.reports ∧
    (takeStuck st s).link.linkStarted = s.link.linkStarted ∧ (takeStuck st s).link.lowerTx = s.link.lowerTx ∧
    (takeStuck st s).link.credit = s.link.credit ∧ (takeStuck st s).link.replies = s.link.replies ∧
    (takeStuck st s).link.upperTx = s.link.upperTx ∧ (takeStuck st s).svc.rx = s.svc.rx ∧
    (takeStuck st s).svc.held = s.svc.held ∧ (takeStuck st s).svc.claim = s.svc.claim ∧
    (takeStuck st s).svc.reply = s.svc.reply ∧ (takeStuck st s).svc.tx = s.svc.tx ∧
    (takeStuck st s).cap.owner = s.cap.owner ∧ (takeStuck st s).cap.mode = s.cap.mode ∧
    (takeStuck st s).cap.mask = s.cap.mask := by
  simp only [takeStuck]
  (repeat' split) <;> simp [*]

@[simp] theorem takeDueExpiries_frame (st : Station) (s : State) :
    (takeDueExpiries st s).pending = s.pending ∧ (takeDueExpiries st s).load = s.load ∧
    (takeDueExpiries st s).tables = s.tables ∧
    (takeDueExpiries st s).pos.clock = s.pos.clock ∧ (takeDueExpiries st s).pos.p = s.pos.p ∧
    (takeDueExpiries st s).pos.lastPulse = s.pos.lastPulse ∧ (takeDueExpiries st s).pos.msCount = s.pos.msCount ∧
    (takeDueExpiries st s).pos.trunRaw = s.pos.trunRaw ∧ (takeDueExpiries st s).pos.trunQual = s.pos.trunQual ∧
    (takeDueExpiries st s).pos.trunPending = s.pos.trunPending ∧
    (takeDueExpiries st s).front.covers = s.front.covers ∧ (takeDueExpiries st s).ret.expected = s.ret.expected ∧
    (takeDueExpiries st s).ret.receiving = s.ret.receiving ∧ (takeDueExpiries st s).fwd.f = s.fwd.f ∧
    (takeDueExpiries st s).fwd.speed = s.fwd.speed ∧ (takeDueExpiries st s).trk.table = s.trk.table ∧
    (takeDueExpiries st s).plan = s.plan ∧ (takeDueExpiries st s).sets = s.sets ∧
    (takeDueExpiries st s).sup.resetCause = s.sup.resetCause ∧ (takeDueExpiries st s).link.rxUpper = s.link.rxUpper ∧
    (takeDueExpiries st s).link.rxLower = s.link.rxLower ∧ (takeDueExpiries st s).link.commands = s.link.commands ∧
    (takeDueExpiries st s).link.holding = s.link.holding ∧ (takeDueExpiries st s).link.reports = s.link.reports ∧
    (takeDueExpiries st s).link.linkStarted = s.link.linkStarted ∧
    (takeDueExpiries st s).link.lowerTx = s.link.lowerTx ∧ (takeDueExpiries st s).link.credit = s.link.credit ∧
    (takeDueExpiries st s).link.replies = s.link.replies ∧ (takeDueExpiries st s).link.upperTx = s.link.upperTx ∧
    (takeDueExpiries st s).svc.rx = s.svc.rx ∧ (takeDueExpiries st s).svc.held = s.svc.held ∧
    (takeDueExpiries st s).svc.claim = s.svc.claim ∧ (takeDueExpiries st s).svc.reply = s.svc.reply ∧
    (takeDueExpiries st s).svc.tx = s.svc.tx ∧ (takeDueExpiries st s).cap.owner = s.cap.owner ∧
    (takeDueExpiries st s).cap.mode = s.cap.mode ∧ (takeDueExpiries st s).cap.mask = s.cap.mask := by
  simp only [takeDueExpiries]
  (repeat' split) <;> simp [*]

@[simp] theorem allocate_frame (tag : Tag) (e : Entry) (s : State) :
    (allocate tag e s).1.pending = s.pending ∧ (allocate tag e s).1.load = s.load ∧
    (allocate tag e s).1.tables = s.tables ∧
    (allocate tag e s).1.pos.clock = s.pos.clock ∧ (allocate tag e s).1.pos.p = s.pos.p ∧
    (allocate tag e s).1.pos.lastPulse = s.pos.lastPulse ∧ (allocate tag e s).1.pos.msCount = s.pos.msCount ∧
    (allocate tag e s).1.reached = s.reached ∧ (allocate tag e s).1.pos.settleFrom = s.pos.settleFrom ∧ (allocate tag e s).1.pos.trunRaw = s.pos.trunRaw ∧
    (allocate tag e s).1.pos.trunQual = s.pos.trunQual ∧ (allocate tag e s).1.pos.trunPending = s.pos.trunPending ∧
    (allocate tag e s).1.front = s.front ∧ (allocate tag e s).1.ret.expected = s.ret.expected ∧
    (allocate tag e s).1.ret.receiving = s.ret.receiving ∧ (allocate tag e s).1.fwd = s.fwd ∧
    (allocate tag e s).1.trk.slots = s.trk.slots ∧ (allocate tag e s).1.trk.notedP = s.trk.notedP ∧
    (allocate tag e s).1.jam = s.jam ∧ (allocate tag e s).1.plan = s.plan ∧ (allocate tag e s).1.sets = s.sets ∧
    (allocate tag e s).1.sup = s.sup ∧ (allocate tag e s).1.link = s.link ∧ (allocate tag e s).1.svc = s.svc ∧
    (allocate tag e s).1.cap = s.cap ∧ (allocate tag e s).1.free = s.free := by
  simp only [allocate]
  (repeat' split) <;> simp [*]

@[simp] theorem rebase_frame (s : State) :
    (rebase s).pending = s.pending ∧ (rebase s).load = s.load ∧ (rebase s).tables = s.tables ∧ (rebase s).reached = s.reached ∧ (rebase s).pos = s.pos ∧
    (rebase s).front = s.front ∧ (rebase s).ret = s.ret ∧ (rebase s).fwd = s.fwd ∧
    (rebase s).trk.table = s.trk.table ∧ (rebase s).trk.notedP = s.trk.notedP ∧ (rebase s).jam = s.jam ∧
    (rebase s).plan = s.plan ∧ (rebase s).sets = s.sets ∧ (rebase s).sup = s.sup ∧ (rebase s).link = s.link ∧
    (rebase s).svc = s.svc ∧ (rebase s).cap = s.cap ∧ (rebase s).free = s.free := by
  simp only [rebase]
  (repeat' split) <;> simp [*]

@[simp] theorem formPlan_frame (p : PlanRec) (s : State) :
    (formPlan p s).pending = s.pending ∧ (formPlan p s).load = s.load ∧ (formPlan p s).tables = s.tables ∧
    (formPlan p s).reached = s.reached ∧ (formPlan p s).pos = s.pos ∧
    (formPlan p s).front = s.front ∧ (formPlan p s).ret = s.ret ∧ (formPlan p s).fwd = s.fwd ∧
    (formPlan p s).trk = s.trk ∧ (formPlan p s).jam = s.jam ∧ (formPlan p s).sets = s.sets ∧
    (formPlan p s).sup = s.sup ∧ (formPlan p s).link.rxUpper = s.link.rxUpper ∧
    (formPlan p s).link.rxLower = s.link.rxLower ∧ (formPlan p s).link.commands = s.link.commands ∧
    (formPlan p s).link.holding = s.link.holding ∧ (formPlan p s).link.reports = s.link.reports ∧
    (formPlan p s).link.pathControl = s.link.pathControl ∧ (formPlan p s).link.forwarded = s.link.forwarded ∧
    (formPlan p s).link.linkStarted = s.link.linkStarted ∧ (formPlan p s).link.lowerTx = s.link.lowerTx ∧
    (formPlan p s).link.credit = s.link.credit ∧ (formPlan p s).link.replies = s.link.replies ∧
    (formPlan p s).link.upperTx = s.link.upperTx ∧ (formPlan p s).svc.rx = s.svc.rx ∧
    (formPlan p s).svc.held = s.svc.held ∧ (formPlan p s).svc.claim = s.svc.claim ∧
    (formPlan p s).svc.reply = s.svc.reply ∧ (formPlan p s).svc.tx = s.svc.tx ∧
    (formPlan p s).cap.owner = s.cap.owner ∧ (formPlan p s).cap.mode = s.cap.mode ∧
    (formPlan p s).cap.mask = s.cap.mask := by
  simp only [formPlan]
  (repeat' split) <;> simp [*]

@[simp] theorem clearMarks_frame (s : State) :
    (clearMarks s).pending = s.pending ∧ (clearMarks s).load = s.load ∧ (clearMarks s).tables = s.tables ∧
    (clearMarks s).reached = s.reached ∧ (clearMarks s).pos = s.pos ∧
    (clearMarks s).front = s.front ∧ (clearMarks s).ret.expected = s.ret.expected ∧
    (clearMarks s).ret.receiving = s.ret.receiving ∧ (clearMarks s).fwd = s.fwd ∧
    (clearMarks s).trk.lists = s.trk.lists ∧ (clearMarks s).trk.slots = s.trk.slots ∧
    (clearMarks s).trk.notedP = s.trk.notedP ∧ (clearMarks s).jam = s.jam ∧ (clearMarks s).plan = s.plan ∧
    (clearMarks s).sets = s.sets ∧ (clearMarks s).sup = s.sup ∧ (clearMarks s).link = s.link ∧
    (clearMarks s).svc = s.svc ∧ (clearMarks s).cap = s.cap ∧ (clearMarks s).free = s.free := by
  simp only [clearMarks]
  (repeat' split) <;> simp [*]

@[simp] theorem closePlan_frame (s : State) :
    (closePlan s).pending = s.pending ∧ (closePlan s).load = s.load ∧ (closePlan s).tables = s.tables ∧
    (closePlan s).reached = s.reached ∧ (closePlan s).pos = s.pos ∧
    (closePlan s).front = s.front ∧ (closePlan s).ret.expected = s.ret.expected ∧
    (closePlan s).ret.receiving = s.ret.receiving ∧ (closePlan s).fwd = s.fwd ∧
    (closePlan s).trk.lists = s.trk.lists ∧ (closePlan s).trk.slots = s.trk.slots ∧
    (closePlan s).trk.notedP = s.trk.notedP ∧ (closePlan s).jam = s.jam ∧
    (closePlan s).plan.counter = s.plan.counter ∧ (closePlan s).sets = s.sets ∧ (closePlan s).sup = s.sup ∧
    (closePlan s).link = s.link ∧ (closePlan s).svc = s.svc ∧ (closePlan s).cap = s.cap ∧
    (closePlan s).free = s.free := by
  simp only [closePlan]
  (repeat' split) <;> simp [*]

@[simp] theorem foreignSheet_frame (st : Station) (at_ : Pos) (s : State) :
    (foreignSheet st at_ s).pending = s.pending ∧ (foreignSheet st at_ s).load = s.load ∧
    (foreignSheet st at_ s).tables = s.tables ∧
    (foreignSheet st at_ s).pos.clock = s.pos.clock ∧ (foreignSheet st at_ s).pos.p = s.pos.p ∧
    (foreignSheet st at_ s).pos.lastPulse = s.pos.lastPulse ∧ (foreignSheet st at_ s).pos.msCount = s.pos.msCount ∧
    (foreignSheet st at_ s).pos.trunRaw = s.pos.trunRaw ∧ (foreignSheet st at_ s).pos.trunQual = s.pos.trunQual ∧
    (foreignSheet st at_ s).pos.trunPending = s.pos.trunPending ∧
    (foreignSheet st at_ s).front.covers = s.front.covers ∧ (foreignSheet st at_ s).ret.expected = s.ret.expected ∧
    (foreignSheet st at_ s).ret.receiving = s.ret.receiving ∧ (foreignSheet st at_ s).fwd = s.fwd ∧
    (foreignSheet st at_ s).trk.lists = s.trk.lists ∧ (foreignSheet st at_ s).trk.slots = s.trk.slots ∧
    (foreignSheet st at_ s).jam = s.jam ∧ (foreignSheet st at_ s).sets = s.sets ∧
    (foreignSheet st at_ s).sup.resetCause = s.sup.resetCause ∧
    (foreignSheet st at_ s).sup.speedWait = s.sup.speedWait ∧ (foreignSheet st at_ s).link.rxUpper = s.link.rxUpper ∧
    (foreignSheet st at_ s).link.rxLower = s.link.rxLower ∧ (foreignSheet st at_ s).link.commands = s.link.commands ∧
    (foreignSheet st at_ s).link.holding = s.link.holding ∧ (foreignSheet st at_ s).link.reports = s.link.reports ∧
    (foreignSheet st at_ s).link.pathControl = s.link.pathControl ∧
    (foreignSheet st at_ s).link.forwarded = s.link.forwarded ∧
    (foreignSheet st at_ s).link.linkStarted = s.link.linkStarted ∧
    (foreignSheet st at_ s).link.lowerTx = s.link.lowerTx ∧ (foreignSheet st at_ s).link.credit = s.link.credit ∧
    (foreignSheet st at_ s).link.replies = s.link.replies ∧ (foreignSheet st at_ s).link.upperTx = s.link.upperTx ∧
    (foreignSheet st at_ s).svc.rx = s.svc.rx ∧ (foreignSheet st at_ s).svc.held = s.svc.held ∧
    (foreignSheet st at_ s).svc.claim = s.svc.claim ∧ (foreignSheet st at_ s).svc.reply = s.svc.reply ∧
    (foreignSheet st at_ s).svc.tx = s.svc.tx ∧ (foreignSheet st at_ s).cap.owner = s.cap.owner ∧
    (foreignSheet st at_ s).cap.mode = s.cap.mode ∧ (foreignSheet st at_ s).cap.mask = s.cap.mask := by
  simp only [foreignSheet]
  (repeat' split) <;> simp [*]

@[simp] theorem idleOrForeign_frame (s : State) :
    (idleOrForeign s).pending = s.pending ∧ (idleOrForeign s).load = s.load ∧ (idleOrForeign s).tables = s.tables ∧
    (idleOrForeign s).pos.clock = s.pos.clock ∧ (idleOrForeign s).pos.p = s.pos.p ∧
    (idleOrForeign s).pos.lastPulse = s.pos.lastPulse ∧ (idleOrForeign s).pos.msCount = s.pos.msCount ∧
    (idleOrForeign s).pos.trunRaw = s.pos.trunRaw ∧ (idleOrForeign s).pos.trunQual = s.pos.trunQual ∧
    (idleOrForeign s).pos.trunPending = s.pos.trunPending ∧ (idleOrForeign s).front.covers = s.front.covers ∧
    (idleOrForeign s).ret.expected = s.ret.expected ∧ (idleOrForeign s).ret.receiving = s.ret.receiving ∧
    (idleOrForeign s).fwd = s.fwd ∧ (idleOrForeign s).trk.lists = s.trk.lists ∧
    (idleOrForeign s).trk.slots = s.trk.slots ∧ (idleOrForeign s).jam = s.jam ∧ (idleOrForeign s).sets = s.sets ∧
    (idleOrForeign s).sup.resetCause = s.sup.resetCause ∧ (idleOrForeign s).sup.speedWait = s.sup.speedWait ∧
    (idleOrForeign s).link.rxUpper = s.link.rxUpper ∧ (idleOrForeign s).link.rxLower = s.link.rxLower ∧
    (idleOrForeign s).link.commands = s.link.commands ∧ (idleOrForeign s).link.holding = s.link.holding ∧
    (idleOrForeign s).link.reports = s.link.reports ∧ (idleOrForeign s).link.pathControl = s.link.pathControl ∧
    (idleOrForeign s).link.forwarded = s.link.forwarded ∧ (idleOrForeign s).link.linkStarted = s.link.linkStarted ∧
    (idleOrForeign s).link.lowerTx = s.link.lowerTx ∧ (idleOrForeign s).link.credit = s.link.credit ∧
    (idleOrForeign s).link.replies = s.link.replies ∧ (idleOrForeign s).link.upperTx = s.link.upperTx ∧
    (idleOrForeign s).svc.rx = s.svc.rx ∧ (idleOrForeign s).svc.held = s.svc.held ∧
    (idleOrForeign s).svc.claim = s.svc.claim ∧ (idleOrForeign s).svc.reply = s.svc.reply ∧
    (idleOrForeign s).svc.tx = s.svc.tx ∧ (idleOrForeign s).cap.owner = s.cap.owner ∧
    (idleOrForeign s).cap.mode = s.cap.mode ∧ (idleOrForeign s).cap.mask = s.cap.mask := by
  simp only [idleOrForeign]
  (repeat' split) <;> simp [*]

@[simp] theorem applyMarks_frame (s : State) :
    (applyMarks s).pending = s.pending ∧ (applyMarks s).load = s.load ∧ (applyMarks s).tables = s.tables ∧
    (applyMarks s).reached = s.reached ∧ (applyMarks s).pos = s.pos ∧
    (applyMarks s).front = s.front ∧ (applyMarks s).ret.expected = s.ret.expected ∧
    (applyMarks s).ret.receiving = s.ret.receiving ∧ (applyMarks s).fwd = s.fwd ∧
    (applyMarks s).trk.lists = s.trk.lists ∧ (applyMarks s).trk.slots = s.trk.slots ∧
    (applyMarks s).trk.notedP = s.trk.notedP ∧ (applyMarks s).jam = s.jam ∧ (applyMarks s).plan = s.plan ∧
    (applyMarks s).sets.voidOrder = s.sets.voidOrder ∧ (applyMarks s).sup = s.sup ∧ (applyMarks s).link = s.link ∧
    (applyMarks s).svc = s.svc ∧ (applyMarks s).cap = s.cap ∧ (applyMarks s).free = s.free := by
  simp only [applyMarks]
  (repeat' split) <;> simp [*]

theorem releaseSets_fold (l : List SetRec) (s t : State)
    (h : t = l.foldl (fun s r => releaseSet r s) s) :
    t.pending = s.pending ∧ t.load = s.load ∧ t.tables = s.tables ∧ t.reached = s.reached ∧ t.pos = s.pos ∧ t.front = s.front ∧
    t.ret = s.ret ∧ t.fwd = s.fwd ∧
    t.trk = s.trk ∧ t.jam.causes = s.jam.causes ∧ t.jam.more = s.jam.more ∧ t.plan = s.plan ∧ t.sup = s.sup ∧
    t.link = s.link ∧ t.svc = s.svc ∧ t.cap = s.cap ∧ t.free = s.free := by
  subst h
  induction l generalizing s with
  | nil => simp
  | cons a l ih => rw [List.foldl_cons]; simp [ih]; try (split <;> simp)

@[simp] theorem releaseDone_frame (s : State) :
    (releaseDone s).pending = s.pending ∧ (releaseDone s).load = s.load ∧ (releaseDone s).tables = s.tables ∧
    (releaseDone s).reached = s.reached ∧ (releaseDone s).pos = s.pos ∧
    (releaseDone s).front = s.front ∧ (releaseDone s).ret = s.ret ∧ (releaseDone s).fwd = s.fwd ∧
    (releaseDone s).trk = s.trk ∧ (releaseDone s).jam.causes = s.jam.causes ∧ (releaseDone s).jam.more = s.jam.more ∧
    (releaseDone s).plan = s.plan ∧ (releaseDone s).sup = s.sup ∧ (releaseDone s).link = s.link ∧
    (releaseDone s).svc = s.svc ∧ (releaseDone s).cap = s.cap ∧ (releaseDone s).free = s.free := by
  simp only [releaseDone]
  simp [releaseSets_fold _ _ _ rfl]

theorem becomeVoided_fold (l : List SetName) (s t : State)
    (h : t = l.foldl (fun s n => becomeVoided n s) s) :
    t.pending = s.pending ∧ t.load = s.load ∧ t.tables = s.tables ∧ t.reached = s.reached ∧ t.pos = s.pos ∧ t.front = s.front ∧
    t.ret = s.ret ∧ t.fwd = s.fwd ∧
    t.trk = s.trk ∧ t.jam = s.jam ∧ t.plan = s.plan ∧ t.sup = s.sup ∧ t.link = s.link ∧ t.svc = s.svc ∧
    t.cap = s.cap ∧ t.free = s.free := by
  subst h
  induction l generalizing s with
  | nil => simp
  | cons a l ih => rw [List.foldl_cons]; simp [ih]; try (split <;> simp)

theorem freeRecord_fold (l : List Tag) (s t : State)
    (h : t = l.foldl (fun s t => freeRecord t s) s) :
    t.pending = s.pending ∧ t.load = s.load ∧ t.tables = s.tables ∧ t.pos.clock = s.pos.clock ∧ t.pos.p = s.pos.p ∧
    t.pos.lastPulse = s.pos.lastPulse ∧ t.pos.msCount = s.pos.msCount ∧ t.reached = s.reached ∧ t.pos.settleFrom = s.pos.settleFrom ∧
    t.pos.trunRaw = s.pos.trunRaw ∧ t.pos.trunQual = s.pos.trunQual ∧ t.pos.trunPending = s.pos.trunPending ∧
    t.front = s.front ∧ t.ret = s.ret ∧ t.fwd = s.fwd ∧ t.trk.notedP = s.trk.notedP ∧ t.jam = s.jam ∧
    t.plan = s.plan ∧ t.sets = s.sets ∧ t.sup = s.sup ∧ t.link = s.link ∧ t.svc = s.svc ∧ t.cap = s.cap ∧
    t.free = s.free := by
  subst h
  induction l generalizing s with
  | nil => simp
  | cons a l ih => rw [List.foldl_cons]; simp [ih]; try (split <;> simp)

@[simp] theorem snapshot_frame (s : State) :
    (snapshot s).pending = s.pending ∧ (snapshot s).load = s.load ∧ (snapshot s).tables = s.tables ∧
    (snapshot s).pos.clock = s.pos.clock ∧
    (snapshot s).pos.p = s.pos.p ∧ (snapshot s).pos.lastPulse = s.pos.lastPulse ∧
    (snapshot s).pos.msCount = s.pos.msCount ∧ (snapshot s).pos.trunRaw = s.pos.trunRaw ∧
    (snapshot s).pos.trunQual = s.pos.trunQual ∧ (snapshot s).pos.trunPending = s.pos.trunPending ∧
    (snapshot s).front.covers = s.front.covers ∧ (snapshot s).ret.expected = s.ret.expected ∧
    (snapshot s).ret.receiving = s.ret.receiving ∧ (snapshot s).fwd = s.fwd ∧
    (snapshot s).sup.resetCause = s.sup.resetCause ∧ (snapshot s).sup.speedWait = s.sup.speedWait ∧
    (snapshot s).link.rxUpper = s.link.rxUpper ∧ (snapshot s).link.rxLower = s.link.rxLower ∧
    (snapshot s).link.commands = s.link.commands ∧ (snapshot s).link.holding = s.link.holding ∧
    (snapshot s).link.reports = s.link.reports ∧ (snapshot s).link.pathControl = s.link.pathControl ∧
    (snapshot s).link.forwarded = s.link.forwarded ∧ (snapshot s).link.linkStarted = s.link.linkStarted ∧
    (snapshot s).link.lowerTx = s.link.lowerTx ∧ (snapshot s).link.credit = s.link.credit ∧
    (snapshot s).link.replies = s.link.replies ∧ (snapshot s).link.upperTx = s.link.upperTx ∧
    (snapshot s).svc.rx = s.svc.rx ∧ (snapshot s).svc.held = s.svc.held ∧ (snapshot s).svc.claim = s.svc.claim ∧
    (snapshot s).svc.reply = s.svc.reply ∧ (snapshot s).svc.tx = s.svc.tx ∧ (snapshot s).cap.owner = s.cap.owner ∧
    (snapshot s).cap.mode = s.cap.mode ∧ (snapshot s).cap.mask = s.cap.mask := by
  simp only [snapshot]
  simp [becomeVoided_fold _ _ _ rfl, freeRecord_fold _ _ _ rfl]

theorem settleDeferred_fold (l : List Cause) (s t : State)
    (h : t = l.foldl (fun s c => if stillOwed s c then takeCause c s else s) s) :
    t.pending = s.pending ∧ t.load = s.load ∧ t.tables = s.tables ∧ t.pos.clock = s.pos.clock ∧ t.pos.p = s.pos.p ∧
    t.pos.lastPulse = s.pos.lastPulse ∧ t.pos.msCount = s.pos.msCount ∧ t.pos.trunRaw = s.pos.trunRaw ∧
    t.pos.trunQual = s.pos.trunQual ∧ t.pos.trunPending = s.pos.trunPending ∧ t.front.covers = s.front.covers ∧
    t.ret.expected = s.ret.expected ∧ t.ret.receiving = s.ret.receiving ∧ t.fwd.f = s.fwd.f ∧
    t.fwd.speed = s.fwd.speed ∧ t.trk.table = s.trk.table ∧ t.trk.lists = s.trk.lists ∧ t.trk.slots = s.trk.slots ∧
    t.plan = s.plan ∧ t.sets = s.sets ∧ t.sup.resetCause = s.sup.resetCause ∧ t.link.rxUpper = s.link.rxUpper ∧
    t.link.rxLower = s.link.rxLower ∧ t.link.commands = s.link.commands ∧ t.link.holding = s.link.holding ∧
    t.link.reports = s.link.reports ∧ t.link.linkStarted = s.link.linkStarted ∧ t.link.lowerTx = s.link.lowerTx ∧
    t.link.credit = s.link.credit ∧ t.link.replies = s.link.replies ∧ t.link.upperTx = s.link.upperTx ∧
    t.svc.rx = s.svc.rx ∧ t.svc.held = s.svc.held ∧ t.svc.claim = s.svc.claim ∧ t.svc.reply = s.svc.reply ∧
    t.svc.tx = s.svc.tx ∧ t.cap.owner = s.cap.owner ∧ t.cap.mode = s.cap.mode ∧ t.cap.mask = s.cap.mask := by
  subst h
  induction l generalizing s with
  | nil => simp
  | cons a l ih => rw [List.foldl_cons]; simp [ih]; try (split <;> simp)

@[simp] theorem settleDeferred_frame (s : State) :
    (settleDeferred s).pending = s.pending ∧ (settleDeferred s).load = s.load ∧ (settleDeferred s).tables = s.tables ∧
    (settleDeferred s).pos.clock = s.pos.clock ∧ (settleDeferred s).pos.p = s.pos.p ∧
    (settleDeferred s).pos.lastPulse = s.pos.lastPulse ∧ (settleDeferred s).pos.msCount = s.pos.msCount ∧
    (settleDeferred s).pos.trunRaw = s.pos.trunRaw ∧ (settleDeferred s).pos.trunQual = s.pos.trunQual ∧
    (settleDeferred s).pos.trunPending = s.pos.trunPending ∧ (settleDeferred s).front.covers = s.front.covers ∧
    (settleDeferred s).ret.expected = s.ret.expected ∧ (settleDeferred s).ret.receiving = s.ret.receiving ∧
    (settleDeferred s).fwd.f = s.fwd.f ∧ (settleDeferred s).fwd.speed = s.fwd.speed ∧
    (settleDeferred s).trk.table = s.trk.table ∧ (settleDeferred s).trk.lists = s.trk.lists ∧
    (settleDeferred s).trk.slots = s.trk.slots ∧ (settleDeferred s).plan = s.plan ∧ (settleDeferred s).sets = s.sets ∧
    (settleDeferred s).sup.resetCause = s.sup.resetCause ∧ (settleDeferred s).link.rxUpper = s.link.rxUpper ∧
    (settleDeferred s).link.rxLower = s.link.rxLower ∧ (settleDeferred s).link.commands = s.link.commands ∧
    (settleDeferred s).link.holding = s.link.holding ∧ (settleDeferred s).link.reports = s.link.reports ∧
    (settleDeferred s).link.linkStarted = s.link.linkStarted ∧ (settleDeferred s).link.lowerTx = s.link.lowerTx ∧
    (settleDeferred s).link.credit = s.link.credit ∧ (settleDeferred s).link.replies = s.link.replies ∧
    (settleDeferred s).link.upperTx = s.link.upperTx ∧ (settleDeferred s).svc.rx = s.svc.rx ∧
    (settleDeferred s).svc.held = s.svc.held ∧ (settleDeferred s).svc.claim = s.svc.claim ∧
    (settleDeferred s).svc.reply = s.svc.reply ∧ (settleDeferred s).svc.tx = s.svc.tx ∧
    (settleDeferred s).cap.owner = s.cap.owner ∧ (settleDeferred s).cap.mode = s.cap.mode ∧
    (settleDeferred s).cap.mask = s.cap.mask := by
  simp only [settleDeferred]
  simp [settleDeferred_fold _ _ _ rfl]

@[simp] theorem SetRec.replayed_name (t : Tables) (es : List Entry) (r : SetRec) : (r.replayed t es).name = r.name := rfl

@[simp] theorem SetRec.replayed_state (t : Tables) (es : List Entry) (r : SetRec) : (r.replayed t es).state = r.state := rfl

/-- A set is rebuilt after replay where it was before, or where it is cancelled and replay returned a member of it (R148). -/
theorem SetRec.replayed_rebuilt (t : Tables) (es : List Entry) (r : SetRec) : (r.replayed t es).rebuilt = true ↔
    r.rebuilt = true ∨ (r.cancelled = true ∧ ∃ e ∈ es, e.state = .reprint ∧ memberOf t r e = true) := by
  simp [SetRec.replayed]

@[simp] theorem rebuildSets_frame (s : State) :
    (rebuildSets s).pending = s.pending ∧ (rebuildSets s).load = s.load ∧ (rebuildSets s).tables = s.tables ∧
    (rebuildSets s).reached = s.reached ∧ (rebuildSets s).pos = s.pos ∧ (rebuildSets s).front = s.front ∧
    (rebuildSets s).ret = s.ret ∧ (rebuildSets s).fwd = s.fwd ∧ (rebuildSets s).trk = s.trk ∧
    (rebuildSets s).jam = s.jam ∧ (rebuildSets s).plan = s.plan ∧ (rebuildSets s).sets.voidOrder = s.sets.voidOrder ∧
    (rebuildSets s).sets.records = s.sets.records.map (SetRec.replayed s.tables s.ret.entries) ∧
    (rebuildSets s).sup = s.sup ∧ (rebuildSets s).link = s.link ∧ (rebuildSets s).svc = s.svc ∧
    (rebuildSets s).cap = s.cap ∧ (rebuildSets s).free = s.free := by
  simp [rebuildSets]

@[simp] theorem returnEntries_frame (s : State) :
    (returnEntries s).pending = s.pending ∧ (returnEntries s).load = s.load ∧ (returnEntries s).tables = s.tables ∧
    (returnEntries s).reached = s.reached ∧ (returnEntries s).pos = s.pos ∧
    (returnEntries s).front = s.front ∧ (returnEntries s).ret.expected = s.ret.expected ∧
    (returnEntries s).ret.receiving = s.ret.receiving ∧ (returnEntries s).fwd = s.fwd ∧
    (returnEntries s).trk.lists = s.trk.lists ∧ (returnEntries s).trk.slots = s.trk.slots ∧
    (returnEntries s).trk.notedP = s.trk.notedP ∧ (returnEntries s).jam = s.jam ∧
    (returnEntries s).plan.counter = s.plan.counter ∧ (returnEntries s).sets.voidOrder = s.sets.voidOrder ∧
    (returnEntries s).sets.records = s.sets.records.map (SetRec.replayed s.tables s.ret.entries) ∧
    (returnEntries s).sup = s.sup ∧ (returnEntries s).link = s.link ∧ (returnEntries s).svc = s.svc ∧
    (returnEntries s).cap = s.cap ∧ (returnEntries s).free = s.free := by
  simp only [returnEntries]
  (repeat' split) <;> simp [*]

@[simp] theorem replay_frame (s : State) :
    (replay s).pending = s.pending ∧ (replay s).load = s.load ∧ (replay s).tables = s.tables ∧
    (replay s).pos.clock = s.pos.clock ∧
    (replay s).pos.p = s.pos.p ∧ (replay s).pos.lastPulse = s.pos.lastPulse ∧ (replay s).pos.msCount = s.pos.msCount ∧
    (replay s).pos.trunRaw = s.pos.trunRaw ∧ (replay s).pos.trunQual = s.pos.trunQual ∧
    (replay s).pos.trunPending = s.pos.trunPending ∧ (replay s).front.covers = s.front.covers ∧
    (replay s).ret.expected = s.ret.expected ∧ (replay s).ret.receiving = s.ret.receiving ∧
    (replay s).fwd.speed = s.fwd.speed ∧ (replay s).trk.lists = s.trk.lists ∧ (replay s).trk.slots = s.trk.slots ∧
    (replay s).plan.counter = s.plan.counter ∧ (replay s).sets.voidOrder = s.sets.voidOrder ∧
    (replay s).sets.records = s.sets.records.map (SetRec.replayed s.tables s.ret.entries) ∧
    (replay s).sup.resetCause = s.sup.resetCause ∧ (replay s).link.rxUpper = s.link.rxUpper ∧
    (replay s).link.rxLower = s.link.rxLower ∧ (replay s).link.commands = s.link.commands ∧
    (replay s).link.holding = s.link.holding ∧ (replay s).link.reports = s.link.reports ∧
    (replay s).link.linkStarted = s.link.linkStarted ∧ (replay s).link.lowerTx = s.link.lowerTx ∧
    (replay s).link.credit = s.link.credit ∧ (replay s).link.replies = s.link.replies ∧
    (replay s).link.upperTx = s.link.upperTx ∧ (replay s).svc.rx = s.svc.rx ∧ (replay s).svc.held = s.svc.held ∧
    (replay s).svc.claim = s.svc.claim ∧ (replay s).svc.reply = s.svc.reply ∧ (replay s).svc.tx = s.svc.tx ∧
    (replay s).cap.owner = s.cap.owner ∧ (replay s).cap.mode = s.cap.mode ∧ (replay s).cap.mask = s.cap.mask := by
  simp only [replay]
  (repeat' split) <;> simp [*]

theorem queueSetVoid_fold (l : List SetName) (s t : State)
    (h : t = l.foldl (fun s n => queueSetVoid n s) s) :
    t.pending = s.pending ∧ t.load = s.load ∧ t.tables = s.tables ∧ t.reached = s.reached ∧ t.pos = s.pos ∧ t.front = s.front ∧
    t.ret = s.ret ∧ t.fwd = s.fwd ∧
    t.trk = s.trk ∧ t.jam = s.jam ∧ t.plan = s.plan ∧ t.sets = s.sets ∧ t.sup = s.sup ∧
    t.link.rxUpper = s.link.rxUpper ∧ t.link.rxLower = s.link.rxLower ∧ t.link.commands = s.link.commands ∧
    t.link.holding = s.link.holding ∧ t.link.reports = s.link.reports ∧ t.link.forwarded = s.link.forwarded ∧
    t.link.linkStarted = s.link.linkStarted ∧ t.link.lowerTx = s.link.lowerTx ∧ t.link.credit = s.link.credit ∧
    t.link.replies = s.link.replies ∧ t.link.notices = s.link.notices ∧ t.link.lossCount = s.link.lossCount ∧
    t.link.upperTx = s.link.upperTx ∧ t.svc = s.svc ∧ t.cap = s.cap ∧ t.free = s.free := by
  subst h
  induction l generalizing s with
  | nil => simp
  | cons a l ih => rw [List.foldl_cons]; simp [ih]; try (split <;> simp)

@[simp] theorem startVoidPhase_frame (s : State) :
    (startVoidPhase s).pending = s.pending ∧ (startVoidPhase s).load = s.load ∧
    (startVoidPhase s).tables = s.tables ∧ (startVoidPhase s).reached = s.reached ∧ (startVoidPhase s).pos = s.pos ∧
    (startVoidPhase s).front = s.front ∧ (startVoidPhase s).ret = s.ret ∧ (startVoidPhase s).fwd = s.fwd ∧
    (startVoidPhase s).trk = s.trk ∧ (startVoidPhase s).jam = s.jam ∧ (startVoidPhase s).plan = s.plan ∧
    (startVoidPhase s).sets = s.sets ∧ (startVoidPhase s).sup.state = s.sup.state ∧
    (startVoidPhase s).sup.pathHalt = s.sup.pathHalt ∧ (startVoidPhase s).sup.resetCause = s.sup.resetCause ∧
    (startVoidPhase s).sup.heldReason = s.sup.heldReason ∧ (startVoidPhase s).sup.speedWait = s.sup.speedWait ∧
    (startVoidPhase s).link.rxUpper = s.link.rxUpper ∧ (startVoidPhase s).link.rxLower = s.link.rxLower ∧
    (startVoidPhase s).link.commands = s.link.commands ∧ (startVoidPhase s).link.holding = s.link.holding ∧
    (startVoidPhase s).link.reports = s.link.reports ∧ (startVoidPhase s).link.forwarded = s.link.forwarded ∧
    (startVoidPhase s).link.linkStarted = s.link.linkStarted ∧ (startVoidPhase s).link.lowerTx = s.link.lowerTx ∧
    (startVoidPhase s).link.credit = s.link.credit ∧ (startVoidPhase s).link.replies = s.link.replies ∧
    (startVoidPhase s).link.notices = s.link.notices ∧ (startVoidPhase s).link.lossCount = s.link.lossCount ∧
    (startVoidPhase s).link.upperTx = s.link.upperTx ∧ (startVoidPhase s).svc = s.svc ∧
    (startVoidPhase s).cap = s.cap ∧ (startVoidPhase s).free = s.free := by
  simp only [startVoidPhase]
  simp [queueSetVoid_fold _ _ _ rfl]

@[simp] theorem endDriveOut_frame (s : State) :
    (endDriveOut s).pending = s.pending ∧ (endDriveOut s).load = s.load ∧ (endDriveOut s).tables = s.tables ∧
    (endDriveOut s).pos.clock = s.pos.clock ∧ (endDriveOut s).pos.p = s.pos.p ∧
    (endDriveOut s).pos.lastPulse = s.pos.lastPulse ∧ (endDriveOut s).pos.msCount = s.pos.msCount ∧
    (endDriveOut s).pos.trunRaw = s.pos.trunRaw ∧ (endDriveOut s).pos.trunQual = s.pos.trunQual ∧
    (endDriveOut s).pos.trunPending = s.pos.trunPending ∧ (endDriveOut s).front.covers = s.front.covers ∧
    (endDriveOut s).ret.expected = s.ret.expected ∧ (endDriveOut s).ret.receiving = s.ret.receiving ∧
    (endDriveOut s).fwd.speed = s.fwd.speed ∧ (endDriveOut s).trk.lists = s.trk.lists ∧
    (endDriveOut s).trk.slots = s.trk.slots ∧ (endDriveOut s).plan.counter = s.plan.counter ∧
    (endDriveOut s).sets.voidOrder = s.sets.voidOrder ∧
    (endDriveOut s).sets.records.map (·.name) = s.sets.records.map (·.name) ∧ (endDriveOut s).sup.resetCause = s.sup.resetCause ∧
    (endDriveOut s).link.rxUpper = s.link.rxUpper ∧ (endDriveOut s).link.rxLower = s.link.rxLower ∧
    (endDriveOut s).link.commands = s.link.commands ∧ (endDriveOut s).link.holding = s.link.holding ∧
    (endDriveOut s).link.reports = s.link.reports ∧ (endDriveOut s).link.linkStarted = s.link.linkStarted ∧
    (endDriveOut s).link.lowerTx = s.link.lowerTx ∧ (endDriveOut s).link.credit = s.link.credit ∧
    (endDriveOut s).link.replies = s.link.replies ∧ (endDriveOut s).link.upperTx = s.link.upperTx ∧
    (endDriveOut s).svc.rx = s.svc.rx ∧ (endDriveOut s).svc.held = s.svc.held ∧
    (endDriveOut s).svc.claim = s.svc.claim ∧ (endDriveOut s).svc.reply = s.svc.reply ∧
    (endDriveOut s).svc.tx = s.svc.tx ∧ (endDriveOut s).cap.owner = s.cap.owner ∧
    (endDriveOut s).cap.mode = s.cap.mode ∧ (endDriveOut s).cap.mask = s.cap.mask := by
  simp only [endDriveOut]
  (repeat' split) <;> simp [*]

theorem queueControl_fold (l : List PathControl) (s t : State)
    (h : t = l.foldl (fun s f => queueControl f s) s) :
    t.pending = s.pending ∧ t.load = s.load ∧ t.tables = s.tables ∧ t.reached = s.reached ∧ t.pos = s.pos ∧ t.front = s.front ∧
    t.ret = s.ret ∧ t.fwd = s.fwd ∧
    t.trk = s.trk ∧ t.jam = s.jam ∧ t.plan = s.plan ∧ t.sets = s.sets ∧ t.sup = s.sup ∧
    t.link.rxUpper = s.link.rxUpper ∧ t.link.rxLower = s.link.rxLower ∧ t.link.commands = s.link.commands ∧
    t.link.holding = s.link.holding ∧ t.link.reports = s.link.reports ∧ t.link.forwarded = s.link.forwarded ∧
    t.link.linkStarted = s.link.linkStarted ∧ t.link.lowerTx = s.link.lowerTx ∧ t.link.credit = s.link.credit ∧
    t.link.replies = s.link.replies ∧ t.link.notices = s.link.notices ∧ t.link.lossCount = s.link.lossCount ∧
    t.link.upperTx = s.link.upperTx ∧ t.svc = s.svc ∧ t.cap = s.cap ∧ t.free = s.free := by
  subst h
  induction l generalizing s with
  | nil => simp
  | cons a l ih => rw [List.foldl_cons]; simp [ih]; try (split <;> simp)

@[simp] theorem beginDriveOut_frame (s : State) :
    (beginDriveOut s).pending = s.pending ∧ (beginDriveOut s).load = s.load ∧ (beginDriveOut s).tables = s.tables ∧
    (beginDriveOut s).pos.clock = s.pos.clock ∧ (beginDriveOut s).pos.p = s.pos.p ∧
    (beginDriveOut s).pos.lastPulse = s.pos.lastPulse ∧ (beginDriveOut s).pos.msCount = s.pos.msCount ∧
    (beginDriveOut s).pos.trunRaw = s.pos.trunRaw ∧ (beginDriveOut s).pos.trunQual = s.pos.trunQual ∧
    (beginDriveOut s).pos.trunPending = s.pos.trunPending ∧ (beginDriveOut s).front.covers = s.front.covers ∧
    (beginDriveOut s).ret.expected = s.ret.expected ∧ (beginDriveOut s).ret.receiving = s.ret.receiving ∧
    (beginDriveOut s).fwd.f = s.fwd.f ∧ (beginDriveOut s).fwd.speed = s.fwd.speed ∧
    (beginDriveOut s).trk.table = s.trk.table ∧ (beginDriveOut s).plan = s.plan ∧ (beginDriveOut s).sets = s.sets ∧
    (beginDriveOut s).sup.resetCause = s.sup.resetCause ∧ (beginDriveOut s).link.rxUpper = s.link.rxUpper ∧
    (beginDriveOut s).link.rxLower = s.link.rxLower ∧ (beginDriveOut s).link.commands = s.link.commands ∧
    (beginDriveOut s).link.holding = s.link.holding ∧ (beginDriveOut s).link.reports = s.link.reports ∧
    (beginDriveOut s).link.linkStarted = s.link.linkStarted ∧ (beginDriveOut s).link.lowerTx = s.link.lowerTx ∧
    (beginDriveOut s).link.credit = s.link.credit ∧ (beginDriveOut s).link.replies = s.link.replies ∧
    (beginDriveOut s).link.upperTx = s.link.upperTx ∧ (beginDriveOut s).svc.rx = s.svc.rx ∧
    (beginDriveOut s).svc.held = s.svc.held ∧ (beginDriveOut s).svc.claim = s.svc.claim ∧
    (beginDriveOut s).svc.reply = s.svc.reply ∧ (beginDriveOut s).svc.tx = s.svc.tx ∧
    (beginDriveOut s).cap.owner = s.cap.owner ∧ (beginDriveOut s).cap.mode = s.cap.mode ∧
    (beginDriveOut s).cap.mask = s.cap.mask := by
  simp only [beginDriveOut]
  simp [queueControl_fold _ _ _ rfl]

@[simp] theorem acceptResume_frame (s : State) :
    (acceptResume s).pending = s.pending ∧ (acceptResume s).load = s.load ∧ (acceptResume s).tables = s.tables ∧
    (acceptResume s).pos.clock = s.pos.clock ∧ (acceptResume s).pos.p = s.pos.p ∧
    (acceptResume s).pos.lastPulse = s.pos.lastPulse ∧ (acceptResume s).pos.msCount = s.pos.msCount ∧
    (acceptResume s).pos.trunRaw = s.pos.trunRaw ∧ (acceptResume s).pos.trunQual = s.pos.trunQual ∧
    (acceptResume s).pos.trunPending = s.pos.trunPending ∧ (acceptResume s).front.covers = s.front.covers ∧
    (acceptResume s).ret.expected = s.ret.expected ∧ (acceptResume s).ret.receiving = s.ret.receiving ∧
    (acceptResume s).fwd.speed = s.fwd.speed ∧ (acceptResume s).plan.counter = s.plan.counter ∧
    (acceptResume s).sets.voidOrder = s.sets.voidOrder ∧
    (acceptResume s).sets.records.map (·.name) = s.sets.records.map (·.name) ∧ (acceptResume s).sup.resetCause = s.sup.resetCause ∧
    (acceptResume s).link.rxUpper = s.link.rxUpper ∧ (acceptResume s).link.rxLower = s.link.rxLower ∧
    (acceptResume s).link.commands = s.link.commands ∧ (acceptResume s).link.holding = s.link.holding ∧
    (acceptResume s).link.reports = s.link.reports ∧ (acceptResume s).link.linkStarted = s.link.linkStarted ∧
    (acceptResume s).link.lowerTx = s.link.lowerTx ∧ (acceptResume s).link.credit = s.link.credit ∧
    (acceptResume s).link.replies = s.link.replies ∧ (acceptResume s).link.upperTx = s.link.upperTx ∧
    (acceptResume s).svc.rx = s.svc.rx ∧ (acceptResume s).svc.held = s.svc.held ∧
    (acceptResume s).svc.claim = s.svc.claim ∧ (acceptResume s).svc.reply = s.svc.reply ∧
    (acceptResume s).svc.tx = s.svc.tx ∧ (acceptResume s).cap.owner = s.cap.owner ∧
    (acceptResume s).cap.mode = s.cap.mode ∧ (acceptResume s).cap.mask = s.cap.mask := by
  simp only [acceptResume]
  (repeat' split) <;> simp [*]

@[simp] theorem afterTracking_frame (x : State × List Report) :
    (afterTracking x).pending = x.1.pending ∧ (afterTracking x).load = x.1.load ∧
    (afterTracking x).tables = x.1.tables ∧
    (afterTracking x).pos.clock = x.1.pos.clock ∧ (afterTracking x).pos.p = x.1.pos.p ∧
    (afterTracking x).pos.lastPulse = x.1.pos.lastPulse ∧ (afterTracking x).pos.msCount = x.1.pos.msCount ∧
    (afterTracking x).pos.trunRaw = x.1.pos.trunRaw ∧ (afterTracking x).pos.trunQual = x.1.pos.trunQual ∧
    (afterTracking x).pos.trunPending = x.1.pos.trunPending ∧ (afterTracking x).front.covers = x.1.front.covers ∧
    (afterTracking x).ret.expected = x.1.ret.expected ∧ (afterTracking x).ret.receiving = x.1.ret.receiving ∧
    (afterTracking x).fwd.speed = x.1.fwd.speed ∧ (afterTracking x).trk.lists = x.1.trk.lists ∧
    (afterTracking x).trk.slots = x.1.trk.slots ∧ (afterTracking x).plan.counter = x.1.plan.counter ∧
    (afterTracking x).sets.voidOrder = x.1.sets.voidOrder ∧
    (afterTracking x).sets.records.map (·.name) = x.1.sets.records.map (·.name) ∧ (afterTracking x).sup.resetCause = x.1.sup.resetCause ∧
    (afterTracking x).link.rxUpper = x.1.link.rxUpper ∧ (afterTracking x).link.rxLower = x.1.link.rxLower ∧
    (afterTracking x).link.commands = x.1.link.commands ∧ (afterTracking x).link.holding = x.1.link.holding ∧
    (afterTracking x).link.reports = x.1.link.reports ∧ (afterTracking x).link.linkStarted = x.1.link.linkStarted ∧
    (afterTracking x).link.lowerTx = x.1.link.lowerTx ∧ (afterTracking x).link.credit = x.1.link.credit ∧
    (afterTracking x).link.replies = x.1.link.replies ∧ (afterTracking x).link.upperTx = x.1.link.upperTx ∧
    (afterTracking x).svc.rx = x.1.svc.rx ∧ (afterTracking x).svc.held = x.1.svc.held ∧
    (afterTracking x).svc.claim = x.1.svc.claim ∧ (afterTracking x).svc.reply = x.1.svc.reply ∧
    (afterTracking x).svc.tx = x.1.svc.tx ∧ (afterTracking x).cap.owner = x.1.cap.owner ∧
    (afterTracking x).cap.mode = x.1.cap.mode ∧ (afterTracking x).cap.mask = x.1.cap.mask := by
  simp only [afterTracking]
  (repeat' split) <;> simp [*]

@[simp] theorem setSense_frame (st : Station) (x : StationSense) (s : State) :
    (setSense st x s).pending = s.pending ∧ (setSense st x s).load = s.load ∧ (setSense st x s).tables = s.tables ∧
    (setSense st x s).reached = s.reached ∧ (setSense st x s).pos = s.pos ∧
    (setSense st x s).front.covers = s.front.covers ∧ (setSense st x s).front.emit = s.front.emit ∧
    (setSense st x s).front.emitFrom = s.front.emitFrom ∧ (setSense st x s).ret = s.ret ∧
    (setSense st x s).fwd = s.fwd ∧ (setSense st x s).trk = s.trk ∧ (setSense st x s).jam = s.jam ∧
    (setSense st x s).plan = s.plan ∧ (setSense st x s).sets = s.sets ∧ (setSense st x s).sup = s.sup ∧
    (setSense st x s).link = s.link ∧ (setSense st x s).svc = s.svc ∧ (setSense st x s).cap = s.cap ∧
    (setSense st x s).free = s.free := by
  simp only [setSense]
  (repeat' split) <;> simp [*]

@[simp] theorem acceptLevel_frame (st : Station) (covered : Bool) (stamp : Pos) (detail : Byte) (s : State) :
    (acceptLevel st covered stamp detail s).pending = s.pending ∧
    (acceptLevel st covered stamp detail s).load = s.load ∧
    (acceptLevel st covered stamp detail s).tables = s.tables ∧ (acceptLevel st covered stamp detail s).reached = s.reached ∧ (acceptLevel st covered stamp detail s).pos = s.pos ∧
    (acceptLevel st covered stamp detail s).front.covers = s.front.covers ∧
    (acceptLevel st covered stamp detail s).front.emit = s.front.emit ∧
    (acceptLevel st covered stamp detail s).front.emitFrom = s.front.emitFrom ∧
    (acceptLevel st covered stamp detail s).ret = s.ret ∧ (acceptLevel st covered stamp detail s).fwd = s.fwd ∧
    (acceptLevel st covered stamp detail s).trk = s.trk ∧ (acceptLevel st covered stamp detail s).jam = s.jam ∧
    (acceptLevel st covered stamp detail s).plan = s.plan ∧ (acceptLevel st covered stamp detail s).sets = s.sets ∧
    (acceptLevel st covered stamp detail s).sup = s.sup ∧
    (acceptLevel st covered stamp detail s).link.rxUpper = s.link.rxUpper ∧
    (acceptLevel st covered stamp detail s).link.rxLower = s.link.rxLower ∧
    (acceptLevel st covered stamp detail s).link.commands = s.link.commands ∧
    (acceptLevel st covered stamp detail s).link.holding = s.link.holding ∧
    (acceptLevel st covered stamp detail s).link.reports = s.link.reports ∧
    (acceptLevel st covered stamp detail s).link.pathControl = s.link.pathControl ∧
    (acceptLevel st covered stamp detail s).link.forwarded = s.link.forwarded ∧
    (acceptLevel st covered stamp detail s).link.linkStarted = s.link.linkStarted ∧
    (acceptLevel st covered stamp detail s).link.lowerTx = s.link.lowerTx ∧
    (acceptLevel st covered stamp detail s).link.credit = s.link.credit ∧
    (acceptLevel st covered stamp detail s).link.replies = s.link.replies ∧
    (acceptLevel st covered stamp detail s).link.upperTx = s.link.upperTx ∧
    (acceptLevel st covered stamp detail s).svc.rx = s.svc.rx ∧
    (acceptLevel st covered stamp detail s).svc.held = s.svc.held ∧
    (acceptLevel st covered stamp detail s).svc.claim = s.svc.claim ∧
    (acceptLevel st covered stamp detail s).svc.reply = s.svc.reply ∧
    (acceptLevel st covered stamp detail s).svc.tx = s.svc.tx ∧
    (acceptLevel st covered stamp detail s).cap.owner = s.cap.owner ∧
    (acceptLevel st covered stamp detail s).cap.mode = s.cap.mode ∧
    (acceptLevel st covered stamp detail s).cap.mask = s.cap.mask ∧
    (acceptLevel st covered stamp detail s).free = s.free := by
  simp only [acceptLevel]
  (repeat' split) <;> simp [*]

@[simp] theorem settledByOn_frame (s : State) (st : Station) (stamp : Pos) (t : State) :
    (settledByOn s st stamp t).pending = t.pending ∧
    (settledByOn s st stamp t).load = t.load ∧
    (settledByOn s st stamp t).tables = t.tables ∧
    (settledByOn s st stamp t).pos = t.pos ∧
    (settledByOn s st stamp t).front = t.front ∧
    (settledByOn s st stamp t).ret = t.ret ∧
    (settledByOn s st stamp t).fwd = t.fwd ∧
    (settledByOn s st stamp t).trk = t.trk ∧
    (settledByOn s st stamp t).jam = t.jam ∧
    (settledByOn s st stamp t).plan = t.plan ∧
    (settledByOn s st stamp t).sets = t.sets ∧
    (settledByOn s st stamp t).sup = t.sup ∧
    (settledByOn s st stamp t).link = t.link ∧
    (settledByOn s st stamp t).svc = t.svc ∧
    (settledByOn s st stamp t).cap = t.cap ∧
    (settledByOn s st stamp t).free = t.free := by
  simp only [settledByOn]
  (repeat' split) <;> simp

@[simp] theorem settledByOn_nothing (s : State) (st : Station) (stamp : Pos) (t : State) (h : t.reached = .nothing) :
    (settledByOn s st stamp t).reached = .nothing := by
  simp only [settledByOn]
  (repeat' split) <;> simp [*]

/-- An ON at an empty slot settles no expiry but that of the head it is matched to (R71, R77). -/
@[simp] theorem settledByOn_emptySlot (s : State) (st : Station) (stamp : Pos) (t : State) (h : s.trk.slots[st] = none) :
    settledByOn s st stamp t = t := by
  simp only [settledByOn, h]

@[simp] theorem handEdge_frame (st : Station) (covered : Bool) (stamp : Pos) (s : State) :
    (handEdge st covered stamp s).pending = s.pending ∧ (handEdge st covered stamp s).load = s.load ∧
    (handEdge st covered stamp s).tables = s.tables ∧
    (handEdge st covered stamp s).pos.clock = s.pos.clock ∧ (handEdge st covered stamp s).pos.p = s.pos.p ∧
    (handEdge st covered stamp s).pos.lastPulse = s.pos.lastPulse ∧
    (handEdge st covered stamp s).pos.msCount = s.pos.msCount ∧
    (handEdge st covered stamp s).pos.trunRaw = s.pos.trunRaw ∧
    (handEdge st covered stamp s).pos.trunQual = s.pos.trunQual ∧
    (handEdge st covered stamp s).pos.trunPending = s.pos.trunPending ∧
    (handEdge st covered stamp s).front.covers = s.front.covers ∧
    (handEdge st covered stamp s).ret.expected = s.ret.expected ∧
    (handEdge st covered stamp s).ret.receiving = s.ret.receiving ∧
    (handEdge st covered stamp s).fwd.speed = s.fwd.speed ∧
    (handEdge st covered stamp s).sup.resetCause = s.sup.resetCause ∧
    (handEdge st covered stamp s).link.rxUpper = s.link.rxUpper ∧
    (handEdge st covered stamp s).link.rxLower = s.link.rxLower ∧
    (handEdge st covered stamp s).link.commands = s.link.commands ∧
    (handEdge st covered stamp s).link.holding = s.link.holding ∧
    (handEdge st covered stamp s).link.reports = s.link.reports ∧
    (handEdge st covered stamp s).link.linkStarted = s.link.linkStarted ∧
    (handEdge st covered stamp s).link.lowerTx = s.link.lowerTx ∧
    (handEdge st covered stamp s).link.replies = s.link.replies ∧
    (handEdge st covered stamp s).link.upperTx = s.link.upperTx ∧ (handEdge st covered stamp s).svc.rx = s.svc.rx ∧
    (handEdge st covered stamp s).svc.held = s.svc.held ∧ (handEdge st covered stamp s).svc.claim = s.svc.claim ∧
    (handEdge st covered stamp s).svc.reply = s.svc.reply ∧ (handEdge st covered stamp s).svc.tx = s.svc.tx ∧
    (handEdge st covered stamp s).cap.owner = s.cap.owner ∧ (handEdge st covered stamp s).cap.mode = s.cap.mode ∧
    (handEdge st covered stamp s).cap.mask = s.cap.mask := by
  simp only [handEdge]
  (repeat' split) <;> simp [*]

@[simp] theorem applyTables_frame (t : Tables) (s : State) :
    (applyTables t s).pending = s.pending ∧ (applyTables t s).load = s.load ∧ (applyTables t s).reached = s.reached ∧ (applyTables t s).pos = s.pos ∧
    (applyTables t s).front.covers = s.front.covers ∧ (applyTables t s).front.emit = s.front.emit ∧
    (applyTables t s).front.emitFrom = s.front.emitFrom ∧ (applyTables t s).ret = s.ret ∧
    (applyTables t s).fwd = s.fwd ∧ (applyTables t s).trk = s.trk ∧ (applyTables t s).jam = s.jam ∧
    (applyTables t s).plan = s.plan ∧ (applyTables t s).sets = s.sets ∧ (applyTables t s).sup = s.sup ∧
    (applyTables t s).link = s.link ∧ (applyTables t s).svc = s.svc ∧ (applyTables t s).cap = s.cap ∧
    (applyTables t s).free = s.free := by
  simp only [applyTables]
  (repeat' split) <;> simp [*]

@[simp] theorem setReceiver_frame (port : Port) (r : Receiver) (s : State) :
    (setReceiver port r s).pending = s.pending ∧ (setReceiver port r s).load = s.load ∧
    (setReceiver port r s).tables = s.tables ∧
    (setReceiver port r s).reached = s.reached ∧ (setReceiver port r s).pos = s.pos ∧ (setReceiver port r s).front = s.front ∧ (setReceiver port r s).ret = s.ret ∧
    (setReceiver port r s).fwd = s.fwd ∧ (setReceiver port r s).trk = s.trk ∧ (setReceiver port r s).jam = s.jam ∧
    (setReceiver port r s).plan = s.plan ∧ (setReceiver port r s).sets = s.sets ∧ (setReceiver port r s).sup = s.sup ∧
    (setReceiver port r s).link.commands = s.link.commands ∧ (setReceiver port r s).link.holding = s.link.holding ∧
    (setReceiver port r s).link.reports = s.link.reports ∧
    (setReceiver port r s).link.pathControl = s.link.pathControl ∧
    (setReceiver port r s).link.forwarded = s.link.forwarded ∧
    (setReceiver port r s).link.linkStarted = s.link.linkStarted ∧
    (setReceiver port r s).link.lowerTx = s.link.lowerTx ∧ (setReceiver port r s).link.credit = s.link.credit ∧
    (setReceiver port r s).link.replies = s.link.replies ∧ (setReceiver port r s).link.notices = s.link.notices ∧
    (setReceiver port r s).link.lossCount = s.link.lossCount ∧ (setReceiver port r s).link.upperTx = s.link.upperTx ∧
    (setReceiver port r s).svc.held = s.svc.held ∧ (setReceiver port r s).svc.claim = s.svc.claim ∧
    (setReceiver port r s).svc.reply = s.svc.reply ∧ (setReceiver port r s).svc.notices = s.svc.notices ∧
    (setReceiver port r s).svc.tx = s.svc.tx ∧ (setReceiver port r s).cap = s.cap ∧
    (setReceiver port r s).free = s.free := by
  simp only [setReceiver]
  (repeat' split) <;> simp [*]

@[simp] theorem hunt_frame (port : Port) (s : State) :
    (hunt port s).pending = s.pending ∧ (hunt port s).load = s.load ∧ (hunt port s).tables = s.tables ∧
    (hunt port s).reached = s.reached ∧ (hunt port s).pos = s.pos ∧
    (hunt port s).front = s.front ∧ (hunt port s).ret = s.ret ∧ (hunt port s).fwd = s.fwd ∧
    (hunt port s).trk = s.trk ∧ (hunt port s).jam = s.jam ∧ (hunt port s).plan = s.plan ∧
    (hunt port s).sets = s.sets ∧ (hunt port s).sup = s.sup ∧
    (hunt port s).link.commands = s.link.commands ∧ (hunt port s).link.holding = s.link.holding ∧
    (hunt port s).link.reports = s.link.reports ∧ (hunt port s).link.pathControl = s.link.pathControl ∧
    (hunt port s).link.forwarded = s.link.forwarded ∧ (hunt port s).link.linkStarted = s.link.linkStarted ∧
    (hunt port s).link.lowerTx = s.link.lowerTx ∧ (hunt port s).link.credit = s.link.credit ∧
    (hunt port s).link.replies = s.link.replies ∧ (hunt port s).link.notices = s.link.notices ∧
    (hunt port s).link.lossCount = s.link.lossCount ∧ (hunt port s).link.upperTx = s.link.upperTx ∧
    (hunt port s).svc.held = s.svc.held ∧ (hunt port s).svc.claim = s.svc.claim ∧
    (hunt port s).svc.reply = s.svc.reply ∧ (hunt port s).svc.notices = s.svc.notices ∧
    (hunt port s).svc.tx = s.svc.tx ∧ (hunt port s).cap = s.cap ∧ (hunt port s).free = s.free := by
  simp only [hunt]
  (repeat' split) <;> simp [*]

@[simp] theorem lineHigh_frame (port : Port) (s : State) :
    (lineHigh port s).pending = s.pending ∧ (lineHigh port s).load = s.load ∧ (lineHigh port s).tables = s.tables ∧
    (lineHigh port s).reached = s.reached ∧ (lineHigh port s).pos = s.pos ∧
    (lineHigh port s).front = s.front ∧ (lineHigh port s).ret = s.ret ∧ (lineHigh port s).fwd = s.fwd ∧
    (lineHigh port s).trk = s.trk ∧ (lineHigh port s).jam = s.jam ∧ (lineHigh port s).plan = s.plan ∧
    (lineHigh port s).sets = s.sets ∧ (lineHigh port s).sup = s.sup ∧ (lineHigh port s).link = s.link ∧
    (lineHigh port s).svc.rx = s.svc.rx ∧ (lineHigh port s).svc.held = s.svc.held ∧ (lineHigh port s).svc.claim = s.svc.claim ∧
    (lineHigh port s).svc.reply = s.svc.reply ∧ (lineHigh port s).svc.notices = s.svc.notices ∧
    (lineHigh port s).svc.tx = s.svc.tx ∧ (lineHigh port s).cap = s.cap ∧ (lineHigh port s).free = s.free := by
  cases port <;> simp [lineHigh]

@[simp] theorem hear_frame (port : Port) (c : RxChar) (s : State) :
    (hear port c s).pending = s.pending ∧ (hear port c s).load = s.load ∧ (hear port c s).tables = s.tables ∧
    (hear port c s).reached = s.reached ∧ (hear port c s).pos = s.pos ∧
    (hear port c s).front = s.front ∧ (hear port c s).ret = s.ret ∧ (hear port c s).fwd = s.fwd ∧
    (hear port c s).trk = s.trk ∧ (hear port c s).jam = s.jam ∧ (hear port c s).plan = s.plan ∧
    (hear port c s).sets = s.sets ∧ (hear port c s).sup = s.sup ∧ (hear port c s).link = s.link ∧
    (hear port c s).svc.rx = s.svc.rx ∧ (hear port c s).svc.held = s.svc.held ∧ (hear port c s).svc.claim = s.svc.claim ∧
    (hear port c s).svc.reply = s.svc.reply ∧ (hear port c s).svc.notices = s.svc.notices ∧
    (hear port c s).svc.tx = s.svc.tx ∧ (hear port c s).cap = s.cap ∧ (hear port c s).free = s.free := by
  simp only [hear]
  split <;> simp

@[simp] theorem received_frame (port : Port) (s : State) :
    (received port s).pending = s.pending ∧ (received port s).load = s.load ∧ (received port s).tables = s.tables ∧
    (received port s).reached = s.reached ∧ (received port s).pos = s.pos ∧
    (received port s).front = s.front ∧ (received port s).ret = s.ret ∧ (received port s).fwd = s.fwd ∧
    (received port s).trk = s.trk ∧ (received port s).jam = s.jam ∧ (received port s).plan = s.plan ∧
    (received port s).sets = s.sets ∧ (received port s).sup = s.sup ∧
    (received port s).link.commands = s.link.commands ∧ (received port s).link.holding = s.link.holding ∧
    (received port s).link.reports = s.link.reports ∧ (received port s).link.pathControl = s.link.pathControl ∧
    (received port s).link.forwarded = s.link.forwarded ∧ (received port s).link.linkStarted = s.link.linkStarted ∧
    (received port s).link.lowerTx = s.link.lowerTx ∧ (received port s).link.credit = s.link.credit ∧
    (received port s).link.replies = s.link.replies ∧ (received port s).link.notices = s.link.notices ∧
    (received port s).link.lossCount = s.link.lossCount ∧ (received port s).link.upperTx = s.link.upperTx ∧
    (received port s).svc.held = s.svc.held ∧ (received port s).svc.claim = s.svc.claim ∧
    (received port s).svc.reply = s.svc.reply ∧ (received port s).svc.notices = s.svc.notices ∧
    (received port s).svc.tx = s.svc.tx ∧ (received port s).cap = s.cap ∧ (received port s).free = s.free := by
  simp [received]

@[simp] theorem discardFrame_frame (port : Port) (reason : LinkReason) (kind : Option Byte) (s : State) :
    (discardFrame port reason kind s).pending = s.pending ∧ (discardFrame port reason kind s).load = s.load ∧
    (discardFrame port reason kind s).tables = s.tables ∧
    (discardFrame port reason kind s).reached = s.reached ∧ (discardFrame port reason kind s).pos = s.pos ∧ (discardFrame port reason kind s).front = s.front ∧
    (discardFrame port reason kind s).ret = s.ret ∧ (discardFrame port reason kind s).fwd = s.fwd ∧
    (discardFrame port reason kind s).trk = s.trk ∧ (discardFrame port reason kind s).jam = s.jam ∧
    (discardFrame port reason kind s).plan = s.plan ∧ (discardFrame port reason kind s).sets = s.sets ∧
    (discardFrame port reason kind s).sup = s.sup ∧ (discardFrame port reason kind s).link.rxUpper = s.link.rxUpper ∧
    (discardFrame port reason kind s).link.rxLower = s.link.rxLower ∧
    (discardFrame port reason kind s).link.commands = s.link.commands ∧
    (discardFrame port reason kind s).link.holding = s.link.holding ∧
    (discardFrame port reason kind s).link.reports = s.link.reports ∧
    (discardFrame port reason kind s).link.pathControl = s.link.pathControl ∧
    (discardFrame port reason kind s).link.forwarded = s.link.forwarded ∧
    (discardFrame port reason kind s).link.linkStarted = s.link.linkStarted ∧
    (discardFrame port reason kind s).link.lowerTx = s.link.lowerTx ∧
    (discardFrame port reason kind s).link.credit = s.link.credit ∧
    (discardFrame port reason kind s).link.replies = s.link.replies ∧
    (discardFrame port reason kind s).link.upperTx = s.link.upperTx ∧
    (discardFrame port reason kind s).svc.rx = s.svc.rx ∧ (discardFrame port reason kind s).svc.held = s.svc.held ∧
    (discardFrame port reason kind s).svc.claim = s.svc.claim ∧
    (discardFrame port reason kind s).svc.reply = s.svc.reply ∧ (discardFrame port reason kind s).svc.tx = s.svc.tx ∧
    (discardFrame port reason kind s).cap.owner = s.cap.owner ∧
    (discardFrame port reason kind s).cap.mode = s.cap.mode ∧
    (discardFrame port reason kind s).cap.mask = s.cap.mask ∧ (discardFrame port reason kind s).free = s.free := by
  simp only [discardFrame]
  (repeat' split) <;> simp [*]

@[simp] theorem discardGap_frame (port : Port) (s : State) :
    (discardGap port s).pending = s.pending ∧ (discardGap port s).load = s.load ∧
    (discardGap port s).tables = s.tables ∧ (discardGap port s).reached = s.reached ∧ (discardGap port s).pos = s.pos ∧ (discardGap port s).front = s.front ∧
    (discardGap port s).ret = s.ret ∧ (discardGap port s).fwd = s.fwd ∧ (discardGap port s).trk = s.trk ∧
    (discardGap port s).jam = s.jam ∧ (discardGap port s).plan = s.plan ∧ (discardGap port s).sets = s.sets ∧
    (discardGap port s).sup = s.sup ∧ (discardGap port s).link.commands = s.link.commands ∧
    (discardGap port s).link.holding = s.link.holding ∧ (discardGap port s).link.reports = s.link.reports ∧
    (discardGap port s).link.pathControl = s.link.pathControl ∧
    (discardGap port s).link.forwarded = s.link.forwarded ∧
    (discardGap port s).link.linkStarted = s.link.linkStarted ∧ (discardGap port s).link.lowerTx = s.link.lowerTx ∧
    (discardGap port s).link.credit = s.link.credit ∧ (discardGap port s).link.replies = s.link.replies ∧
    (discardGap port s).link.upperTx = s.link.upperTx ∧ (discardGap port s).svc.held = s.svc.held ∧
    (discardGap port s).svc.claim = s.svc.claim ∧ (discardGap port s).svc.reply = s.svc.reply ∧
    (discardGap port s).svc.tx = s.svc.tx ∧ (discardGap port s).cap.owner = s.cap.owner ∧
    (discardGap port s).cap.mode = s.cap.mode ∧ (discardGap port s).cap.mask = s.cap.mask ∧
    (discardGap port s).free = s.free := by
  simp [discardGap]

@[simp] theorem beforeChars_frame (port : Port) (chars : List RxChar) (s : State) :
    (beforeChars port chars s).pending = s.pending ∧ (beforeChars port chars s).load = s.load ∧
    (beforeChars port chars s).tables = s.tables ∧ (beforeChars port chars s).reached = s.reached ∧ (beforeChars port chars s).pos = s.pos ∧
    (beforeChars port chars s).front = s.front ∧ (beforeChars port chars s).ret = s.ret ∧
    (beforeChars port chars s).fwd = s.fwd ∧ (beforeChars port chars s).trk = s.trk ∧
    (beforeChars port chars s).jam = s.jam ∧ (beforeChars port chars s).plan = s.plan ∧
    (beforeChars port chars s).sets = s.sets ∧ (beforeChars port chars s).sup = s.sup ∧
    (beforeChars port chars s).link.commands = s.link.commands ∧
    (beforeChars port chars s).link.holding = s.link.holding ∧
    (beforeChars port chars s).link.reports = s.link.reports ∧
    (beforeChars port chars s).link.pathControl = s.link.pathControl ∧
    (beforeChars port chars s).link.forwarded = s.link.forwarded ∧
    (beforeChars port chars s).link.linkStarted = s.link.linkStarted ∧
    (beforeChars port chars s).link.lowerTx = s.link.lowerTx ∧
    (beforeChars port chars s).link.credit = s.link.credit ∧
    (beforeChars port chars s).link.replies = s.link.replies ∧
    (beforeChars port chars s).link.upperTx = s.link.upperTx ∧ (beforeChars port chars s).svc.held = s.svc.held ∧
    (beforeChars port chars s).svc.claim = s.svc.claim ∧ (beforeChars port chars s).svc.reply = s.svc.reply ∧
    (beforeChars port chars s).svc.tx = s.svc.tx ∧ (beforeChars port chars s).cap.owner = s.cap.owner ∧
    (beforeChars port chars s).cap.mode = s.cap.mode ∧ (beforeChars port chars s).cap.mask = s.cap.mask ∧
    (beforeChars port chars s).free = s.free := by
  simp only [beforeChars]
  split <;> simp

/-- Characters change nothing but the receiver, what their discards report, and when the line was last high. -/
theorem takeChars_keeps {I : State → Prop} {port : Port} (hr : ∀ r s, I s → I (setReceiver port r s))
    (hl : ∀ s, I s → I (lineHigh port s))
    (hd : ∀ reason kind s, I s → I (discardFrame port reason kind s)) {chars : List RxChar} {s t : State} (hs : I s)
    (h : takeChars port chars s = some t) : I t := by
  induction chars generalizing s with
  | nil =>
    simp only [takeChars, Option.some.injEq] at h
    exact h ▸ hs
  | cons c cs ih =>
    have hh (c : RxChar) : I (hear port c s) := by
      simp only [hear]
      split
      · exact hl s hs
      · exact hs
    simp only [takeChars] at h
    split at h
    · exact ih (hr _ _ (hh _)) h
    · exact ih (hd _ _ _ (hr _ _ (hl s hs))) h
    · exact absurd h (by simp)

theorem takeChars_frame {port : Port} {chars : List RxChar} {s t : State} (h : takeChars port chars s = some t) :
    t.pending = s.pending ∧ t.load = s.load ∧ t.tables = s.tables ∧ t.reached = s.reached ∧ t.pos = s.pos ∧ t.front = s.front ∧
    t.ret = s.ret ∧ t.fwd = s.fwd ∧ t.trk = s.trk ∧ t.jam = s.jam ∧ t.plan = s.plan ∧ t.sets = s.sets ∧
    t.sup = s.sup ∧ t.link.commands = s.link.commands ∧ t.link.holding = s.link.holding ∧
    t.link.reports = s.link.reports ∧ t.link.pathControl = s.link.pathControl ∧ t.link.forwarded = s.link.forwarded ∧
    t.link.linkStarted = s.link.linkStarted ∧ t.link.lowerTx = s.link.lowerTx ∧ t.link.credit = s.link.credit ∧
    t.link.replies = s.link.replies ∧ t.link.upperTx = s.link.upperTx ∧ t.svc.held = s.svc.held ∧
    t.svc.claim = s.svc.claim ∧ t.svc.reply = s.svc.reply ∧ t.svc.tx = s.svc.tx ∧ t.cap.owner = s.cap.owner ∧
    t.cap.mode = s.cap.mode ∧ t.cap.mask = s.cap.mask ∧ t.free = s.free :=
  takeChars_keeps (I := fun t =>
      t.pending = s.pending ∧ t.load = s.load ∧ t.tables = s.tables ∧ t.reached = s.reached ∧ t.pos = s.pos ∧ t.front = s.front ∧
      t.ret = s.ret ∧ t.fwd = s.fwd ∧ t.trk = s.trk ∧ t.jam = s.jam ∧ t.plan = s.plan ∧ t.sets = s.sets ∧
      t.sup = s.sup ∧ t.link.commands = s.link.commands ∧ t.link.holding = s.link.holding ∧
      t.link.reports = s.link.reports ∧ t.link.pathControl = s.link.pathControl ∧ t.link.forwarded = s.link.forwarded ∧
      t.link.linkStarted = s.link.linkStarted ∧ t.link.lowerTx = s.link.lowerTx ∧ t.link.credit = s.link.credit ∧
      t.link.replies = s.link.replies ∧ t.link.upperTx = s.link.upperTx ∧ t.svc.held = s.svc.held ∧
      t.svc.claim = s.svc.claim ∧ t.svc.reply = s.svc.reply ∧ t.svc.tx = s.svc.tx ∧ t.cap.owner = s.cap.owner ∧
      t.cap.mode = s.cap.mode ∧ t.cap.mask = s.cap.mask ∧ t.free = s.free)
    (fun r u hu => by simpa using hu) (fun u hu => by simpa using hu) (fun reason kind u hu => by simpa using hu) (by simp) h

@[simp] theorem joinCommands_frame (c : Command) (s : State) :
    (joinCommands c s).pending = s.pending ∧ (joinCommands c s).load = s.load ∧
    (joinCommands c s).tables = s.tables ∧ (joinCommands c s).reached = s.reached ∧ (joinCommands c s).pos = s.pos ∧
    (joinCommands c s).front = s.front ∧ (joinCommands c s).ret = s.ret ∧ (joinCommands c s).fwd = s.fwd ∧
    (joinCommands c s).trk = s.trk ∧ (joinCommands c s).jam = s.jam ∧ (joinCommands c s).plan = s.plan ∧
    (joinCommands c s).sets = s.sets ∧ (joinCommands c s).sup = s.sup ∧
    (joinCommands c s).link.rxUpper = s.link.rxUpper ∧ (joinCommands c s).link.rxLower = s.link.rxLower ∧
    (joinCommands c s).link.holding = s.link.holding ∧ (joinCommands c s).link.reports = s.link.reports ∧
    (joinCommands c s).link.pathControl = s.link.pathControl ∧ (joinCommands c s).link.forwarded = s.link.forwarded ∧
    (joinCommands c s).link.linkStarted = s.link.linkStarted ∧ (joinCommands c s).link.lowerTx = s.link.lowerTx ∧
    (joinCommands c s).link.credit = s.link.credit ∧ (joinCommands c s).link.replies = s.link.replies ∧
    (joinCommands c s).link.upperTx = s.link.upperTx ∧ (joinCommands c s).svc.rx = s.svc.rx ∧
    (joinCommands c s).svc.held = s.svc.held ∧ (joinCommands c s).svc.claim = s.svc.claim ∧
    (joinCommands c s).svc.reply = s.svc.reply ∧ (joinCommands c s).svc.tx = s.svc.tx ∧
    (joinCommands c s).cap = s.cap ∧ (joinCommands c s).free = s.free := by
  simp only [joinCommands]
  (repeat' split) <;> simp [*]

@[simp] theorem holdUpper_frame (payload : List Byte) (s : State) :
    (holdUpper payload s).pending = s.pending ∧ (holdUpper payload s).load = s.load ∧
    (holdUpper payload s).tables = s.tables ∧
    (holdUpper payload s).reached = s.reached ∧ (holdUpper payload s).pos = s.pos ∧ (holdUpper payload s).front = s.front ∧ (holdUpper payload s).ret = s.ret ∧
    (holdUpper payload s).fwd = s.fwd ∧ (holdUpper payload s).trk = s.trk ∧ (holdUpper payload s).jam = s.jam ∧
    (holdUpper payload s).plan = s.plan ∧ (holdUpper payload s).sets = s.sets ∧ (holdUpper payload s).sup = s.sup ∧
    (holdUpper payload s).link.rxUpper = s.link.rxUpper ∧ (holdUpper payload s).link.rxLower = s.link.rxLower ∧
    (holdUpper payload s).link.commands = s.link.commands ∧ (holdUpper payload s).link.reports = s.link.reports ∧
    (holdUpper payload s).link.pathControl = s.link.pathControl ∧
    (holdUpper payload s).link.forwarded = s.link.forwarded ∧
    (holdUpper payload s).link.linkStarted = s.link.linkStarted ∧
    (holdUpper payload s).link.lowerTx = s.link.lowerTx ∧ (holdUpper payload s).link.credit = s.link.credit ∧
    (holdUpper payload s).link.replies = s.link.replies ∧ (holdUpper payload s).link.upperTx = s.link.upperTx ∧
    (holdUpper payload s).svc.rx = s.svc.rx ∧ (holdUpper payload s).svc.held = s.svc.held ∧
    (holdUpper payload s).svc.claim = s.svc.claim ∧ (holdUpper payload s).svc.reply = s.svc.reply ∧
    (holdUpper payload s).svc.tx = s.svc.tx ∧ (holdUpper payload s).cap = s.cap ∧
    (holdUpper payload s).free = s.free := by
  simp only [holdUpper]
  (repeat' split) <;> simp [*]

@[simp] theorem holdService_frame (payload : List Byte) (s : State) :
    (holdService payload s).pending = s.pending ∧ (holdService payload s).load = s.load ∧
    (holdService payload s).tables = s.tables ∧
    (holdService payload s).reached = s.reached ∧ (holdService payload s).pos = s.pos ∧ (holdService payload s).front = s.front ∧
    (holdService payload s).ret = s.ret ∧ (holdService payload s).fwd = s.fwd ∧ (holdService payload s).trk = s.trk ∧
    (holdService payload s).jam = s.jam ∧ (holdService payload s).plan = s.plan ∧
    (holdService payload s).sets = s.sets ∧ (holdService payload s).sup = s.sup ∧
    (holdService payload s).link.rxUpper = s.link.rxUpper ∧ (holdService payload s).link.rxLower = s.link.rxLower ∧
    (holdService payload s).link.commands = s.link.commands ∧ (holdService payload s).link.holding = s.link.holding ∧
    (holdService payload s).link.reports = s.link.reports ∧
    (holdService payload s).link.pathControl = s.link.pathControl ∧
    (holdService payload s).link.forwarded = s.link.forwarded ∧
    (holdService payload s).link.linkStarted = s.link.linkStarted ∧
    (holdService payload s).link.lowerTx = s.link.lowerTx ∧ (holdService payload s).link.credit = s.link.credit ∧
    (holdService payload s).link.replies = s.link.replies ∧ (holdService payload s).link.upperTx = s.link.upperTx ∧
    (holdService payload s).svc.rx = s.svc.rx ∧ (holdService payload s).svc.claim = s.svc.claim ∧
    (holdService payload s).svc.reply = s.svc.reply ∧ (holdService payload s).svc.tx = s.svc.tx ∧
    (holdService payload s).cap = s.cap ∧ (holdService payload s).free = s.free := by
  simp only [holdService]
  (repeat' split) <;> simp [*]

@[simp] theorem forwardUp_frame (kind : Byte) (payload : List Byte) (s : State) :
    (forwardUp kind payload s).pending = s.pending ∧ (forwardUp kind payload s).load = s.load ∧
    (forwardUp kind payload s).tables = s.tables ∧
    (forwardUp kind payload s).reached = s.reached ∧ (forwardUp kind payload s).pos = s.pos ∧ (forwardUp kind payload s).front = s.front ∧
    (forwardUp kind payload s).ret = s.ret ∧ (forwardUp kind payload s).fwd = s.fwd ∧
    (forwardUp kind payload s).trk = s.trk ∧ (forwardUp kind payload s).jam = s.jam ∧
    (forwardUp kind payload s).plan = s.plan ∧ (forwardUp kind payload s).sets = s.sets ∧
    (forwardUp kind payload s).sup = s.sup ∧ (forwardUp kind payload s).link.rxUpper = s.link.rxUpper ∧
    (forwardUp kind payload s).link.rxLower = s.link.rxLower ∧
    (forwardUp kind payload s).link.commands = s.link.commands ∧
    (forwardUp kind payload s).link.holding = s.link.holding ∧
    (forwardUp kind payload s).link.pathControl = s.link.pathControl ∧
    (forwardUp kind payload s).link.forwarded = s.link.forwarded ∧
    (forwardUp kind payload s).link.linkStarted = s.link.linkStarted ∧
    (forwardUp kind payload s).link.lowerTx = s.link.lowerTx ∧
    (forwardUp kind payload s).link.credit = s.link.credit ∧
    (forwardUp kind payload s).link.replies = s.link.replies ∧
    (forwardUp kind payload s).link.upperTx = s.link.upperTx ∧ (forwardUp kind payload s).svc.rx = s.svc.rx ∧
    (forwardUp kind payload s).svc.held = s.svc.held ∧ (forwardUp kind payload s).svc.claim = s.svc.claim ∧
    (forwardUp kind payload s).svc.reply = s.svc.reply ∧ (forwardUp kind payload s).svc.tx = s.svc.tx ∧
    (forwardUp kind payload s).cap = s.cap ∧ (forwardUp kind payload s).free = s.free := by
  simp only [forwardUp]
  (repeat' split) <;> simp [*]

@[simp] theorem passUp_frame (kind : Byte) (payload : List Byte) (s : State) :
    (passUp kind payload s).pending = s.pending ∧ (passUp kind payload s).load = s.load ∧
    (passUp kind payload s).tables = s.tables ∧
    (passUp kind payload s).reached = s.reached ∧ (passUp kind payload s).pos = s.pos ∧ (passUp kind payload s).front = s.front ∧
    (passUp kind payload s).ret = s.ret ∧ (passUp kind payload s).fwd = s.fwd ∧ (passUp kind payload s).trk = s.trk ∧
    (passUp kind payload s).jam = s.jam ∧ (passUp kind payload s).plan = s.plan ∧
    (passUp kind payload s).sets = s.sets ∧ (passUp kind payload s).sup = s.sup ∧
    (passUp kind payload s).link.commands = s.link.commands ∧ (passUp kind payload s).link.holding = s.link.holding ∧
    (passUp kind payload s).link.pathControl = s.link.pathControl ∧
    (passUp kind payload s).link.forwarded = s.link.forwarded ∧
    (passUp kind payload s).link.linkStarted = s.link.linkStarted ∧
    (passUp kind payload s).link.lowerTx = s.link.lowerTx ∧ (passUp kind payload s).link.credit = s.link.credit ∧
    (passUp kind payload s).link.replies = s.link.replies ∧ (passUp kind payload s).link.upperTx = s.link.upperTx ∧
    (passUp kind payload s).svc.held = s.svc.held ∧ (passUp kind payload s).svc.claim = s.svc.claim ∧
    (passUp kind payload s).svc.reply = s.svc.reply ∧ (passUp kind payload s).svc.tx = s.svc.tx ∧
    (passUp kind payload s).cap = s.cap ∧ (passUp kind payload s).free = s.free := by
  simp only [passUp]
  (repeat' split) <;> simp [*]

@[simp] theorem joinSet_frame (e : Entry) (s : State) :
    (joinSet e s).pending = s.pending ∧ (joinSet e s).load = s.load ∧ (joinSet e s).tables = s.tables ∧
    (joinSet e s).reached = s.reached ∧ (joinSet e s).pos = s.pos ∧
    (joinSet e s).front = s.front ∧ (joinSet e s).ret.entries = s.ret.entries ∧
    (joinSet e s).ret.expected = s.ret.expected ∧ (joinSet e s).fwd = s.fwd ∧ (joinSet e s).trk = s.trk ∧
    (joinSet e s).jam = s.jam ∧ (joinSet e s).plan = s.plan ∧ (joinSet e s).sets.voidOrder = s.sets.voidOrder ∧
    (joinSet e s).sup = s.sup ∧ (joinSet e s).link = s.link ∧ (joinSet e s).svc = s.svc ∧ (joinSet e s).cap = s.cap ∧
    (joinSet e s).free = s.free := by
  simp only [joinSet]
  (repeat' split) <;> simp [*]

@[simp] theorem acceptEntry_frame (e : Entry) (s : State) :
    (acceptEntry e s).pending = s.pending ∧ (acceptEntry e s).load = s.load ∧ (acceptEntry e s).tables = s.tables ∧
    (acceptEntry e s).reached = s.reached ∧ (acceptEntry e s).pos = s.pos ∧
    (acceptEntry e s).front = s.front ∧ (acceptEntry e s).fwd = s.fwd ∧ (acceptEntry e s).trk = s.trk ∧
    (acceptEntry e s).jam = s.jam ∧ (acceptEntry e s).plan = s.plan ∧
    (acceptEntry e s).sets.voidOrder = s.sets.voidOrder ∧ (acceptEntry e s).sup = s.sup ∧
    (acceptEntry e s).link.rxUpper = s.link.rxUpper ∧ (acceptEntry e s).link.rxLower = s.link.rxLower ∧
    (acceptEntry e s).link.commands = s.link.commands ∧ (acceptEntry e s).link.holding = s.link.holding ∧
    (acceptEntry e s).link.reports = s.link.reports ∧ (acceptEntry e s).link.pathControl = s.link.pathControl ∧
    (acceptEntry e s).link.forwarded = s.link.forwarded ∧ (acceptEntry e s).link.linkStarted = s.link.linkStarted ∧
    (acceptEntry e s).link.lowerTx = s.link.lowerTx ∧ (acceptEntry e s).link.replies = s.link.replies ∧
    (acceptEntry e s).link.notices = s.link.notices ∧ (acceptEntry e s).link.lossCount = s.link.lossCount ∧
    (acceptEntry e s).link.upperTx = s.link.upperTx ∧ (acceptEntry e s).svc = s.svc ∧ (acceptEntry e s).cap = s.cap ∧
    (acceptEntry e s).free = s.free := by
  simp only [acceptEntry]
  (repeat' split) <;> simp [*]

@[simp] theorem takeOrder_frame (o : OrderFields) (s : State) :
    (takeOrder o s).pending = s.pending ∧ (takeOrder o s).load = s.load ∧ (takeOrder o s).tables = s.tables ∧
    (takeOrder o s).pos.clock = s.pos.clock ∧ (takeOrder o s).pos.p = s.pos.p ∧
    (takeOrder o s).pos.lastPulse = s.pos.lastPulse ∧ (takeOrder o s).pos.msCount = s.pos.msCount ∧
    (takeOrder o s).pos.trunRaw = s.pos.trunRaw ∧ (takeOrder o s).pos.trunQual = s.pos.trunQual ∧
    (takeOrder o s).pos.trunPending = s.pos.trunPending ∧ (takeOrder o s).front.covers = s.front.covers ∧
    (takeOrder o s).fwd.limit = s.fwd.limit ∧ (takeOrder o s).fwd.windowHold = s.fwd.windowHold ∧
    (takeOrder o s).fwd.speed = s.fwd.speed ∧ (takeOrder o s).trk.table = s.trk.table ∧
    (takeOrder o s).trk.lists = s.trk.lists ∧ (takeOrder o s).trk.slots = s.trk.slots ∧ (takeOrder o s).jam = s.jam ∧
    (takeOrder o s).plan = s.plan ∧ (takeOrder o s).sets.voidOrder = s.sets.voidOrder ∧
    (takeOrder o s).sup.resetCause = s.sup.resetCause ∧ (takeOrder o s).sup.speedWait = s.sup.speedWait ∧
    (takeOrder o s).link.rxUpper = s.link.rxUpper ∧ (takeOrder o s).link.rxLower = s.link.rxLower ∧
    (takeOrder o s).link.commands = s.link.commands ∧ (takeOrder o s).link.holding = s.link.holding ∧
    (takeOrder o s).link.reports = s.link.reports ∧ (takeOrder o s).link.linkStarted = s.link.linkStarted ∧
    (takeOrder o s).link.lowerTx = s.link.lowerTx ∧ (takeOrder o s).link.replies = s.link.replies ∧
    (takeOrder o s).link.upperTx = s.link.upperTx ∧ (takeOrder o s).svc.rx = s.svc.rx ∧
    (takeOrder o s).svc.held = s.svc.held ∧ (takeOrder o s).svc.claim = s.svc.claim ∧
    (takeOrder o s).svc.reply = s.svc.reply ∧ (takeOrder o s).svc.tx = s.svc.tx ∧
    (takeOrder o s).cap.owner = s.cap.owner ∧ (takeOrder o s).cap.mode = s.cap.mode ∧
    (takeOrder o s).cap.mask = s.cap.mask ∧ (takeOrder o s).free = s.free := by
  simp only [takeOrder]
  (repeat' split) <;> simp [*]

@[simp] theorem pickEvent_frame (n : OrderNo) (detail : Byte) (s : State) :
    (pickEvent n detail s).pending = s.pending ∧ (pickEvent n detail s).load = s.load ∧
    (pickEvent n detail s).tables = s.tables ∧
    (pickEvent n detail s).reached = s.reached ∧ (pickEvent n detail s).pos = s.pos ∧ (pickEvent n detail s).front = s.front ∧ (pickEvent n detail s).ret = s.ret ∧
    (pickEvent n detail s).fwd = s.fwd ∧ (pickEvent n detail s).trk = s.trk ∧ (pickEvent n detail s).jam = s.jam ∧
    (pickEvent n detail s).plan = s.plan ∧ (pickEvent n detail s).sets = s.sets ∧ (pickEvent n detail s).sup = s.sup ∧
    (pickEvent n detail s).link.rxUpper = s.link.rxUpper ∧ (pickEvent n detail s).link.rxLower = s.link.rxLower ∧
    (pickEvent n detail s).link.commands = s.link.commands ∧ (pickEvent n detail s).link.holding = s.link.holding ∧
    (pickEvent n detail s).link.reports = s.link.reports ∧
    (pickEvent n detail s).link.pathControl = s.link.pathControl ∧
    (pickEvent n detail s).link.forwarded = s.link.forwarded ∧
    (pickEvent n detail s).link.linkStarted = s.link.linkStarted ∧
    (pickEvent n detail s).link.lowerTx = s.link.lowerTx ∧ (pickEvent n detail s).link.credit = s.link.credit ∧
    (pickEvent n detail s).link.replies = s.link.replies ∧ (pickEvent n detail s).link.upperTx = s.link.upperTx ∧
    (pickEvent n detail s).svc.rx = s.svc.rx ∧ (pickEvent n detail s).svc.held = s.svc.held ∧
    (pickEvent n detail s).svc.claim = s.svc.claim ∧ (pickEvent n detail s).svc.reply = s.svc.reply ∧
    (pickEvent n detail s).svc.tx = s.svc.tx ∧ (pickEvent n detail s).cap.owner = s.cap.owner ∧
    (pickEvent n detail s).cap.mode = s.cap.mode ∧ (pickEvent n detail s).cap.mask = s.cap.mask ∧
    (pickEvent n detail s).free = s.free := by
  simp only [pickEvent]
  (repeat' split) <;> simp [*]

@[simp] theorem takePick_frame (n : OrderNo) (s : State) :
    (takePick n s).pending = s.pending ∧ (takePick n s).load = s.load ∧ (takePick n s).tables = s.tables ∧
    (takePick n s).pos.clock = s.pos.clock ∧
    (takePick n s).pos.p = s.pos.p ∧ (takePick n s).pos.lastPulse = s.pos.lastPulse ∧
    (takePick n s).pos.msCount = s.pos.msCount ∧ (takePick n s).pos.trunRaw = s.pos.trunRaw ∧
    (takePick n s).pos.trunQual = s.pos.trunQual ∧ (takePick n s).pos.trunPending = s.pos.trunPending ∧
    (takePick n s).front.covers = s.front.covers ∧ (takePick n s).ret.expected = s.ret.expected ∧
    (takePick n s).ret.receiving = s.ret.receiving ∧ (takePick n s).fwd.speed = s.fwd.speed ∧
    (takePick n s).trk.slots = s.trk.slots ∧ (takePick n s).plan.counter = s.plan.counter ∧
    (takePick n s).sets.voidOrder = s.sets.voidOrder ∧
    (takePick n s).sets.records.map (·.name) = s.sets.records.map (·.name) ∧ (takePick n s).sup.resetCause = s.sup.resetCause ∧
    (takePick n s).link.rxUpper = s.link.rxUpper ∧ (takePick n s).link.rxLower = s.link.rxLower ∧
    (takePick n s).link.commands = s.link.commands ∧ (takePick n s).link.holding = s.link.holding ∧
    (takePick n s).link.reports = s.link.reports ∧ (takePick n s).link.linkStarted = s.link.linkStarted ∧
    (takePick n s).link.lowerTx = s.link.lowerTx ∧ (takePick n s).link.credit = s.link.credit ∧
    (takePick n s).link.replies = s.link.replies ∧ (takePick n s).link.upperTx = s.link.upperTx ∧
    (takePick n s).svc.rx = s.svc.rx ∧ (takePick n s).svc.held = s.svc.held ∧ (takePick n s).svc.claim = s.svc.claim ∧
    (takePick n s).svc.reply = s.svc.reply ∧ (takePick n s).svc.tx = s.svc.tx ∧
    (takePick n s).cap.owner = s.cap.owner ∧ (takePick n s).cap.mode = s.cap.mode ∧
    (takePick n s).cap.mask = s.cap.mask := by
  simp only [takePick]
  (repeat' split) <;> simp [*]

@[simp] theorem takeCredit_frame (limit : Byte) (s : State) :
    (takeCredit limit s).pending = s.pending ∧ (takeCredit limit s).load = s.load ∧
    (takeCredit limit s).tables = s.tables ∧
    (takeCredit limit s).pos.clock = s.pos.clock ∧ (takeCredit limit s).pos.p = s.pos.p ∧
    (takeCredit limit s).pos.lastPulse = s.pos.lastPulse ∧ (takeCredit limit s).pos.msCount = s.pos.msCount ∧
    (takeCredit limit s).pos.trunRaw = s.pos.trunRaw ∧ (takeCredit limit s).pos.trunQual = s.pos.trunQual ∧
    (takeCredit limit s).pos.trunPending = s.pos.trunPending ∧ (takeCredit limit s).front.covers = s.front.covers ∧
    (takeCredit limit s).ret.expected = s.ret.expected ∧ (takeCredit limit s).ret.receiving = s.ret.receiving ∧
    (takeCredit limit s).fwd.windowHold = s.fwd.windowHold ∧ (takeCredit limit s).fwd.speed = s.fwd.speed ∧
    (takeCredit limit s).trk.table = s.trk.table ∧ (takeCredit limit s).trk.lists = s.trk.lists ∧
    (takeCredit limit s).trk.slots = s.trk.slots ∧ (takeCredit limit s).jam = s.jam ∧
    (takeCredit limit s).plan = s.plan ∧ (takeCredit limit s).sets = s.sets ∧
    (takeCredit limit s).sup.resetCause = s.sup.resetCause ∧ (takeCredit limit s).sup.speedWait = s.sup.speedWait ∧
    (takeCredit limit s).link.rxUpper = s.link.rxUpper ∧ (takeCredit limit s).link.rxLower = s.link.rxLower ∧
    (takeCredit limit s).link.commands = s.link.commands ∧ (takeCredit limit s).link.holding = s.link.holding ∧
    (takeCredit limit s).link.reports = s.link.reports ∧ (takeCredit limit s).link.linkStarted = s.link.linkStarted ∧
    (takeCredit limit s).link.lowerTx = s.link.lowerTx ∧ (takeCredit limit s).link.credit = s.link.credit ∧
    (takeCredit limit s).link.replies = s.link.replies ∧ (takeCredit limit s).link.upperTx = s.link.upperTx ∧
    (takeCredit limit s).svc.rx = s.svc.rx ∧ (takeCredit limit s).svc.held = s.svc.held ∧
    (takeCredit limit s).svc.claim = s.svc.claim ∧ (takeCredit limit s).svc.reply = s.svc.reply ∧
    (takeCredit limit s).svc.tx = s.svc.tx ∧ (takeCredit limit s).cap.owner = s.cap.owner ∧
    (takeCredit limit s).cap.mode = s.cap.mode ∧ (takeCredit limit s).cap.mask = s.cap.mask ∧
    (takeCredit limit s).free = s.free := by
  simp only [takeCredit]
  (repeat' split) <;> simp [*]

@[simp] theorem skipOrder_frame (n : OrderNo) (s : State) :
    (skipOrder n s).1.pending = s.pending ∧ (skipOrder n s).1.load = s.load ∧ (skipOrder n s).1.tables = s.tables ∧
    (skipOrder n s).1.pos.clock = s.pos.clock ∧ (skipOrder n s).1.pos.p = s.pos.p ∧
    (skipOrder n s).1.pos.lastPulse = s.pos.lastPulse ∧ (skipOrder n s).1.pos.msCount = s.pos.msCount ∧
    (skipOrder n s).1.pos.trunRaw = s.pos.trunRaw ∧ (skipOrder n s).1.pos.trunQual = s.pos.trunQual ∧
    (skipOrder n s).1.pos.trunPending = s.pos.trunPending ∧ (skipOrder n s).1.front.covers = s.front.covers ∧
    (skipOrder n s).1.ret.expected = s.ret.expected ∧ (skipOrder n s).1.ret.receiving = s.ret.receiving ∧
    (skipOrder n s).1.fwd.limit = s.fwd.limit ∧ (skipOrder n s).1.fwd.windowHold = s.fwd.windowHold ∧
    (skipOrder n s).1.fwd.speed = s.fwd.speed ∧ (skipOrder n s).1.trk.table = s.trk.table ∧
    (skipOrder n s).1.trk.lists = s.trk.lists ∧ (skipOrder n s).1.trk.slots = s.trk.slots ∧
    (skipOrder n s).1.jam = s.jam ∧ (skipOrder n s).1.plan = s.plan ∧ (skipOrder n s).1.sets = s.sets ∧
    (skipOrder n s).1.sup.resetCause = s.sup.resetCause ∧ (skipOrder n s).1.sup.speedWait = s.sup.speedWait ∧
    (skipOrder n s).1.link.rxUpper = s.link.rxUpper ∧ (skipOrder n s).1.link.rxLower = s.link.rxLower ∧
    (skipOrder n s).1.link.commands = s.link.commands ∧ (skipOrder n s).1.link.holding = s.link.holding ∧
    (skipOrder n s).1.link.reports = s.link.reports ∧ (skipOrder n s).1.link.linkStarted = s.link.linkStarted ∧
    (skipOrder n s).1.link.lowerTx = s.link.lowerTx ∧ (skipOrder n s).1.link.replies = s.link.replies ∧
    (skipOrder n s).1.link.upperTx = s.link.upperTx ∧ (skipOrder n s).1.svc.rx = s.svc.rx ∧
    (skipOrder n s).1.svc.held = s.svc.held ∧ (skipOrder n s).1.svc.claim = s.svc.claim ∧
    (skipOrder n s).1.svc.reply = s.svc.reply ∧ (skipOrder n s).1.svc.tx = s.svc.tx ∧
    (skipOrder n s).1.cap.owner = s.cap.owner ∧ (skipOrder n s).1.cap.mode = s.cap.mode ∧
    (skipOrder n s).1.cap.mask = s.cap.mask ∧ (skipOrder n s).1.free = s.free := by
  simp only [skipOrder]
  (repeat' split) <;> simp [*]

@[simp] theorem voidByCancel_frame (n : SetName) (s : State) :
    (voidByCancel n s).pending = s.pending ∧ (voidByCancel n s).load = s.load ∧
    (voidByCancel n s).tables = s.tables ∧ (voidByCancel n s).reached = s.reached ∧ (voidByCancel n s).pos = s.pos ∧
    (voidByCancel n s).front = s.front ∧ (voidByCancel n s).ret = s.ret ∧ (voidByCancel n s).fwd = s.fwd ∧
    (voidByCancel n s).trk = s.trk ∧ (voidByCancel n s).jam = s.jam ∧ (voidByCancel n s).plan = s.plan ∧
    (voidByCancel n s).sup.state = s.sup.state ∧ (voidByCancel n s).sup.pathHalt = s.sup.pathHalt ∧
    (voidByCancel n s).sup.resetCause = s.sup.resetCause ∧ (voidByCancel n s).sup.heldReason = s.sup.heldReason ∧
    (voidByCancel n s).sup.speedWait = s.sup.speedWait ∧ (voidByCancel n s).link.rxUpper = s.link.rxUpper ∧
    (voidByCancel n s).link.rxLower = s.link.rxLower ∧ (voidByCancel n s).link.commands = s.link.commands ∧
    (voidByCancel n s).link.holding = s.link.holding ∧ (voidByCancel n s).link.reports = s.link.reports ∧
    (voidByCancel n s).link.forwarded = s.link.forwarded ∧ (voidByCancel n s).link.linkStarted = s.link.linkStarted ∧
    (voidByCancel n s).link.lowerTx = s.link.lowerTx ∧ (voidByCancel n s).link.credit = s.link.credit ∧
    (voidByCancel n s).link.replies = s.link.replies ∧ (voidByCancel n s).link.notices = s.link.notices ∧
    (voidByCancel n s).link.lossCount = s.link.lossCount ∧ (voidByCancel n s).link.upperTx = s.link.upperTx ∧
    (voidByCancel n s).svc = s.svc ∧ (voidByCancel n s).cap = s.cap ∧ (voidByCancel n s).free = s.free := by
  simp only [voidByCancel]
  (repeat' split) <;> simp [*]

@[simp] theorem freeIfEmpty_frame (n : SetName) (s : State) :
    (freeIfEmpty n s).pending = s.pending ∧ (freeIfEmpty n s).load = s.load ∧ (freeIfEmpty n s).tables = s.tables ∧
    (freeIfEmpty n s).reached = s.reached ∧ (freeIfEmpty n s).pos = s.pos ∧
    (freeIfEmpty n s).front = s.front ∧ (freeIfEmpty n s).ret = s.ret ∧ (freeIfEmpty n s).fwd = s.fwd ∧
    (freeIfEmpty n s).trk = s.trk ∧ (freeIfEmpty n s).jam.causes = s.jam.causes ∧
    (freeIfEmpty n s).jam.more = s.jam.more ∧ (freeIfEmpty n s).plan = s.plan ∧ (freeIfEmpty n s).sup = s.sup ∧
    (freeIfEmpty n s).link = s.link ∧ (freeIfEmpty n s).svc = s.svc ∧ (freeIfEmpty n s).cap = s.cap ∧
    (freeIfEmpty n s).free = s.free := by
  simp only [freeIfEmpty]
  (repeat' split) <;> simp [*]

@[simp] theorem cancelEntries_frame (job : Word) (s : State) :
    (cancelEntries job s).pending = s.pending ∧ (cancelEntries job s).load = s.load ∧
    (cancelEntries job s).tables = s.tables ∧
    (cancelEntries job s).reached = s.reached ∧ (cancelEntries job s).pos = s.pos ∧ (cancelEntries job s).front = s.front ∧
    (cancelEntries job s).ret.expected = s.ret.expected ∧ (cancelEntries job s).fwd = s.fwd ∧
    (cancelEntries job s).trk = s.trk ∧ (cancelEntries job s).jam = s.jam ∧ (cancelEntries job s).plan = s.plan ∧
    (cancelEntries job s).sets.voidOrder = s.sets.voidOrder ∧ (cancelEntries job s).sup = s.sup ∧
    (cancelEntries job s).link = s.link ∧ (cancelEntries job s).svc = s.svc ∧ (cancelEntries job s).cap = s.cap ∧
    (cancelEntries job s).free = s.free := by
  simp only [cancelEntries]
  (repeat' split) <;> simp [*]

theorem voidByCancel_fold (l : List SetRec) (s t : State)
    (h : t = l.foldl (fun s r => voidByCancel r.name s) s) :
    t.pending = s.pending ∧ t.load = s.load ∧ t.tables = s.tables ∧ t.reached = s.reached ∧ t.pos = s.pos ∧ t.front = s.front ∧
    t.ret = s.ret ∧ t.fwd = s.fwd ∧
    t.trk = s.trk ∧ t.jam = s.jam ∧ t.plan = s.plan ∧ t.sup.state = s.sup.state ∧ t.sup.pathHalt = s.sup.pathHalt ∧
    t.sup.resetCause = s.sup.resetCause ∧ t.sup.heldReason = s.sup.heldReason ∧ t.sup.speedWait = s.sup.speedWait ∧
    t.link.rxUpper = s.link.rxUpper ∧ t.link.rxLower = s.link.rxLower ∧ t.link.commands = s.link.commands ∧
    t.link.holding = s.link.holding ∧ t.link.reports = s.link.reports ∧ t.link.forwarded = s.link.forwarded ∧
    t.link.linkStarted = s.link.linkStarted ∧ t.link.lowerTx = s.link.lowerTx ∧ t.link.credit = s.link.credit ∧
    t.link.replies = s.link.replies ∧ t.link.notices = s.link.notices ∧ t.link.lossCount = s.link.lossCount ∧
    t.link.upperTx = s.link.upperTx ∧ t.svc = s.svc ∧ t.cap = s.cap ∧ t.free = s.free := by
  subst h
  induction l generalizing s with
  | nil => simp
  | cons a l ih => rw [List.foldl_cons]; simp [ih]; try (split <;> simp)

theorem freeIfEmpty_fold (l : List SetRec) (s t : State)
    (h : t = l.foldl (fun s r => freeIfEmpty r.name s) s) :
    t.pending = s.pending ∧ t.load = s.load ∧ t.tables = s.tables ∧ t.reached = s.reached ∧ t.pos = s.pos ∧ t.front = s.front ∧
    t.ret = s.ret ∧ t.fwd = s.fwd ∧
    t.trk = s.trk ∧ t.jam.causes = s.jam.causes ∧ t.jam.more = s.jam.more ∧ t.plan = s.plan ∧ t.sup = s.sup ∧
    t.link = s.link ∧ t.svc = s.svc ∧ t.cap = s.cap ∧ t.free = s.free := by
  subst h
  induction l generalizing s with
  | nil => simp
  | cons a l ih => rw [List.foldl_cons]; simp [ih]; try (split <;> simp)

@[simp] theorem cancelJob_frame (job : Word) (s : State) :
    (cancelJob job s).1.pending = s.pending ∧ (cancelJob job s).1.load = s.load ∧
    (cancelJob job s).1.tables = s.tables ∧
    (cancelJob job s).1.pos.clock = s.pos.clock ∧ (cancelJob job s).1.pos.p = s.pos.p ∧
    (cancelJob job s).1.pos.lastPulse = s.pos.lastPulse ∧ (cancelJob job s).1.pos.msCount = s.pos.msCount ∧
    (cancelJob job s).1.pos.trunRaw = s.pos.trunRaw ∧ (cancelJob job s).1.pos.trunQual = s.pos.trunQual ∧
    (cancelJob job s).1.pos.trunPending = s.pos.trunPending ∧ (cancelJob job s).1.front.covers = s.front.covers ∧
    (cancelJob job s).1.ret.expected = s.ret.expected ∧ (cancelJob job s).1.fwd.limit = s.fwd.limit ∧
    (cancelJob job s).1.fwd.windowHold = s.fwd.windowHold ∧ (cancelJob job s).1.fwd.speed = s.fwd.speed ∧
    (cancelJob job s).1.trk.table = s.trk.table ∧ (cancelJob job s).1.trk.lists = s.trk.lists ∧
    (cancelJob job s).1.trk.slots = s.trk.slots ∧ (cancelJob job s).1.jam.causes = s.jam.causes ∧
    (cancelJob job s).1.jam.more = s.jam.more ∧ (cancelJob job s).1.plan = s.plan ∧
    (cancelJob job s).1.sup.resetCause = s.sup.resetCause ∧ (cancelJob job s).1.sup.speedWait = s.sup.speedWait ∧
    (cancelJob job s).1.link.rxUpper = s.link.rxUpper ∧ (cancelJob job s).1.link.rxLower = s.link.rxLower ∧
    (cancelJob job s).1.link.commands = s.link.commands ∧ (cancelJob job s).1.link.holding = s.link.holding ∧
    (cancelJob job s).1.link.reports = s.link.reports ∧ (cancelJob job s).1.link.linkStarted = s.link.linkStarted ∧
    (cancelJob job s).1.link.lowerTx = s.link.lowerTx ∧ (cancelJob job s).1.link.replies = s.link.replies ∧
    (cancelJob job s).1.link.upperTx = s.link.upperTx ∧ (cancelJob job s).1.svc.rx = s.svc.rx ∧
    (cancelJob job s).1.svc.held = s.svc.held ∧ (cancelJob job s).1.svc.claim = s.svc.claim ∧
    (cancelJob job s).1.svc.reply = s.svc.reply ∧ (cancelJob job s).1.svc.tx = s.svc.tx ∧
    (cancelJob job s).1.cap.owner = s.cap.owner ∧ (cancelJob job s).1.cap.mode = s.cap.mode ∧
    (cancelJob job s).1.cap.mask = s.cap.mask ∧ (cancelJob job s).1.free = s.free := by
  simp only [cancelJob]
  simp [voidByCancel_fold _ _ _ rfl, freeIfEmpty_fold _ _ _ rfl]

@[simp] theorem takeRequest_frame (port : MgmtPort) (s : State) :
    (takeRequest port s).pending = s.pending ∧ (takeRequest port s).load = s.load ∧
    (takeRequest port s).tables = s.tables ∧
    (takeRequest port s).reached = s.reached ∧ (takeRequest port s).pos = s.pos ∧ (takeRequest port s).front = s.front ∧ (takeRequest port s).ret = s.ret ∧
    (takeRequest port s).fwd = s.fwd ∧ (takeRequest port s).trk = s.trk ∧ (takeRequest port s).jam = s.jam ∧
    (takeRequest port s).plan = s.plan ∧ (takeRequest port s).sets = s.sets ∧ (takeRequest port s).sup = s.sup ∧
    (takeRequest port s).link.rxUpper = s.link.rxUpper ∧ (takeRequest port s).link.rxLower = s.link.rxLower ∧
    (takeRequest port s).link.commands = s.link.commands ∧ (takeRequest port s).link.reports = s.link.reports ∧
    (takeRequest port s).link.pathControl = s.link.pathControl ∧
    (takeRequest port s).link.forwarded = s.link.forwarded ∧
    (takeRequest port s).link.linkStarted = s.link.linkStarted ∧ (takeRequest port s).link.lowerTx = s.link.lowerTx ∧
    (takeRequest port s).link.credit = s.link.credit ∧ (takeRequest port s).link.replies = s.link.replies ∧
    (takeRequest port s).link.notices = s.link.notices ∧ (takeRequest port s).link.lossCount = s.link.lossCount ∧
    (takeRequest port s).link.upperTx = s.link.upperTx ∧ (takeRequest port s).svc.rx = s.svc.rx ∧
    (takeRequest port s).svc.claim = s.svc.claim ∧ (takeRequest port s).svc.reply = s.svc.reply ∧
    (takeRequest port s).svc.notices = s.svc.notices ∧ (takeRequest port s).svc.tx = s.svc.tx ∧
    (takeRequest port s).cap = s.cap ∧ (takeRequest port s).free = s.free := by
  simp only [takeRequest]
  (repeat' split) <;> simp [*]

@[simp] theorem putReply_frame (port : MgmtPort) (r : Reply) (s : State) :
    (putReply port r s).pending = s.pending ∧ (putReply port r s).load = s.load ∧
    (putReply port r s).tables = s.tables ∧
    (putReply port r s).reached = s.reached ∧ (putReply port r s).pos = s.pos ∧ (putReply port r s).front = s.front ∧ (putReply port r s).ret = s.ret ∧
    (putReply port r s).fwd = s.fwd ∧ (putReply port r s).trk = s.trk ∧ (putReply port r s).jam = s.jam ∧
    (putReply port r s).plan = s.plan ∧ (putReply port r s).sets = s.sets ∧ (putReply port r s).sup = s.sup ∧
    (putReply port r s).link.rxUpper = s.link.rxUpper ∧ (putReply port r s).link.rxLower = s.link.rxLower ∧
    (putReply port r s).link.commands = s.link.commands ∧ (putReply port r s).link.holding = s.link.holding ∧
    (putReply port r s).link.reports = s.link.reports ∧ (putReply port r s).link.pathControl = s.link.pathControl ∧
    (putReply port r s).link.forwarded = s.link.forwarded ∧
    (putReply port r s).link.linkStarted = s.link.linkStarted ∧ (putReply port r s).link.lowerTx = s.link.lowerTx ∧
    (putReply port r s).link.credit = s.link.credit ∧ (putReply port r s).link.notices = s.link.notices ∧
    (putReply port r s).link.lossCount = s.link.lossCount ∧ (putReply port r s).link.upperTx = s.link.upperTx ∧
    (putReply port r s).svc.rx = s.svc.rx ∧ (putReply port r s).svc.held = s.svc.held ∧
    (putReply port r s).svc.claim = s.svc.claim ∧ (putReply port r s).svc.notices = s.svc.notices ∧
    (putReply port r s).svc.tx = s.svc.tx ∧ (putReply port r s).cap = s.cap ∧ (putReply port r s).free = s.free := by
  simp only [putReply]
  (repeat' split) <;> simp [*]

@[simp] theorem readPlan_frame (number : Byte) (page : Nat) (s : State) :
    (readPlan number page s).state.pending = s.pending ∧ (readPlan number page s).state.load = s.load ∧
    (readPlan number page s).state.tables = s.tables ∧
    (readPlan number page s).state.pos = s.pos ∧ (readPlan number page s).state.front = s.front ∧
    (readPlan number page s).state.ret = s.ret ∧ (readPlan number page s).state.fwd = s.fwd ∧
    (readPlan number page s).state.trk = s.trk ∧ (readPlan number page s).state.jam = s.jam ∧
    (readPlan number page s).state.plan = s.plan ∧ (readPlan number page s).state.sets = s.sets ∧
    (readPlan number page s).state.sup = s.sup ∧ (readPlan number page s).state.link = s.link ∧
    (readPlan number page s).state.svc = s.svc ∧ (readPlan number page s).state.cap = s.cap ∧
    (readPlan number page s).state.reached = s.reached ∧ (readPlan number page s).state.free = s.free := by
  simp only [readPlan]
  (repeat' split) <;> simp [*]

@[simp] theorem afterWrite_frame (s : State) :
    (afterWrite s).pending = s.pending ∧ (afterWrite s).load = s.load ∧
    (afterWrite s).tables.stations = s.tables.stations ∧
    (afterWrite s).tables.zones = s.tables.zones ∧ (afterWrite s).tables.guarded = s.tables.guarded ∧
    (afterWrite s).tables.bins = s.tables.bins ∧ (afterWrite s).tables.routes = s.tables.routes ∧
    (afterWrite s).tables.limits = s.tables.limits ∧ (afterWrite s).tables.loadResult = s.tables.loadResult ∧
    (afterWrite s).pos.clock = s.pos.clock ∧ (afterWrite s).pos.p = s.pos.p ∧
    (afterWrite s).pos.lastPulse = s.pos.lastPulse ∧ (afterWrite s).pos.msCount = s.pos.msCount ∧
    (afterWrite s).pos.trunRaw = s.pos.trunRaw ∧ (afterWrite s).pos.trunQual = s.pos.trunQual ∧
    (afterWrite s).pos.trunPending = s.pos.trunPending ∧ (afterWrite s).front.covers = s.front.covers ∧
    (afterWrite s).ret = s.ret ∧ (afterWrite s).fwd = s.fwd ∧ (afterWrite s).trk.table = s.trk.table ∧
    (afterWrite s).trk.lists = s.trk.lists ∧ (afterWrite s).trk.slots = s.trk.slots ∧ (afterWrite s).jam = s.jam ∧
    (afterWrite s).plan = s.plan ∧ (afterWrite s).sets = s.sets ∧ (afterWrite s).sup.resetCause = s.sup.resetCause ∧
    (afterWrite s).sup.speedWait = s.sup.speedWait ∧ (afterWrite s).link.rxUpper = s.link.rxUpper ∧
    (afterWrite s).link.rxLower = s.link.rxLower ∧ (afterWrite s).link.commands = s.link.commands ∧
    (afterWrite s).link.holding = s.link.holding ∧ (afterWrite s).link.reports = s.link.reports ∧
    (afterWrite s).link.pathControl = s.link.pathControl ∧ (afterWrite s).link.forwarded = s.link.forwarded ∧
    (afterWrite s).link.linkStarted = s.link.linkStarted ∧ (afterWrite s).link.lowerTx = s.link.lowerTx ∧
    (afterWrite s).link.credit = s.link.credit ∧ (afterWrite s).link.replies = s.link.replies ∧
    (afterWrite s).link.upperTx = s.link.upperTx ∧ (afterWrite s).svc.rx = s.svc.rx ∧
    (afterWrite s).svc.held = s.svc.held ∧ (afterWrite s).svc.claim = s.svc.claim ∧
    (afterWrite s).svc.reply = s.svc.reply ∧ (afterWrite s).svc.tx = s.svc.tx ∧
    (afterWrite s).cap.owner = s.cap.owner ∧ (afterWrite s).cap.mode = s.cap.mode ∧
    (afterWrite s).cap.mask = s.cap.mask ∧ (afterWrite s).free = s.free := by
  simp only [afterWrite]
  (repeat' split) <;> simp [*]

@[simp] theorem storeStation_frame (i : Station) (r : StationRec) (s : State) :
    (storeStation i r s).pending = s.pending ∧ (storeStation i r s).load = s.load ∧
    (storeStation i r s).tables.zones = s.tables.zones ∧
    (storeStation i r s).tables.guarded = s.tables.guarded ∧ (storeStation i r s).tables.bins = s.tables.bins ∧
    (storeStation i r s).tables.routes = s.tables.routes ∧ (storeStation i r s).tables.limits = s.tables.limits ∧
    (storeStation i r s).tables.checked = s.tables.checked ∧
    (storeStation i r s).tables.loadResult = s.tables.loadResult ∧ (storeStation i r s).reached = s.reached ∧ (storeStation i r s).pos = s.pos ∧
    (storeStation i r s).front.covers = s.front.covers ∧ (storeStation i r s).front.emit = s.front.emit ∧
    (storeStation i r s).front.emitFrom = s.front.emitFrom ∧ (storeStation i r s).ret = s.ret ∧
    (storeStation i r s).fwd = s.fwd ∧ (storeStation i r s).trk = s.trk ∧ (storeStation i r s).jam = s.jam ∧
    (storeStation i r s).plan = s.plan ∧ (storeStation i r s).sets = s.sets ∧ (storeStation i r s).sup = s.sup ∧
    (storeStation i r s).link = s.link ∧ (storeStation i r s).svc = s.svc ∧ (storeStation i r s).cap = s.cap ∧
    (storeStation i r s).free = s.free := by
  simp only [storeStation]
  (repeat' split) <;> simp [*]

@[simp] theorem acceptAtWrite_frame (st : Station) (s : State) :
    (acceptAtWrite st s).pending = s.pending ∧ (acceptAtWrite st s).load = s.load ∧
    (acceptAtWrite st s).tables = s.tables ∧
    (acceptAtWrite st s).reached = s.reached ∧ (acceptAtWrite st s).pos = s.pos ∧ (acceptAtWrite st s).front.covers = s.front.covers ∧
    (acceptAtWrite st s).front.emit = s.front.emit ∧ (acceptAtWrite st s).front.emitFrom = s.front.emitFrom ∧
    (acceptAtWrite st s).ret = s.ret ∧ (acceptAtWrite st s).fwd = s.fwd ∧ (acceptAtWrite st s).trk = s.trk ∧
    (acceptAtWrite st s).jam = s.jam ∧ (acceptAtWrite st s).plan = s.plan ∧ (acceptAtWrite st s).sets = s.sets ∧
    (acceptAtWrite st s).sup = s.sup ∧ (acceptAtWrite st s).link.rxUpper = s.link.rxUpper ∧
    (acceptAtWrite st s).link.rxLower = s.link.rxLower ∧ (acceptAtWrite st s).link.commands = s.link.commands ∧
    (acceptAtWrite st s).link.holding = s.link.holding ∧ (acceptAtWrite st s).link.reports = s.link.reports ∧
    (acceptAtWrite st s).link.pathControl = s.link.pathControl ∧
    (acceptAtWrite st s).link.forwarded = s.link.forwarded ∧
    (acceptAtWrite st s).link.linkStarted = s.link.linkStarted ∧ (acceptAtWrite st s).link.lowerTx = s.link.lowerTx ∧
    (acceptAtWrite st s).link.credit = s.link.credit ∧ (acceptAtWrite st s).link.replies = s.link.replies ∧
    (acceptAtWrite st s).link.upperTx = s.link.upperTx ∧ (acceptAtWrite st s).svc.rx = s.svc.rx ∧
    (acceptAtWrite st s).svc.held = s.svc.held ∧ (acceptAtWrite st s).svc.claim = s.svc.claim ∧
    (acceptAtWrite st s).svc.reply = s.svc.reply ∧ (acceptAtWrite st s).svc.tx = s.svc.tx ∧
    (acceptAtWrite st s).cap.owner = s.cap.owner ∧ (acceptAtWrite st s).cap.mode = s.cap.mode ∧
    (acceptAtWrite st s).cap.mask = s.cap.mask ∧ (acceptAtWrite st s).free = s.free := by
  simp only [acceptAtWrite]
  (repeat' split) <;> simp [*]

@[simp] theorem writeStation_frame (args : List Byte) (s : State) :
    (writeStation args s).state.pending = s.pending ∧ (writeStation args s).state.load = s.load ∧
    (writeStation args s).state.tables.zones = s.tables.zones ∧
    (writeStation args s).state.tables.guarded = s.tables.guarded ∧
    (writeStation args s).state.tables.bins = s.tables.bins ∧
    (writeStation args s).state.tables.routes = s.tables.routes ∧
    (writeStation args s).state.tables.limits = s.tables.limits ∧
    (writeStation args s).state.tables.loadResult = s.tables.loadResult ∧
    (writeStation args s).state.pos.clock = s.pos.clock ∧ (writeStation args s).state.pos.p = s.pos.p ∧
    (writeStation args s).state.pos.lastPulse = s.pos.lastPulse ∧
    (writeStation args s).state.pos.msCount = s.pos.msCount ∧
    (writeStation args s).state.pos.trunRaw = s.pos.trunRaw ∧
    (writeStation args s).state.pos.trunQual = s.pos.trunQual ∧
    (writeStation args s).state.pos.trunPending = s.pos.trunPending ∧
    (writeStation args s).state.front.covers = s.front.covers ∧ (writeStation args s).state.ret = s.ret ∧
    (writeStation args s).state.fwd = s.fwd ∧ (writeStation args s).state.trk.table = s.trk.table ∧
    (writeStation args s).state.trk.lists = s.trk.lists ∧ (writeStation args s).state.trk.slots = s.trk.slots ∧
    (writeStation args s).state.jam = s.jam ∧ (writeStation args s).state.plan = s.plan ∧
    (writeStation args s).state.sets = s.sets ∧ (writeStation args s).state.sup.resetCause = s.sup.resetCause ∧
    (writeStation args s).state.sup.speedWait = s.sup.speedWait ∧
    (writeStation args s).state.link.rxUpper = s.link.rxUpper ∧
    (writeStation args s).state.link.rxLower = s.link.rxLower ∧
    (writeStation args s).state.link.commands = s.link.commands ∧
    (writeStation args s).state.link.holding = s.link.holding ∧
    (writeStation args s).state.link.reports = s.link.reports ∧
    (writeStation args s).state.link.pathControl = s.link.pathControl ∧
    (writeStation args s).state.link.forwarded = s.link.forwarded ∧
    (writeStation args s).state.link.linkStarted = s.link.linkStarted ∧
    (writeStation args s).state.link.lowerTx = s.link.lowerTx ∧
    (writeStation args s).state.link.credit = s.link.credit ∧
    (writeStation args s).state.link.replies = s.link.replies ∧
    (writeStation args s).state.link.upperTx = s.link.upperTx ∧ (writeStation args s).state.svc.rx = s.svc.rx ∧
    (writeStation args s).state.svc.held = s.svc.held ∧ (writeStation args s).state.svc.claim = s.svc.claim ∧
    (writeStation args s).state.svc.reply = s.svc.reply ∧ (writeStation args s).state.svc.tx = s.svc.tx ∧
    (writeStation args s).state.cap.owner = s.cap.owner ∧ (writeStation args s).state.cap.mode = s.cap.mode ∧
    (writeStation args s).state.cap.mask = s.cap.mask ∧ (writeStation args s).state.free = s.free := by
  rcases h : stationArgs args with _ | x <;> rcases ht : tablesRefusal s with _ | st <;>
    simp [writeStation, writeTable, h, ht] <;> (split <;> simp)

@[simp] theorem storeZone_frame (i : Zone) (r : ZoneRec) (s : State) :
    (storeZone i r s).pending = s.pending ∧ (storeZone i r s).load = s.load ∧
    (storeZone i r s).tables.stations = s.tables.stations ∧
    (storeZone i r s).tables.bins = s.tables.bins ∧ (storeZone i r s).tables.routes = s.tables.routes ∧
    (storeZone i r s).tables.limits = s.tables.limits ∧ (storeZone i r s).tables.checked = s.tables.checked ∧
    (storeZone i r s).tables.loadResult = s.tables.loadResult ∧ (storeZone i r s).reached = s.reached ∧ (storeZone i r s).pos = s.pos ∧
    (storeZone i r s).front = s.front ∧ (storeZone i r s).ret = s.ret ∧ (storeZone i r s).fwd = s.fwd ∧
    (storeZone i r s).trk = s.trk ∧ (storeZone i r s).jam = s.jam ∧ (storeZone i r s).plan = s.plan ∧
    (storeZone i r s).sets = s.sets ∧ (storeZone i r s).sup = s.sup ∧ (storeZone i r s).link = s.link ∧
    (storeZone i r s).svc = s.svc ∧ (storeZone i r s).cap = s.cap ∧ (storeZone i r s).free = s.free := by
  simp only [storeZone]
  (repeat' split) <;> simp [*]

@[simp] theorem writeZone_frame (args : List Byte) (s : State) :
    (writeZone args s).state.pending = s.pending ∧ (writeZone args s).state.load = s.load ∧
    (writeZone args s).state.tables.stations = s.tables.stations ∧
    (writeZone args s).state.tables.bins = s.tables.bins ∧ (writeZone args s).state.tables.routes = s.tables.routes ∧
    (writeZone args s).state.tables.limits = s.tables.limits ∧
    (writeZone args s).state.tables.loadResult = s.tables.loadResult ∧
    (writeZone args s).state.pos.clock = s.pos.clock ∧ (writeZone args s).state.pos.p = s.pos.p ∧
    (writeZone args s).state.pos.lastPulse = s.pos.lastPulse ∧ (writeZone args s).state.pos.msCount = s.pos.msCount ∧
    (writeZone args s).state.pos.trunRaw = s.pos.trunRaw ∧ (writeZone args s).state.pos.trunQual = s.pos.trunQual ∧
    (writeZone args s).state.pos.trunPending = s.pos.trunPending ∧
    (writeZone args s).state.front.covers = s.front.covers ∧ (writeZone args s).state.ret = s.ret ∧
    (writeZone args s).state.fwd = s.fwd ∧ (writeZone args s).state.trk.table = s.trk.table ∧
    (writeZone args s).state.trk.lists = s.trk.lists ∧ (writeZone args s).state.trk.slots = s.trk.slots ∧
    (writeZone args s).state.jam = s.jam ∧ (writeZone args s).state.plan = s.plan ∧
    (writeZone args s).state.sets = s.sets ∧ (writeZone args s).state.sup.resetCause = s.sup.resetCause ∧
    (writeZone args s).state.sup.speedWait = s.sup.speedWait ∧
    (writeZone args s).state.link.rxUpper = s.link.rxUpper ∧ (writeZone args s).state.link.rxLower = s.link.rxLower ∧
    (writeZone args s).state.link.commands = s.link.commands ∧
    (writeZone args s).state.link.holding = s.link.holding ∧ (writeZone args s).state.link.reports = s.link.reports ∧
    (writeZone args s).state.link.pathControl = s.link.pathControl ∧
    (writeZone args s).state.link.forwarded = s.link.forwarded ∧
    (writeZone args s).state.link.linkStarted = s.link.linkStarted ∧
    (writeZone args s).state.link.lowerTx = s.link.lowerTx ∧ (writeZone args s).state.link.credit = s.link.credit ∧
    (writeZone args s).state.link.replies = s.link.replies ∧ (writeZone args s).state.link.upperTx = s.link.upperTx ∧
    (writeZone args s).state.svc.rx = s.svc.rx ∧ (writeZone args s).state.svc.held = s.svc.held ∧
    (writeZone args s).state.svc.claim = s.svc.claim ∧ (writeZone args s).state.svc.reply = s.svc.reply ∧
    (writeZone args s).state.svc.tx = s.svc.tx ∧ (writeZone args s).state.cap.owner = s.cap.owner ∧
    (writeZone args s).state.cap.mode = s.cap.mode ∧ (writeZone args s).state.cap.mask = s.cap.mask ∧
    (writeZone args s).state.free = s.free := by
  rcases h : zoneArgs args with _ | x <;> simp only [writeZone, writeTable, h, Option.map] <;> cases tablesRefusal s <;> simp

@[simp] theorem storeBin_frame (i : Bin) (r : BinRec) (s : State) :
    (storeBin i r s).pending = s.pending ∧ (storeBin i r s).load = s.load ∧
    (storeBin i r s).tables.stations = s.tables.stations ∧
    (storeBin i r s).tables.zones = s.tables.zones ∧ (storeBin i r s).tables.guarded = s.tables.guarded ∧
    (storeBin i r s).tables.routes = s.tables.routes ∧ (storeBin i r s).tables.limits = s.tables.limits ∧
    (storeBin i r s).tables.checked = s.tables.checked ∧ (storeBin i r s).tables.loadResult = s.tables.loadResult ∧
    (storeBin i r s).reached = s.reached ∧ (storeBin i r s).pos = s.pos ∧ (storeBin i r s).front = s.front ∧ (storeBin i r s).ret = s.ret ∧
    (storeBin i r s).fwd = s.fwd ∧ (storeBin i r s).trk = s.trk ∧ (storeBin i r s).jam = s.jam ∧
    (storeBin i r s).plan = s.plan ∧ (storeBin i r s).sets = s.sets ∧ (storeBin i r s).sup = s.sup ∧
    (storeBin i r s).link = s.link ∧ (storeBin i r s).svc = s.svc ∧ (storeBin i r s).cap = s.cap ∧
    (storeBin i r s).free = s.free := by
  simp only [storeBin]
  (repeat' split) <;> simp [*]

@[simp] theorem writeBin_frame (args : List Byte) (s : State) :
    (writeBin args s).state.pending = s.pending ∧ (writeBin args s).state.load = s.load ∧
    (writeBin args s).state.tables.stations = s.tables.stations ∧
    (writeBin args s).state.tables.zones = s.tables.zones ∧
    (writeBin args s).state.tables.guarded = s.tables.guarded ∧
    (writeBin args s).state.tables.routes = s.tables.routes ∧
    (writeBin args s).state.tables.limits = s.tables.limits ∧
    (writeBin args s).state.tables.loadResult = s.tables.loadResult ∧
    (writeBin args s).state.pos.clock = s.pos.clock ∧ (writeBin args s).state.pos.p = s.pos.p ∧
    (writeBin args s).state.pos.lastPulse = s.pos.lastPulse ∧ (writeBin args s).state.pos.msCount = s.pos.msCount ∧
    (writeBin args s).state.pos.trunRaw = s.pos.trunRaw ∧ (writeBin args s).state.pos.trunQual = s.pos.trunQual ∧
    (writeBin args s).state.pos.trunPending = s.pos.trunPending ∧
    (writeBin args s).state.front.covers = s.front.covers ∧ (writeBin args s).state.ret = s.ret ∧
    (writeBin args s).state.fwd = s.fwd ∧ (writeBin args s).state.trk.table = s.trk.table ∧
    (writeBin args s).state.trk.lists = s.trk.lists ∧ (writeBin args s).state.trk.slots = s.trk.slots ∧
    (writeBin args s).state.jam = s.jam ∧ (writeBin args s).state.plan = s.plan ∧
    (writeBin args s).state.sets = s.sets ∧ (writeBin args s).state.sup.resetCause = s.sup.resetCause ∧
    (writeBin args s).state.sup.speedWait = s.sup.speedWait ∧ (writeBin args s).state.link.rxUpper = s.link.rxUpper ∧
    (writeBin args s).state.link.rxLower = s.link.rxLower ∧ (writeBin args s).state.link.commands = s.link.commands ∧
    (writeBin args s).state.link.holding = s.link.holding ∧ (writeBin args s).state.link.reports = s.link.reports ∧
    (writeBin args s).state.link.pathControl = s.link.pathControl ∧
    (writeBin args s).state.link.forwarded = s.link.forwarded ∧
    (writeBin args s).state.link.linkStarted = s.link.linkStarted ∧
    (writeBin args s).state.link.lowerTx = s.link.lowerTx ∧ (writeBin args s).state.link.credit = s.link.credit ∧
    (writeBin args s).state.link.replies = s.link.replies ∧ (writeBin args s).state.link.upperTx = s.link.upperTx ∧
    (writeBin args s).state.svc.rx = s.svc.rx ∧ (writeBin args s).state.svc.held = s.svc.held ∧
    (writeBin args s).state.svc.claim = s.svc.claim ∧ (writeBin args s).state.svc.reply = s.svc.reply ∧
    (writeBin args s).state.svc.tx = s.svc.tx ∧ (writeBin args s).state.cap.owner = s.cap.owner ∧
    (writeBin args s).state.cap.mode = s.cap.mode ∧ (writeBin args s).state.cap.mask = s.cap.mask ∧
    (writeBin args s).state.free = s.free := by
  rcases h : binArgs args with _ | x <;> simp only [writeBin, writeTable, h, Option.map] <;> cases tablesRefusal s <;> simp

@[simp] theorem storeRoute_frame (i : RouteIx) (r : RouteRec) (s : State) :
    (storeRoute i r s).pending = s.pending ∧ (storeRoute i r s).load = s.load ∧
    (storeRoute i r s).tables.stations = s.tables.stations ∧
    (storeRoute i r s).tables.zones = s.tables.zones ∧ (storeRoute i r s).tables.guarded = s.tables.guarded ∧
    (storeRoute i r s).tables.bins = s.tables.bins ∧ (storeRoute i r s).tables.limits = s.tables.limits ∧
    (storeRoute i r s).tables.checked = s.tables.checked ∧
    (storeRoute i r s).tables.loadResult = s.tables.loadResult ∧ (storeRoute i r s).reached = s.reached ∧ (storeRoute i r s).pos = s.pos ∧
    (storeRoute i r s).front = s.front ∧ (storeRoute i r s).ret = s.ret ∧ (storeRoute i r s).fwd = s.fwd ∧
    (storeRoute i r s).trk = s.trk ∧ (storeRoute i r s).jam = s.jam ∧ (storeRoute i r s).plan = s.plan ∧
    (storeRoute i r s).sets = s.sets ∧ (storeRoute i r s).sup = s.sup ∧ (storeRoute i r s).link = s.link ∧
    (storeRoute i r s).svc = s.svc ∧ (storeRoute i r s).cap = s.cap ∧ (storeRoute i r s).free = s.free := by
  simp only [storeRoute]
  (repeat' split) <;> simp [*]

@[simp] theorem writeRoute_frame (args : List Byte) (s : State) :
    (writeRoute args s).state.pending = s.pending ∧ (writeRoute args s).state.load = s.load ∧
    (writeRoute args s).state.tables.stations = s.tables.stations ∧
    (writeRoute args s).state.tables.zones = s.tables.zones ∧
    (writeRoute args s).state.tables.guarded = s.tables.guarded ∧
    (writeRoute args s).state.tables.bins = s.tables.bins ∧
    (writeRoute args s).state.tables.limits = s.tables.limits ∧
    (writeRoute args s).state.tables.loadResult = s.tables.loadResult ∧
    (writeRoute args s).state.pos.clock = s.pos.clock ∧ (writeRoute args s).state.pos.p = s.pos.p ∧
    (writeRoute args s).state.pos.lastPulse = s.pos.lastPulse ∧
    (writeRoute args s).state.pos.msCount = s.pos.msCount ∧ (writeRoute args s).state.pos.trunRaw = s.pos.trunRaw ∧
    (writeRoute args s).state.pos.trunQual = s.pos.trunQual ∧
    (writeRoute args s).state.pos.trunPending = s.pos.trunPending ∧
    (writeRoute args s).state.front.covers = s.front.covers ∧ (writeRoute args s).state.ret = s.ret ∧
    (writeRoute args s).state.fwd = s.fwd ∧ (writeRoute args s).state.trk.table = s.trk.table ∧
    (writeRoute args s).state.trk.lists = s.trk.lists ∧ (writeRoute args s).state.trk.slots = s.trk.slots ∧
    (writeRoute args s).state.jam = s.jam ∧ (writeRoute args s).state.plan = s.plan ∧
    (writeRoute args s).state.sets = s.sets ∧ (writeRoute args s).state.sup.resetCause = s.sup.resetCause ∧
    (writeRoute args s).state.sup.speedWait = s.sup.speedWait ∧
    (writeRoute args s).state.link.rxUpper = s.link.rxUpper ∧
    (writeRoute args s).state.link.rxLower = s.link.rxLower ∧
    (writeRoute args s).state.link.commands = s.link.commands ∧
    (writeRoute args s).state.link.holding = s.link.holding ∧
    (writeRoute args s).state.link.reports = s.link.reports ∧
    (writeRoute args s).state.link.pathControl = s.link.pathControl ∧
    (writeRoute args s).state.link.forwarded = s.link.forwarded ∧
    (writeRoute args s).state.link.linkStarted = s.link.linkStarted ∧
    (writeRoute args s).state.link.lowerTx = s.link.lowerTx ∧ (writeRoute args s).state.link.credit = s.link.credit ∧
    (writeRoute args s).state.link.replies = s.link.replies ∧
    (writeRoute args s).state.link.upperTx = s.link.upperTx ∧ (writeRoute args s).state.svc.rx = s.svc.rx ∧
    (writeRoute args s).state.svc.held = s.svc.held ∧ (writeRoute args s).state.svc.claim = s.svc.claim ∧
    (writeRoute args s).state.svc.reply = s.svc.reply ∧ (writeRoute args s).state.svc.tx = s.svc.tx ∧
    (writeRoute args s).state.cap.owner = s.cap.owner ∧ (writeRoute args s).state.cap.mode = s.cap.mode ∧
    (writeRoute args s).state.cap.mask = s.cap.mask ∧ (writeRoute args s).state.free = s.free := by
  rcases h : routeArgs args with _ | x <;> simp only [writeRoute, writeTable, h, Option.map] <;> cases tablesRefusal s <;> simp

@[simp] theorem writeLimits_frame (args : List Byte) (s : State) :
    (writeLimits args s).state.pending = s.pending ∧ (writeLimits args s).state.load = s.load ∧
    (writeLimits args s).state.tables.stations = s.tables.stations ∧
    (writeLimits args s).state.tables.zones = s.tables.zones ∧
    (writeLimits args s).state.tables.guarded = s.tables.guarded ∧
    (writeLimits args s).state.tables.bins = s.tables.bins ∧
    (writeLimits args s).state.tables.routes = s.tables.routes ∧
    (writeLimits args s).state.tables.loadResult = s.tables.loadResult ∧
    (writeLimits args s).state.pos.clock = s.pos.clock ∧ (writeLimits args s).state.pos.p = s.pos.p ∧
    (writeLimits args s).state.pos.lastPulse = s.pos.lastPulse ∧
    (writeLimits args s).state.pos.msCount = s.pos.msCount ∧ (writeLimits args s).state.pos.trunRaw = s.pos.trunRaw ∧
    (writeLimits args s).state.pos.trunQual = s.pos.trunQual ∧
    (writeLimits args s).state.pos.trunPending = s.pos.trunPending ∧
    (writeLimits args s).state.front.covers = s.front.covers ∧ (writeLimits args s).state.ret = s.ret ∧
    (writeLimits args s).state.fwd = s.fwd ∧ (writeLimits args s).state.trk.table = s.trk.table ∧
    (writeLimits args s).state.trk.lists = s.trk.lists ∧ (writeLimits args s).state.trk.slots = s.trk.slots ∧
    (writeLimits args s).state.jam = s.jam ∧ (writeLimits args s).state.plan = s.plan ∧
    (writeLimits args s).state.sets = s.sets ∧ (writeLimits args s).state.sup.resetCause = s.sup.resetCause ∧
    (writeLimits args s).state.sup.speedWait = s.sup.speedWait ∧
    (writeLimits args s).state.link.rxUpper = s.link.rxUpper ∧
    (writeLimits args s).state.link.rxLower = s.link.rxLower ∧
    (writeLimits args s).state.link.commands = s.link.commands ∧
    (writeLimits args s).state.link.holding = s.link.holding ∧
    (writeLimits args s).state.link.reports = s.link.reports ∧
    (writeLimits args s).state.link.pathControl = s.link.pathControl ∧
    (writeLimits args s).state.link.forwarded = s.link.forwarded ∧
    (writeLimits args s).state.link.linkStarted = s.link.linkStarted ∧
    (writeLimits args s).state.link.lowerTx = s.link.lowerTx ∧
    (writeLimits args s).state.link.credit = s.link.credit ∧
    (writeLimits args s).state.link.replies = s.link.replies ∧
    (writeLimits args s).state.link.upperTx = s.link.upperTx ∧ (writeLimits args s).state.svc.rx = s.svc.rx ∧
    (writeLimits args s).state.svc.held = s.svc.held ∧ (writeLimits args s).state.svc.claim = s.svc.claim ∧
    (writeLimits args s).state.svc.reply = s.svc.reply ∧ (writeLimits args s).state.svc.tx = s.svc.tx ∧
    (writeLimits args s).state.cap.owner = s.cap.owner ∧ (writeLimits args s).state.cap.mode = s.cap.mode ∧
    (writeLimits args s).state.cap.mask = s.cap.mask ∧ (writeLimits args s).state.free = s.free := by
  rcases h : limitsArgs args with _ | x <;> simp only [writeLimits, writeTable, h, Option.map] <;> cases tablesRefusal s <;> simp

@[simp] theorem tablesPass_frame (s : State) :
    (tablesPass s).pending = s.pending ∧ (tablesPass s).load = s.load ∧
    (tablesPass s).tables.stations = s.tables.stations ∧
    (tablesPass s).tables.zones = s.tables.zones ∧ (tablesPass s).tables.guarded = s.tables.guarded ∧
    (tablesPass s).tables.bins = s.tables.bins ∧ (tablesPass s).tables.routes = s.tables.routes ∧
    (tablesPass s).tables.limits = s.tables.limits ∧ (tablesPass s).tables.loadResult = s.tables.loadResult ∧
    (tablesPass s).pos.clock = s.pos.clock ∧ (tablesPass s).pos.p = s.pos.p ∧
    (tablesPass s).pos.lastPulse = s.pos.lastPulse ∧ (tablesPass s).pos.msCount = s.pos.msCount ∧
    (tablesPass s).pos.trunRaw = s.pos.trunRaw ∧ (tablesPass s).pos.trunQual = s.pos.trunQual ∧
    (tablesPass s).pos.trunPending = s.pos.trunPending ∧ (tablesPass s).front.covers = s.front.covers ∧
    (tablesPass s).ret.expected = s.ret.expected ∧ (tablesPass s).ret.receiving = s.ret.receiving ∧
    (tablesPass s).fwd = s.fwd ∧ (tablesPass s).trk.lists = s.trk.lists ∧ (tablesPass s).trk.slots = s.trk.slots ∧
    (tablesPass s).jam = s.jam ∧ (tablesPass s).sets = s.sets ∧ (tablesPass s).sup.resetCause = s.sup.resetCause ∧
    (tablesPass s).sup.speedWait = s.sup.speedWait ∧ (tablesPass s).link.rxUpper = s.link.rxUpper ∧
    (tablesPass s).link.rxLower = s.link.rxLower ∧ (tablesPass s).link.commands = s.link.commands ∧
    (tablesPass s).link.holding = s.link.holding ∧ (tablesPass s).link.reports = s.link.reports ∧
    (tablesPass s).link.pathControl = s.link.pathControl ∧ (tablesPass s).link.forwarded = s.link.forwarded ∧
    (tablesPass s).link.linkStarted = s.link.linkStarted ∧ (tablesPass s).link.lowerTx = s.link.lowerTx ∧
    (tablesPass s).link.credit = s.link.credit ∧ (tablesPass s).link.replies = s.link.replies ∧
    (tablesPass s).link.upperTx = s.link.upperTx ∧ (tablesPass s).svc.rx = s.svc.rx ∧
    (tablesPass s).svc.held = s.svc.held ∧ (tablesPass s).svc.claim = s.svc.claim ∧
    (tablesPass s).svc.reply = s.svc.reply ∧ (tablesPass s).svc.tx = s.svc.tx ∧
    (tablesPass s).cap.owner = s.cap.owner ∧ (tablesPass s).cap.mode = s.cap.mode ∧
    (tablesPass s).cap.mask = s.cap.mask := by
  simp only [tablesPass]
  (repeat' split) <;> simp [*]

@[simp] theorem checkTables_frame (s : State) :
    (checkTables s).state.pending = s.pending ∧ (checkTables s).state.load = s.load ∧
    (checkTables s).state.tables.stations = s.tables.stations ∧
    (checkTables s).state.tables.zones = s.tables.zones ∧ (checkTables s).state.tables.guarded = s.tables.guarded ∧
    (checkTables s).state.tables.bins = s.tables.bins ∧ (checkTables s).state.tables.routes = s.tables.routes ∧
    (checkTables s).state.tables.limits = s.tables.limits ∧
    (checkTables s).state.tables.loadResult = s.tables.loadResult ∧ (checkTables s).state.pos.clock = s.pos.clock ∧
    (checkTables s).state.pos.p = s.pos.p ∧ (checkTables s).state.pos.lastPulse = s.pos.lastPulse ∧
    (checkTables s).state.pos.msCount = s.pos.msCount ∧ (checkTables s).state.pos.trunRaw = s.pos.trunRaw ∧
    (checkTables s).state.pos.trunQual = s.pos.trunQual ∧ (checkTables s).state.pos.trunPending = s.pos.trunPending ∧
    (checkTables s).state.front.covers = s.front.covers ∧ (checkTables s).state.ret.expected = s.ret.expected ∧
    (checkTables s).state.ret.receiving = s.ret.receiving ∧ (checkTables s).state.fwd = s.fwd ∧
    (checkTables s).state.trk.lists = s.trk.lists ∧ (checkTables s).state.trk.slots = s.trk.slots ∧
    (checkTables s).state.jam = s.jam ∧ (checkTables s).state.sets = s.sets ∧
    (checkTables s).state.sup.resetCause = s.sup.resetCause ∧ (checkTables s).state.sup.speedWait = s.sup.speedWait ∧
    (checkTables s).state.link.rxUpper = s.link.rxUpper ∧ (checkTables s).state.link.rxLower = s.link.rxLower ∧
    (checkTables s).state.link.commands = s.link.commands ∧ (checkTables s).state.link.holding = s.link.holding ∧
    (checkTables s).state.link.reports = s.link.reports ∧
    (checkTables s).state.link.pathControl = s.link.pathControl ∧
    (checkTables s).state.link.forwarded = s.link.forwarded ∧
    (checkTables s).state.link.linkStarted = s.link.linkStarted ∧
    (checkTables s).state.link.lowerTx = s.link.lowerTx ∧ (checkTables s).state.link.credit = s.link.credit ∧
    (checkTables s).state.link.replies = s.link.replies ∧ (checkTables s).state.link.upperTx = s.link.upperTx ∧
    (checkTables s).state.svc.rx = s.svc.rx ∧ (checkTables s).state.svc.held = s.svc.held ∧
    (checkTables s).state.svc.claim = s.svc.claim ∧ (checkTables s).state.svc.reply = s.svc.reply ∧
    (checkTables s).state.svc.tx = s.svc.tx ∧ (checkTables s).state.cap.owner = s.cap.owner ∧
    (checkTables s).state.cap.mode = s.cap.mode ∧ (checkTables s).state.cap.mask = s.cap.mask := by
  simp only [checkTables]
  (repeat' split) <;> simp [*]

@[simp] theorem releaseHeld_frame (s : State) :
    (releaseHeld s).state.pending = s.pending ∧ (releaseHeld s).state.load = s.load ∧
    (releaseHeld s).state.tables = s.tables ∧
    (releaseHeld s).state.pos.clock = s.pos.clock ∧ (releaseHeld s).state.pos.p = s.pos.p ∧
    (releaseHeld s).state.pos.lastPulse = s.pos.lastPulse ∧ (releaseHeld s).state.pos.msCount = s.pos.msCount ∧
    (releaseHeld s).state.pos.trunRaw = s.pos.trunRaw ∧ (releaseHeld s).state.pos.trunQual = s.pos.trunQual ∧
    (releaseHeld s).state.pos.trunPending = s.pos.trunPending ∧ (releaseHeld s).state.front.covers = s.front.covers ∧
    (releaseHeld s).state.ret.expected = s.ret.expected ∧ (releaseHeld s).state.ret.receiving = s.ret.receiving ∧
    (releaseHeld s).state.fwd.limit = s.fwd.limit ∧ (releaseHeld s).state.fwd.windowHold = s.fwd.windowHold ∧
    (releaseHeld s).state.fwd.speed = s.fwd.speed ∧ (releaseHeld s).state.trk.table = s.trk.table ∧
    (releaseHeld s).state.trk.lists = s.trk.lists ∧ (releaseHeld s).state.trk.slots = s.trk.slots ∧
    (releaseHeld s).state.jam = s.jam ∧ (releaseHeld s).state.plan = s.plan ∧ (releaseHeld s).state.sets = s.sets ∧
    (releaseHeld s).state.sup.resetCause = s.sup.resetCause ∧ (releaseHeld s).state.sup.speedWait = s.sup.speedWait ∧
    (releaseHeld s).state.link.rxUpper = s.link.rxUpper ∧ (releaseHeld s).state.link.rxLower = s.link.rxLower ∧
    (releaseHeld s).state.link.commands = s.link.commands ∧ (releaseHeld s).state.link.holding = s.link.holding ∧
    (releaseHeld s).state.link.reports = s.link.reports ∧
    (releaseHeld s).state.link.linkStarted = s.link.linkStarted ∧
    (releaseHeld s).state.link.lowerTx = s.link.lowerTx ∧ (releaseHeld s).state.link.credit = s.link.credit ∧
    (releaseHeld s).state.link.replies = s.link.replies ∧ (releaseHeld s).state.link.upperTx = s.link.upperTx ∧
    (releaseHeld s).state.svc.rx = s.svc.rx ∧ (releaseHeld s).state.svc.held = s.svc.held ∧
    (releaseHeld s).state.svc.claim = s.svc.claim ∧ (releaseHeld s).state.svc.reply = s.svc.reply ∧
    (releaseHeld s).state.svc.tx = s.svc.tx ∧ (releaseHeld s).state.cap.owner = s.cap.owner ∧
    (releaseHeld s).state.cap.mode = s.cap.mode ∧ (releaseHeld s).state.cap.mask = s.cap.mask ∧
    (releaseHeld s).state.free = s.free := by
  simp only [releaseHeld]
  (repeat' split) <;> simp [*]

@[simp] theorem resume_frame (number : Byte) (s : State) :
    (resume number s).state.pending = s.pending ∧ (resume number s).state.load = s.load ∧
    (resume number s).state.tables = s.tables ∧
    (resume number s).state.pos.clock = s.pos.clock ∧ (resume number s).state.pos.p = s.pos.p ∧
    (resume number s).state.pos.lastPulse = s.pos.lastPulse ∧ (resume number s).state.pos.msCount = s.pos.msCount ∧
    (resume number s).state.pos.trunRaw = s.pos.trunRaw ∧ (resume number s).state.pos.trunQual = s.pos.trunQual ∧
    (resume number s).state.pos.trunPending = s.pos.trunPending ∧
    (resume number s).state.front.covers = s.front.covers ∧ (resume number s).state.ret.expected = s.ret.expected ∧
    (resume number s).state.ret.receiving = s.ret.receiving ∧ (resume number s).state.fwd.speed = s.fwd.speed ∧
    (resume number s).state.plan.counter = s.plan.counter ∧ (resume number s).state.sets.voidOrder = s.sets.voidOrder ∧
    (resume number s).state.sets.records.map (·.name) = s.sets.records.map (·.name) ∧
    (resume number s).state.sup.resetCause = s.sup.resetCause ∧
    (resume number s).state.link.rxUpper = s.link.rxUpper ∧ (resume number s).state.link.rxLower = s.link.rxLower ∧
    (resume number s).state.link.commands = s.link.commands ∧ (resume number s).state.link.holding = s.link.holding ∧
    (resume number s).state.link.reports = s.link.reports ∧
    (resume number s).state.link.linkStarted = s.link.linkStarted ∧
    (resume number s).state.link.lowerTx = s.link.lowerTx ∧ (resume number s).state.link.credit = s.link.credit ∧
    (resume number s).state.link.replies = s.link.replies ∧ (resume number s).state.link.upperTx = s.link.upperTx ∧
    (resume number s).state.svc.rx = s.svc.rx ∧ (resume number s).state.svc.held = s.svc.held ∧
    (resume number s).state.svc.claim = s.svc.claim ∧ (resume number s).state.svc.reply = s.svc.reply ∧
    (resume number s).state.svc.tx = s.svc.tx ∧ (resume number s).state.cap.owner = s.cap.owner ∧
    (resume number s).state.cap.mode = s.cap.mode ∧ (resume number s).state.cap.mask = s.cap.mask := by
  simp only [resume]
  (repeat' split) <;> simp [*]

@[simp] theorem goStandby_frame (s : State) :
    (goStandby s).state.pending = s.pending ∧ (goStandby s).state.load = s.load ∧
    (goStandby s).state.tables = s.tables ∧
    (goStandby s).state.pos.clock = s.pos.clock ∧ (goStandby s).state.pos.p = s.pos.p ∧
    (goStandby s).state.pos.lastPulse = s.pos.lastPulse ∧ (goStandby s).state.pos.msCount = s.pos.msCount ∧
    (goStandby s).state.pos.trunRaw = s.pos.trunRaw ∧ (goStandby s).state.pos.trunQual = s.pos.trunQual ∧
    (goStandby s).state.pos.trunPending = s.pos.trunPending ∧ (goStandby s).state.front.covers = s.front.covers ∧
    (goStandby s).state.ret = s.ret ∧ (goStandby s).state.fwd = s.fwd ∧ (goStandby s).state.trk.table = s.trk.table ∧
    (goStandby s).state.trk.lists = s.trk.lists ∧ (goStandby s).state.trk.slots = s.trk.slots ∧
    (goStandby s).state.jam = s.jam ∧ (goStandby s).state.plan = s.plan ∧ (goStandby s).state.sets = s.sets ∧
    (goStandby s).state.sup.resetCause = s.sup.resetCause ∧ (goStandby s).state.sup.speedWait = s.sup.speedWait ∧
    (goStandby s).state.link.rxUpper = s.link.rxUpper ∧ (goStandby s).state.link.rxLower = s.link.rxLower ∧
    (goStandby s).state.link.commands = s.link.commands ∧ (goStandby s).state.link.holding = s.link.holding ∧
    (goStandby s).state.link.reports = s.link.reports ∧ (goStandby s).state.link.pathControl = s.link.pathControl ∧
    (goStandby s).state.link.forwarded = s.link.forwarded ∧
    (goStandby s).state.link.linkStarted = s.link.linkStarted ∧ (goStandby s).state.link.lowerTx = s.link.lowerTx ∧
    (goStandby s).state.link.credit = s.link.credit ∧ (goStandby s).state.link.replies = s.link.replies ∧
    (goStandby s).state.link.upperTx = s.link.upperTx ∧ (goStandby s).state.svc.rx = s.svc.rx ∧
    (goStandby s).state.svc.held = s.svc.held ∧ (goStandby s).state.svc.claim = s.svc.claim ∧
    (goStandby s).state.svc.reply = s.svc.reply ∧ (goStandby s).state.svc.tx = s.svc.tx ∧
    (goStandby s).state.cap.owner = s.cap.owner ∧ (goStandby s).state.cap.mode = s.cap.mode ∧
    (goStandby s).state.cap.mask = s.cap.mask ∧ (goStandby s).state.free = s.free := by
  simp only [goStandby]
  (repeat' split) <;> simp [*]

@[simp] theorem goWake_frame (s : State) :
    (goWake s).state.pending = s.pending ∧ (goWake s).state.load = s.load ∧ (goWake s).state.tables = s.tables ∧
    (goWake s).state.pos.clock = s.pos.clock ∧ (goWake s).state.pos.p = s.pos.p ∧
    (goWake s).state.pos.lastPulse = s.pos.lastPulse ∧ (goWake s).state.pos.msCount = s.pos.msCount ∧
    (goWake s).state.pos.trunRaw = s.pos.trunRaw ∧ (goWake s).state.pos.trunQual = s.pos.trunQual ∧
    (goWake s).state.pos.trunPending = s.pos.trunPending ∧ (goWake s).state.front.covers = s.front.covers ∧
    (goWake s).state.ret = s.ret ∧ (goWake s).state.fwd = s.fwd ∧ (goWake s).state.trk.table = s.trk.table ∧
    (goWake s).state.trk.lists = s.trk.lists ∧ (goWake s).state.trk.slots = s.trk.slots ∧
    (goWake s).state.jam = s.jam ∧ (goWake s).state.plan = s.plan ∧ (goWake s).state.sets = s.sets ∧
    (goWake s).state.sup.resetCause = s.sup.resetCause ∧ (goWake s).state.sup.speedWait = s.sup.speedWait ∧
    (goWake s).state.link.rxUpper = s.link.rxUpper ∧ (goWake s).state.link.rxLower = s.link.rxLower ∧
    (goWake s).state.link.commands = s.link.commands ∧ (goWake s).state.link.holding = s.link.holding ∧
    (goWake s).state.link.reports = s.link.reports ∧ (goWake s).state.link.pathControl = s.link.pathControl ∧
    (goWake s).state.link.forwarded = s.link.forwarded ∧ (goWake s).state.link.linkStarted = s.link.linkStarted ∧
    (goWake s).state.link.lowerTx = s.link.lowerTx ∧ (goWake s).state.link.credit = s.link.credit ∧
    (goWake s).state.link.replies = s.link.replies ∧ (goWake s).state.link.upperTx = s.link.upperTx ∧
    (goWake s).state.svc.rx = s.svc.rx ∧ (goWake s).state.svc.held = s.svc.held ∧
    (goWake s).state.svc.claim = s.svc.claim ∧ (goWake s).state.svc.reply = s.svc.reply ∧
    (goWake s).state.svc.tx = s.svc.tx ∧ (goWake s).state.cap.owner = s.cap.owner ∧
    (goWake s).state.cap.mode = s.cap.mode ∧ (goWake s).state.cap.mask = s.cap.mask ∧
    (goWake s).state.free = s.free := by
  simp only [goWake]
  (repeat' split) <;> simp [*]

@[simp] theorem speedReached_frame (c : SpeedClass) (s : State) :
    (speedReached c s).pending = s.pending ∧ (speedReached c s).load = s.load ∧ (speedReached c s).tables = s.tables ∧
    (speedReached c s).pos.clock = s.pos.clock ∧ (speedReached c s).pos.p = s.pos.p ∧
    (speedReached c s).pos.lastPulse = s.pos.lastPulse ∧ (speedReached c s).pos.msCount = s.pos.msCount ∧
    (speedReached c s).pos.trunRaw = s.pos.trunRaw ∧ (speedReached c s).pos.trunQual = s.pos.trunQual ∧
    (speedReached c s).pos.trunPending = s.pos.trunPending ∧ (speedReached c s).front.covers = s.front.covers ∧
    (speedReached c s).ret.expected = s.ret.expected ∧ (speedReached c s).ret.receiving = s.ret.receiving ∧
    (speedReached c s).fwd.limit = s.fwd.limit ∧ (speedReached c s).fwd.windowHold = s.fwd.windowHold ∧
    (speedReached c s).trk.table = s.trk.table ∧ (speedReached c s).trk.lists = s.trk.lists ∧
    (speedReached c s).trk.slots = s.trk.slots ∧ (speedReached c s).jam = s.jam ∧ (speedReached c s).plan = s.plan ∧
    (speedReached c s).sets = s.sets ∧ (speedReached c s).sup.resetCause = s.sup.resetCause ∧
    (speedReached c s).link.rxUpper = s.link.rxUpper ∧ (speedReached c s).link.rxLower = s.link.rxLower ∧
    (speedReached c s).link.commands = s.link.commands ∧ (speedReached c s).link.holding = s.link.holding ∧
    (speedReached c s).link.reports = s.link.reports ∧ (speedReached c s).link.linkStarted = s.link.linkStarted ∧
    (speedReached c s).link.lowerTx = s.link.lowerTx ∧ (speedReached c s).link.credit = s.link.credit ∧
    (speedReached c s).link.replies = s.link.replies ∧ (speedReached c s).link.upperTx = s.link.upperTx ∧
    (speedReached c s).svc.rx = s.svc.rx ∧ (speedReached c s).svc.held = s.svc.held ∧
    (speedReached c s).svc.claim = s.svc.claim ∧ (speedReached c s).svc.reply = s.svc.reply ∧
    (speedReached c s).svc.tx = s.svc.tx ∧ (speedReached c s).cap.owner = s.cap.owner ∧
    (speedReached c s).cap.mode = s.cap.mode ∧ (speedReached c s).cap.mask = s.cap.mask ∧
    (speedReached c s).free = s.free := by
  simp only [speedReached]
  (repeat' split) <;> simp [*]

@[simp] theorem takeSpeedReady_frame (cls : Byte) (s : State) :
    (takeSpeedReady cls s).pending = s.pending ∧ (takeSpeedReady cls s).load = s.load ∧
    (takeSpeedReady cls s).tables = s.tables ∧
    (takeSpeedReady cls s).pos.clock = s.pos.clock ∧ (takeSpeedReady cls s).pos.p = s.pos.p ∧
    (takeSpeedReady cls s).pos.lastPulse = s.pos.lastPulse ∧ (takeSpeedReady cls s).pos.msCount = s.pos.msCount ∧
    (takeSpeedReady cls s).pos.trunRaw = s.pos.trunRaw ∧ (takeSpeedReady cls s).pos.trunQual = s.pos.trunQual ∧
    (takeSpeedReady cls s).pos.trunPending = s.pos.trunPending ∧
    (takeSpeedReady cls s).front.covers = s.front.covers ∧ (takeSpeedReady cls s).ret.expected = s.ret.expected ∧
    (takeSpeedReady cls s).ret.receiving = s.ret.receiving ∧ (takeSpeedReady cls s).fwd.limit = s.fwd.limit ∧
    (takeSpeedReady cls s).fwd.windowHold = s.fwd.windowHold ∧ (takeSpeedReady cls s).trk.table = s.trk.table ∧
    (takeSpeedReady cls s).trk.lists = s.trk.lists ∧ (takeSpeedReady cls s).trk.slots = s.trk.slots ∧
    (takeSpeedReady cls s).jam = s.jam ∧ (takeSpeedReady cls s).plan = s.plan ∧ (takeSpeedReady cls s).sets = s.sets ∧
    (takeSpeedReady cls s).sup.resetCause = s.sup.resetCause ∧ (takeSpeedReady cls s).link.rxUpper = s.link.rxUpper ∧
    (takeSpeedReady cls s).link.rxLower = s.link.rxLower ∧ (takeSpeedReady cls s).link.commands = s.link.commands ∧
    (takeSpeedReady cls s).link.holding = s.link.holding ∧ (takeSpeedReady cls s).link.reports = s.link.reports ∧
    (takeSpeedReady cls s).link.linkStarted = s.link.linkStarted ∧
    (takeSpeedReady cls s).link.lowerTx = s.link.lowerTx ∧ (takeSpeedReady cls s).link.credit = s.link.credit ∧
    (takeSpeedReady cls s).link.replies = s.link.replies ∧ (takeSpeedReady cls s).link.upperTx = s.link.upperTx ∧
    (takeSpeedReady cls s).svc.rx = s.svc.rx ∧ (takeSpeedReady cls s).svc.held = s.svc.held ∧
    (takeSpeedReady cls s).svc.claim = s.svc.claim ∧ (takeSpeedReady cls s).svc.reply = s.svc.reply ∧
    (takeSpeedReady cls s).svc.tx = s.svc.tx ∧ (takeSpeedReady cls s).cap.owner = s.cap.owner ∧
    (takeSpeedReady cls s).cap.mode = s.cap.mode ∧ (takeSpeedReady cls s).cap.mask = s.cap.mask ∧
    (takeSpeedReady cls s).free = s.free := by
  simp only [takeSpeedReady]
  (repeat' split) <;> simp [*]

@[simp] theorem discardJob_frame (s : State) :
    (discardJob s).pending = s.pending ∧ (discardJob s).load = s.load ∧ (discardJob s).tables = s.tables ∧
    (discardJob s).reached = .nothing ∧ (discardJob s).pos = s.pos ∧
    (discardJob s).front = s.front ∧ (discardJob s).fwd.f = s.fwd.f ∧ (discardJob s).fwd.limit = s.fwd.limit ∧
    (discardJob s).fwd.windowHold = s.fwd.windowHold ∧ (discardJob s).fwd.speed = s.fwd.speed ∧
    (discardJob s).plan.counter = s.plan.counter ∧ (discardJob s).sup.state = s.sup.state ∧
    (discardJob s).sup.pathHalt = s.sup.pathHalt ∧ (discardJob s).link.rxUpper = s.link.rxUpper ∧
    (discardJob s).link.rxLower = s.link.rxLower ∧ (discardJob s).link.commands = s.link.commands ∧
    (discardJob s).link.holding = s.link.holding ∧ (discardJob s).link.reports = s.link.reports ∧
    (discardJob s).link.pathControl = s.link.pathControl ∧ (discardJob s).link.linkStarted = s.link.linkStarted ∧
    (discardJob s).link.credit = s.link.credit ∧ (discardJob s).link.replies = s.link.replies ∧
    (discardJob s).link.notices = s.link.notices ∧ (discardJob s).link.lossCount = s.link.lossCount ∧
    (discardJob s).link.upperTx = s.link.upperTx ∧ (discardJob s).svc = s.svc ∧ (discardJob s).cap.mode = s.cap.mode ∧
    (discardJob s).cap.mask = s.cap.mask ∧ (discardJob s).free = s.free := by
  simp only [discardJob, captureAfterLinkReset]
  split <;> simp

@[simp] theorem pathLostStop_frame (s : State) :
    (pathLostStop s).pending = s.pending ∧ (pathLostStop s).load = s.load ∧ (pathLostStop s).tables = s.tables ∧
    (pathLostStop s).pos.clock = s.pos.clock ∧ (pathLostStop s).pos.p = s.pos.p ∧
    (pathLostStop s).pos.lastPulse = s.pos.lastPulse ∧ (pathLostStop s).pos.msCount = s.pos.msCount ∧
    (pathLostStop s).pos.trunRaw = s.pos.trunRaw ∧ (pathLostStop s).pos.trunQual = s.pos.trunQual ∧
    (pathLostStop s).pos.trunPending = s.pos.trunPending ∧ (pathLostStop s).front.covers = s.front.covers ∧
    (pathLostStop s).ret = s.ret ∧ (pathLostStop s).fwd = s.fwd ∧ (pathLostStop s).trk.table = s.trk.table ∧
    (pathLostStop s).trk.lists = s.trk.lists ∧ (pathLostStop s).trk.slots = s.trk.slots ∧
    (pathLostStop s).jam.deferred = s.jam.deferred ∧ (pathLostStop s).plan = s.plan ∧ (pathLostStop s).sets = s.sets ∧
    (pathLostStop s).sup.resetCause = s.sup.resetCause ∧ (pathLostStop s).sup.speedWait = s.sup.speedWait ∧
    (pathLostStop s).link.rxUpper = s.link.rxUpper ∧ (pathLostStop s).link.rxLower = s.link.rxLower ∧
    (pathLostStop s).link.commands = s.link.commands ∧ (pathLostStop s).link.holding = s.link.holding ∧
    (pathLostStop s).link.reports = s.link.reports ∧ (pathLostStop s).link.pathControl = s.link.pathControl ∧
    (pathLostStop s).link.forwarded = s.link.forwarded ∧ (pathLostStop s).link.linkStarted = s.link.linkStarted ∧
    (pathLostStop s).link.lowerTx = s.link.lowerTx ∧ (pathLostStop s).link.credit = s.link.credit ∧
    (pathLostStop s).link.replies = s.link.replies ∧ (pathLostStop s).link.upperTx = s.link.upperTx ∧
    (pathLostStop s).svc.rx = s.svc.rx ∧ (pathLostStop s).svc.held = s.svc.held ∧
    (pathLostStop s).svc.claim = s.svc.claim ∧ (pathLostStop s).svc.reply = s.svc.reply ∧
    (pathLostStop s).svc.tx = s.svc.tx ∧ (pathLostStop s).cap.owner = s.cap.owner ∧
    (pathLostStop s).cap.mode = s.cap.mode ∧ (pathLostStop s).cap.mask = s.cap.mask := by
  simp only [pathLostStop]
  (repeat' split) <;> simp [*]

@[simp] theorem afterLinkReset_frame (tracked : Bool) (s : State) :
    (afterLinkReset tracked s).pending = s.pending ∧ (afterLinkReset tracked s).load = s.load ∧
    (afterLinkReset tracked s).tables = s.tables ∧
    (afterLinkReset tracked s).pos.clock = s.pos.clock ∧ (afterLinkReset tracked s).pos.p = s.pos.p ∧
    (afterLinkReset tracked s).pos.lastPulse = s.pos.lastPulse ∧
    (afterLinkReset tracked s).pos.msCount = s.pos.msCount ∧ (afterLinkReset tracked s).pos.trunRaw = s.pos.trunRaw ∧
    (afterLinkReset tracked s).pos.trunQual = s.pos.trunQual ∧
    (afterLinkReset tracked s).pos.trunPending = s.pos.trunPending ∧
    (afterLinkReset tracked s).front.covers = s.front.covers ∧
    (afterLinkReset tracked s).ret.expected = s.ret.expected ∧
    (afterLinkReset tracked s).ret.receiving = s.ret.receiving ∧ (afterLinkReset tracked s).fwd = s.fwd ∧
    (afterLinkReset tracked s).trk.lists = s.trk.lists ∧ (afterLinkReset tracked s).trk.slots = s.trk.slots ∧
    (afterLinkReset tracked s).jam.deferred = s.jam.deferred ∧ (afterLinkReset tracked s).sets = s.sets ∧
    (afterLinkReset tracked s).sup.resetCause = s.sup.resetCause ∧
    (afterLinkReset tracked s).sup.speedWait = s.sup.speedWait ∧
    (afterLinkReset tracked s).link.rxUpper = s.link.rxUpper ∧
    (afterLinkReset tracked s).link.rxLower = s.link.rxLower ∧
    (afterLinkReset tracked s).link.commands = s.link.commands ∧
    (afterLinkReset tracked s).link.holding = s.link.holding ∧
    (afterLinkReset tracked s).link.reports = s.link.reports ∧
    (afterLinkReset tracked s).link.pathControl = s.link.pathControl ∧
    (afterLinkReset tracked s).link.forwarded = s.link.forwarded ∧
    (afterLinkReset tracked s).link.linkStarted = s.link.linkStarted ∧
    (afterLinkReset tracked s).link.lowerTx = s.link.lowerTx ∧
    (afterLinkReset tracked s).link.credit = s.link.credit ∧
    (afterLinkReset tracked s).link.replies = s.link.replies ∧
    (afterLinkReset tracked s).link.upperTx = s.link.upperTx ∧ (afterLinkReset tracked s).svc.rx = s.svc.rx ∧
    (afterLinkReset tracked s).svc.held = s.svc.held ∧ (afterLinkReset tracked s).svc.claim = s.svc.claim ∧
    (afterLinkReset tracked s).svc.reply = s.svc.reply ∧ (afterLinkReset tracked s).svc.tx = s.svc.tx ∧
    (afterLinkReset tracked s).cap.owner = s.cap.owner ∧ (afterLinkReset tracked s).cap.mode = s.cap.mode ∧
    (afterLinkReset tracked s).cap.mask = s.cap.mask := by
  simp only [afterLinkReset]
  (repeat' split) <;> simp [*]

@[simp] theorem linkReset_frame (s : State) :
    (linkReset s).pending = s.pending ∧ (linkReset s).load = s.load ∧ (linkReset s).tables = s.tables ∧
    (linkReset s).pos.clock = s.pos.clock ∧
    (linkReset s).pos.p = s.pos.p ∧ (linkReset s).pos.lastPulse = s.pos.lastPulse ∧
    (linkReset s).pos.msCount = s.pos.msCount ∧ (linkReset s).pos.trunRaw = s.pos.trunRaw ∧
    (linkReset s).pos.trunQual = s.pos.trunQual ∧ (linkReset s).pos.trunPending = s.pos.trunPending ∧
    (linkReset s).front.covers = s.front.covers ∧ (linkReset s).fwd.f = s.fwd.f ∧
    (linkReset s).fwd.speed = s.fwd.speed ∧ (linkReset s).link.rxUpper = s.link.rxUpper ∧
    (linkReset s).link.rxLower = s.link.rxLower ∧ (linkReset s).link.commands = s.link.commands ∧
    (linkReset s).link.holding = s.link.holding ∧ (linkReset s).link.reports = s.link.reports ∧
    (linkReset s).link.linkStarted = s.link.linkStarted ∧ (linkReset s).link.replies = s.link.replies ∧
    (linkReset s).link.upperTx = s.link.upperTx ∧ (linkReset s).svc.rx = s.svc.rx ∧
    (linkReset s).svc.held = s.svc.held ∧ (linkReset s).svc.claim = s.svc.claim ∧
    (linkReset s).svc.reply = s.svc.reply ∧ (linkReset s).svc.tx = s.svc.tx ∧ (linkReset s).cap.mode = s.cap.mode ∧
    (linkReset s).cap.mask = s.cap.mask := by
  simp only [linkReset]
  (repeat' split) <;> simp [*]

@[simp] theorem resetPart_frame (port : MgmtPort) (s : State) :
    (resetPart port s).state.pending = s.pending ∧ (resetPart port s).state.load = s.load ∧
    (resetPart port s).state.tables = s.tables ∧
    (resetPart port s).state.pos.clock = s.pos.clock ∧ (resetPart port s).state.pos.p = s.pos.p ∧
    (resetPart port s).state.pos.lastPulse = s.pos.lastPulse ∧ (resetPart port s).state.pos.msCount = s.pos.msCount ∧
    (resetPart port s).state.pos.trunRaw = s.pos.trunRaw ∧ (resetPart port s).state.pos.trunQual = s.pos.trunQual ∧
    (resetPart port s).state.pos.trunPending = s.pos.trunPending ∧
    (resetPart port s).state.front.covers = s.front.covers ∧ (resetPart port s).state.fwd.f = s.fwd.f ∧
    (resetPart port s).state.fwd.speed = s.fwd.speed ∧ (resetPart port s).state.link.rxUpper = s.link.rxUpper ∧
    (resetPart port s).state.link.rxLower = s.link.rxLower ∧
    (resetPart port s).state.link.commands = s.link.commands ∧
    (resetPart port s).state.link.holding = s.link.holding ∧ (resetPart port s).state.link.reports = s.link.reports ∧
    (resetPart port s).state.link.linkStarted = s.link.linkStarted ∧
    (resetPart port s).state.link.replies = s.link.replies ∧ (resetPart port s).state.link.upperTx = s.link.upperTx ∧
    (resetPart port s).state.svc.rx = s.svc.rx ∧ (resetPart port s).state.svc.held = s.svc.held ∧
    (resetPart port s).state.svc.claim = s.svc.claim ∧ (resetPart port s).state.svc.reply = s.svc.reply ∧
    (resetPart port s).state.svc.tx = s.svc.tx ∧ (resetPart port s).state.cap.mode = s.cap.mode ∧
    (resetPart port s).state.cap.mask = s.cap.mask := by
  simp only [resetPart]
  (repeat' split) <;> simp [*]

@[simp] theorem setOwner_frame (o : Owner) (s : State) :
    (setOwner o s).pending = s.pending ∧ (setOwner o s).load = s.load ∧ (setOwner o s).tables = s.tables ∧
    (setOwner o s).reached = s.reached ∧ (setOwner o s).pos = s.pos ∧
    (setOwner o s).front = s.front ∧ (setOwner o s).ret = s.ret ∧ (setOwner o s).fwd = s.fwd ∧
    (setOwner o s).trk = s.trk ∧ (setOwner o s).jam = s.jam ∧ (setOwner o s).plan = s.plan ∧
    (setOwner o s).sets = s.sets ∧ (setOwner o s).sup = s.sup ∧ (setOwner o s).link = s.link ∧
    (setOwner o s).svc.rx = s.svc.rx ∧ (setOwner o s).svc.held = s.svc.held ∧ (setOwner o s).svc.reply = s.svc.reply ∧
    (setOwner o s).svc.notices = s.svc.notices ∧ (setOwner o s).svc.tx = s.svc.tx ∧
    (setOwner o s).cap.mode = s.cap.mode ∧ (setOwner o s).cap.mask = s.cap.mask ∧ (setOwner o s).free = s.free := by
  simp only [setOwner]
  (repeat' split) <;> simp [*]

@[simp] theorem claimCapture_frame (port : MgmtPort) (force : Byte) (s : State) :
    (claimCapture port force s).state.pending = s.pending ∧ (claimCapture port force s).state.load = s.load ∧
    (claimCapture port force s).state.tables = s.tables ∧
    (claimCapture port force s).state.pos = s.pos ∧ (claimCapture port force s).state.front = s.front ∧
    (claimCapture port force s).state.ret = s.ret ∧ (claimCapture port force s).state.fwd = s.fwd ∧
    (claimCapture port force s).state.trk = s.trk ∧ (claimCapture port force s).state.jam = s.jam ∧
    (claimCapture port force s).state.plan = s.plan ∧ (claimCapture port force s).state.sets = s.sets ∧
    (claimCapture port force s).state.sup = s.sup ∧ (claimCapture port force s).state.link.rxUpper = s.link.rxUpper ∧
    (claimCapture port force s).state.link.rxLower = s.link.rxLower ∧
    (claimCapture port force s).state.link.commands = s.link.commands ∧
    (claimCapture port force s).state.link.holding = s.link.holding ∧
    (claimCapture port force s).state.link.reports = s.link.reports ∧
    (claimCapture port force s).state.link.pathControl = s.link.pathControl ∧
    (claimCapture port force s).state.link.forwarded = s.link.forwarded ∧
    (claimCapture port force s).state.link.linkStarted = s.link.linkStarted ∧
    (claimCapture port force s).state.link.lowerTx = s.link.lowerTx ∧
    (claimCapture port force s).state.link.credit = s.link.credit ∧
    (claimCapture port force s).state.link.replies = s.link.replies ∧
    (claimCapture port force s).state.link.upperTx = s.link.upperTx ∧
    (claimCapture port force s).state.svc.rx = s.svc.rx ∧ (claimCapture port force s).state.svc.held = s.svc.held ∧
    (claimCapture port force s).state.svc.reply = s.svc.reply ∧
    (claimCapture port force s).state.svc.notices = s.svc.notices ∧
    (claimCapture port force s).state.svc.tx = s.svc.tx ∧ (claimCapture port force s).state.cap.mode = s.cap.mode ∧
    (claimCapture port force s).state.cap.mask = s.cap.mask ∧ (claimCapture port force s).state.free = s.free := by
  simp only [claimCapture, claimed]
  (repeat' split) <;> simp

@[simp] theorem releaseCapture_frame (port : MgmtPort) (s : State) :
    (releaseCapture port s).state.pending = s.pending ∧ (releaseCapture port s).state.load = s.load ∧
    (releaseCapture port s).state.tables = s.tables ∧
    (releaseCapture port s).state.pos = s.pos ∧ (releaseCapture port s).state.front = s.front ∧
    (releaseCapture port s).state.ret = s.ret ∧ (releaseCapture port s).state.fwd = s.fwd ∧
    (releaseCapture port s).state.trk = s.trk ∧ (releaseCapture port s).state.jam = s.jam ∧
    (releaseCapture port s).state.plan = s.plan ∧ (releaseCapture port s).state.sets = s.sets ∧
    (releaseCapture port s).state.sup = s.sup ∧ (releaseCapture port s).state.link = s.link ∧
    (releaseCapture port s).state.svc.rx = s.svc.rx ∧ (releaseCapture port s).state.svc.held = s.svc.held ∧
    (releaseCapture port s).state.svc.reply = s.svc.reply ∧
    (releaseCapture port s).state.svc.notices = s.svc.notices ∧ (releaseCapture port s).state.svc.tx = s.svc.tx ∧
    (releaseCapture port s).state.cap.mode = s.cap.mode ∧ (releaseCapture port s).state.cap.mask = s.cap.mask ∧
    (releaseCapture port s).state.free = s.free := by
  simp only [releaseCapture]
  (repeat' split) <;> simp [*]

@[simp] theorem armCapture_frame (port : MgmtPort) (args : List Byte) (s : State) :
    (armCapture port args s).state.pending = s.pending ∧ (armCapture port args s).state.load = s.load ∧
    (armCapture port args s).state.tables = s.tables ∧
    (armCapture port args s).state.pos = s.pos ∧ (armCapture port args s).state.front = s.front ∧
    (armCapture port args s).state.ret = s.ret ∧ (armCapture port args s).state.fwd = s.fwd ∧
    (armCapture port args s).state.trk = s.trk ∧ (armCapture port args s).state.jam = s.jam ∧
    (armCapture port args s).state.plan = s.plan ∧ (armCapture port args s).state.sets = s.sets ∧
    (armCapture port args s).state.sup = s.sup ∧ (armCapture port args s).state.link = s.link ∧
    (armCapture port args s).state.svc = s.svc ∧ (armCapture port args s).state.cap.owner = s.cap.owner ∧
    (armCapture port args s).state.free = s.free := by
  simp only [armCapture]
  (repeat' split) <;> simp [armed, *]

@[simp] theorem readCapture_frame (port : MgmtPort) (start : Word) (s : State) :
    (readCapture port start s).state.pending = s.pending ∧ (readCapture port start s).state.load = s.load ∧
    (readCapture port start s).state.tables = s.tables ∧
    (readCapture port start s).state.pos = s.pos ∧ (readCapture port start s).state.front = s.front ∧
    (readCapture port start s).state.ret = s.ret ∧ (readCapture port start s).state.fwd = s.fwd ∧
    (readCapture port start s).state.trk = s.trk ∧ (readCapture port start s).state.jam = s.jam ∧
    (readCapture port start s).state.plan = s.plan ∧ (readCapture port start s).state.sets = s.sets ∧
    (readCapture port start s).state.sup = s.sup ∧ (readCapture port start s).state.link = s.link ∧
    (readCapture port start s).state.svc = s.svc ∧ (readCapture port start s).state.cap = s.cap ∧
    (readCapture port start s).state.reached = s.reached ∧ (readCapture port start s).state.free = s.free := by
  simp only [readCapture]
  (repeat' split) <;> simp [*]

@[simp] theorem unexpectedFinisher_frame (kind bin set : Byte) (s : State) :
    (unexpectedFinisher kind bin set s).pending = s.pending ∧ (unexpectedFinisher kind bin set s).load = s.load ∧
    (unexpectedFinisher kind bin set s).tables = s.tables ∧
    (unexpectedFinisher kind bin set s).reached = s.reached ∧ (unexpectedFinisher kind bin set s).pos = s.pos ∧ (unexpectedFinisher kind bin set s).front = s.front ∧
    (unexpectedFinisher kind bin set s).ret = s.ret ∧ (unexpectedFinisher kind bin set s).fwd = s.fwd ∧
    (unexpectedFinisher kind bin set s).trk = s.trk ∧ (unexpectedFinisher kind bin set s).jam = s.jam ∧
    (unexpectedFinisher kind bin set s).plan = s.plan ∧ (unexpectedFinisher kind bin set s).sets = s.sets ∧
    (unexpectedFinisher kind bin set s).sup = s.sup ∧
    (unexpectedFinisher kind bin set s).link.rxUpper = s.link.rxUpper ∧
    (unexpectedFinisher kind bin set s).link.rxLower = s.link.rxLower ∧
    (unexpectedFinisher kind bin set s).link.commands = s.link.commands ∧
    (unexpectedFinisher kind bin set s).link.holding = s.link.holding ∧
    (unexpectedFinisher kind bin set s).link.reports = s.link.reports ∧
    (unexpectedFinisher kind bin set s).link.pathControl = s.link.pathControl ∧
    (unexpectedFinisher kind bin set s).link.forwarded = s.link.forwarded ∧
    (unexpectedFinisher kind bin set s).link.linkStarted = s.link.linkStarted ∧
    (unexpectedFinisher kind bin set s).link.lowerTx = s.link.lowerTx ∧
    (unexpectedFinisher kind bin set s).link.credit = s.link.credit ∧
    (unexpectedFinisher kind bin set s).link.replies = s.link.replies ∧
    (unexpectedFinisher kind bin set s).link.upperTx = s.link.upperTx ∧
    (unexpectedFinisher kind bin set s).svc = s.svc ∧ (unexpectedFinisher kind bin set s).cap = s.cap ∧
    (unexpectedFinisher kind bin set s).free = s.free := by
  simp only [unexpectedFinisher]
  (repeat' split) <;> simp [*]

@[simp] theorem commitMember_frame (s : State) (e : Entry) :
    (commitMember s e).pending = s.pending ∧ (commitMember s e).load = s.load ∧
    (commitMember s e).tables = s.tables ∧ (commitMember s e).reached = s.reached ∧ (commitMember s e).pos = s.pos ∧
    (commitMember s e).front = s.front ∧ (commitMember s e).ret.expected = s.ret.expected ∧
    (commitMember s e).ret.receiving = s.ret.receiving ∧ (commitMember s e).fwd = s.fwd ∧
    (commitMember s e).trk = s.trk ∧ (commitMember s e).jam = s.jam ∧ (commitMember s e).plan = s.plan ∧
    (commitMember s e).sets = s.sets ∧ (commitMember s e).sup = s.sup ∧
    (commitMember s e).link.rxUpper = s.link.rxUpper ∧ (commitMember s e).link.rxLower = s.link.rxLower ∧
    (commitMember s e).link.commands = s.link.commands ∧ (commitMember s e).link.holding = s.link.holding ∧
    (commitMember s e).link.reports = s.link.reports ∧ (commitMember s e).link.pathControl = s.link.pathControl ∧
    (commitMember s e).link.forwarded = s.link.forwarded ∧ (commitMember s e).link.linkStarted = s.link.linkStarted ∧
    (commitMember s e).link.lowerTx = s.link.lowerTx ∧ (commitMember s e).link.credit = s.link.credit ∧
    (commitMember s e).link.replies = s.link.replies ∧ (commitMember s e).link.upperTx = s.link.upperTx ∧
    (commitMember s e).svc.rx = s.svc.rx ∧ (commitMember s e).svc.held = s.svc.held ∧
    (commitMember s e).svc.claim = s.svc.claim ∧ (commitMember s e).svc.reply = s.svc.reply ∧
    (commitMember s e).svc.tx = s.svc.tx ∧ (commitMember s e).cap.owner = s.cap.owner ∧
    (commitMember s e).cap.mode = s.cap.mode ∧ (commitMember s e).cap.mask = s.cap.mask ∧
    (commitMember s e).free = s.free := by
  simp only [commitMember]
  (repeat' split) <;> simp [*]

theorem commitMember_fold (l : List Entry) (s t : State)
    (h : t = l.foldl (commitMember) s) :
    t.pending = s.pending ∧ t.load = s.load ∧ t.tables = s.tables ∧ t.reached = s.reached ∧ t.pos = s.pos ∧ t.front = s.front ∧
    t.ret.expected = s.ret.expected ∧ t.ret.receiving = s.ret.receiving ∧ t.fwd = s.fwd ∧ t.trk = s.trk ∧
    t.jam = s.jam ∧ t.plan = s.plan ∧ t.sets = s.sets ∧ t.sup = s.sup ∧ t.link.rxUpper = s.link.rxUpper ∧
    t.link.rxLower = s.link.rxLower ∧ t.link.commands = s.link.commands ∧ t.link.holding = s.link.holding ∧
    t.link.reports = s.link.reports ∧ t.link.pathControl = s.link.pathControl ∧ t.link.forwarded = s.link.forwarded ∧
    t.link.linkStarted = s.link.linkStarted ∧ t.link.lowerTx = s.link.lowerTx ∧ t.link.credit = s.link.credit ∧
    t.link.replies = s.link.replies ∧ t.link.upperTx = s.link.upperTx ∧ t.svc.rx = s.svc.rx ∧
    t.svc.held = s.svc.held ∧ t.svc.claim = s.svc.claim ∧ t.svc.reply = s.svc.reply ∧ t.svc.tx = s.svc.tx ∧
    t.cap.owner = s.cap.owner ∧ t.cap.mode = s.cap.mode ∧ t.cap.mask = s.cap.mask ∧ t.free = s.free := by
  subst h
  induction l generalizing s with
  | nil => simp
  | cons a l ih => rw [List.foldl_cons]; simp [ih]; try (split <;> simp)

@[simp] theorem commitMembers_frame (r : SetRec) (s : State) :
    (commitMembers r s).pending = s.pending ∧ (commitMembers r s).load = s.load ∧
    (commitMembers r s).tables = s.tables ∧
    (commitMembers r s).reached = s.reached ∧ (commitMembers r s).pos = s.pos ∧ (commitMembers r s).front = s.front ∧
    (commitMembers r s).ret.expected = s.ret.expected ∧ (commitMembers r s).ret.receiving = s.ret.receiving ∧
    (commitMembers r s).fwd = s.fwd ∧ (commitMembers r s).trk = s.trk ∧ (commitMembers r s).jam = s.jam ∧
    (commitMembers r s).plan = s.plan ∧ (commitMembers r s).sets = s.sets ∧ (commitMembers r s).sup = s.sup ∧
    (commitMembers r s).link.rxUpper = s.link.rxUpper ∧ (commitMembers r s).link.rxLower = s.link.rxLower ∧
    (commitMembers r s).link.commands = s.link.commands ∧ (commitMembers r s).link.holding = s.link.holding ∧
    (commitMembers r s).link.reports = s.link.reports ∧ (commitMembers r s).link.pathControl = s.link.pathControl ∧
    (commitMembers r s).link.forwarded = s.link.forwarded ∧
    (commitMembers r s).link.linkStarted = s.link.linkStarted ∧ (commitMembers r s).link.lowerTx = s.link.lowerTx ∧
    (commitMembers r s).link.credit = s.link.credit ∧ (commitMembers r s).link.replies = s.link.replies ∧
    (commitMembers r s).link.upperTx = s.link.upperTx ∧ (commitMembers r s).svc.rx = s.svc.rx ∧
    (commitMembers r s).svc.held = s.svc.held ∧ (commitMembers r s).svc.claim = s.svc.claim ∧
    (commitMembers r s).svc.reply = s.svc.reply ∧ (commitMembers r s).svc.tx = s.svc.tx ∧
    (commitMembers r s).cap.owner = s.cap.owner ∧ (commitMembers r s).cap.mode = s.cap.mode ∧
    (commitMembers r s).cap.mask = s.cap.mask ∧ (commitMembers r s).free = s.free := by
  simp only [commitMembers]
  simp [commitMember_fold _ _ _ rfl]

@[simp] theorem stopConfirm_frame (n : SetName) (s : State) :
    (stopConfirm n s).pending = s.pending ∧ (stopConfirm n s).load = s.load ∧ (stopConfirm n s).tables = s.tables ∧
    (stopConfirm n s).reached = s.reached ∧ (stopConfirm n s).pos = s.pos ∧
    (stopConfirm n s).front = s.front ∧ (stopConfirm n s).ret = s.ret ∧ (stopConfirm n s).fwd = s.fwd ∧
    (stopConfirm n s).trk = s.trk ∧ (stopConfirm n s).jam = s.jam ∧ (stopConfirm n s).plan = s.plan ∧
    (stopConfirm n s).sets.voidOrder = s.sets.voidOrder ∧ (stopConfirm n s).sup = s.sup ∧
    (stopConfirm n s).link = s.link ∧ (stopConfirm n s).svc = s.svc ∧ (stopConfirm n s).cap = s.cap ∧
    (stopConfirm n s).free = s.free := by
  simp only [stopConfirm]
  (repeat' split) <;> simp [*]

@[simp] theorem faultSet_frame (n : SetName) (s : State) :
    (faultSet n s).pending = s.pending ∧ (faultSet n s).load = s.load ∧ (faultSet n s).tables = s.tables ∧
    (faultSet n s).pos.clock = s.pos.clock ∧
    (faultSet n s).pos.p = s.pos.p ∧ (faultSet n s).pos.lastPulse = s.pos.lastPulse ∧
    (faultSet n s).pos.msCount = s.pos.msCount ∧ (faultSet n s).pos.trunRaw = s.pos.trunRaw ∧
    (faultSet n s).pos.trunQual = s.pos.trunQual ∧ (faultSet n s).pos.trunPending = s.pos.trunPending ∧
    (faultSet n s).front.covers = s.front.covers ∧ (faultSet n s).ret.expected = s.ret.expected ∧
    (faultSet n s).ret.receiving = s.ret.receiving ∧ (faultSet n s).fwd.f = s.fwd.f ∧
    (faultSet n s).fwd.speed = s.fwd.speed ∧ (faultSet n s).trk.table = s.trk.table ∧
    (faultSet n s).trk.lists = s.trk.lists ∧ (faultSet n s).trk.slots = s.trk.slots ∧ (faultSet n s).plan = s.plan ∧
    (faultSet n s).sets.voidOrder = s.sets.voidOrder ∧ (faultSet n s).sup.resetCause = s.sup.resetCause ∧
    (faultSet n s).link.rxUpper = s.link.rxUpper ∧ (faultSet n s).link.rxLower = s.link.rxLower ∧
    (faultSet n s).link.commands = s.link.commands ∧ (faultSet n s).link.holding = s.link.holding ∧
    (faultSet n s).link.reports = s.link.reports ∧ (faultSet n s).link.linkStarted = s.link.linkStarted ∧
    (faultSet n s).link.lowerTx = s.link.lowerTx ∧ (faultSet n s).link.credit = s.link.credit ∧
    (faultSet n s).link.replies = s.link.replies ∧ (faultSet n s).link.upperTx = s.link.upperTx ∧
    (faultSet n s).svc.rx = s.svc.rx ∧ (faultSet n s).svc.held = s.svc.held ∧ (faultSet n s).svc.claim = s.svc.claim ∧
    (faultSet n s).svc.reply = s.svc.reply ∧ (faultSet n s).svc.tx = s.svc.tx ∧
    (faultSet n s).cap.owner = s.cap.owner ∧ (faultSet n s).cap.mode = s.cap.mode ∧
    (faultSet n s).cap.mask = s.cap.mask := by
  simp only [faultSet]
  (repeat' split) <;> simp [*]

@[simp] theorem withdrawSetVoid_frame (n : SetName) (s : State) :
    (withdrawSetVoid n s).pending = s.pending ∧ (withdrawSetVoid n s).load = s.load ∧
    (withdrawSetVoid n s).tables = s.tables ∧
    (withdrawSetVoid n s).reached = s.reached ∧ (withdrawSetVoid n s).pos = s.pos ∧ (withdrawSetVoid n s).front = s.front ∧ (withdrawSetVoid n s).ret = s.ret ∧
    (withdrawSetVoid n s).fwd = s.fwd ∧ (withdrawSetVoid n s).trk = s.trk ∧ (withdrawSetVoid n s).jam = s.jam ∧
    (withdrawSetVoid n s).plan = s.plan ∧ (withdrawSetVoid n s).sets = s.sets ∧ (withdrawSetVoid n s).sup = s.sup ∧
    (withdrawSetVoid n s).link.rxUpper = s.link.rxUpper ∧ (withdrawSetVoid n s).link.rxLower = s.link.rxLower ∧
    (withdrawSetVoid n s).link.commands = s.link.commands ∧ (withdrawSetVoid n s).link.holding = s.link.holding ∧
    (withdrawSetVoid n s).link.reports = s.link.reports ∧ (withdrawSetVoid n s).link.forwarded = s.link.forwarded ∧
    (withdrawSetVoid n s).link.linkStarted = s.link.linkStarted ∧
    (withdrawSetVoid n s).link.lowerTx = s.link.lowerTx ∧ (withdrawSetVoid n s).link.credit = s.link.credit ∧
    (withdrawSetVoid n s).link.replies = s.link.replies ∧ (withdrawSetVoid n s).link.notices = s.link.notices ∧
    (withdrawSetVoid n s).link.lossCount = s.link.lossCount ∧ (withdrawSetVoid n s).link.upperTx = s.link.upperTx ∧
    (withdrawSetVoid n s).svc = s.svc ∧ (withdrawSetVoid n s).cap = s.cap ∧ (withdrawSetVoid n s).free = s.free := by
  simp only [withdrawSetVoid]
  (repeat' split) <;> simp [*]

@[simp] theorem settleCleared_frame (r : SetRec) (s : State) :
    (settleCleared r s).pending = s.pending ∧ (settleCleared r s).load = s.load ∧
    (settleCleared r s).tables = s.tables ∧
    (settleCleared r s).reached = s.reached ∧ (settleCleared r s).pos = s.pos ∧ (settleCleared r s).front = s.front ∧ (settleCleared r s).ret = s.ret ∧
    (settleCleared r s).fwd = s.fwd ∧ (settleCleared r s).trk = s.trk ∧
    (settleCleared r s).jam.causes = s.jam.causes ∧ (settleCleared r s).jam.more = s.jam.more ∧
    (settleCleared r s).plan = s.plan ∧ (settleCleared r s).sup = s.sup ∧ (settleCleared r s).link = s.link ∧
    (settleCleared r s).svc = s.svc ∧ (settleCleared r s).cap = s.cap ∧ (settleCleared r s).free = s.free := by
  simp only [settleCleared]
  (repeat' split) <;> simp [*]

@[simp] theorem leaveOutstanding_frame (n : SetName) (s : State) :
    (leaveOutstanding n s).pending = s.pending ∧ (leaveOutstanding n s).load = s.load ∧
    (leaveOutstanding n s).tables = s.tables ∧
    (leaveOutstanding n s).pos.clock = s.pos.clock ∧ (leaveOutstanding n s).pos.p = s.pos.p ∧
    (leaveOutstanding n s).pos.lastPulse = s.pos.lastPulse ∧ (leaveOutstanding n s).pos.msCount = s.pos.msCount ∧
    (leaveOutstanding n s).pos.trunRaw = s.pos.trunRaw ∧ (leaveOutstanding n s).pos.trunQual = s.pos.trunQual ∧
    (leaveOutstanding n s).pos.trunPending = s.pos.trunPending ∧
    (leaveOutstanding n s).front.covers = s.front.covers ∧ (leaveOutstanding n s).ret.expected = s.ret.expected ∧
    (leaveOutstanding n s).ret.receiving = s.ret.receiving ∧ (leaveOutstanding n s).fwd.speed = s.fwd.speed ∧
    (leaveOutstanding n s).trk.lists = s.trk.lists ∧ (leaveOutstanding n s).trk.slots = s.trk.slots ∧
    (leaveOutstanding n s).plan.counter = s.plan.counter ∧ (leaveOutstanding n s).sets.voidOrder = s.sets.voidOrder ∧
    (leaveOutstanding n s).sets.records.map (·.name) = s.sets.records.map (·.name) ∧
    (leaveOutstanding n s).sup.resetCause = s.sup.resetCause ∧ (leaveOutstanding n s).link.rxUpper = s.link.rxUpper ∧
    (leaveOutstanding n s).link.rxLower = s.link.rxLower ∧ (leaveOutstanding n s).link.commands = s.link.commands ∧
    (leaveOutstanding n s).link.holding = s.link.holding ∧ (leaveOutstanding n s).link.reports = s.link.reports ∧
    (leaveOutstanding n s).link.linkStarted = s.link.linkStarted ∧
    (leaveOutstanding n s).link.lowerTx = s.link.lowerTx ∧ (leaveOutstanding n s).link.credit = s.link.credit ∧
    (leaveOutstanding n s).link.replies = s.link.replies ∧ (leaveOutstanding n s).link.upperTx = s.link.upperTx ∧
    (leaveOutstanding n s).svc.rx = s.svc.rx ∧ (leaveOutstanding n s).svc.held = s.svc.held ∧
    (leaveOutstanding n s).svc.claim = s.svc.claim ∧ (leaveOutstanding n s).svc.reply = s.svc.reply ∧
    (leaveOutstanding n s).svc.tx = s.svc.tx ∧ (leaveOutstanding n s).cap.owner = s.cap.owner ∧
    (leaveOutstanding n s).cap.mode = s.cap.mode ∧ (leaveOutstanding n s).cap.mask = s.cap.mask := by
  simp only [leaveOutstanding]
  (repeat' split) <;> simp [*]

@[simp] theorem followRaw_frame (st : Station) (s : State) :
    (followRaw st s).pending = s.pending ∧ (followRaw st s).load = s.load ∧ (followRaw st s).tables = s.tables ∧
    (followRaw st s).pos.clock = s.pos.clock ∧ (followRaw st s).pos.p = s.pos.p ∧
    (followRaw st s).pos.lastPulse = s.pos.lastPulse ∧ (followRaw st s).pos.msCount = s.pos.msCount ∧
    (followRaw st s).pos.trunRaw = s.pos.trunRaw ∧ (followRaw st s).pos.trunQual = s.pos.trunQual ∧
    (followRaw st s).pos.trunPending = s.pos.trunPending ∧ (followRaw st s).front.covers = s.front.covers ∧
    (followRaw st s).ret.expected = s.ret.expected ∧ (followRaw st s).ret.receiving = s.ret.receiving ∧
    (followRaw st s).fwd.f = s.fwd.f ∧ (followRaw st s).fwd.speed = s.fwd.speed ∧
    (followRaw st s).trk.table = s.trk.table ∧ (followRaw st s).plan = s.plan ∧ (followRaw st s).sets = s.sets ∧
    (followRaw st s).sup.resetCause = s.sup.resetCause ∧ (followRaw st s).link.rxUpper = s.link.rxUpper ∧
    (followRaw st s).link.rxLower = s.link.rxLower ∧ (followRaw st s).link.commands = s.link.commands ∧
    (followRaw st s).link.holding = s.link.holding ∧ (followRaw st s).link.reports = s.link.reports ∧
    (followRaw st s).link.linkStarted = s.link.linkStarted ∧ (followRaw st s).link.lowerTx = s.link.lowerTx ∧
    (followRaw st s).link.credit = s.link.credit ∧ (followRaw st s).link.replies = s.link.replies ∧
    (followRaw st s).link.upperTx = s.link.upperTx ∧ (followRaw st s).svc.rx = s.svc.rx ∧
    (followRaw st s).svc.held = s.svc.held ∧ (followRaw st s).svc.claim = s.svc.claim ∧
    (followRaw st s).svc.reply = s.svc.reply ∧ (followRaw st s).svc.tx = s.svc.tx ∧
    (followRaw st s).cap.owner = s.cap.owner ∧ (followRaw st s).cap.mode = s.cap.mode ∧
    (followRaw st s).cap.mask = s.cap.mask := by
  simp only [followRaw]
  (repeat' split) <;> simp [*]

@[simp] theorem sampleAll_frame (s : State) :
    (sampleAll s).pending = s.pending ∧ (sampleAll s).load = s.load ∧ (sampleAll s).tables = s.tables ∧
    (sampleAll s).reached = s.reached ∧ (sampleAll s).pos = s.pos ∧
    (sampleAll s).front.covers = s.front.covers ∧ (sampleAll s).front.emitFrom = s.front.emitFrom ∧
    (sampleAll s).ret = s.ret ∧ (sampleAll s).fwd = s.fwd ∧ (sampleAll s).trk = s.trk ∧ (sampleAll s).jam = s.jam ∧
    (sampleAll s).plan = s.plan ∧ (sampleAll s).sets = s.sets ∧ (sampleAll s).sup = s.sup ∧
    (sampleAll s).link = s.link ∧ (sampleAll s).svc = s.svc ∧ (sampleAll s).cap = s.cap ∧
    (sampleAll s).free = s.free := by
  simp only [sampleAll]
  (repeat' split) <;> simp [*]

@[simp] theorem handSample_frame (s : State) (x : Station × Bool × Pos) :
    (handSample s x).pending = s.pending ∧ (handSample s x).load = s.load ∧ (handSample s x).tables = s.tables ∧
    (handSample s x).pos.clock = s.pos.clock ∧ (handSample s x).pos.p = s.pos.p ∧
    (handSample s x).pos.lastPulse = s.pos.lastPulse ∧ (handSample s x).pos.msCount = s.pos.msCount ∧
    (handSample s x).pos.trunRaw = s.pos.trunRaw ∧ (handSample s x).pos.trunQual = s.pos.trunQual ∧
    (handSample s x).pos.trunPending = s.pos.trunPending ∧ (handSample s x).front.covers = s.front.covers ∧
    (handSample s x).ret.expected = s.ret.expected ∧ (handSample s x).ret.receiving = s.ret.receiving ∧
    (handSample s x).fwd.speed = s.fwd.speed ∧ (handSample s x).sup.resetCause = s.sup.resetCause ∧
    (handSample s x).link.rxUpper = s.link.rxUpper ∧ (handSample s x).link.rxLower = s.link.rxLower ∧
    (handSample s x).link.commands = s.link.commands ∧ (handSample s x).link.holding = s.link.holding ∧
    (handSample s x).link.reports = s.link.reports ∧ (handSample s x).link.linkStarted = s.link.linkStarted ∧
    (handSample s x).link.lowerTx = s.link.lowerTx ∧ (handSample s x).link.replies = s.link.replies ∧
    (handSample s x).link.upperTx = s.link.upperTx ∧ (handSample s x).svc.rx = s.svc.rx ∧
    (handSample s x).svc.held = s.svc.held ∧ (handSample s x).svc.claim = s.svc.claim ∧
    (handSample s x).svc.reply = s.svc.reply ∧ (handSample s x).svc.tx = s.svc.tx ∧
    (handSample s x).cap.owner = s.cap.owner ∧ (handSample s x).cap.mode = s.cap.mode ∧
    (handSample s x).cap.mask = s.cap.mask := by
  simp only [handSample]
  (repeat' split) <;> simp [*]

theorem handSampled_fold (l : List (Station × Bool × Pos)) (s t : State)
    (h : t = l.foldl (handSample) s) :
    t.pending = s.pending ∧ t.load = s.load ∧ t.tables = s.tables ∧ t.pos.clock = s.pos.clock ∧ t.pos.p = s.pos.p ∧
    t.pos.lastPulse = s.pos.lastPulse ∧ t.pos.msCount = s.pos.msCount ∧ t.pos.trunRaw = s.pos.trunRaw ∧
    t.pos.trunQual = s.pos.trunQual ∧ t.pos.trunPending = s.pos.trunPending ∧ t.front.covers = s.front.covers ∧
    t.ret.expected = s.ret.expected ∧ t.ret.receiving = s.ret.receiving ∧ t.fwd.speed = s.fwd.speed ∧
    t.sup.resetCause = s.sup.resetCause ∧ t.link.rxUpper = s.link.rxUpper ∧ t.link.rxLower = s.link.rxLower ∧
    t.link.commands = s.link.commands ∧ t.link.holding = s.link.holding ∧ t.link.reports = s.link.reports ∧
    t.link.linkStarted = s.link.linkStarted ∧ t.link.lowerTx = s.link.lowerTx ∧ t.link.replies = s.link.replies ∧
    t.link.upperTx = s.link.upperTx ∧ t.svc.rx = s.svc.rx ∧ t.svc.held = s.svc.held ∧ t.svc.claim = s.svc.claim ∧
    t.svc.reply = s.svc.reply ∧ t.svc.tx = s.svc.tx ∧ t.cap.owner = s.cap.owner ∧ t.cap.mode = s.cap.mode ∧
    t.cap.mask = s.cap.mask := by
  subst h
  induction l generalizing s with
  | nil => simp
  | cons a l ih => rw [List.foldl_cons]; simp [ih]; try (split <;> simp)

@[simp] theorem handSampled_frame (edges : List (Station × Bool × Pos)) (s : State) :
    (handSampled edges s).pending = s.pending ∧ (handSampled edges s).load = s.load ∧
    (handSampled edges s).tables = s.tables ∧
    (handSampled edges s).pos.clock = s.pos.clock ∧ (handSampled edges s).pos.p = s.pos.p ∧
    (handSampled edges s).pos.lastPulse = s.pos.lastPulse ∧ (handSampled edges s).pos.msCount = s.pos.msCount ∧
    (handSampled edges s).pos.trunRaw = s.pos.trunRaw ∧ (handSampled edges s).pos.trunQual = s.pos.trunQual ∧
    (handSampled edges s).pos.trunPending = s.pos.trunPending ∧ (handSampled edges s).front.covers = s.front.covers ∧
    (handSampled edges s).ret.expected = s.ret.expected ∧ (handSampled edges s).ret.receiving = s.ret.receiving ∧
    (handSampled edges s).fwd.speed = s.fwd.speed ∧ (handSampled edges s).sup.resetCause = s.sup.resetCause ∧
    (handSampled edges s).link.rxUpper = s.link.rxUpper ∧ (handSampled edges s).link.rxLower = s.link.rxLower ∧
    (handSampled edges s).link.commands = s.link.commands ∧ (handSampled edges s).link.holding = s.link.holding ∧
    (handSampled edges s).link.reports = s.link.reports ∧
    (handSampled edges s).link.linkStarted = s.link.linkStarted ∧
    (handSampled edges s).link.lowerTx = s.link.lowerTx ∧ (handSampled edges s).link.replies = s.link.replies ∧
    (handSampled edges s).link.upperTx = s.link.upperTx ∧ (handSampled edges s).svc.rx = s.svc.rx ∧
    (handSampled edges s).svc.held = s.svc.held ∧ (handSampled edges s).svc.claim = s.svc.claim ∧
    (handSampled edges s).svc.reply = s.svc.reply ∧ (handSampled edges s).svc.tx = s.svc.tx ∧
    (handSampled edges s).cap.owner = s.cap.owner ∧ (handSampled edges s).cap.mode = s.cap.mode ∧
    (handSampled edges s).cap.mask = s.cap.mask := by
  simp only [handSampled]
  simp [handSampled_fold _ _ _ rfl]

@[simp] theorem setCover_frame (c : Cover) (x : CoverSense) (s : State) :
    (setCover c x s).pending = s.pending ∧ (setCover c x s).load = s.load ∧ (setCover c x s).tables = s.tables ∧
    (setCover c x s).reached = s.reached ∧ (setCover c x s).pos = s.pos ∧
    (setCover c x s).front.stations = s.front.stations ∧ (setCover c x s).front.emit = s.front.emit ∧
    (setCover c x s).front.emitFrom = s.front.emitFrom ∧ (setCover c x s).ret = s.ret ∧ (setCover c x s).fwd = s.fwd ∧
    (setCover c x s).trk = s.trk ∧ (setCover c x s).jam = s.jam ∧ (setCover c x s).plan = s.plan ∧
    (setCover c x s).sets = s.sets ∧ (setCover c x s).sup = s.sup ∧ (setCover c x s).link = s.link ∧
    (setCover c x s).svc = s.svc ∧ (setCover c x s).cap = s.cap ∧ (setCover c x s).free = s.free := by
  simp only [setCover]
  (repeat' split) <;> simp [*]

@[simp] theorem acceptCover_frame (c : Cover) (s : State) :
    (acceptCover c s).pending = s.pending ∧ (acceptCover c s).load = s.load ∧ (acceptCover c s).tables = s.tables ∧
    (acceptCover c s).reached = s.reached ∧ (acceptCover c s).pos = s.pos ∧
    (acceptCover c s).front.stations = s.front.stations ∧ (acceptCover c s).front.emit = s.front.emit ∧
    (acceptCover c s).front.emitFrom = s.front.emitFrom ∧ (acceptCover c s).ret = s.ret ∧
    (acceptCover c s).fwd = s.fwd ∧ (acceptCover c s).trk = s.trk ∧ (acceptCover c s).jam = s.jam ∧
    (acceptCover c s).plan = s.plan ∧ (acceptCover c s).sets = s.sets ∧ (acceptCover c s).sup = s.sup ∧
    (acceptCover c s).link = s.link ∧ (acceptCover c s).svc = s.svc ∧ (acceptCover c s).cap = s.cap ∧
    (acceptCover c s).free = s.free := by
  simp only [acceptCover]
  (repeat' split) <;> simp [*]

@[simp] theorem takeWord_frame (w : Word) (s : State) :
    (takeWord w s).pending = s.pending ∧ (takeWord w s).reached = s.reached ∧ (takeWord w s).pos = s.pos ∧ (takeWord w s).front.covers = s.front.covers ∧
    (takeWord w s).front.emit = s.front.emit ∧ (takeWord w s).front.emitFrom = s.front.emitFrom ∧
    (takeWord w s).ret = s.ret ∧ (takeWord w s).fwd = s.fwd ∧ (takeWord w s).trk = s.trk ∧
    (takeWord w s).jam = s.jam ∧ (takeWord w s).plan = s.plan ∧ (takeWord w s).sets = s.sets ∧
    (takeWord w s).sup = s.sup ∧ (takeWord w s).link = s.link ∧ (takeWord w s).svc = s.svc ∧
    (takeWord w s).cap = s.cap ∧ (takeWord w s).free = s.free := by
  simp [takeWord]

@[simp] theorem sampleMdi_frame (i : Nat) (s : State) :
    (sampleMdi i s).pending = s.pending ∧ (sampleMdi i s).reached = s.reached ∧ (sampleMdi i s).pos = s.pos ∧
    (sampleMdi i s).front.covers = s.front.covers ∧ (sampleMdi i s).front.emit = s.front.emit ∧
    (sampleMdi i s).front.emitFrom = s.front.emitFrom ∧ (sampleMdi i s).ret = s.ret ∧ (sampleMdi i s).fwd = s.fwd ∧
    (sampleMdi i s).trk = s.trk ∧ (sampleMdi i s).jam = s.jam ∧ (sampleMdi i s).plan = s.plan ∧
    (sampleMdi i s).sets = s.sets ∧ (sampleMdi i s).sup = s.sup ∧ (sampleMdi i s).link = s.link ∧
    (sampleMdi i s).svc = s.svc ∧ (sampleMdi i s).cap = s.cap ∧ (sampleMdi i s).free = s.free := by
  simp only [sampleMdi]
  (repeat' split) <;> simp

@[simp] theorem loaderPeriod_frame (s : State) :
    (loaderPeriod s).pending = s.pending ∧ (loaderPeriod s).reached = s.reached ∧ (loaderPeriod s).pos = s.pos ∧
    (loaderPeriod s).front.covers = s.front.covers ∧ (loaderPeriod s).front.emit = s.front.emit ∧
    (loaderPeriod s).front.emitFrom = s.front.emitFrom ∧ (loaderPeriod s).ret = s.ret ∧ (loaderPeriod s).fwd = s.fwd ∧
    (loaderPeriod s).trk = s.trk ∧ (loaderPeriod s).jam = s.jam ∧ (loaderPeriod s).plan = s.plan ∧
    (loaderPeriod s).sets = s.sets ∧ (loaderPeriod s).sup = s.sup ∧ (loaderPeriod s).link = s.link ∧
    (loaderPeriod s).svc = s.svc ∧ (loaderPeriod s).cap = s.cap ∧ (loaderPeriod s).free = s.free := by
  simp only [loaderPeriod]
  (repeat' split) <;> simp

@[simp] theorem endTransfer_frame (image : List Word) (s : State) :
    (endTransfer image s).pending = s.pending ∧ (endTransfer image s).reached = s.reached ∧ (endTransfer image s).pos = s.pos ∧
    (endTransfer image s).front.covers = s.front.covers ∧ (endTransfer image s).front.emit = s.front.emit ∧
    (endTransfer image s).front.emitFrom = s.front.emitFrom ∧ (endTransfer image s).ret = s.ret ∧
    (endTransfer image s).fwd = s.fwd ∧ (endTransfer image s).trk = s.trk ∧ (endTransfer image s).jam = s.jam ∧
    (endTransfer image s).plan = s.plan ∧ (endTransfer image s).sets = s.sets ∧ (endTransfer image s).sup = s.sup ∧
    (endTransfer image s).link = s.link ∧ (endTransfer image s).svc = s.svc ∧ (endTransfer image s).cap = s.cap ∧
    (endTransfer image s).free = s.free := by
  simp [endTransfer]

@[simp] theorem endAutoload_frame (image : List Word) (s : State) :
    (endAutoload image s).pending = s.pending ∧
    (endAutoload image s).pos.clock = s.pos.clock ∧
    (endAutoload image s).pos.p = s.pos.p ∧ (endAutoload image s).pos.lastPulse = s.pos.lastPulse ∧
    (endAutoload image s).pos.msCount = s.pos.msCount ∧ (endAutoload image s).pos.trunRaw = s.pos.trunRaw ∧
    (endAutoload image s).pos.trunQual = s.pos.trunQual ∧ (endAutoload image s).pos.trunPending = s.pos.trunPending ∧
    (endAutoload image s).front.covers = s.front.covers ∧ (endAutoload image s).ret.expected = s.ret.expected ∧
    (endAutoload image s).ret.receiving = s.ret.receiving ∧ (endAutoload image s).fwd = s.fwd ∧
    (endAutoload image s).trk.lists = s.trk.lists ∧ (endAutoload image s).trk.slots = s.trk.slots ∧
    (endAutoload image s).jam = s.jam ∧ (endAutoload image s).sets = s.sets ∧
    (endAutoload image s).sup.resetCause = s.sup.resetCause ∧ (endAutoload image s).sup.speedWait = s.sup.speedWait ∧
    (endAutoload image s).link.rxUpper = s.link.rxUpper ∧ (endAutoload image s).link.rxLower = s.link.rxLower ∧
    (endAutoload image s).link.commands = s.link.commands ∧ (endAutoload image s).link.holding = s.link.holding ∧
    (endAutoload image s).link.reports = s.link.reports ∧ (endAutoload image s).link.forwarded = s.link.forwarded ∧
    (endAutoload image s).link.linkStarted = s.link.linkStarted ∧
    (endAutoload image s).link.lowerTx = s.link.lowerTx ∧ (endAutoload image s).link.credit = s.link.credit ∧
    (endAutoload image s).link.replies = s.link.replies ∧ (endAutoload image s).link.upperTx = s.link.upperTx ∧
    (endAutoload image s).svc.rx = s.svc.rx ∧ (endAutoload image s).svc.held = s.svc.held ∧
    (endAutoload image s).svc.claim = s.svc.claim ∧ (endAutoload image s).svc.reply = s.svc.reply ∧
    (endAutoload image s).svc.tx = s.svc.tx ∧ (endAutoload image s).cap.owner = s.cap.owner ∧
    (endAutoload image s).cap.mode = s.cap.mode ∧ (endAutoload image s).cap.mask = s.cap.mask := by
  simp only [endAutoload]
  (repeat' split) <;> simp [*]

@[simp] theorem lowerIdle_frame (s : State) :
    (lowerIdle s).pending = s.pending ∧ (lowerIdle s).load = s.load ∧ (lowerIdle s).tables = s.tables ∧
    (lowerIdle s).reached = s.reached ∧ (lowerIdle s).pos = s.pos ∧
    (lowerIdle s).front = s.front ∧ (lowerIdle s).ret = s.ret ∧ (lowerIdle s).fwd = s.fwd ∧
    (lowerIdle s).trk = s.trk ∧ (lowerIdle s).jam = s.jam ∧ (lowerIdle s).plan = s.plan ∧
    (lowerIdle s).sets = s.sets ∧ (lowerIdle s).sup = s.sup ∧ (lowerIdle s).link.rxUpper = s.link.rxUpper ∧
    (lowerIdle s).link.rxLower = s.link.rxLower ∧ (lowerIdle s).link.commands = s.link.commands ∧
    (lowerIdle s).link.holding = s.link.holding ∧ (lowerIdle s).link.reports = s.link.reports ∧
    (lowerIdle s).link.pathControl = s.link.pathControl ∧ (lowerIdle s).link.forwarded = s.link.forwarded ∧
    (lowerIdle s).link.linkStarted = s.link.linkStarted ∧ (lowerIdle s).link.credit = s.link.credit ∧
    (lowerIdle s).link.replies = s.link.replies ∧ (lowerIdle s).link.notices = s.link.notices ∧
    (lowerIdle s).link.lossCount = s.link.lossCount ∧ (lowerIdle s).link.upperTx = s.link.upperTx ∧
    (lowerIdle s).svc = s.svc ∧ (lowerIdle s).cap = s.cap ∧ (lowerIdle s).free = s.free := by
  simp only [lowerIdle]
  (repeat' split) <;> simp [*]

@[simp] theorem releaseWindowHold_frame (s : State) :
    (releaseWindowHold s).pending = s.pending ∧ (releaseWindowHold s).load = s.load ∧
    (releaseWindowHold s).tables = s.tables ∧
    (releaseWindowHold s).reached = s.reached ∧ (releaseWindowHold s).pos = s.pos ∧ (releaseWindowHold s).front = s.front ∧ (releaseWindowHold s).ret = s.ret ∧
    (releaseWindowHold s).fwd.f = s.fwd.f ∧ (releaseWindowHold s).fwd.limit = s.fwd.limit ∧
    (releaseWindowHold s).fwd.speed = s.fwd.speed ∧ (releaseWindowHold s).fwd.request = s.fwd.request ∧
    (releaseWindowHold s).trk = s.trk ∧ (releaseWindowHold s).jam = s.jam ∧ (releaseWindowHold s).plan = s.plan ∧
    (releaseWindowHold s).sets = s.sets ∧ (releaseWindowHold s).sup = s.sup ∧ (releaseWindowHold s).link = s.link ∧
    (releaseWindowHold s).svc = s.svc ∧ (releaseWindowHold s).cap = s.cap ∧ (releaseWindowHold s).free = s.free := by
  simp only [releaseWindowHold]
  (repeat' split) <;> simp [*]

@[simp] theorem startVoidTimer_frame (n : SetName) (s : State) :
    (startVoidTimer n s).pending = s.pending ∧ (startVoidTimer n s).load = s.load ∧
    (startVoidTimer n s).tables = s.tables ∧
    (startVoidTimer n s).reached = s.reached ∧ (startVoidTimer n s).pos = s.pos ∧ (startVoidTimer n s).front = s.front ∧ (startVoidTimer n s).ret = s.ret ∧
    (startVoidTimer n s).fwd = s.fwd ∧ (startVoidTimer n s).trk = s.trk ∧ (startVoidTimer n s).jam = s.jam ∧
    (startVoidTimer n s).plan = s.plan ∧ (startVoidTimer n s).sets.voidOrder = s.sets.voidOrder ∧
    (startVoidTimer n s).sup = s.sup ∧ (startVoidTimer n s).link = s.link ∧ (startVoidTimer n s).svc = s.svc ∧
    (startVoidTimer n s).cap = s.cap ∧ (startVoidTimer n s).free = s.free := by
  simp only [startVoidTimer]
  (repeat' split) <;> simp [*]

@[simp] theorem startSpeedWait_frame (s : State) :
    (startSpeedWait s).pending = s.pending ∧ (startSpeedWait s).load = s.load ∧
    (startSpeedWait s).tables = s.tables ∧ (startSpeedWait s).reached = s.reached ∧ (startSpeedWait s).pos = s.pos ∧
    (startSpeedWait s).front = s.front ∧ (startSpeedWait s).ret = s.ret ∧ (startSpeedWait s).fwd = s.fwd ∧
    (startSpeedWait s).trk = s.trk ∧ (startSpeedWait s).jam = s.jam ∧ (startSpeedWait s).plan = s.plan ∧
    (startSpeedWait s).sets = s.sets ∧ (startSpeedWait s).sup.state = s.sup.state ∧
    (startSpeedWait s).sup.pathHalt = s.sup.pathHalt ∧ (startSpeedWait s).sup.resetCause = s.sup.resetCause ∧
    (startSpeedWait s).sup.heldReason = s.sup.heldReason ∧ (startSpeedWait s).sup.purge = s.sup.purge ∧
    (startSpeedWait s).link = s.link ∧ (startSpeedWait s).svc = s.svc ∧ (startSpeedWait s).cap = s.cap ∧
    (startSpeedWait s).free = s.free := by
  simp only [startSpeedWait]
  (repeat' split) <;> simp [*]

end Sys2Proof.Machine
end

