-- ==== Sys2Proof/Laws/State.lean ====
section
/-! SUPPORT. State and its elementary updates: what each one writes, by rfl, so that no later proof unfolds a record update.
What each one leaves unchanged stands in Laws/Frames.lean. -/

namespace Sys2Proof.Machine

/-- Two states with equal blocks are equal. -/
theorem State.eq_of_blocks {s t : State} (h1 : s.pending = t.pending) (h2 : s.tables = t.tables) (h3 : s.pos = t.pos)
    (h4 : s.front = t.front) (h5 : s.ret = t.ret) (h6 : s.fwd = t.fwd) (h7 : s.trk = t.trk) (h8 : s.jam = t.jam)
    (h9 : s.plan = t.plan) (h10 : s.sets = t.sets) (h11 : s.sup = t.sup) (h12 : s.link = t.link)
    (h13 : s.svc = t.svc) (h14 : s.cap = t.cap) (h15 : s.free = t.free) (h16 : s.load = t.load)
    (h17 : s.reached = t.reached) : s = t := by
  cases s
  cases t
  simp_all

@[simp] theorem tabulate_getElem {α : Type} {n : Nat} (f : Fin n → α) (i : Nat) (h : i < n) :
    (tabulate f)[i] = f ⟨i, h⟩ := by
  simp [tabulate]

/-- Writing one place twice is writing it once. -/
theorem set_set {α : Type} {n : Nat} (v : Vector α n) (i : Fin n) (a b : α) : (v.set i a).set i b = v.set i b := by
  ext j hj
  simp only [Vector.getElem_set]
  split <;> rfl

variable (s : State)

@[simp] theorem useFree_free (n : Nat) : (useFree n s).free = s.free + n := rfl

@[simp] theorem mapEntries_entries (f : Entry → Entry) : (mapEntries f s).ret.entries = s.ret.entries.map f := rfl

@[simp] theorem makeCredit_credit : (makeCredit s).link.credit = some (creditContent s.ret) := rfl

@[simp] theorem queueControl_pathControl (f : PathControl) :
    (queueControl f s).link.pathControl = s.link.pathControl ++ [f] := rfl

@[simp] theorem queueSetVoid_pathControl (n : SetName) :
    (queueSetVoid n s).link.pathControl = s.link.pathControl ++ [.setVoid n] := rfl

@[simp] theorem requestHalt_pathControl : (requestHalt s).link.pathControl = haltFrames s.link.pathControl := rfl

@[simp] theorem requestHalt_limit : (requestHalt s).fwd.limit = s.fwd.f := rfl

@[simp] theorem requestHalt_windowHold : (requestHalt s).fwd.windowHold = true := rfl

@[simp] theorem dropSpeedChange_request : (dropSpeedChange s).fwd.request = none := rfl

@[simp] theorem dropSpeedChange_speedWait : (dropSpeedChange s).sup.speedWait = none := rfl

@[simp] theorem startCauses_causes (c : Cause) : (startCauses c s).jam.causes = [c] := rfl

@[simp] theorem startCauses_more (c : Cause) : (startCauses c s).jam.more = false := rfl

@[simp] theorem updateSet_records (n : SetName) (f : SetRec → SetRec) :
    (updateSet n f s).sets.records = s.sets.records.map fun r => if r.name = n then f r else r := rfl

@[simp] theorem becomeVoided_voidOrder (n : SetName) : (becomeVoided n s).sets.voidOrder = s.sets.voidOrder ++ [n] := rfl

@[simp] theorem freeSet_records (n : SetName) :
    (freeSet n s).sets.records = s.sets.records.filter fun r => r.name ≠ n := rfl

@[simp] theorem freeSet_voidOrder (n : SetName) :
    (freeSet n s).sets.voidOrder = s.sets.voidOrder.filter fun m => m ≠ n := rfl

@[simp] theorem setRecord_table (tag : Tag) (r : Option TrackRec) :
    (setRecord tag r s).trk.table = s.trk.table.set tag r := rfl

@[simp] theorem setList_lists (st : Station) (l : List Expectation) :
    (setList st l s).trk.lists = s.trk.lists.set st l := rfl

@[simp] theorem setSlot_slots (st : Station) (o : Option Occupant) :
    (setSlot st o s).trk.slots = s.trk.slots.set st o := rfl

@[simp] theorem setSense_stations (st : Station) (x : StationSense) :
    (setSense st x s).front.stations = s.front.stations.set st x := rfl

@[simp] theorem setCover_covers (c : Cover) (x : CoverSense) :
    (setCover c x s).front.covers = s.front.covers.set c x := rfl

@[simp] theorem applyTables_tables (t : Tables) : (applyTables t s).tables = t := rfl

@[simp] theorem applyTables_stations (t : Tables) (st : Station) :
    (applyTables t s).front.stations[st] =
      senseAfterWrite s.tables.stations[st] t.stations[st] s.front.stations[st] := by
  simp [applyTables]

@[simp] theorem takeWord_tables (w : Word) : (takeWord w s).tables = (loadWord (s.load.reading, s.tables) w).2 := rfl

@[simp] theorem takeWord_reading (w : Word) :
    (takeWord w s).load.reading = (loadWord (s.load.reading, s.tables) w).1 := rfl

@[simp] theorem takeWord_msel (w : Word) :
    (takeWord w s).load.msel = !(loadWord (s.load.reading, s.tables) w).1.ended := rfl

/-- A load that has ended reads no further word. -/
theorem loadWord_ended {x : Reading × Tables} (h : x.1.ended = true) (w : Word) : loadWord x w = x := by
  simp [loadWord, h]

/-- A load that has ended reads none of the words that follow. -/
theorem loadWords_ended {x : Reading × Tables} (h : x.1.ended = true) (ws : List Word) : loadWords ws x = x := by
  cases ws <;> simp [loadWords, h]

@[simp] theorem endTransfer_tables (image : List Word) :
    (endTransfer image s).tables =
      (loadWords ((imageWords image 1173).drop s.load.reading.count) (s.load.reading, s.tables)).2 := rfl

@[simp] theorem endTransfer_load (image : List Word) :
    (endTransfer image s).load = { s.load with
      msel := false
      mclk := false
      mdo := false
      memory := image.flatMap wordBytes
      reading := (loadWords ((imageWords image 1173).drop s.load.reading.count) (s.load.reading, s.tables)).1 } := rfl

/-- With MSEL negated a CLK period moves time alone. -/
theorem period_negated (h : s.load.msel = false) : period s = tick s := by
  simp [period, loaderPeriod, tick, h]

@[simp] theorem lowerIdle_lowerTx : (lowerIdle s).link.lowerTx = none := rfl

@[simp] theorem discardJob_ret : (discardJob s).ret = .empty := rfl

@[simp] theorem discardJob_trk : (discardJob s).trk = .empty := rfl

@[simp] theorem discardJob_sets : (discardJob s).sets = .empty := rfl

@[simp] theorem discardJob_jam : (discardJob s).jam = .empty := rfl

@[simp] theorem putReply_upper (r : Reply) : (putReply .upper r s).link.replies = s.link.replies ++ [r] := rfl

@[simp] theorem putReply_service (r : Reply) : (putReply .service r s).svc.reply = some r := rfl

end Sys2Proof.Machine
end

