-- ==== Sys2Proof/Laws/Finish.lean ====
section
/-! SUPPORT. What the end of a command does (`finish`): it moves frames into idle transmitters, so what a port owes stays the
same, and doing it twice is doing it once. -/

namespace Sys2Proof.Machine

@[simp] theorem done_eq (s : State) : done s = .next (finish s) := rfl

@[simp] theorem doneIf_true (s t : State) : doneIf true s t = .next (finish t) := rfl

@[simp] theorem doneIf_false (s t : State) : doneIf false s t = .next s := rfl

/-- A command with an occasion answers the end of its effect, or the state as it was. -/
theorem doneIf_cases (occasion : Bool) (s t : State) :
    doneIf occasion s t = .next (finish t) ∨ doneIf occasion s t = .next s := by
  cases occasion <;> simp

/-! ### The upper transmitter -/

theorem grantUpper_notices (s : State) (h : s.link.lossCount = 0) : noticesHeld (grantUpper s) = noticesHeld s := by
  rcases hu : s.link.upperTx with _ | f
  · rcases hc : s.link.credit with _ | c <;> rcases hr : s.link.replies with _ | ⟨r, rs⟩ <;>
      rcases hn : s.link.notices with _ | ⟨n, ns⟩ <;> rcases hp : s.link.reports with _ | ⟨p, ps⟩ <;>
      simp [noticesHeld, grantUpper, hu, hc, hr, hn, hp, h, afterNoticeLeaves]
  · simp [grantUpper, hu]

theorem grantUpper_replies (port : MgmtPort) (s : State) : repliesHeld port (grantUpper s) = repliesHeld port s := by
  cases port
  · rcases hu : s.link.upperTx with _ | f
    · rcases hc : s.link.credit with _ | c <;> rcases hr : s.link.replies with _ | ⟨r, rs⟩ <;>
        rcases hn : s.link.notices with _ | ⟨n, ns⟩ <;> rcases hp : s.link.reports with _ | ⟨p, ps⟩ <;>
        simp [repliesHeld, grantUpper, hu, hc, hr, hn, hp]
    · simp [grantUpper, hu]
  · simp [repliesHeld]

theorem grantUpper_reports (s : State) : reportsHeld (grantUpper s) = reportsHeld s := by
  rcases hu : s.link.upperTx with _ | f
  · rcases hc : s.link.credit with _ | c <;> rcases hr : s.link.replies with _ | ⟨r, rs⟩ <;>
      rcases hn : s.link.notices with _ | ⟨n, ns⟩ <;> rcases hp : s.link.reports with _ | ⟨p, ps⟩ <;>
      simp [reportsHeld, grantUpper, hu, hc, hr, hn, hp]
  · simp [grantUpper, hu]

theorem grantUpper_credit (s : State) (c : CreditContent) (h : s.link.credit = some c) :
    creditHeld (grantUpper s) = some c := by
  rcases hu : s.link.upperTx with _ | f <;> simp [creditHeld, grantUpper, hu, h]

theorem grantUpper_idem (s : State) : grantUpper (grantUpper s) = grantUpper s := by
  rcases hu : s.link.upperTx with _ | f
  · rcases hc : s.link.credit with _ | c <;> rcases hr : s.link.replies with _ | ⟨r, rs⟩ <;>
      rcases hn : s.link.notices with _ | ⟨n, ns⟩ <;> rcases hp : s.link.reports with _ | ⟨p, ps⟩ <;>
      simp [grantUpper, hu, hc, hr, hn, hp]
  · simp [grantUpper, hu]

/-! ### The service transmitter -/

theorem grantService_replies (port : MgmtPort) (s : State) :
    repliesHeld port (grantService s) = repliesHeld port s := by
  cases port
  · simp [repliesHeld]
  · rcases ht : s.svc.tx with _ | f <;> rcases hr : s.svc.reply with _ | r <;>
      rcases hn : s.svc.notices with _ | ⟨n, ns⟩ <;> simp [repliesHeld, grantService, ht, hr, hn]

theorem grantService_idem (s : State) : grantService (grantService s) = grantService s := by
  rcases ht : s.svc.tx with _ | f <;> rcases hr : s.svc.reply with _ | r <;>
    rcases hn : s.svc.notices with _ | ⟨n, ns⟩ <;> simp [grantService, ht, hr, hn]

/-! ### The lower transmitter -/

theorem grantLower_control (s : State) : controlHeld (grantLower s) = controlHeld s := by
  rcases hl : s.link.lowerTx with _ | f
  · rcases hp : s.link.pathControl with _ | ⟨p, ps⟩
    · cases hs : s.link.linkStarted
      · simp [controlHeld, grantLower, hl, hp, hs]
      · rcases hc : takeReady false s.link.commands with _ | ⟨c, cs⟩ <;>
          rcases hf : s.link.forwarded with _ | ⟨f, fs⟩ <;> simp [controlHeld, grantLower, hl, hp, hs, hc, hf]
    · simp [controlHeld, grantLower, hl, hp]
  · simp [grantLower, hl]

theorem grantLower_idem (s : State) : grantLower (grantLower s) = grantLower s := by
  rcases hl : s.link.lowerTx with _ | f
  · rcases hp : s.link.pathControl with _ | ⟨p, ps⟩
    · cases hs : s.link.linkStarted
      · simp [grantLower, hl, hp, hs]
      · rcases hc : takeReady false s.link.commands with _ | ⟨c, cs⟩ <;>
          rcases hf : s.link.forwarded with _ | ⟨f, fs⟩ <;> simp [grantLower, hl, hp, hs, hc, hf]
    · simp [grantLower, hl, hp]
  · simp [grantLower, hl]

/-! ### The whole end of a command -/

theorem noticesHeld_finish (s : State) (h : s.link.lossCount = 0) : noticesHeld (finish s) = noticesHeld s := by
  have e : noticesHeld (finish s) = noticesHeld (grantUpper (grantLower (retestBarriers s))) := by
    simp only [noticesHeld, finish, grantService_frame]
  rw [e, grantUpper_notices _ (by simpa using h)]
  simp only [noticesHeld, grantLower_frame, retestBarriers_frame]

theorem repliesHeld_finish (port : MgmtPort) (s : State) : repliesHeld port (finish s) = repliesHeld port s := by
  rw [finish, grantService_replies, grantUpper_replies]
  cases port <;> simp only [repliesHeld, grantLower_frame, retestBarriers_frame]

theorem reportsHeld_finish (s : State) : reportsHeld (finish s) = reportsHeld s := by
  have e : reportsHeld (finish s) = reportsHeld (grantUpper (grantLower (retestBarriers s))) := by
    simp only [reportsHeld, finish, grantService_frame]
  rw [e, grantUpper_reports]
  simp only [reportsHeld, grantLower_frame, retestBarriers_frame]

theorem creditHeld_finish (s : State) (c : CreditContent) (h : s.link.credit = some c) :
    creditHeld (finish s) = some c := by
  have e : creditHeld (finish s) = creditHeld (grantUpper (grantLower (retestBarriers s))) := by
    simp only [creditHeld, finish, grantService_frame]
  rw [e, grantUpper_credit _ c (by simpa using h)]

theorem controlHeld_finish (s : State) : controlHeld (finish s) = controlHeld s := by
  have e : controlHeld (finish s) = controlHeld (grantLower (retestBarriers s)) := by
    simp only [controlHeld, finish, grantService_frame, grantUpper_frame]
  rw [e, grantLower_control]
  simp only [controlHeld, retestBarriers_frame]

/-- The end of a command reads nothing but the entries, the link and the service port. -/
theorem finish_unchanged (s t : State) (hs : finish s = s) (he : t.ret.entries = s.ret.entries) (hl : t.link = s.link)
    (hv : t.svc = s.svc) : finish t = t := by
  have key : ∀ u : State, u.ret.entries = s.ret.entries → u.link = s.link → u.svc = s.svc →
      (finish u).link = (finish s).link ∧ (finish u).svc = (finish s).svc := by
    intro u hu1 hu2 hu3
    have r1 : (retestBarriers u).link = (retestBarriers s).link := by simp only [retestBarriers, hu1, hu2]
    have r2 : (retestBarriers u).svc = (retestBarriers s).svc := by simp [hu3]
    have l1 : (grantLower (retestBarriers u)).link = (grantLower (retestBarriers s)).link := by
      simp only [grantLower, r1]
      split
      · exact r1
      · split
        · rfl
        · split
          · split
            · rfl
            · split
              · rfl
              · exact r1
          · exact r1
    have l2 : (grantLower (retestBarriers u)).svc = (grantLower (retestBarriers s)).svc := by simp [hu3]
    have u1 : (grantUpper (grantLower (retestBarriers u))).link = (grantUpper (grantLower (retestBarriers s))).link := by
      simp only [grantUpper, l1]
      (repeat' split) <;> first | rfl | exact l1
    have u2 : (grantUpper (grantLower (retestBarriers u))).svc = (grantUpper (grantLower (retestBarriers s))).svc := by
      simp [hu3]
    constructor
    · simp only [finish, grantService_frame, u1]
    · simp only [finish, grantService, u2]
      (repeat' split) <;> first | rfl | exact u2
  have k := key t he hl hv
  rw [hs] at k
  have e1 : (finish t).link = t.link := by rw [k.1, hl]
  have e2 : (finish t).svc = t.svc := by rw [k.2, hv]
  apply State.eq_of_blocks <;> simp [e1, e2]

theorem retestBarriers_idem (s : State) : retestBarriers (retestBarriers s) = retestBarriers s := by
  simp only [retestBarriers, List.map_map]
  congr 2
  apply List.map_congr_left
  intro c _
  rcases hm : c.mark with _ | m <;> simp [hm]

theorem takeReady_mem {b : Bool} {cs : List Command} {c : Command} {rest : List Command}
    (h : takeReady b cs = some (c, rest)) : ∀ x ∈ rest, x ∈ cs := by
  induction cs generalizing b c rest with
  | nil => simp [takeReady] at h
  | cons d ds ih =>
    have key : ∀ ready : Bool, (if ready then some (d, ds)
        else (takeReady (b || d.mark.isSome) ds).map fun x => (x.1, d :: x.2)) = some (c, rest) →
        ∀ x ∈ rest, x ∈ d :: ds := by
      intro ready hr x hx
      cases ready
      · rcases ht : takeReady (b || d.mark.isSome) ds with _ | ⟨e, es⟩
        · simp [ht] at hr
        · simp only [ht, Option.map_some] at hr
          obtain ⟨-, rfl⟩ : e = c ∧ d :: es = rest := by simpa using hr
          rcases List.mem_cons.mp hx with hx | hx
          · simp [hx]
          · exact List.mem_cons_of_mem _ (ih ht x hx)
      · obtain ⟨-, rfl⟩ : d = c ∧ ds = rest := by simpa using hr
        exact List.mem_cons_of_mem _ hx
    exact key _ h

/-- Marks that are tested already stay as they are. -/
def Tested (s : State) : Prop :=
  ∀ c ∈ s.link.commands, (c.mark.map fun m => m.filter fun n => !satisfiesBarrier s.ret.entries n) = c.mark

theorem retestBarriers_of_tested (s : State) (h : Tested s) : retestBarriers s = s := by
  have e : (s.link.commands.map fun c =>
      { c with mark := c.mark.map fun m => m.filter fun n => !satisfiesBarrier s.ret.entries n }) = s.link.commands := by
    conv => rhs; rw [← List.map_id s.link.commands]
    apply List.map_congr_left
    intro c hc
    simp [h c hc]
  simp only [retestBarriers, e]

theorem tested_retestBarriers (s : State) : Tested (retestBarriers s) := by
  intro c hc
  simp only [retestBarriers, List.mem_map] at hc
  obtain ⟨d, _, rfl⟩ := hc
  rcases d.mark with _ | m <;> simp

theorem tested_grantLower (s : State) (h : Tested s) : Tested (grantLower s) := by
  intro c hc
  have he : (grantLower s).ret = s.ret := by simp
  rw [he]
  apply h
  rcases hl : s.link.lowerTx with _ | f
  · rcases hp : s.link.pathControl with _ | ⟨p, ps⟩
    · cases hs : s.link.linkStarted
      · simpa [grantLower, hl, hp, hs] using hc
      · rcases hr : takeReady false s.link.commands with _ | ⟨d, ds⟩
        · rcases hf : s.link.forwarded with _ | ⟨f, fs⟩ <;> simpa [grantLower, hl, hp, hs, hr, hf] using hc
        · exact takeReady_mem hr c (by simpa [grantLower, hl, hp, hs, hr] using hc)
    · simpa [grantLower, hl, hp] using hc
  · simpa [grantLower, hl] using hc

theorem grantLower_grantUpper (s : State) : grantLower (grantUpper s) = grantUpper (grantLower s) := by
  apply State.eq_of_blocks <;> (try simp; done)
  rcases hu : s.link.upperTx with _ | f
  · rcases hc : s.link.credit with _ | c <;> rcases hr : s.link.replies with _ | ⟨r, rs⟩ <;>
      rcases hn : s.link.notices with _ | ⟨n, ns⟩ <;> rcases hp : s.link.reports with _ | ⟨p, ps⟩ <;>
      simp only [grantUpper, grantLower_frame, hu, hc, hr, hn, hp] <;> simp only [grantLower] <;>
      (repeat' split) <;> simp_all
  · simp [grantUpper, hu]

theorem grantLower_grantService (s : State) : grantLower (grantService s) = grantService (grantLower s) := by
  rcases ht : s.svc.tx with _ | f <;> rcases hr : s.svc.reply with _ | r <;>
    rcases hn : s.svc.notices with _ | ⟨n, ns⟩ <;> simp only [grantService, grantLower_frame, ht, hr, hn] <;>
    simp only [grantLower] <;> (repeat' split) <;> simp_all

theorem grantUpper_grantService (s : State) : grantUpper (grantService s) = grantService (grantUpper s) := by
  rcases ht : s.svc.tx with _ | f <;> rcases hr : s.svc.reply with _ | r <;>
    rcases hn : s.svc.notices with _ | ⟨n, ns⟩ <;> simp only [grantService, grantUpper_frame, ht, hr, hn] <;>
    simp only [grantUpper] <;> (repeat' split) <;> simp_all

/-- Ending a command twice is ending it once. -/
theorem finish_idem (s : State) : finish (finish s) = finish s := by
  have r : retestBarriers (finish s) = finish s := by
    apply retestBarriers_of_tested
    have h := tested_grantLower _ (tested_retestBarriers s)
    intro c hc
    have e1 : (finish s).link.commands = (grantLower (retestBarriers s)).link.commands := by
      simp only [finish, grantService_frame, grantUpper_frame]
    have e2 : (finish s).ret = (grantLower (retestBarriers s)).ret := by
      simp only [finish, grantService_frame, grantUpper_frame]
    rw [e2]
    exact h c (e1 ▸ hc)
  conv => lhs; rw [finish, r]
  simp only [finish]
  rw [grantLower_grantService, grantLower_grantUpper, grantLower_idem, grantUpper_grantService, grantUpper_idem,
    grantService_idem]

theorem tested_iff (s : State) : Tested s ↔ ∀ c ∈ s.link.commands, ∀ m, c.mark = some m → ∀ n ∈ m,
    satisfiesBarrier s.ret.entries n = false := by
  constructor
  · intro h c hc m hm n hn
    have e := h c hc
    simp only [hm, Option.map_some, Option.some.injEq, List.filter_eq_self] at e
    simpa using e n hn
  · intro h c hc
    rcases hm : c.mark with _ | m
    · rfl
    · have e := h c hc m hm
      simpa using e

theorem grantUpper_eq_self (s : State) : grantUpper s = s ↔ (s.link.upperTx = none →
    s.link.credit = none ∧ s.link.replies = [] ∧ s.link.notices = [] ∧ s.link.reports = []) := by
  constructor
  · intro h hu
    have e : (grantUpper s).link.upperTx = none := by rw [h, hu]
    rcases hc : s.link.credit with _ | c <;> rcases hr : s.link.replies with _ | ⟨r, rs⟩ <;>
      rcases hn : s.link.notices with _ | ⟨n, ns⟩ <;> rcases hp : s.link.reports with _ | ⟨p, ps⟩ <;>
      simp [grantUpper, hu, hc, hr, hn, hp] at e ⊢
  · intro h
    rcases hu : s.link.upperTx with _ | f
    · obtain ⟨h1, h2, h3, h4⟩ := h hu
      simp [grantUpper, hu, h1, h2, h3, h4]
    · simp [grantUpper, hu]

theorem grantService_eq_self (s : State) : grantService s = s ↔ (s.svc.tx = none →
    s.svc.reply = none ∧ s.svc.notices = []) := by
  constructor
  · intro h hu
    have e : (grantService s).svc.tx = none := by rw [h, hu]
    rcases hr : s.svc.reply with _ | r <;> rcases hn : s.svc.notices with _ | ⟨n, ns⟩ <;>
      simp [grantService, hu, hr, hn] at e ⊢
  · intro h
    rcases hu : s.svc.tx with _ | f
    · obtain ⟨h1, h2⟩ := h hu
      simp [grantService, hu, h1, h2]
    · simp [grantService, hu]

theorem grantLower_eq_self (s : State) : grantLower s = s ↔ (s.link.lowerTx = none → s.link.pathControl = [] ∧
    (s.link.linkStarted = true → takeReady false s.link.commands = none ∧ s.link.forwarded = [])) := by
  constructor
  · intro h hu
    have e : (grantLower s).link.lowerTx = none := by rw [h, hu]
    rcases hp : s.link.pathControl with _ | ⟨p, ps⟩ <;> cases hs : s.link.linkStarted <;>
      rcases hc : takeReady false s.link.commands with _ | ⟨c, cs⟩ <;> rcases hf : s.link.forwarded with _ | ⟨f, fs⟩ <;>
      simp [grantLower, hu, hp, hs, hc, hf] at e ⊢
  · intro h
    rcases hu : s.link.lowerTx with _ | f
    · obtain ⟨h1, h2⟩ := h hu
      cases hs : s.link.linkStarted
      · simp [grantLower, hu, h1, hs]
      · simp [grantLower, hu, h1, hs, (h2 hs).1, (h2 hs).2]
    · simp [grantLower, hu]

/-- The parts of the end of a command change nothing exactly when the whole does. -/
theorem granted_iff (s : State) : Granted s ↔ finish s = s := by
  rw [Granted, ← tested_iff, ← grantUpper_eq_self, ← grantService_eq_self, ← grantLower_eq_self]
  constructor
  · rintro ⟨h1, h2, h3, h4⟩
    rw [finish, retestBarriers_of_tested s h4, h1, h2, h3]
  · intro h
    have e (f : State → State) (hf : f (finish s) = finish s) : f s = s := by rwa [h] at hf
    have r : retestBarriers s = s := by
      apply e
      apply retestBarriers_of_tested
      have k := tested_grantLower _ (tested_retestBarriers s)
      intro c hc
      have e1 : (finish s).link.commands = (grantLower (retestBarriers s)).link.commands := by
        simp only [finish, grantService_frame, grantUpper_frame]
      have e2 : (finish s).ret = (grantLower (retestBarriers s)).ret := by
        simp only [finish, grantService_frame, grantUpper_frame]
      rw [e2]
      exact k c (e1 ▸ hc)
    refine ⟨e _ ?_, e _ ?_, e _ ?_, r ▸ tested_retestBarriers s⟩
    · simp only [finish]
      rw [grantLower_grantService, grantLower_grantUpper, grantLower_idem]
    · simp only [finish]
      rw [grantUpper_grantService, grantUpper_idem]
    · simp only [finish]
      rw [grantService_idem]

theorem granted_finish (s : State) : Granted (finish s) := (granted_iff _).2 (finish_idem s)

end Sys2Proof.Machine
end

