-- ==== Sys2Proof/Laws/Keeps.lean ====
section
/-! SUPPORT. How a command keeps a property of the state: through its end, its occasion and the service of a request. -/

namespace Sys2Proof.Machine

/-- An outcome that is a next state has the property. -/
def Keeps (I : State → Prop) (o : Host.Outcome State Fault Refusal) : Prop := ∀ t, o = .next t → I t

/-- The property survives the end of a command, the taking of a request and the making of its reply. -/
structure PortStable (I : State → Prop) : Prop where
  finish : ∀ s, I s → I (finish s)
  takeRequest : ∀ port s, I s → I (takeRequest port s)
  putReply : ∀ port r s, I s → I (putReply port r s)

variable {I : State → Prop}

theorem keeps_next {s : State} (h : I s) : Keeps I (.next s) := by
  rintro t ⟨⟩
  exact h

theorem keeps_done (hI : PortStable I) {s : State} (h : I s) : Keeps I (done s) := by
  rintro t ⟨⟩
  exact hI.finish s h

theorem keeps_doneIf (hI : PortStable I) {b : Bool} {s t : State} (hs : I s) (h : b = true → I t) :
    Keeps I (doneIf b s t) := by
  cases b
  · exact keeps_next hs
  · exact keeps_done hI (h rfl)

/-- A served command keeps what its act keeps. -/
theorem keeps_serve (hI : PortStable I) {port : MgmtPort} {isCode : Byte → Bool} {lengthOk : List Byte → Bool}
    {act : List Byte → State → Served} {s : State} (hs : I s)
    (h : ∀ args u, I u → u.sup.state ≠ .starting → I (act args u).state) :
    Keeps I (serve port isCode lengthOk act s) := by
  simp only [serve]
  split
  · exact keeps_next hs
  · rename_i q _
    split
    · apply keeps_done hI
      apply hI.putReply
      have h1 := hI.takeRequest port s hs
      simp only [settle]
      (repeat' split)
      · exact h1
      · exact h _ _ h1 (by assumption)
      · exact h1
    · exact keeps_next hs

/-- The service of a request whose code and arguments the command admits. -/
theorem serve_eq {port : MgmtPort} {q : Request} {code : Byte} {args : List Byte} {s : State} {isCode : Byte → Bool}
    {lengthOk : List Byte → Bool} {act : List Byte → State → Served} (h : Awaits port q code args s)
    (hc : isCode code = true) (hl : lengthOk args = true) :
    serve port isCode lengthOk act s = .next (answered port q (act args (takeRequest port s)).status
      (act args (takeRequest port s)).results (act args (takeRequest port s)).state) := by
  obtain ⟨h1, rfl, rfl, h4⟩ := h
  simp [serve, h1, hc, settle, h4, hl, answered]

@[simp] theorem readTable_state (args : List Byte) (s : State) : (readTable args s).state = s := by
  simp only [readTable]
  split <;> rfl

@[simp] theorem readOrder_state (n : OrderNo) (s : State) : (readOrder n s).state = s := by
  simp only [readOrder]
  split <;> rfl

/-- A frame that is received whole keeps what its act keeps. -/
theorem keeps_takeFrame (hI : PortStable I) {port : Port} {kind : Byte} {payload : List Byte} {act : State → State}
    {s : State} (hs : I s) (h : I (act (received port s))) : Keeps I (takeFrame port kind payload act s) :=
  keeps_doneIf hI hs fun _ => h

/-- A frame of the engine keeps what its act keeps once it has been passed up. -/
theorem keeps_takeReport (hI : PortStable I) {kind : Byte} {payload : List Byte} {act : State → State} {s : State}
    (hs : I s) (h : I (act (passUp kind payload s))) : Keeps I (takeReport kind payload act s) :=
  keeps_doneIf hI hs fun _ => h

/-- The characters of FRAME_DISCARD keep what the receiver and a discard keep. -/
theorem keeps_frameDiscard (hI : PortStable I) {port : Port} {chars : List RxChar} {s : State} (hs : I s)
    (hr : ∀ r s, I s → I (setReceiver port r s)) (hl : ∀ s, I s → I (lineHigh port s))
    (hd : ∀ reason kind s, I s → I (discardFrame port reason kind s)) :
    Keeps I (execFrameDiscard port chars s) := by
  simp only [execFrameDiscard]
  split
  · rename_i h
    refine keeps_done hI (takeChars_keeps hr hl hd ?_ h)
    simp only [beforeChars, discardGap, hunt]
    split
    · exact hd _ _ _ (hr _ _ hs)
    · exact hs
  · exact keeps_next hs

/-- A frame that can complete is taken. -/
theorem takeFrame_eq {port : Port} {kind : Byte} {payload : List Byte} {act : State → State} {s : State}
    (h : frameCompletes port kind payload s = true) :
    takeFrame port kind payload act s = .next (finish (act (received port s))) := by
  simp [takeFrame, doneIf, h, done]

/-- A frame of the engine that can complete is passed up and read. -/
theorem takeReport_eq {kind : Byte} {payload : List Byte} {act : State → State} {s : State}
    (h : frameCompletes .lower kind payload s = true) :
    takeReport kind payload act s = .next (finish (act (passUp kind payload s))) := by
  simp [takeReport, doneIf, h, done]

/-- A finisher report: unread, malformed, acted on, or unexpected. -/
theorem finisherReport_cases (kind : Byte) (payload : List Byte) (act : SetRec → State → Option State) (s : State)
    (h0 : I s) (h1 : I (makeLinkError .lower .format kind s)) (h2 : ∀ b n, I (unexpectedFinisher kind b n s))
    (h3 : ∀ r t, act r s = some t → I t) : I (readFinisherReport kind payload act s) := by
  simp only [readFinisherReport]
  split
  · rename_i b n
    split
    · exact h0
    · rcases hr : reportedSet b n s with _ | r
      · exact h2 b n
      · simp only [Option.bind_some]
        rcases ha : act r s with _ | t
        · exact h2 b n
        · exact h3 r t ha
  · exact h1

end Sys2Proof.Machine
end

