-- ==== Sys2Proof/Laws/Capture.lean ====
section
/-! SUPPORT. The capture: every shared operation keeps what CaptureInv says of it. -/

namespace Sys2Proof.Machine

set_option linter.unusedSimpArgs false
/-- What CaptureInv says of the capture beside the claim flag (R188). -/
def CaptureOK (c : Capture) : Prop :=
  (c.owner = .free → c.state = .disarmed ∧ c.buffer = []) ∧ c.buffer.length ≤ 512 ∧ CountWithin c

theorem CaptureInv.iff (s : State) : CaptureInv s ↔ s.svc.claim = decide (s.cap.owner = .service) ∧ CaptureOK s.cap :=
  Iff.rfl

theorem addRecord_ok (r : TraceRec) (c : Capture) (h : CaptureOK c) (hr : c.state = .running) : CaptureOK (addRecord r c) := by
  obtain ⟨h1, h2, h3⟩ := h
  have ho : c.owner ≠ .free := fun e => by simpa [hr] using h1 e
  refine ⟨fun e => absurd (by simpa using e) ho, ?_, ?_⟩
  · simp only [addRecord]
    split
    · rename_i n hm
      simp only [CountWithin, hm] at h3
      have := h3.2 hr
      simp
      omega
    · rename_i k n _
      have : ((if 512 ≤ c.buffer.length then c.buffer.drop 1 else c.buffer) ++ [r]).length ≤ 512 := by
        split <;> simp <;> omega
      exact this
  · simp only [CountWithin, addRecord_frame]
    split
    · rename_i n hm
      simp only [CountWithin, hm] at h3
      refine ⟨h3.1, ?_⟩
      simp only [addRecord, hm]
      split
      · simp
      · intro _
        omega
    · trivial

@[simp] theorem offerEvent_captureOK (k : EventKind) (p : Pos) (st : Option Station) (order : Option OrderNo) (detail : Byte) (s : State) (h : CaptureOK s.cap) :
    CaptureOK (offerEvent k p st order detail s).cap := by
  simp only [offerEvent]
  split
  · rename_i hr
    split
    · simpa using addRecord_ok _ _ h hr.1
    · exact addRecord_ok _ _ h hr.1
  · exact h

@[simp] theorem enterState_captureOK (st : PartState) (s : State) (h : CaptureOK s.cap) :
    CaptureOK (enterState st s).cap := by
  simp only [enterState]
  (repeat' split) <;> simp (maxDischargeDepth := 9) [h, *]

@[simp] theorem announceCause_captureOK (t : Treatment) (index : Nat) (c : Cause) (s : State) (h : CaptureOK s.cap) :
    CaptureOK (announceCause t index c s).cap := by
  simp only [announceCause]
  (repeat' split) <;> simp (maxDischargeDepth := 9) [h, *]

@[simp] theorem declareStop_captureOK (c : Cause) (s : State) (h : CaptureOK s.cap) :
    CaptureOK (declareStop c s).cap := by
  simp only [declareStop]
  (repeat' split) <;> simp (maxDischargeDepth := 9) [h, *]

@[simp] theorem joinStop_captureOK (c : Cause) (s : State) (h : CaptureOK s.cap) :
    CaptureOK (joinStop c s).cap := by
  simp only [joinStop]
  (repeat' split) <;> simp (maxDischargeDepth := 9) [h, *]

@[simp] theorem deferCause_captureOK (c : Cause) (s : State) (h : CaptureOK s.cap) :
    CaptureOK (deferCause c s).cap := by
  simp only [deferCause]
  (repeat' split) <;> simp (maxDischargeDepth := 9) [h, *]

@[simp] theorem takeCause_captureOK (c : Cause) (s : State) (h : CaptureOK s.cap) :
    CaptureOK (takeCause c s).cap := by
  simp only [takeCause]
  (repeat' split) <;> simp (maxDischargeDepth := 9) [h, *]

theorem takeReports_fold_captureOK (l : List Report) (s t : State)
    (e : t = l.foldl (fun s r => takeCause (trackerCause s r) s) s) (h : CaptureOK s.cap) :
    CaptureOK t.cap := by
  subst e
  induction l generalizing s with
  | nil => simpa using h
  | cons a l ih => rw [List.foldl_cons]; apply ih; first | (simp [h]; done) | (split <;> simp [h])

@[simp] theorem takeReports_captureOK (rs : List Report) (s : State) (h : CaptureOK s.cap) :
    CaptureOK (takeReports rs s).cap := by
  simp only [takeReports]
  simp [h, takeReports_fold _ _ _ rfl, takeReports_fold_captureOK _ _ _ rfl]

@[simp] theorem forwardEntry_captureOK (e : Entry) (s : State) (h : CaptureOK s.cap) :
    CaptureOK (forwardEntry e s).cap := by
  simp only [forwardEntry]
  (repeat' split) <;> simp (maxDischargeDepth := 9) [h, *]

@[simp] theorem considerQueue_captureOK (n : Nat) (s : State) (h : CaptureOK s.cap) :
    CaptureOK (considerQueue n s).cap := by
  induction n generalizing s with
  | zero => simpa [considerQueue] using h
  | succ n ih =>
    simp only [considerQueue]
    (repeat' split) <;> first | (simp [h]; done) | (apply ih; simp [h])

@[simp] theorem drainCheck_captureOK (s : State) (h : CaptureOK s.cap) :
    CaptureOK (drainCheck s).cap := by
  simp only [drainCheck]
  (repeat' split) <;> simp (maxDischargeDepth := 9) [h, *]

@[simp] theorem enterHeld_captureOK (reason : HeldReason) (n : OrderNo) (s : State) (h : CaptureOK s.cap) :
    CaptureOK (enterHeld reason n s).cap := by
  simp only [enterHeld]
  (repeat' split) <;> simp (maxDischargeDepth := 9) [h, *]

@[simp] theorem heldCheck_captureOK (s : State) (h : CaptureOK s.cap) :
    CaptureOK (heldCheck s).cap := by
  simp only [heldCheck]
  (repeat' split) <;> simp (maxDischargeDepth := 9) [h, *]

@[simp] theorem idleCheck_captureOK (s : State) (h : CaptureOK s.cap) :
    CaptureOK (idleCheck s).cap := by
  simp only [idleCheck]
  (repeat' split) <;> simp (maxDischargeDepth := 9) [h, *]

@[simp] theorem forwarderPass_captureOK (s : State) (h : CaptureOK s.cap) :
    CaptureOK (forwarderPass s).cap := by
  simp only [forwarderPass]
  exact idleCheck_captureOK _ (heldCheck_captureOK _ (drainCheck_captureOK _ (considerQueue_captureOK _ _ (by simpa using h))))

@[simp] theorem enterChosen_captureOK (s : State) (h : CaptureOK s.cap) :
    CaptureOK (enterChosen s).cap := by
  simp only [enterChosen]
  (repeat' split) <;> simp (maxDischargeDepth := 9) [h, *]

@[simp] theorem leaveHeld_captureOK (old : Option OrderNo) (s : State) (h : CaptureOK s.cap) :
    CaptureOK (leaveHeld old s).cap := by
  simp only [leaveHeld]
  (repeat' split) <;> simp (maxDischargeDepth := 9) [h, *]

@[simp] theorem afterWithdrawal_captureOK (old : Option OrderNo) (s : State) (h : CaptureOK s.cap) :
    CaptureOK (afterWithdrawal old s).cap := by
  simp only [afterWithdrawal]
  (repeat' split) <;> simp (maxDischargeDepth := 9) [h, *]

@[simp] theorem wakeToIdle_captureOK (s : State) (h : CaptureOK s.cap) :
    CaptureOK (wakeToIdle s).cap := by
  simp only [wakeToIdle]
  (repeat' split) <;> simp (maxDischargeDepth := 9) [h, *]

@[simp] theorem matchOn_captureOK (st : Station) (stamp : Pos) (x : Expectation) (rest : List Expectation) (s : State) (h : CaptureOK s.cap) :
    CaptureOK (matchOn st stamp x rest s).1.cap := by
  simp only [matchOn]
  (repeat' split) <;> simp (maxDischargeDepth := 9) [h, *]

@[simp] theorem trackOn_captureOK (st : Station) (stamp : Pos) (s : State) (h : CaptureOK s.cap) :
    CaptureOK (trackOn st stamp s).1.cap := by
  simp only [trackOn]
  (repeat' split) <;> simp (maxDischargeDepth := 9) [h, *]

@[simp] theorem commitEntry_captureOK (n : OrderNo) (detail : Byte) (s : State) (h : CaptureOK s.cap) :
    CaptureOK (commitEntry n detail s).cap := by
  simp only [commitEntry]
  (repeat' split) <;> simp (maxDischargeDepth := 9) [h, *]

@[simp] theorem deliverEntry_captureOK (e : Entry) (kind : BinKind) (s : State) (h : CaptureOK s.cap) :
    CaptureOK (deliverEntry e kind s).cap := by
  simp only [deliverEntry]
  (repeat' split) <;> simp (maxDischargeDepth := 9) [h, *]

@[simp] theorem deliver_captureOK (tag : Tag) (s : State) (h : CaptureOK s.cap) :
    CaptureOK (deliver tag s).cap := by
  simp only [deliver]
  (repeat' split) <;> simp (maxDischargeDepth := 9) [h, *]

@[simp] theorem offAction_captureOK (stamp : Pos) (o : Occupant) (s : State) (h : CaptureOK s.cap) :
    CaptureOK (offAction stamp o s).1.cap := by
  simp only [offAction]
  (repeat' split) <;> simp (maxDischargeDepth := 9) [h, *]

@[simp] theorem matchOff_captureOK (st : Station) (stamp : Pos) (o : Occupant) (s : State) (h : CaptureOK s.cap) :
    CaptureOK (matchOff st stamp o s).1.cap := by
  simp only [matchOff]
  (repeat' split) <;> simp (maxDischargeDepth := 9) [h, *]

@[simp] theorem trackOff_captureOK (st : Station) (stamp : Pos) (s : State) (h : CaptureOK s.cap) :
    CaptureOK (trackOff st stamp s).1.cap := by
  simp only [trackOff]
  (repeat' split) <;> simp (maxDischargeDepth := 9) [h, *]

@[simp] theorem takeLate_captureOK (st : Station) (s : State) (h : CaptureOK s.cap) :
    CaptureOK (takeLate st s).cap := by
  simp only [takeLate]
  (repeat' split) <;> simp (maxDischargeDepth := 9) [h, *]

@[simp] theorem takeStuck_captureOK (st : Station) (s : State) (h : CaptureOK s.cap) :
    CaptureOK (takeStuck st s).cap := by
  simp only [takeStuck]
  (repeat' split) <;> simp (maxDischargeDepth := 9) [h, *]

@[simp] theorem takeDueExpiries_captureOK (st : Station) (s : State) (h : CaptureOK s.cap) :
    CaptureOK (takeDueExpiries st s).cap := by
  simp only [takeDueExpiries]
  (repeat' split) <;> simp (maxDischargeDepth := 9) [h, *]

@[simp] theorem formPlan_captureOK (p : PlanRec) (s : State) (h : CaptureOK s.cap) :
    CaptureOK (formPlan p s).cap := by
  simp only [formPlan]
  (repeat' split) <;> simp (maxDischargeDepth := 9) [h, *]

@[simp] theorem foreignSheet_captureOK (st : Station) (at_ : Pos) (s : State) (h : CaptureOK s.cap) :
    CaptureOK (foreignSheet st at_ s).cap := by
  simp only [foreignSheet]
  (repeat' split) <;> simp (maxDischargeDepth := 9) [h, *]

@[simp] theorem idleOrForeign_captureOK (s : State) (h : CaptureOK s.cap) :
    CaptureOK (idleOrForeign s).cap := by
  simp only [idleOrForeign]
  (repeat' split) <;> simp (maxDischargeDepth := 9) [h, *]

@[simp] theorem snapshot_captureOK (s : State) (h : CaptureOK s.cap) :
    CaptureOK (snapshot s).cap := by
  simp only [snapshot]
  simp [h, becomeVoided_fold _ _ _ rfl, freeRecord_fold _ _ _ rfl]

theorem settleDeferred_fold_captureOK (l : List Cause) (s t : State)
    (e : t = l.foldl (fun s c => if stillOwed s c then takeCause c s else s) s) (h : CaptureOK s.cap) :
    CaptureOK t.cap := by
  subst e
  induction l generalizing s with
  | nil => simpa using h
  | cons a l ih => rw [List.foldl_cons]; apply ih; first | (simp [h]; done) | (split <;> simp [h])

@[simp] theorem settleDeferred_captureOK (s : State) (h : CaptureOK s.cap) :
    CaptureOK (settleDeferred s).cap := by
  simp only [settleDeferred]
  simp [h, settleDeferred_fold _ _ _ rfl, settleDeferred_fold_captureOK _ _ _ rfl]

@[simp] theorem replay_captureOK (s : State) (h : CaptureOK s.cap) :
    CaptureOK (replay s).cap := by
  simp only [replay]
  (repeat' split) <;> simp (maxDischargeDepth := 9) [h, *]

@[simp] theorem endDriveOut_captureOK (s : State) (h : CaptureOK s.cap) :
    CaptureOK (endDriveOut s).cap := by
  simp only [endDriveOut]
  (repeat' split) <;> simp (maxDischargeDepth := 9) [h, *]

@[simp] theorem beginDriveOut_captureOK (s : State) (h : CaptureOK s.cap) :
    CaptureOK (beginDriveOut s).cap := by
  simp only [beginDriveOut]
  simp [h, queueControl_fold _ _ _ rfl]

@[simp] theorem acceptResume_captureOK (s : State) (h : CaptureOK s.cap) :
    CaptureOK (acceptResume s).cap := by
  simp only [acceptResume]
  (repeat' split) <;> simp (maxDischargeDepth := 9) [h, *]

@[simp] theorem afterTracking_captureOK (x : State × List Report) (h : CaptureOK x.1.cap) :
    CaptureOK (afterTracking x).cap := by
  simp only [afterTracking]
  (repeat' split) <;> simp (maxDischargeDepth := 9) [h, *]

@[simp] theorem acceptLevel_captureOK (st : Station) (covered : Bool) (stamp : Pos) (detail : Byte) (s : State) (h : CaptureOK s.cap) :
    CaptureOK (acceptLevel st covered stamp detail s).cap := by
  simp only [acceptLevel]
  (repeat' split) <;> simp (maxDischargeDepth := 9) [h, *]

@[simp] theorem handEdge_captureOK (st : Station) (covered : Bool) (stamp : Pos) (s : State) (h : CaptureOK s.cap) :
    CaptureOK (handEdge st covered stamp s).cap := by
  simp only [handEdge]
  (repeat' split) <;> simp (maxDischargeDepth := 9) [h, *]

@[simp] theorem discardFrame_captureOK (port : Port) (reason : LinkReason) (kind : Option Byte) (s : State) (h : CaptureOK s.cap) :
    CaptureOK (discardFrame port reason kind s).cap := by
  simp only [discardFrame]
  (repeat' split) <;> simp (maxDischargeDepth := 9) [h, *]

@[simp] theorem takeOrder_captureOK (o : OrderFields) (s : State) (h : CaptureOK s.cap) :
    CaptureOK (takeOrder o s).cap := by
  simp only [takeOrder]
  (repeat' split) <;> simp (maxDischargeDepth := 9) [h, *]

@[simp] theorem pickEvent_captureOK (n : OrderNo) (detail : Byte) (s : State) (h : CaptureOK s.cap) :
    CaptureOK (pickEvent n detail s).cap := by
  simp only [pickEvent]
  (repeat' split) <;> simp (maxDischargeDepth := 9) [h, *]

@[simp] theorem takePick_captureOK (n : OrderNo) (s : State) (h : CaptureOK s.cap) :
    CaptureOK (takePick n s).cap := by
  simp only [takePick]
  (repeat' split) <;> simp (maxDischargeDepth := 9) [h, *]

@[simp] theorem takeCredit_captureOK (limit : Byte) (s : State) (h : CaptureOK s.cap) :
    CaptureOK (takeCredit limit s).cap := by
  simp only [takeCredit]
  (repeat' split) <;> simp (maxDischargeDepth := 9) [h, *]

@[simp] theorem skipOrder_captureOK (n : OrderNo) (s : State) (h : CaptureOK s.cap) :
    CaptureOK (skipOrder n s).1.cap := by
  simp only [skipOrder]
  (repeat' split) <;> simp (maxDischargeDepth := 9) [h, *]

@[simp] theorem cancelJob_captureOK (job : Word) (s : State) (h : CaptureOK s.cap) :
    CaptureOK (cancelJob job s).1.cap := by
  simp only [cancelJob]
  simp [h, voidByCancel_fold _ _ _ rfl, freeIfEmpty_fold _ _ _ rfl]

@[simp] theorem afterWrite_captureOK (s : State) (h : CaptureOK s.cap) :
    CaptureOK (afterWrite s).cap := by
  simp only [afterWrite]
  (repeat' split) <;> simp (maxDischargeDepth := 9) [h, *]

@[simp] theorem acceptAtWrite_captureOK (st : Station) (s : State) (h : CaptureOK s.cap) :
    CaptureOK (acceptAtWrite st s).cap := by
  simp only [acceptAtWrite]
  (repeat' split) <;> simp (maxDischargeDepth := 9) [h, *]

@[simp] theorem writeStation_captureOK (args : List Byte) (s : State) (h : CaptureOK s.cap) :
    CaptureOK (writeStation args s).state.cap := by
  rcases e : stationArgs args with _ | x <;> rcases ht : tablesRefusal s with _ | st <;>
    simp [writeStation, writeTable, e, ht, h] <;> (split <;> simp [h])

@[simp] theorem writeZone_captureOK (args : List Byte) (s : State) (h : CaptureOK s.cap) :
    CaptureOK (writeZone args s).state.cap := by
  rcases e : zoneArgs args with _ | x <;> simp only [writeZone, writeTable, e, Option.map] <;> cases tablesRefusal s <;> simp [h]

@[simp] theorem writeBin_captureOK (args : List Byte) (s : State) (h : CaptureOK s.cap) :
    CaptureOK (writeBin args s).state.cap := by
  rcases e : binArgs args with _ | x <;> simp only [writeBin, writeTable, e, Option.map] <;> cases tablesRefusal s <;> simp [h]

@[simp] theorem writeRoute_captureOK (args : List Byte) (s : State) (h : CaptureOK s.cap) :
    CaptureOK (writeRoute args s).state.cap := by
  rcases e : routeArgs args with _ | x <;> simp only [writeRoute, writeTable, e, Option.map] <;> cases tablesRefusal s <;> simp [h]

@[simp] theorem writeLimits_captureOK (args : List Byte) (s : State) (h : CaptureOK s.cap) :
    CaptureOK (writeLimits args s).state.cap := by
  rcases e : limitsArgs args with _ | x <;> simp only [writeLimits, writeTable, e, Option.map] <;> cases tablesRefusal s <;> simp [h]

@[simp] theorem tablesPass_captureOK (s : State) (h : CaptureOK s.cap) :
    CaptureOK (tablesPass s).cap := by
  simp only [tablesPass]
  (repeat' split) <;> simp (maxDischargeDepth := 9) [h, *]

@[simp] theorem checkTables_captureOK (s : State) (h : CaptureOK s.cap) :
    CaptureOK (checkTables s).state.cap := by
  simp only [checkTables]
  (repeat' split) <;> simp (maxDischargeDepth := 9) [h, *]

@[simp] theorem releaseHeld_captureOK (s : State) (h : CaptureOK s.cap) :
    CaptureOK (releaseHeld s).state.cap := by
  simp only [releaseHeld]
  (repeat' split) <;> simp (maxDischargeDepth := 9) [h, *]

@[simp] theorem resume_captureOK (number : Byte) (s : State) (h : CaptureOK s.cap) :
    CaptureOK (resume number s).state.cap := by
  simp only [resume]
  (repeat' split) <;> simp (maxDischargeDepth := 9) [h, *]

@[simp] theorem goStandby_captureOK (s : State) (h : CaptureOK s.cap) :
    CaptureOK (goStandby s).state.cap := by
  simp only [goStandby]
  (repeat' split) <;> simp (maxDischargeDepth := 9) [h, *]

@[simp] theorem goWake_captureOK (s : State) (h : CaptureOK s.cap) :
    CaptureOK (goWake s).state.cap := by
  simp only [goWake]
  (repeat' split) <;> simp (maxDischargeDepth := 9) [h, *]

@[simp] theorem speedReached_captureOK (c : SpeedClass) (s : State) (h : CaptureOK s.cap) :
    CaptureOK (speedReached c s).cap := by
  simp only [speedReached]
  (repeat' split) <;> simp (maxDischargeDepth := 9) [h, *]

@[simp] theorem takeSpeedReady_captureOK (cls : Byte) (s : State) (h : CaptureOK s.cap) :
    CaptureOK (takeSpeedReady cls s).cap := by
  simp only [takeSpeedReady]
  (repeat' split) <;> simp (maxDischargeDepth := 9) [h, *]

@[simp] theorem discardJob_captureOK (s : State) (h : CaptureOK s.cap) :
    CaptureOK (discardJob s).cap := by
  obtain ⟨h1, h2, h3⟩ := h
  simp only [discardJob, captureAfterLinkReset]
  split
  · refine ⟨fun _ => ⟨rfl, rfl⟩, by simp, ?_⟩
    simp only [CountWithin] at h3 ⊢
    split <;> simp_all
  · exact ⟨h1, h2, h3⟩

@[simp] theorem pathLostStop_captureOK (s : State) (h : CaptureOK s.cap) :
    CaptureOK (pathLostStop s).cap := by
  simp only [pathLostStop]
  (repeat' split) <;> simp (maxDischargeDepth := 9) [h, *]

@[simp] theorem afterLinkReset_captureOK (tracked : Bool) (s : State) (h : CaptureOK s.cap) :
    CaptureOK (afterLinkReset tracked s).cap := by
  simp only [afterLinkReset]
  (repeat' split) <;> simp (maxDischargeDepth := 9) [h, *]

@[simp] theorem linkReset_captureOK (s : State) (h : CaptureOK s.cap) :
    CaptureOK (linkReset s).cap := by
  simp only [linkReset]
  (repeat' split) <;> simp (maxDischargeDepth := 9) [h, *]

@[simp] theorem resetPart_captureOK (port : MgmtPort) (s : State) (h : CaptureOK s.cap) :
    CaptureOK (resetPart port s).state.cap := by
  simp only [resetPart]
  (repeat' split) <;> simp (maxDischargeDepth := 9) [h, *]

@[simp] theorem commitMember_captureOK (s : State) (e : Entry) (h : CaptureOK s.cap) :
    CaptureOK (commitMember s e).cap := by
  simp only [commitMember]
  (repeat' split) <;> simp (maxDischargeDepth := 9) [h, *]

theorem commitMember_fold_captureOK (l : List Entry) (s t : State)
    (e : t = l.foldl (commitMember) s) (h : CaptureOK s.cap) :
    CaptureOK t.cap := by
  subst e
  induction l generalizing s with
  | nil => simpa using h
  | cons a l ih => rw [List.foldl_cons]; apply ih; first | (simp [h]; done) | (split <;> simp [h])

@[simp] theorem commitMembers_captureOK (r : SetRec) (s : State) (h : CaptureOK s.cap) :
    CaptureOK (commitMembers r s).cap := by
  simp only [commitMembers]
  simp [h, commitMember_fold _ _ _ rfl, commitMember_fold_captureOK _ _ _ rfl]

@[simp] theorem faultSet_captureOK (n : SetName) (s : State) (h : CaptureOK s.cap) :
    CaptureOK (faultSet n s).cap := by
  simp only [faultSet]
  (repeat' split) <;> simp (maxDischargeDepth := 9) [h, *]

@[simp] theorem leaveOutstanding_captureOK (n : SetName) (s : State) (h : CaptureOK s.cap) :
    CaptureOK (leaveOutstanding n s).cap := by
  simp only [leaveOutstanding]
  (repeat' split) <;> simp (maxDischargeDepth := 9) [h, *]

@[simp] theorem followRaw_captureOK (st : Station) (s : State) (h : CaptureOK s.cap) :
    CaptureOK (followRaw st s).cap := by
  simp only [followRaw]
  (repeat' split) <;> simp (maxDischargeDepth := 9) [h, *]

@[simp] theorem handSample_captureOK (s : State) (x : Station × Bool × Pos) (h : CaptureOK s.cap) :
    CaptureOK (handSample s x).cap := by
  simp only [handSample]
  (repeat' split) <;> simp (maxDischargeDepth := 9) [h, *]

theorem handSampled_fold_captureOK (l : List (Station × Bool × Pos)) (s t : State)
    (e : t = l.foldl (handSample) s) (h : CaptureOK s.cap) :
    CaptureOK t.cap := by
  subst e
  induction l generalizing s with
  | nil => simpa using h
  | cons a l ih => rw [List.foldl_cons]; apply ih; first | (simp [h]; done) | (split <;> simp [h])

@[simp] theorem handSampled_captureOK (edges : List (Station × Bool × Pos)) (s : State) (h : CaptureOK s.cap) :
    CaptureOK (handSampled edges s).cap := by
  simp only [handSampled]
  simp [h, handSampled_fold _ _ _ rfl, handSampled_fold_captureOK _ _ _ rfl]

@[simp] theorem endAutoload_captureOK (image : List Word) (s : State) (h : CaptureOK s.cap) :
    CaptureOK (endAutoload image s).cap := by
  simp only [endAutoload]
  (repeat' split) <;> simp (maxDischargeDepth := 9) [h, *]

end Sys2Proof.Machine
end

