-- ==== Sys2Proof/Laws/LinkQueues.lean ====
section
/-! SUPPORT. The queues of the link: every shared operation keeps the limits that LinkInv states. -/

namespace Sys2Proof.Machine

set_option linter.unusedSimpArgs false
/-- What LinkInv says of the link (R86, R170, R172, R174, R178). -/
def LinkOK (l : Link) : Prop :=
  l.commands.length ≤ 16 ∧ l.holding.length ≤ 4 ∧ l.reports.length ≤ 32 ∧ l.replies.length ≤ 4 ∧
  l.notices.length ≤ 48 ∧ l.lossCount ≤ 255 ∧ l.pathControl.count .halt ≤ 1

/-- What LinkInv says of the service port (R176). -/
def ServiceOK (v : ServicePort) : Prop :=
  v.notices.length ≤ 8 ∧ (v.reply.isSome = true → ∃ h, v.held = some h ∧ h.served = true)

theorem LinkInv.iff (s : State) : LinkInv s ↔ LinkOK s.link ∧ ServiceOK s.svc := by
  simp only [LinkInv, LinkOK, ServiceOK]
  constructor
  · rintro ⟨h1, h2, h3, h4, h5, h6, h7, h8, h9⟩
    exact ⟨⟨h1, h2, h3, h4, h5, h6, h8⟩, h7, h9⟩
  · rintro ⟨⟨h1, h2, h3, h4, h5, h6, h8⟩, h7, h9⟩
    exact ⟨h1, h2, h3, h4, h5, h6, h7, h8, h9⟩

theorem haltFrames_count (l : List PathControl) (h : l.count .halt ≤ 1) : (haltFrames l).count .halt ≤ 1 := by
  have hf : (l.filter (·.survivesHalt)).count .halt ≤ 1 := by
    refine Nat.le_trans ?_ h
    exact (List.filter_sublist (l := l)).count_le _
  simp only [haltFrames]
  split
  · exact hf
  · rename_i hc
    have h0 : (l.filter (·.survivesHalt)).count .halt = 0 := by
      apply List.count_eq_zero.mpr
      simpa using hc
    generalize l.filter (·.survivesHalt) = k at h0 ⊢
    have e : ∀ p : PathControl → Bool, (k.takeWhile p).count .halt + (k.dropWhile p).count .halt = 0 := by
      intro p
      rw [← List.count_append, List.takeWhile_append_dropWhile]
      exact h0
    rw [List.count_append, List.count_cons_self]
    have := e (!·.isSetVoid)
    omega

theorem queueControl_linkOK (f : PathControl) (s : State) (hf : f ≠ .halt) (h : LinkOK s.link) :
    LinkOK (queueControl f s).link := by
  obtain ⟨h1, h2, h3, h4, h5, h6, h7⟩ := h
  refine ⟨h1, h2, h3, h4, h5, h6, ?_⟩
  simpa [queueControl, List.count_append, List.count_singleton, hf] using h7

theorem takeReady_length {b : Bool} {cs : List Command} {c : Command} {rest : List Command}
    (h : takeReady b cs = some (c, rest)) : rest.length ≤ cs.length := by
  induction cs generalizing b c rest with
  | nil => simp [takeReady] at h
  | cons d ds ih =>
    have key : ∀ ready : Bool, (if ready then some (d, ds)
        else (takeReady (b || d.mark.isSome) ds).map fun x => (x.1, d :: x.2)) = some (c, rest) →
        rest.length ≤ (d :: ds).length := by
      intro ready hr
      cases ready
      · rcases ht : takeReady (b || d.mark.isSome) ds with _ | ⟨e, es⟩
        · simp [ht] at hr
        · simp only [ht, Option.map_some] at hr
          obtain ⟨-, rfl⟩ : e = c ∧ d :: es = rest := by simpa using hr
          simpa using ih ht
      · obtain ⟨-, rfl⟩ : d = c ∧ ds = rest := by simpa using hr
        simp
    exact key _ h

@[simp] theorem makeNotice_linkOK (n : Notice) (s : State) (h : LinkOK s.link) :
    LinkOK (makeNotice n s).link := by
  simp only [makeNotice]
  obtain ⟨h1, h2, h3, h4, h5, h6, h7⟩ := h
  split
  · exact ⟨h1, h2, h3, h4, by simp <;> omega, h6, h7⟩
  · exact ⟨h1, h2, h3, h4, h5, by simp <;> omega, h7⟩

@[simp] theorem makeLinkError_linkOK (port : Port) (reason : LinkReason) (third : Byte) (s : State) (h : LinkOK s.link) :
    LinkOK (makeLinkError port reason third s).link := by
  simp only [makeLinkError]
  (repeat' split) <;> simp (maxDischargeDepth := 9) [h, *]

@[simp] theorem makeCaptureDone_linkOK (s : State) (h : LinkOK s.link) :
    LinkOK (makeCaptureDone s).link := by
  simp only [makeCaptureDone]
  (repeat' split) <;> simp (maxDischargeDepth := 9) [h, *]

@[simp] theorem offerEvent_linkOK (k : EventKind) (p : Pos) (st : Option Station) (order : Option OrderNo) (detail : Byte) (s : State) (h : LinkOK s.link) :
    LinkOK (offerEvent k p st order detail s).link := by
  simp only [offerEvent]
  (repeat' split) <;> simp (maxDischargeDepth := 9) [h, *]

@[simp] theorem enterState_linkOK (st : PartState) (s : State) (h : LinkOK s.link) :
    LinkOK (enterState st s).link := by
  simp only [enterState]
  (repeat' split) <;> simp (maxDischargeDepth := 9) [h, *]

@[simp] theorem makeCredit_linkOK (s : State) (h : LinkOK s.link) :
    LinkOK (makeCredit s).link := by
  exact h

@[simp] theorem creditIfChanged_linkOK (old : CreditContent) (s : State) (h : LinkOK s.link) :
    LinkOK (creditIfChanged old s).link := by
  simp only [creditIfChanged]
  (repeat' split) <;> simp (maxDischargeDepth := 9) [h, *]

@[simp] theorem removeHeads_linkOK (s : State) (h : LinkOK s.link) :
    LinkOK (removeHeads s).link := by
  simp only [removeHeads]
  (repeat' split) <;> simp (maxDischargeDepth := 9) [h, *]

@[simp] theorem requestHalt_linkOK (s : State) (h : LinkOK s.link) :
    LinkOK (requestHalt s).link := by
  obtain ⟨h1, h2, h3, h4, h5, h6, h7⟩ := h
  exact ⟨h1, h2, h3, h4, h5, h6, haltFrames_count _ h7⟩

@[simp] theorem retestBarriers_linkOK (s : State) (h : LinkOK s.link) :
    LinkOK (retestBarriers s).link := by
  obtain ⟨h1, h2, h3, h4, h5, h6, h7⟩ := h
  exact ⟨by simpa [retestBarriers] using h1, h2, h3, h4, h5, h6, h7⟩

@[simp] theorem grantLower_linkOK (s : State) (h : LinkOK s.link) :
    LinkOK (grantLower s).link := by
  obtain ⟨h1, h2, h3, h4, h5, h6, h7⟩ := h
  rcases hl : s.link.lowerTx with _ | f
  · rcases hp : s.link.pathControl with _ | ⟨p, ps⟩
    · cases hs : s.link.linkStarted
      · simp [grantLower, hl, hp, hs, LinkOK, *]
      · rcases hc : takeReady false s.link.commands with _ | ⟨c, cs⟩
        · rcases hf : s.link.forwarded with _ | ⟨f, fs⟩ <;> simp [grantLower, hl, hp, hs, hc, hf, LinkOK, *]
        · have := takeReady_length hc
          simp [grantLower, hl, hp, hs, hc, LinkOK, *]
          omega
    · simp only [hp] at h7
      have : ps.count .halt ≤ 1 := Nat.le_trans ((List.sublist_cons_self p ps).count_le _) h7
      simp [grantLower, hl, hp, LinkOK, *]
  · simp [grantLower, hl, LinkOK, *]

@[simp] theorem grantUpper_linkOK (s : State) (h : LinkOK s.link) :
    LinkOK (grantUpper s).link := by
  obtain ⟨h1, h2, h3, h4, h5, h6, h7⟩ := h
  rcases hu : s.link.upperTx with _ | f
  · rcases hc : s.link.credit with _ | c
    · rcases hr : s.link.replies with _ | ⟨r, rs⟩
      · rcases hn : s.link.notices with _ | ⟨n, ns⟩
        · rcases hp : s.link.reports with _ | ⟨p, ps⟩
          · simp [grantUpper, hu, hc, hr, hn, hp, LinkOK, *]
          · simp only [hp, List.length_cons] at h3
            simp [grantUpper, hu, hc, hr, hn, hp, LinkOK, *]
            omega
        · simp only [hn, List.length_cons] at h5
          have : (afterNoticeLeaves ns s.link.lossCount).length ≤ 48 := by
            simp only [afterNoticeLeaves]
            split
            · simp
              omega
            · omega
          simp [grantUpper, hu, hc, hr, hn, LinkOK, *]
      · simp only [hr, List.length_cons] at h4
        simp [grantUpper, hu, hc, hr, LinkOK, *]
        omega
    · simp [grantUpper, hu, hc, LinkOK, *]
  · simp [grantUpper, hu, LinkOK, *]

@[simp] theorem finish_linkOK (s : State) (h : LinkOK s.link) :
    LinkOK (finish s).link := by
  simp only [finish]
  (repeat' split) <;> simp (maxDischargeDepth := 9) [h, *]

@[simp] theorem announceCause_linkOK (t : Treatment) (index : Nat) (c : Cause) (s : State) (h : LinkOK s.link) :
    LinkOK (announceCause t index c s).link := by
  simp only [announceCause]
  (repeat' split) <;> simp (maxDischargeDepth := 9) [h, *]

@[simp] theorem returnForwarded_linkOK (s : State) (h : LinkOK s.link) :
    LinkOK (returnForwarded s).link := by
  exact h

@[simp] theorem declareStop_linkOK (c : Cause) (s : State) (h : LinkOK s.link) :
    LinkOK (declareStop c s).link := by
  simp only [declareStop]
  (repeat' split) <;> simp (maxDischargeDepth := 9) [h, *]

@[simp] theorem joinStop_linkOK (c : Cause) (s : State) (h : LinkOK s.link) :
    LinkOK (joinStop c s).link := by
  simp only [joinStop]
  (repeat' split) <;> simp (maxDischargeDepth := 9) [h, *]

@[simp] theorem deferCause_linkOK (c : Cause) (s : State) (h : LinkOK s.link) :
    LinkOK (deferCause c s).link := by
  simp only [deferCause]
  (repeat' split) <;> simp (maxDischargeDepth := 9) [h, *]

@[simp] theorem takeCause_linkOK (c : Cause) (s : State) (h : LinkOK s.link) :
    LinkOK (takeCause c s).link := by
  simp only [takeCause]
  (repeat' split) <;> simp (maxDischargeDepth := 9) [h, *]

theorem takeReports_fold_linkOK (l : List Report) (s t : State)
    (e : t = l.foldl (fun s r => takeCause (trackerCause s r) s) s) (h : LinkOK s.link) :
    LinkOK t.link := by
  subst e
  induction l generalizing s with
  | nil => simpa using h
  | cons a l ih => rw [List.foldl_cons]; apply ih; first | (simp [h]; done) | (split <;> simp [h])

@[simp] theorem takeReports_linkOK (rs : List Report) (s : State) (h : LinkOK s.link) :
    LinkOK (takeReports rs s).link := by
  simp only [takeReports]
  simp (maxDischargeDepth := 9) [h, takeReports_fold _ _ _ rfl, takeReports_fold_linkOK _ _ _ rfl]

@[simp] theorem forwardEntry_linkOK (e : Entry) (s : State) (h : LinkOK s.link) :
    LinkOK (forwardEntry e s).link := by
  simp only [forwardEntry]
  split
  · apply enterState_linkOK
    exact h
  · exact h

@[simp] theorem considerQueue_linkOK (n : Nat) (s : State) (h : LinkOK s.link) :
    LinkOK (considerQueue n s).link := by
  induction n generalizing s with
  | zero => simpa [considerQueue] using h
  | succ n ih =>
    simp only [considerQueue]
    (repeat' split) <;> first | (simp [h]; done) | (apply ih; simp [h])

@[simp] theorem drainCheck_linkOK (s : State) (h : LinkOK s.link) :
    LinkOK (drainCheck s).link := by
  simp only [drainCheck]
  (repeat' split) <;> simp [queueControl_linkOK, h]

@[simp] theorem enterHeld_linkOK (reason : HeldReason) (n : OrderNo) (s : State) (h : LinkOK s.link) :
    LinkOK (enterHeld reason n s).link := by
  simp only [enterHeld]
  (repeat' split) <;> simp (maxDischargeDepth := 9) [h, *]

@[simp] theorem heldCheck_linkOK (s : State) (h : LinkOK s.link) :
    LinkOK (heldCheck s).link := by
  simp only [heldCheck]
  (repeat' split) <;> simp (maxDischargeDepth := 9) [h, *]

@[simp] theorem idleCheck_linkOK (s : State) (h : LinkOK s.link) :
    LinkOK (idleCheck s).link := by
  simp only [idleCheck]
  (repeat' split) <;> simp (maxDischargeDepth := 9) [h, *]

@[simp] theorem forwarderPass_linkOK (s : State) (h : LinkOK s.link) :
    LinkOK (forwarderPass s).link := by
  simp only [forwarderPass]
  exact idleCheck_linkOK _ (heldCheck_linkOK _ (drainCheck_linkOK _ (considerQueue_linkOK _ _ (by simpa using h))))

@[simp] theorem enterChosen_linkOK (s : State) (h : LinkOK s.link) :
    LinkOK (enterChosen s).link := by
  simp only [enterChosen]
  (repeat' split) <;> simp (maxDischargeDepth := 9) [h, *]

@[simp] theorem leaveHeld_linkOK (old : Option OrderNo) (s : State) (h : LinkOK s.link) :
    LinkOK (leaveHeld old s).link := by
  simp only [leaveHeld]
  (repeat' split) <;> simp (maxDischargeDepth := 9) [h, *]

@[simp] theorem afterWithdrawal_linkOK (old : Option OrderNo) (s : State) (h : LinkOK s.link) :
    LinkOK (afterWithdrawal old s).link := by
  simp only [afterWithdrawal]
  (repeat' split) <;> simp (maxDischargeDepth := 9) [h, *]

@[simp] theorem wakeToIdle_linkOK (s : State) (h : LinkOK s.link) :
    LinkOK (wakeToIdle s).link := by
  simp only [wakeToIdle]
  (repeat' split) <;> simp (maxDischargeDepth := 9) [h, *]

@[simp] theorem queueSetVoid_linkOK (n : SetName) (s : State) (h : LinkOK s.link) :
    LinkOK (queueSetVoid n s).link := by
  exact queueControl_linkOK _ s (by simp) h

@[simp] theorem queueSetVoidOutsidePurge_linkOK (n : SetName) (s : State) (h : LinkOK s.link) :
    LinkOK (queueSetVoidOutsidePurge n s).link := by
  simp only [queueSetVoidOutsidePurge]
  (repeat' split) <;> simp (maxDischargeDepth := 9) [h, *]

@[simp] theorem deliverToSet_linkOK (name : SetName) (n : OrderNo) (waste : Bool) (s : State) (h : LinkOK s.link) :
    LinkOK (deliverToSet name n waste s).link := by
  simp only [deliverToSet]
  (repeat' split) <;> simp (maxDischargeDepth := 9) [h, *]

@[simp] theorem matchOn_linkOK (st : Station) (stamp : Pos) (x : Expectation) (rest : List Expectation) (s : State) (h : LinkOK s.link) :
    LinkOK (matchOn st stamp x rest s).1.link := by
  simp only [matchOn]
  (repeat' split) <;> simp (maxDischargeDepth := 9) [h, *]

@[simp] theorem trackOn_linkOK (st : Station) (stamp : Pos) (s : State) (h : LinkOK s.link) :
    LinkOK (trackOn st stamp s).1.link := by
  simp only [trackOn]
  (repeat' split) <;> simp (maxDischargeDepth := 9) [h, *]

@[simp] theorem commitEntry_linkOK (n : OrderNo) (detail : Byte) (s : State) (h : LinkOK s.link) :
    LinkOK (commitEntry n detail s).link := by
  simp only [commitEntry]
  (repeat' split) <;> simp (maxDischargeDepth := 9) [h, *]

@[simp] theorem deliverEntry_linkOK (e : Entry) (kind : BinKind) (s : State) (h : LinkOK s.link) :
    LinkOK (deliverEntry e kind s).link := by
  simp only [deliverEntry]
  (repeat' split) <;> simp (maxDischargeDepth := 9) [h, *]

@[simp] theorem deliver_linkOK (tag : Tag) (s : State) (h : LinkOK s.link) :
    LinkOK (deliver tag s).link := by
  simp only [deliver]
  (repeat' split) <;> simp (maxDischargeDepth := 9) [h, *]

@[simp] theorem offAction_linkOK (stamp : Pos) (o : Occupant) (s : State) (h : LinkOK s.link) :
    LinkOK (offAction stamp o s).1.link := by
  simp only [offAction]
  (repeat' split) <;> simp (maxDischargeDepth := 9) [h, *]

@[simp] theorem matchOff_linkOK (st : Station) (stamp : Pos) (o : Occupant) (s : State) (h : LinkOK s.link) :
    LinkOK (matchOff st stamp o s).1.link := by
  simp only [matchOff]
  (repeat' split) <;> simp (maxDischargeDepth := 9) [h, *]

@[simp] theorem trackOff_linkOK (st : Station) (stamp : Pos) (s : State) (h : LinkOK s.link) :
    LinkOK (trackOff st stamp s).1.link := by
  simp only [trackOff]
  (repeat' split) <;> simp (maxDischargeDepth := 9) [h, *]

@[simp] theorem takeLate_linkOK (st : Station) (s : State) (h : LinkOK s.link) :
    LinkOK (takeLate st s).link := by
  simp only [takeLate]
  (repeat' split) <;> simp (maxDischargeDepth := 9) [h, *]

@[simp] theorem takeStuck_linkOK (st : Station) (s : State) (h : LinkOK s.link) :
    LinkOK (takeStuck st s).link := by
  simp only [takeStuck]
  (repeat' split) <;> simp (maxDischargeDepth := 9) [h, *]

@[simp] theorem takeDueExpiries_linkOK (st : Station) (s : State) (h : LinkOK s.link) :
    LinkOK (takeDueExpiries st s).link := by
  simp only [takeDueExpiries]
  (repeat' split) <;> simp (maxDischargeDepth := 9) [h, *]

@[simp] theorem formPlan_linkOK (p : PlanRec) (s : State) (h : LinkOK s.link) :
    LinkOK (formPlan p s).link := by
  simp only [formPlan]
  (repeat' split) <;> simp (maxDischargeDepth := 9) [h, *]

@[simp] theorem foreignSheet_linkOK (st : Station) (at_ : Pos) (s : State) (h : LinkOK s.link) :
    LinkOK (foreignSheet st at_ s).link := by
  simp only [foreignSheet]
  (repeat' split) <;> simp (maxDischargeDepth := 9) [h, *]

@[simp] theorem idleOrForeign_linkOK (s : State) (h : LinkOK s.link) :
    LinkOK (idleOrForeign s).link := by
  simp only [idleOrForeign]
  (repeat' split) <;> simp (maxDischargeDepth := 9) [h, *]

@[simp] theorem snapshot_linkOK (s : State) (h : LinkOK s.link) :
    LinkOK (snapshot s).link := by
  simp only [snapshot]
  simp (maxDischargeDepth := 9) [h, becomeVoided_fold _ _ _ rfl, freeRecord_fold _ _ _ rfl]

theorem settleDeferred_fold_linkOK (l : List Cause) (s t : State)
    (e : t = l.foldl (fun s c => if stillOwed s c then takeCause c s else s) s) (h : LinkOK s.link) :
    LinkOK t.link := by
  subst e
  induction l generalizing s with
  | nil => simpa using h
  | cons a l ih => rw [List.foldl_cons]; apply ih; first | (simp [h]; done) | (split <;> simp [h])

@[simp] theorem settleDeferred_linkOK (s : State) (h : LinkOK s.link) :
    LinkOK (settleDeferred s).link := by
  simp only [settleDeferred]
  simp (maxDischargeDepth := 9) [h, settleDeferred_fold _ _ _ rfl, settleDeferred_fold_linkOK _ _ _ rfl]

@[simp] theorem replay_linkOK (s : State) (h : LinkOK s.link) :
    LinkOK (replay s).link := by
  simp only [replay]
  (repeat' split) <;> simp (maxDischargeDepth := 9) [h, *]

theorem queueSetVoid_fold_linkOK (l : List SetName) (s t : State)
    (e : t = l.foldl (fun s n => queueSetVoid n s) s) (h : LinkOK s.link) :
    LinkOK t.link := by
  subst e
  induction l generalizing s with
  | nil => simpa using h
  | cons a l ih => rw [List.foldl_cons]; apply ih; first | (simp [h]; done) | (split <;> simp [h])

@[simp] theorem startVoidPhase_linkOK (s : State) (h : LinkOK s.link) :
    LinkOK (startVoidPhase s).link := by
  simp only [startVoidPhase]
  simp (maxDischargeDepth := 9) [h, queueSetVoid_fold _ _ _ rfl, queueSetVoid_fold_linkOK _ _ _ rfl]

@[simp] theorem endDriveOut_linkOK (s : State) (h : LinkOK s.link) :
    LinkOK (endDriveOut s).link := by
  simp only [endDriveOut]
  (repeat' split) <;> simp (maxDischargeDepth := 9) [h, *]

@[simp] theorem beginDriveOut_linkOK (s : State) (h : LinkOK s.link) :
    LinkOK (beginDriveOut s).link := by
  simp only [beginDriveOut]
  have k : LinkOK ((purgeFrames (purgeItems s)).foldl (fun s f => queueControl f s) s).link := by
    simp only [purgeFrames]
    split <;> simp [queueControl_linkOK, h]
  simp [k]

@[simp] theorem acceptResume_linkOK (s : State) (h : LinkOK s.link) :
    LinkOK (acceptResume s).link := by
  simp only [acceptResume]
  have k := queueControl_linkOK .run s (by simp) h
  (repeat' split) <;> simp (maxDischargeDepth := 9) [k]

@[simp] theorem afterTracking_linkOK (x : State × List Report) (h : LinkOK x.1.link) :
    LinkOK (afterTracking x).link := by
  simp only [afterTracking]
  (repeat' split) <;> simp (maxDischargeDepth := 9) [h, *]

@[simp] theorem acceptLevel_linkOK (st : Station) (covered : Bool) (stamp : Pos) (detail : Byte) (s : State) (h : LinkOK s.link) :
    LinkOK (acceptLevel st covered stamp detail s).link := by
  simp only [acceptLevel]
  (repeat' split) <;> simp (maxDischargeDepth := 9) [h, *]

@[simp] theorem handEdge_linkOK (st : Station) (covered : Bool) (stamp : Pos) (s : State) (h : LinkOK s.link) :
    LinkOK (handEdge st covered stamp s).link := by
  simp only [handEdge]
  (repeat' split) <;> simp (maxDischargeDepth := 9) [h, *]

@[simp] theorem setReceiver_linkOK (port : Port) (r : Receiver) (s : State) (h : LinkOK s.link) :
    LinkOK (setReceiver port r s).link := by
  cases port <;> exact h

@[simp] theorem received_linkOK (port : Port) (s : State) (h : LinkOK s.link) :
    LinkOK (received port s).link := by
  cases port <;> exact h

@[simp] theorem discardFrame_linkOK (port : Port) (reason : LinkReason) (kind : Option Byte) (s : State) (h : LinkOK s.link) :
    LinkOK (discardFrame port reason kind s).link := by
  simp only [discardFrame]
  (repeat' split) <;> simp (maxDischargeDepth := 9) [h, *]

@[simp] theorem joinCommands_linkOK (c : Command) (s : State) (h : LinkOK s.link) :
    LinkOK (joinCommands c s).link := by
  simp only [joinCommands]
  split
  · obtain ⟨h1, h2, h3, h4, h5, h6, h7⟩ := h
    exact ⟨by simp <;> omega, h2, h3, h4, h5, h6, h7⟩
  · simp [h]

@[simp] theorem holdUpper_linkOK (payload : List Byte) (s : State) (h : LinkOK s.link) :
    LinkOK (holdUpper payload s).link := by
  simp only [holdUpper]
  (repeat' split)
  · simp [h]
  · obtain ⟨h1, h2, h3, h4, h5, h6, h7⟩ := h
    exact ⟨h1, by simp <;> omega, h3, h4, h5, h6, h7⟩
  · simp [h]

@[simp] theorem holdService_linkOK (payload : List Byte) (s : State) (h : LinkOK s.link) :
    LinkOK (holdService payload s).link := by
  simp only [holdService]
  (repeat' split) <;> simp (maxDischargeDepth := 9) [h, *]

@[simp] theorem forwardUp_linkOK (kind : Byte) (payload : List Byte) (s : State) (h : LinkOK s.link) :
    LinkOK (forwardUp kind payload s).link := by
  simp only [forwardUp]
  split
  · obtain ⟨h1, h2, h3, h4, h5, h6, h7⟩ := h
    exact ⟨h1, h2, by simp <;> omega, h4, h5, h6, h7⟩
  · simp [h]

@[simp] theorem passUp_linkOK (kind : Byte) (payload : List Byte) (s : State) (h : LinkOK s.link) :
    LinkOK (passUp kind payload s).link := by
  simp only [passUp]
  (repeat' split) <;> simp (maxDischargeDepth := 9) [h, *]

@[simp] theorem acceptEntry_linkOK (e : Entry) (s : State) (h : LinkOK s.link) :
    LinkOK (acceptEntry e s).link := by
  simp only [acceptEntry]
  (repeat' split) <;> simp (maxDischargeDepth := 9) [h, *]

@[simp] theorem takeOrder_linkOK (o : OrderFields) (s : State) (h : LinkOK s.link) :
    LinkOK (takeOrder o s).link := by
  simp only [takeOrder]
  (repeat' split) <;> simp (maxDischargeDepth := 9) [h, *]

@[simp] theorem pickEvent_linkOK (n : OrderNo) (detail : Byte) (s : State) (h : LinkOK s.link) :
    LinkOK (pickEvent n detail s).link := by
  simp only [pickEvent]
  (repeat' split) <;> simp (maxDischargeDepth := 9) [h, *]

@[simp] theorem takePick_linkOK (n : OrderNo) (s : State) (h : LinkOK s.link) :
    LinkOK (takePick n s).link := by
  simp only [takePick]
  (repeat' split) <;> simp (maxDischargeDepth := 9) [h, *]

@[simp] theorem takeCredit_linkOK (limit : Byte) (s : State) (h : LinkOK s.link) :
    LinkOK (takeCredit limit s).link := by
  simp only [takeCredit]
  (repeat' split) <;> simp (maxDischargeDepth := 9) [h, *]

@[simp] theorem skipOrder_linkOK (n : OrderNo) (s : State) (h : LinkOK s.link) :
    LinkOK (skipOrder n s).1.link := by
  simp only [skipOrder]
  (repeat' split) <;> simp (maxDischargeDepth := 9) [h, *]

@[simp] theorem voidByCancel_linkOK (n : SetName) (s : State) (h : LinkOK s.link) :
    LinkOK (voidByCancel n s).link := by
  exact queueSetVoid_linkOK n (becomeVoided n s) (by simpa using h)

theorem voidByCancel_fold_linkOK (l : List SetRec) (s t : State)
    (e : t = l.foldl (fun s r => voidByCancel r.name s) s) (h : LinkOK s.link) :
    LinkOK t.link := by
  subst e
  induction l generalizing s with
  | nil => simpa using h
  | cons a l ih => rw [List.foldl_cons]; apply ih; first | (simp [h]; done) | (split <;> simp [h])

@[simp] theorem cancelJob_linkOK (job : Word) (s : State) (h : LinkOK s.link) :
    LinkOK (cancelJob job s).1.link := by
  simp only [cancelJob]
  simp (maxDischargeDepth := 9) [h, voidByCancel_fold _ _ _ rfl, voidByCancel_fold_linkOK _ _ _ rfl, freeIfEmpty_fold _ _ _ rfl]

@[simp] theorem takeRequest_linkOK (port : MgmtPort) (s : State) (h : LinkOK s.link) :
    LinkOK (takeRequest port s).link := by
  obtain ⟨h1, h2, h3, h4, h5, h6, h7⟩ := h
  cases port
  · exact ⟨h1, by simp [takeRequest]; omega, h3, h4, h5, h6, h7⟩
  · exact ⟨h1, h2, h3, h4, h5, h6, h7⟩

@[simp] theorem afterWrite_linkOK (s : State) (h : LinkOK s.link) :
    LinkOK (afterWrite s).link := by
  simp only [afterWrite]
  (repeat' split) <;> simp (maxDischargeDepth := 9) [h, *]

@[simp] theorem acceptAtWrite_linkOK (st : Station) (s : State) (h : LinkOK s.link) :
    LinkOK (acceptAtWrite st s).link := by
  simp only [acceptAtWrite]
  (repeat' split) <;> simp (maxDischargeDepth := 9) [h, *]

@[simp] theorem writeStation_linkOK (args : List Byte) (s : State) (h : LinkOK s.link) :
    LinkOK (writeStation args s).state.link := by
  rcases e : stationArgs args with _ | x <;> rcases ht : tablesRefusal s with _ | st <;>
    simp [writeStation, writeTable, e, ht, h] <;> (split <;> simp [h])

@[simp] theorem writeZone_linkOK (args : List Byte) (s : State) (h : LinkOK s.link) :
    LinkOK (writeZone args s).state.link := by
  rcases e : zoneArgs args with _ | x <;> simp only [writeZone, writeTable, e, Option.map] <;> cases tablesRefusal s <;> simp [h]

@[simp] theorem writeBin_linkOK (args : List Byte) (s : State) (h : LinkOK s.link) :
    LinkOK (writeBin args s).state.link := by
  rcases e : binArgs args with _ | x <;> simp only [writeBin, writeTable, e, Option.map] <;> cases tablesRefusal s <;> simp [h]

@[simp] theorem writeRoute_linkOK (args : List Byte) (s : State) (h : LinkOK s.link) :
    LinkOK (writeRoute args s).state.link := by
  rcases e : routeArgs args with _ | x <;> simp only [writeRoute, writeTable, e, Option.map] <;> cases tablesRefusal s <;> simp [h]

@[simp] theorem writeLimits_linkOK (args : List Byte) (s : State) (h : LinkOK s.link) :
    LinkOK (writeLimits args s).state.link := by
  rcases e : limitsArgs args with _ | x <;> simp only [writeLimits, writeTable, e, Option.map] <;> cases tablesRefusal s <;> simp [h]

@[simp] theorem tablesPass_linkOK (s : State) (h : LinkOK s.link) :
    LinkOK (tablesPass s).link := by
  simp only [tablesPass]
  (repeat' split) <;> simp (maxDischargeDepth := 9) [h, *]

@[simp] theorem checkTables_linkOK (s : State) (h : LinkOK s.link) :
    LinkOK (checkTables s).state.link := by
  simp only [checkTables]
  (repeat' split) <;> simp (maxDischargeDepth := 9) [h, *]

@[simp] theorem releaseHeld_linkOK (s : State) (h : LinkOK s.link) :
    LinkOK (releaseHeld s).state.link := by
  simp only [releaseHeld]
  (repeat' split) <;> simp (maxDischargeDepth := 9) [h, *]

@[simp] theorem resume_linkOK (number : Byte) (s : State) (h : LinkOK s.link) :
    LinkOK (resume number s).state.link := by
  simp only [resume]
  (repeat' split) <;> simp (maxDischargeDepth := 9) [h, *]

@[simp] theorem goStandby_linkOK (s : State) (h : LinkOK s.link) :
    LinkOK (goStandby s).state.link := by
  simp only [goStandby]
  (repeat' split) <;> simp (maxDischargeDepth := 9) [h, *]

@[simp] theorem goWake_linkOK (s : State) (h : LinkOK s.link) :
    LinkOK (goWake s).state.link := by
  simp only [goWake]
  (repeat' split) <;> simp (maxDischargeDepth := 9) [h, *]

@[simp] theorem speedReached_linkOK (c : SpeedClass) (s : State) (h : LinkOK s.link) :
    LinkOK (speedReached c s).link := by
  simp only [speedReached]
  (repeat' split) <;> simp (maxDischargeDepth := 9) [h, *]

@[simp] theorem takeSpeedReady_linkOK (cls : Byte) (s : State) (h : LinkOK s.link) :
    LinkOK (takeSpeedReady cls s).link := by
  simp only [takeSpeedReady]
  (repeat' split) <;> simp (maxDischargeDepth := 9) [h, *]

@[simp] theorem discardJob_linkOK (s : State) (h : LinkOK s.link) :
    LinkOK (discardJob s).link := by
  exact h

@[simp] theorem pathLostStop_linkOK (s : State) (h : LinkOK s.link) :
    LinkOK (pathLostStop s).link := by
  simp only [pathLostStop]
  (repeat' split) <;> simp (maxDischargeDepth := 9) [h, *]

@[simp] theorem afterLinkReset_linkOK (tracked : Bool) (s : State) (h : LinkOK s.link) :
    LinkOK (afterLinkReset tracked s).link := by
  simp only [afterLinkReset]
  (repeat' split) <;> simp (maxDischargeDepth := 9) [h, *]

@[simp] theorem linkReset_linkOK (s : State) (h : LinkOK s.link) :
    LinkOK (linkReset s).link := by
  simp only [linkReset]
  (repeat' split) <;> simp (maxDischargeDepth := 9) [h, *]

@[simp] theorem resetPart_linkOK (port : MgmtPort) (s : State) (h : LinkOK s.link) :
    LinkOK (resetPart port s).state.link := by
  simp only [resetPart]
  (repeat' split) <;> simp (maxDischargeDepth := 9) [h, *]

@[simp] theorem claimCapture_linkOK (port : MgmtPort) (force : Byte) (s : State) (h : LinkOK s.link) :
    LinkOK (claimCapture port force s).state.link := by
  simp only [claimCapture, claimed]
  (repeat' split) <;> simp (maxDischargeDepth := 9) [h, *]

@[simp] theorem unexpectedFinisher_linkOK (kind bin set : Byte) (s : State) (h : LinkOK s.link) :
    LinkOK (unexpectedFinisher kind bin set s).link := by
  simp only [unexpectedFinisher]
  (repeat' split) <;> simp (maxDischargeDepth := 9) [h, *]

@[simp] theorem commitMember_linkOK (s : State) (e : Entry) (h : LinkOK s.link) :
    LinkOK (commitMember s e).link := by
  simp only [commitMember]
  (repeat' split) <;> simp (maxDischargeDepth := 9) [h, *]

theorem commitMember_fold_linkOK (l : List Entry) (s t : State)
    (e : t = l.foldl (commitMember) s) (h : LinkOK s.link) :
    LinkOK t.link := by
  subst e
  induction l generalizing s with
  | nil => simpa using h
  | cons a l ih => rw [List.foldl_cons]; apply ih; first | (simp [h]; done) | (split <;> simp [h])

@[simp] theorem commitMembers_linkOK (r : SetRec) (s : State) (h : LinkOK s.link) :
    LinkOK (commitMembers r s).link := by
  simp only [commitMembers]
  simp (maxDischargeDepth := 9) [h, commitMember_fold _ _ _ rfl, commitMember_fold_linkOK _ _ _ rfl]

@[simp] theorem faultSet_linkOK (n : SetName) (s : State) (h : LinkOK s.link) :
    LinkOK (faultSet n s).link := by
  simp only [faultSet]
  (repeat' split) <;> simp (maxDischargeDepth := 9) [h, *]

@[simp] theorem withdrawSetVoid_linkOK (n : SetName) (s : State) (h : LinkOK s.link) :
    LinkOK (withdrawSetVoid n s).link := by
  obtain ⟨h1, h2, h3, h4, h5, h6, h7⟩ := h
  exact ⟨h1, h2, h3, h4, h5, h6, Nat.le_trans (List.filter_sublist.count_le _) h7⟩

@[simp] theorem leaveOutstanding_linkOK (n : SetName) (s : State) (h : LinkOK s.link) :
    LinkOK (leaveOutstanding n s).link := by
  simp only [leaveOutstanding]
  (repeat' split) <;> simp (maxDischargeDepth := 9) [h, *]

@[simp] theorem followRaw_linkOK (st : Station) (s : State) (h : LinkOK s.link) :
    LinkOK (followRaw st s).link := by
  simp only [followRaw]
  (repeat' split) <;> simp (maxDischargeDepth := 9) [h, *]

@[simp] theorem handSample_linkOK (s : State) (x : Station × Bool × Pos) (h : LinkOK s.link) :
    LinkOK (handSample s x).link := by
  simp only [handSample]
  (repeat' split) <;> simp (maxDischargeDepth := 9) [h, *]

theorem handSampled_fold_linkOK (l : List (Station × Bool × Pos)) (s t : State)
    (e : t = l.foldl (handSample) s) (h : LinkOK s.link) :
    LinkOK t.link := by
  subst e
  induction l generalizing s with
  | nil => simpa using h
  | cons a l ih => rw [List.foldl_cons]; apply ih; first | (simp [h]; done) | (split <;> simp [h])

@[simp] theorem handSampled_linkOK (edges : List (Station × Bool × Pos)) (s : State) (h : LinkOK s.link) :
    LinkOK (handSampled edges s).link := by
  simp only [handSampled]
  simp (maxDischargeDepth := 9) [h, handSampled_fold _ _ _ rfl, handSampled_fold_linkOK _ _ _ rfl]

@[simp] theorem endAutoload_linkOK (image : List Word) (s : State) (h : LinkOK s.link) :
    LinkOK (endAutoload image s).link := by
  have k := queueControl_linkOK .linkStart 
    (applyTables (loadEnd (endTransfer image s).load.reading (endTransfer image s).tables) (endTransfer image s)) (by simp) (by simpa using h)
  simp only [endAutoload]
  split
  · exact idleOrForeign_linkOK _ k
  · exact enterState_linkOK _ _ k

@[simp] theorem lowerIdle_linkOK (s : State) (h : LinkOK s.link) :
    LinkOK (lowerIdle s).link := by
  exact h

end Sys2Proof.Machine
end

