-- ==== Sys2Proof/Laws/Retention.lean ====
section
/-! SUPPORT. The Retention Queue: every shared operation keeps what RetentionInv says of it. -/

namespace Sys2Proof.Machine

set_option linter.unusedSimpArgs false
variable {ex ey : Option OrderNo}
/-- What RetentionInv says of the entries and the expected next number (R35, R43). -/
def RetentionOK (entries : List Entry) (expected : Option OrderNo) : Prop :=
  entries.length ≤ 32 ∧
  (match expected with
    | none => entries = []
    | some e => entries.map (·.order) = numbersFrom (e - BitVec.ofNat 16 entries.length) entries.length) ∧
  (entries.filter (fun e => e.state = .forwarded)).length ≤ 8

theorem RetentionInv.iff (s : State) : RetentionInv s ↔ RetentionOK s.ret.entries s.ret.expected := Iff.rfl

/-- An entry keeps its order number and does not become FORWARDED. -/
def Keeping (f : Entry → Entry) : Prop := ∀ e, (f e).order = e.order ∧ ((f e).state = .forwarded → e.state = .forwarded)

theorem RetentionOK.map {l : List Entry} {x : Option OrderNo} (f : Entry → Entry) (hf : Keeping f)
    (h : RetentionOK l x) : RetentionOK (l.map f) x := by
  obtain ⟨h1, h2, h3⟩ := h
  have ho : (l.map f).map (·.order) = l.map (·.order) := by
    rw [List.map_map]
    exact List.map_congr_left fun e _ => (hf e).1
  refine ⟨by simpa using h1, ?_, ?_⟩
  · cases x
    · simpa using h2
    · simp only [ho, List.length_map]
      exact h2
  · refine Nat.le_trans ?_ h3
    clear h1 h2 h3 ho
    induction l with
    | nil => simp
    | cons e l ih =>
      by_cases hs : (f e).state = .forwarded
      · simp [hs, (hf e).2 hs, ih]
      · by_cases he : e.state = .forwarded <;> simp [hs, he] <;> omega

theorem numbersFrom_length (h : OrderNo) (n : Nat) : (numbersFrom h n).length = n := by
  induction n generalizing h with
  | zero => rfl
  | succ n ih => simp [numbersFrom, ih]

theorem numbersFrom_append (h : OrderNo) (n : Nat) :
    numbersFrom h (n + 1) = numbersFrom h n ++ [h + BitVec.ofNat 16 n] := by
  induction n generalizing h with
  | zero => simp [numbersFrom]
  | succ n ih =>
    rw [numbersFrom, ih (h + 1)]
    simp only [numbersFrom, List.cons_append]
    congr 3
    apply BitVec.eq_of_toNat_eq
    simp
    omega

theorem numbersFrom_drop (h : OrderNo) (n k : Nat) (hk : k ≤ n) :
    (numbersFrom h n).drop k = numbersFrom (h + BitVec.ofNat 16 k) (n - k) := by
  induction k generalizing h n with
  | zero => simp
  | succ k ih =>
    obtain ⟨n, rfl⟩ : ∃ m, n = m + 1 := ⟨n - 1, by omega⟩
    simp only [numbersFrom, List.drop_succ_cons]
    rw [ih _ _ (by omega)]
    congr 1
    · apply BitVec.eq_of_toNat_eq
      simp
      omega
    · omega

theorem numbersFrom_getElem (h : OrderNo) (n i : Nat) (hi : i < (numbersFrom h n).length) :
    (numbersFrom h n)[i] = h + BitVec.ofNat 16 i := by
  induction n generalizing h i with
  | zero => simp [numbersFrom] at hi
  | succ n ih =>
    cases i with
    | zero => simp [numbersFrom]
    | succ i =>
      simp only [numbersFrom, List.getElem_cons_succ]
      rw [ih]
      apply BitVec.eq_of_toNat_eq
      simp
      omega

theorem numbersFrom_nodup (h : OrderNo) (n : Nat) (hn : n ≤ 65536) : (numbersFrom h n).Nodup := by
  rw [List.nodup_iff_pairwise_ne, List.pairwise_iff_getElem]
  intro i j hi hj hij e
  have hi' := hi
  have hj' := hj
  rw [numbersFrom_length] at hi' hj'
  rw [numbersFrom_getElem, numbersFrom_getElem] at e
  have e2 := congrArg BitVec.toNat e
  simp at e2
  omega

theorem RetentionOK.nodup {l : List Entry} {x : Option OrderNo} (h : RetentionOK l x) : (l.map (·.order)).Nodup := by
  obtain ⟨h1, h2, -⟩ := h
  cases x
  · simp only at h2
    simp [h2]
  · simp only at h2
    rw [h2]
    exact numbersFrom_nodup _ _ (by omega)

theorem RetentionOK.drop {l : List Entry} {x : Option OrderNo} (p : Entry → Bool) (h : RetentionOK l x) :
    RetentionOK (l.dropWhile p) x := by
  obtain ⟨h1, h2, h3⟩ := h
  obtain ⟨k, hk, hd⟩ : ∃ k, k ≤ l.length ∧ l.dropWhile p = l.drop k := by
    clear h1 h2 h3
    induction l with
    | nil => exact ⟨0, by simp, rfl⟩
    | cons e l ih =>
      obtain ⟨k, hk, hd⟩ := ih
      by_cases he : p e = true
      · exact ⟨k + 1, by simp <;> omega, by simp [he, hd]⟩
      · exact ⟨0, by simp, by simp [he]⟩
  rw [hd]
  refine ⟨by simp <;> omega, ?_, ?_⟩
  · cases x with
    | none =>
      simp only at h2
      simp [h2]
    | some e =>
      simp only [List.map_drop, List.length_drop]
      simp only at h2
      rw [h2, numbersFrom_drop _ _ _ hk]
      congr 1
      apply BitVec.eq_of_toNat_eq
      simp
      omega
  · exact Nat.le_trans ((List.drop_sublist k l).filter _).length_le h3

theorem forwarded_once (l : List Entry) (n : OrderNo) (f : Entry → Entry) (h : (l.map (·.order)).Nodup) :
    ((l.map fun e => if e.order = n then f e else e).filter fun e => e.state = .forwarded).length ≤
      (l.filter fun e => e.state = .forwarded).length + 1 := by
  induction l with
  | nil => simp
  | cons e l ih =>
    simp only [List.map_cons, List.nodup_cons] at h
    by_cases he : e.order = n
    · have : (l.map fun x => if x.order = n then f x else x) = l := by
        conv => rhs; rw [← List.map_id l]
        apply List.map_congr_left
        intro x hx
        have : x.order ≠ n := fun hn => h.1 (by rw [he, ← hn]; exact List.mem_map_of_mem hx)
        simp [this]
      simp only [List.map_cons, he, if_true, this, List.filter_cons]
      split <;> split <;> simp <;> omega
    · have := ih h.2
      simp only [List.map_cons, he, if_false, List.filter_cons]
      split
      · simp
        omega
      · exact this

theorem updateEntry_retentionOK (n : OrderNo) (f : Entry → Entry) (s : State) (hf : Keeping f)
    (h : RetentionOK s.ret.entries ex) :
    RetentionOK (updateEntry n f s).ret.entries ex := by
  refine h.map _ fun e => ?_
  split
  · exact hf e
  · simp

@[simp] theorem keeping_state (st : EntryState) (h : st ≠ .forwarded) : Keeping fun e => { e with state := st } :=
  fun e => by simp [h]

@[simp] theorem keeping_tag (t : Option Tag) : Keeping fun e => { e with tag := t } := fun e => by simp

@[simp] theorem keeping_sent (b : Bool) : Keeping fun e => { e with firstSent := b } := fun e => by simp

@[simp] theorem keeping_skip : Keeping Entry.skip := fun e => by simp [Entry.skip]

@[simp] theorem keeping_flight (t : Option Tag) : Keeping fun e => { e with state := .inFlight, tag := t } :=
  fun e => by simp

theorem forwardEntry_retentionOK (e : Entry) (s : State) (h : RetentionOK s.ret.entries ex)
    (hc : forwardedCount s < 8) :
    RetentionOK (forwardEntry e s).ret.entries ex := by
  have hn := h.nodup
  have hr : (forwardEntry e s).ret = (updateEntry e.order Entry.forward s).ret := by
    simp only [forwardEntry]
    split <;> simp
  rw [hr]
  obtain ⟨h1, h2, h3⟩ := h
  have ho : (s.ret.entries.map fun x => if x.order = e.order then Entry.forward x else x).map (·.order) =
      s.ret.entries.map (·.order) := by
    rw [List.map_map]
    apply List.map_congr_left
    intro x _
    simp only [Function.comp]
    split <;> simp [Entry.forward]
  refine ⟨by simpa [updateEntry] using h1, ?_, ?_⟩
  · simp only [updateEntry, mapEntries, ho, List.length_map]
    cases ex
    · simp only at h2
      simp [h2]
    · exact h2
  · have := forwarded_once s.ret.entries e.order Entry.forward hn
    simp only [forwardedCount] at hc
    simp only [updateEntry, mapEntries]
    omega

@[simp] theorem removeHeads_retentionOK (s : State) (h : RetentionOK s.ret.entries ex) :
    RetentionOK (removeHeads s).ret.entries ex := by
  simpa [removeHeads] using h.drop _

@[simp] theorem returnForwarded_retentionOK (s : State) (h : RetentionOK s.ret.entries ex) :
    RetentionOK (returnForwarded s).ret.entries ex := by
  simp only [returnForwarded]
  refine h.map _ fun e => ?_
  split <;> simp_all

@[simp] theorem declareStop_retentionOK (c : Cause) (s : State) (h : RetentionOK s.ret.entries ex) :
    RetentionOK (declareStop c s).ret.entries ex := by
  simp only [declareStop]
  (repeat' split) <;> simp (maxDischargeDepth := 9) [updateEntry_retentionOK, h, *]

@[simp] theorem takeCause_retentionOK (c : Cause) (s : State) (h : RetentionOK s.ret.entries ex) :
    RetentionOK (takeCause c s).ret.entries ex := by
  simp only [takeCause]
  (repeat' split) <;> simp (maxDischargeDepth := 9) [updateEntry_retentionOK, h, *]

theorem takeReports_fold_retentionOK (l : List Report) (s t : State)
    (e : t = l.foldl (fun s r => takeCause (trackerCause s r) s) s) (h : RetentionOK s.ret.entries ex) :
    RetentionOK t.ret.entries ex := by
  subst e
  induction l generalizing s with
  | nil => simpa using h
  | cons a l ih => rw [List.foldl_cons]; apply ih; first | (simp [h]; done) | (split <;> simp [h])

@[simp] theorem takeReports_retentionOK (rs : List Report) (s : State) (h : RetentionOK s.ret.entries ex) :
    RetentionOK (takeReports rs s).ret.entries ex := by
  simp only [takeReports]
  simp (maxDischargeDepth := 9) [h, takeReports_fold _ _ _ rfl, takeReports_fold_retentionOK _ _ _ rfl]

@[simp] theorem considerQueue_retentionOK (n : Nat) (s : State) (h : RetentionOK s.ret.entries ex) :
    RetentionOK (considerQueue n s).ret.entries ex := by
  induction n generalizing s with
  | zero => simpa [considerQueue] using h
  | succ n ih =>
    simp only [considerQueue]
    (repeat' split) <;> first | (simp (maxDischargeDepth := 9) [h]; done) | skip
    rename_i hm _
    simp only [mayForward, Bool.and_eq_true, decide_eq_true_eq] at hm
    exact ih _ (forwardEntry_retentionOK _ s h hm.2)

@[simp] theorem forwarderPass_retentionOK (s : State) (h : RetentionOK s.ret.entries ex) :
    RetentionOK (forwarderPass s).ret.entries ex := by
  simp only [forwarderPass]
  (repeat' split) <;> simp (maxDischargeDepth := 9) [updateEntry_retentionOK, h, *]

@[simp] theorem leaveHeld_retentionOK (old : Option OrderNo) (s : State) (h : RetentionOK s.ret.entries ex) :
    RetentionOK (leaveHeld old s).ret.entries ex := by
  simp only [leaveHeld]
  (repeat' split) <;> simp (maxDischargeDepth := 9) [updateEntry_retentionOK, h, *]

@[simp] theorem afterWithdrawal_retentionOK (old : Option OrderNo) (s : State) (h : RetentionOK s.ret.entries ex) :
    RetentionOK (afterWithdrawal old s).ret.entries ex := by
  simp only [afterWithdrawal]
  (repeat' split) <;> simp (maxDischargeDepth := 9) [updateEntry_retentionOK, h, *]

@[simp] theorem withdrawDelivered_retentionOK (r : SetRec) (n : OrderNo) (s : State) (h : RetentionOK s.ret.entries ex) :
    RetentionOK (withdrawDelivered r n s).ret.entries ex := by
  simp only [withdrawDelivered]
  (repeat' split) <;> simp (maxDischargeDepth := 9) [updateEntry_retentionOK, h, *]

@[simp] theorem deliverToSet_retentionOK (name : SetName) (n : OrderNo) (waste : Bool) (s : State) (h : RetentionOK s.ret.entries ex) :
    RetentionOK (deliverToSet name n waste s).ret.entries ex := by
  simp only [deliverToSet]
  (repeat' split) <;> simp (maxDischargeDepth := 9) [updateEntry_retentionOK, h, *]

@[simp] theorem commitEntry_retentionOK (n : OrderNo) (detail : Byte) (s : State) (h : RetentionOK s.ret.entries ex) :
    RetentionOK (commitEntry n detail s).ret.entries ex := by
  simp only [commitEntry]
  (repeat' split) <;> simp (maxDischargeDepth := 9) [updateEntry_retentionOK, h, *]

@[simp] theorem deliverEntry_retentionOK (e : Entry) (kind : BinKind) (s : State) (h : RetentionOK s.ret.entries ex) :
    RetentionOK (deliverEntry e kind s).ret.entries ex := by
  simp only [deliverEntry]
  (repeat' split) <;> simp (maxDischargeDepth := 9) [updateEntry_retentionOK, h, *]

@[simp] theorem deliver_retentionOK (tag : Tag) (s : State) (h : RetentionOK s.ret.entries ex) :
    RetentionOK (deliver tag s).ret.entries ex := by
  simp only [deliver]
  (repeat' split) <;> simp (maxDischargeDepth := 9) [updateEntry_retentionOK, h, *]

@[simp] theorem offAction_retentionOK (stamp : Pos) (o : Occupant) (s : State) (h : RetentionOK s.ret.entries ex) :
    RetentionOK (offAction stamp o s).1.ret.entries ex := by
  simp only [offAction]
  (repeat' split) <;> simp (maxDischargeDepth := 9) [updateEntry_retentionOK, h, *]

@[simp] theorem matchOff_retentionOK (st : Station) (stamp : Pos) (o : Occupant) (s : State) (h : RetentionOK s.ret.entries ex) :
    RetentionOK (matchOff st stamp o s).1.ret.entries ex := by
  simp only [matchOff]
  (repeat' split) <;> simp (maxDischargeDepth := 9) [updateEntry_retentionOK, h, *]

@[simp] theorem trackOff_retentionOK (st : Station) (stamp : Pos) (s : State) (h : RetentionOK s.ret.entries ex) :
    RetentionOK (trackOff st stamp s).1.ret.entries ex := by
  simp only [trackOff]
  (repeat' split) <;> simp (maxDischargeDepth := 9) [updateEntry_retentionOK, h, *]

@[simp] theorem takeLate_retentionOK (st : Station) (s : State) (h : RetentionOK s.ret.entries ex) :
    RetentionOK (takeLate st s).ret.entries ex := by
  simp only [takeLate]
  (repeat' split) <;> simp (maxDischargeDepth := 9) [updateEntry_retentionOK, h, *]

@[simp] theorem takeStuck_retentionOK (st : Station) (s : State) (h : RetentionOK s.ret.entries ex) :
    RetentionOK (takeStuck st s).ret.entries ex := by
  simp only [takeStuck]
  (repeat' split) <;> simp (maxDischargeDepth := 9) [updateEntry_retentionOK, h, *]

@[simp] theorem takeDueExpiries_retentionOK (st : Station) (s : State) (h : RetentionOK s.ret.entries ex) :
    RetentionOK (takeDueExpiries st s).ret.entries ex := by
  simp only [takeDueExpiries]
  (repeat' split) <;> simp (maxDischargeDepth := 9) [updateEntry_retentionOK, h, *]

@[simp] theorem allocate_retentionOK (tag : Tag) (e : Entry) (s : State) (h : RetentionOK s.ret.entries ex) :
    RetentionOK (allocate tag e s).1.ret.entries ex := by
  simp only [allocate]
  have k : RetentionOK (updateEntry e.order (fun e => { e with state := .inFlight, tag := some tag }) s).ret.entries ex :=
    updateEntry_retentionOK _ _ _ (keeping_flight _) h
  simpa [updateEntry, mapEntries, setRecord] using k

@[simp] theorem clearMarks_retentionOK (s : State) (h : RetentionOK s.ret.entries ex) :
    RetentionOK (clearMarks s).ret.entries ex := by
  exact h.map _ fun e => by simp

@[simp] theorem closePlan_retentionOK (s : State) (h : RetentionOK s.ret.entries ex) :
    RetentionOK (closePlan s).ret.entries ex := by
  simp only [closePlan]
  (repeat' split) <;> simp (maxDischargeDepth := 9) [updateEntry_retentionOK, h, *]

@[simp] theorem foreignSheet_retentionOK (st : Station) (at_ : Pos) (s : State) (h : RetentionOK s.ret.entries ex) :
    RetentionOK (foreignSheet st at_ s).ret.entries ex := by
  simp only [foreignSheet]
  (repeat' split) <;> simp (maxDischargeDepth := 9) [updateEntry_retentionOK, h, *]

@[simp] theorem idleOrForeign_retentionOK (s : State) (h : RetentionOK s.ret.entries ex) :
    RetentionOK (idleOrForeign s).ret.entries ex := by
  simp only [idleOrForeign]
  (repeat' split) <;> simp (maxDischargeDepth := 9) [updateEntry_retentionOK, h, *]

@[simp] theorem applyMarks_retentionOK (s : State) (h : RetentionOK s.ret.entries ex) :
    RetentionOK (applyMarks s).ret.entries ex := by
  exact h.map _ fun e => by simp only [markEntry]; (repeat' split) <;> simp_all

@[simp] theorem snapshot_retentionOK (s : State) (h : RetentionOK s.ret.entries ex) :
    RetentionOK (snapshot s).ret.entries ex := by
  simp only [snapshot]
  simp (maxDischargeDepth := 9) [h, becomeVoided_fold _ _ _ rfl, freeRecord_fold _ _ _ rfl]

theorem settleDeferred_fold_retentionOK (l : List Cause) (s t : State)
    (e : t = l.foldl (fun s c => if stillOwed s c then takeCause c s else s) s) (h : RetentionOK s.ret.entries ex) :
    RetentionOK t.ret.entries ex := by
  subst e
  induction l generalizing s with
  | nil => simpa using h
  | cons a l ih => rw [List.foldl_cons]; apply ih; first | (simp [h]; done) | (split <;> simp [h])

@[simp] theorem settleDeferred_retentionOK (s : State) (h : RetentionOK s.ret.entries ex) :
    RetentionOK (settleDeferred s).ret.entries ex := by
  simp only [settleDeferred]
  simp (maxDischargeDepth := 9) [h, settleDeferred_fold _ _ _ rfl, settleDeferred_fold_retentionOK _ _ _ rfl]

@[simp] theorem returnEntries_retentionOK (s : State) (h : RetentionOK s.ret.entries ex) :
    RetentionOK (returnEntries s).ret.entries ex := by
  simp only [returnEntries]
  apply closePlan_retentionOK
  exact h.map _ fun e => by simp only [replayEntry]; (repeat' split) <;> simp_all

@[simp] theorem replay_retentionOK (s : State) (h : RetentionOK s.ret.entries ex) :
    RetentionOK (replay s).ret.entries ex := by
  simp only [replay]
  (repeat' split) <;> simp (maxDischargeDepth := 9) [updateEntry_retentionOK, h, *]

@[simp] theorem endDriveOut_retentionOK (s : State) (h : RetentionOK s.ret.entries ex) :
    RetentionOK (endDriveOut s).ret.entries ex := by
  simp only [endDriveOut]
  (repeat' split) <;> simp (maxDischargeDepth := 9) [updateEntry_retentionOK, h, *]

@[simp] theorem beginDriveOut_retentionOK (s : State) (h : RetentionOK s.ret.entries ex) :
    RetentionOK (beginDriveOut s).ret.entries ex := by
  simp only [beginDriveOut]
  simp (maxDischargeDepth := 9) [h, queueControl_fold _ _ _ rfl]

@[simp] theorem acceptResume_retentionOK (s : State) (h : RetentionOK s.ret.entries ex) :
    RetentionOK (acceptResume s).ret.entries ex := by
  simp only [acceptResume]
  (repeat' split) <;> simp (maxDischargeDepth := 9) [updateEntry_retentionOK, h, *]

@[simp] theorem afterTracking_retentionOK (x : State × List Report) (h : RetentionOK x.1.ret.entries ex) :
    RetentionOK (afterTracking x).ret.entries ex := by
  simp only [afterTracking]
  (repeat' split) <;> simp (maxDischargeDepth := 9) [updateEntry_retentionOK, h, *]

@[simp] theorem handEdge_retentionOK (st : Station) (covered : Bool) (stamp : Pos) (s : State) (h : RetentionOK s.ret.entries ex) :
    RetentionOK (handEdge st covered stamp s).ret.entries ex := by
  simp only [handEdge]
  (repeat' split) <;> simp (maxDischargeDepth := 9) [updateEntry_retentionOK, h, *]

@[simp] theorem takePick_retentionOK (n : OrderNo) (s : State) (h : RetentionOK s.ret.entries ex) :
    RetentionOK (takePick n s).ret.entries ex := by
  simp only [takePick]
  (repeat' split) <;> simp (maxDischargeDepth := 9) [updateEntry_retentionOK, h, *]

@[simp] theorem takeCredit_retentionOK (limit : Byte) (s : State) (h : RetentionOK s.ret.entries ex) :
    RetentionOK (takeCredit limit s).ret.entries ex := by
  simp only [takeCredit]
  (repeat' split) <;> simp (maxDischargeDepth := 9) [updateEntry_retentionOK, h, *]

@[simp] theorem skipOrder_retentionOK (n : OrderNo) (s : State) (h : RetentionOK s.ret.entries ex) :
    RetentionOK (skipOrder n s).1.ret.entries ex := by
  simp only [skipOrder]
  (repeat' split) <;> simp (maxDischargeDepth := 9) [updateEntry_retentionOK, h, *]

@[simp] theorem cancelEntries_retentionOK (job : Word) (s : State) (h : RetentionOK s.ret.entries ex) :
    RetentionOK (cancelEntries job s).ret.entries ex := by
  refine h.map _ fun e => ?_
  split <;> simp [Entry.skip]

@[simp] theorem cancelJob_retentionOK (job : Word) (s : State) (h : RetentionOK s.ret.entries ex) :
    RetentionOK (cancelJob job s).1.ret.entries ex := by
  simp only [cancelJob]
  simp (maxDischargeDepth := 9) [h, voidByCancel_fold _ _ _ rfl, freeIfEmpty_fold _ _ _ rfl]

@[simp] theorem tablesPass_retentionOK (s : State) (h : RetentionOK s.ret.entries ex) :
    RetentionOK (tablesPass s).ret.entries ex := by
  simp only [tablesPass]
  (repeat' split) <;> simp (maxDischargeDepth := 9) [updateEntry_retentionOK, h, *]

@[simp] theorem checkTables_retentionOK (s : State) (h : RetentionOK s.ret.entries ex) :
    RetentionOK (checkTables s).state.ret.entries ex := by
  simp only [checkTables]
  (repeat' split) <;> simp (maxDischargeDepth := 9) [updateEntry_retentionOK, h, *]

@[simp] theorem releaseHeld_retentionOK (s : State) (h : RetentionOK s.ret.entries ex) :
    RetentionOK (releaseHeld s).state.ret.entries ex := by
  simp only [releaseHeld]
  apply forwarderPass_retentionOK
  have e : ∀ st u, (enterState st u).ret = u.ret := fun st u => by simp
  rw [e]
  exact h.map _ fun e => by simp only [Entry.release]; split <;> simp

@[simp] theorem resume_retentionOK (number : Byte) (s : State) (h : RetentionOK s.ret.entries ex) :
    RetentionOK (resume number s).state.ret.entries ex := by
  simp only [resume]
  (repeat' split) <;> simp (maxDischargeDepth := 9) [updateEntry_retentionOK, h, *]

@[simp] theorem speedReached_retentionOK (c : SpeedClass) (s : State) (h : RetentionOK s.ret.entries ex) :
    RetentionOK (speedReached c s).ret.entries ex := by
  simp only [speedReached]
  (repeat' split) <;> simp (maxDischargeDepth := 9) [updateEntry_retentionOK, h, *]

@[simp] theorem takeSpeedReady_retentionOK (cls : Byte) (s : State) (h : RetentionOK s.ret.entries ex) :
    RetentionOK (takeSpeedReady cls s).ret.entries ex := by
  simp only [takeSpeedReady]
  (repeat' split) <;> simp (maxDischargeDepth := 9) [updateEntry_retentionOK, h, *]

@[simp] theorem discardJob_retentionOK (s : State) (h : RetentionOK s.ret.entries s.ret.expected) :
    RetentionOK (discardJob s).ret.entries (discardJob s).ret.expected := by
  exact ⟨by simp [discardJob, Retention.empty], by simp [discardJob, Retention.empty], by simp [discardJob, Retention.empty]⟩

@[simp] theorem afterLinkReset_retentionOK (tracked : Bool) (s : State) (h : RetentionOK s.ret.entries ex) :
    RetentionOK (afterLinkReset tracked s).ret.entries ex := by
  simp only [afterLinkReset]
  (repeat' split) <;> simp (maxDischargeDepth := 9) [updateEntry_retentionOK, h, *]

@[simp] theorem linkReset_retentionOK (s : State) (h : RetentionOK s.ret.entries s.ret.expected) :
    RetentionOK (linkReset s).ret.entries (linkReset s).ret.expected := by
  simp only [linkReset]
  have e : RetentionOK Retention.empty.entries Retention.empty.expected := by simp [RetentionOK, Retention.empty]
  simpa using afterLinkReset_retentionOK (!trackingEmpty s) _ (by simpa using e)

@[simp] theorem commitMember_retentionOK (s : State) (e : Entry) (h : RetentionOK s.ret.entries ex) :
    RetentionOK (commitMember s e).ret.entries ex := by
  simp only [commitMember]
  (repeat' split) <;> simp (maxDischargeDepth := 9) [updateEntry_retentionOK, h, *]

theorem commitMember_fold_retentionOK (l : List Entry) (s t : State)
    (e : t = l.foldl (commitMember) s) (h : RetentionOK s.ret.entries ex) :
    RetentionOK t.ret.entries ex := by
  subst e
  induction l generalizing s with
  | nil => simpa using h
  | cons a l ih => rw [List.foldl_cons]; apply ih; first | (simp [h]; done) | (split <;> simp [h])

@[simp] theorem commitMembers_retentionOK (r : SetRec) (s : State) (h : RetentionOK s.ret.entries ex) :
    RetentionOK (commitMembers r s).ret.entries ex := by
  simp only [commitMembers]
  simp (maxDischargeDepth := 9) [h, commitMember_fold _ _ _ rfl, commitMember_fold_retentionOK _ _ _ rfl]

@[simp] theorem faultSet_retentionOK (n : SetName) (s : State) (h : RetentionOK s.ret.entries ex) :
    RetentionOK (faultSet n s).ret.entries ex := by
  simp only [faultSet]
  (repeat' split) <;> simp (maxDischargeDepth := 9) [updateEntry_retentionOK, h, *]

@[simp] theorem leaveOutstanding_retentionOK (n : SetName) (s : State) (h : RetentionOK s.ret.entries ex) :
    RetentionOK (leaveOutstanding n s).ret.entries ex := by
  simp only [leaveOutstanding]
  (repeat' split) <;> simp (maxDischargeDepth := 9) [updateEntry_retentionOK, h, *]

@[simp] theorem followRaw_retentionOK (st : Station) (s : State) (h : RetentionOK s.ret.entries ex) :
    RetentionOK (followRaw st s).ret.entries ex := by
  simp only [followRaw]
  (repeat' split) <;> simp (maxDischargeDepth := 9) [updateEntry_retentionOK, h, *]

@[simp] theorem handSample_retentionOK (s : State) (x : Station × Bool × Pos) (h : RetentionOK s.ret.entries ex) :
    RetentionOK (handSample s x).ret.entries ex := by
  simp only [handSample]
  (repeat' split) <;> simp (maxDischargeDepth := 9) [updateEntry_retentionOK, h, *]

theorem handSampled_fold_retentionOK (l : List (Station × Bool × Pos)) (s t : State)
    (e : t = l.foldl (handSample) s) (h : RetentionOK s.ret.entries ex) :
    RetentionOK t.ret.entries ex := by
  subst e
  induction l generalizing s with
  | nil => simpa using h
  | cons a l ih => rw [List.foldl_cons]; apply ih; first | (simp [h]; done) | (split <;> simp [h])

@[simp] theorem handSampled_retentionOK (edges : List (Station × Bool × Pos)) (s : State) (h : RetentionOK s.ret.entries ex) :
    RetentionOK (handSampled edges s).ret.entries ex := by
  simp only [handSampled]
  simp (maxDischargeDepth := 9) [h, handSampled_fold _ _ _ rfl, handSampled_fold_retentionOK _ _ _ rfl]

@[simp] theorem endAutoload_retentionOK (image : List Word) (s : State) (h : RetentionOK s.ret.entries ex) :
    RetentionOK (endAutoload image s).ret.entries ex := by
  simp only [endAutoload]
  (repeat' split) <;> simp (maxDischargeDepth := 9) [updateEntry_retentionOK, h, *]

end Sys2Proof.Machine
end

