-- ==== Sys2Proof/Laws/Supervisor.lean ====
section
/-! SUPPORT. Part states: what a change of part state does, and that every shared operation keeps the Supervisor's items in
agreement with the state (SupervisorInv). -/

namespace Sys2Proof.Machine

/-! ### A change of part state -/

theorem enterState_same (st : PartState) (s : State) (h : s.sup.state = st) : enterState st s = s := by
  simp [enterState, h]

@[simp] theorem enterState_state (st : PartState) (s : State) : (enterState st s).sup.state = st := by
  by_cases h : s.sup.state = st
  · simp [enterState_same st s h, h]
  · simp [enterState, h, Supervisor.moveTo]

theorem enterState_sup (st : PartState) (s : State) (h : s.sup.state ≠ st) :
    (enterState st s).sup = s.sup.moveTo st := by
  simp [enterState, h]

theorem enterState_settleFrom (st : PartState) (s : State) (h : s.sup.state ≠ st) :
    (enterState st s).pos.settleFrom = if st = .stopping then some s.pos.clock else none := by
  simp [enterState, h, enterTimers]

theorem enterState_reached (st : PartState) (s : State) (h : s.sup.state ≠ st) (hs : st ≠ .stopping) :
    (enterState st s).reached = .nothing := by
  simp [enterState, h, hs, enterTimers]

/-! ### The invariant -/

theorem SupervisorInv.congr {s t : State} (h : SupervisorInv s) (h1 : t.sup.state = s.sup.state)
    (h2 : t.sup.pathHalt = s.sup.pathHalt) (h3 : t.sup.heldReason = s.sup.heldReason) (h4 : t.sup.purge = s.sup.purge)
    (h5 : t.pos.settleFrom = s.pos.settleFrom) (h6 : s.reached = .nothing → t.reached = .nothing) :
    SupervisorInv t := by
  obtain ⟨a1, a2, a3, a4, a5⟩ := h
  simp only [SupervisorInv, h1, h2, h3, h4, h5]
  exact ⟨a1, a2, a3, a4, fun hs => h6 (a5 hs)⟩

/-- A change to a state other than HELD and PURGING, with a held reason or purge state only in those states. -/
theorem SupervisorInv.enter {s : State} {st : PartState} (h : SupervisorInv s) (h1 : st ≠ .held) (h2 : st ≠ .purging) :
    SupervisorInv (enterState st s) := by
  by_cases hs : s.sup.state = st
  · rwa [enterState_same st s hs]
  · simp only [SupervisorInv, enterState_sup st s hs, enterState_settleFrom st s hs]
    simp [Supervisor.moveTo, h1, h2]
    exact enterState_reached st s hs

theorem SupervisorInv.enterHeld {s : State} (reason : HeldReason) (n : OrderNo) (h : SupervisorInv s) :
    SupervisorInv (enterHeld reason n s) := by
  by_cases hs : s.sup.state = .held
  · simp only [Machine.enterHeld]
    rw [enterState_same _ _ (by simpa using hs)]
    obtain ⟨h1, -, h3, h4, h5⟩ := h
    simp [SupervisorInv, hs, h1, h3, h4, h5]
  · simp only [Machine.enterHeld, SupervisorInv]
    rw [enterState_sup _ _ (by simpa using hs), enterState_settleFrom _ _ (by simpa using hs),
      enterState_reached _ _ (by simpa using hs) (by decide)]
    simp [Supervisor.moveTo]

theorem SupervisorInv.declareStop {s : State} (c : Cause) (h : SupervisorInv s) : SupervisorInv (declareStop c s) := by
  by_cases hs : s.sup.state = .stopping
  · simp only [Machine.declareStop]
    rw [enterState_same _ _ (by simpa using hs)]
    obtain ⟨h1, h2, h3, h4, -⟩ := h
    simp [SupervisorInv, hs, h1, h2, h3, h4]
  · simp only [Machine.declareStop, SupervisorInv]
    rw [enterState_sup _ _ (by simpa using hs), enterState_settleFrom _ _ (by simpa using hs)]
    simp [Supervisor.moveTo]

theorem SupervisorInv.takeCause {s : State} (c : Cause) (h : SupervisorInv s) : SupervisorInv (takeCause c s) := by
  simp only [Machine.takeCause]
  split <;> first | exact h.declareStop c | exact h | skip
  · exact h.congr (by simp) (by simp) (by simp) (by simp) (by simp) (by simp)
  · split
    · exact h.congr (by simp) (by simp) (by simp) (by simp) (by simp) (by simp)
    · exact h

theorem SupervisorInv.takeReports {s : State} (rs : List Report) (h : SupervisorInv s) :
    SupervisorInv (takeReports rs s) := by
  induction rs generalizing s with
  | nil => exact h
  | cons r rs ih => exact ih (h.takeCause _)

theorem SupervisorInv.forwardEntry {s : State} (e : Entry) (h : SupervisorInv s) :
    SupervisorInv (forwardEntry e s) := by
  simp only [Machine.forwardEntry]
  split
  · exact SupervisorInv.enter (by simpa [SupervisorInv] using h) (by decide) (by decide)
  · simpa [SupervisorInv] using h

theorem SupervisorInv.considerQueue {s : State} (n : Nat) (h : SupervisorInv s) : SupervisorInv (considerQueue n s) := by
  induction n generalizing s with
  | zero => exact h
  | succ n ih =>
    simp only [Machine.considerQueue]
    (repeat' split) <;> first | exact h | exact ih (h.forwardEntry _) | simpa [SupervisorInv] using h

theorem SupervisorInv.drainCheck {s : State} (h : SupervisorInv s) : SupervisorInv (drainCheck s) := by
  simp only [Machine.drainCheck]
  (repeat' split)
  · exact h
  · exact SupervisorInv.enter (by simpa [SupervisorInv] using h) (by decide) (by decide)
  · exact h

theorem SupervisorInv.heldCheck {s : State} (h : SupervisorInv s) : SupervisorInv (heldCheck s) := by
  simp only [Machine.heldCheck]
  (repeat' split) <;> first | exact h | exact h.enterHeld _ _

theorem SupervisorInv.idleCheck {s : State} (h : SupervisorInv s) : SupervisorInv (idleCheck s) := by
  simp only [Machine.idleCheck]
  split
  · exact h.enter (by decide) (by decide)
  · exact h

theorem SupervisorInv.forwarderPass {s : State} (h : SupervisorInv s) : SupervisorInv (forwarderPass s) := by
  have h1 : SupervisorInv (reviewRequest s) := h.congr (by simp) (by simp) (by simp) (by simp) (by simp) (by simp)
  exact (h1.considerQueue _).drainCheck.heldCheck.idleCheck

theorem SupervisorInv.enterChosen {s : State} (h : SupervisorInv s) : SupervisorInv (enterChosen s) := by
  simp only [Machine.enterChosen]
  (repeat' split) <;> first | exact h.enterHeld _ _ | exact h.enter (by decide) (by decide)

theorem SupervisorInv.leaveHeld {s : State} (old : Option OrderNo) (h : SupervisorInv s) :
    SupervisorInv (leaveHeld old s) := by
  simp only [Machine.leaveHeld]
  (repeat' split) <;>
    first
      | exact h
      | exact (h.enter (by decide) (by decide)).forwarderPass
      | exact h.enter (by decide) (by decide)
      | simpa [SupervisorInv] using h

theorem SupervisorInv.afterWithdrawal {s : State} (old : Option OrderNo) (h : SupervisorInv s) :
    SupervisorInv (afterWithdrawal old s) := by
  simp only [Machine.afterWithdrawal]
  (repeat' split) <;> first | exact h | exact h.leaveHeld _ | exact h.forwarderPass

theorem SupervisorInv.wakeToIdle {s : State} (h : SupervisorInv s) : SupervisorInv (wakeToIdle s) := by
  simp only [Machine.wakeToIdle]
  split
  · exact h.enter (by decide) (by decide)
  · exact h

theorem SupervisorInv.takeDueExpiries {s : State} (st : Station) (h : SupervisorInv s) :
    SupervisorInv (takeDueExpiries st s) := by
  have late : ∀ u, SupervisorInv u → SupervisorInv (takeLate st u) := by
    intro u hu
    simp only [takeLate]
    split
    · exact SupervisorInv.takeReports _ (hu.congr (by simp) (by simp) (by simp) (by simp) (by simp) (by simp +contextual))
    · exact hu
  have stuck : ∀ u, SupervisorInv u → SupervisorInv (takeStuck st u) := by
    intro u hu
    simp only [takeStuck]
    split
    · exact SupervisorInv.takeReports _ (hu.congr (by simp) (by simp) (by simp) (by simp) (by simp) (by simp +contextual))
    · exact hu
  simp only [Machine.takeDueExpiries]
  (repeat' split) <;> first | exact h | exact stuck _ (late _ h) | exact stuck _ h | exact late _ h

theorem SupervisorInv.foreignSheet {s : State} (st : Station) (p : Pos) (h : SupervisorInv s) :
    SupervisorInv (foreignSheet st p s) := by
  simp only [Machine.foreignSheet]
  exact SupervisorInv.enter (by simpa [SupervisorInv] using h) (by decide) (by decide)

theorem SupervisorInv.idleOrForeign {s : State} (h : SupervisorInv s) : SupervisorInv (idleOrForeign s) := by
  simp only [Machine.idleOrForeign]
  split
  · exact h.enter (by decide) (by decide)
  · exact h.foreignSheet _ _

theorem SupervisorInv.settleDeferred {s : State} (h : SupervisorInv s) : SupervisorInv (settleDeferred s) := by
  simp only [Machine.settleDeferred]
  have h1 : SupervisorInv { s with jam.deferred := [] } := by simpa [SupervisorInv] using h
  revert h1
  generalize ({ s with jam.deferred := [] } : State) = u
  generalize s.jam.deferred = l
  induction l generalizing u with
  | nil => exact id
  | cons c l ih =>
    intro hu
    rw [List.foldl_cons]
    apply ih
    split
    · exact hu.takeCause _
    · exact hu

theorem SupervisorInv.replay {s : State} (h : SupervisorInv s) : SupervisorInv (replay s) := by
  have h1 : SupervisorInv (returnEntries s) := h.congr (by simp) (by simp) (by simp) (by simp) (by simp) (by simp)
  exact h1.enterChosen.settleDeferred.forwarderPass

theorem SupervisorInv.snapshot {s : State} (h : SupervisorInv s) : SupervisorInv (snapshot s) := by
  simp only [Machine.snapshot]
  apply SupervisorInv.enter _ (by decide) (by decide)
  apply h.congr <;> simp [freeRecord_fold _ _ _ rfl, becomeVoided_fold _ _ _ rfl]

/-- The purge state is set and PURGING is entered in one step. -/
theorem SupervisorInv.enterPurging {s : State} (p : Purge) (h : SupervisorInv s) :
    SupervisorInv (enterState .purging { s with sup.purge := some p }) := by
  by_cases hs : s.sup.state = .purging
  · rw [enterState_same _ _ (by simpa using hs)]
    obtain ⟨h1, h2, -, h4, h5⟩ := h
    simp [SupervisorInv, hs, h1, h2, h4, h5]
  · simp only [SupervisorInv]
    rw [enterState_sup _ _ (by simpa using hs), enterState_settleFrom _ _ (by simpa using hs),
      enterState_reached _ _ (by simpa using hs) (by decide)]
    simp [Supervisor.moveTo]

theorem SupervisorInv.endDriveOut {s : State} (hp : s.sup.state = .purging) (h : SupervisorInv s) :
    SupervisorInv (endDriveOut s) := by
  simp only [Machine.endDriveOut]
  split
  · exact h.replay
  · simp only [startVoidPhase]
    obtain ⟨h1, h2, h3, h4⟩ := h
    simp [SupervisorInv, queueSetVoid_fold _ _ _ rfl, hp, h1, h2, h4]

theorem SupervisorInv.acceptResume {s : State} (h : SupervisorInv s) : SupervisorInv (acceptResume s) := by
  have h1 : SupervisorInv (queueControl .run s) := h.congr (by simp) (by simp) (by simp) (by simp) (by simp) (by simp)
  simp only [Machine.acceptResume]
  split
  · simp only [beginDriveOut]
    apply SupervisorInv.settleDeferred
    have e : ∀ u : State, rebase { u with sup.purge := some { phase := .driveOut, outstanding := [] } } =
        { rebase u with sup.purge := some { phase := .driveOut, outstanding := [] } } := fun _ => rfl
    rw [e]
    apply SupervisorInv.enterPurging
    apply h1.congr <;> simp [queueControl_fold _ _ _ rfl]
  · apply SupervisorInv.settleDeferred
    simp only [startVoidPhase]
    apply SupervisorInv.enterPurging
    apply h1.congr <;> simp [queueSetVoid_fold _ _ _ rfl]
  · exact h1.replay

theorem SupervisorInv.afterTracking {x : State × List Report} (h : SupervisorInv x.1) :
    SupervisorInv (afterTracking x) := by
  have h1 := h.takeReports x.2
  simp only [Machine.afterTracking]
  split
  · rename_i hd
    apply h1.endDriveOut
    simp only [inDriveOut, Bool.and_eq_true] at hd
    have := hd.1
    split at this <;> simp_all
  · exact h1.forwarderPass

theorem SupervisorInv.settledByOn {t : State} (s : State) (st : Station) (p : Pos) (h : SupervisorInv t) :
    SupervisorInv (settledByOn s st p t) := by
  exact h.congr (by simp) (by simp) (by simp) (by simp) (by simp) (by simp +contextual)

theorem SupervisorInv.handEdge {s : State} (st : Station) (covered : Bool) (p : Pos) (h : SupervisorInv s) :
    SupervisorInv (handEdge st covered p s) := by
  simp only [Machine.handEdge]
  (repeat' split)
  · exact h.foreignSheet _ _
  · apply SupervisorInv.settledByOn
    exact SupervisorInv.afterTracking (h.congr (by simp) (by simp) (by simp) (by simp) (by simp) (by simp +contextual))
  · exact SupervisorInv.afterTracking (h.congr (by simp) (by simp) (by simp) (by simp) (by simp) (by simp +contextual))
  · exact h

/-- A link reset ends in a state other than HELD and PURGING, whatever it starts from. -/
theorem SupervisorInv.linkReset {s : State} (h : SupervisorInv s) : SupervisorInv (linkReset s) := by
  obtain ⟨h1, h2, h3, h4, -⟩ := h
  have weak : ∀ (st : PartState) (u : State), st ≠ .held → st ≠ .purging → u.sup.pathHalt = haltAsserted u.sup.state →
      u.sup.heldReason = none → u.sup.purge = none → (u.pos.settleFrom.isSome = true ↔ u.sup.state = .stopping) →
      u.reached = .nothing → SupervisorInv (enterState st u) := by
    intro st u a b c d e f g
    by_cases hs : u.sup.state = st
    · rw [enterState_same st u hs]
      subst hs
      simp [SupervisorInv, c, d, e, f, g, a, b]
    · simp only [SupervisorInv, enterState_sup st u hs, enterState_settleFrom st u hs]
      simp [Supervisor.moveTo, a, b]
      exact enterState_reached st u hs
  simp only [Machine.linkReset, afterLinkReset]
  have d1 : (discardJob s).sup.heldReason = none := rfl
  have d2 : (discardJob s).sup.purge = none := rfl
  (repeat' split)
  · apply weak <;> simp [d1, d2, h1, h4]
  · simp only [pathLostStop]
    have := weak .stopping (announceCause .declared 1 (pathLostCause (syncStall false (makeCredit (requestHalt
      (discardJob s))))) (startCauses (pathLostCause (syncStall false (makeCredit (requestHalt (discardJob s)))))
      (syncStall false (makeCredit (requestHalt (discardJob s)))))) (by decide) (by decide)
      (by simp [h1]) (by simp [d1]) (by simp [d2]) (by simp [h4]) (by simp)
    obtain ⟨k1, k2, k3, -, k5⟩ := this
    refine ⟨k1, k2, k3, ?_, k5⟩
    simp
  · simp only [Machine.idleOrForeign]
    split
    · apply weak <;> simp [d1, d2, h1, h4]
    · simp only [Machine.foreignSheet]
      apply weak <;> simp [d1, d2, h1, h4]

end Sys2Proof.Machine
end

