-- ==== Sys2Proof/WellFormed.lean ====
section
/-! DEFINITION. Which terms of Instr stand for a command that can be given: frames carry at most 60 payload bytes (R166), a
row that covers several Kinds is not given a Kind that has a row of its own (R170, R172, R176), the serial memory has no
more words than its 16-bit byte address reaches (R17), and a set number is 1 to 255 (R139). -/

namespace Sys2Proof

/-- A payload that fits a frame (R166). -/
def payloadFits (payload : List Byte) : Bool := payload.length ≤ 60

/-- The Kinds of the upper port that have a row of their own: ORDER, BARRIER COMMAND and MANAGE (R170). -/
def upperKindsRead : List Byte := [0x10, 0x12, 0x20]

/-- The Kinds of the lower port that the part reads: PICK, SPEED READY, SET DONE, SET FAULT, SET CLEARED, CREDIT (R172). -/
def lowerKindsRead : List Byte := [0x41, 0x42, 0x43, 0x44, 0x45, 0x46]

/-- The check of a command's operands. -/
def Instr.wellFormed : Instr → Bool
  | .powerOnReset => true
  | .pinReset => true
  | .autoloadEnd image => image.length ≤ 32768
  | .linkStartSent => true
  | .haltSent => true
  | .setVoidSent => true
  | .speedChangeSent => true
  | .forwardedOrderSent => true
  | .lowerFrameSent => true
  | .upperFrameSent => true
  | .serviceFrameSent => true
  | .frameDiscard _ _ => true
  | .gap _ => true
  | .order payload => payloadFits payload
  | .engineCommand kind payload => payloadFits payload && !upperKindsRead.contains kind
  | .barrierCommand payload => payloadFits payload
  | .manage _ payload => payloadFits payload
  | .unknownCommand _ => true
  | .identify _ => true
  | .readState _ => true
  | .writeStation _ => true
  | .writeZone _ => true
  | .writeBin _ => true
  | .writeRoute _ => true
  | .writeLimits _ => true
  | .readTable _ => true
  | .checkTables _ => true
  | .readOrder _ => true
  | .readPlan _ => true
  | .resume _ => true
  | .skipOrder _ => true
  | .cancelJob _ => true
  | .standby _ => true
  | .wake _ => true
  | .claimCapture _ => true
  | .releaseCapture _ => true
  | .armCapture _ => true
  | .readCapture _ => true
  | .resetPart _ => true
  | .serviceManageDiscard kind payload => payloadFits payload && kind != 0x20
  | .serviceReset => true
  | .pick payload => payloadFits payload
  | .speedReady payload => payloadFits payload
  | .setDone payload => payloadFits payload
  | .setFault payload => payloadFits payload
  | .setCleared payload => payloadFits payload
  | .engineCredit payload => payloadFits payload
  | .engineReport kind payload => payloadFits payload && !lowerKindsRead.contains kind
  | .encoderPulse => true
  | .trunRawChange => true
  | .trunQualified => true
  | .stationRawChange _ => true
  | .onEdge _ => true
  | .offEdge _ => true
  | .emitPulse => true
  | .standbySample sts => decide sts.Nodup
  | .coverRawChange _ => true
  | .coverOpen _ => true
  | .coverClosed _ => true
  | .lateExpiry _ => true
  | .stuckExpiry _ => true
  | .stall => true
  | .settle => true
  | .setConfirmExpiry _ set => set != 0
  | .speedWaitExpiry => true
  | .serviceLineReturnsHigh => true

end Sys2Proof
end

