-- ==== Sys2Proof/Tests/Slice0.lean ====
section
/-! SUPPORT. Own tests: the terms that the well-formedness check refuses, small steps on small states, and for every statement
with hypotheses a state and operands that meet them (`witness_…`). -/

namespace Sys2Proof.Tests

open Sys2Proof.Machine

set_option Elab.async false

/-! ### Terms that are refused -/

theorem test_wf_refusesLongImage : (Instr.autoloadEnd (List.replicate 32769 0)).wellFormed = false := by
  rw [Instr.wellFormed, List.length_replicate]
  decide

theorem test_wf_refusesLongPayloads (p : List Byte) (h : payloadFits p = false) (port : MgmtPort) (kind : Byte) :
    (Instr.order p).wellFormed = false ∧ (Instr.engineCommand kind p).wellFormed = false ∧
    (Instr.barrierCommand p).wellFormed = false ∧ (Instr.manage port p).wellFormed = false ∧
    (Instr.serviceManageDiscard kind p).wellFormed = false ∧ (Instr.pick p).wellFormed = false ∧
    (Instr.speedReady p).wellFormed = false ∧ (Instr.setDone p).wellFormed = false ∧
    (Instr.setFault p).wellFormed = false ∧ (Instr.setCleared p).wellFormed = false ∧
    (Instr.engineCredit p).wellFormed = false ∧ (Instr.engineReport kind p).wellFormed = false := by
  simp [Instr.wellFormed, h]

theorem test_wf_payloadOf61 : payloadFits (List.replicate 61 0) = false ∧ payloadFits (List.replicate 60 0) = true := by
  decide

theorem test_wf_refusesReadKinds :
    (Instr.engineCommand 0x12 []).wellFormed = false ∧ (Instr.engineReport 0x41 []).wellFormed = false ∧
    (Instr.serviceManageDiscard 0x20 []).wellFormed = false := by decide

theorem test_wf_refusesDoubleStation : (Instr.standbySample [3, 3]).wellFormed = false := by decide

theorem test_wf_refusesSetZero : (Instr.setConfirmExpiry 0 0).wellFormed = false := by decide

/-! ### Small states -/

/-- The part after reset, moved to a state. -/
def part (st : PartState) : State :=
  { State.reset with sup := { State.reset.sup with state := st, pathHalt := haltAsserted st } }

/-- The request a port is asked. -/
def req (code : Byte) (args : List Byte) : Request := { tag := 7, code := code, args := args }

/-- A request waits on a port. -/
def asked (port : MgmtPort) (code : Byte) (args : List Byte) (s : State) : State :=
  match port with
  | .upper => { s with link.holding := [7 :: code :: args] }
  | .service => { s with svc.held := some { payload := 7 :: code :: args, served := false } }

/-- A request that waits is the one awaited. -/
theorem asked_awaits (port : MgmtPort) (code : Byte) (args : List Byte) (s : State) (h1 : s.link.replies = [])
    (h2 : s.sup.state ≠ .starting) : Awaits port (req code args) code args (asked port code args s) := by
  cases port <;> simp [Awaits, asked, nextRequest, h1, h2, requestOf, req]

/-- An entry of order `n` over route 0, 500 steps long. -/
def entry (n : OrderNo) (st : EntryState) : Entry :=
  { order := n, job := 1, sheetIndex := 0, front := 0, back := 0, backPresent := false, route := 0, length := 500,
    cls := 0, set := none, setLast := false, attempt := 1, unpicked := false, state := st, tag := none, mark := none,
    firstSent := false }

/-- The queue holds these entries, and order `next` is expected. -/
def queued (es : List Entry) (next : OrderNo) (s : State) : State :=
  { s with ret.entries := es, ret.expected := some next }

/-- One visit to station 0, 100 steps on. -/
def visit (a : Anchor) : Visit := { station := 0, anchor := a, distance := 100, check := true }

/-- A route of these visits into bin 0. -/
def route (vs : List Visit) : RouteRec :=
  { defined := true, visits := vs, bin := 0, completeAfter := 0, divert := none }

/-- Route 0 leads over station 0 into bin 0 of the kind given, all in zone 0; the tables are checked. -/
def tabled (kind : BinKind) (vs : List Visit) (s : State) : State :=
  { s with
    tables.stations := s.tables.stations.set 0 { defined := true, zone := 0, qualify := 1 }
    tables.zones := s.tables.zones.set 0 { defined := true, purgeable := true, cover := some 0 }
    tables.bins := s.tables.bins.set 0 { defined := true, kind := kind, zone := 0 }
    tables.routes := s.tables.routes.set 0 (route vs)
    tables.checked := true }

/-- A tracking record of order `n` over route 0. -/
def record (n : OrderNo) : TrackRec :=
  { order := n, route := 0, length := 500, next := 0, occupied := [], wasteTail := false, complete := false,
    disp := none }

/-- Tag 0 tracks order `n`. -/
def tracked (n : OrderNo) (s : State) : State := { s with trk.table := s.trk.table.set 0 (some (record n)) }

/-- Station 0 expects tag 0 at 100, from 60 to 160. -/
def expectation : Expectation := { tag := 0, visit := 0, e := 100, early := 60, late := 160, spent := false }

/-- Station 0 is occupied by tag 0 since 100. -/
def occupant (a : OffAction) : Occupant :=
  { tag := 0, visit := 0, onPos := 100, offLate := 660, check := true, action := a, spent := false }

/-- Station 0 qualifies toward a level since time 0, noted at P = `p`; the clock stands at the qualify time. -/
def qualifying (covered : Bool) (p : Pos) (s : State) : State :=
  { s with
    pos.clock := 1200
    front.stations := s.front.stations.set 0
      { raw := covered, qual := !covered, pending := some { toCovered := covered, p := p, time := 0 }, sample := none } }

/-- Cover 0 with these levels; the clock stands at 5 ms. -/
def coverAt (x : CoverSense) (s : State) : State :=
  { s with pos.clock := 120000, front.covers := s.front.covers.set 0 x }

/-- Set 5 of bin 0. -/
def five : SetName := { bin := 0, set := 5 }

/-- A record of set 5. -/
def setRec (st : SetState) (members : Nat) (due : Option Nat) : SetRec :=
  { name := five, first := 0, last := none, members := members, delivered := 0, state := st, cancelled := false,
    rebuilt := false, deadline := due }

/-- The sets held. -/
def withSet (r : SetRec) (s : State) : State := { s with sets.records := [r] }

/-- A plan held OPEN with number 1. -/
def planned (s : State) : State :=
  { s with plan := { plan := some (emptyPlan 0 0 s |> fun p => { p with number := 1 }), counter := 1 } }

/-- An image of one print route over station 0. -/
def image : List Word :=
  [0x4D53, 58] ++ [40, 60, 30, 50, 20, 25, 10, 200, 30, 50, 80, 50, 50, 3] ++ (0x8014 :: List.replicate 15 0) ++
  (0x8007 :: List.replicate 11 0) ++ (0x8000 :: List.replicate 7 0) ++ [1, 0x0001, 0x0000, 0x0000, 0x0001, 100]

/-! ### Small steps -/

theorem test_crc16_digits : crc16 [0x31, 0x32, 0x33, 0x34, 0x35, 0x36, 0x37, 0x38, 0x39] = 0x29B1 := by decide +kernel

theorem test_wire_halt : wireFrame 0x30 [2] =
    [0xA5, 0x30, 0x01, 0x02] ++ wordBytes (crc16 [0x30, 0x01, 0x02]) := by decide +kernel

theorem test_load_oneRoute : (loadImage image).checked = true ∧ (loadImage image).loadResult =
    { outcome := .loaded, length := some 58, fault := none } := by decide +kernel

theorem test_imageOf_image : imageOf (loadImage image) = image := by decide +kernel

theorem test_load_overlength : (loadImage (image.set 1 59)).loadResult =
    { outcome := .badLength, length := some 59, fault := none } := by decide +kernel

theorem test_load_badZone : (loadImage (image.set 16 0x8C14)).loadResult =
    { outcome := .badRecord, length := some 58, fault := none } := by decide +kernel

theorem test_load_noZone : (loadImage (image.set 32 0)).loadResult =
    { outcome := .tableFault, length := some 58,
      fault := some { table := some .station, index := some 0, visit := none, fault := .stationZone } } := by
  decide +kernel

/-- What a next state shows. -/
def after {α : Type} (o : Host.Outcome State Fault Refusal) (f : State → α) : Option α :=
  match o with
  | .next t => some (f t)
  | _ => none

/-- The image has been read to its end. -/
def read : State :=
  { State.reset with
    tables := loadImage image
    load.memory := image.flatMap wordBytes
    load.msel := false
    load.reading := { count := 58, length := some 58, stage := .complete } }

theorem test_autoload_idle : after (exec (.autoloadEnd image) read) (fun t => (t.sup.state, t.link.lowerTx)) =
    some (.idle, some (.pathControl .linkStart)) := by decide +kernel

theorem test_autoload_wholeImage :
    after (exec (.autoloadEnd image) State.reset) (fun t => (t.sup.state, t.tables.loadResult.outcome, t.load.msel)) =
      some (.idle, .loaded, false) ∧
    after (exec (.autoloadEnd (0 :: image)) read) (fun t => t.sup.state) = some .starting := by decide +kernel

/-- The last CLK period before the loader samples bit `i` of the memory, with these bits of the word under way. -/
def sampling (i : Nat) (shift : Word) (s : State) : State :=
  { s with load.memory := [0x4D, 0x53], load.periods := 24 * (24 + i) + 11, load.shift := shift }

theorem test_loader_readsSignature :
    let t := loaderPeriod (sampling 15 (0x4D53 >>> 1) State.reset)
    t.load.reading = { count := 1, length := none, stage := .length } ∧ t.load.mclk = true ∧ t.load.msel = true := by
  decide +kernel

theorem test_loader_noSignature :
    let t := loaderPeriod (sampling 15 0x2000 State.reset)
    t.load.reading.stage = .failed .noSignature ∧ t.load.msel = false ∧ t.load.mclk = false := by decide +kernel

theorem test_discard_goesOn :
    after (exec (.frameDiscard .lower [⟨0xA5, true⟩, ⟨0x41, true⟩, ⟨61, true⟩, ⟨0xA5, true⟩]) (part .idle))
      (fun t => (noticesHeld t, t.link.rxLower.mode)) = some ([.linkError .lower .length 0x41], .inFrame) := by
  decide +kernel

theorem test_cancel_voidsInRecordOrder :
    after (exec (.cancelJob .upper) (asked .upper 0x24 [0, 1]
      { tabled .set [visit .pick] (queued [{ entry 4 .delivered with set := some 5 }, { entry 5 .delivered with set := some 6 }]
          6 (part .running)) with
        sets.records := [{ setRec .opened 1 none with name := { bin := 0, set := 6 } }, setRec .opened 1 none] }))
      (fun t => (t.sets.voidOrder.map (·.set), controlHeld t)) =
    some ([6, 5], [.setVoid { bin := 0, set := 6 }, .setVoid five]) := by decide +kernel

theorem test_readState_reply : after (exec (.readState .upper) (asked .upper 0x02 [] (part .idle)))
    (fun t => (repliesHeld .upper t).map fun r => (r.tag, r.status, r.results)) =
    some [(7, .done, [2, 0, 0, 0xFF, 0, 0, 0, 0xFF, 0, 31, 0, 0, 3, 0, 0])] := by decide +kernel

/-- An order of 500 steps over route 0. -/
def orderPayload (n : Byte) : List Byte := [0, n, 0, 1, 0, 0, 0, 0, 0, 0, 0, 0, 1, 0xF4, 0, 0]

theorem test_order_forwarded :
    after (exec (.order (orderPayload 4)) (tabled .stack [visit .pick] { part .idle with
      fwd := { f := 0, limit := 3, windowHold := false, speed := 0, request := none } }))
      (fun t => (t.sup.state, t.fwd.f, t.ret.entries.map fun e => (e.order, e.state, e.attempt))) =
    some (.running, 1, [(4, .forwarded, 1)]) := by decide +kernel

theorem test_pick_posts :
    after (exec (.pick [0, 4]) (tabled .stack [visit .pick] (queued [entry 4 .forwarded] 5 (part .running))))
      (fun t => (t.ret.entries.map (·.state), (t.trk.lists[0]).map fun x => (x.e, x.early, x.late))) =
    some ([.inFlight], [(100, 57, 163)]) := by decide +kernel

theorem test_late_stops :
    after (exec (.lateExpiry 0) (tracked 4 (tabled .stack [visit .pick] (queued [entry 4 .inFlight] 5
      { part .running with trk.lists := (part .running).trk.lists.set 0 [expectation], pos.p := 161 }))))
      (fun t => (t.sup.state, t.jam.causes)) =
    some (.stopping, [{ kind := .late, station := some 0, cover := none, set := none, zones := 1, sheet := some 4,
                        pos := 161 }]) := by decide +kernel

/-! ### Witnesses: the machine -/

theorem witness_step : ∃ (s t : State), s.pending = [.encoderPulse] ∧ t.pending = [] :=
  ⟨{ part .idle with pending := [.encoderPulse] }, part .idle, rfl, rfl⟩

theorem witness_loaderIdle : read.load.msel = false := rfl

/-- The running part with one command waiting. -/
def ready : State := { part .running with pending := [.encoderPulse] }

theorem witness_invariants : SupervisorInv ready ∧ CaptureInv ready ∧ RetentionInv ready ∧ SensingInv ready ∧
    LinkInv ready ∧ HoldingInv ready ∧ Granted ready ∧ ∃ t, step ready = .next t := by
  refine ⟨?_, ?_, ?_, ?_, ?_, ?_, ?_, ⟨_, rfl⟩⟩
  · exact ⟨by decide, by decide, by decide, by decide⟩
  · exact ⟨by decide, by decide, by decide, ⟨by decide, by decide⟩⟩
  · exact ⟨by decide, rfl, by decide⟩
  · exact ⟨by decide, by decide⟩
  · exact ⟨by decide, by decide, by decide, by decide, by decide, by decide, by decide, by decide, by decide⟩
  · exact ⟨by decide, by decide, by decide, by decide, by decide, by rintro p ⟨⟩⟩
  · exact (granted_iff ready).2 (by decide +kernel)

/-! ### Witnesses: resets, ends of frames, receivers -/

/-- The capture is owned. -/
def owned (o : Owner) (s : State) : State := { s with cap.owner := o, svc.claim := o = .service }

/-- The lower transmitter sends a frame. -/
def sending (f : LowerFrame) (s : State) : State := { s with link.lowerTx := some f }

/-- A notice, a reply, a frame of the engine, a command and a forwarded order. -/
def aNotice : Notice := .foreignSheet 0
def aReply : Reply := { tag := 7, status := .done, results := [] }
def aReport : RawFrame := { kind := 0x40, payload := [] }
def aCommand : Command := { kind := 0x11, payload := [], mark := none }
def aForward (live : Bool) : ForwardedOrder := { entry := entry 4 .forwarded, live := live }

theorem witness_resets : State.reset.cap.owner ≠ .service ∧
    (owned .service State.reset).cap.owner = .service ∧ (owned .service State.reset).cap.state ≠ .running := by decide

/-- A RUNNING capture of SERVICE in a mode, with a mask. -/
def capturing (mode : CaptureMode) (mask : EventMask) (s : State) : State :=
  { owned .service s with
    cap := { owner := .service, state := .running, mode := mode, mask := mask, post := none, buffer := [] } }

theorem witness_resetCaptures :
    (capturing (.count 1) 0 (part .idle)).cap.mask.getLsbD 9 = false ∧
    (∀ mode, mode = .count 1 ∨ mode = .count 512 ∨ mode = .trigger .state 0 ∨ mode = .trigger .on 511 →
      let s := capturing mode 0x200 (part .idle)
      s.cap.owner = .service ∧ s.cap.state = .running ∧ s.cap.mask.getLsbD 9 = true ∧ s.cap.mode = mode) ∧
    after (exec .pinReset (capturing (.count 1) 0x200 (part .idle))) (fun t => t.cap.state) = some .stopped ∧
    after (exec .pinReset (capturing (.trigger .state 0) 0x200 (part .idle))) (fun t => t.cap.state) = some .stopped := by
  refine ⟨by decide, ?_, by decide +kernel, by decide +kernel⟩
  rintro mode (rfl | rfl | rfl | rfl) <;> decide

theorem witness_loader :
    State.reset.load.msel = true ∧ (State.reset.load.periods + 1) % 24 ≠ 12 ∧ 12 % 24 = 12 ∧ 12 < 576 ∧
    (∀ i, i = 0 ∨ i = 15 → (sampling i 0 State.reset).load.msel = true ∧
      (sampling i 0 State.reset).load.periods + 1 = 24 * (24 + i) + 12) ∧ 0 % 16 ≠ 15 ∧ 15 % 16 = 15 := by
  refine ⟨by decide, by decide, by decide, by decide, ?_, by decide, by decide⟩
  rintro i (rfl | rfl) <;> decide

theorem witness_autoload :
    (∀ s, s = read ∨ s = State.reset → s.sup.state = .starting ∧
      memoryWords s.load.memory s.load.reading.count = imageWords image s.load.reading.count) ∧
    read.load.reading.ended = true ∧ (loadEnd read.load.reading read.tables).checked = true ∧
    (loadImage []).checked = false ∧
    (let s := qualifying false 0 read
     (s.tables.stations[(0 : Station)]).defined = true ∧ (s.front.stations[(0 : Station)]).qual = true) := by
  refine ⟨?_, by decide +kernel⟩
  rintro s (rfl | rfl) <;> decide +kernel

theorem witness_load : (loadImage image).loadResult.outcome = .loaded ∧ (loadImage []).loadResult.outcome ≠ .loaded ∧
    (0 : Word) ≠ 0x4D53 ∧ (52 : Word).toNat < 53 ∧ 1173 < (1174 : Word).toNat ∧
    read.load.reading.stage = .complete ∧ validate read.tables = none ∧ (validate .empty).isSome = true ∧
    State.reset.load = .start State.reset.load.memory := by decide +kernel

theorem witness_storable : Storable (loadImage image) ∧ validate (loadImage image) = none :=
  ⟨⟨by decide +kernel, by decide +kernel, by decide +kernel, by decide +kernel, by decide +kernel, by decide +kernel⟩,
    by decide +kernel⟩

theorem witness_pathControlSent :
    (sending (.pathControl .linkStart) (part .idle)).link.lowerTx = some (.pathControl .linkStart) ∧
    (sending (.pathControl .halt) (part .stopping)).link.lowerTx = some (.pathControl .halt) ∧
    (sending (.pathControl (.setVoid five)) (part .idle)).link.lowerTx = some (.pathControl (.setVoid five)) ∧
    (let s := sending (.pathControl (.speedChange 1)) (part .speedChange)
     s.link.lowerTx = some (.pathControl (.speedChange 1)) ∧ s.sup.state = .speedChange ∧
       ∀ d : SpeedClass, .speedChange d ∉ s.link.pathControl) ∧
    (let s := sending (.pathControl (.speedChange 1)) (part .stopping)
     s.link.lowerTx = some (.pathControl (.speedChange 1)) ∧ s.sup.state ≠ .speedChange) ∧
    (.speedChange 2 ∈ ({ sending (.pathControl (.speedChange 1)) (part .speedChange) with
      link.pathControl := [.speedChange 2] } : State).link.pathControl) := by decide

theorem witness_lowerSent :
    (∀ live, (sending (.forwardedOrder (aForward live)) (part .running)).link.lowerTx = some (.forwardedOrder (aForward live)) ∧
      (aForward live).live = live) ∧
    (sending (.command aCommand) (part .running)).link.lowerTx = some (.command aCommand) ∧
    (sending (.pathControl .run) (part .running)).link.lowerTx = some (.pathControl .run) ∧
    (sending (.pathControl (.purgeRun 1 1 [])) (part .purging)).link.lowerTx = some (.pathControl (.purgeRun 1 1 [])) ∧
    (part .running).link.lowerTx = none ∧ (part .running).link.pathControl = [] ∧
    (part .running).link.linkStarted = false := by decide

theorem witness_lowerWaits :
    (let s : State := { part .running with link.pathControl := [.run] }
     s.link.lowerTx = none ∧ s.link.pathControl = [.run]) ∧
    (let s : State := { part .running with link.linkStarted := true, link.commands := [aCommand] }
     s.link.pathControl = [] ∧ s.link.linkStarted = true ∧ s.link.commands = [aCommand] ∧ aCommand.mark = none) ∧
    (let s : State := { part .running with link.linkStarted := true, link.forwarded := [aForward true] }
     s.link.pathControl = [] ∧ s.link.linkStarted = true ∧ s.link.commands = [] ∧
       s.link.forwarded = [aForward true]) := by decide

/-- A barrier whose mark holds order 4. -/
def aBarrier : Command := { kind := 0x12, payload := [], mark := some [4] }

/-- LINK START has been sent, and these commands and forwarded orders wait. -/
def waiting (cs : List Command) (fs : List ForwardedOrder) (s : State) : State :=
  { s with link.linkStarted := true, link.commands := cs, link.forwarded := fs }

theorem witness_barriers :
    (let s := waiting [aBarrier] [] (queued [entry 4 .skipped] 5 (part .running))
     s.link.lowerTx = none ∧ s.link.pathControl = [] ∧ s.link.commands = [aBarrier] ∧
       ∀ n ∈ [(4 : OrderNo)], ¬∃ e, s.ret.entries.find? (fun e => e.order = n) = some e ∧ e.firstSent = false ∧
         e.state ≠ .skipped) ∧
    (let s := waiting [aBarrier, aBarrier, aCommand] [] (queued [entry 4 .queued] 5 (part .running))
     s.link.lowerTx = none ∧ s.link.commands = aBarrier :: [aBarrier] ++ aCommand :: [] ∧
       (∃ e, s.ret.entries.find? (fun e => e.order = 4) = some e ∧ e.firstSent = false ∧ e.state ≠ .skipped) ∧
       (∀ x ∈ [aBarrier], x.mark.isSome = true) ∧ aCommand.mark = none) ∧
    (let s := waiting [aBarrier] [aForward true] (queued [entry 4 .queued] 5 (part .running))
     s.link.commands = aBarrier :: [] ∧ s.link.forwarded = [aForward true] ∧
       ∃ e, s.ret.entries.find? (fun e => e.order = 4) = some e ∧ e.firstSent = false ∧ e.state ≠ .skipped) := by
  refine ⟨⟨rfl, rfl, rfl, ?_⟩, ⟨rfl, rfl, ⟨_, rfl, rfl, by decide⟩, by decide, rfl⟩, rfl, rfl, _, rfl, rfl, by decide⟩
  rintro n hn ⟨e, he, -, h⟩
  obtain rfl := List.mem_singleton.1 hn
  obtain rfl := Option.some.inj he
  exact h rfl

theorem witness_upperSent :
    let s : State := { part .running with link.upperTx := some (.notice aNotice) }
    s.link.upperTx.isSome = true ∧ s.link.credit = none ∧ s.link.replies = [] ∧ s.link.notices = [] ∧
    s.link.reports = [] ∧
    ({ s with link.credit := some (creditContent .empty) } : State).link.credit = some (creditContent .empty) ∧
    ({ s with link.replies := [aReply] } : State).link.replies = [aReply] ∧
    ({ s with link.notices := [aNotice] } : State).link.notices = [aNotice] ∧
    ({ s with link.reports := [aReport] } : State).link.reports = [aReport] := by decide

theorem witness_serviceSent :
    let s : State := { part .running with svc.tx := some (.notice aNotice) }
    s.svc.tx.isSome = true ∧ s.svc.reply = none ∧ s.svc.notices = [] ∧
    ({ s with svc.reply := some aReply } : State).svc.reply = some aReply ∧
    ({ s with svc.notices := [aNotice] } : State).svc.notices = [aNotice] := by decide

theorem witness_receiver : ∃ r : Receiver, r.mode = .hunting ∧ (List.replicate 60 (0 : Byte)).length ≤ 60 :=
  ⟨.hunting, rfl, by decide⟩

/-- A frame is under way on every port since time 0. -/
def inFrame (s : State) : State :=
  let r : Receiver := { mode := .inFrame, bytes := [0x10], lastChar := 0 }
  { s with link.rxUpper := r, link.rxLower := r, svc.rx := r }

theorem witness_badFrames :
    (∀ port, port = .upper ∨ port = .lower ∨ port = .service → (receiverOf port (part .idle)).mode = .hunting) ∧
    60 < (61 : Byte).toNat ∧ [(0 : Byte), 1] ≠ wordBytes (crc16 [0x10, byteOf 0]) ∧
    (receiverOf .lower (inFrame (part .idle))).mode = .inFrame ∧
    24000 < ({ inFrame (part .idle) with pos.clock := 24001 } : State).pos.clock - 0 ∧
    480000 < ({ inFrame (part .idle) with pos.clock := 480001 } : State).pos.clock - 0 ∧
    ({ inFrame (part .idle) with pos.clock := 24000 } : State).pos.clock - 0 ≤ 24000 ∧
    (receiverOf .lower { part .idle with link.rxLower := { mode := .inFrame, bytes := [], lastChar := 0 } }).bytes = [] ∧
    (1 : Byte) ≠ 0 ∧ (0 : Byte) ≠ 0xA5 ∧ (receiverOf .service { part .idle with svc.rx.mode := .lineLow }).mode = .lineLow := by
  refine ⟨?_, by decide, by decide +kernel, by decide, by decide, by decide, by decide, by decide, by decide, by decide, by decide⟩
  rintro port (rfl | rfl | rfl) <;> rfl

/-- The bytes held and one more: a Length above 60, a frame that is still short, and the two ends of a whole one (R167, R168). -/
theorem witness_framesEnd :
    (inFrame (part .idle)).svc.rx.bytes ++ [61] = 0x10 :: 61 :: [] ∧ 60 < (61 : Byte).toNat ∧
    (inFrame (part .idle)).svc.rx.bytes ++ [0] = 0x10 :: 0 :: [] ∧ ([] : List Byte).length < (0 : Byte).toNat + 2 ∧
    ([0, 0] : List Byte).length = (0 : Byte).toNat + 2 ∧
    (([0, 0] : List Byte).drop (0 : Byte).toNat ≠ wordBytes (crc16 [0x10, 0])) ∧
    (wordBytes (crc16 [0x10, 0])).length = (0 : Byte).toNat + 2 ∧
    (wordBytes (crc16 [0x10, 0])).drop (0 : Byte).toNat = wordBytes (crc16 [0x10, 0]) := by decide +kernel

/-- A frame completes at a hunting receiver, and where the bytes held are its first; it does not where they are another's,
beyond the gap limit, or while the service line is low. -/
theorem witness_frameCompletes (kind : Byte) (payload : List Byte) (st : PartState) :
    (∀ port, frameCompletes port kind payload (part st) = true) ∧
    (∀ port, frameCompletes port 0x10 payload (inFrame (part st)) = true) ∧
    (∀ port, kind ≠ 0x10 → frameCompletes port kind payload (inFrame (part st)) = false) ∧
    frameCompletes .upper 0x10 payload { inFrame (part st) with pos.clock := 24001 } = false ∧
    frameCompletes .lower kind payload { inFrame (part st) with pos.clock := 24001 } = false ∧
    frameCompletes .service kind payload { part st with svc.rx.mode := .lineLow } = false := by
  refine ⟨by rintro ⟨⟩ <;> rfl, by rintro ⟨⟩ <;> rfl, ?_, rfl, rfl, rfl⟩
  intro port h
  cases port <;> simp [frameCompletes, receiverOf, inFrame, wireFrame, gapDue, gapLimit, part, List.isPrefixOf] <;>
    exact fun _ e => h e.symm

theorem witness_passedFrames :
    ({ part .idle with link.commands := List.replicate 15 aCommand } : State).link.commands.length < 16 ∧
    16 ≤ ({ part .idle with link.commands := List.replicate 16 aCommand } : State).link.commands.length ∧
    ({ part .idle with link.reports := List.replicate 31 aReport } : State).link.reports.length < 32 ∧
    32 ≤ ({ part .idle with link.reports := List.replicate 32 aReport } : State).link.reports.length ∧
    ([] : List Byte).length ≠ 16 ∧ ([] : List Byte).length ≠ 1 ∧ ([] : List Byte).length ≠ 2 := by decide

theorem witness_manage :
    2 ≤ ([7, 1] : List Byte).length ∧ ([7] : List Byte).length < 2 ∧
    ({ part .idle with link.holding := List.replicate 3 [7, 1] } : State).link.holding.length < 4 ∧
    4 ≤ ({ part .idle with link.holding := List.replicate 4 [7, 1] } : State).link.holding.length ∧
    (part .idle).svc.rx.mode ≠ .lineLow ∧ (part .idle).svc.held = none ∧
    (asked .service 1 [] (part .idle)).svc.held.isSome = true := by decide

theorem witness_breaks :
    ({ part .idle with pos.clock := 240000 } : State).svc.rx.mode ≠ .lineLow ∧
    240000 ≤ ({ part .idle with pos.clock := 240000 } : State).pos.clock - (part .idle).svc.highAt ∧ (owned .service (part .idle)).cap.owner = .service ∧
    (part .idle).cap.owner ≠ .service ∧ Granted (part .idle) ∧
    ({ part .idle with svc.rx.mode := .lineLow } : State).svc.rx.mode = .lineLow := by
  exact ⟨by decide, by decide, by decide, by decide, (granted_iff _).2 (by decide +kernel), by decide⟩

/-- A break is measured from the line's last return, so that two of them cannot follow each other at one clock; a low level that has
been discarded as FRAMING is no break any more. -/
theorem test_breaks_areMeasured :
    let t := fun n : Nat => ({ part .idle with pos.clock := n, svc.claim := true } : State)
    after (exec .serviceReset (t 239999)) (fun t => t.svc.claim) = some true ∧
    after (exec .serviceReset (t 240000)) (fun t => t.svc.claim) = some false ∧
    (let returned : State := { t 240000 with svc.rx.mode := .lineLow }
     after (exec .serviceLineReturnsHigh returned) (fun t => (t.svc.rx.mode, breakDue t)) = some (.hunting, false)) ∧
    (let heard := fun c : RxChar => after (exec (.frameDiscard .service [c]) (t 240000)) (fun t => breakDue t)
     heard ⟨0, true⟩ = some false ∧ heard ⟨1, false⟩ = some false ∧ heard ⟨0, false⟩ = some true) ∧
    after (exec (.frameDiscard .service [⟨0, false⟩]) (inFrame (t 240000))) (fun t => (breakDue t, t.svc.tx)) =
      some (false, some (.notice (.linkError .service .framing 0x10))) := by decide +kernel

theorem test_character_levels :
    charLevels 0x35 = [false, true, false, true, false, true, true, false, false, true] ∧
    charOf (charLevels 0x35) = some ⟨0x35, true⟩ ∧ charOf (List.replicate 10 false) = some ⟨0, false⟩ ∧
    charOf (List.replicate 10 true) = none := by decide +kernel

theorem witness_notices :
    ({ part .idle with link.notices := List.replicate 47 aNotice } : State).link.notices.length < 48 ∧
    48 ≤ ({ part .idle with link.notices := List.replicate 48 aNotice } : State).link.notices.length ∧
    ({ part .idle with svc.notices := List.replicate 7 aNotice } : State).svc.notices.length < 8 ∧
    8 ≤ ({ part .idle with svc.notices := List.replicate 8 aNotice } : State).svc.notices.length := by decide

/-! ### Witnesses: orders -/

/-- The fields of an order of route 0. -/
def fields (length : Word) (cls route set : Byte) : OrderFields :=
  { order := 4, job := 1, sheetIndex := 0, front := 0, back := 0, flags := 0, route := route, length := length,
    cls := cls, set := set }

/-- The payload of those fields. -/
def payloadOf (length : Word) (cls route set : Byte) : List Byte :=
  [0, 4, 0, 1, 0, 0, 0, 0, 0, 0, 0, route] ++ wordBytes length ++ [cls, set]

/-- IDLE with route 0 over station 0 into a bin. -/
def idleWith (kind : BinKind) : State := tabled kind [visit .pick] (part .idle)

theorem witness_orderRefused :
    decodeOrder (payloadOf 500 0 0 0) = some (fields 500 0 0 0) ∧ (part .starting).sup.state = .starting ∧
    (let s := queued [] 5 (idleWith .stack)
     s.sup.state ≠ .starting ∧ s.sup.state ≠ .unconfigured ∧ s.ret.expected = some 5 ∧ (fields 500 0 0 0).order ≠ 5) ∧
    (let s := queued (List.replicate 32 (entry 0 .held)) 4 (idleWith .stack)
     s.ret.expected = some (fields 500 0 0 0).order ∧ 32 ≤ s.ret.entries.length) := by decide +kernel

theorem witness_orderFields :
    (queued (List.replicate 31 (entry 0 .held)) 4 (idleWith .stack)).ret.entries.length < 32 ∧
    decodeOrder (payloadOf 499 0 0 0) = some (fields 499 0 0 0) ∧ (499 : Word).toNat < 500 ∧
    decodeOrder (payloadOf 6001 0 0 0) = some (fields 6001 0 0 0) ∧ 6000 < (6001 : Word).toNat ∧
    decodeOrder (payloadOf 500 3 32 0) = some (fields 500 3 32 0) ∧ 3 ≤ (3 : Byte).toNat ∧ 32 ≤ (32 : Byte).toNat ∧
    isPrintRoute (part .idle).tables.routes[(0 : RouteIx)] = false ∧
    setRefused (idleWith .set) 0 (fields 500 0 0 0).setNumber false = true := by decide +kernel

theorem witness_orderAccepted :
    (∀ l : Word, l = 500 ∨ l = 6000 → decodeOrder (payloadOf l 0 0 0) = some (fields l 0 0 0)) ∧
    (fields 500 0 0 0).setNumber = none ∧ (fields 500 0 0 5).setNumber = some 5 ∧
    isPrintRoute (idleWith .stack).tables.routes[(0 : RouteIx)] = true ∧
    setRefused (idleWith .stack) 0 none false = false ∧ setRefused (idleWith .set) 0 (some 5) true = false ∧
    (idleWith .stack).sup.state ≠ .starting ∧ (idleWith .stack).ret.expected = none := by
  refine ⟨?_, by decide +kernel, by decide +kernel, by decide +kernel, by decide +kernel, by decide +kernel, by decide, rfl⟩
  rintro l (rfl | rfl) <;> decide +kernel

theorem witness_orderSets :
    (part .idle).ret.receiving = none ∧ (∀ r ∈ (withSet (setRec .done 1 none) (part .idle)).sets.records,
      r.name ≠ ({ bin := 1, set := 5 } : SetName)) ∧
    ({ part .idle with ret.receiving := some five } : State).ret.receiving = some five := by decide

theorem test_setTable_rows :
    let s := tabled .set [visit .pick] (part .idle)
    let full : State := { s with sets.records := List.replicate 8 { setRec .opened 1 none with name := { bin := 1, set := 1 } } }
    let joining : State := { withSet (setRec .opened 1 none) s with ret.receiving := some five }
    (setRefused (tabled .stack [visit .pick] (part .idle)) 0 none true, setRefused s 0 none false,
      setRefused (tabled .stack [visit .pick] (part .idle)) 0 (some 5) false,
      setRefused (withSet (setRec .done 1 none) s) 0 (some 5) false, setRefused full 0 (some 5) false) =
      (true, true, true, true, true) ∧
    (setRefused { tabled .stack [visit .pick] (part .idle) with ret.receiving := some five } 0 none false,
      setRefused joining 0 (some 6) false, setRefused { joining with ret.receiving := some { bin := 1, set := 5 } } 0 (some 5)
        false, setRefused joining 0 (some 5) true) = (true, true, true, false) := by decide +kernel

/-- The window opened by `n` orders. -/
def opened (n : Byte) (s : State) : State := { s with fwd.windowHold := false, fwd.limit := n }

theorem witness_window :
    (let w := fun n : Byte => ((opened n (part .idle)).fwd.limit - (opened n (part .idle)).fwd.f).toNat
     w 1 = 1 ∧ w 8 = 8 ∧ w 0 = 0 ∧ w 9 = 9) ∧
    (opened 3 (part .idle)).fwd.windowHold = false ∧ (part .idle).fwd.windowHold = true ∧
    (part .starting).sup.state = .starting ∧
    (let s := sending (.pathControl .linkStart) (part .idle)
     s.link.lowerTx = some (.pathControl .linkStart) ∧ .halt ∉ s.link.pathControl) := by decide

theorem witness_forwarding :
    (∀ st, st = .idle ∨ st = .running →
      let s := opened 1 (queued [entry 4 .queued] 5 (part st))
      s.fwd.request = none ∧ s.ret.entries.find? (fun x => x.state = .queued) = some (entry 4 .queued) ∧
      heldBelow s 4 = false ∧ 1 ≤ engineWindow s.fwd ∧ forwardedCount s < 8 ∧ (entry 4 .queued).cls = s.fwd.speed) ∧
    (entry 4 .queued).cls ≠ ({ part .running with fwd.speed := 1 } : State).fwd.speed ∧
    (part .held).sup.state ≠ .running ∧
    heldBelow (queued [entry 3 .held, entry 4 .queued] 5 (part .running)) 4 = true ∧
    engineWindow (part .running).fwd = 0 ∧
    8 ≤ forwardedCount (queued (List.replicate 8 (entry 0 .forwarded)) 5 (part .running)) := by
  refine ⟨?_, by decide, by decide, by decide, by decide, by decide⟩
  rintro st (rfl | rfl) <;> decide

/-- RUNNING with a speed request for class 1, formed for order 4. -/
def requesting (es : List Entry) : State := { queued es 6 (part .running) with fwd.request := some (1, 4) }

theorem witness_speedRequest :
    (let s := requesting [entry 4 .queued]
     s.fwd.request = some (1, 4) ∧ s.sup.state = .running ∧ trackingEmpty s = true ∧
       (∀ e ∈ s.ret.entries, e.state ≠ .forwarded) ∧
       s.ret.entries.find? (fun x => x.state = .queued) = some (entry 4 .queued)) ∧
    (∀ e ∈ (requesting [entry 4 .held]).ret.entries, e.state ≠ .queued) ∧
    (let s := requesting [entry 5 .queued]
     s.ret.entries.find? (fun x => x.state = .queued) = some (entry 5 .queued) ∧ (5 : OrderNo) ≠ 4 ∧
       (entry 5 .queued).cls = s.fwd.speed ∧ heldBelow s 5 = false) ∧
    (let e : Entry := { entry 5 .queued with cls := 2 }
     let s := requesting [e]
     s.ret.entries.find? (fun x => x.state = .queued) = some e ∧ e.cls ≠ s.fwd.speed ∧ heldBelow s 5 = false) ∧
    (let e : Entry := { entry 5 .queued with cls := 2 }
     let s := requesting [entry 3 .held, e]
     s.ret.entries.find? (fun x => x.state = .queued) = some e ∧ heldBelow s 5 = true) ∧
    (∀ e ∈ (queued [entry 4 .delivered] 5 (part .running)).ret.entries, e.state ≠ .queued) ∧
    trackingEmpty (tracked 4 (requesting [])) = false ∧ (part .held).sup.state ≠ .running := by decide

theorem witness_atRest :
    (let s := queued [entry 4 .held] 5 (part .running)
     s.sup.state = .running ∧ s.fwd.request = none ∧ trackingEmpty s = true ∧
       (∀ e ∈ s.ret.entries, e.state ≠ .forwarded ∧ e.state ≠ .queued) ∧
       s.ret.entries.find? (fun x => x.state = .queued || x.state = .held) = some (entry 4 .held)) ∧
    (queued [entry 4 .queued] 5 (part .running)).ret.entries.find? (fun x => x.state = .queued || x.state = .held) =
      some (entry 4 .queued) ∧
    (∀ e ∈ (queued [entry 4 .delivered] 5 (part .running)).ret.entries, e.state ≠ .queued ∧ e.state ≠ .held) := by decide

/-- RUNNING with order 4 FORWARDED over route 0. -/
def picking : State := queued [entry 4 .forwarded] 5 (tabled .stack [visit .pick] (part .running))

theorem witness_insertion :
    (∀ y ∈ [expectation], 0 ≤ (expectation.e - y.e).toInt) ∧
    (∀ y, [{ expectation with e := 101 }].head? = some y → (expectation.e - y.e).toInt < 0) := by
  refine ⟨by decide, ?_⟩
  rintro y ⟨⟩
  decide

theorem witness_pick :
    picking.sup.state ≠ .starting ∧
    picking.ret.entries.find? (fun x => x.state = .forwarded) = some (entry 4 .forwarded) ∧
    (entry 4 .forwarded).order = wordOf 0 4 ∧ picking.trk.table[(0 : Tag)] = none ∧
    (picking.tables.routes[(0 : RouteIx)]).visits[0]? = some (visit .pick) ∧
    (picking.trk.lists[(0 : Station)]).length < 8 ∧
    8 ≤ (({ picking with trk.lists := picking.trk.lists.set 0 (List.replicate 8 expectation) } : State).trk.lists[
      (0 : Station)]).length ∧
    (entry 4 .forwarded).order ≠ wordOf 0 5 ∧
    (∀ g : Tag, ({ picking with trk.table := Vector.replicate 24 (some (record 0)) } : State).trk.table[g] ≠ none) ∧
    (part .starting).sup.state = .starting ∧ ([0] : List Byte).length ≠ 2 := by decide +kernel

theorem witness_skip (port : MgmtPort) (st : EntryState) :
    Awaits port (req 0x23 [0, 4]) 0x23 [0, 4] (asked port 0x23 [0, 4] (queued [entry 4 st] 5 (part .running))) ∧
    findEntry (queued [entry 4 st] 5 (part .running)) (wordOf 0 4) = some (entry 4 st) ∧
    findEntry (queued [entry 4 st] 5 (part .running)) (wordOf 0 5) = none ∧
    ({ entry 4 st with set := some 5 } : Entry).set.isSome = true := by
  refine ⟨asked_awaits _ _ _ _ rfl (by simp [queued, part]), ?_, ?_, rfl⟩ <;> cases st <;> decide

theorem witness_cancel (port : MgmtPort) :
    Awaits port (req 0x24 [0, 1]) 0x24 [0, 1] (asked port 0x24 [0, 1] (queued [entry 4 .queued] 5 (part .running))) ∧
    setsOfJob (queued [entry 4 .queued] 5 (part .running)) (wordOf 0 1) = [] ∧
    (let e : Entry := { entry 4 .delivered with set := some 5 }
     let s := withSet (setRec .opened 1 none) (queued [e] 5 (tabled .set [visit .pick] (part .running)))
     setRec .opened 1 none ∈ setsOfJob s (wordOf 0 1) ∧ e ∈ s.ret.entries ∧ e.state = .delivered ∧
       memberOf s.tables (setRec .opened 1 none) e = true) := by
  refine ⟨asked_awaits _ _ _ _ rfl (by decide), by decide +kernel, by decide +kernel⟩

theorem witness_cancelSets :
    let e : Entry := { entry 4 .delivered with set := some 5 }
    let s := withSet (setRec .opened 1 none) (queued [e] 5 (tabled .set [visit .pick] (part .running)))
    (s.sets.records.map (·.name)).Nodup ∧ s.sup.state ≠ .starting := by decide

/-- HELD for its attempts. -/
def heldFor (es : List Entry) : State := { queued es 6 (part .held) with sup.heldReason := some .attempts }

theorem witness_withdrawal :
    (part .running).sup.state ≠ .held ∧
    (let s : State := { part .held with sup.heldReason := some .speed }
     s.sup.state = .held ∧ s.sup.heldReason ≠ some .attempts) ∧
    (heldFor []).sup.state = .held ∧ (heldFor []).sup.heldReason = some .attempts ∧
    (heldFor [entry 4 .held]).ret.entries.find? (fun e => e.state = .queued || e.state = .held) = some (entry 4 .held) ∧
    (some (4 : OrderNo) = some (entry 4 .held).order ∧ some (3 : OrderNo) ≠ some (entry 4 .held).order) ∧
    (heldFor [entry 4 .queued]).ret.entries.find? (fun e => e.state = .queued || e.state = .held) =
      some (entry 4 .queued) ∧
    ((heldFor [entry 4 .forwarded]).ret.entries.find? fun e => e.state = .queued || e.state = .held) = none ∧
    trackingEmpty (heldFor []) = true ∧ trackingEmpty (tracked 4 (heldFor [])) = false ∧
    (∃ e ∈ (heldFor [entry 4 .forwarded]).ret.entries, e.state = .forwarded) := by decide

/-! ### Witnesses: management -/

theorem witness_reads (port : MgmtPort) (code : Byte) (args : List Byte) (st : PartState) (h : st ≠ .starting) :
    Awaits port (req code args) code args (asked port code args (planned (queued [entry 4 .queued] 5 (part st)))) :=
  asked_awaits _ _ _ _ rfl h

theorem witness_readsHold :
    findEntry (queued [entry 4 .queued] 5 (part .idle)) (wordOf 0 4) = some (entry 4 .queued) ∧
    findEntry (part .idle) (wordOf 0 4) = none ∧ 16 ≤ (16 : Byte).toNat ∧ 12 ≤ (12 : Byte).toNat ∧
    8 ≤ (8 : Byte).toNat ∧ 32 ≤ (32 : Byte).toNat ∧ 7 ≤ (7 : Byte).toNat ∧ (part .idle).plan.plan = none ∧
    (∃ p, (planned (part .idle)).plan.plan = some p ∧ p.number = 1 ∧ (2 : Byte) ≠ p.number ∧
      3 + (p.dispositions.length - 1) / 8 < (4 : Byte).toNat ∧
      (3 : Byte).toNat ≤ 3 + (p.dispositions.length - 1) / 8) := by
  refine ⟨by decide, by decide, by decide, by decide, by decide, by decide, by decide, rfl, _, rfl, ?_⟩
  decide +kernel

theorem witness_settled :
    servedRow (.unknownCommand .upper) = some (MgmtPort.upper, (fun c => !knownCodes.contains c), fun _ => true) ∧
    nextRequest .upper (asked .upper 0x60 [] (part .idle)) = some (req 0x60 []) ∧ knownCodes.contains 0x60 = false ∧
    servedRow (.identify .upper) = some (MgmtPort.upper, (fun c : Byte => decide (c = 0x01)), exactly 0) ∧
    nextRequest .upper (asked .upper 0x01 [9] (part .idle)) = some (req 0x01 [9]) ∧
    exactly 0 (req 0x01 [9]).args = false ∧
    nextRequest .upper (asked .upper 0x01 [] (part .starting)) = some (req 0x01 []) := by
  refine ⟨rfl, rfl, by decide, rfl, rfl, rfl, rfl⟩

/-- The argument lengths of the table writes at their ends (R178, R181). -/
theorem test_argument_lengths :
    writeLengthOk 4 [0] = false ∧ writeLengthOk 4 [0, 0] = true ∧ writeLengthOk 4 [0, 1, 0] = false ∧
    writeLengthOk 4 [0, 1, 0, 0, 0] = false ∧ routeLengthOk [0, 0] = true ∧ routeLengthOk [0, 1] = false ∧
    routeLengthOk (0 :: 1 :: 0 :: List.replicate 5 0) = false ∧ routeLengthOk (0 :: 1 :: 16 :: List.replicate 53 0) = true ∧
    routeLengthOk (0 :: 1 :: 17 :: List.replicate 56 0) = false := by decide

theorem witness_writes (port : MgmtPort) (st : PartState) (h : st ≠ .starting) (code : Byte) (args : List Byte) :
    Awaits port (req code args) code args (asked port code args (part st)) ∧ (part st).ret.entries = [] ∧
    (part st).sets.records = [] := ⟨asked_awaits _ _ _ _ rfl h, rfl, rfl⟩

theorem witness_writeArgs :
    writeLengthOk 4 [15, 1, 11, 255] = true ∧ (stationArgs [15, 1, 11, 255]).isSome = true ∧
    stationArgs [16, 1, 0, 1] = none ∧ stationArgs [0, 1, 12, 1] = none ∧
    writeLengthOk 4 [11, 1, 1, 0xFF] = true ∧ (zoneArgs [11, 1, 1, 0xFF]).isSome = true ∧ zoneArgs [0, 1, 0, 4] = none ∧
    writeLengthOk 4 [7, 0] = true ∧ (binArgs [7, 0]).isSome = true ∧ binArgs [0, 1, 2, 0] = none ∧
    routeLengthOk [31, 1, 1, 7, 15, 1, 15, 31, 0xF8, 0, 100] = true ∧
    (routeArgs [31, 1, 1, 7, 15, 1, 15, 31, 0xF8, 0, 100]).isSome = true ∧
    routeArgs [31, 1, 1, 7, 15, 1, 15, 31, 0xFC, 0, 100] = none ∧
    (List.replicate 28 (0 : Byte)).length = 28 := by decide +kernel

theorem witness_admitted :
    servedRow (.writeBin .upper) = some (MgmtPort.upper, (fun c : Byte => decide (c = 0x12)), writeLengthOk 4) ∧
    (∀ st, nextRequest .upper (asked .upper 0x12 [7, 0] (part st)) = some (req 0x12 [7, 0])) ∧
    writeLengthOk 4 (req 0x12 [7, 0]).args = true ∧ (req 0x12 [7, 0]).code = 0x12 ∧
    (queued [entry 4 .queued] 5 (part .idle)).ret.entries ≠ [] ∧
    (withSet (setRec .opened 1 none) (part .standby)).sets.records ≠ [] := by
  refine ⟨rfl, fun _ => rfl, by decide, rfl, by decide, by decide⟩

theorem witness_checkTables :
    (validate (part .unconfigured).tables).isSome = true ∧
    validate (tabled .stack [visit .pick] (part .unconfigured)).tables = none ∧
    coveredStations (tabled .stack [visit .pick] (part .unconfigured)) = [] ∧
    coveredStations (qualifying false 0 (tabled .stack [visit .pick] (part .unconfigured))) = [0] := by decide +kernel

/-- Tables that pass validation, route 0 being `r`. -/
def withRoute (r : RouteRec) : Tables := { (tabled .stack [visit .pick] (part .idle)).tables with
  routes := (tabled .stack [visit .pick] (part .idle)).tables.routes.set 0 r }

theorem witness_validate :
    (let t : Tables := { Tables.empty with stations := Tables.empty.stations.set 0 { defined := true, zone := 0, qualify := 1 } }
     ((t.stations[(0 : Station)]).defined = true ∧ (t.zones[(t.stations[(0 : Station)]).zone]).defined = false) ∧
       ∀ x : Station, ¬x < 0) ∧
    (let t : Tables := { Tables.empty with bins := Tables.empty.bins.set 0 { defined := true, kind := .stack, zone := 0 } }
     (∀ st : Station, ¬((t.stations[st]).defined = true ∧ (t.zones[(t.stations[st]).zone]).defined = false)) ∧
       ((t.bins[(0 : Bin)]).defined = true ∧ (t.zones[(t.bins[(0 : Bin)]).zone]).defined = false)) ∧
    (let t := withRoute (route [])
     (∀ b : Bin, ¬((t.bins[b]).defined = true ∧ (t.zones[(t.bins[b]).zone]).defined = false)) ∧
       (routeFault t 0).isSome = true) ∧
    (let t := withRoute (route [visit .pick])
     (∀ i, routeFault t i = none) ∧ (t.routes[(0 : RouteIx)]).defined = true ∧
       (t.routes[(0 : RouteIx)]).visits.head?.map (·.anchor) = some .pick) ∧
    ((∀ i, routeFault Tables.empty i = none) ∧ ∀ i : RouteIx, (Tables.empty.routes[i]).defined = false) := by
  decide +kernel

theorem witness_routeFault :
    ((withRoute (route [visit .pick])).routes[(1 : RouteIx)]).defined = false ∧
    (0 < 1 ∧ (visit .pick).anchor = .pick) ∧ (visit .prevOn).anchor ≠ .pick ∧
    ((withRoute (route [])).stations[(visit .pick).station]).defined = true ∧
    ((withRoute (route [])).stations[(1 : Station)]).defined = false ∧
    (route [visit .pick, visit .prevOn]).visits[1 - 1]?.map (·.station) = some (visit .prevOn).station := by decide +kernel

theorem witness_records :
    (1 : Nat) ≤ 20 ∧ limitsOf (limitsValues .defaults) = some .defaults ∧ (entry 4 .queued).set ≠ some 0 := by decide

theorem witness_resume (port : MgmtPort) (st : PartState) (n : Byte) (h : st ≠ .starting) :
    Awaits port (req 0x22 [n]) 0x22 [n] (asked port 0x22 [n] (planned (part st))) ∧
    ∃ p, (planned (part st)).plan.plan = some p ∧ p.isOpen = true ∧ p.number = 1 :=
  ⟨asked_awaits _ _ _ _ rfl h, _, rfl, rfl, rfl⟩

theorem witness_release :
    (part .held).sup.state = .held ∧ trackingEmpty (part .held) = true ∧ trackingEmpty (tracked 4 (part .held)) = false ∧
    entry 4 .held ∈ (queued [entry 4 .held] 5 (part .held)).ret.entries := by decide +kernel

theorem witness_awaitClear :
    (∀ p, (planned (part .awaitClear)).plan.plan = some p → p.number ≠ 2) ∧
    (∃ c : Cover, ((coverAt { rawClosed := false, closed := false, pending := none } (part .awaitClear)).front.covers[
      c]).closed = false) ∧
    (∀ c : Cover, ((planned (part .awaitClear)).front.covers[c]).closed = true) ∧
    (let s := planned (qualifying false 0 (tabled .stack [visit .pick] (part .awaitClear)))
     ∃ st : Station, (s.tables.stations[st]).defined = true ∧ (s.front.stations[st]).qual = true ∧
       ∀ p, s.plan.plan = some p → p.clear.getLsbD (s.tables.stations[st]).zone.val = true) ∧
    (let s := planned (tabled .stack [visit .pick] (part .awaitClear))
     (∀ st : Station, (s.front.stations[st]).qual = false) ∧ trackingEmpty s = true ∧
       trackingEmpty (tracked 4 s) = false ∧ s.jam.deferred = [] ∧ s.sets.voidOrder = [] ∧
       ({ s with sets.voidOrder := [five] } : State).sets.voidOrder ≠ []) := by
  refine ⟨?_, ⟨0, by decide⟩, by decide, ⟨0, by decide, by decide, ?_⟩, by decide +kernel⟩
  · rintro p ⟨⟩
    decide
  · rintro p ⟨⟩
    decide +kernel

theorem witness_purgeItems :
    (let s := queued [entry 4 .inFlight, entry 5 .queued] 6 (part .awaitClear)
     RetentionInv s ∧ s.ret.h = some 4) ∧
    (List.replicate 16 ((4 : OrderNo), Mark.salvage)).length ≤ 16 ∧
    16 < (List.replicate 17 ((4 : OrderNo), Mark.salvage)).length := by
  refine ⟨⟨⟨by decide, (by decide : ([4, 5] : List OrderNo) = numbersFrom (6 - 2) 2), by decide⟩, rfl⟩, by decide, by decide⟩

theorem witness_replay :
    (queued [entry 4 .queued] 5 (part .awaitClear)).ret.entries.find? (fun e => e.state = .queued || e.state = .held) =
      some (entry 4 .queued) ∧
    (queued [entry 4 .held] 5 (part .awaitClear)).ret.entries.find? (fun e => e.state = .queued || e.state = .held) =
      some (entry 4 .held) ∧
    (∀ e ∈ (queued [entry 4 .delivered] 5 (part .awaitClear)).ret.entries, e.state ≠ .queued ∧ e.state ≠ .held) := by
  decide

theorem witness_rebase :
    ({ planned (part .awaitClear) with trk.notedP := some 40 } : State).trk.notedP = some 40 ∧
    trackingEmpty (tracked 4 { planned (part .awaitClear) with trk.notedP := some 40 }) = false := by decide +kernel

/-- What an accepted RESUME answers where nothing is tracked and no set is VOIDED: the state chosen at replay, RUNNING, HELD or IDLE. -/
theorem test_resume_chosenState :
    let answered := fun es : List Entry =>
      after (exec (.resume .upper) (asked .upper 0x22 [1] (queued es 5 (planned (part .awaitClear)))))
        (fun t => (repliesHeld .upper t).map (·.results))
    answered [entry 4 .reprint] = some [[3]] ∧ answered [{ entry 4 .reprint with attempt := 3 }] = some [[8]] ∧
    answered [entry 4 .delivered] = some [[2]] := by decide +kernel

theorem witness_driveOut :
    (let s : State := { part .purging with sup.purge := some { phase := .driveOut, outstanding := [] } }
     s.sup.state = .purging ∧ (∃ p, s.sup.purge = some p ∧ p.phase = .driveOut) ∧ trackingEmpty s = true ∧
       s.sets.voidOrder = [] ∧ ({ s with sets.voidOrder := [five] } : State).sets.voidOrder ≠ []) ∧
    trackingEmpty (tracked 4 (part .purging)) = false :=
  ⟨⟨rfl, ⟨_, rfl, rfl⟩, by decide, rfl, by decide⟩, by decide⟩

theorem witness_standby (port : MgmtPort) :
    Awaits port (req 0x30 []) 0x30 [] (asked port 0x30 [] (part .idle)) ∧
    Awaits port (req 0x31 []) 0x31 [] (asked port 0x31 [] (part .standby)) ∧
    (∃ e ∈ (queued [entry 4 .queued] 5 (part .idle)).ret.entries, e.state = .queued) ∧
    (part .idle).sup.state ≠ .standby ∧ (part .idle).cap.state ≠ .running ∧ (part .idle).link.notices.length < 48 ∧
    (part .standby).sup.state ≠ .idle ∧ (part .idle).sup.state ≠ .running :=
  ⟨asked_awaits _ _ _ _ rfl (by decide), asked_awaits _ _ _ _ rfl (by decide), by decide, by decide, by decide,
    by decide, by decide, by decide⟩

theorem test_standby_entryAndLeaving :
    (let s := qualifying true 7 (tabled .stack [visit .pick] (part .idle))
     ((enterState .standby s).front.stations[(0 : Station)]).pending = none) ∧
    (let s := { qualifying true 7 (tabled .stack [visit .pick] (part .standby)) with pos.p := 9 }
     ((enterState .idle s).front.stations[(0 : Station)]).pending = some { toCovered := true, p := 9, time := 1200 }) := by
  decide +kernel

theorem witness_capture (port : MgmtPort) (o : Owner) (code : Byte) (args : List Byte) :
    Awaits port (req code args) code args (asked port code args (owned o (part .idle))) ∧
    (asked port code args (owned o (part .idle))).cap.owner = o :=
  ⟨asked_awaits _ _ _ _ rfl (by decide : (part .idle).sup.state ≠ .starting), by cases port <;> rfl⟩

theorem witness_arm :
    (wordOf 0 1).toNat = 1 ∧ (wordOf 2 0).toNat = 512 ∧ (wordOf 1 0xFF).toNat = 511 ∧
    (((wordOf 0 1).setWidth 10 : EventMask)) ≠ 0 ∧ ((wordOf 0 1).setWidth 10 : EventMask).getLsbD EventKind.on.number = true ∧
    (((wordOf 0xFC 0).setWidth 10 : EventMask)) = 0 ∧ 512 < (wordOf 2 1).toNat ∧ 9 < (10 : Byte).toNat ∧
    ({ owned .service (part .idle) with cap.state := .running } : State).cap.state = .running := by decide

/-- A capture of one record. -/
def captured : State :=
  { owned .service (part .idle) with
    cap.state := .stopped
    cap.buffer := [{ kind := .on, p := 0, ms := 0, station := some 0, order := none, detail := 0 }] }

theorem witness_readCapture :
    captured.cap.state ≠ .running ∧ (wordOf 0 0).toNat < captured.cap.buffer.length ∧
    captured.cap.buffer.length ≤ (wordOf 0 1).toNat ∧ captured.cap.buffer ≠ [] ∧
    (owned .service (part .idle)).cap.buffer = [] ∧ wordOf 0 0 = 0 ∧ wordOf 0 1 ≠ 0 := by decide

theorem witness_resetPart (port : MgmtPort) :
    Awaits port (req 0x50 []) 0x50 [] (asked port 0x50 [] (part .running)) ∧
    (part .running).tables.checked = false ∧
    (let s := tabled .stack [visit .pick] (part .running)
     s.tables.checked = true ∧ trackingEmpty s = true ∧ trackingEmpty (tracked 4 s) = false ∧ coveredStations s = [] ∧
       coveredStations (qualifying false 0 s) ≠ []) :=
  ⟨asked_awaits _ _ _ _ rfl (by decide), by decide, by decide +kernel⟩

theorem witness_resetNotices :
    (owned .controller (part .running)).cap.owner = .controller ∧ (part .running).cap.owner ≠ .controller ∧
    (part .running).cap.state ≠ .running ∧ (part .running).link.lossCount = 0 ∧
    (part .running).link.notices.length + 3 ≤ 48 ∧
    coveredStations (qualifying false 0 (tabled .stack [visit .pick] (part .running))) = [0] ∧
    (part .running).sup.state ≠ .standby ∧ (part .standby).sup.state = .standby := by decide +kernel

/-! ### Witnesses: pins and sensing -/

theorem witness_pulse : ({ part .idle with pos.p := 4294967295 } : State).pos.p = 4294967295 := rfl

theorem witness_trun :
    (part .idle).pos.trunRaw = (part .idle).pos.trunQual ∧ (part .idle).pos.trunPending = none ∧
    (let s : State := { part .idle with pos.trunRaw := true, pos.trunPending := some 0, pos.clock := 24000 }
     s.pos.trunRaw ≠ s.pos.trunQual ∧ s.pos.trunPending = some 0 ∧ 0 + 24000 ≤ s.pos.clock) := by decide

theorem witness_stationChange :
    ((part .idle).tables.stations[(0 : Station)]).defined = false ∧ (part .standby).sup.state = .standby ∧
    (let s := idleWith .stack
     (s.tables.stations[(0 : Station)]).defined = true ∧ s.sup.state ≠ .standby ∧
       (s.front.stations[(0 : Station)]).raw = (s.front.stations[(0 : Station)]).qual ∧
       (s.front.stations[(0 : Station)]).pending = none) ∧
    (let s := qualifying true 0 (idleWith .stack)
     (s.front.stations[(0 : Station)]).raw ≠ (s.front.stations[(0 : Station)]).qual ∧
       (s.front.stations[(0 : Station)]).pending.isSome = true) := by decide +kernel

/-- A sheet is on its way to station 0, whose ON is accepted at P = `p`; the route goes on by `next`. -/
def arriving (p : Pos) (next : List Visit) : State :=
  qualifying true p (tracked 4 (queued [entry 4 .inFlight] 5 (tabled .stack (visit .pick :: next)
    { part .running with trk.lists := (part .running).trk.lists.set 0 [expectation] })))

theorem witness_matchedOn (next : List Visit) (p : Pos) (h : next = [] ∨ next = [visit .prevOff] ∨ next = [visit .prevOn])
    (hp : p = 59 ∨ p = 60 ∨ p = 160) :
    acceptable 0 true (arriving p next) = some { toCovered := true, p := p, time := 0 } ∧
    edgesHanded (arriving p next).sup.state = true ∧ (arriving p next).trk.slots[(0 : Station)] = none ∧
    (arriving p next).trk.lists[(0 : Station)] = [expectation] ∧
    (arriving p next).trk.table[expectation.tag] = some (record 4) ∧
    divertsAt (arriving p next).tables (record 4) 0 = false ∧
    (followedRoute (arriving p next).tables (record 4)).visits[0 + 1]? = next.head? := by
  rcases h with rfl | rfl | rfl <;> rcases hp with rfl | rfl | rfl <;> decide +kernel

/-- A sheet marked WASTE-DIVERT on its way to station 0, where route 0 turns onto route 1, whose visit 0 is at station 1. -/
def diverting (a : Anchor) : State :=
  let s := tracked 4 (queued [entry 4 .inFlight] 5 (tabled .stack [visit .pick]
    { part .running with trk.lists := (part .running).trk.lists.set 0 [expectation] }))
  qualifying true 100 { s with
    tables.routes := (s.tables.routes.set 0 { route [visit .pick] with divert := some { d := 0, w := 1 } }).set 1
      (route [{ visit a with station := 1 }])
    trk.table := s.trk.table.set 0 (some { record 4 with disp := some .wasteDivert }) }

theorem witness_divert (a : Anchor) :
    let s := diverting a
    let r : TrackRec := { record 4 with disp := some .wasteDivert }
    acceptable 0 true s = some { toCovered := true, p := 100, time := 0 } ∧ edgesHanded s.sup.state = true ∧
    s.trk.slots[(0 : Station)] = none ∧ s.trk.lists[(0 : Station)] = [expectation] ∧
    s.trk.table[expectation.tag] = some r ∧ (s.tables.routes[r.route]).divert = some { d := 0, w := 1 } ∧
    (s.tables.routes[(1 : RouteIx)]).visits.head? = some { visit a with station := 1 } ∧
    (s.trk.lists[(1 : Station)]).length < 8 ∧
    8 ≤ (({ s with trk.lists := s.trk.lists.set 1 (List.replicate 8 expectation) } : State).trk.lists[(1 : Station)]).length := by
  cases a <;> decide +kernel

theorem witness_unmatchedOn :
    (∀ st, st = .starting ∨ st = .unconfigured ∨ st = .awaitClear ∨ st = .idle ∨ st = .running →
      acceptable 0 true (qualifying true 0 (tabled .stack [visit .pick] (part st))) =
        some { toCovered := true, p := 0, time := 0 }) ∧
    (let s := qualifying true 0 (idleWith .stack)
     s.trk.slots[(0 : Station)] = none ∧ s.trk.lists[(0 : Station)] = [] ∧ s.sup.state = .idle ∧ trackingEmpty s = true ∧
       trackingEmpty (tracked 4 s) = false) ∧
    edgesHanded .running = true ∧
    ({ part .running with trk.slots := (part .running).trk.slots.set 0 (some (occupant .nothing)) } : State).trk.slots[
      (0 : Station)] ≠ none := by
  refine ⟨?_, by decide +kernel, rfl, by decide⟩
  rintro st (rfl | rfl | rfl | rfl | rfl) <;> decide +kernel

theorem witness_foreignSheet :
    (part .idle).cap.state ≠ .running ∧ (part .idle).sup.state ≠ .awaitClear ∧
    (part .idle).link.notices.length + 3 ≤ 48 := by decide

/-- A sheet stands on station 0, whose OFF is accepted at P = `p`. -/
def leaving (a : OffAction) (p : Pos) : State :=
  qualifying false p (tracked 4 (queued [entry 4 .inFlight] 5 (tabled .stack [visit .pick]
    { part .running with trk.slots := (part .running).trk.slots.set 0 (some (occupant a)) })))

theorem witness_matchedOff (a : OffAction) :
    acceptable 0 false (leaving a 600) = some { toCovered := false, p := 600, time := 0 } ∧
    edgesHanded (leaving a 600).sup.state = true ∧ (leaving a 600).trk.slots[(0 : Station)] = some (occupant a) ∧
    (leaving a 600).trk.table[(occupant a).tag] = some (record 4) := by cases a <;> decide +kernel

theorem witness_unmatchedOff :
    (∀ st, st = .starting ∨ st = .unconfigured ∨ st = .awaitClear ∨ st = .idle ∨ st = .running →
      acceptable 0 false (qualifying false 0 (tabled .stack [visit .pick] (part st))) =
        some { toCovered := false, p := 0, time := 0 }) ∧
    (qualifying false 0 (idleWith .stack)).trk.slots[(0 : Station)] = none ∧ edgesHanded .idle = true ∧
    trackingEmpty (qualifying false 0 (idleWith .stack)) = true := by
  refine ⟨?_, by decide +kernel, rfl, by decide +kernel⟩
  rintro st (rfl | rfl | rfl | rfl | rfl) <;> decide +kernel

theorem witness_delivery (m : Option Mark) (kind : BinKind) :
    let s := tracked 4 (queued [{ entry 4 .inFlight with mark := m }] 5 (tabled kind [visit .pick] (part .running)))
    s.trk.table[(0 : Tag)] = some (record 4) ∧ findEntry s (record 4).order = some { entry 4 .inFlight with mark := m } ∧
    (s.tables.bins[(followedRoute s.tables (record 4)).bin]).kind = kind := by
  rcases m with _ | _ | _ | _ <;> cases kind <;> decide +kernel

/-- A sheet of order 4 in flight to set 5, whose record is `r`, as its delivery finds it. -/
def boundForSet (m : Option Mark) (r : SetRec) : State :=
  withSet r (tracked 4 (queued [{ entry 4 .inFlight with set := some 5, mark := m }] 5 (tabled .set [visit .pick] (part .running))))

theorem witness_setDelivery (m : Option Mark) (st : SetState) (cancelled rebuilt : Bool) :
    let e : Entry := { entry 4 .inFlight with set := some 5, mark := m }
    let r : SetRec := { setRec st 1 none with cancelled := cancelled, rebuilt := rebuilt }
    let s := boundForSet m r
    s.trk.table[(0 : Tag)] = some (record 4) ∧ findEntry s (record 4).order = some e ∧
    (s.tables.bins[(followedRoute s.tables (record 4)).bin]).kind = .set ∧ e.set = some 5 ∧
    findSet s { bin := (s.tables.routes[e.route]).bin, set := 5 } = some r ∧ r.cancelled = cancelled ∧ r.rebuilt = rebuilt := by
  rcases m with _ | _ | _ | _ <;> cases st <;> cases cancelled <;> cases rebuilt <;> decide +kernel

/-- R141 and R148: a sheet in flight at CANCEL JOB is SKIPPED, leaves the queue and voids its set; one that replay has returned is
DELIVERED, and completes the set, whose last member is known. -/
theorem test_delivery_intoCancelledSet :
    let delivered := fun rebuilt : Bool =>
      let t := deliver 0 (boundForSet none
        { setRec .opened 1 none with last := some 4, cancelled := true, rebuilt := rebuilt })
      (t.ret.entries.map (·.state), t.sets.records.map fun r => (r.state, r.members, r.delivered))
    delivered false = ([], [(.voided, 0, 0)]) ∧ delivered true = ([.delivered], [(.completeAwaiting, 1, 1)]) := by decide +kernel

/-- R133, R134 and R148: replay returns the REPRINT member of a cancelled set, which is rebuilt from then on; a second CANCEL JOB
skips the returned entry, which leaves the set with no member, and so with no record. -/
theorem test_replay_rebuildsCancelledSet :
    let s := withSet { setRec .opened 1 none with last := some 4, cancelled := true }
      (queued [{ entry 4 .reprint with set := some 5 }] 5 (tabled .set [visit .pick] (part .awaitClear)))
    (returnEntries s).sets.records.map (fun r => (r.cancelled, r.rebuilt)) = [(true, true)] ∧
    (cancelJob 1 (returnEntries s)).1.sets.records = [] := by decide +kernel

theorem witness_sampling :
    let s : State := { part .standby with pos.clock := 480000, front.emit := false, front.emitFrom := 0 }
    s.sup.state = .standby ∧ s.front.emit = false ∧ s.front.emitFrom + 480000 ≤ s.pos.clock ∧
    ({ s with front.emit := true } : State).front.emit = true ∧ s.front.emitFrom + 12000 ≤ s.pos.clock ∧
    (∀ st : Station, (s.front.stations[st]).sample = none) ∧ Granted s := by
  exact ⟨by decide, by decide, by decide, by decide, by decide, by decide, (granted_iff _).2 (by decide +kernel)⟩

/-- Station 0 in STANDBY with a first differing sample taken at P = 7, and a level that has changed since or not. -/
def sampled (changed : Bool) (s : State) : State :=
  { s with
    front.stations := s.front.stations.set 0 { raw := changed, qual := false, pending := none, sample := some 7 } }

theorem witness_sampledStation :
    (let s := sampled true (tabled .stack [visit .pick] (part .standby))
     (s.tables.stations[(0 : Station)]).defined = true ∧
       (s.front.stations[(0 : Station)]).raw ≠ (s.front.stations[(0 : Station)]).qual ∧
       (s.front.stations[(0 : Station)]).sample ≠ none) ∧
    (let s := sampled false (tabled .stack [visit .pick] (part .standby))
     (s.front.stations[(0 : Station)]).raw = (s.front.stations[(0 : Station)]).qual ∧
       (s.front.stations[(0 : Station)]).sample ≠ none) ∧
    (let v := part .standby
     v.sup.state = .standby ∧ trackingEmpty v = true ∧ v.trk.slots[(0 : Station)] = none ∧ v.trk.lists[(0 : Station)] = [] ∧
       trackingEmpty (tracked 4 v) = false) ∧
    (part .awaitClear).sup.state = .awaitClear := by decide +kernel

theorem test_sampling_foreignSheet :
    after (exec (.standbySample [0]) { sampled true (tabled .stack [visit .pick] (part .standby)) with pos.clock := 12000 })
      (fun t => (t.sup.state, (t.front.stations[(0 : Station)]).qual, noticesHeld t |>.head?)) =
    some (.awaitClear, true, some (.foreignSheet 0)) := by decide +kernel

theorem witness_covers :
    (let x := (part .idle).front.covers[(0 : Cover)]
     x.rawClosed = x.closed ∧ x.pending = none) ∧
    (let s := coverAt { rawClosed := false, closed := true, pending := some 0 } (part .idle)
     let x := s.front.covers[(0 : Cover)]
     x.rawClosed ≠ x.closed ∧ x.pending = some 0 ∧ 0 + 120000 ≤ s.pos.clock ∧ x.rawClosed = false ∧ x.closed = true ∧
       trackingEmpty s = true ∧ s.sup.state ≠ .running ∧ s.sup.state ≠ .purging ∧ trackingEmpty (tracked 4 s) = false) ∧
    (let s := coverAt { rawClosed := false, closed := true, pending := some 0 } { part .stopping with reached.covers := [0] }
     s.sup.state = .stopping ∧ (0 : Cover) ∈ s.reached.covers ∧ trackingEmpty s = true) ∧
    (let x := (coverAt { rawClosed := true, closed := false, pending := some 0 } (part .idle)).front.covers[(0 : Cover)]
     x.rawClosed = true ∧ x.closed = false) := by decide +kernel

/-! ### Witnesses: expiries, stops, sets and speed -/

/-- Station 0 expects tag 0 or holds it, at P = `p` with this sensing. -/
def watching (st : PartState) (p : Pos) (x : StationSense) : State :=
  tracked 4 { part st with
    pos.p := p
    front.stations := (part st).front.stations.set 0 x
    trk.lists := (part st).trk.lists.set 0 [expectation]
    trk.slots := (part st).trk.slots.set 0 (some (occupant .nothing)) }

/-- A station that senses nothing. -/
def still : StationSense := { raw := false, qual := false, pending := none, sample := none }

theorem witness_expiries :
    (let s := watching .running 161 still
     (s.front.stations[(0 : Station)]).pending = none ∧ s.trk.lists[(0 : Station)] = [expectation] ∧
       expectation.spent = false ∧ s.trk.table[expectation.tag] = some (record 4) ∧
       0 ≤ (s.pos.p - (expectation.late + 1)).toInt) ∧
    (let s := watching .standby 661 still
     (s.front.stations[(0 : Station)]).sample = none ∧ s.trk.slots[(0 : Station)] = some (occupant .nothing) ∧
       (occupant .nothing).spent = false ∧ s.trk.table[(occupant .nothing).tag] = some (record 4) ∧
       0 ≤ (s.pos.p - ((occupant .nothing).offLate + 1)).toInt) ∧
    (let x : Expectation := { expectation with spent := true }
     let s : State := { watching .running 661 still with trk.lists := (part .running).trk.lists.set 0 [x] }
     s.trk.lists[(0 : Station)] = [x] ∧ x.spent = true) ∧
    (part .running).trk.lists[(0 : Station)] = [] ∧ (part .running).trk.slots[(0 : Station)] = none ∧
    lateDue (watching .running 161 still) 0 = true ∧ stuckDue (watching .running 161 still) 0 = false ∧
    stuckDue (watching .running 661 still) 0 = true ∧ lateDue (watching .running 160 still) 0 = false ∧
    (let s : State := { part .running with pos.stallTimer := .running 0, pos.clock := 7200000 }
     stallDue s = true ∧ stallDue { s with pos.clock := 7199999 } = false) ∧
    (let s : State := { part .stopping with reached.stall := true }
     stallDue s = true ∧ s.pos.stallTimer = .stopped) := by decide +kernel

/-- Stations 0 and 1 each expect a sheet, and one pulse has reached both watches. -/
def bothReached : State :=
  let s := watching .running 161 still
  { s with
    trk.table := s.trk.table.set 1 (some (record 5))
    trk.lists := s.trk.lists.set 1 [{ expectation with tag := 1 }]
    trk.slots := s.trk.slots.set 0 none }

/-- The next state of a command that answers one. -/
def follow (c : Instr) (s : State) : State :=
  match exec c s with
  | .next t => t
  | _ => s

/-- Of two watches that one pulse reaches the second joins the stop that the first declares, once; an expectation whose bound is
reached by a later pulse of the stop does not. -/
theorem test_late_bothJoin :
    let t := follow (.lateExpiry 0) bothReached
    let u := follow (.lateExpiry 1) t
    let s : State :=
      { bothReached with trk.lists := bothReached.trk.lists.set 1 [{ expectation with tag := 1, late := 161 }] }
    t.sup.state = .stopping ∧ lateDue t 0 = false ∧ lateDue t 1 = true ∧ lateDue u 1 = false ∧
    u.jam.causes.map (·.sheet) = [some 4, some 5] ∧
    lateDue (follow .encoderPulse (follow (.lateExpiry 0) s)) 1 = false := by decide +kernel

/-- Station 0 awaits tag 0 while tag 1 stands on it, past the head's late bound, and an ON begun at P = `p` is accepted. -/
def pressing (st : PartState) (p : Pos) (xs : List Expectation) : State :=
  let s := watching st 200 still
  qualifying true p <| tabled .stack [visit .pick] { s with
    trk.table := s.trk.table.set 1 (some (record 5))
    trk.lists := s.trk.lists.set 0 xs
    trk.slots := s.trk.slots.set 0 (some { occupant .nothing with tag := 1 }) }

theorem witness_onAtOccupiedSlot (st : PartState) (p : Pos)
    (h : st = .running ∧ p = 160 ∨ st = .stopping ∧ (p = 160 ∨ p = 161)) :
    acceptable 0 true (pressing st p [expectation]) = some { toCovered := true, p := p, time := 0 } ∧
    edgesHanded (pressing st p [expectation]).sup.state = true ∧
    (pressing st p [expectation]).trk.slots[(0 : Station)] ≠ none ∧
    (pressing st p [expectation]).trk.lists[(0 : Station)] = [expectation] ∧
    (pressing st p []).trk.lists[(0 : Station)] = [] ∧
    acceptable 0 true (pressing st p []) = some { toCovered := true, p := p, time := 0 } ∧
    0 ≤ (expectation.late - 160).toInt ∧ (expectation.late - 161).toInt < 0 := by
  rcases h with ⟨rfl, rfl⟩ | ⟨rfl, rfl | rfl⟩ <;> decide +kernel

theorem witness_handedAtOccupiedSlot (st : PartState) (h : st = .standby ∨ st = .stopping) :
    (pressing st 160 [expectation]).sup.state = st ∧ (pressing st 160 [expectation]).trk.slots[(0 : Station)] ≠ none ∧
    (pressing st 160 [expectation]).trk.lists[(0 : Station)] = [expectation] ∧
    (pressing st 160 []).trk.lists[(0 : Station)] = [] := by
  rcases h with rfl | rfl <;> decide +kernel

/-- The UNEXPECTED of an ON at an occupied slot declares a stop; the LATE that the ON deferred does not join it (R68, R77). An ON
accepted in STOPPING leaves due a LATE of the declaration's moment that it came too late to defer. -/
theorem test_onAtOccupiedSlot_settlesLate :
    (let t := follow (.onEdge 0) (pressing .running 160 [expectation])
     (t.sup.state, t.jam.causes.map (·.kind), lateDue t 0)) = (.stopping, [.unexpected], false) ∧
    (let w : Reached := { Reached.nothing with late := [(0, expectation)] }
     lateDue (handEdge 0 true 161 { pressing .stopping 161 [expectation] with reached := w }) 0 = true ∧
     lateDue (handEdge 0 true 160 { pressing .stopping 160 [expectation] with reached := w }) 0 = false) := by decide +kernel

/-- A watch that takes the place of one which was due at the declaration is not due in STOPPING, be it of the same visit and
station, and, once that one has been taken, be it equal to it in everything (R75, R78). -/
theorem test_late_isOfThatWatch :
    let t := follow (.lateExpiry 0) bothReached
    lateDue t 1 = true ∧
    lateDue { t with trk.lists := t.trk.lists.set 1 [{ expectation with tag := 1, e := 150, early := 110, late := 210 }] } 1 =
      false ∧
    (let u := follow (.lateExpiry 1) t
     lateDue { u with trk.lists := u.trk.lists.set 1 [{ expectation with tag := 1 }] } 1 = false) := by decide +kernel

/-- LATE and STUCK of a station that are both due when a change is dropped are both taken (R77, R84). -/
theorem test_dropped_takesBoth :
    (let t := takeDueExpiries 0 (watching .running 661 still)
     (t.sup.state, t.jam.causes.map (·.kind), stuckDue t 0)) = (.stopping, [.late, .stuck], false) := by decide +kernel

/-- Two covers open in RUNNING at one moment with nothing tracked: both causes are listed; a third that opens later is a level
alone. -/
theorem test_covers_bothJoin :
    let opening : CoverSense := { rawClosed := false, closed := true, pending := some 0 }
    let s := coverAt opening (part .running)
    let s1 : State := { s with front.covers := (s.front.covers.set 1 opening).set 2 { opening with pending := some 1 } }
    let t := follow (.coverOpen 0) s1
    (follow (.coverOpen 1) t).jam.causes.map (·.cover) = [some 0, some 1] ∧
    (follow (.coverOpen 2) { t with pos.clock := 120001 }).jam.causes.map (·.cover) = [some 0] := by decide +kernel

/-- On page 1 of READ PLAN a cause without a set, a cover and a sheet has 0xFF for each absent value (R181). -/
theorem test_causes_absentValues :
    causesBytes [{ kind := .stall, station := none, cover := none, set := none, zones := 0x81, sheet := none, pos := 3 }] =
      [byteOf CauseKind.stall.code.toNat, 0xFF, 0xFF, 0xFF, 0xFF, 0, 0x81, 0, 0xFF, 0xFF, 0, 0, 0, 3] := by decide +kernel

theorem witness_settle :
    let s : State := { part .stopping with pos.settleFrom := some 0, pos.clock := 4800000 }
    s.sup.state = .stopping ∧ s.pos.settleFrom = some 0 ∧
    max 0 s.pos.lastPulse + s.tables.limits.settleTime * 24000 ≤ s.pos.clock ∧
    (tracked 4 s).trk.table[(0 : Tag)] = some (record 4) ∧ s.cap.state ≠ .running ∧ s.link.lossCount = 0 ∧
    s.link.notices.length + 2 ≤ 48 ∧ ((withSet (setRec .opened 1 none) s).sets.records.map (·.name)).Nodup := by
  decide +kernel

theorem test_settle_notices :
    after (exec .settle { part .stopping with pos.settleFrom := some 0, pos.clock := 4800000 })
      (fun t => (noticesHeld t).map fun n => match n with
        | .plan p => p.number.toNat
        | .state st _ => 100 + st.code.toNat
        | _ => 0) = some [1, 106] := by decide +kernel

theorem test_settle_releasesDoneSets :
    let s : State := { part .stopping with pos.settleFrom := some 0, pos.clock := 4800000 }
    after (exec .settle (withSet (setRec .done 0 none) s)) (fun t => t.sets.records.length) = some 0 ∧
    after (exec .settle (withSet (setRec .done 1 none) s)) (fun t => t.sets.records.map (·.state)) = some [.opened] := by
  decide +kernel

theorem witness_resumePoint :
    (let s := queued [entry 4 .queued] 5 (part .stopping)
     ∀ e ∈ s.ret.entries, breaksJob s e = false) ∧
    (let s := queued [entry 3 .delivered, entry 4 .reprint] 5 (part .stopping)
     s.ret.entries.find? (breaksJob s) = some (entry 4 .reprint) ∧ (entry 4 .reprint).set = none ∧
       atOrAbove s (resumePoint s) 4 = true ∧ atOrAbove s (resumePoint s) 3 = false) ∧
    (let e : Entry := { entry 4 .reprint with set := some 5 }
     let s := queued [e] 5 (tabled .set [visit .pick] (part .stopping))
     s.ret.entries.find? (breaksJob s) = some e ∧
       findSet s { bin := (s.tables.routes[e.route]).bin, set := 5 } = none ∧
       findSet (withSet (setRec .opened 1 none) s) { bin := (s.tables.routes[e.route]).bin, set := 5 } =
         some (setRec .opened 1 none) ∧
       s.ret.entries.find? (memberOf s.tables (setRec .opened 1 none)) = some e) ∧
    isLost (queued [entry 4 .inFlight] 5 (part .stopping)) (record 4) = false ∧
    (diverting .prevOn).tables.routes[(0 : RouteIx)].divert = some { d := 0, w := 1 } ∧
    ({ record 4 with wasteTail := true } : TrackRec).wasteTail = true ∧ (record 4).wasteTail = false := by decide +kernel

/-- A FINISHER cause of set 5. -/
def fault : Cause := finisherCause (part .running) five

/-- The PATH CONTROL frames that wait after a HALT is requested (R86; log 10). -/
theorem test_haltFrames :
    haltFrames [.linkStart, .run, .setVoid five, .speedChange 1] = [.linkStart, .halt, .setVoid five] ∧
    haltFrames [.halt, .setVoid five, .run] = [.halt, .setVoid five] := by decide +kernel

theorem witness_causes :
    (part .running).cap.state ≠ .running ∧ (part .running).link.notices.length + 2 ≤ 48 ∧
    ({ part .stopping with jam.causes := List.replicate 3 fault } : State).jam.causes.length < 4 ∧
    4 ≤ ({ part .stopping with jam.causes := List.replicate 4 fault } : State).jam.causes.length ∧
    fault.kind = .finisher ∧ (∀ d ∈ (part .awaitClear).jam.deferred, d.set ≠ fault.set) ∧
    (part .awaitClear).jam.deferred.length < 8 ∧
    (∃ d ∈ ({ part .awaitClear with jam.deferred := [fault] } : State).jam.deferred, d.set = fault.set) ∧
    (stallCause (part .idle)).kind ≠ .finisher := by decide

theorem witness_sets (st : SetState) (members : Nat) :
    let s := withSet (setRec st members (some 0)) (part .running)
    findSet s five = some (setRec st members (some 0)) ∧ s.sup.state ≠ .starting ∧ s.sup.state ≠ .awaitClear ∧
    s.sup.purge = none ∧ (setRec st members (some 0)).state = st ∧ (setRec st members (some 0)).members = members ∧
    (setRec st members (some 0)).deadline = some 0 ∧ 0 ≤ s.pos.clock ∧ five = { bin := 0, set := 5 } ∧
    (0 : Byte) = byteOf (0 : Bin).val ∧ s.ret.entries.any (isBound s.tables (setRec st members (some 0))) = false :=
  ⟨rfl, by simp [withSet, part], by simp [withSet, part], rfl, rfl, rfl, rfl, Nat.zero_le _, rfl, rfl, rfl⟩

theorem witness_boundSet :
    let e : Entry := { entry 4 .inFlight with set := some 5, mark := some .wasteAtDest }
    let s := queued [e] 5 (tabled .set [visit .pick] (withSet (setRec .voided 1 none) (part .running)))
    findSet s five = some (setRec .voided 1 none) ∧ s.ret.entries.any (isBound s.tables (setRec .voided 1 none)) = true ∧
    findSet (part .running) five = none ∧ ([0] : List Byte).length ≠ 2 := by decide +kernel

theorem witness_finisherReports (st : PartState) :
    frameCompletes .lower 0x44 [0, 5] (part st) = true ∧ frameCompletes .lower 0x45 [0, 5] (part st) = true ∧
    frameCompletes .lower 0x42 [1] (part st) = true ∧ (∀ b : Bin, findSet (part st) { bin := b, set := 5 } = none) ∧
    (part .running).sup.state ≠ .starting ∧ (part .starting).sup.state = .starting := by
  cases st <;> decide +kernel

theorem witness_voidWait :
    let s := withSet (setRec .voided 1 none)
      { part .purging with sup.purge := some { phase := .voidWait, outstanding := [five] } }
    findSet s five = some (setRec .voided 1 none) ∧ s.sup.purge = some { phase := .voidWait, outstanding := [five] } ∧
    five ∈ [five] ∧ (∀ m ∈ [five], m = five) ∧ (∃ m ∈ [five, { bin := 1, set := 5 }], m ≠ five) ∧
    five ∉ ([] : List SetName) := by decide

theorem witness_speed :
    (let s : State := { part .speedChange with fwd.request := some (1, 4), sup.speedWait := some 0 }
     s.sup.state = .speedChange ∧ s.fwd.request = some (1, 4) ∧ (1 : Byte) = byteOf (1 : SpeedClass).val ∧
       (2 : Byte) ≠ byteOf (1 : SpeedClass).val ∧ s.sup.speedWait = some 0 ∧ 0 ≤ s.pos.clock ∧ s.link.lossCount = 0 ∧
       s.cap.state ≠ .running ∧ s.link.notices.length + 2 ≤ 48) ∧
    (part .running).sup.state ≠ .speedChange ∧ (part .speedChange).fwd.request = none ∧
    (part .running).sup.state ≠ .starting := by decide

theorem witness_resetCause (port : MgmtPort) :
    Awaits .upper (req 0x50 []) 0x50 [] (asked .upper 0x50 [] (part .idle)) ∧
    Awaits port (req 0x01 []) 0x01 [] (asked port 0x01 [] (part .idle)) ∧
    repliesHeld port (asked port 0x01 [] (part .idle)) = [] ∧
    (∃ t, exec .powerOnReset (part .idle) = .next t) ∧ ∃ t, exec .pinReset (part .idle) = .next t :=
  ⟨asked_awaits _ _ _ _ rfl (by decide), asked_awaits _ _ _ _ rfl (by decide), by cases port <;> rfl, ⟨_, rfl⟩,
    ⟨_, rfl⟩⟩

theorem witness_limits :
    let l : Limits := { Limits.defaults with earlyBase := 4095, lateBase := 4095, slip := 200 }
    l.earlyBase ≤ 4095 ∧ l.lateBase ≤ 4095 ∧ l.slip ≤ 200 := by decide

/-! ### Witnesses: single operations -/

theorem witness_reports :
    ({ part .idle with link.reports := List.replicate 31 aReport } : State).link.reports.length < 32 ∧
    32 ≤ ({ part .idle with link.reports := List.replicate 32 aReport } : State).link.reports.length := by decide

theorem witness_credit :
    (let r := (queued [entry 4 .queued] 5 (part .idle)).ret
     r.entries = entry 4 .queued :: [] ∧ creditContent r ≠ creditContent .empty) ∧
    (let r := (queued [] 5 (part .idle)).ret
     r.entries = [] ∧ r.expected = some 5) ∧
    (part .idle).ret.entries = [] ∧ (part .idle).ret.expected = none ∧
    creditContent (part .idle).ret = creditContent .empty := by decide +kernel

theorem witness_requests :
    (let s := asked .upper 0x01 [] { part .idle with link.replies := List.replicate 3 aReply }
     s.link.holding = (7 :: 0x01 :: []) :: [] ∧ s.link.replies.length < 4) ∧
    4 ≤ ({ part .idle with link.replies := List.replicate 4 aReply } : State).link.replies.length ∧
    (part .idle).link.holding = [] ∧
    (asked .service 0x01 [] (part .idle)).svc.held = some { payload := 7 :: 0x01 :: [], served := false } ∧
    (part .idle).svc.held = none ∧
    (∃ h, ({ part .idle with svc.held := some { payload := [7, 1], served := true } } : State).svc.held = some h ∧
      h.served = true) := by
  refine ⟨by decide, by decide, rfl, rfl, rfl, _, rfl, rfl⟩

theorem witness_acceptAtWrite :
    (let s := qualifying true 7 (tabled .stack [visit .pick] (part .unconfigured))
     (s.front.stations[(0 : Station)]).pending = some { toCovered := true, p := 7, time := 0 } ∧
       (s.tables.stations[(0 : Station)]).qualify * 1200 ≤ s.pos.clock - 0 ∧
       ({ s with pos.clock := 1199 } : State).pos.clock - 0 < (s.tables.stations[(0 : Station)]).qualify * 1200) ∧
    ((part .unconfigured).front.stations[(0 : Station)]).pending = none := by decide +kernel

theorem witness_outOfRange :
    16 ≤ (16 : Byte).toNat ∧ 2 ≤ (2 : Byte).toNat ∧ 12 ≤ (12 : Byte).toNat ∧ (4 ≤ (4 : Byte).toNat ∧ (4 : Byte) ≠ 0xFF) ∧
    8 ≤ (8 : Byte).toNat ∧ 32 ≤ (32 : Byte).toNat ∧
    ∃ k f, ([0, 0, 0, 0x0C, 0, 0] : List Byte)[3 * k]? = some f ∧ f.extractLsb' 2 2 = 3 := by
  refine ⟨by decide, by decide, by decide, by decide, by decide, by decide, 1, 0x0C, by decide, by decide⟩

theorem test_limits_ends :
    let ends := fun ws : List Word => (limitsArgs (ws.flatMap wordBytes)).map limitsValues
    ends (List.replicate 14 0) = some [0, 0, 0, 0, 0, 0, 0, 50, 1, 1, 1, 1, 10, 1] ∧
    ends (List.replicate 14 0xFFFF) = some [4095, 4095, 200, 4095, 200, 4095, 200, 1000, 255, 255, 255, 255, 255, 7] := by
  decide +kernel

theorem witness_offered :
    (part .idle).cap.state ≠ .running ∧ (capturing (.count 1) 0 (part .idle)).cap.mask.getLsbD EventKind.pick.number = false ∧
    (∀ n, n = 1 ∨ n = 2 →
      let s := capturing (.count n) 0x80 (part .idle)
      s.cap.state = .running ∧ s.cap.mask.getLsbD EventKind.pick.number = true ∧ s.cap.mode = .count n) ∧
    (capturing (.count 2) 0x80 (part .idle)).cap.buffer.length + 1 < 2 ∧
    1 ≤ (capturing (.count 1) 0x80 (part .idle)).cap.buffer.length + 1 ∧
    (∀ n, n = 0 ∨ n = 1 → (capturing (.trigger .pick n) 0x80 (part .idle)).cap.mode = .trigger .pick n) := by
  refine ⟨by decide, by decide, ?_, by decide, by decide, ?_⟩ <;> rintro n (rfl | rfl) <;> decide

theorem test_offer_trigger :
    let offer := fun k : EventKind => offerEvent k 0 none none 0
    let s := capturing (.trigger .pick 1) 0x3FF (part .idle)
    ((offer .on s).cap.post, (offer .pick s).cap.post, (offer .on (offer .pick s)).cap.state,
      (offer .on (offer .pick s)).cap.buffer.length, (offer .on (offer .on (offer .pick s))).svc.notices.length) =
      (none, some 1, .stopped, 2, 1) := by decide +kernel

/-- RUNNING with a sheet tracked, and TRUN at a level. -/
def moving (trun : Bool) : State := tracked 4 { part .running with pos.trunQual := trun, pos.stallTimer := .running 0 }

theorem witness_stallTimer :
    (let s := moving true
     (s.sup.state = .running ∧ s.pos.trunQual = true ∧ ∃ tag : Tag, s.trk.table[tag] ≠ none) ∧
       s.pos.stallTimer ≠ .stopped ∧ ({ s with pos.stallTimer := .stopped } : State).pos.stallTimer = .stopped) ∧
    (moving false).pos.trunQual ≠ true :=
  ⟨⟨⟨rfl, rfl, 0, by decide⟩, by decide, rfl⟩, by decide⟩

theorem witness_posting :
    (let s := arriving 100 [visit .prevOff]
     s.trk.table[(0 : Tag)] = some (record 4) ∧ (followedRoute s.tables (record 4)).visits[1]? = some (visit .prevOff) ∧
       (s.trk.lists[(visit .prevOff).station]).length < 8 ∧
       8 ≤ (({ s with trk.lists := s.trk.lists.set 0 (List.replicate 8 expectation) } : State).trk.lists[
         (visit .prevOff).station]).length) ∧
    (record 4).wasteTail = false ∧
    (let r : TrackRec := { record 4 with wasteTail := true }
     r.wasteTail = true ∧ ((diverting .prevOn).tables.routes[r.route]).divert = some { d := 0, w := 1 } ∧
       followedRoute (diverting .prevOn).tables r = route [{ visit .prevOn with station := 1 }]) ∧ 15 < 16 := by
  decide +kernel

theorem witness_heads :
    (let s := queued [entry 4 .committed, entry 5 .skipped, entry 6 .queued, entry 7 .committed] 8 (part .running)
     s.ret.entries = [entry 4 .committed, entry 5 .skipped] ++ [entry 6 .queued, entry 7 .committed] ∧
       (∀ e ∈ [entry 4 .committed, entry 5 .skipped], e.state = .committed ∨ e.state = .skipped) ∧
       (entry 6 .queued).state ≠ .committed ∧ (entry 6 .queued).state ≠ .skipped ∧
       creditContent ({ s with ret.entries := [entry 6 .queued, entry 7 .committed] } : State).ret ≠ creditContent s.ret) ∧
    (let s := queued [entry 6 .queued] 7 (part .running)
     s.ret.entries = [] ++ [entry 6 .queued] ∧ creditContent ({ s with ret.entries := [entry 6 .queued] } : State).ret =
       creditContent s.ret) := by decide +kernel

/-- The rows that are timed, one CLK period before their time. -/
theorem witness_notYet :
    (let s : State := { part .stopping with pos.settleFrom := some 0, pos.clock := 4799999 }
     s.pos.clock - max 0 s.pos.lastPulse < s.tables.limits.settleTime * 24000) ∧
    (part .stopping).pos.settleFrom = none ∧
    (let s : State := { part .speedChange with fwd.request := some (1, 4), sup.speedWait := some 1 }
     s.sup.speedWait = some 1 ∧ s.pos.clock < 1) ∧
    (let s : State := { part .standby with front.emit := false, pos.clock := 479999 }
     s.pos.clock - s.front.emitFrom < 480000) ∧
    (let s : State := { part .standby with pos.clock := 11999 }
     s.front.emit = true ∧ s.pos.clock - s.front.emitFrom < 12000) ∧
    (let s : State := { part .idle with pos.trunPending := some 0, pos.clock := 23999 }
     s.pos.trunPending = some 0 ∧ s.pos.clock - 0 < 24000) ∧
    (let s := qualifying true 0 (idleWith .stack)
     acceptable 0 true { s with pos.clock := 1199 } = none ∧ acceptable 0 false s = none) ∧
    (let s := coverAt { rawClosed := false, closed := true, pending := some 1 } (part .running)
     s.pos.clock - 1 < 120000) ∧
    (let s := withSet (setRec .voided 1 (some 1)) (part .running)
     ∀ r, findSet s five = some r → r.deadline = none ∨ ∃ due, r.deadline = some due ∧ s.pos.clock < due) ∧
    (let s : State := { inFrame (part .idle) with pos.clock := 24000 }
     s.pos.clock - (receiverOf .lower s).lastChar ≤ 24000) ∧
    (let s : State := { inFrame (part .idle) with pos.clock := 480000 }
     s.pos.clock - (receiverOf .service s).lastChar ≤ 480000) ∧
    (let s : State := { part .idle with pos.clock := 239999 }
     s.pos.clock - s.svc.highAt < 240000 ∧ s.svc.rx.mode ≠ .lineLow) := by
  refine ⟨by decide, rfl, by decide, by decide, by decide, by decide, by decide +kernel, by decide, ?_, by decide,
    by decide, by decide⟩
  intro s r h
  obtain rfl := Option.some.inj h
  exact Or.inr ⟨1, rfl, by decide⟩

theorem witness_otherEnds :
    (∀ f, f = .pathControl .run ∨ f = .pathControl .halt ∨ f = .command aCommand →
      (sending f (part .running)).link.lowerTx = some f ∧ f ≠ .pathControl .linkStart ∧
      (∀ n, f ≠ .pathControl (.setVoid n)) ∧ (∀ c, f ≠ .pathControl (.speedChange c)) ∧ ∀ o, f ≠ .forwardedOrder o) ∧
    (sending (.pathControl .linkStart) (part .running)).link.lowerTx = some (.pathControl .linkStart) ∧
    (LowerFrame.pathControl .linkStart) ≠ .pathControl .halt := by
  refine ⟨?_, rfl, by decide⟩
  rintro f (rfl | rfl | rfl) <;> simp [sending]

theorem witness_unserved :
    servedRow (.wake .upper) = some (MgmtPort.upper, (fun c : Byte => decide (c = 0x31)), exactly 0) ∧
    nextRequest .upper (part .standby) = none ∧
    nextRequest .upper (asked .upper 0x30 [] (part .standby)) = some (req 0x30 []) ∧ (req 0x30 []).code ≠ 0x31 :=
  ⟨rfl, rfl, rfl, by decide⟩

theorem witness_noOccasion :
    (part .idle).link.lowerTx = none ∧ (part .idle).link.upperTx = none ∧ (part .idle).svc.tx = none ∧
    (part .idle).sup.state ≠ .starting ∧ (part .idle).sup.state ≠ .stopping ∧ (part .idle).sup.state ≠ .speedChange ∧
    (part .idle).sup.state ≠ .standby ∧ stallDue (part .idle) = false ∧
    stallDue { part .running with pos.stallTimer := .waiting } = false ∧
    memoryWords read.load.memory read.load.reading.count ≠ imageWords [] read.load.reading.count ∧
    (part .idle).pos.trunPending = none ∧ ((part .idle).front.stations[(0 : Station)]).pending = none ∧
    ((part .idle).front.covers[(0 : Cover)]).pending = none ∧ findSet (part .idle) five = none := by decide +kernel

end Sys2Proof.Tests
end

