-- ==== Sys2Proof/Proofs/TableWriteAdmission.lean ====
section
/-! SUPPORT. Whether a table write is admitted (R9): what `tablesRefusal` answers in each part state, what every table write
comes to in terms of it, and the statement about the five write rows. -/

namespace Sys2Proof.Machine

/-! ### The answer by part state -/

theorem tablesRefusal_eq_busy_iff (s : State) :
    tablesRefusal s = some .busy ↔
      s.sup.state = .running ∨ s.sup.state = .speedChange ∨ s.sup.state = .stopping ∨ s.sup.state = .awaitClear ∨
      s.sup.state = .purging ∨ s.sup.state = .held ∨
      ((s.sup.state = .idle ∨ s.sup.state = .standby) ∧ (s.ret.entries ≠ [] ∨ s.sets.records ≠ [])) := by
  cases h : s.sup.state <;> simp [tablesRefusal, h, Decidable.imp_iff_not_or]

theorem tablesRefusal_eq_none_iff (s : State) :
    tablesRefusal s = none ↔
      s.sup.state = .unconfigured ∨
      ((s.sup.state = .idle ∨ s.sup.state = .standby) ∧ s.ret.entries = [] ∧ s.sets.records = []) := by
  cases h : s.sup.state <;> simp [tablesRefusal, h]

theorem tablesRefusal_ne_done (s : State) : tablesRefusal s ≠ some .done := by
  cases h : s.sup.state <;> simp [tablesRefusal, h]

@[simp] theorem tablesRefusal_takeRequest (port : MgmtPort) (s : State) :
    tablesRefusal (takeRequest port s) = tablesRefusal s := by
  simp [tablesRefusal]

/-! ### What a table write comes to -/

/-- A served write agrees with R9: refused, it answers the refusal and changes nothing; admitted, it is done and leaves the part in
UNCONFIGURED with unchecked tables, or it is out of range and changes nothing (R10, R11). -/
structure FollowsAdmission (u : State) (r : Served) : Prop where
  refused : ∀ status, tablesRefusal u = some status → r = { state := u, status := status }
  admitted : tablesRefusal u = none →
    (r.status = .done ∧ r.state.sup.state = .unconfigured ∧ r.state.tables.checked = false) ∨
    (r.status = .range ∧ r.state = u)

@[simp] theorem afterWrite_checked (s : State) : (afterWrite s).tables.checked = false := by
  simp only [afterWrite]
  split <;> simp

theorem afterWrite_state {s : State}
    (h : s.sup.state = .unconfigured ∨ s.sup.state = .idle ∨ s.sup.state = .standby) :
    (afterWrite s).sup.state = .unconfigured := by
  rcases h with h | h | h <;> simp [afterWrite, h]

theorem writeTable_refused {u : State} {status : Status} (record : Option (State × List Byte))
    (h : tablesRefusal u = some status) : writeTable record u = { state := u, status := status } := by
  simp [writeTable, h]

theorem writeTable_outOfRange {u : State} (h : tablesRefusal u = none) :
    writeTable none u = { state := u, status := .range } := by
  simp [writeTable, h]

theorem writeTable_stored {u : State} (x : State × List Byte) (h : tablesRefusal u = none) :
    writeTable (some x) u = { state := afterWrite x.1, status := .done, results := x.2 } := by
  simp [writeTable, h]

/-- A table write follows R9, since storing a record leaves the part state for `afterWrite` to change. -/
theorem writeTable_followsAdmission {u : State} {record : Option (State × List Byte)}
    (hstate : ∀ x ∈ record, x.1.sup.state = u.sup.state) : FollowsAdmission u (writeTable record u) where
  refused _ h := writeTable_refused record h
  admitted h := by
    cases record with
    | none => simp [writeTable_outOfRange h]
    | some x =>
      have hu := (tablesRefusal_eq_none_iff u).mp h
      have hx : x.1.sup.state = .unconfigured ∨ x.1.sup.state = .idle ∨ x.1.sup.state = .standby := by
        rw [hstate x rfl]
        exact hu.imp_right And.left
      simp [writeTable_stored x h, afterWrite_state hx]

/-- A write whose record is parsed from its arguments and then stored follows R9. -/
theorem writeTable_map_followsAdmission {α : Type} {u : State} {parsed : Option α} {store : α → State × List Byte}
    (hstate : ∀ a, (store a).1.sup.state = u.sup.state) : FollowsAdmission u (writeTable (parsed.map store) u) := by
  apply writeTable_followsAdmission
  intro x hx
  obtain ⟨a, -, rfl⟩ := Option.map_eq_some_iff.mp hx
  exact hstate a

/-- The acceptance at the write comes after a write that was done, and keeps the part state and the tables (R12). -/
theorem writeStation_followsAdmission (args : List Byte) (u : State) : FollowsAdmission u (writeStation args u) := by
  rcases hargs : stationArgs args with _ | ⟨i, r⟩
  · simpa only [writeStation, hargs] using writeTable_followsAdmission (u := u) (record := none) (by simp)
  · have hw : FollowsAdmission u (writeTable (some (storeStation i r u, stationBytes i r)) u) :=
      writeTable_followsAdmission (by simp)
    simp only [writeStation, hargs]
    split
    next hdone =>
      refine ⟨fun status h => ?_, fun h => .inl ?_⟩
      · rw [hw.refused status h] at hdone
        exact absurd (hdone ▸ h) (tablesRefusal_ne_done u)
      · simpa [hdone] using hw.admitted h
    next => exact hw

theorem writeZone_followsAdmission (args : List Byte) (u : State) : FollowsAdmission u (writeZone args u) :=
  writeTable_map_followsAdmission fun _ => rfl

theorem writeBin_followsAdmission (args : List Byte) (u : State) : FollowsAdmission u (writeBin args u) :=
  writeTable_map_followsAdmission fun _ => rfl

theorem writeRoute_followsAdmission (args : List Byte) (u : State) : FollowsAdmission u (writeRoute args u) :=
  writeTable_map_followsAdmission fun _ => rfl

theorem writeLimits_followsAdmission (args : List Byte) (u : State) : FollowsAdmission u (writeLimits args u) :=
  writeTable_map_followsAdmission fun _ => rfl

/-! ### The write rows -/

/-- Each of the five write rows is the service of a request by an act that follows R9. -/
theorem tableWrite_serves {c : Instr} {port : MgmtPort} {isCode : Byte → Bool} {lengthOk : List Byte → Bool}
    (hc : c = .writeStation port ∨ c = .writeZone port ∨ c = .writeBin port ∨ c = .writeRoute port ∨
      c = .writeLimits port)
    (hrow : servedRow c = some (port, isCode, lengthOk)) :
    ∃ act, (∀ s, exec c s = serve port isCode lengthOk act s) ∧ ∀ args u, FollowsAdmission u (act args u) := by
  rcases hc with rfl | rfl | rfl | rfl | rfl <;> cases hrow
  · exact ⟨writeStation, fun _ => rfl, writeStation_followsAdmission⟩
  · exact ⟨writeZone, fun _ => rfl, writeZone_followsAdmission⟩
  · exact ⟨writeBin, fun _ => rfl, writeBin_followsAdmission⟩
  · exact ⟨writeRoute, fun _ => rfl, writeRoute_followsAdmission⟩
  · exact ⟨writeLimits, fun _ => rfl, writeLimits_followsAdmission⟩

/-- In STARTING every request is answered NOT READY, whatever the command (R178). -/
theorem serve_starting {port : MgmtPort} {q : Request} {s : State} {isCode : Byte → Bool} {lengthOk : List Byte → Bool}
    {act : List Byte → State → Served} (hq : nextRequest port s = some q) (hcode : isCode q.code = true)
    (hst : s.sup.state = .starting) :
    serve port isCode lengthOk act s = .next (answered port q .notReady [] (takeRequest port s)) := by
  simp [serve, hq, hcode, settle, hst, done, answered]

/-- Settles O32: STARTING is answered before the act is reached; in every other state the act follows `tablesRefusal`. -/
theorem tableWritesAreAdmittedByState : Obligations.TableWritesAreAdmittedByState := by
  intro c port isCode lengthOk q s hc hrow hq hcode hlen
  obtain ⟨act, hexec, hact⟩ := tableWrite_serves hc hrow
  have hfollows := hact q.args (takeRequest port s)
  have hserve (hst : s.sup.state ≠ .starting) := serve_eq (act := act) ⟨hq, rfl, rfl, hst⟩ hcode hlen
  rw [hexec]
  refine ⟨serve_starting hq hcode, fun hbusy => ?_, fun hfree => ?_⟩
  · have hr := hfollows.refused .busy (by simpa using (tablesRefusal_eq_busy_iff s).mpr hbusy)
    rw [hserve (fun hst => by simp [hst] at hbusy), hr]
  · have hr := hfollows.admitted (by simpa using (tablesRefusal_eq_none_iff s).mpr hfree)
    exact ⟨_, _, _, hserve (fun hst => by simp [hst] at hfree), hr⟩

end Sys2Proof.Machine
end

