-- ==== Sys2Proof/Proofs/PathPosition.lean ====
section
/-! SUPPORT. The path position P (R19): a pulse steps it, a power-on or pin reset sets it to 0, and every other command and a CLK
period keep it. -/

namespace Sys2Proof.Machine

/-! ### How an outcome keeps P -/

/-- The outcome, where it is a next state, has P as it stands in `s`. -/
def KeepsPosition (s : State) (o : Host.Outcome State Fault Refusal) : Prop := Keeps (fun t => t.pos.p = s.pos.p) o

/-- P passes through the end of a command, the taking of a request and the making of its reply. -/
theorem portStable_position (p : Pos) : PortStable fun t => t.pos.p = p where
  finish := by simp
  takeRequest := by simp
  putReply := by simp

theorem keepsPosition_unchanged (s : State) : KeepsPosition s (.next s) := keeps_next rfl

theorem keepsPosition_done {s t : State} (h : t.pos.p = s.pos.p) : KeepsPosition s (done t) :=
  keeps_done (portStable_position _) h

theorem keepsPosition_doneIf {b : Bool} {s t : State} (h : t.pos.p = s.pos.p) : KeepsPosition s (doneIf b s t) :=
  keeps_doneIf (portStable_position _) rfl fun _ => h

theorem keepsPosition_serve {port : MgmtPort} {isCode : Byte → Bool} {lengthOk : List Byte → Bool}
    {act : List Byte → State → Served} {s : State} (h : ∀ args u, (act args u).state.pos.p = u.pos.p) :
    KeepsPosition s (serve port isCode lengthOk act s) :=
  keeps_serve (portStable_position _) rfl fun args u hu _ => (h args u).trans hu

theorem keepsPosition_takeFrame {port : Port} {kind : Byte} {payload : List Byte} {act : State → State} {s : State}
    (h : ∀ u, (act u).pos.p = u.pos.p) : KeepsPosition s (takeFrame port kind payload act s) :=
  keeps_takeFrame (portStable_position _) rfl ((h _).trans (by simp))

theorem keepsPosition_takeReport {kind : Byte} {payload : List Byte} {act : State → State} {s : State}
    (h : ∀ u, (act u).pos.p = u.pos.p) : KeepsPosition s (takeReport kind payload act s) :=
  keeps_takeReport (portStable_position _) rfl ((h _).trans (by simp))

theorem keepsPosition_frameDiscard (port : Port) (chars : List RxChar) (s : State) :
    KeepsPosition s (execFrameDiscard port chars s) :=
  keeps_frameDiscard (portStable_position _) rfl (by simp) (by simp) (by simp)

/-! ### What the effects of the commands leave of P -/

theorem confirmSet_position {r : SetRec} {s t : State} (h : confirmSet r s = some t) : t.pos.p = s.pos.p := by
  obtain ⟨-, rfl⟩ := by simpa only [confirmSet, Option.ite_none_right_eq_some, Option.some.injEq] using h
  simp

theorem clearSet_position {r : SetRec} {s t : State} (h : clearSet r s = some t) : t.pos.p = s.pos.p := by
  obtain ⟨-, rfl⟩ := by simpa only [clearSet, Option.ite_none_right_eq_some, Option.some.injEq] using h
  simp

/-- A finisher report keeps P where its act on a record does; what else it can come to is a notice. -/
theorem keepsPosition_finisherReport {kind : Byte} {payload : List Byte} {act : SetRec → State → Option State}
    {s : State} (h : ∀ r u t, act r u = some t → t.pos.p = u.pos.p) :
    KeepsPosition s (takeReport kind payload (readFinisherReport kind payload act) s) :=
  keepsPosition_takeReport fun u =>
    finisherReport_cases (I := fun t => t.pos.p = u.pos.p) kind payload act u rfl (by simp) (by simp) fun r => h r u

theorem keepsPosition_acceptEdge (st : Station) (covered : Bool) (s : State) :
    KeepsPosition s (acceptEdge st covered s) := by
  simp only [acceptEdge]
  split
  · exact keepsPosition_done (by simp)
  · exact keepsPosition_unchanged s

theorem takeDueExpiries_fold_position (sts : List Station) (s : State) :
    (sts.foldl (fun s st => takeDueExpiries st s) s).pos.p = s.pos.p := by
  induction sts generalizing s with
  | nil => rfl
  | cons st sts ih => simp [ih]

theorem wholeReset_position (cause : ResetCause) (s : State) : (wholeReset cause s).pos.p = 0 := by
  simp only [wholeReset]
  split <;> simp [PosCounter.initial]

theorem tick_position (s : State) : (tick s).pos.p = s.pos.p := rfl

theorem period_position (s : State) : (period s).pos.p = s.pos.p := by
  simp [period, tick_position]

/-! ### Every command -/

theorem exec_encoderPulse_position (s : State) : ∃ t, exec .encoderPulse s = .next t ∧ t.pos.p = s.pos.p + 1 :=
  ⟨_, rfl, by simp⟩

/-- Every command but a pulse and the two whole resets keeps P. The arms are grouped by the shared operation that each of them
goes through. -/
theorem exec_keepsPosition {c : Instr} (hpulse : c ≠ .encoderPulse) (hpower : c ≠ .powerOnReset) (hpin : c ≠ .pinReset)
    (s : State) : KeepsPosition s (exec c s) := by
  cases c with
  | encoderPulse | powerOnReset | pinReset => contradiction
  -- an effect on its occasion
  | autoloadEnd _ | linkStartSent | haltSent | upperFrameSent | serviceFrameSent | gap _ | serviceReset | trunQualified
  | emitPulse | coverClosed _ | lateExpiry _ | stuckExpiry _ | stall | settle | setConfirmExpiry _ _
  | serviceLineReturnsHigh =>
    apply keepsPosition_doneIf
    simp
  | standbySample order => exact keepsPosition_doneIf (by simp [takeDueExpiries_fold_position])
  | coverOpen cover => exact keepsPosition_doneIf (by split <;> simp)
  -- an effect of the frame being sent, or of the speed request held
  | setVoidSent | speedChangeSent =>
    simp only [exec, execSetVoidSent, execSpeedChangeSent]
    split
    · exact keepsPosition_done (by simp)
    · exact keepsPosition_unchanged s
  | forwardedOrderSent =>
    simp only [exec, execForwardedOrderSent]
    split
    · exact keepsPosition_done (by split <;> simp)
    · exact keepsPosition_unchanged s
  | lowerFrameSent | speedWaitExpiry =>
    simp only [exec, execLowerFrameSent, execSpeedWaitExpiry]
    split
    · exact keepsPosition_doneIf (by simp)
    · exact keepsPosition_unchanged s
  -- an effect without a condition
  | trunRawChange | coverRawChange _ =>
    apply keepsPosition_done
    simp
  | stationRawChange st => exact keepsPosition_done (by split <;> simp)
  -- an edge that is accepted
  | onEdge st => exact keepsPosition_acceptEdge st true s
  | offEdge st => exact keepsPosition_acceptEdge st false s
  -- a frame that is received
  | frameDiscard port chars => exact keepsPosition_frameDiscard port chars s
  | engineCommand _ _ | barrierCommand _ | serviceManageDiscard _ _ =>
    apply keepsPosition_takeFrame
    simp
  | manage port payload => cases port <;> exact keepsPosition_takeFrame (by simp)
  | order _ | engineCredit _ =>
    simp only [exec, execOrder, execEngineCredit]
    split <;> exact keepsPosition_takeFrame (by simp)
  -- a frame of the engine that is passed up
  | pick _ | speedReady _ =>
    refine keepsPosition_takeReport fun u => ?_
    split
    · split <;> simp
    · simp
  | setDone payload => exact keepsPosition_finisherReport fun _ _ _ => confirmSet_position
  | setFault payload => exact keepsPosition_finisherReport (by simp)
  | setCleared payload => exact keepsPosition_finisherReport fun _ _ _ => clearSet_position
  | engineReport kind payload => exact keepsPosition_takeReport fun _ => rfl
  -- a request of a management port that is served
  | unknownCommand _ | identify _ | readState _ | writeStation _ | writeZone _ | writeBin _ | writeRoute _ | writeLimits _
  | readTable _ | checkTables _ | readOrder _ | readPlan _ | resume _ | skipOrder _ | cancelJob _ | standby _ | wake _
  | claimCapture _ | releaseCapture _ | armCapture _ | readCapture _ | resetPart _ =>
    simp only [exec, execUnknownCommand, execIdentify, execReadState, execWriteStation, execWriteZone, execWriteBin,
      execWriteRoute, execWriteLimits, execReadTable, execCheckTables, execReadOrder, execReadPlan, execResume,
      execSkipOrder, execCancelJob, execStandby, execWake, execClaimCapture, execReleaseCapture, execArmCapture,
      execReadCapture, execResetPart]
    apply keepsPosition_serve
    simp

/-- Settles O42: P of a next state, read off for a pulse, for the two whole resets, for every other command and for a CLK period;
adding 1 to the highest position is 0 in 32 bits. -/
theorem pulsesStepThePathPosition : Obligations.PulsesStepThePathPosition := by
  refine ⟨fun s => ?_, fun s t h => ?_, fun c s t hpulse hpower hpin h => ?_, fun s t hidle h => ?_⟩
  · obtain ⟨t, hexec, hp⟩ := exec_encoderPulse_position s
    exact ⟨t, hexec, hp, fun hmax => by simp [hp, hmax]⟩
  · rcases h with h | h <;> cases h <;> simp [wholeReset_position]
  · exact exec_keepsPosition hpulse hpower hpin s t h
  · obtain rfl : period s = t := by simpa [step, hidle] using h
    exact period_position s

end Sys2Proof.Machine
end

