-- ==== Sys2Proof/Proofs/PostedWindow.lean ====
section
/-! SUPPORT. The window of a posted visit (R63): positions ahead of and behind a position in modular order (R20), the greatest
slip term, and the greatest span of a window. -/

namespace Sys2Proof.Machine

/-! ### Positions at a distance, in modular order -/

/-- Below 2^31 steps the modular difference gives the true distance (section 4.4.1). -/
theorem posDiff_ahead (a : Pos) {n : Nat} (h : n < 2 ^ 31) : posDiff (ahead a n) a = n := by
  have hsub : ahead a n - a = BitVec.ofNat 32 n := by
    rw [ahead, BitVec.add_comm, BitVec.add_sub_cancel]
  rw [posDiff, hsub, BitVec.toInt_ofNat']
  exact Int.bmod_eq_of_le (by omega) (by omega)

theorem ahead_behind (a : Pos) (n : Nat) : ahead (behind a n) n = a := by
  rw [ahead, behind, BitVec.sub_add_cancel]

theorem atOrBeyond_ahead (a : Pos) {n : Nat} (h : n < 2 ^ 31) : atOrBeyond (ahead a n) a = true := by
  rw [atOrBeyond, posDiff_ahead a h]
  exact decide_eq_true (Int.natCast_nonneg n)

theorem atOrBeyond_behind (a : Pos) {n : Nat} (h : n < 2 ^ 31) : atOrBeyond a (behind a n) = true := by
  have hahead := atOrBeyond_ahead (behind a n) h
  rwa [ahead_behind] at hahead

/-- From `n` steps behind a position to `m` steps ahead of it there are `m + n` steps, across the wrap too. -/
theorem ahead_sub_behind (a : Pos) (m n : Nat) : ahead a m - behind a n = BitVec.ofNat 32 (m + n) := by
  simp only [ahead, behind, BitVec.ofNat_add]
  bv_omega

/-! ### The half-widths of a window -/

/-- The greatest slip term, that of the greatest distance at the greatest rate (R63). -/
theorem slipTerm_le {l : Limits} (h : l.slip ≤ 200) (distance : Word) : slipTerm l distance ≤ 13107 := by
  have hdistance : distance.toNat ≤ 65535 := by omega
  have hproduct : distance.toNat * l.slip ≤ 65535 * 200 := Nat.mul_le_mul hdistance h
  simp only [slipTerm, perMille]
  omega

/-- The greatest half-width on either side, for a base in its range of R7 (R63). -/
theorem halfWidth_le {l : Limits} {base : Nat} (hbase : base ≤ 4095) (hslip : l.slip ≤ 200) (distance : Word) :
    base + slipTerm l distance ≤ 17202 := by
  have hterm := slipTerm_le hslip distance
  omega

/-! ### The window -/

theorem atOrBeyond_earlyBound {l : Limits} (hearly : l.earlyBase ≤ 4095) (hslip : l.slip ≤ 200) (a : Pos) (distance : Word) :
    atOrBeyond (expectedOn a distance) (earlyBound l a distance) = true :=
  atOrBeyond_behind _ (by have := halfWidth_le hearly hslip distance; omega)

theorem lateBound_atOrBeyond {l : Limits} (hlate : l.lateBase ≤ 4095) (hslip : l.slip ≤ 200) (a : Pos) (distance : Word) :
    atOrBeyond (lateBound l a distance) (expectedOn a distance) = true :=
  atOrBeyond_ahead _ (by have := halfWidth_le hlate hslip distance; omega)

/-- The span of a window is at most its two greatest half-widths. -/
theorem windowSpan_le {l : Limits} (hearly : l.earlyBase ≤ 4095) (hlate : l.lateBase ≤ 4095) (hslip : l.slip ≤ 200)
    (a : Pos) (distance : Word) : (lateBound l a distance - earlyBound l a distance).toNat ≤ 34404 := by
  have hbefore := halfWidth_le hearly hslip distance
  have hafter := halfWidth_le hlate hslip distance
  calc (lateBound l a distance - earlyBound l a distance).toNat
      = (BitVec.ofNat 32 ((l.lateBase + slipTerm l distance) + (l.earlyBase + slipTerm l distance))).toNat := by
        rw [lateBound, earlyBound, ahead_sub_behind]
    _ ≤ (l.lateBase + slipTerm l distance) + (l.earlyBase + slipTerm l distance) := by
        rw [BitVec.toNat_ofNat]; exact Nat.mod_le _ _
    _ ≤ 34404 := by omega

/-- Settles O59: the three positions are those of R63 by definition, and the bounds of the half-widths give their order and the
span. -/
theorem windowsFollowTheLimits : Obligations.WindowsFollowTheLimits := by
  intro tag k a v l x slip
  refine ⟨rfl, rfl, rfl, fun hearly hlate hslip => ⟨?_, ?_, ?_, ?_⟩⟩
  · exact slipTerm_le hslip v.distance
  · exact atOrBeyond_earlyBound hearly hslip a v.distance
  · exact lateBound_atOrBeyond hlate hslip a v.distance
  · exact windowSpan_le hearly hlate hslip a v.distance

end Sys2Proof.Machine
end

