-- ==== Sys2Proof/Proofs/Commands.lean ====
section
/-! SUPPORT. The induction over the commands, once: every command answers a next state, and a property of the state that each
effect of a command keeps is kept by every step. -/

namespace Sys2Proof.Machine

/-! ### Every command answers -/

/-- The outcome is a next state. -/
def Answers (o : Host.Outcome State Fault Refusal) : Prop := ∃ t, o = .next t

@[simp] theorem answers_next (s : State) : Answers (.next s) := ⟨s, rfl⟩

@[simp] theorem answers_done (s : State) : Answers (done s) := ⟨_, rfl⟩

@[simp] theorem answers_doneIf (b : Bool) (s t : State) : Answers (doneIf b s t) := by
  cases b <;> simp [Answers]

@[simp] theorem answers_serve (port : MgmtPort) (isCode : Byte → Bool) (lengthOk : List Byte → Bool)
    (act : List Byte → State → Served) (s : State) : Answers (serve port isCode lengthOk act s) := by
  simp only [serve]
  split
  · exact answers_next s
  · split
    · exact answers_done _
    · exact answers_next s

@[simp] theorem answers_takeFrame (port : Port) (kind : Byte) (payload : List Byte) (act : State → State) (s : State) :
    Answers (takeFrame port kind payload act s) := answers_doneIf _ _ _

@[simp] theorem answers_takeReport (kind : Byte) (payload : List Byte) (act : State → State) (s : State) :
    Answers (takeReport kind payload act s) := answers_doneIf _ _ _

theorem answers_acceptEdge (st : Station) (covered : Bool) (s : State) : Answers (acceptEdge st covered s) := by
  simp only [acceptEdge]
  split
  · exact answers_done _
  · exact answers_next s

/-- What a row that serves a request does with it, where the row serves one. -/
def actOf : Instr → List Byte → State → Served
  | .unknownCommand _ => fun _ s => { state := s, status := .unknown }
  | .identify _ => fun _ s => { state := s, status := .done, results := identifyBytes s }
  | .readState _ => fun _ s => { state := s, status := .done, results := stateBytes s }
  | .writeStation _ => writeStation
  | .writeZone _ => writeZone
  | .writeBin _ => writeBin
  | .writeRoute _ => writeRoute
  | .writeLimits _ => writeLimits
  | .readTable _ => readTable
  | .checkTables _ => fun _ s => checkTables s
  | .readOrder _ => fun args s => readOrder (wordArg args) s
  | .readPlan _ => fun args s => readPlan (args.getD 0 0) (args.getD 1 0).toNat s
  | .resume _ => fun args s => resume (args.getD 0 0) s
  | .skipOrder _ => fun args s =>
    let r := skipOrder (wordArg args) (wakeToIdle s); { state := r.1, status := r.2 }
  | .cancelJob _ => fun args s =>
    let r := cancelJob (wordArg args) (wakeToIdle s); { state := r.1, status := .done, results := [byteOf r.2] }
  | .standby _ => fun _ s => goStandby s
  | .wake _ => fun _ s => goWake s
  | .claimCapture port => fun args s => claimCapture port (args.getD 0 0) s
  | .releaseCapture port => fun _ s => releaseCapture port s
  | .armCapture port => armCapture port
  | .readCapture port => fun args s => readCapture port (wordArg args) s
  | .resetPart port => fun _ s => resetPart port s
  | _ => fun _ s => { state := s, status := .done }

/-- A row that serves requests is the service of the next request by its act. -/
theorem exec_eq_serve {c : Instr} {port : MgmtPort} {isCode : Byte → Bool} {lengthOk : List Byte → Bool}
    (h : servedRow c = some (port, isCode, lengthOk)) (s : State) :
    exec c s = serve port isCode lengthOk (actOf c) s := by
  cases c <;> cases h <;> rfl

/-- Every command answers a next state: an effect without a condition, an effect on its occasion, a frame, or a request. -/
theorem exec_answers (c : Instr) (s : State) : Answers (exec c s) := by
  rcases hrow : servedRow c with _ | ⟨port, isCode, lengthOk⟩
  case some => exact exec_eq_serve hrow s ▸ answers_serve _ _ _ _ _
  cases c with
  | powerOnReset | pinReset | encoderPulse | trunRawChange | stationRawChange _ | coverRawChange _ => exact answers_done _
  | autoloadEnd _ | linkStartSent | haltSent | upperFrameSent | serviceFrameSent | gap _ | serviceReset | trunQualified
  | emitPulse | coverClosed _ | lateExpiry _ | stuckExpiry _ | stall | settle | setConfirmExpiry _ _
  | serviceLineReturnsHigh | standbySample _ | coverOpen _ => exact answers_doneIf _ _ _
  | setVoidSent | speedChangeSent | forwardedOrderSent =>
    simp only [exec, execSetVoidSent, execSpeedChangeSent, execForwardedOrderSent]
    split
    · exact answers_done _
    · exact answers_next s
  | lowerFrameSent | speedWaitExpiry =>
    simp only [exec, execLowerFrameSent, execSpeedWaitExpiry]
    split
    · exact answers_doneIf _ _ _
    · exact answers_next s
  | onEdge st => exact answers_acceptEdge st true s
  | offEdge st => exact answers_acceptEdge st false s
  | frameDiscard port chars =>
    simp only [exec, execFrameDiscard]
    split
    · exact answers_done _
    · exact answers_next s
  | manage port _ => cases port <;> exact answers_takeFrame _ _ _ _ _
  | order _ | engineCommand _ _ | barrierCommand _ | serviceManageDiscard _ _ | engineCredit _ =>
    exact answers_takeFrame _ _ _ _ _
  | pick _ | speedReady _ | setDone _ | setFault _ | setCleared _ | engineReport _ _ => exact answers_takeReport _ _ _ _
  | _ => cases hrow

/-! ### What the effects of the commands keep -/

/-- What a break of 10 ms leaves (R176, R193): the effect of SERVICE_RESET. -/
def breakTaken (s : State) : State :=
  { s with svc := { rx := { mode := .lineLow, bytes := [], lastChar := s.pos.clock }, highAt := s.svc.highAt, held := none,
                    claim := false, reply := none, notices := [], tx := s.svc.tx }
           cap := captureAfterServiceReset s.cap }

theorem execServiceReset_eq (s : State) : execServiceReset s = doneIf (breakDue s) s (breakTaken s) := rfl

/-- The resets keep a property of the state: those of the whole part, and the link reset. -/
structure ResetsKeep (I : State → Prop) : Prop where
  wholeReset : ∀ cause s, I s → I (wholeReset cause s)
  linkReset : ∀ s, I s → I (linkReset s)

/-- The commands that reset the part or its job state (R152, R156). -/
def isReset (c : Instr) : Prop := c = .powerOnReset ∨ c = .pinReset ∨ c = .resetPart .upper

/-- The acts of the requests keep a property of the state, one field for each act that can change the state, but for the
link reset. -/
structure ActsKeep (I : State → Prop) : Prop where
  writeStation : ∀ args s, I s → I (writeStation args s).state
  writeZone : ∀ args s, I s → I (writeZone args s).state
  writeBin : ∀ args s, I s → I (writeBin args s).state
  writeRoute : ∀ args s, I s → I (writeRoute args s).state
  writeLimits : ∀ args s, I s → I (writeLimits args s).state
  checkTables : ∀ s, I s → I (checkTables s).state
  resume : ∀ number s, I s → I (resume number s).state
  skipOrder : ∀ n s, I s → I (skipOrder n (wakeToIdle s)).1
  cancelJob : ∀ job s, I s → I (cancelJob job (wakeToIdle s)).1
  goStandby : ∀ s, I s → I (goStandby s).state
  goWake : ∀ s, I s → I (goWake s).state
  claimCapture : ∀ port force s, I s → I (claimCapture port force s).state
  releaseCapture : ∀ port s, I s → I (releaseCapture port s).state
  armCapture : ∀ port args s, I s → I (armCapture port args s).state

/-- The effects of the frames, the pins and the timers keep a property of the state, one field for each effect. -/
structure EffectsKeep (I : State → Prop) : Prop where
  finish : ∀ s, I s → I (finish s)
  endAutoload : ∀ image s, I s → I (endAutoload image s)
  -- frames that have been sent whole
  lowerIdle : ∀ s, I s → I (lowerIdle s)
  upperIdle : ∀ s, I s → I { s with link.upperTx := none }
  serviceIdle : ∀ s, I s → I { s with svc.tx := none }
  linkStarted : ∀ s, I s → I { s with link.linkStarted := true }
  makeCredit : ∀ s, I s → I (makeCredit s)
  releaseWindowHold : ∀ s, I s → I (releaseWindowHold s)
  startVoidTimer : ∀ n s, I s → I (startVoidTimer n s)
  startSpeedWait : ∀ s, I s → I (startSpeedWait s)
  firstSent : ∀ n s, I s → I (updateEntry n (fun e => { e with firstSent := true }) s)
  -- characters and frames that arrive
  setReceiver : ∀ port r s, I s → I (setReceiver port r s)
  lineHigh : ∀ port s, I s → I (lineHigh port s)
  discardFrame : ∀ port reason kind s, I s → I (discardFrame port reason kind s)
  makeLinkError : ∀ port reason third s, I s → I (makeLinkError port reason third s)
  breakTaken : ∀ s, I s → I (breakTaken s)
  joinCommands : ∀ c s, I s → I (joinCommands c s)
  holdUpper : ∀ payload s, I s → I (holdUpper payload s)
  holdService : ∀ payload s, I s → I (holdService payload s)
  forwardUp : ∀ kind payload s, I s → I (forwardUp kind payload s)
  takeOrder : ∀ o s, I s → I (takeOrder o s)
  takeCredit : ∀ limit s, I s → I (takeCredit limit s)
  takePick : ∀ n s, I s → I (takePick n s)
  takeSpeedReady : ∀ cls s, I s → I (takeSpeedReady cls s)
  unexpectedFinisher : ∀ kind bin set s, I s → I (unexpectedFinisher kind bin set s)
  confirmSet : ∀ r s t, I s → confirmSet r s = some t → I t
  faultSet : ∀ n s, I s → I (faultSet n s)
  clearSet : ∀ r s t, I s → clearSet r s = some t → I t
  -- pins
  pulse : ∀ s, I s → I (syncStall true { s with pos.p := s.pos.p + 1, pos.lastPulse := s.pos.clock })
  trunRaw : ∀ raw pending s, I s → I { s with pos.trunRaw := raw, pos.trunPending := pending }
  trunQual : ∀ qual s, I s → I (syncStall true { s with pos.trunQual := qual, pos.trunPending := none })
  stationRaw : ∀ (st : Station) raw s, I s → I (setSense st { s.front.stations[st] with raw := raw } s)
  followRaw : ∀ st s, continuous s st = true → I s → I (followRaw st s)
  acceptedEdge : ∀ st covered stamp s, continuous s st = true → I s →
    I (handEdge st covered stamp (acceptLevel st covered stamp 0 s))
  emitPulse : ∀ s, s.sup.state = .standby → I s → I { s with front.emit := true, front.emitFrom := s.pos.clock }
  sampleAll : ∀ s, s.sup.state = .standby → I s → I (sampleAll s)
  takeDueExpiries : ∀ st s, I s → I (takeDueExpiries st s)
  handSample : ∀ s x, I s → I (handSample s x)
  coverSensed : ∀ c x s, I s → I (setCover c x s)
  coverSettled : ∀ c s, I s → I (coverSettled c s)
  takeCause : ∀ c s, I s → I (takeCause c s)
  -- expiries and timers
  takeLate : ∀ st s, I s → I (takeLate st s)
  takeStuck : ∀ st s, I s → I (takeStuck st s)
  stallTaken : ∀ s, I s → I { s with pos.stallTimer := s.pos.stallTimer.afterEvent, reached.stall := false }
  snapshot : ∀ s, I s → I (snapshot s)
  speedHeld : ∀ n s, I s → I (enterHeld .speed n (dropSpeedChange s))

variable {I : State → Prop}

theorem EffectsKeep.received (hI : EffectsKeep I) {s : State} (port : Port) (h : I s) : I (received port s) :=
  hI.setReceiver _ _ _ (hI.lineHigh _ _ h)

theorem EffectsKeep.passUp (hI : EffectsKeep I) {s : State} (kind : Byte) (payload : List Byte) (h : I s) :
    I (passUp kind payload s) :=
  hI.forwardUp _ _ _ (hI.received _ h)

theorem EffectsKeep.discardGap (hI : EffectsKeep I) {s : State} (port : Port) (h : I s) : I (discardGap port s) :=
  hI.discardFrame _ _ _ _ (hI.setReceiver _ _ _ h)

theorem EffectsKeep.acceptCover (hI : EffectsKeep I) {s : State} (c : Cover) (h : I s) : I (acceptCover c s) :=
  hI.coverSensed _ _ _ h

theorem takeDueExpiries_fold_keeps (hI : ∀ st s, I s → I (Machine.takeDueExpiries st s)) (sts : List Station) {s : State} (h : I s) :
    I (sts.foldl (fun s st => Machine.takeDueExpiries st s) s) := by
  induction sts generalizing s with
  | nil => exact h
  | cons st sts ih => exact ih (hI st s h)

theorem EffectsKeep.handSampled (hI : EffectsKeep I) (edges : List (Station × Bool × Pos)) {s : State} (h : I s) :
    I (handSampled edges s) := by
  simp only [Machine.handSampled]
  induction edges generalizing s with
  | nil => exact h
  | cons x edges ih => exact ih (hI.handSample s x h)

/-! ### Commands without a request -/

theorem keeps_doneOf (hI : EffectsKeep I) {s : State} (h : I s) : Keeps I (done s) := by
  rintro t ⟨⟩
  exact hI.finish s h

theorem keeps_onOccasion (hI : EffectsKeep I) {b : Bool} {s t : State} (hs : I s) (h : b = true → I t) :
    Keeps I (doneIf b s t) := by
  cases b
  · exact keeps_next hs
  · exact keeps_doneOf hI (h rfl)

theorem keeps_report (hI : EffectsKeep I) {kind : Byte} {payload : List Byte} {act : State → State} {s : State}
    (hs : I s) (h : ∀ u, I u → I (act u)) : Keeps I (takeReport kind payload act s) :=
  keeps_onOccasion hI hs fun _ => h _ (hI.passUp _ _ hs)

theorem keeps_frame (hI : EffectsKeep I) {port : Port} {kind : Byte} {payload : List Byte} {act : State → State} {s : State}
    (hs : I s) (h : ∀ u, I u → I (act u)) : Keeps I (takeFrame port kind payload act s) :=
  keeps_onOccasion hI hs fun _ => h _ (hI.received _ hs)

theorem keeps_finisherReport (hI : EffectsKeep I) {kind : Byte} {payload : List Byte}
    {act : SetRec → State → Option State} {s : State} (hs : I s) (h : ∀ r u t, I u → act r u = some t → I t) :
    Keeps I (takeReport kind payload (readFinisherReport kind payload act) s) :=
  keeps_report hI hs fun u hu =>
    finisherReport_cases kind payload act u hu (hI.makeLinkError _ _ _ _ hu) (fun _ _ => hI.unexpectedFinisher _ _ _ _ hu)
      fun r t => h r u t hu

theorem continuous_of_acceptable {st : Station} {covered : Bool} {s : State} {c : PendingChange}
    (h : acceptable st covered s = some c) : continuous s st = true := by
  simp only [acceptable] at h
  split at h
  · simp_all
  · simp at h

theorem keeps_acceptEdge (hI : EffectsKeep I) (st : Station) (covered : Bool) {s : State} (hs : I s) :
    Keeps I (acceptEdge st covered s) := by
  simp only [acceptEdge]
  split
  next c hc => exact keeps_doneOf hI (hI.acceptedEdge _ _ _ _ (continuous_of_acceptable hc) hs)
  next => exact keeps_next hs

theorem keeps_stationRawChange (hI : EffectsKeep I) (st : Station) {s : State} (hs : I s) :
    Keeps I (execStationRawChange st s) := by
  have hraw := hI.stationRaw st (!(s.front.stations[st]).raw) s hs
  apply keeps_doneOf hI
  split
  next hc => exact hI.followRaw _ _ (by simpa [continuous] using hc) hraw
  next => exact hraw

theorem keeps_coverOpen (hI : EffectsKeep I) (c : Cover) {s : State} (hs : I s) : Keeps I (execCoverOpen c s) := by
  have hsettled := hI.coverSettled c _ (hI.acceptCover c hs)
  refine keeps_onOccasion hI hs fun _ => ?_
  split
  · exact hI.takeCause _ _ hsettled
  · exact hsettled

/-- Whether a command serves no request. -/
def servesNoRequest (c : Instr) : Bool := (servedRow c).isNone

/-- Every command that serves no request keeps what the effects keep. The arms are grouped by the shared operation that each of
them goes through. -/
theorem exec_keeps_effects (hI : EffectsKeep I) {c : Instr} (hR : isReset c → ResetsKeep I) (hc : servesNoRequest c = true)
    {s : State} (hs : I s) : Keeps I (exec c s) := by
  cases c with
  | unknownCommand _ | identify _ | readState _ | writeStation _ | writeZone _ | writeBin _ | writeRoute _ | writeLimits _
  | readTable _ | checkTables _ | readOrder _ | readPlan _ | resume _ | skipOrder _ | cancelJob _ | standby _ | wake _
  | claimCapture _ | releaseCapture _ | armCapture _ | readCapture _ | resetPart _ =>
    simp [servesNoRequest, servedRow] at hc
  | powerOnReset | pinReset => exact keeps_doneOf hI ((hR (by simp [isReset])).wholeReset _ _ hs)
  | autoloadEnd image => exact keeps_onOccasion hI hs fun _ => hI.endAutoload _ _ hs
  | linkStartSent =>
    exact keeps_onOccasion hI hs fun _ => hI.makeCredit _ (hI.releaseWindowHold _ (hI.linkStarted _ (hI.lowerIdle _ hs)))
  | haltSent => exact keeps_onOccasion hI hs fun _ => hI.releaseWindowHold _ (hI.lowerIdle _ hs)
  | setVoidSent =>
    simp only [exec, execSetVoidSent]
    split
    · exact keeps_doneOf hI (hI.startVoidTimer _ _ (hI.lowerIdle _ hs))
    · exact keeps_next hs
  | speedChangeSent =>
    simp only [exec, execSpeedChangeSent]
    split
    · exact keeps_doneOf hI (hI.startSpeedWait _ (hI.lowerIdle _ hs))
    · exact keeps_next hs
  | forwardedOrderSent =>
    simp only [exec, execForwardedOrderSent]
    split
    · apply keeps_doneOf hI
      split
      · exact hI.firstSent _ _ (hI.lowerIdle _ hs)
      · exact hI.lowerIdle _ hs
    · exact keeps_next hs
  | lowerFrameSent =>
    simp only [exec, execLowerFrameSent]
    split
    · exact keeps_onOccasion hI hs fun _ => hI.lowerIdle _ hs
    · exact keeps_next hs
  | upperFrameSent => exact keeps_onOccasion hI hs fun _ => hI.upperIdle _ hs
  | serviceFrameSent => exact keeps_onOccasion hI hs fun _ => hI.serviceIdle _ hs
  | frameDiscard port chars =>
    simp only [exec, execFrameDiscard]
    split
    next t ht =>
      refine keeps_doneOf hI (takeChars_keeps (hI.setReceiver port) (hI.lineHigh port) (hI.discardFrame port) ?_ ht)
      simp only [beforeChars]
      split
      · exact hI.discardGap _ hs
      · exact hs
    next => exact keeps_next hs
  | gap port => exact keeps_onOccasion hI hs fun _ => hI.discardGap _ hs
  | order payload =>
    refine keeps_frame hI hs fun u hu => ?_
    cases decodeOrder payload
    · exact hI.makeLinkError _ _ _ _ hu
    · exact hI.takeOrder _ _ hu
  | engineCommand _ _ | barrierCommand _ => exact keeps_frame hI hs fun _ => hI.joinCommands _ _
  | manage port payload =>
    cases port
    · exact keeps_frame hI hs fun _ => hI.holdUpper _ _
    · exact keeps_frame hI hs fun _ => hI.holdService _ _
  | serviceManageDiscard _ _ => exact keeps_frame hI hs fun _ hu => hu
  | serviceReset => exact keeps_onOccasion hI hs fun _ => hI.breakTaken _ hs
  | serviceLineReturnsHigh => exact keeps_onOccasion hI hs fun _ => hI.received _ hs
  | pick payload =>
    refine keeps_report hI hs fun u hu => ?_
    split
    · split
      · exact hu
      · exact hI.takePick _ _ hu
    · exact hI.makeLinkError _ _ _ _ hu
  | speedReady payload =>
    refine keeps_report hI hs fun u hu => ?_
    split
    · split
      · exact hu
      · exact hI.takeSpeedReady _ _ hu
    · exact hI.makeLinkError _ _ _ _ hu
  | setDone _ => exact keeps_finisherReport hI hs hI.confirmSet
  | setFault _ => exact keeps_finisherReport hI hs fun r u t hu ht => Option.some.inj ht ▸ hI.faultSet r.name u hu
  | setCleared _ => exact keeps_finisherReport hI hs hI.clearSet
  | engineCredit payload =>
    refine keeps_frame hI hs fun u hu => ?_
    split
    · exact hI.takeCredit _ _ hu
    · exact hI.makeLinkError _ _ _ _ hu
  | engineReport _ _ => exact keeps_report hI hs fun _ hu => hu
  | encoderPulse => exact keeps_doneOf hI (hI.pulse _ hs)
  | trunRawChange => exact keeps_doneOf hI (hI.trunRaw _ _ _ hs)
  | trunQualified => exact keeps_onOccasion hI hs fun _ => hI.trunQual _ _ hs
  | stationRawChange st => exact keeps_stationRawChange hI st hs
  | onEdge st => exact keeps_acceptEdge hI st true hs
  | offEdge st => exact keeps_acceptEdge hI st false hs
  | emitPulse =>
    refine keeps_onOccasion hI hs fun ho => hI.emitPulse _ ?_ hs
    simp at ho
    exact ho.1.1
  | standbySample order =>
    refine keeps_onOccasion hI hs fun ho => hI.handSampled _ (takeDueExpiries_fold_keeps hI.takeDueExpiries _ (hI.sampleAll _ ?_ hs))
    simp at ho
    exact ho.1.1
  | coverRawChange c => exact keeps_doneOf hI (hI.coverSettled _ _ (hI.coverSensed _ _ _ hs))
  | coverOpen c => exact keeps_coverOpen hI c hs
  | coverClosed c => exact keeps_onOccasion hI hs fun _ => hI.acceptCover c hs
  | lateExpiry st => exact keeps_onOccasion hI hs fun _ => hI.takeLate _ _ hs
  | stuckExpiry st => exact keeps_onOccasion hI hs fun _ => hI.takeStuck _ _ hs
  | stall => exact keeps_onOccasion hI hs fun _ => hI.takeCause _ _ (hI.stallTaken _ hs)
  | settle => exact keeps_onOccasion hI hs fun _ => hI.snapshot _ hs
  | setConfirmExpiry bin set => exact keeps_onOccasion hI hs fun _ => hI.faultSet _ _ hs
  | speedWaitExpiry =>
    simp only [exec, execSpeedWaitExpiry]
    split
    · exact keeps_onOccasion hI hs fun _ => hI.speedHeld _ _ hs
    · exact keeps_next hs

/-! ### Commands that serve a request -/

@[simp] theorem readPlan_state (number : Byte) (page : Nat) (s : State) : (readPlan number page s).state = s := by
  simp only [readPlan]
  (repeat' split) <;> rfl

@[simp] theorem readCapture_state (port : MgmtPort) (start : Word) (s : State) : (readCapture port start s).state = s := by
  simp only [readCapture]
  (repeat' split) <;> rfl

/-- The act of every row keeps what the acts keep. -/
theorem actOf_keeps (hA : ActsKeep I) {c : Instr} (hpart : c = .resetPart .upper → ∀ s, I s → I (linkReset s))
    (args : List Byte) {s : State} (hs : I s) : I (actOf c args s).state := by
  cases c with
  | writeStation _ => exact hA.writeStation _ _ hs
  | writeZone _ => exact hA.writeZone _ _ hs
  | writeBin _ => exact hA.writeBin _ _ hs
  | writeRoute _ => exact hA.writeRoute _ _ hs
  | writeLimits _ => exact hA.writeLimits _ _ hs
  | checkTables _ => exact hA.checkTables _ hs
  | resume _ => exact hA.resume _ _ hs
  | skipOrder _ => exact hA.skipOrder _ _ hs
  | cancelJob _ => exact hA.cancelJob _ _ hs
  | standby _ => exact hA.goStandby _ hs
  | wake _ => exact hA.goWake _ hs
  | claimCapture _ => exact hA.claimCapture _ _ _ hs
  | releaseCapture _ => exact hA.releaseCapture _ _ hs
  | armCapture _ => exact hA.armCapture _ _ _ hs
  | resetPart port =>
    cases port
    · exact hpart rfl _ hs
    · exact hs
  | readTable _ | readOrder _ | readPlan _ | readCapture _ => simpa [actOf] using hs
  | _ => exact hs

/-- Every command keeps what the effects, the acts and the making of a reply keep. -/
theorem exec_keeps (hP : PortStable I) (hE : EffectsKeep I) (hA : ActsKeep I) {c : Instr} (hR : isReset c → ResetsKeep I)
    {s : State} (hs : I s) : Keeps I (exec c s) := by
  rcases h : servedRow c with _ | ⟨port, isCode, lengthOk⟩
  · exact exec_keeps_effects hE hR (by simp [servesNoRequest, h]) hs
  · rw [exec_eq_serve h]
    exact keeps_serve hP hs fun args u hu _ => actOf_keeps hA (fun hc => (hR (.inr (.inr hc))).linkReset) args hu

/-- A step keeps what every command and every CLK period keeps, and does not depend on the queue of commands. -/
theorem step_keeps (hpending : ∀ rest s, I s → I { s with pending := rest }) (hperiod : ∀ s, I s → I (period s))
    (hexec : ∀ c s, I s → Keeps I (exec c s)) {s t : State} (hs : I s) (h : step s = .next t) : I t := by
  simp only [step] at h
  split at h
  next => exact (Host.Outcome.next.inj h) ▸ hperiod s hs
  next c rest _ => exact hexec c _ (hpending rest s hs) t h

/-- Settles O1: the two branches of a step, and a loader with MSEL negated. -/
theorem stepTakesTheFrontCommand : Obligations.StepTakesTheFrontCommand := by
  refine ⟨fun c rest s h => ?_, fun s h => ?_, fun s h => ?_⟩
  · simp [step, h]
  · have hstep : step s = .next (period s) := by simp [step, h]
    exact hstep
  · simp [loaderPeriod, h]

theorem confirmSet_eq_some {r : SetRec} {s t : State} (h : confirmSet r s = some t) :
    r.state = .completeAwaiting ∧ t = removeHeads (freeSet r.name (commitMembers r s)) := by
  simpa [confirmSet, eq_comm] using h

theorem clearSet_eq_some {r : SetRec} {s t : State} (h : clearSet r s = some t) :
    r.state = .voided ∧ t = leaveOutstanding r.name (settleCleared r (withdrawSetVoid r.name s)) := by
  simpa [clearSet, eq_comm] using h

/-- The queue of commands passes through every effect. -/
theorem effectsKeep_pending (q : List Instr) : EffectsKeep fun t => t.pending = q := by
  constructor
  case confirmSet =>
    intro r s t hs h
    obtain ⟨-, rfl⟩ := confirmSet_eq_some h
    simpa using hs
  case clearSet =>
    intro r s t hs h
    obtain ⟨-, rfl⟩ := clearSet_eq_some h
    simpa using hs
  all_goals simp [breakTaken]

theorem resetsKeep_pending (q : List Instr) : ResetsKeep fun t => t.pending = q where
  wholeReset cause s hs := by
    simp only [wholeReset]
    split <;> simpa using hs
  linkReset := by simp

theorem actsKeep_pending (q : List Instr) : ActsKeep fun t => t.pending = q := by
  constructor <;> simp

theorem portStable_pending (q : List Instr) : PortStable fun t => t.pending = q := by
  constructor <;> simp

/-- Settles O2: every command answers, and the queue of commands passes through it. -/
theorem everyCommandAnswersANextState : Obligations.EveryCommandAnswersANextState := by
  intro c s
  obtain ⟨t, ht⟩ := exec_answers c s
  exact ⟨t, ht, exec_keeps (portStable_pending _) (effectsKeep_pending _) (actsKeep_pending _) (fun _ => resetsKeep_pending _) rfl t ht⟩

end Sys2Proof.Machine
end

