-- ==== Sys2Proof/Proofs/Invariants.lean ====
section
/-! SUPPORT. Four of the invariants are kept by every step: what a command leaves of the transmitters (R171 to R176), of the
Supervisor's items (R22, R126, R135, R151), of the capture (R188 to R193) and of the Retention Queue (R35, R43). -/

namespace Sys2Proof.Machine

/-! ### The state after reset -/

theorem granted_reset : Granted State.reset := by
  simp [Granted, State.reset, Link.initial, ServicePort.initial, takeReady]

/-- Settles O4: the blocks of the reset state, read off one invariant after the other. -/
theorem invariantsHoldAtReset : Obligations.InvariantsHoldAtReset := by
  refine ⟨?_, ?_, ?_, ?_, ?_, ?_, granted_reset⟩
  · simp [SupervisorInv, State.reset, haltAsserted, PosCounter.initial]
  · simp [CaptureInv, CountWithin, State.reset, Capture.initial, ServicePort.initial]
  · simp [RetentionInv, forwardedCount, State.reset, Retention.empty]
  · simp [SensingInv, State.reset, FrontEnd.initial, StationSense.initial]
  · simp [LinkInv, State.reset, Link.initial, ServicePort.initial]
  · simp [HoldingInv, State.reset, Tracker.empty, Jam.empty, SetMonitor.empty]

/-! ### The transmitters -/

theorem granted_congr {s t : State} (hlink : t.link = s.link) (hsvc : t.svc = s.svc) (hret : t.ret = s.ret) :
    Granted t ↔ Granted s := by
  simp [Granted, hlink, hsvc, hret]

theorem keepsGranted_done (t : State) : Keeps Granted (done t) := by
  rintro u ⟨⟩
  exact granted_finish t

theorem keepsGranted_doneIf {b : Bool} {s t : State} (h : Granted s) : Keeps Granted (doneIf b s t) := by
  cases b
  · exact keeps_next h
  · exact keepsGranted_done t

theorem keepsGranted_serve {port : MgmtPort} {isCode : Byte → Bool} {lengthOk : List Byte → Bool}
    {act : List Byte → State → Served} {s : State} (h : Granted s) :
    Keeps Granted (serve port isCode lengthOk act s) := by
  simp only [serve]
  split
  · exact keeps_next h
  · split
    · exact keepsGranted_done _
    · exact keeps_next h

theorem keepsGranted_acceptEdge (st : Station) (covered : Bool) {s : State} (h : Granted s) :
    Keeps Granted (acceptEdge st covered s) := by
  simp only [acceptEdge]
  split
  · exact keepsGranted_done _
  · exact keeps_next h

/-- A command ends by granting the idle transmitters, or leaves the state as it is. -/
theorem exec_keepsGranted (c : Instr) {s : State} (h : Granted s) : Keeps Granted (exec c s) := by
  rcases hrow : servedRow c with _ | ⟨port, isCode, lengthOk⟩
  case some => exact exec_eq_serve hrow s ▸ keepsGranted_serve h
  cases c with
  | powerOnReset | pinReset | encoderPulse | trunRawChange | stationRawChange _ | coverRawChange _ =>
    exact keepsGranted_done _
  | autoloadEnd _ | linkStartSent | haltSent | upperFrameSent | serviceFrameSent | gap _ | serviceReset | trunQualified
  | emitPulse | coverClosed _ | lateExpiry _ | stuckExpiry _ | stall | settle | setConfirmExpiry _ _
  | serviceLineReturnsHigh | standbySample _ | coverOpen _ => exact keepsGranted_doneIf h
  | setVoidSent | speedChangeSent | forwardedOrderSent =>
    simp only [exec, execSetVoidSent, execSpeedChangeSent, execForwardedOrderSent]
    split
    · exact keepsGranted_done _
    · exact keeps_next h
  | lowerFrameSent | speedWaitExpiry =>
    simp only [exec, execLowerFrameSent, execSpeedWaitExpiry]
    split
    · exact keepsGranted_doneIf h
    · exact keeps_next h
  | onEdge st => exact keepsGranted_acceptEdge st true h
  | offEdge st => exact keepsGranted_acceptEdge st false h
  | frameDiscard port chars =>
    simp only [exec, execFrameDiscard]
    split
    · exact keepsGranted_done _
    · exact keeps_next h
  | manage port _ => cases port <;> exact keepsGranted_doneIf h
  | order _ | engineCommand _ _ | barrierCommand _ | serviceManageDiscard _ _ | engineCredit _ | pick _ | speedReady _
  | setDone _ | setFault _ | setCleared _ | engineReport _ _ => exact keepsGranted_doneIf h
  | _ => cases hrow

/-- Settles O11: every command grants at its end, and a CLK period touches neither the ports nor the queue. -/
theorem noTransmitterIdlesBesideAReadyFrame : Obligations.NoTransmitterIdlesBesideAReadyFrame := by
  intro s t hs h
  refine step_keeps (I := Granted) (fun rest u hu => hu) (fun u hu => ?_) (fun c u hu => exec_keepsGranted c hu) hs h
  exact (granted_congr (by simp [period, tick]) (by simp [period, tick]) (by simp [period, tick])).2 hu

/-! ### The Supervisor -/

theorem SupervisorInv.takeLate {s : State} (st : Station) (h : SupervisorInv s) : SupervisorInv (takeLate st s) := by
  simp only [Machine.takeLate]
  split
  · exact SupervisorInv.takeReports _ (h.congr (by simp) (by simp) (by simp) (by simp) (by simp) (by simp +contextual))
  · exact h

theorem SupervisorInv.takeStuck {s : State} (st : Station) (h : SupervisorInv s) : SupervisorInv (takeStuck st s) := by
  simp only [Machine.takeStuck]
  split
  · exact SupervisorInv.takeReports _ (h.congr (by simp) (by simp) (by simp) (by simp) (by simp) (by simp +contextual))
  · exact h

/-- A step that leaves the Supervisor's items and the reports of a declaration's moment. -/
theorem SupervisorInv.same {s t : State} (h : SupervisorInv s) (hsup : t.sup = s.sup) (hfrom : t.pos.settleFrom = s.pos.settleFrom)
    (hreached : t.reached = s.reached) : SupervisorInv t := by
  simpa [SupervisorInv, hsup, hfrom, hreached] using h

theorem SupervisorInv.wholeReset (cause : ResetCause) (s : State) : SupervisorInv (wholeReset cause s) := by
  simp only [Machine.wholeReset]
  split <;> simp [SupervisorInv, State.reset, haltAsserted, PosCounter.initial]

theorem SupervisorInv.takeSpeedReady {s : State} (cls : Byte) (h : SupervisorInv s) :
    SupervisorInv (takeSpeedReady cls s) := by
  simp only [Machine.takeSpeedReady, speedReached]
  split
  · refine SupervisorInv.forwarderPass (SupervisorInv.enterChosen ?_)
    exact h.congr (by simp) (by simp) (by simp) (by simp) (by simp) (by simp)
  · exact h.same (by simp) (by simp) (by simp)

theorem SupervisorInv.takePick {s : State} (n : OrderNo) (h : SupervisorInv s) : SupervisorInv (takePick n s) := by
  simp only [Machine.takePick]
  split
  · exact SupervisorInv.afterTracking (h.congr (by simp) (by simp) (by simp) (by simp) (by simp) (by simp))
  · exact h.same (by simp) (by simp) (by simp)

theorem SupervisorInv.takeOrder {s : State} (o : OrderFields) (h : SupervisorInv s) : SupervisorInv (takeOrder o s) := by
  simp only [Machine.takeOrder]
  split
  · exact h.wakeToIdle.same (by simp) (by simp) (by simp)
  · exact SupervisorInv.forwarderPass (h.wakeToIdle.same (by simp) (by simp) (by simp))

theorem SupervisorInv.takeCredit {s : State} (limit : Byte) (h : SupervisorInv s) : SupervisorInv (takeCredit limit s) := by
  simp only [Machine.takeCredit]
  split
  · exact h
  · exact SupervisorInv.forwarderPass (h.same rfl rfl rfl)

theorem SupervisorInv.leaveOutstanding {s : State} (n : SetName) (h : SupervisorInv s) :
    SupervisorInv (leaveOutstanding n s) := by
  simp only [Machine.leaveOutstanding]
  split
  next p hp =>
    have hrest (rest : List SetName) : SupervisorInv { s with sup.purge := some { p with outstanding := rest } } := by
      simpa [SupervisorInv, hp] using h
    (repeat' split)
    · exact (hrest _).replay
    · exact hrest _
    · exact h
  next => exact h

theorem SupervisorInv.followRaw {s : State} (st : Station) (h : SupervisorInv s) : SupervisorInv (followRaw st s) := by
  simp only [Machine.followRaw]
  (repeat' split)
  · exact SupervisorInv.takeDueExpiries _ (h.same (by simp) (by simp) (by simp))
  · exact h
  · exact h
  · exact h.same (by simp) (by simp) (by simp)

theorem portStable_supervisor : PortStable SupervisorInv where
  finish s h := h.same (by simp) (by simp) (by simp)
  takeRequest port s h := h.same (by simp) (by simp) (by simp)
  putReply port r s h := h.same (by simp) (by simp) (by simp)

theorem effectsKeep_supervisor : EffectsKeep SupervisorInv := by
  constructor
  case endAutoload =>
    intro image s h
    have hload : SupervisorInv (queueControl .linkStart
        (applyTables (loadEnd (endTransfer image s).load.reading (endTransfer image s).tables) (endTransfer image s))) :=
      h.same (by simp) (by simp) (by simp)
    simp only [endAutoload]
    split
    · exact hload.idleOrForeign
    · exact hload.enter (by decide) (by decide)
  case takeOrder => exact fun o s h => h.takeOrder o
  case takeCredit => exact fun limit s h => h.takeCredit limit
  case takePick => exact fun n s h => h.takePick n
  case takeSpeedReady => exact fun cls s h => h.takeSpeedReady cls
  case confirmSet =>
    intro r s t h ht
    obtain ⟨-, rfl⟩ := confirmSet_eq_some ht
    exact h.same (by simp) (by simp) (by simp)
  case clearSet =>
    intro r s t h ht
    obtain ⟨-, rfl⟩ := clearSet_eq_some ht
    exact SupervisorInv.leaveOutstanding _ (h.same (by simp) (by simp) (by simp))
  case faultSet => exact fun n s h => SupervisorInv.takeCause _ (h.same (by simp) (by simp) (by simp))
  case followRaw => exact fun st s _ h => h.followRaw st
  case acceptedEdge => exact fun st covered stamp s _ h => SupervisorInv.handEdge _ _ _ (h.same (by simp) (by simp) (by simp))
  case takeDueExpiries => exact fun st s h => h.takeDueExpiries st
  case handSample => exact fun s x h => SupervisorInv.handEdge _ _ _ (h.same (by simp) (by simp) (by simp))
  case takeCause => exact fun c s h => h.takeCause c
  case takeLate => exact fun st s h => h.takeLate st
  case takeStuck => exact fun st s h => h.takeStuck st
  case snapshot => exact fun s h => h.snapshot
  case speedHeld =>
    exact fun n s h => SupervisorInv.enterHeld _ _ (h.congr (by simp) (by simp) (by simp) (by simp) (by simp) (by simp))
  -- the reports of a declaration's moment stay empty where they are
  case coverSettled | stallTaken =>
    intros
    refine SupervisorInv.congr (by assumption) ?_ ?_ ?_ ?_ ?_ fun hr => ?_ <;>
      simp [Machine.coverSettled, *, Reached.nothing]
  all_goals
    intros
    exact SupervisorInv.congr (by assumption) (by simp [breakTaken]) (by simp [breakTaken]) (by simp [breakTaken])
      (by simp [breakTaken]) (by simp [breakTaken]) (by simp [breakTaken])

theorem resetsKeep_supervisor : ResetsKeep SupervisorInv where
  wholeReset cause s _ := SupervisorInv.wholeReset cause s
  linkReset _ h := h.linkReset

theorem SupervisorInv.writeTable {s : State} {record : Option (State × List Byte)} (h : SupervisorInv s)
    (hr : ∀ x ∈ record, SupervisorInv x.1) : SupervisorInv (writeTable record s).state := by
  simp only [Machine.writeTable, afterWrite]
  split
  · exact h
  · split
    · exact h
    next u bytes =>
      have hx : SupervisorInv { u with tables.checked := false } := hr _ rfl
      split
      · exact hx.enter (by decide) (by decide)
      · exact hx

theorem SupervisorInv.writeStation {s : State} (args : List Byte) (h : SupervisorInv s) :
    SupervisorInv (writeStation args s).state := by
  simp only [Machine.writeStation]
  split
  next i r _ =>
    have hw : SupervisorInv (Machine.writeTable (some (storeStation i r s, stationBytes i r)) s).state :=
      h.writeTable fun x hx => by cases hx; exact h.same (by simp) (by simp) (by simp)
    split
    · exact hw.same (by simp) (by simp) (by simp)
    · exact hw
  next => exact h.writeTable (by simp)

theorem SupervisorInv.resume {s : State} (number : Byte) (h : SupervisorInv s) : SupervisorInv (resume number s).state := by
  simp only [Machine.resume]
  (repeat' split)
  case h_2 => exact h.acceptResume
  case h_2.isTrue =>
    refine SupervisorInv.forwarderPass (SupervisorInv.enter (h.same (by simp) (by simp) (by simp)) ?_ ?_) <;>
      simp only [releaseTarget] <;> split <;> decide
  all_goals exact h

theorem SupervisorInv.voidByCancel_fold (l : List SetRec) {s : State} (h : SupervisorInv s) :
    SupervisorInv (l.foldl (fun s r => voidByCancel r.name s) s) := by
  induction l generalizing s with
  | nil => exact h
  | cons r l ih =>
    refine ih ?_
    simpa [SupervisorInv, voidByCancel] using h

@[simp] theorem claimCapture_reached (port : MgmtPort) (force : Byte) (s : State) :
    (claimCapture port force s).state.reached = s.reached := by
  simp only [claimCapture, claimed]
  (repeat' split) <;> simp

@[simp] theorem releaseCapture_reached (port : MgmtPort) (s : State) : (releaseCapture port s).state.reached = s.reached := by
  simp only [releaseCapture]
  split <;> simp

@[simp] theorem armCapture_reached (port : MgmtPort) (args : List Byte) (s : State) :
    (armCapture port args s).state.reached = s.reached := by
  simp only [armCapture]
  (repeat' split) <;> rfl

theorem actsKeep_supervisor : ActsKeep SupervisorInv := by
  have stored {α : Type} {parsed : Option α} {store : α → State × List Byte} {s : State} (h : SupervisorInv s)
      (hstore : ∀ a, SupervisorInv (store a).1) : SupervisorInv (writeTable (parsed.map store) s).state :=
    h.writeTable fun x hx => by
      obtain ⟨a, -, rfl⟩ := Option.map_eq_some_iff.mp hx
      exact hstore a
  constructor
  case writeStation => exact fun args s h => h.writeStation args
  case writeZone => exact fun args s h => stored h fun _ => h
  case writeBin => exact fun args s h => stored h fun _ => h
  case writeRoute => exact fun args s h => stored h fun _ => h
  case writeLimits => exact fun args s h => stored h fun _ => h
  case checkTables =>
    intro s h
    simp only [checkTables, tablesPass]
    (repeat' split)
    · exact h
    · exact h
    · exact SupervisorInv.idleOrForeign (h.same rfl rfl rfl)
    · exact h
  case resume => exact fun number s h => h.resume number
  case skipOrder =>
    intro n s h
    simp only [skipOrder]
    split
    · exact SupervisorInv.afterWithdrawal _ (h.wakeToIdle.same (by simp) (by simp) (by simp))
    · exact h.wakeToIdle
  case cancelJob =>
    intro job s h
    have hvoided := SupervisorInv.voidByCancel_fold ((setsOfJob (wakeToIdle s) job).filter (isVoidedByCancel (wakeToIdle s)))
      (h.wakeToIdle.same (t := cancelEntries job (wakeToIdle s)) rfl rfl rfl)
    exact SupervisorInv.afterWithdrawal _ (hvoided.same (by simp [freeIfEmpty_fold _ _ _ rfl])
      (by simp [freeIfEmpty_fold _ _ _ rfl]) (by simp [freeIfEmpty_fold _ _ _ rfl]))
  case goStandby =>
    intro s h
    simp only [goStandby]
    (repeat' split)
    · exact h
    · exact h.enter (by decide) (by decide)
    · exact h
  case goWake =>
    intro s h
    simp only [goWake]
    split
    · exact h.enter (by decide) (by decide)
    · exact h
  all_goals
    intros
    exact SupervisorInv.same (by assumption) (by simp) (by simp) (by simp)

theorem SupervisorInv.period {s : State} (h : SupervisorInv s) : SupervisorInv (period s) :=
  h.same (by simp [Machine.period, tick]) (by simp [Machine.period, tick]) (by simp [Machine.period, tick])

/-- Settles O5: every effect and every act keeps the invariant, and so does a CLK period. -/
theorem supervisorItemsFollowThePartState : Obligations.SupervisorItemsFollowThePartState := by
  intro s t hs h
  exact step_keeps (fun _ _ hu => hu) (fun _ hu => hu.period)
    (fun _ _ hu => exec_keeps portStable_supervisor effectsKeep_supervisor actsKeep_supervisor (fun _ => resetsKeep_supervisor) hu) hs h

/-! ### The capture -/

theorem portStable_capture : PortStable CaptureInv := by
  constructor <;> simp +contextual [CaptureInv.iff]

/-- A capture that is freed where it stands is free, disarmed and empty. -/
theorem captureOK_of_empty {c : Capture} (hfree : c.owner = .free → c.state = .disarmed) (hbuffer : c.buffer = [])
    (hmode : ∀ n, c.mode = .count n → n ≤ 512 ∧ (c.state = .running → 0 < n)) : CaptureOK c := by
  refine ⟨fun h => ⟨hfree h, hbuffer⟩, by simp [hbuffer], ?_⟩
  rcases hm : c.mode with n | ⟨k, m⟩
  · simpa [CountWithin, hm, hbuffer] using hmode n hm
  · simp [CountWithin, hm]

theorem CaptureOK.count_le {c : Capture} (h : CaptureOK c) (n : Nat) (hm : c.mode = .count n) : n ≤ 512 := by
  obtain ⟨-, -, hcount⟩ := h
  simp only [CountWithin, hm] at hcount
  exact hcount.1

theorem CaptureInv.wholeReset {s : State} (cause : ResetCause) (h : CaptureInv s) : CaptureInv (wholeReset cause s) := by
  obtain ⟨-, hok⟩ := (CaptureInv.iff s).1 h
  have hcap : CaptureOK (captureAfterReset cause s.cap) := by
    simp only [captureAfterReset]
    split
    · exact hok
    · simp [CaptureOK, CountWithin, Capture.initial]
  rw [CaptureInv.iff]
  simp only [Machine.wholeReset]
  split <;> simp [hcap]

theorem CaptureInv.breakTaken {s : State} (h : CaptureInv s) : CaptureInv (breakTaken s) := by
  obtain ⟨hclaim, hok⟩ := (CaptureInv.iff s).1 h
  rw [CaptureInv.iff]
  simp only [Machine.breakTaken, captureAfterServiceReset]
  split
  · exact ⟨by simp, captureOK_of_empty (by simp) rfl (fun n hm => ⟨hok.count_le n hm, by simp⟩)⟩
  next howner => exact ⟨by simp [howner], hok⟩

theorem CaptureInv.setOwner {s : State} (o : Owner) (h : CaptureInv s) : CaptureInv (setOwner o s) := by
  obtain ⟨-, hok⟩ := (CaptureInv.iff s).1 h
  exact (CaptureInv.iff _).2
    ⟨rfl, captureOK_of_empty (fun _ => rfl) rfl fun n hm => ⟨hok.count_le n hm, by simp [Machine.setOwner]⟩⟩

/-- A COUNT that ARM admits is from 1 to 512 (R190). -/
theorem armOf_count {mode count n : Nat} {kind : Byte} {mask : EventMask} (h : armOf mode count kind mask = some (.count n)) :
    1 ≤ n ∧ n ≤ 512 := by
  simp only [armOf] at h
  (repeat' split at h) <;> simp_all

theorem CaptureInv.armCapture {s : State} (port : MgmtPort) (args : List Byte) (h : CaptureInv s) :
    CaptureInv (armCapture port args s).state := by
  obtain ⟨hclaim, hok⟩ := (CaptureInv.iff s).1 h
  simp only [Machine.armCapture]
  split
  next howner =>
    split
    next mode c1 c0 kind m1 m0 =>
      split
      next m hm =>
        refine (CaptureInv.iff _).2 ⟨hclaim, captureOK_of_empty (fun hfree => ?_) rfl fun n hn => ?_⟩
        · have hfree : s.cap.owner = .free := hfree
          cases port <;> simp [hfree, requester] at howner
        · have hn : m = .count n := hn
          have hrange := armOf_count (hn ▸ hm)
          exact ⟨hrange.2, fun _ => hrange.1⟩
      next => exact h
    next => exact h
  next => exact h

theorem CaptureInv.linkReset {s : State} (h : CaptureInv s) : CaptureInv (linkReset s) := by
  obtain ⟨hclaim, hok⟩ := (CaptureInv.iff s).1 h
  refine (CaptureInv.iff _).2 ⟨?_, linkReset_captureOK s hok⟩
  simp only [Machine.linkReset, afterLinkReset_frame, syncStall_frame, makeCredit_frame, requestHalt_frame]
  simp only [discardJob, captureAfterLinkReset]
  split <;> simp [*]

theorem resetsKeep_capture : ResetsKeep CaptureInv where
  wholeReset cause _ h := h.wholeReset cause
  linkReset _ h := h.linkReset

theorem effectsKeep_capture : EffectsKeep CaptureInv := by
  constructor
  case breakTaken => exact fun s h => h.breakTaken
  case confirmSet =>
    intro r s t h ht
    obtain ⟨-, rfl⟩ := confirmSet_eq_some ht
    rw [CaptureInv.iff] at h ⊢
    simp [h]
  case clearSet =>
    intro r s t h ht
    obtain ⟨-, rfl⟩ := clearSet_eq_some ht
    rw [CaptureInv.iff] at h ⊢
    simp [h]
  all_goals simp +contextual [CaptureInv.iff]

theorem actsKeep_capture : ActsKeep CaptureInv := by
  constructor
  case claimCapture =>
    intro port force s h
    simp only [claimCapture, claimed]
    (repeat' split)
    · exact h
    · exact h
    · exact h.setOwner _
    · simpa [CaptureInv.iff] using h.setOwner (requester port)
    · exact h
  case releaseCapture =>
    intro port s h
    simp only [releaseCapture]
    split
    · exact h.setOwner _
    · exact h
  case armCapture => exact fun port args s h => h.armCapture port args
  all_goals simp +contextual [CaptureInv.iff]

/-- Settles O6: every effect and every act keeps the invariant, and a CLK period touches neither capture nor claim. -/
theorem captureStaysWithinItsMode : Obligations.CaptureStaysWithinItsMode := by
  intro s t hs h
  refine step_keeps (I := CaptureInv) (fun _ _ hu => hu) (fun u hu => ?_)
    (fun _ _ hu => exec_keeps portStable_capture effectsKeep_capture actsKeep_capture (fun _ => resetsKeep_capture) hu) hs h
  simpa [CaptureInv.iff, period, tick] using hu

/-! ### The Retention Queue -/

theorem portStable_retention : PortStable RetentionInv := by
  constructor <;> simp [RetentionInv.iff]

/-- An order whose number is the next one joins the tail of a queue with a free place (R37, R38, R40). -/
theorem RetentionOK.append {l : List Entry} {x : Option OrderNo} {e : Entry} (h : RetentionOK l x) (hlen : l.length < 32)
    (hnext : x = none ∨ x = some e.order) (hstate : e.state ≠ .forwarded) :
    RetentionOK (l ++ [e]) (some (e.order + 1)) := by
  obtain ⟨-, horders, hforwarded⟩ := h
  have hcount : e.order + 1 - BitVec.ofNat 16 (l.length + 1) = e.order - BitVec.ofNat 16 l.length := by
    rw [BitVec.ofNat_add]
    bv_omega
  have hback : e.order - BitVec.ofNat 16 l.length + BitVec.ofNat 16 l.length = e.order := BitVec.sub_add_cancel _ _
  refine ⟨by simp; omega, ?_, by simpa [hstate] using hforwarded⟩
  have hnumbers : l.map (·.order) = numbersFrom (e.order - BitVec.ofNat 16 l.length) l.length := by
    rcases hnext with rfl | rfl
    · obtain rfl : l = [] := horders
      rfl
    · exact horders
  simp only [List.map_append, List.map_cons, List.map_nil, List.length_append, List.length_cons, List.length_nil,
    Nat.zero_add, hnumbers, hcount, numbersFrom_append, hback]

theorem sequenceOk_iff (s : State) (n : OrderNo) :
    sequenceOk s n = true ↔ s.ret.expected = none ∨ s.ret.expected = some n := by
  rcases h : s.ret.expected with _ | e <;> simp [sequenceOk, h, eq_comm]

/-- What an order that passes the four checks has passed (R36 to R39). -/
theorem checkOrder_eq_ok {s : State} {o : OrderFields} {e : Entry} (h : checkOrder s o = .ok e) :
    s.sup.state ≠ .starting ∧ s.sup.state ≠ .unconfigured ∧ sequenceOk s o.order = true ∧ s.ret.entries.length < 32 ∧
    ∃ r c, orderFieldsOf s.tables o = some (r, c) ∧
      setRefused s (s.tables.routes[r]).bin o.setNumber o.setLast = false ∧ e = entryOf o r c := by
  unfold checkOrder at h
  split at h
  · cases h
  next hstate =>
    split at h
    · cases h
    next hsequence =>
      split at h
      · cases h
      next hlen =>
        split at h
        · cases h
        next r c hfields =>
          split at h
          · cases h
          next hset =>
            cases h
            simp only [Bool.or_eq_true, decide_eq_true_eq, not_or] at hstate
            exact ⟨hstate.1, hstate.2, by simpa using hsequence, by omega, r, c, hfields, by simpa using hset, rfl⟩

@[simp] theorem acceptEntry_entries (e : Entry) (s : State) :
    (acceptEntry e s).ret.entries = s.ret.entries ++ [e] := by
  simp [acceptEntry]

@[simp] theorem acceptEntry_expected (e : Entry) (s : State) : (acceptEntry e s).ret.expected = some (e.order + 1) := by
  simp [acceptEntry]

theorem takeOrder_retention {s : State} (o : OrderFields) (h : RetentionInv s) : RetentionInv (takeOrder o s) := by
  have hwake : RetentionInv (wakeToIdle s) := by simpa [RetentionInv.iff] using h
  simp only [takeOrder]
  split
  · simpa [RetentionInv.iff] using hwake
  next e he =>
    obtain ⟨-, -, hnext, hlen, r, c, -, -, rfl⟩ := checkOrder_eq_ok he
    have happend := RetentionOK.append (e := entryOf o r c) ((RetentionInv.iff _).1 hwake) hlen
      ((sequenceOk_iff _ _).1 hnext) (by simp [entryOf])
    have hexpected : (forwarderPass (acceptEntry (entryOf o r c) (wakeToIdle s))).ret.expected = some (o.order + 1) := by
      simp [entryOf]
    rw [RetentionInv.iff, hexpected]
    exact forwarderPass_retentionOK _ (by rwa [acceptEntry_entries])

theorem effectsKeep_retention : EffectsKeep RetentionInv := by
  constructor
  case firstSent => exact fun n s h => updateEntry_retentionOK _ _ _ (keeping_sent true) h
  case takeOrder => exact fun o s h => takeOrder_retention o h
  case confirmSet =>
    intro r s t h ht
    obtain ⟨-, rfl⟩ := confirmSet_eq_some ht
    rw [RetentionInv.iff] at h ⊢
    simp [h]
  case clearSet =>
    intro r s t h ht
    obtain ⟨-, rfl⟩ := clearSet_eq_some ht
    rw [RetentionInv.iff] at h ⊢
    simp [h]
  all_goals simp +contextual [RetentionInv.iff, breakTaken]

theorem actsKeep_retention : ActsKeep RetentionInv := by
  constructor <;> simp +contextual [RetentionInv.iff]

theorem resetsKeep_retention : ResetsKeep RetentionInv where
  wholeReset cause s _ := by
    simp only [wholeReset]
    split <;> simp [RetentionInv, forwardedCount, State.reset, Retention.empty]
  linkReset s h := linkReset_retentionOK s h

/-- Settles O7: every effect and every act keeps the invariant, and a CLK period does not touch the queue. -/
theorem retentionKeepsConsecutiveNumbers : Obligations.RetentionKeepsConsecutiveNumbers := by
  intro s t hs h
  refine step_keeps (I := RetentionInv) (fun _ _ hu => hu) (fun u hu => ?_)
    (fun _ _ hu => exec_keeps portStable_retention effectsKeep_retention actsKeep_retention (fun _ => resetsKeep_retention) hu) hs h
  simpa [RetentionInv.iff, period, tick] using hu

end Sys2Proof.Machine
end

