-- ==== Sys2Proof/Proofs/SharedOperations.lean ====
section
/-! SUPPORT. What every shared operation keeps, once for every property of the tables, the sensing, the expectation lists, the
causes, the set records, the plan, the part state and the service notices. -/

namespace Sys2Proof.Machine

/-- The two states agree in what the properties of this file speak of. -/
def SameHoldings (s t : State) : Prop :=
  t.tables.stations = s.tables.stations ∧ t.front.stations = s.front.stations ∧ t.front.emit = s.front.emit ∧ t.trk.lists = s.trk.lists ∧ t.jam.causes = s.jam.causes ∧
  t.jam.deferred = s.jam.deferred ∧ t.sets.records = s.sets.records ∧ t.plan = s.plan ∧ t.sup.state = s.sup.state ∧
  t.svc.notices = s.svc.notices

/-- A property that the elementary changes of the shared operations keep: it speaks of nothing but `SameHoldings`, and survives each
change of what that names. -/
structure SharedKeep (I : State → Prop) : Prop where
  same : ∀ {s t}, SameHoldings s t → I s → I t
  serviceNotice : ∀ n s, I s → I (makeServiceNotice n s)
  enterState : ∀ st s, I s → I (enterState st s)
  lists : ∀ l s, (∀ st : Station, (l[st]).length ≤ max 8 (s.trk.lists[st]).length) → I s → I { s with trk.lists := l }
  causes : ∀ cs s, cs.length ≤ max 4 s.jam.causes.length → I s → I { s with jam.causes := cs }
  deferred : ∀ ds s, ds.length ≤ max 8 s.jam.deferred.length → I s → I { s with jam.deferred := ds }
  records : ∀ rs s, (rs.map (·.name)).Sublist (s.sets.records.map (·.name)) → I s → I { s with sets.records := rs }
  opened : ∀ r s, s.sets.records.length < 8 → findSet s r.name = none → I s →
    I { s with sets.records := s.sets.records ++ [r] }
  formed : ∀ p s, p.number ≠ 0 → I s → I { s with plan := { plan := some p, counter := p.number } }
  closed : ∀ x s, (∀ p ∈ x, ∃ q ∈ s.plan.plan, p.number = q.number) → I s → I { s with plan.plan := x }

variable {I : State → Prop}

/-! ### Notices, events and causes -/

theorem SharedKeep.makeNotice (hI : SharedKeep I) (n : Notice) {s : State} (h : I s) : I (makeNotice n s) :=
  hI.same (by simp [SameHoldings]) h

theorem SharedKeep.makeLinkError (hI : SharedKeep I) (port : Port) (reason : LinkReason) (third : Byte) {s : State}
    (h : I s) : I (makeLinkError port reason third s) := by
  cases port
  · exact hI.makeNotice _ h
  · exact hI.makeNotice _ h
  · exact hI.serviceNotice _ _ h

theorem SharedKeep.makeCaptureDone (hI : SharedKeep I) {s : State} (h : I s) : I (makeCaptureDone s) := by
  simp only [Machine.makeCaptureDone]
  split
  · exact hI.serviceNotice _ _ h
  · exact hI.makeNotice _ h

theorem SharedKeep.offerEvent (hI : SharedKeep I) (k : EventKind) (p : Pos) (st : Option Station) (order : Option OrderNo)
    (detail : Byte) {s : State} (h : I s) : I (offerEvent k p st order detail s) := by
  simp only [Machine.offerEvent]
  split
  · split
    · exact hI.makeCaptureDone (hI.same (by simp [SameHoldings]) h)
    · exact hI.same (by simp [SameHoldings]) h
  · exact h

theorem SharedKeep.announceCause (hI : SharedKeep I) (t : Treatment) (index : Nat) (c : Cause) {s : State} (h : I s) :
    I (announceCause t index c s) :=
  hI.offerEvent _ _ _ _ _ (hI.same (by simp [SameHoldings]) h)

theorem SharedKeep.startCauses (hI : SharedKeep I) (c : Cause) {s : State} (h : I s) : I (startCauses c s) :=
  hI.same (s := { s with jam.causes := [c] }) (by simp [SameHoldings, Machine.startCauses])
    (hI.causes _ _ (Nat.le_trans (show 1 ≤ 4 by decide) (Nat.le_max_left _ _)) h)

theorem SharedKeep.declareStop (hI : SharedKeep I) (c : Cause) {s : State} (h : I s) : I (declareStop c s) := by
  have hkeep : I (keepReached s) := hI.same (by simp [SameHoldings]) h
  refine hI.enterState _ _ (hI.announceCause _ _ _ ?_)
  exact hI.same (by simp [SameHoldings]) (hI.startCauses c hkeep)

theorem SharedKeep.joinStop (hI : SharedKeep I) (c : Cause) {s : State} (h : I s) : I (joinStop c s) := by
  simp only [Machine.joinStop]
  split
  · exact hI.announceCause _ _ _ (hI.causes _ _ (by simp; omega) h)
  · exact hI.announceCause _ _ _ (hI.same (by simp [SameHoldings]) h)

theorem SharedKeep.deferCause (hI : SharedKeep I) (c : Cause) {s : State} (h : I s) : I (deferCause c s) := by
  simp only [Machine.deferCause]
  split
  · exact h
  next hfull =>
    simp only [Bool.or_eq_true, decide_eq_true_eq, not_or] at hfull
    exact hI.announceCause _ _ _ (hI.deferred _ _ (by simp; omega) h)

theorem SharedKeep.takeCause (hI : SharedKeep I) (c : Cause) {s : State} (h : I s) : I (takeCause c s) := by
  cases hstate : s.sup.state <;> simp only [Machine.takeCause, hstate]
  case awaitClear =>
    split
    · exact hI.deferCause c h
    · exact h
  case stopping => exact hI.joinStop c h
  case starting | unconfigured => exact h
  all_goals exact hI.declareStop c h

theorem SharedKeep.takeReports (hI : SharedKeep I) (rs : List Report) {s : State} (h : I s) : I (takeReports rs s) := by
  simp only [Machine.takeReports]
  induction rs generalizing s with
  | nil => exact h
  | cons r rs ih => exact ih (hI.takeCause _ h)

/-! ### The forwarder -/

theorem SharedKeep.forwardEntry (hI : SharedKeep I) (e : Entry) {s : State} (h : I s) : I (forwardEntry e s) := by
  simp only [Machine.forwardEntry]
  split
  · exact hI.enterState _ _ (hI.same (by simp [SameHoldings]) h)
  · exact hI.same (by simp [SameHoldings]) h

theorem SharedKeep.considerQueue (hI : SharedKeep I) (n : Nat) {s : State} (h : I s) : I (considerQueue n s) := by
  induction n generalizing s with
  | zero => exact h
  | succ n ih =>
    simp only [Machine.considerQueue]
    (repeat' split)
    · exact h
    · exact h
    · exact ih (hI.forwardEntry _ h)
    · exact hI.same (by simp [SameHoldings]) h
    · exact h

theorem SharedKeep.drainCheck (hI : SharedKeep I) {s : State} (h : I s) : I (drainCheck s) := by
  simp only [Machine.drainCheck]
  (repeat' split)
  · exact h
  · exact hI.enterState _ _ (hI.same (by simp [SameHoldings]) h)
  · exact h

theorem SharedKeep.enterHeld (hI : SharedKeep I) (reason : HeldReason) (n : OrderNo) {s : State} (h : I s) :
    I (enterHeld reason n s) :=
  hI.enterState _ _ (hI.same (by simp [SameHoldings]) h)

theorem SharedKeep.heldCheck (hI : SharedKeep I) {s : State} (h : I s) : I (heldCheck s) := by
  simp only [Machine.heldCheck]
  (repeat' split)
  · exact hI.enterHeld _ _ h
  all_goals exact h

theorem SharedKeep.idleCheck (hI : SharedKeep I) {s : State} (h : I s) : I (idleCheck s) := by
  simp only [Machine.idleCheck]
  split
  · exact hI.enterState _ _ h
  · exact h

theorem SharedKeep.forwarderPass (hI : SharedKeep I) {s : State} (h : I s) : I (forwarderPass s) := by
  have hreview : I (reviewRequest s) := hI.same (by simp [SameHoldings]) h
  exact hI.idleCheck (hI.heldCheck (hI.drainCheck (hI.considerQueue _ hreview)))

theorem SharedKeep.enterChosen (hI : SharedKeep I) {s : State} (h : I s) : I (enterChosen s) := by
  simp only [Machine.enterChosen]
  (repeat' split)
  · exact hI.enterHeld _ _ h
  all_goals exact hI.enterState _ _ h

theorem SharedKeep.leaveHeld (hI : SharedKeep I) (old : Option OrderNo) {s : State} (h : I s) : I (leaveHeld old s) := by
  simp only [Machine.leaveHeld]
  (repeat' split)
  · exact h
  · exact hI.makeNotice _ h
  · exact hI.forwarderPass (hI.enterState _ _ h)
  · exact hI.enterState _ _ h
  · exact hI.forwarderPass (hI.enterState _ _ h)

theorem SharedKeep.afterWithdrawal (hI : SharedKeep I) (old : Option OrderNo) {s : State} (h : I s) :
    I (afterWithdrawal old s) := by
  simp only [Machine.afterWithdrawal]
  (repeat' split)
  · exact hI.leaveHeld _ h
  · exact h
  · exact hI.forwarderPass h

theorem SharedKeep.wakeToIdle (hI : SharedKeep I) {s : State} (h : I s) : I (wakeToIdle s) := by
  simp only [Machine.wakeToIdle]
  split
  · exact hI.enterState _ _ h
  · exact h

/-! ### Set records -/

/-- A change of the records that leaves their names. -/
theorem SharedKeep.mapRecords (hI : SharedKeep I) {f : SetRec → SetRec} (hf : ∀ r, (f r).name = r.name) {s : State}
    (h : I s) : I { s with sets.records := s.sets.records.map f } :=
  hI.records _ _ (by simp [Function.comp_def, hf]) h

theorem SharedKeep.updateSet (hI : SharedKeep I) (n : SetName) {f : SetRec → SetRec} (hf : ∀ r, r.name = n → (f r).name = n)
    {s : State} (h : I s) : I (updateSet n f s) :=
  hI.mapRecords (fun r => by split <;> simp [*]) h

theorem SharedKeep.becomeVoided (hI : SharedKeep I) (n : SetName) {s : State} (h : I s) : I (becomeVoided n s) :=
  hI.same (s := Machine.updateSet n (fun r => { r with state := .voided, deadline := none }) s)
    (by simp [SameHoldings, Machine.becomeVoided]) (hI.updateSet n (by simp) h)

theorem SharedKeep.freeSet (hI : SharedKeep I) (n : SetName) {s : State} (h : I s) : I (freeSet n s) := by
  have hrecords := hI.records (s.sets.records.filter fun r => r.name ≠ n) s (List.filter_sublist.map _) h
  have hdeferred := hI.deferred (if s.sup.state = .awaitClear then s.jam.deferred.filter fun c => c.set ≠ some n
    else s.jam.deferred) _ (by
      split
      · exact Nat.le_trans (List.length_filter_le _ _) (Nat.le_max_right _ _)
      · exact Nat.le_max_right _ _) hrecords
  exact hI.same (by simp [SameHoldings, Machine.freeSet]) hdeferred

theorem SharedKeep.releaseSet (hI : SharedKeep I) (r : SetRec) {s : State} (h : I s) : I (releaseSet r s) := by
  simp only [Machine.releaseSet]
  split
  · exact hI.freeSet _ h
  · exact hI.updateSet _ (by simp [reform]) h

theorem SharedKeep.withdrawDelivered (hI : SharedKeep I) (r : SetRec) (n : OrderNo) {s : State} (h : I s) :
    I (withdrawDelivered r n s) := by
  simp only [Machine.withdrawDelivered]
  split
  · exact hI.updateSet _ (by simp) (hI.same (by simp [SameHoldings]) h)
  · exact hI.same (by simp [SameHoldings]) h

theorem SharedKeep.queueSetVoidOutsidePurge (hI : SharedKeep I) (n : SetName) {s : State} (h : I s) :
    I (queueSetVoidOutsidePurge n s) :=
  hI.same (by simp [SameHoldings]) h

theorem countDelivery_name (s : State) (r : SetRec) : (countDelivery s r).name = r.name := by
  simp only [countDelivery]
  split <;> rfl

theorem SharedKeep.deliverToSet (hI : SharedKeep I) (name : SetName) (n : OrderNo) (waste : Bool) {s : State} (h : I s) :
    I (deliverToSet name n waste s) := by
  simp only [Machine.deliverToSet]
  (repeat' split)
  · exact h
  · exact hI.queueSetVoidOutsidePurge _ (hI.becomeVoided _ (hI.withdrawDelivered _ _ h))
  · exact hI.updateSet _ (fun r hr => (countDelivery_name s r).trans hr) h
  · exact hI.withdrawDelivered _ _ h
  · exact hI.queueSetVoidOutsidePurge _ (hI.becomeVoided _ (hI.withdrawDelivered _ _ h))
  · exact hI.queueSetVoidOutsidePurge _ (hI.becomeVoided _ h)
  all_goals exact h

/-! ### Entries -/

theorem SharedKeep.updateEntry (hI : SharedKeep I) (n : OrderNo) (f : Entry → Entry) {s : State} (h : I s) :
    I (updateEntry n f s) :=
  hI.same (by simp [SameHoldings]) h

theorem SharedKeep.removeHeads (hI : SharedKeep I) {s : State} (h : I s) : I (removeHeads s) :=
  hI.same (by simp [SameHoldings]) h

/-! ### The tracker -/

theorem insertExpectation_length (x : Expectation) (l : List Expectation) :
    (insertExpectation x l).length = l.length + 1 := by
  have h := congrArg List.length (List.takeWhile_append_dropWhile (p := fun y => atOrBeyond x.e y.e) (l := l))
  rw [List.length_append] at h
  rw [insertExpectation, List.length_append, List.length_cons]
  omega

theorem SharedKeep.setList (hI : SharedKeep I) (st : Station) (l : List Expectation) {s : State}
    (hl : l.length ≤ max 8 (s.trk.lists[st]).length) (h : I s) : I (setList st l s) := by
  refine hI.lists _ _ (fun i => ?_) h
  by_cases hi : st = i
  · subst hi; simpa using hl
  · have hne : st.val ≠ i.val := fun he => hi (Fin.ext he)
    have hsame : (s.trk.lists.set st l)[i] = s.trk.lists[i] := Vector.getElem_set_ne _ _ hne
    rw [hsame]
    exact Nat.le_max_right _ _

theorem SharedKeep.postVisit (hI : SharedKeep I) (tag : Tag) (k : Nat) (a : Pos) {s : State} (h : I s) :
    I (postVisit tag k a s).1 := by
  simp only [Machine.postVisit]
  (repeat' split)
  · exact h
  · exact h
  next v _ hlen => exact hI.setList _ _ (by rw [insertExpectation_length]; omega) h
  · exact h

theorem SharedKeep.freeRecord (hI : SharedKeep I) (tag : Tag) {s : State} (h : I s) : I (freeRecord tag s) := by
  have hlists := hI.lists (tabulate fun st => (s.trk.lists[st]).filter fun x => x.tag ≠ tag) s (fun st => by
    rw [show (tabulate _)[st] = _ from tabulate_getElem _ _ st.isLt]
    exact Nat.le_trans (List.length_filter_le _ _) (Nat.le_max_right _ _)) h
  exact hI.same (by simp [SameHoldings, Machine.freeRecord, syncStall]) hlists

theorem SharedKeep.startWasteTail (hI : SharedKeep I) (tag : Tag) (a : Pos) {s : State} (h : I s) :
    I (startWasteTail tag a s).1 := by
  simp only [Machine.startWasteTail]
  split
  · exact h
  · exact hI.postVisit _ _ _ (hI.same (by simp [SameHoldings]) h)

theorem SharedKeep.postAtOn (hI : SharedKeep I) (t : Tables) (r : TrackRec) (tag : Tag) (stamp : Pos) (k : Nat) {s : State}
    (h : I s) : I (postAtOn t r tag stamp k s).1 := by
  simp only [Machine.postAtOn]
  (repeat' split)
  · exact hI.startWasteTail _ _ h
  · exact h
  · exact hI.postVisit _ _ _ h
  · exact h
  · exact h

theorem SharedKeep.matchOn (hI : SharedKeep I) (st : Station) (stamp : Pos) (x : Expectation) (rest : List Expectation)
    {s : State} (hl : rest.length ≤ (s.trk.lists[st]).length) (h : I s) : I (matchOn st stamp x rest s).1 := by
  have htail : I (Machine.setList st rest (lateSettled st x s)) :=
    hI.setList st rest (Nat.le_trans (by simpa using hl) (Nat.le_max_right _ _)) (hI.same (by simp [SameHoldings]) h)
  simp only [Machine.matchOn]
  split
  · exact htail
  · exact hI.offerEvent _ _ _ _ _ (hI.postAtOn _ _ _ _ _ (hI.same (by simp [SameHoldings]) htail))

theorem SharedKeep.trackOn (hI : SharedKeep I) (st : Station) (stamp : Pos) {s : State} (h : I s) :
    I (trackOn st stamp s).1 := by
  simp only [Machine.trackOn]
  split
  · exact h
  · exact h
  next x rest _ hlist => exact hI.matchOn _ _ _ _ (by simp [hlist]) h

theorem SharedKeep.commitEntry (hI : SharedKeep I) (n : OrderNo) (detail : Byte) {s : State} (h : I s) :
    I (commitEntry n detail s) :=
  hI.offerEvent _ _ _ _ _ (hI.same (by simp [SameHoldings]) h)

theorem SharedKeep.deliverEntry (hI : SharedKeep I) (e : Entry) (kind : BinKind) {s : State} (h : I s) :
    I (deliverEntry e kind s) := by
  have hentry (f : Entry → Entry) : I (Machine.updateEntry e.order f s) := hI.updateEntry _ _ h
  simp only [Machine.deliverEntry]
  (repeat' split)
  · exact hentry _
  · exact hI.deliverToSet _ _ _ (hentry _)
  · exact hentry _
  · exact hentry _
  · exact hI.commitEntry _ _ h
  · exact hI.deliverToSet _ _ _ (hentry _)
  · exact hentry _
  · exact hI.commitEntry _ _ h
  · exact hI.deliverToSet _ _ _ (hentry _)
  · exact hentry _

theorem SharedKeep.deliver (hI : SharedKeep I) (tag : Tag) {s : State} (h : I s) : I (deliver tag s) := by
  simp only [Machine.deliver]
  split
  · exact h
  · have hfreed := hI.freeRecord tag h
    split
    · exact hfreed
    · exact hI.removeHeads (hI.deliverEntry _ _ (hI.updateEntry _ _ hfreed))

theorem SharedKeep.offAction (hI : SharedKeep I) (stamp : Pos) (o : Occupant) {s : State} (h : I s) :
    I (offAction stamp o s).1 := by
  simp only [Machine.offAction]
  split
  · exact h
  · exact hI.postVisit _ _ _ h
  · exact hI.startWasteTail _ _ h
  · exact hI.deliver _ h

theorem SharedKeep.trackOff (hI : SharedKeep I) (st : Station) (stamp : Pos) {s : State} (h : I s) :
    I (trackOff st stamp s).1 := by
  simp only [Machine.trackOff, Machine.matchOff]
  (repeat' split)
  · exact hI.same (by simp [SameHoldings]) h
  · exact hI.offAction _ _ (hI.offerEvent _ _ _ _ _ (hI.same (by simp [SameHoldings]) h))
  · exact h
  · exact h

theorem SharedKeep.takeLate (hI : SharedKeep I) (st : Station) {s : State} (h : I s) : I (takeLate st s) := by
  simp only [Machine.takeLate]
  split
  next x rest hlist =>
    refine hI.takeReports _ (hI.offerEvent _ _ _ _ _ (hI.setList _ _ ?_ (hI.same (by simp [SameHoldings]) h)))
    rw [show (lateSettled st x s).trk.lists[st] = x :: rest from hlist]
    exact Nat.le_max_right _ _
  next => exact h

theorem SharedKeep.takeStuck (hI : SharedKeep I) (st : Station) {s : State} (h : I s) : I (takeStuck st s) := by
  simp only [Machine.takeStuck]
  split
  · exact hI.takeReports _ (hI.offerEvent _ _ _ _ _ (hI.same (by simp [SameHoldings]) h))
  · exact h

theorem SharedKeep.takeDueExpiries (hI : SharedKeep I) (st : Station) {s : State} (h : I s) : I (takeDueExpiries st s) := by
  have hlate : I (if lateDue s st then Machine.takeLate st s else s) := by
    split
    · exact hI.takeLate _ h
    · exact h
  simp only [Machine.takeDueExpiries]
  generalize (if lateDue s st then Machine.takeLate st s else s) = u at hlate ⊢
  split
  · exact hI.takeStuck _ hlate
  · exact hlate

theorem SharedKeep.allocate (hI : SharedKeep I) (tag : Tag) (e : Entry) {s : State} (h : I s) : I (allocate tag e s).1 :=
  hI.postVisit _ _ _ (hI.same (by simp [SameHoldings]) h)

theorem SharedKeep.rebase (hI : SharedKeep I) {s : State} (h : I s) : I (rebase s) := by
  have hlists := hI.lists (tabulate fun st => (s.trk.lists[st]).map fun x =>
    { x with e := x.e + (s.pos.p - s.trk.notedP.getD s.pos.p), early := x.early + (s.pos.p - s.trk.notedP.getD s.pos.p),
             late := x.late + (s.pos.p - s.trk.notedP.getD s.pos.p), spent := false }) s (fun st => by
    rw [show (tabulate _)[st] = _ from tabulate_getElem _ _ st.isLt, List.length_map]
    exact Nat.le_max_right _ _) h
  exact hI.same (by simp [SameHoldings, Machine.rebase]) hlists

/-! ### Plans and replay -/

theorem nextPlanNumber_ne_zero (counter : Byte) : nextPlanNumber counter ≠ 0 := by
  simp only [nextPlanNumber]
  split
  · decide
  · intro h
    bv_omega

theorem SharedKeep.formPlan (hI : SharedKeep I) (p : PlanRec) {s : State} (h : I s) : I (formPlan p s) :=
  hI.offerEvent _ _ _ _ _ (hI.same (by simp [SameHoldings])
    (hI.formed { p with number := nextPlanNumber s.plan.counter, isOpen := true } s (nextPlanNumber_ne_zero _) h))

theorem SharedKeep.clearMarks (hI : SharedKeep I) {s : State} (h : I s) : I (clearMarks s) :=
  hI.same (by simp [SameHoldings]) h

theorem SharedKeep.foreignSheet (hI : SharedKeep I) (st : Station) (at_ : Pos) {s : State} (h : I s) :
    I (foreignSheet st at_ s) :=
  hI.enterState _ _ (hI.formPlan _ (hI.clearMarks (hI.makeNotice _ h)))

theorem SharedKeep.idleOrForeign (hI : SharedKeep I) {s : State} (h : I s) : I (idleOrForeign s) := by
  simp only [Machine.idleOrForeign]
  split
  · exact hI.enterState _ _ h
  · exact hI.foreignSheet _ _ h

theorem SharedKeep.fold (f : State → α → State) (hf : ∀ s a, I s → I (f s a)) (l : List α) {s : State} (h : I s) :
    I (l.foldl f s) := by
  induction l generalizing s with
  | nil => exact h
  | cons a l ih => exact ih (hf s a h)

theorem SharedKeep.snapshot (hI : SharedKeep I) {s : State} (h : I s) : I (snapshot s) := by
  have hmarks : I (applyMarks s) := by
    have hrecords := hI.mapRecords (f := uncountDelivered s) (fun _ => rfl) h
    exact hI.same (by simp [SameHoldings, applyMarks]) hrecords
  have hvoided := SharedKeep.fold _ (fun u n hu => hI.becomeVoided n hu) (voidedNow s) hmarks
  have hfreed := SharedKeep.fold _ (fun u t hu => hI.freeRecord t hu) (lostTags s) hvoided
  have hcauses := hI.causes [] _ (by simp) hfreed
  refine hI.enterState _ _ (SharedKeep.fold _ (fun u r hu => hI.releaseSet r hu) _ (hI.formPlan _ ?_))
  exact hI.same (by simp [SameHoldings]) hcauses

theorem SharedKeep.settleDeferred (hI : SharedKeep I) {s : State} (h : I s) : I (settleDeferred s) := by
  refine SharedKeep.fold _ (fun u c hu => ?_) _ (hI.deferred [] s (by simp) h)
  split
  · exact hI.takeCause c hu
  · exact hu

theorem SharedKeep.returnEntries (hI : SharedKeep I) {s : State} (h : I s) : I (returnEntries s) := by
  have hrecords := hI.mapRecords (f := SetRec.replayed s.tables s.ret.entries) (by simp) h
  have hclosed := hI.closed (s.plan.plan.map fun p => { p with isOpen := false }) _ (by
    intro p hp
    obtain ⟨q, hq, rfl⟩ := Option.map_eq_some_iff.1 hp
    exact ⟨q, hq, rfl⟩) hrecords
  exact hI.same (by simp [SameHoldings, Machine.returnEntries, closePlan, rebuildSets]) hclosed

theorem SharedKeep.replay (hI : SharedKeep I) {s : State} (h : I s) : I (replay s) :=
  hI.forwarderPass (hI.settleDeferred (hI.enterChosen (hI.returnEntries h)))

theorem SharedKeep.startVoidPhase (hI : SharedKeep I) {s : State} (h : I s) : I (startVoidPhase s) :=
  hI.same (by simp [SameHoldings, Machine.startVoidPhase, queueSetVoid_fold _ _ _ rfl]) h

theorem SharedKeep.endDriveOut (hI : SharedKeep I) {s : State} (h : I s) : I (endDriveOut s) := by
  simp only [Machine.endDriveOut]
  split
  · exact hI.replay h
  · exact hI.startVoidPhase h

theorem SharedKeep.acceptResume (hI : SharedKeep I) {s : State} (h : I s) : I (acceptResume s) := by
  have hrun : I (queueControl .run s) := hI.same (by simp [SameHoldings]) h
  simp only [Machine.acceptResume]
  split
  · refine hI.settleDeferred (hI.enterState _ _ (hI.rebase ?_))
    exact hI.same (by simp [SameHoldings, queueControl_fold _ _ _ rfl]) hrun
  · exact hI.settleDeferred (hI.enterState _ _ (hI.startVoidPhase hrun))
  · exact hI.replay hrun

theorem SharedKeep.afterTracking (hI : SharedKeep I) {x : State × List Report} (h : I x.1) : I (afterTracking x) := by
  have hreports := hI.takeReports x.2 h
  simp only [Machine.afterTracking]
  split
  · exact hI.endDriveOut hreports
  · exact hI.forwarderPass hreports

theorem SharedKeep.handEdge (hI : SharedKeep I) (st : Station) (covered : Bool) (stamp : Pos) {s : State} (h : I s) :
    I (handEdge st covered stamp s) := by
  simp only [Machine.handEdge]
  (repeat' split)
  · exact hI.foreignSheet _ _ h
  · exact hI.same (by simp [SameHoldings]) (hI.afterTracking (hI.trackOn st stamp h))
  · exact hI.afterTracking (hI.trackOff st stamp h)
  · exact h

/-! ### Frames and requests -/

theorem SharedKeep.discardFrame (hI : SharedKeep I) (port : Port) (reason : LinkReason) (kind : Option Byte) {s : State}
    (h : I s) : I (discardFrame port reason kind s) := by
  have herror := hI.makeLinkError port reason (kind.getD 0) h
  simp only [Machine.discardFrame]
  split
  · exact herror
  · exact hI.offerEvent _ _ _ _ _ herror

/-- The record of a set that its first member opens (R140). -/
def openedSet (name : SetName) (n : OrderNo) : SetRec :=
  { name := name, first := n, last := none, members := 1, delivered := 0, state := .opened, cancelled := false,
    rebuilt := false, deadline := none }

theorem acceptMember_first {name : SetName} {n : OrderNo} {setLast : Bool} {s : State} (h : s.ret.receiving = none) :
    acceptMember name n setLast s =
      let s1 := { s with sets.records := s.sets.records ++ [openedSet name n] }
      if setLast then { updateSet name (fun r => { r with last := some n }) s1 with ret.receiving := none }
      else { s1 with ret.receiving := some name } := by
  simp only [acceptMember, h]
  rfl

theorem acceptMember_later {name m : SetName} {n : OrderNo} {setLast : Bool} {s : State} (h : s.ret.receiving = some m) :
    acceptMember name n setLast s =
      let s1 := updateSet name (fun r => { r with members := r.members + 1 }) s
      if setLast then { updateSet name (fun r => { r with last := some n }) s1 with ret.receiving := none }
      else { s1 with ret.receiving := some name } := by
  simp only [acceptMember, h]

/-- Acceptance of a member, where a set that it opens finds a free record and none of its name (R39, R140). -/
theorem SharedKeep.acceptMember (hI : SharedKeep I) (name : SetName) (n : OrderNo) (setLast : Bool) {s : State}
    (hnew : s.ret.receiving = none → s.sets.records.length < 8 ∧ findSet s name = none) (h : I s) :
    I (acceptMember name n setLast s) := by
  have hend (u : State) (hu : I u) :
      I (if setLast then { Machine.updateSet name (fun r => { r with last := some n }) u with ret.receiving := none }
        else { u with ret.receiving := some name }) := by
    split
    · exact hI.same (by simp [SameHoldings]) (hI.updateSet name (f := fun r => { r with last := some n }) (by simp) hu)
    · exact hI.same (by simp [SameHoldings]) hu
  rcases hr : s.ret.receiving with _ | m
  · rw [acceptMember_first hr]
    exact hend _ (hI.opened (openedSet name n) s (hnew hr).1 (hnew hr).2 h)
  · rw [acceptMember_later hr]
    exact hend _ (hI.updateSet name (by simp) h)

/-- The set part of acceptance: the order has passed the set check of R39. -/
theorem SharedKeep.joinSet (hI : SharedKeep I) {e : Entry} {s : State}
    (hset : setRefused s (s.tables.routes[e.route]).bin e.set e.setLast = false) (h : I s) : I (joinSet e s) := by
  simp only [Machine.joinSet]
  split
  next name hname =>
    refine hI.acceptMember name e.order e.setLast (fun hr => ?_) h
    obtain ⟨n, hn, rfl⟩ : ∃ n, e.set = some n ∧ { bin := (s.tables.routes[e.route]).bin, set := n } = name := by
      simpa [entrySet] using hname
    simp [setRefused, hn, hr] at hset
    simpa [Nat.not_le] using hset.2.symm
  next => exact h

theorem SharedKeep.takeOrder (hI : SharedKeep I) (o : OrderFields) {s : State} (h : I s) : I (takeOrder o s) := by
  have hwake := hI.wakeToIdle h
  simp only [Machine.takeOrder]
  split
  · exact hI.makeNotice _ hwake
  next e he =>
    obtain ⟨-, -, -, -, r, c, -, hset, rfl⟩ := checkOrder_eq_ok he
    have hentry : I { Machine.wakeToIdle s with
        ret.entries := (Machine.wakeToIdle s).ret.entries ++ [entryOf o r c]
        ret.expected := some ((entryOf o r c).order + 1) } := hI.same (by simp [SameHoldings]) hwake
    refine hI.forwarderPass (hI.same (by simp [SameHoldings, acceptEntry]) (hI.joinSet (e := entryOf o r c) ?_ hentry))
    exact hset

theorem SharedKeep.takeCredit (hI : SharedKeep I) (limit : Byte) {s : State} (h : I s) : I (takeCredit limit s) := by
  simp only [Machine.takeCredit]
  split
  · exact h
  · exact hI.forwarderPass (hI.same (by simp [SameHoldings]) h)

theorem SharedKeep.takePick (hI : SharedKeep I) (n : OrderNo) {s : State} (h : I s) : I (takePick n s) := by
  simp only [Machine.takePick]
  split
  · exact hI.afterTracking (hI.allocate _ _ (hI.offerEvent _ _ _ _ _ h))
  · exact hI.offerEvent _ _ _ _ _ (hI.makeNotice _ h)

theorem SharedKeep.takeSpeedReady (hI : SharedKeep I) (cls : Byte) {s : State} (h : I s) : I (takeSpeedReady cls s) := by
  simp only [Machine.takeSpeedReady]
  split
  · exact hI.forwarderPass (hI.enterChosen (hI.same (by simp [SameHoldings]) h))
  · exact hI.makeNotice _ h

theorem SharedKeep.confirmSet (hI : SharedKeep I) {r : SetRec} {s t : State} (h : I s) (ht : confirmSet r s = some t) : I t := by
  obtain ⟨-, rfl⟩ := confirmSet_eq_some ht
  have hmembers : I (commitMembers r s) :=
    SharedKeep.fold commitMember (fun u e hu => hI.commitEntry e.order 1 hu) (membersWhere s r fun st => st = .delivered) h
  exact hI.same (by simp [SameHoldings]) (hI.freeSet r.name hmembers)

theorem SharedKeep.faultSet (hI : SharedKeep I) (n : SetName) {s : State} (h : I s) : I (faultSet n s) :=
  hI.takeCause _ (hI.updateSet n (by simp) h)

theorem SharedKeep.clearSet (hI : SharedKeep I) {r : SetRec} {s t : State} (h : I s) (ht : clearSet r s = some t) : I t := by
  obtain ⟨-, rfl⟩ := clearSet_eq_some ht
  have hcleared : I (settleCleared r (withdrawSetVoid r.name s)) := by
    have hwithdrawn : I { withdrawSetVoid r.name s with sets.voidOrder := s.sets.voidOrder.filter fun n => n ≠ r.name } :=
      hI.same (by simp [SameHoldings]) h
    simp only [settleCleared]
    split
    · exact hI.updateSet _ (by simp) hwithdrawn
    · exact hI.releaseSet _ hwithdrawn
  simp only [leaveOutstanding]
  (repeat' split)
  · exact hI.replay (hI.same (by simp [SameHoldings]) hcleared)
  · exact hI.same (by simp [SameHoldings]) hcleared
  · exact hcleared
  · exact hcleared

theorem SharedKeep.skipOrder (hI : SharedKeep I) (n : OrderNo) {s : State} (h : I s) : I (skipOrder n s).1 := by
  simp only [Machine.skipOrder]
  split
  · exact hI.afterWithdrawal _ (hI.same (by simp [SameHoldings]) h)
  · exact h

theorem SharedKeep.cancelJob (hI : SharedKeep I) (job : Word) {s : State} (h : I s) : I (cancelJob job s).1 := by
  have hentries : I (cancelEntries job s) := by
    have hrecords := hI.mapRecords (f := fun r => if isSetOfJob s job r then cancelRecord s job r else r)
      (fun r => by split <;> rfl) h
    exact hI.same (by simp [SameHoldings, cancelEntries]) hrecords
  have hvoided := SharedKeep.fold (fun u (r : SetRec) => voidByCancel r.name u)
    (fun u r hu => hI.same (by simp [SameHoldings, voidByCancel]) (hI.becomeVoided r.name hu))
    ((setsOfJob s job).filter (isVoidedByCancel s)) hentries
  have hfreed := SharedKeep.fold (fun u (r : SetRec) => freeIfEmpty r.name u) (fun u r hu => by
    simp only [freeIfEmpty]
    (repeat' split)
    · exact hI.freeSet _ hu
    · exact hu
    · exact hu) (setsOfJob s job) hvoided
  exact hI.afterWithdrawal _ (hI.same (by simp [SameHoldings]) hfreed)

theorem SharedKeep.resume (hI : SharedKeep I) (number : Byte) {s : State} (h : I s) : I (resume number s).state := by
  simp only [Machine.resume]
  (repeat' split)
  case h_2 => exact hI.acceptResume h
  case h_2.isTrue => exact hI.forwarderPass (hI.enterState _ _ (hI.same (by simp [SameHoldings]) h))
  all_goals exact h

theorem SharedKeep.goStandby (hI : SharedKeep I) {s : State} (h : I s) : I (goStandby s).state := by
  simp only [Machine.goStandby]
  (repeat' split)
  · exact h
  · exact hI.enterState _ _ h
  · exact h

theorem SharedKeep.goWake (hI : SharedKeep I) {s : State} (h : I s) : I (goWake s).state := by
  simp only [Machine.goWake]
  split
  · exact hI.enterState _ _ h
  · exact h

theorem SharedKeep.pathLostStop (hI : SharedKeep I) {s : State} (h : I s) : I (pathLostStop s) := by
  have hstop := hI.enterState .stopping _
    (hI.announceCause .declared 1 (pathLostCause s) (hI.startCauses (pathLostCause s) h))
  exact hI.same (by simp [SameHoldings, Machine.pathLostStop]) hstop

theorem SharedKeep.linkReset (hI : SharedKeep I) {s : State} (h : I s) : I (linkReset s) := by
  have hlists := hI.lists Tracker.empty.lists s (fun st => by simp [Tracker.empty]) h
  have hcauses := hI.causes [] _ (by simp) hlists
  have hdeferred := hI.deferred [] _ (by simp) hcauses
  have hrecords := hI.records [] _ (by simp) hdeferred
  have hplan := hI.closed none _ (by simp) hrecords
  have hdiscarded : I (syncStall false (makeCredit (requestHalt (discardJob s)))) :=
    hI.same (by simp [SameHoldings, discardJob, Tracker.empty, Jam.empty, SetMonitor.empty]) hplan
  simp only [Machine.linkReset, afterLinkReset]
  (repeat' split)
  · exact hI.enterState _ _ hdiscarded
  · exact hI.pathLostStop hdiscarded
  · exact hI.idleOrForeign hdiscarded

end Sys2Proof.Machine
end

