-- ==== Sys2Proof/Proofs/HoldingLimits.lean ====
section
/-! SUPPORT. Three further invariants are kept by every step: the sensing (R12, R25, R28), the queues of the ports (R86, R170 to
R178), and the limits of what the part holds beside the link (R60, R90, R96, R101, R139). -/

namespace Sys2Proof.Machine

/-! ### From the shared operations to the commands -/

/-- A property that the sensing, the tables, the resets and the transmitters keep, beside the shared operations. -/
structure PinsKeep (I : State → Prop) : Prop where
  finish : ∀ s, I s → I (finish s)
  wholeReset : ∀ cause s, I s → I (wholeReset cause s)
  breakTaken : ∀ s, I s → I (breakTaken s)
  applyTables : ∀ t s, I s → I (applyTables t s)
  storeStation : ∀ i r s, I s → I (storeStation i r s)
  stationRaw : ∀ (st : Station) raw s, I s → I (setSense st { s.front.stations[st] with raw := raw } s)
  sensed : ∀ (st : Station) x s, (s.tables.stations[st]).defined = true ∨ (s.front.stations[st]).pending.isSome = true → I s →
    I (setSense st x s)
  emitted : ∀ emit since s, s.sup.state = .standby → I s → I { s with front.emit := emit, front.emitFrom := since }
  sampleAll : ∀ s, s.sup.state = .standby → I s → I (sampleAll s)

variable {I : State → Prop}

theorem SharedKeep.acceptLevel (hI : SharedKeep I) (hP : PinsKeep I) {st : Station} (covered : Bool) (stamp : Pos) (detail : Byte)
    {s : State} (hst : (s.tables.stations[st]).defined = true ∨ (s.front.stations[st]).pending.isSome = true) (h : I s) :
    I (acceptLevel st covered stamp detail s) :=
  hI.offerEvent _ _ _ _ _ (hP.sensed _ _ _ hst h)

theorem defined_of_continuous {s : State} {st : Station} (h : continuous s st = true) :
    (s.tables.stations[st]).defined = true := by
  simp only [continuous, Bool.and_eq_true] at h
  exact h.1

theorem SharedKeep.followRaw (hI : SharedKeep I) (hP : PinsKeep I) (st : Station) {s : State} (hc : continuous s st = true)
    (h : I s) : I (followRaw st s) := by
  have hst := Or.inl (b := (s.front.stations[st]).pending.isSome = true) (defined_of_continuous hc)
  simp only [Machine.followRaw]
  (repeat' split)
  · exact hI.takeDueExpiries _ (hP.sensed _ _ _ hst h)
  · exact h
  · exact h
  · exact hP.sensed _ _ _ hst h

theorem SharedKeep.endAutoload (hI : SharedKeep I) (hP : PinsKeep I) (image : List Word) {s : State} (h : I s) :
    I (endAutoload image s) := by
  have htransfer : I (endTransfer image s) := hI.same (by simp [SameHoldings, endTransfer])
    (hP.applyTables (loadWords ((imageWords image 1173).drop s.load.reading.count) (s.load.reading, s.tables)).2 s h)
  have hload : I (queueControl .linkStart (Machine.applyTables (loadEnd (endTransfer image s).load.reading
      (endTransfer image s).tables) (endTransfer image s))) :=
    hI.same (by simp [SameHoldings, queueControl]) (hP.applyTables (loadEnd (endTransfer image s).load.reading
      (endTransfer image s).tables) _ htransfer)
  simp only [Machine.endAutoload]
  split
  · exact hI.idleOrForeign hload
  · exact hI.enterState _ _ hload

theorem SharedKeep.holdService (hI : SharedKeep I) (payload : List Byte) {s : State} (h : I s) : I (holdService payload s) := by
  simp only [Machine.holdService]
  (repeat' split)
  · exact hI.serviceNotice _ _ h
  · exact hI.serviceNotice _ _ h
  · exact hI.same (by simp [SameHoldings]) h

theorem SharedKeep.joinCommands (hI : SharedKeep I) (c : Command) {s : State} (h : I s) : I (joinCommands c s) := by
  simp only [Machine.joinCommands]
  split
  · exact hI.same (by simp [SameHoldings]) h
  · exact hI.makeLinkError _ _ _ h

theorem SharedKeep.holdUpper (hI : SharedKeep I) (payload : List Byte) {s : State} (h : I s) : I (holdUpper payload s) := by
  simp only [Machine.holdUpper]
  (repeat' split)
  · exact hI.makeLinkError _ _ _ h
  · exact hI.same (by simp [SameHoldings]) h
  · exact hI.makeLinkError _ _ _ h

theorem SharedKeep.forwardUp (hI : SharedKeep I) (kind : Byte) (payload : List Byte) {s : State} (h : I s) :
    I (forwardUp kind payload s) := by
  simp only [Machine.forwardUp]
  split
  · exact hI.same (by simp [SameHoldings]) h
  · exact hI.makeLinkError _ _ _ h

/-- A property that the shared operations, the pins and the transmitters keep is kept by every effect. -/
theorem SharedKeep.effectsKeep (hI : SharedKeep I) (hP : PinsKeep I) : EffectsKeep I := by
  constructor
  case finish => exact hP.finish
  case breakTaken => exact hP.breakTaken
  case endAutoload => exact fun image s h => hI.endAutoload hP image h
  case startVoidTimer =>
    intro n s h
    exact hI.updateSet n (fun r hr => by split <;> exact hr) h
  case discardFrame => exact fun port reason kind s h => hI.discardFrame port reason kind h
  case makeLinkError => exact fun port reason third s h => hI.makeLinkError port reason third h
  case joinCommands => exact fun c s h => hI.joinCommands c h
  case holdUpper => exact fun payload s h => hI.holdUpper payload h
  case forwardUp => exact fun kind payload s h => hI.forwardUp kind payload h
  case holdService => exact fun payload s h => hI.holdService payload h
  case takeOrder => exact fun o s h => hI.takeOrder o h
  case takeCredit => exact fun limit s h => hI.takeCredit limit h
  case takePick => exact fun n s h => hI.takePick n h
  case takeSpeedReady => exact fun cls s h => hI.takeSpeedReady cls h
  case confirmSet => exact fun r s t h ht => hI.confirmSet h ht
  case faultSet => exact fun n s h => hI.faultSet n h
  case clearSet => exact fun r s t h ht => hI.clearSet h ht
  case stationRaw => exact hP.stationRaw
  case followRaw => exact fun st s hc h => hI.followRaw hP st hc h
  case acceptedEdge =>
    exact fun st covered stamp s hc h =>
      hI.handEdge _ _ _ (hI.acceptLevel hP _ _ _ (Or.inl (defined_of_continuous hc)) h)
  case emitPulse => exact fun s hs h => hP.emitted _ _ s hs h
  case sampleAll => exact hP.sampleAll
  case takeDueExpiries => exact fun st s h => hI.takeDueExpiries st h
  case handSample => exact fun s x h => hI.handEdge _ _ _ (hI.offerEvent _ _ _ _ _ h)
  case takeCause => exact fun c s h => hI.takeCause c h
  case takeLate => exact fun st s h => hI.takeLate st h
  case takeStuck => exact fun st s h => hI.takeStuck st h
  case snapshot => exact fun s h => hI.snapshot h
  case speedHeld => exact fun n s h => hI.enterHeld _ _ (hI.same (by simp [SameHoldings]) h)
  all_goals
    intros
    refine hI.same ?_ (by assumption)
    simp [SameHoldings]

theorem SharedKeep.afterWrite (hI : SharedKeep I) {s : State} (h : I s) : I (afterWrite s) := by
  have hchecked : I { s with tables.checked := false } := hI.same (by simp [SameHoldings]) h
  simp only [Machine.afterWrite]
  split
  · exact hI.enterState _ _ hchecked
  · exact hchecked

theorem SharedKeep.writeTable (hI : SharedKeep I) {record : Option (State × List Byte)} {s : State} (h : I s)
    (hr : ∀ x ∈ record, I x.1) : I (writeTable record s).state := by
  simp only [Machine.writeTable]
  split
  · exact h
  · split
    · exact h
    · exact hI.afterWrite (hr _ rfl)

theorem SharedKeep.writeMapped (hI : SharedKeep I) {α : Type} {parsed : Option α} {store : α → State × List Byte} {s : State}
    (h : I s) (hstore : ∀ a, I (store a).1) : I (Machine.writeTable (parsed.map store) s).state := by
  refine hI.writeTable h fun x hx => ?_
  obtain ⟨a, -, rfl⟩ := Option.map_eq_some_iff.mp hx
  exact hstore a

theorem SharedKeep.writeStation (hI : SharedKeep I) (hP : PinsKeep I) (args : List Byte) {s : State} (h : I s) :
    I (writeStation args s).state := by
  simp only [Machine.writeStation]
  split
  next i r _ =>
    have hw : I (Machine.writeTable (some (storeStation i r s, stationBytes i r)) s).state :=
      hI.writeTable h fun x hx => by cases hx; exact hP.storeStation _ _ _ h
    split
    · simp only [acceptAtWrite]
      (repeat' split)
      next hc _ => exact hI.acceptLevel hP _ _ _ (Or.inr (by rw [hc]; rfl)) hw
      · exact hw
      · exact hw
    · exact hw
  next => exact hI.writeTable h (by simp)

/-- A property that the shared operations and the pins keep is kept by every act. -/
theorem SharedKeep.actsKeep (hI : SharedKeep I) (hP : PinsKeep I) : ActsKeep I := by
  constructor
  case writeStation => exact fun args s h => hI.writeStation hP args h
  case writeZone => exact fun args s h => hI.writeMapped h fun _ => hI.same (by simp [SameHoldings, storeZone]) h
  case writeBin => exact fun args s h => hI.writeMapped h fun _ => hI.same (by simp [SameHoldings, storeBin]) h
  case writeRoute => exact fun args s h => hI.writeMapped h fun _ => hI.same (by simp [SameHoldings, storeRoute]) h
  case writeLimits => exact fun args s h => hI.writeMapped h fun _ => hI.same (by simp [SameHoldings]) h
  case checkTables =>
    intro s h
    simp only [checkTables, tablesPass]
    (repeat' split)
    · exact h
    · exact h
    · exact hI.idleOrForeign (hI.same (by simp [SameHoldings]) h)
    · exact h
  case resume => exact fun number s h => hI.resume number h
  case skipOrder => exact fun n s h => hI.skipOrder n (hI.wakeToIdle h)
  case cancelJob => exact fun job s h => hI.cancelJob job (hI.wakeToIdle h)
  case goStandby => exact fun s h => hI.goStandby h
  case goWake => exact fun s h => hI.goWake h
  case claimCapture =>
    intro port force s h
    simp only [claimCapture, claimed]
    (repeat' split) <;> exact hI.same (by simp [SameHoldings]) h
  case releaseCapture =>
    intro port s h
    simp only [releaseCapture]
    split <;> exact hI.same (by simp [SameHoldings]) h
  case armCapture =>
    intro port args s h
    simp only [armCapture]
    (repeat' split) <;> exact hI.same (by simp [SameHoldings]) h

theorem SharedKeep.resetsKeep (hI : SharedKeep I) (hP : PinsKeep I) : ResetsKeep I where
  wholeReset := hP.wholeReset
  linkReset _ h := hI.linkReset h

theorem SharedKeep.portStable (hI : SharedKeep I) (hP : PinsKeep I) : PortStable I where
  finish := hP.finish
  takeRequest port s h := hI.same (by cases port <;> simp [SameHoldings, takeRequest]) h
  putReply port r s h := hI.same (by cases port <;> simp [SameHoldings, putReply]) h

theorem SharedKeep.period (hI : SharedKeep I) (hP : PinsKeep I) {s : State} (h : I s) : I (period s) := by
  have htick : I (tick s) := hI.same (by simp [SameHoldings, tick]) h
  have hword (w : Word) (u : State) (hu : I u) : I (takeWord w u) :=
    hI.same (by simp [SameHoldings, takeWord]) (hP.applyTables (loadWord (u.load.reading, u.tables) w).2 u hu)
  have hsample (i : Nat) (u : State) (hu : I u) : I (sampleMdi i u) := by
    simp only [sampleMdi]
    generalize (u.load.shift <<< 1) ||| (if mdiLevel u.load.memory i then 1 else 0) = w
    have hshift : I { u with load.shift := w } := hI.same (by simp [SameHoldings]) hu
    split
    · exact hword w _ hshift
    · exact hshift
  have hpins (n : Nat) (mclk mdo : Bool) :
      I { tick s with load.periods := n, load.mclk := mclk, load.mdo := mdo } := hI.same (by simp [SameHoldings]) htick
  simp only [Machine.period, loaderPeriod]
  (repeat' split)
  · exact hsample _ _ (hpins _ _ _)
  · exact hpins _ _ _
  · exact htick

/-- A property that the shared operations and the pins keep is kept by every step. -/
theorem SharedKeep.step (hI : SharedKeep I) (hP : PinsKeep I) {s t : State} (hs : I s) (h : step s = .next t) : I t :=
  step_keeps (fun _ _ hu => hI.same (by simp [SameHoldings]) hu) (fun _ hu => hI.period hP hu)
    (fun _ _ hu => exec_keeps (hI.portStable hP) (hI.effectsKeep hP) (hI.actsKeep hP) (fun _ => hI.resetsKeep hP) hu) hs h

/-! ### The sensing -/

theorem SensingInv.congr {s t : State} (h : SensingInv s) (htables : t.tables.stations = s.tables.stations)
    (hstations : t.front.stations = s.front.stations) (hemit : t.front.emit = s.front.emit)
    (hstate : t.sup.state = s.sup.state) : SensingInv t := by
  simpa [SensingInv, htables, hstations, hemit, hstate] using h

theorem SensingInv.enterState {s : State} (st : PartState) (h : SensingInv s) : SensingInv (enterState st s) := by
  obtain ⟨hlevels, hemit⟩ := h
  by_cases hs : s.sup.state = st
  · rw [enterState_same st s hs]
    exact ⟨hlevels, hemit⟩
  · have hfront : (Machine.enterState st s).front = (enterSensing st s).front := by
      simp [Machine.enterState, hs]
    rw [SensingInv, hfront, enterState_state]
    by_cases hstandby : s.sup.state = .standby
    · refine ⟨fun i hi => ?_, fun _ => by simp [enterSensing, hstandby, endSampling]⟩
      have hi : (s.tables.stations[i]).defined = false := by simpa using hi
      have hlevel := hlevels i hi
      simp_all [enterSensing, endSampling]
    · by_cases hto : st = .standby
      · refine ⟨fun i hi => ?_, fun hne => absurd hto hne⟩
        have hi : (s.tables.stations[i]).defined = false := by simpa using hi
        have hlevel := hlevels i hi
        simp_all [enterSensing, beginSampling]
      · simpa [enterSensing, hstandby, hto, hemit hstandby] using hlevels

theorem sharedKeep_sensing : SharedKeep SensingInv where
  same hsame h := by
    obtain ⟨htables, hstations, hemit, -, -, -, -, -, hstate, -⟩ := hsame
    exact h.congr htables hstations hemit hstate
  serviceNotice n s h := h.congr (by simp) (by simp) (by simp) (by simp)
  enterState st s h := h.enterState st
  lists _ _ _ h := h
  causes _ _ _ h := h
  deferred _ _ _ h := h
  records _ _ _ h := h
  opened _ _ _ _ h := h
  formed _ _ _ h := h
  closed _ _ _ h := h

/-- A station table with the sensing that follows from it leaves no level and no pending change at an undefined station. -/
theorem senseAfterWrite_undefined {old new : StationRec} (x : StationSense) (h : new.defined = false) :
    (senseAfterWrite old new x).qual = false ∧ (senseAfterWrite old new x).pending = none := by
  simp [senseAfterWrite, h, StationSense.undefine]

theorem setSense_getElem (st i : Station) (x : StationSense) (s : State) :
    (setSense st x s).front.stations[i] = if st = i then x else s.front.stations[i] := by
  simp [Vector.getElem_set, Fin.ext_iff]

theorem pinsKeep_sensing : PinsKeep SensingInv where
  finish s h := h.congr (by simp) (by simp) (by simp) (by simp)
  wholeReset cause s _ := by
    simp only [wholeReset]
    split <;> simp [SensingInv, State.reset, FrontEnd.initial, StationSense.initial]
  breakTaken s h := h
  applyTables t s h := by
    refine ⟨fun st hst => ?_, h.2⟩
    rw [applyTables_stations]
    exact senseAfterWrite_undefined _ hst
  storeStation i r s h := by
    refine ⟨fun st hst => ?_, by simpa [storeStation] using h.2⟩
    simp only [storeStation, setSense_getElem]
    by_cases hi : i = st
    · subst hi
      have hr : r.defined = false := by simpa [storeStation] using hst
      simp [senseAfterWrite_undefined _ hr]
    · have hne : i.val ≠ st.val := fun he => hi (Fin.ext he)
      have hold : (s.tables.stations[st]).defined = false := by
        simpa [storeStation, Vector.getElem_set, hne] using hst
      simpa [hi] using h.1 st hold
  stationRaw st raw s h := by
    refine ⟨fun i hi => ?_, by simpa using h.2⟩
    rw [setSense_getElem]
    have hi := h.1 i (by simpa using hi)
    split
    next he => subst he; exact hi
    next => exact hi
  sensed st x s hst h := by
    refine ⟨fun i hi => ?_, by simpa using h.2⟩
    have hi : (s.tables.stations[i]).defined = false := by simpa using hi
    rw [setSense_getElem]
    split
    next he =>
      subst he
      have hlevel := h.1 st hi
      simp_all
    next => exact h.1 i hi
  emitted emit since s hs h := ⟨h.1, fun hne => absurd hs hne⟩
  sampleAll s hs h := by
    refine ⟨fun i hi => ?_, fun hne => absurd hs hne⟩
    have hlevel := h.1 i hi
    have hi : (s.tables.stations[i.val]).defined = false := hi
    simpa [sampleAll, hi] using hlevel

/-- Settles O8: the shared operations and the pins keep the invariant. -/
theorem undefinedStationsSenseNothing : Obligations.UndefinedStationsSenseNothing :=
  fun _ _ hs h => sharedKeep_sensing.step pinsKeep_sensing hs h

/-! ### The holdings -/

theorem HoldingInv.same {s t : State} (h : HoldingInv s) (hlists : t.trk.lists = s.trk.lists) (hjam : t.jam.causes = s.jam.causes)
    (hdeferred : t.jam.deferred = s.jam.deferred) (hrecords : t.sets.records = s.sets.records) (hplan : t.plan = s.plan) :
    HoldingInv t := by
  simpa [HoldingInv, hlists, hjam, hdeferred, hrecords, hplan] using h

theorem sharedKeep_holding : SharedKeep HoldingInv where
  same hsame h := by
    obtain ⟨-, -, -, hlists, hcauses, hdeferred, hrecords, hplan, -, -⟩ := hsame
    exact h.same hlists hcauses hdeferred hrecords hplan
  serviceNotice n s h := h.same (by simp) (by simp) (by simp) (by simp) (by simp)
  enterState st s h := h.same (by simp) (by simp) (by simp) (by simp) (by simp)
  lists l s hl h := by
    obtain ⟨hlists, hrest⟩ := h
    exact ⟨fun st => Nat.le_trans (hl st) (Nat.max_le.2 ⟨Nat.le_refl _, hlists st⟩), hrest⟩
  causes cs s hcs h := by
    obtain ⟨hlists, hcauses, hrest⟩ := h
    exact ⟨hlists, Nat.le_trans hcs (Nat.max_le.2 ⟨Nat.le_refl _, hcauses⟩), hrest⟩
  deferred ds s hds h := by
    obtain ⟨hlists, hcauses, hdeferred, hrest⟩ := h
    exact ⟨hlists, hcauses, Nat.le_trans hds (Nat.max_le.2 ⟨Nat.le_refl _, hdeferred⟩), hrest⟩
  records rs s hrs h := by
    obtain ⟨hlists, hcauses, hdeferred, hlen, hnodup, hplan⟩ := h
    have hle : rs.length ≤ s.sets.records.length := by simpa using hrs.length_le
    exact ⟨hlists, hcauses, hdeferred, Nat.le_trans hle hlen, hnodup.sublist hrs, hplan⟩
  opened r s hlt hnone h := by
    obtain ⟨hlists, hcauses, hdeferred, -, hnodup, hplan⟩ := h
    have hfresh : r.name ∉ s.sets.records.map (·.name) := by
      simpa [findSet] using hnone
    refine ⟨hlists, hcauses, hdeferred, by simp; omega, ?_, hplan⟩
    simpa [List.nodup_append, hnodup] using fun x hx he => hfresh (List.mem_map.2 ⟨x, hx, he⟩)
  formed p s hp h := by
    obtain ⟨hlists, hcauses, hdeferred, hlen, hnodup, -⟩ := h
    exact ⟨hlists, hcauses, hdeferred, hlen, hnodup, fun q hq => by cases hq; exact ⟨rfl, hp⟩⟩
  closed x s hx h := by
    obtain ⟨hlists, hcauses, hdeferred, hlen, hnodup, hplan⟩ := h
    refine ⟨hlists, hcauses, hdeferred, hlen, hnodup, fun p hp => ?_⟩
    obtain ⟨q, hq, hnumber⟩ := hx p hp
    rw [hnumber]
    exact hplan q hq

theorem pinsKeep_holding : PinsKeep HoldingInv where
  finish s h := h.same (by simp) (by simp) (by simp) (by simp) (by simp)
  wholeReset cause s _ := by
    simp only [wholeReset]
    split <;> simp [HoldingInv, State.reset, Tracker.empty, Jam.empty, SetMonitor.empty]
  breakTaken s h := h
  applyTables t s h := h
  storeStation i r s h := h
  stationRaw st raw s h := h
  sensed st x s _ h := h
  emitted emit since s _ h := h
  sampleAll s _ h := h

/-- Settles O10: the shared operations keep the limits, and nothing else touches the holdings. -/
theorem holdingsKeepTheirLimits : Obligations.HoldingsKeepTheirLimits :=
  fun _ _ hs h => sharedKeep_holding.step pinsKeep_holding hs h

/-! ### The queues of the ports -/

/-- The service notices keep their limit (R176). -/
def ServiceNoticesOK (s : State) : Prop := s.svc.notices.length ≤ 8

theorem serviceNoticesOK_makeServiceNotice (n : Notice) {s : State} (h : ServiceNoticesOK s) :
    ServiceNoticesOK (makeServiceNotice n s) := by
  simp only [ServiceNoticesOK, makeServiceNotice] at h ⊢
  split
  · simp; omega
  · exact h

theorem serviceNoticesOK_offerEvent (k : EventKind) (p : Pos) (st : Option Station) (order : Option OrderNo) (detail : Byte)
    {s : State} (h : ServiceNoticesOK s) : ServiceNoticesOK (offerEvent k p st order detail s) := by
  simp only [offerEvent, makeCaptureDone]
  (repeat' split)
  · exact serviceNoticesOK_makeServiceNotice _ h
  · simpa [ServiceNoticesOK, makeNotice_frame] using h
  · exact h
  · exact h

theorem sharedKeep_serviceNotices : SharedKeep ServiceNoticesOK where
  same hsame h := by
    obtain ⟨-, -, -, -, -, -, -, -, -, hnotices⟩ := hsame
    simpa [ServiceNoticesOK, hnotices] using h
  serviceNotice n s h := serviceNoticesOK_makeServiceNotice n h
  enterState st s h := by
    simp only [enterState]
    split
    · exact h
    · have hmoved (u : State) (hu : u.svc = s.svc) : ServiceNoticesOK u := by simpa [ServiceNoticesOK, hu] using h
      simpa [ServiceNoticesOK] using serviceNoticesOK_offerEvent .state _ none none st.code (hmoved _ (by simp))
  lists _ _ _ h := h
  causes _ _ _ h := h
  deferred _ _ _ h := h
  records _ _ _ h := h
  opened _ _ _ _ h := h
  formed _ _ _ h := h
  closed _ _ _ h := h

theorem grantService_notices_le (s : State) : (grantService s).svc.notices.length ≤ s.svc.notices.length := by
  rcases ht : s.svc.tx with _ | f <;> rcases hr : s.svc.reply with _ | r <;>
    rcases hn : s.svc.notices with _ | ⟨n, ns⟩ <;> simp [grantService, ht, hr, hn]

theorem pinsKeep_serviceNotices : PinsKeep ServiceNoticesOK where
  finish s h := Nat.le_trans (grantService_notices_le _) (by simpa [ServiceNoticesOK] using h)
  wholeReset cause s _ := by
    have hinitial (u : State) (hu : u.svc.notices = []) : ServiceNoticesOK u := by simp [ServiceNoticesOK, hu]
    simp only [wholeReset]
    split
    · exact serviceNoticesOK_offerEvent _ _ _ _ _ (hinitial _ rfl)
    · exact sharedKeep_serviceNotices.makeNotice _ (serviceNoticesOK_offerEvent _ _ _ _ _ (hinitial _ rfl))
  breakTaken s _ := by simp [ServiceNoticesOK, breakTaken]
  applyTables t s h := h
  storeStation i r s h := h
  stationRaw st raw s h := h
  sensed st x s _ h := h
  emitted emit since s _ h := h
  sampleAll s _ h := h

/-- A filled reply slot belongs to a request that has been served (R176). -/
def ReplyServed (s : State) : Prop := s.svc.reply.isSome = true → ∃ h, s.svc.held = some h ∧ h.served = true

theorem replyServed_finish {s : State} (h : ReplyServed s) : ReplyServed (finish s) := by
  have hgrant (u : State) (hu : ReplyServed u) : ReplyServed (grantService u) := by
    rcases ht : u.svc.tx with _ | f <;> rcases hr : u.svc.reply with _ | r <;>
      rcases hn : u.svc.notices with _ | ⟨n, ns⟩ <;> simpa [ReplyServed, grantService, ht, hr, hn] using hu
  exact hgrant _ (by simpa [ReplyServed] using h)

theorem effectsKeep_replyServed : EffectsKeep ReplyServed := by
  constructor
  case finish => exact fun s h => replyServed_finish h
  case breakTaken => simp [ReplyServed, breakTaken]
  case confirmSet =>
    intro r s t h ht
    obtain ⟨-, rfl⟩ := confirmSet_eq_some ht
    simpa [ReplyServed] using h
  case clearSet =>
    intro r s t h ht
    obtain ⟨-, rfl⟩ := clearSet_eq_some ht
    simpa [ReplyServed] using h
  case holdService =>
    intro payload s h
    simp only [holdService]
    (repeat' split)
    · simpa [ReplyServed] using h
    · simpa [ReplyServed] using h
    next hheld =>
      intro hr
      obtain ⟨x, hx, -⟩ := h hr
      simp [hx] at hheld
  all_goals simp [ReplyServed]

theorem resetsKeep_replyServed : ResetsKeep ReplyServed where
  wholeReset cause s _ := by
    simp only [wholeReset]
    split <;> simp [ReplyServed, ServicePort.initial]
  linkReset := by simp [ReplyServed]

theorem effectsKeep_linkOK : EffectsKeep fun s => LinkOK s.link := by
  constructor
  case confirmSet =>
    intro r s t h ht
    obtain ⟨-, rfl⟩ := confirmSet_eq_some ht
    simp [h]
  case clearSet =>
    intro r s t h ht
    obtain ⟨-, rfl⟩ := clearSet_eq_some ht
    simp [h]
  case upperIdle | linkStarted | breakTaken => exact fun s h => h
  all_goals simp +contextual

theorem resetsKeep_linkOK : ResetsKeep fun s => LinkOK s.link where
  wholeReset cause s _ := by
    have hreset (u : State) (hu : u.link = .initial) : LinkOK u.link := by simp [hu, LinkOK, Link.initial]
    simp only [wholeReset]
    split
    · exact offerEvent_linkOK _ _ _ _ _ _ (hreset _ rfl)
    · exact makeNotice_linkOK _ _ (offerEvent_linkOK _ _ _ _ _ _ (hreset _ rfl))
  linkReset := linkReset_linkOK

theorem actsKeep_linkOK (rs : List Reply) : ActsKeep fun s => LinkOK s.link ∧ s.link.replies = rs := by
  constructor <;> simp +contextual

theorem actsKeep_service (held : Option ServiceHeld) (reply : Option Reply) :
    ActsKeep fun s => s.svc.held = held ∧ s.svc.reply = reply := by
  constructor <;> simp

theorem LinkInv.iff_parts (s : State) : LinkInv s ↔ LinkOK s.link ∧ ServiceNoticesOK s ∧ ReplyServed s :=
  LinkInv.iff s

theorem LinkInv.finish {s : State} (h : LinkInv s) : LinkInv (finish s) := by
  obtain ⟨hlink, hnotices, hserved⟩ := (LinkInv.iff_parts s).1 h
  exact (LinkInv.iff_parts _).2 ⟨finish_linkOK s hlink, pinsKeep_serviceNotices.finish s hnotices, replyServed_finish hserved⟩

/-- What the act of a served request leaves of the ports: the replies and the holding of the service port as they are (R178). -/
theorem linkInv_putReply {port : MgmtPort} {q : Request} {s u : State} (r : Reply) (hq : nextRequest port s = some q)
    (hs : LinkInv s) (hlink : LinkOK u.link) (hreplies : u.link.replies = s.link.replies)
    (hheld : u.svc.held = (takeRequest port s).svc.held) (hreply : u.svc.reply = s.svc.reply)
    (hnotices : ServiceNoticesOK u) : LinkInv (putReply port r u) := by
  obtain ⟨-, -, hserved⟩ := (LinkInv.iff_parts s).1 hs
  rw [LinkInv.iff_parts]
  cases port with
  | upper =>
    obtain ⟨hcommands, hholding, hreports, -, hrest⟩ := hlink
    have hfew : s.link.replies.length < 4 := Nat.lt_of_not_le fun hmany => by
      simp [nextRequest, hmany] at hq
    refine ⟨⟨hcommands, hholding, hreports, by simp [hreplies]; omega, hrest⟩, hnotices, ?_⟩
    simpa [ReplyServed, putReply, takeRequest, hheld, hreply] using hserved
  | service =>
    refine ⟨hlink, hnotices, fun _ => ?_⟩
    rcases hh : s.svc.held with _ | held
    · simp [nextRequest, hh] at hq
    · exact ⟨{ held with served := true }, by simp [putReply, hheld, takeRequest, hh], rfl⟩

/-- The steps of R178 keep what the act of the command keeps. -/
theorem settle_keeps {lengthOk : List Byte → Bool} {act : List Byte → State → Served} {q : Request} {s : State}
    (hact : ∀ args {u : State}, I u → I (act args u).state) (h : I s) : I (settle lengthOk act q s).state := by
  simp only [settle]
  (repeat' split)
  · exact h
  · exact hact _ h
  · exact h

theorem keepsLink_serve {c : Instr} {port : MgmtPort} {isCode : Byte → Bool} {lengthOk : List Byte → Bool} {s : State}
    (hs : LinkInv s) : Keeps LinkInv (serve port isCode lengthOk (actOf c) s) := by
  simp only [serve]
  split
  · exact keeps_next hs
  next q hq =>
    split
    · rintro t ⟨⟩
      obtain ⟨hlink, hnotices, -⟩ := (LinkInv.iff_parts s).1 hs
      have hlink : LinkOK (takeRequest port s).link := takeRequest_linkOK port s hlink
      have hnotices : ServiceNoticesOK (takeRequest port s) :=
        (sharedKeep_serviceNotices.portStable pinsKeep_serviceNotices).takeRequest port s hnotices
      have hsettled := settle_keeps (q := q) (lengthOk := lengthOk) (actOf_keeps (actsKeep_linkOK s.link.replies) (c := c)
        fun _ u hu => ⟨linkReset_linkOK _ hu.1, by simpa using hu.2⟩) ⟨hlink, by simp⟩
      have hservice := settle_keeps (q := q) (lengthOk := lengthOk)
        (actOf_keeps (actsKeep_service (takeRequest port s).svc.held s.svc.reply) (c := c) fun _ u hu => by simpa using hu) ⟨rfl, by simp⟩
      have hlimit := settle_keeps (q := q) (lengthOk := lengthOk)
        (actOf_keeps (sharedKeep_serviceNotices.actsKeep pinsKeep_serviceNotices) (c := c)
          fun _ => (sharedKeep_serviceNotices.resetsKeep pinsKeep_serviceNotices).linkReset) hnotices
      exact LinkInv.finish (linkInv_putReply _ hq hs hsettled.1 hsettled.2 hservice.1 hservice.2 hlimit)
    · exact keeps_next hs

/-- Settles O9: the effects keep the limits, and a reply is made only where the port has room for it. -/
theorem linkQueuesKeepTheirLimits : Obligations.LinkQueuesKeepTheirLimits := by
  intro s t hs h
  refine step_keeps (I := LinkInv) (fun _ _ hu => hu) (fun u hu => ?_) (fun c u hu => ?_) hs h
  · rw [LinkInv.iff] at hu ⊢
    simpa [period, tick] using hu
  · rcases hrow : servedRow c with _ | ⟨port, isCode, lengthOk⟩
    · intro v hv
      have hc : servesNoRequest c = true := by simp [servesNoRequest, hrow]
      obtain ⟨hlink, hnotices, hserved⟩ := (LinkInv.iff_parts u).1 hu
      exact (LinkInv.iff_parts v).2 ⟨exec_keeps_effects effectsKeep_linkOK (fun _ => resetsKeep_linkOK) hc hlink v hv,
        exec_keeps_effects (sharedKeep_serviceNotices.effectsKeep pinsKeep_serviceNotices)
          (fun _ => sharedKeep_serviceNotices.resetsKeep pinsKeep_serviceNotices) hc hnotices v hv,
        exec_keeps_effects effectsKeep_replyServed (fun _ => resetsKeep_replyServed) hc hserved v hv⟩
    · rw [exec_eq_serve hrow]
      exact keepsLink_serve hu

end Sys2Proof.Machine
end

