-- ==== Sys2Proof/Proofs/ResetCause.lean ====
section
/-! SUPPORT. The values after power-on reset, the reset cause, and the commands whose occasion does not hold. -/

namespace Sys2Proof.Machine

/-- Settles O3: the reset state holds the values by definition, place by place. -/
theorem resetHoldsTheSpecsValues : Obligations.ResetHoldsTheSpecsValues := by
  refine ⟨rfl, ?_, ?_, ?_, ?_, ?_, rfl, rfl, rfl, rfl, rfl, rfl, rfl, rfl, rfl, ?_, ?_, rfl, rfl, ?_, ?_, rfl, rfl, rfl, rfl, rfl,
    rfl, rfl⟩
  all_goals
    intro i
    simp [State.reset, Tables.empty, FrontEnd.initial, Tracker.empty, StationRec.undefined, ZoneRec.undefined, BinRec.undefined,
      RouteRec.undefined, StationSense.initial, CoverSense.initial]

/-! ### The reset cause -/

/-- The effects of the commands leave the reset cause. -/
theorem effectsKeep_resetCause (r : ResetCause) : EffectsKeep fun t => t.sup.resetCause = r := by
  constructor
  case confirmSet =>
    intro q s t hs h
    obtain ⟨-, rfl⟩ := confirmSet_eq_some h
    simpa using hs
  case clearSet =>
    intro q s t hs h
    obtain ⟨-, rfl⟩ := clearSet_eq_some h
    simpa using hs
  all_goals simp [breakTaken]

theorem actsKeep_resetCause (r : ResetCause) : ActsKeep fun t => t.sup.resetCause = r := by
  constructor <;> simp

theorem portStable_resetCause (r : ResetCause) : PortStable fun t => t.sup.resetCause = r := by
  constructor <;> simp

theorem wholeReset_resetCause (cause : ResetCause) (s : State) : (wholeReset cause s).sup.resetCause = cause := by
  simp only [wholeReset]
  split <;> simp

theorem linkReset_resetCause (s : State) : (linkReset s).sup.resetCause = .link := by
  simp [linkReset, discardJob]

/-- A port that owes no reply owes the one reply made. -/
theorem repliesHeld_answered {port : MgmtPort} {q : Request} {status : Status} {results : List Byte} {s : State}
    (h : repliesHeld port s = []) : repliesHeld port (answered port q status results s) =
      [{ tag := q.tag, status := status, results := results }] := by
  rw [answered, repliesHeld_finish]
  cases port <;> obtain ⟨htx, hwait⟩ := List.append_eq_nil_iff.1 (show _ ++ _ = [] from h)
  · simp only [repliesHeld, putReply, hwait, List.nil_append]
    rw [htx]
    rfl
  · simp only [repliesHeld, putReply]
    rw [htx]
    rfl

/-- Settles O58: the three resets write their cause, every other command leaves it, and IDENTIFY sends it as its fourth byte. -/
theorem resetCauseNamesTheMostRecentReset : Obligations.ResetCauseNamesTheMostRecentReset := by
  refine ⟨?_, ?_, ?_, ?_, ?_⟩
  · rintro s t ⟨⟩
    simpa using wholeReset_resetCause .power s
  · rintro s t ⟨⟩
    simpa using wholeReset_resetCause .pin s
  · intro q s t hq h
    have hserve := serve_eq (isCode := (· = 0x50)) (lengthOk := exactly 0) (act := fun _ s => resetPart .upper s) hq (by decide)
      (by decide)
    obtain rfl := Host.Outcome.next.inj (h.symm.trans hserve)
    simp [answered, resetPart, linkReset_resetCause]
  · intro c s t hpower hpin hpart h
    have hreset : ¬isReset c := by simp [isReset, hpower, hpin, hpart]
    exact exec_keeps (portStable_resetCause _) (effectsKeep_resetCause _) (actsKeep_resetCause _) (fun hc => absurd hc hreset) rfl t h
  · intro port q s t hq hnone h
    have hserve := serve_eq (isCode := (· = 0x01)) (lengthOk := exactly 0)
      (act := fun _ s => { state := s, status := .done, results := identifyBytes s }) hq (by decide) (by decide)
    obtain rfl := Host.Outcome.next.inj (h.symm.trans hserve)
    refine ⟨{ tag := q.tag, status := .done, results := identifyBytes (takeRequest port s) }, ?_, by simp [identifyBytes, wordBytes]⟩
    exact repliesHeld_answered (by cases port <;> exact hnone)

end Sys2Proof.Machine
end

