-- ==== Sys2Proof/Proofs/Occasions.lean ====
section
/-! SUPPORT. Commands whose occasion does not hold leave the state as it is. -/

namespace Sys2Proof.Machine

theorem doneIf_of_false {b : Bool} (h : b = false) (s t : State) : doneIf b s t = .next s := by
  subst h
  rfl

/-- A time that a pending change has not held for is not reached. -/
theorem heldFor_eq_false_iff (limit now : Nat) (pending : Option Nat) :
    heldFor limit now pending = false ↔ pending = none ∨ ∃ since, pending = some since ∧ now - since < limit := by
  cases pending <;> simp [heldFor]

theorem coverHeld_eq_false {c : Cover} {toClosed : Bool} {s : State}
    (h : ((s.front.covers[c]).pending = none ∨ ∃ since, (s.front.covers[c]).pending = some since ∧ s.pos.clock - since < 120000) ∨
      (s.front.covers[c]).rawClosed = !toClosed ∨ (s.front.covers[c]).closed = toClosed) : coverHeld c toClosed s = false := by
  have hearly := heldFor_eq_false_iff (5 * clkMs) s.pos.clock (s.front.covers[c]).pending
  simp only [clkMs] at hearly
  rcases h with h | h | h
  · simp only [coverHeld, clkMs, hearly.2 h, Bool.false_and]
  · cases toClosed <;> simp_all [coverHeld]
  · simp_all [coverHeld]

theorem settleDue_eq_false {s : State}
    (h : s.sup.state ≠ .stopping ∨ s.pos.settleFrom = none ∨ (∃ since, s.pos.settleFrom = some since ∧
      s.pos.clock - max since s.pos.lastPulse < s.tables.limits.settleTime * 24000)) : settleDue s = false := by
  simp only [settleDue]
  split
  next since hsince =>
    rw [Bool.and_eq_false_iff, decide_eq_false_iff_not, decide_eq_false_iff_not, Nat.not_le]
    simpa [hsince, clkMs] using h
  next => rfl

theorem speedWaitDue_eq_false {s : State}
    (h : s.sup.state ≠ .speedChange ∨ s.sup.speedWait = none ∨ (∃ due, s.sup.speedWait = some due ∧ s.pos.clock < due)) :
    speedWaitDue s = false := by
  simp only [speedWaitDue]
  split
  next due hdue =>
    rw [Bool.and_eq_false_iff, decide_eq_false_iff_not, decide_eq_false_iff_not, Nat.not_le]
    simpa [hdue] using h
  next => rfl

theorem confirmDue_eq_false {n : SetName} {s : State}
    (h : ∀ r, findSet s n = some r → r.deadline = none ∨ ∃ due, r.deadline = some due ∧ s.pos.clock < due) :
    confirmDue n s = false := by
  simp only [confirmDue]
  split
  next r hr =>
    rcases h r hr with hd | ⟨due, hd, hlt⟩
    · simp [hd]
    · simpa [hd] using hlt
  next => rfl

theorem gapDue_eq_false {port : Port} {s : State} (h : (receiverOf port s).mode ≠ .inFrame ∨
    s.pos.clock - (receiverOf port s).lastChar ≤ (if port = .service then 480000 else 24000)) : gapDue port s = false := by
  rw [gapDue, Bool.and_eq_false_iff, decide_eq_false_iff_not, decide_eq_false_iff_not, Nat.not_lt]
  cases port <;> exact h

theorem breakDue_eq_false {s : State} (h : s.svc.rx.mode = .lineLow ∨ s.pos.clock - s.svc.highAt < 240000) :
    breakDue s = false := by
  rw [breakDue, Bool.and_eq_false_iff, decide_eq_false_iff_not, Nat.not_le]
  simpa [serviceLineLow, clkMs] using h

theorem acceptEdge_of_none {st : Station} {covered : Bool} {s : State} (h : acceptable st covered s = none) :
    acceptEdge st covered s = .next s := by
  simp [acceptEdge, h]

/-- A row answers the state as it was where no request of its code waits. -/
theorem serve_of_unserved {port : MgmtPort} {isCode : Byte → Bool} {lengthOk : List Byte → Bool}
    {act : List Byte → State → Served} {s : State} (h : ∀ q, nextRequest port s = some q → isCode q.code = false) :
    serve port isCode lengthOk act s = .next s := by
  simp only [serve]
  split
  next => rfl
  next q hq => simp [h q hq]

theorem takeFrame_of_incomplete {port : Port} {kind : Byte} {payload : List Byte} {act : State → State} {s : State}
    (h : frameCompletes port kind payload s = false) : takeFrame port kind payload act s = .next s :=
  doneIf_of_false h _ _

theorem takeReport_of_incomplete {kind : Byte} {payload : List Byte} {act : State → State} {s : State}
    (h : frameCompletes .lower kind payload s = false) : takeReport kind payload act s = .next s :=
  doneIf_of_false h _ _

/-- With an idle lower transmitter no end of a lower frame happens. -/
theorem lowerEnds_of_idle {s : State} (h : s.link.lowerTx = none) :
    exec .linkStartSent s = .next s ∧ exec .haltSent s = .next s ∧ exec .setVoidSent s = .next s ∧
      exec .speedChangeSent s = .next s ∧ exec .forwardedOrderSent s = .next s ∧ exec .lowerFrameSent s = .next s := by
  simp [exec, execLinkStartSent, execHaltSent, execSetVoidSent, execSpeedChangeSent, execForwardedOrderSent, execLowerFrameSent, h]

/-- The end of another frame than the one being sent does not happen. -/
theorem lowerEnds_of_other {f : LowerFrame} {s : State} (h : s.link.lowerTx = some f) :
    (f ≠ .pathControl .linkStart → exec .linkStartSent s = .next s) ∧
    (f ≠ .pathControl .halt → exec .haltSent s = .next s) ∧
    ((∀ n, f ≠ .pathControl (.setVoid n)) → exec .setVoidSent s = .next s) ∧
    ((∀ c, f ≠ .pathControl (.speedChange c)) → exec .speedChangeSent s = .next s) ∧
    ((∀ o, f ≠ .forwardedOrder o) → exec .forwardedOrderSent s = .next s) ∧
    (f = .pathControl .linkStart ∨ f = .pathControl .halt ∨ (∃ n, f = .pathControl (.setVoid n)) ∨
      (∃ c, f = .pathControl (.speedChange c)) ∨ (∃ o, f = .forwardedOrder o) → exec .lowerFrameSent s = .next s) := by
  refine ⟨fun hf => doneIf_of_false (by simp [h, hf]) _ _, fun hf => doneIf_of_false (by simp [h, hf]) _ _, fun hf => ?_,
    fun hf => ?_, fun hf => ?_, fun hf => ?_⟩
  · simp only [exec, execSetVoidSent, h]
    split
    · simp_all
    · rfl
  · simp only [exec, execSpeedChangeSent, h]
    split
    · simp_all
    · rfl
  · simp only [exec, execForwardedOrderSent, h]
    split
    · simp_all
    · rfl
  · simp only [exec, execLowerFrameSent, h]
    rcases hf with rfl | rfl | ⟨n, rfl⟩ | ⟨c, rfl⟩ | ⟨o, rfl⟩ <;> rfl

/-- Settles O60: the occasion of the command is false, or the transmitter sends another frame. -/
theorem commandsWithoutTheirOccasionChangeNothing : Obligations.CommandsWithoutTheirOccasionChangeNothing := by
  refine ⟨fun s => ⟨lowerEnds_of_idle, fun h => ?_, fun h => ?_, fun image h => ?_, fun h => ?_, fun h => ?_, fun h => ?_,
    fun order h => ?_, fun h => doneIf_of_false h _ _, fun h => ?_, fun st => ⟨acceptEdge_of_none, acceptEdge_of_none,
      fun h => doneIf_of_false h _ _, fun h => doneIf_of_false h _ _⟩, fun c => ⟨fun h => ?_, fun h => ?_⟩,
    fun b set h => doneIf_of_false (confirmDue_eq_false h) _ _, fun port h => doneIf_of_false (gapDue_eq_false h) _ _,
    fun h => doneIf_of_false (breakDue_eq_false h) _ _, fun h => doneIf_of_false (by simpa [serviceLineLow] using h) _ _⟩,
    fun f s => lowerEnds_of_other, fun c port isCode lengthOk s hrow h => exec_eq_serve hrow s ▸ serve_of_unserved h,
    fun kind payload s => ?_⟩
  · exact doneIf_of_false (by simp [h]) _ _
  · exact doneIf_of_false (by simp [h]) _ _
  · exact doneIf_of_false (Bool.and_eq_false_iff.2 (h.imp decide_eq_false decide_eq_false)) _ _
  · exact doneIf_of_false (settleDue_eq_false h) _ _
  · simp only [exec, execSpeedWaitExpiry]
    split
    next r n hr => exact doneIf_of_false (speedWaitDue_eq_false (by simpa [hr] using h)) _ _
    next => rfl
  · refine doneIf_of_false ?_ _ _
    rw [Bool.and_eq_false_iff, Bool.and_eq_false_iff, decide_eq_false_iff_not, decide_eq_false_iff_not, Nat.not_le]
    simpa [or_assoc, clkMs] using h
  · refine doneIf_of_false ?_ _ _
    rw [Bool.and_eq_false_iff, Bool.and_eq_false_iff, decide_eq_false_iff_not, decide_eq_false_iff_not, Nat.not_le]
    simpa [or_assoc, clk50us] using h
  · exact doneIf_of_false ((heldFor_eq_false_iff _ _ _).2 (by simpa [clkMs] using h)) _ _
  · exact doneIf_of_false (coverHeld_eq_false (by simpa using h)) _ _
  · exact doneIf_of_false (coverHeld_eq_false (by simpa using h)) _ _
  · exact ⟨takeFrame_of_incomplete, takeFrame_of_incomplete, takeFrame_of_incomplete, takeFrame_of_incomplete,
      takeFrame_of_incomplete, takeFrame_of_incomplete, takeReport_of_incomplete, takeReport_of_incomplete,
      takeReport_of_incomplete, takeReport_of_incomplete, takeReport_of_incomplete, takeFrame_of_incomplete,
      takeReport_of_incomplete⟩

end Sys2Proof.Machine
end

