-- ==== Sys2Proof/Proofs/Transmitters.lean ====
section
/-! SUPPORT. The ends of frames, and what each transmitter is granted at the end of a command. -/

namespace Sys2Proof.Machine

/-! ### What the end of a command grants -/

/-- The lower port at the end of a command is its grant after the test of the barriers. -/
theorem finish_lower (s : State) :
    (finish s).link.lowerTx = (grantLower (retestBarriers s)).link.lowerTx ∧
    (finish s).link.pathControl = (grantLower (retestBarriers s)).link.pathControl ∧
    (finish s).link.commands = (grantLower (retestBarriers s)).link.commands ∧
    (finish s).link.forwarded = (grantLower (retestBarriers s)).link.forwarded := by
  simp [finish]

/-- The upper port at the end of a command is its grant. -/
theorem finish_upper (s : State) :
    (finish s).link.upperTx = (grantUpper s).link.upperTx ∧ (finish s).link.credit = (grantUpper s).link.credit ∧
    (finish s).link.replies = (grantUpper s).link.replies ∧ (finish s).link.notices = (grantUpper s).link.notices ∧
    (finish s).link.reports = (grantUpper s).link.reports ∧ (finish s).link.lossCount = (grantUpper s).link.lossCount := by
  rcases hu : s.link.upperTx with _ | f
  · rcases hc : s.link.credit with _ | c <;> rcases hr : s.link.replies with _ | ⟨r, rs⟩ <;>
      rcases hn : s.link.notices with _ | ⟨n, ns⟩ <;> rcases hp : s.link.reports with _ | ⟨p, ps⟩ <;>
      simp [finish, grantUpper, hu, hc, hr, hn, hp]
  · simp [finish, grantUpper, hu]

/-- The service port at the end of a command is its grant. -/
theorem finish_service (s : State) : (finish s).svc = (grantService s).svc := by
  rcases ht : s.svc.tx with _ | f <;> rcases hr : s.svc.reply with _ | r <;> rcases hn : s.svc.notices with _ | ⟨n, ns⟩ <;>
    simp [finish, grantService, ht, hr, hn]

/-! ### The ready command -/

/-- A command behind a barrier that waits: every barrier of the queue is passed, and the first other command is ready. -/
theorem takeReady_behindBarriers {c : Command} (hc : c.mark = none) (bs rest : List Command)
    (hbs : ∀ x ∈ bs, x.mark.isSome = true) : takeReady true (bs ++ c :: rest) = some (c, bs ++ rest) := by
  induction bs with
  | nil => simp [takeReady, hc]
  | cons b bs ih =>
    obtain ⟨m, hm⟩ := Option.isSome_iff_exists.1 (hbs b (by simp))
    simp [takeReady, hm, ih fun x hx => hbs x (by simp [hx])]

/-- Behind a barrier that waits no other barrier is ready. -/
theorem takeReady_onlyBarriers (bs : List Command) (hbs : ∀ x ∈ bs, x.mark.isSome = true) : takeReady true bs = none := by
  induction bs with
  | nil => rfl
  | cons b bs ih =>
    obtain ⟨m, hm⟩ := Option.isSome_iff_exists.1 (hbs b (by simp))
    simp [takeReady, hm, ih fun x hx => hbs x (by simp [hx])]

/-- A barrier whose mark holds an order keeps its place, and what follows is behind a barrier that waits. -/
theorem takeReady_blocked {b : Command} {n : OrderNo} {m : List OrderNo} (hb : b.mark = some (n :: m)) (cs : List Command) :
    takeReady false (b :: cs) = (takeReady true cs).map fun x => (x.1, b :: x.2) := by
  simp [takeReady, hb]

/-- An order that a barrier waits for is held, with its first forwarding neither sent nor withdrawn, and is not SKIPPED. -/
theorem satisfiesBarrier_eq_false_iff (entries : List Entry) (n : OrderNo) :
    satisfiesBarrier entries n = false ↔
      ∃ e, entries.find? (fun e => e.order = n) = some e ∧ e.firstSent = false ∧ e.state ≠ .skipped := by
  simp only [satisfiesBarrier]
  split
  next e he => simp [he]
  next h => simp [h]

/-- A command after the test of its barrier. -/
def retested (entries : List Entry) (c : Command) : Command :=
  { c with mark := c.mark.map fun m => m.filter fun n => !satisfiesBarrier entries n }

theorem retestBarriers_commands (s : State) :
    (retestBarriers s).link.commands = s.link.commands.map (retested s.ret.entries) := rfl

@[simp] theorem retested_isSome (entries : List Entry) (c : Command) : (retested entries c).mark.isSome = c.mark.isSome := by
  simp [retested]

theorem retested_of_ready {entries : List Entry} {c : Command} (h : c.mark = none) : retested entries c = c := by
  rcases c with ⟨kind, payload, mark⟩
  obtain rfl : mark = none := h
  rfl

@[simp] theorem retested_kind (entries : List Entry) (c : Command) : (retested entries c).kind = c.kind := rfl

@[simp] theorem retested_payload (entries : List Entry) (c : Command) : (retested entries c).payload = c.payload := rfl

@[simp] theorem retested_frame (entries : List Entry) :
    (fun c : Command => (c.kind, c.payload)) ∘ retested entries = fun c => (c.kind, c.payload) := rfl

/-- A barrier that waits for an order still holds one after its test. -/
theorem retested_blocked {entries : List Entry} {b : Command}
    (h : ∃ m, b.mark = some m ∧ ∃ n ∈ m, satisfiesBarrier entries n = false) :
    ∃ n m, (retested entries b).mark = some (n :: m) := by
  obtain ⟨m, hm, n, hn, hwait⟩ := h
  have hmem : n ∈ m.filter fun n => !satisfiesBarrier entries n := by simp [hn, hwait]
  rcases hl : m.filter fun n => !satisfiesBarrier entries n with _ | ⟨a, l⟩
  · simp [hl] at hmem
  · exact ⟨a, l, by simp [retested, hm, hl]⟩

theorem retested_barriers {entries : List Entry} {bs : List Command} (h : ∀ x ∈ bs, x.mark.isSome = true) :
    ∀ x ∈ bs.map (retested entries), x.mark.isSome = true := by
  intro x hx
  obtain ⟨y, hy, rfl⟩ := List.mem_map.1 hx
  simpa using h y hy

/-! ### The grant of the lower transmitter -/

section
variable {s : State} (hidle : s.link.lowerTx = none)
include hidle

theorem finish_pathControl {f : PathControl} {rest : List PathControl} (h : s.link.pathControl = f :: rest) :
    (finish s).link.lowerTx = some (.pathControl f) ∧ (finish s).link.pathControl = rest := by
  simp [finish_lower, grantLower, hidle, h]

theorem finish_beforeLinkStart (h : s.link.pathControl = []) (hstart : s.link.linkStarted = false) :
    (finish s).link.lowerTx = none := by
  simp [finish_lower, grantLower, hidle, h, hstart]

variable (hcontrol : s.link.pathControl = []) (hstart : s.link.linkStarted = true)
include hcontrol hstart

theorem finish_command {c : Command} {rest : List Command}
    (h : takeReady false (s.link.commands.map (retested s.ret.entries)) = some (c, rest)) :
    (finish s).link.lowerTx = some (.command c) ∧ (finish s).link.commands = rest := by
  rw [← retestBarriers_commands] at h
  simp [finish_lower, grantLower, hidle, hcontrol, hstart, h]

theorem finish_forwardedOrder {f : ForwardedOrder} {rest : List ForwardedOrder}
    (h : takeReady false (s.link.commands.map (retested s.ret.entries)) = none) (hforwarded : s.link.forwarded = f :: rest) :
    (finish s).link.lowerTx = some (.forwardedOrder f) ∧ (finish s).link.forwarded = rest ∧
      (finish s).link.commands = s.link.commands.map (retested s.ret.entries) := by
  rw [← retestBarriers_commands] at h ⊢
  simp [finish_lower, grantLower, hidle, hcontrol, hstart, h, hforwarded]

end

/-! ### The ends of the frames of the lower port -/

theorem releaseWindowHold_eq (s : State) :
    releaseWindowHold s = { s with fwd.windowHold := if .halt ∈ s.link.pathControl then s.fwd.windowHold else false } := by
  simp only [releaseWindowHold, haltWaits, List.contains_iff_mem]
  split <;> rfl

theorem speedChangeWaits_iff (s : State) : speedChangeWaits s = true ↔ ∃ d, .speedChange d ∈ s.link.pathControl := by
  simp only [speedChangeWaits, List.any_eq_true]
  constructor
  · rintro ⟨f, hf, hspeed⟩
    split at hspeed
    · exact ⟨_, hf⟩
    · cases hspeed
  · rintro ⟨d, hd⟩
    exact ⟨_, hd, rfl⟩

/-- The speed wait starts at the end of a SPEED CHANGE frame in SPEED CHANGE, unless another one waits. -/
theorem startsSpeedWait_iff (s : State) :
    ((lowerIdle s).sup.state = .speedChange && !speedChangeWaits (lowerIdle s)) = true ↔
      s.sup.state = .speedChange ∧ ¬∃ d, .speedChange d ∈ s.link.pathControl := by
  rw [Bool.and_eq_true, decide_eq_true_iff, Bool.not_eq_true', ← Bool.not_eq_true, speedChangeWaits_iff]
  rfl

/-- The set-confirm timer starts for the VOIDED record of the set alone. -/
theorem startVoidTimer_eq (n : SetName) (s : State) :
    startVoidTimer n s = { s with
      sets.records := s.sets.records.map fun r =>
        if r.name = n ∧ r.state = .voided then
          { r with deadline := some (s.pos.clock + s.tables.limits.setConfirm * 2400000) }
        else r } := by
  have hrec : ∀ r : SetRec, (if r.name = n then
      (if r.state = .voided then { r with deadline := some (confirmDeadline s) } else r) else r) =
      if r.name = n ∧ r.state = .voided then
        { r with deadline := some (s.pos.clock + s.tables.limits.setConfirm * 2400000) } else r := by
    intro r
    by_cases hn : r.name = n <;> simp [hn, confirmDeadline, clkMs]
  simp [startVoidTimer, updateSet, hrec]

/-- Settles O15: the effect of each end of a PATH CONTROL frame. -/
theorem pathControlSentHasItsEffect : Obligations.PathControlSentHasItsEffect := by
  refine ⟨fun s => ⟨fun h => ?_, fun h => ?_⟩, fun s => ⟨fun n h => ?_, fun c h hspeed hwaits => ?_, fun c h hother => ?_⟩⟩
  · simp only [exec, execLinkStartSent, h, decide_true, doneIf_true, releaseWindowHold_eq]
    rfl
  · simp only [exec, execHaltSent, h, decide_true, doneIf_true, releaseWindowHold_eq]
    rfl
  · simp only [exec, execSetVoidSent, h, startVoidTimer_eq]
    rfl
  · have hwait : startSpeedWait (lowerIdle s) = { lowerIdle s with
        sup.speedWait := some (s.pos.clock + s.tables.limits.speedWait * 2400000) } :=
      if_pos ((startsSpeedWait_iff s).2 ⟨hspeed, by simpa using hwaits⟩)
    simp only [exec, execSpeedChangeSent, h, hwait]
    rfl
  · have hnot : startSpeedWait (lowerIdle s) = lowerIdle s := by
      refine if_neg fun hstarts => ?_
      obtain ⟨hspeed, hnone⟩ := (startsSpeedWait_iff s).1 hstarts
      exact hother.elim (· hspeed) hnone
    simp only [exec, execSpeedChangeSent, h, hnot]
    rfl

/-- Settles O16: the end of a frame of the lower port leaves its transmitter idle, and an idle one is granted the first waiting
source. -/
theorem lowerTransmitterGrantsInOrder : Obligations.LowerTransmitterGrantsInOrder := by
  intro s
  refine ⟨fun f h hlive => ?_, fun f h hlive => ?_, fun f h hkind => ?_, fun hidle => ?_⟩
  · simp only [exec, execForwardedOrderSent, h, hlive]
    rfl
  · simp only [exec, execForwardedOrderSent, h, hlive]
    rfl
  · have hother : isOtherLower f = true := by
      rcases hkind with ⟨c, rfl⟩ | rfl | ⟨a, b, l, rfl⟩ <;> rfl
    simp only [exec, execLowerFrameSent, h, hother]
    rfl
  · simp only [← satisfiesBarrier_eq_false_iff]
    refine ⟨fun f rest => finish_pathControl hidle, finish_beforeLinkStart hidle, fun c rest hp hs hc hm => ?_,
      fun f rest hp hs hc hf => ?_, fun c m rest hp hs hc hm hready => ?_, fun b bs c rest hp hs hc hb hbs hm => ?_,
      fun b bs f rest hp hs hc hb hbs hf => ?_⟩
    · exact (finish_command hidle hp hs (rest := rest.map (retested s.ret.entries))
        (by simp [hc, takeReady, retested_of_ready hm, hm])).1
    · obtain ⟨hsent, hrest, -⟩ := finish_forwardedOrder hidle hp hs (by simp [hc, takeReady]) hf
      exact ⟨hsent, hrest⟩
    · have hempty : retested s.ret.entries c = { c with mark := some [] } := by
        simpa [retested, hm] using hready
      obtain ⟨hsent, hrest⟩ := finish_command hidle hp hs (c := { c with mark := some [] })
        (rest := rest.map (retested s.ret.entries)) (by simp [hc, takeReady, hempty])
      exact ⟨hsent, by simp [hrest]⟩
    · obtain ⟨n, m, hmark⟩ := retested_blocked hb
      obtain ⟨hsent, hrest⟩ := finish_command hidle hp hs (c := c) (rest := (b :: bs ++ rest).map (retested s.ret.entries)) (by
        rw [hc, List.cons_append, List.map_cons, takeReady_blocked hmark, List.map_append, List.map_cons, retested_of_ready hm,
          takeReady_behindBarriers hm _ _ (retested_barriers hbs)]
        simp)
      exact ⟨hsent, by simp [hrest]⟩
    · obtain ⟨n, m, hmark⟩ := retested_blocked hb
      obtain ⟨hsent, hrest, hcommands⟩ := finish_forwardedOrder hidle hp hs (by
        rw [hc, List.map_cons, takeReady_blocked hmark, takeReady_onlyBarriers _ (retested_barriers hbs)]
        rfl) hf
      exact ⟨hsent, hrest, by simp [hcommands]⟩

/-! ### The upper and the service transmitter -/

theorem makeNotice_of_room {s : State} (n : Notice) (h : s.link.notices.length < 48) :
    makeNotice n s = { s with link.notices := s.link.notices ++ [n] } := if_pos h

theorem makeNotice_of_full {s : State} (n : Notice) (h : 48 ≤ s.link.notices.length) :
    makeNotice n s = { s with link.lossCount := if s.link.lossCount < 255 then s.link.lossCount + 1 else 255 } := by
  have hcount : min 255 (s.link.lossCount + 1) = if s.link.lossCount < 255 then s.link.lossCount + 1 else 255 := by
    split <;> omega
  simp [makeNotice, Nat.not_lt.2 h, hcount]

/-- Settles O17: the grant of each transmitter, one case for each source, and the two notice queues. -/
theorem upperAndServiceTransmittersGrantInOrder : Obligations.UpperAndServiceTransmittersGrantInOrder := by
  intro s
  refine ⟨fun hbusy => ?_, fun hbusy => ?_, fun n => ⟨makeNotice_of_room n, makeNotice_of_full n,
    fun h => if_pos h, fun h => if_neg (Nat.not_lt.2 h)⟩⟩
  · refine ⟨finish { s with link.upperTx := none }, by simp [exec, execUpperFrameSent, hbusy], fun c hc => ?_,
      fun r rs hc hr => ?_, fun n ns hc hr hn => ?_, fun f fs hc hr hn hf => ?_, fun hc hr hn hf => ?_, by simp⟩
    · simp [finish_upper, grantUpper, hc]
    · simp [finish_upper, grantUpper, hc, hr]
    · rcases hl : s.link.lossCount with _ | k <;> simp [finish_upper, grantUpper, hc, hr, hn, hl, afterNoticeLeaves, byteOf]
    · simp [finish_upper, grantUpper, hc, hr, hn, hf]
    · simp [finish_upper, grantUpper, hc, hr, hn, hf]
  · refine ⟨finish { s with svc.tx := none }, by simp [exec, execServiceFrameSent, hbusy], fun r hr => ?_, fun n ns hr hn => ?_,
      fun hr hn => ?_, by simp⟩
    · simp [finish_service, grantService, hr]
    · simp [finish_service, grantService, hr, hn]
    · simp [finish_service, grantService, hr, hn]

end Sys2Proof.Machine
end

