-- ==== Sys2Proof/Proofs/Receivers.lean ====
section
/-! SUPPORT. The receivers: what a character, a frame and a list of characters bring about, and the frames as they are sent. -/

namespace Sys2Proof.Machine

/-! ### Bytes, words and the check -/

/-- The eight levels of a byte, the least significant first, spell it. -/
theorem byteOfLevels_levels (b : Byte) : byteOfLevels [b[0], b[1], b[2], b[3], b[4], b[5], b[6], b[7]] = b := by
  revert b
  decide +kernel

theorem wordOf_getLsbD (hi lo : Byte) (i : Nat) :
    (wordOf hi lo).getLsbD i = if i < 8 then lo.getLsbD i else hi.getLsbD (i - 8) :=
  BitVec.getLsbD_append

@[simp] theorem hiByte_wordOf (hi lo : Byte) : hiByte (wordOf hi lo) = hi := by
  ext i h
  simp [hiByte, wordOf_getLsbD, h]

@[simp] theorem loByte_wordOf (hi lo : Byte) : loByte (wordOf hi lo) = lo := by
  ext i h
  simp [loByte, wordOf_getLsbD, h]

theorem wordBytes_wordOf (hi lo : Byte) : wordBytes (wordOf hi lo) = [hi, lo] := by
  simp [wordBytes]

theorem wordOf_toNat (hi lo : Byte) : (wordOf hi lo).toNat = 256 * hi.toNat + lo.toNat := by
  have hlo := lo.isLt
  simp only [wordOf, BitVec.toNat_append]
  rw [← Nat.shiftLeft_add_eq_or_of_lt hlo, Nat.shiftLeft_eq]
  omega

theorem wordBytes_length (w : Word) : (wordBytes w).length = 2 := rfl

theorem byteOf_toNat {n : Nat} (h : n < 256) : (byteOf n).toNat = n := by
  simp [byteOf, Nat.mod_eq_of_lt h]

/-! ### One character in a frame -/

/-- Bytes as characters with a high stop bit. -/
def highChars (bytes : List Byte) : List RxChar := bytes.map fun b => { byte := b, stopHigh := true }

theorem rxChar_start {now : Nat} {r : Receiver} (h : r.mode = .hunting) :
    rxChar now { byte := 0xA5, stopHigh := true } r = ({ mode := .inFrame, bytes := [], lastChar := now }, .going) := by
  simp [rxChar, h]

theorem rxChar_hunting {now : Nat} {r : Receiver} {b : Byte} (h : r.mode = .hunting) (hb : b ≠ 0xA5) :
    rxChar now { byte := b, stopHigh := true } r = (r, .going) := by
  have hstart : (true && decide (b = 0xA5)) = false := by simpa using hb
  simp only [rxChar, h, hstart]
  rfl

theorem rxChar_framing {now : Nat} {r : Receiver} (b : Byte) (h : r.mode = .inFrame) :
    rxChar now { byte := b, stopHigh := false } r =
      ({ mode := .hunting, bytes := [], lastChar := now }, .discarded .framing r.bytes.head?) := by
  simp [rxChar, h]

theorem rxChar_kind {now : Nat} {r : Receiver} (b : Byte) (h : r.mode = .inFrame) (hr : r.bytes = []) :
    rxChar now { byte := b, stopHigh := true } r = ({ mode := .inFrame, bytes := r.bytes ++ [b], lastChar := now }, .going) := by
  simp [rxChar, h, hr]

section
variable {now : Nat} {r : Receiver} {b kind len : Byte} {rest : List Byte} (h : r.mode = .inFrame)
  (hr : r.bytes ++ [b] = kind :: len :: rest)
include h hr

theorem rxChar_length (hlen : 60 < len.toNat) : rxChar now { byte := b, stopHigh := true } r =
    ({ mode := .hunting, bytes := [], lastChar := now }, .discarded .length (some kind)) := by
  simp [rxChar, h, hr, hlen]

theorem rxChar_going (hlen : len.toNat ≤ 60) (hrest : rest.length < len.toNat + 2) :
    rxChar now { byte := b, stopHigh := true } r = ({ mode := .inFrame, bytes := r.bytes ++ [b], lastChar := now }, .going) := by
  have hshort : rest.length + 1 + 1 < len.toNat + 4 := by omega
  simp [rxChar, h, hr, Nat.not_lt.2 hlen, hshort]

theorem rxChar_last (hlen : len.toNat ≤ 60) (hrest : rest.length = len.toNat + 2) :
    rxChar now { byte := b, stopHigh := true } r =
      ({ mode := .hunting, bytes := [], lastChar := now }, frameEnd (kind :: len :: rest)) := by
  have hwhole : ¬rest.length + 1 + 1 < len.toNat + 4 := by omega
  simp [rxChar, h, hr, Nat.not_lt.2 hlen, hwhole]

end

/-- The end of a frame of the stated length: its last two bytes are compared with the check of the others. -/
theorem frameEnd_eq {kind len : Byte} {rest : List Byte} (h : rest.length = len.toNat + 2) :
    frameEnd (kind :: len :: rest) =
      if rest.drop len.toNat = wordBytes (crc16 (kind :: len :: rest.take len.toNat)) then .complete kind (rest.take len.toNat)
      else .discarded .check (some kind) := by
  have hbody : (kind :: len :: rest).dropLast.dropLast = kind :: len :: rest.take len.toNat := by
    rw [List.dropLast_eq_take, List.dropLast_eq_take, List.take_take]
    simp [h]
  have hcheck : (kind :: len :: rest).drop (kind :: len :: rest.take len.toNat).length = rest.drop len.toNat := by
    simp [h]
  simp only [frameEnd, hbody, hcheck, eq_comm]
  rfl

/-! ### A whole frame -/

theorem rxChars_cons_going {now : Nat} {c : RxChar} {cs : List RxChar} {r r' : Receiver} (h : rxChar now c r = (r', .going)) :
    rxChars now (c :: cs) r = rxChars now cs r' := by
  simp [rxChars, h]

/-- The bytes of a frame before its last one wait in the receiver. -/
theorem rxChars_inFrame {now : Nat} {kind len : Byte} (hlen : len.toNat ≤ 60) (read xs : List Byte) (cs : List RxChar)
    (h : read.length + xs.length < len.toNat + 2) :
    rxChars now (highChars xs ++ cs) { mode := .inFrame, bytes := kind :: len :: read, lastChar := now } =
      rxChars now cs { mode := .inFrame, bytes := kind :: len :: (read ++ xs), lastChar := now } := by
  induction xs generalizing read with
  | nil => simp [highChars]
  | cons x xs ih =>
    have hchar := rxChar_going (now := now) (b := x) (kind := kind) (len := len) (rest := read ++ [x])
      (r := { mode := .inFrame, bytes := kind :: len :: read, lastChar := now }) rfl (by simp) hlen
      (by simp at h ⊢; omega)
    have hrest := ih (read ++ [x]) (by simp at h ⊢; omega)
    rw [show highChars (x :: xs) ++ cs = { byte := x, stopHigh := true } :: (highChars xs ++ cs) from rfl,
      rxChars_cons_going hchar]
    simpa using hrest

/-- A hunting receiver before the last byte of a frame: Start, Kind, Length and the rest wait in it. -/
theorem rxChars_untilLast {now : Nat} {r : Receiver} (hr : r.mode = .hunting) {kind len : Byte} (hlen : len.toNat ≤ 60)
    (xs : List Byte) (cs : List RxChar) (h : xs.length < len.toNat + 2) :
    rxChars now (highChars (0xA5 :: kind :: len :: xs) ++ cs) r =
      rxChars now cs { mode := .inFrame, bytes := kind :: len :: xs, lastChar := now } := by
  have hkind := rxChar_kind (now := now) (r := { mode := .inFrame, bytes := [], lastChar := now }) kind rfl rfl
  have hlength := rxChar_going (now := now) (b := len) (kind := kind) (len := len) (rest := [])
    (r := { mode := .inFrame, bytes := [kind], lastChar := now }) rfl rfl hlen (by simp)
  have hrest := rxChars_inFrame (now := now) (kind := kind) hlen [] xs cs (by simpa using h)
  rw [show highChars (0xA5 :: kind :: len :: xs) ++ cs = { byte := 0xA5, stopHigh := true } :: { byte := kind, stopHigh := true } ::
    { byte := len, stopHigh := true } :: (highChars xs ++ cs) from rfl, rxChars_cons_going (rxChar_start hr),
    rxChars_cons_going hkind, List.nil_append, rxChars_cons_going hlength]
  exact hrest

/-- The last byte of a frame ends it: it passes where its last two bytes are its check. -/
theorem rxChar_frameEnd {now : Nat} (kind : Byte) {payload : List Byte} (hlen : payload.length ≤ 60) (hi lo : Byte) :
    rxChar now { byte := lo, stopHigh := true }
        { mode := .inFrame, bytes := kind :: byteOf payload.length :: (payload ++ [hi]), lastChar := now } =
      ({ mode := .hunting, bytes := [], lastChar := now },
        if [hi, lo] = wordBytes (crc16 (kind :: byteOf payload.length :: payload)) then .complete kind payload
        else .discarded .check (some kind)) := by
  have hbyte : (byteOf payload.length).toNat = payload.length := byteOf_toNat (by omega)
  have hlast := rxChar_last (now := now) (b := lo) (kind := kind) (len := byteOf payload.length) (rest := payload ++ [hi, lo])
    (r := { mode := .inFrame, bytes := kind :: byteOf payload.length :: (payload ++ [hi]), lastChar := now }) rfl (by simp)
    (by omega) (by simp [hbyte])
  rw [frameEnd_eq (by simp [hbyte])] at hlast
  simpa [hbyte] using hlast

/-- The bytes of a frame before its last one, from a hunting receiver. -/
theorem rxChars_untilEnd {now : Nat} {r : Receiver} (hr : r.mode = .hunting) (kind : Byte) {payload : List Byte}
    (hlen : payload.length ≤ 60) (hi : Byte) (cs : List RxChar) :
    rxChars now (highChars (0xA5 :: kind :: byteOf payload.length :: (payload ++ [hi])) ++ cs) r =
      rxChars now cs { mode := .inFrame, bytes := kind :: byteOf payload.length :: (payload ++ [hi]), lastChar := now } := by
  have hbyte : (byteOf payload.length).toNat = payload.length := byteOf_toNat (by omega)
  exact rxChars_untilLast hr (by omega) _ _ (by simp [hbyte])

/-- A hunting receiver takes a frame that carries its check. -/
theorem rxChars_wireFrame {now : Nat} {r : Receiver} (hr : r.mode = .hunting) (kind : Byte) {payload : List Byte}
    (hlen : payload.length ≤ 60) :
    rxChars now (highChars (wireFrame kind payload)) r =
      ({ mode := .hunting, bytes := [], lastChar := now }, .complete kind payload) := by
  have hsplit : highChars (wireFrame kind payload) =
      highChars (0xA5 :: kind :: byteOf payload.length :: (payload ++ [hiByte (crc16 (kind :: byteOf payload.length :: payload))])) ++
        [{ byte := loByte (crc16 (kind :: byteOf payload.length :: payload)), stopHigh := true }] := by
    simp [highChars, wireFrame, wordBytes]
  rw [hsplit, rxChars_untilEnd hr kind hlen]
  simp [rxChars, rxChar_frameEnd kind hlen, wordBytes]

/-- Settles O18: the layouts hold by definition, the codes by evaluation, and a frame that is sent is received. -/
theorem sentFramesPassTheReceiver : Obligations.SentFramesPassTheReceiver := by
  refine ⟨fun b stop => ⟨rfl, ?_⟩, fun kind payload => ⟨rfl, rfl⟩, ⟨rfl, by decide +kernel⟩, fun bytes b => ?_,
    fun hi lo => ⟨wordBytes_wordOf hi lo, wordOf_toNat hi lo⟩, fun now r kind payload hr hlen => ?_, fun n r => ⟨rfl, rfl, rfl⟩,
    fun t index c filler => ?_, fun p => ?_,
    fun st held n why station reason port err third kind bin number count => ⟨rfl, rfl, rfl, rfl, rfl, rfl, rfl, rfl⟩,
    fun part count items cls n f c => ⟨rfl, rfl, rfl, rfl, rfl, rfl, rfl, ?_⟩, by decide⟩
  · simp [charOf, byteOfLevels_levels]
  · simp only [crc16, List.foldl_append]
    rfl
  · exact rxChars_wireFrame hr kind hlen
  · cases hset : c.set <;> cases hsheet : c.sheet <;>
      simp [UpperFrame.content, noticeBytes, causeBytes, setBytes, zoneSetBytes, posBytes, flagsByte, flagBit, hset, hsheet]
  · cases hmore : p.more <;> cases hresume : p.resume <;>
      simp [UpperFrame.content, noticeBytes, summaryBytes, zoneSetBytes, flagsByte, flagBit, hmore, hresume]
  · cases hopen : c.isOpen <;> simp [UpperFrame.content, creditBytes, flagsByte, flagBit, hopen]

end Sys2Proof.Machine
end

