-- ==== Sys2Proof/Proofs/Discards.lean ====
section
/-! SUPPORT. Characters through a port: discards, frames that join or overflow, and the breaks of the service port. -/

namespace Sys2Proof.Machine

/-! ### The receiver of a port -/

@[simp] theorem receiverOf_setReceiver (port : Port) (r : Receiver) (s : State) :
    receiverOf port (setReceiver port r s) = r := by
  cases port <;> rfl

@[simp] theorem setReceiver_setReceiver (port : Port) (r r' : Receiver) (s : State) :
    setReceiver port r (setReceiver port r' s) = setReceiver port r s := by
  cases port <;> rfl

@[simp] theorem lineHigh_setReceiver (port : Port) (r : Receiver) (s : State) :
    lineHigh port (setReceiver port r s) = setReceiver port r (lineHigh port s) := by
  cases port <;> rfl

@[simp] theorem lineHigh_lineHigh (port : Port) (s : State) : lineHigh port (lineHigh port s) = lineHigh port s := by
  cases port <;> rfl

@[simp] theorem receiverOf_lineHigh (port : Port) (s : State) : receiverOf port (lineHigh port s) = receiverOf port s := by
  cases port <;> rfl

/-- A discard is on the line alone: it leaves the receiver, and the moment the line was high commutes with it. -/
@[simp] theorem receiverOf_discardFrame (port : Port) (reason : LinkReason) (kind : Option Byte) (s : State) :
    receiverOf port (discardFrame port reason kind s) = receiverOf port s := by
  cases port <;> simp [receiverOf]

theorem lineHigh_makeServiceNotice (n : Notice) (s : State) :
    lineHigh .service (makeServiceNotice n s) = makeServiceNotice n (lineHigh .service s) := by
  by_cases h : s.svc.notices.length < 8
  · rw [makeServiceNotice, if_pos h, makeServiceNotice, if_pos (show (lineHigh .service s).svc.notices.length < 8 from h)]
    rfl
  · rw [makeServiceNotice, if_neg h, makeServiceNotice, if_neg (show ¬(lineHigh .service s).svc.notices.length < 8 from h)]

theorem lineHigh_discardFrame (port : Port) (reason : LinkReason) (kind : Option Byte) (s : State) :
    lineHigh port (discardFrame port reason kind s) = discardFrame port reason kind (lineHigh port s) := by
  cases port
  case service => exact lineHigh_makeServiceNotice _ s
  all_goals rfl

theorem received_eq (port : Port) (s : State) :
    received port s = setReceiver port { mode := .hunting, bytes := [], lastChar := s.pos.clock } (lineHigh port s) := by
  simp [received, hunt]

@[simp] theorem setReceiver_received (port : Port) (r : Receiver) (s : State) :
    setReceiver port r (received port s) = setReceiver port r (lineHigh port s) := by
  simp [received_eq]

@[simp] theorem lineHigh_received (port : Port) (s : State) : lineHigh port (received port s) = received port s := by
  simp [received_eq]

@[simp] theorem received_pos (port : Port) (s : State) : (received port s).pos = s.pos := by
  simp

@[simp] theorem receiverOf_received (port : Port) (s : State) :
    receiverOf port (received port s) = { mode := .hunting, bytes := [], lastChar := s.pos.clock } := by
  simp [received_eq]

/-! ### Characters one by one -/

section
variable {port : Port} {c : RxChar} {cs : List RxChar} {s : State} {r : Receiver}

theorem takeChars_going (h : rxChar s.pos.clock c (receiverOf port s) = (r, .going)) :
    takeChars port (c :: cs) s = takeChars port cs (setReceiver port r (hear port c s)) := by
  simp [takeChars, h]

theorem takeChars_discarded {reason : LinkReason} {kind : Option Byte}
    (h : rxChar s.pos.clock c (receiverOf port s) = (r, .discarded reason kind)) :
    takeChars port (c :: cs) s = takeChars port cs (discardFrame port reason kind (setReceiver port r (lineHigh port s))) := by
  simp [takeChars, h]

theorem takeChars_complete {kind : Byte} {payload : List Byte}
    (h : rxChar s.pos.clock c (receiverOf port s) = (r, .complete kind payload)) : takeChars port (c :: cs) s = none := by
  simp [takeChars, h]

end

/-- A list of characters is taken one by one. -/
theorem takeChars_cons (port : Port) (c : RxChar) (cs : List RxChar) (s : State) :
    takeChars port (c :: cs) s = (takeChars port [c] s).bind (takeChars port cs) := by
  rcases h : rxChar s.pos.clock c (receiverOf port s) with ⟨r, _ | _ | _⟩
  · rw [takeChars_going h, takeChars_going h]
    rfl
  · rw [takeChars_discarded h, takeChars_discarded h]
    rfl
  · rw [takeChars_complete h, takeChars_complete h]
    rfl

/-- A character with a high stop bit shows the line high. -/
@[simp] theorem hear_high (port : Port) (b : Byte) (s : State) :
    hear port { byte := b, stopHigh := true } s = lineHigh port s := by
  simp [hear, holdsHigh]

/-- A port after characters whose stop bits were high: its receiver, and its line high now. -/
def heard (port : Port) (r : Receiver) (s : State) : State := setReceiver port r (lineHigh port s)

@[simp] theorem heard_clock (port : Port) (r : Receiver) (s : State) : (heard port r s).pos.clock = s.pos.clock := by
  simp [heard]

@[simp] theorem receiverOf_heard (port : Port) (r : Receiver) (s : State) : receiverOf port (heard port r s) = r := by
  simp [heard]

@[simp] theorem heard_heard (port : Port) (r r' : Receiver) (s : State) : heard port r (heard port r' s) = heard port r s := by
  simp [heard]

theorem received_heard (port : Port) (r : Receiver) (s : State) : received port (heard port r s) = received port s := by
  simp [received_eq, heard]

section
variable {port : Port} {b : Byte} {cs : List RxChar} {s : State} {r r' : Receiver}

theorem takeChars_high_going (h : rxChar s.pos.clock { byte := b, stopHigh := true } (receiverOf port s) = (r, .going)) :
    takeChars port ({ byte := b, stopHigh := true } :: cs) s = takeChars port cs (heard port r s) := by
  rw [takeChars_going h, hear_high, heard]

theorem takeChars_high_discarded {reason : LinkReason} {kind : Option Byte}
    (h : rxChar s.pos.clock { byte := b, stopHigh := true } (receiverOf port s) =
      ({ mode := .hunting, bytes := [], lastChar := s.pos.clock }, .discarded reason kind)) :
    takeChars port ({ byte := b, stopHigh := true } :: cs) s =
      takeChars port cs (discardFrame port reason kind (received port s)) := by
  rw [takeChars_discarded h, received_eq]

/-- Characters that a receiver takes without an end of a frame go through its port as through the receiver alone. -/
theorem takeChars_highChars {bytes : List Byte} (h : rxChars s.pos.clock (highChars bytes) r = (r', .going)) :
    takeChars port (highChars bytes ++ cs) (heard port r s) = takeChars port cs (heard port r' s) := by
  induction bytes generalizing r with
  | nil =>
    obtain ⟨rfl, -⟩ := Prod.mk.inj h
    rfl
  | cons b bytes ih =>
    rw [show highChars (b :: bytes) = { byte := b, stopHigh := true } :: highChars bytes from rfl] at h ⊢
    rcases hc : rxChar s.pos.clock { byte := b, stopHigh := true } r with ⟨r₁, _ | _ | _⟩
    · rw [rxChars_cons_going hc] at h
      rw [List.cons_append, takeChars_high_going (r := r₁) (by simpa using hc), heard_heard]
      exact ih h
    · simp [rxChars, hc] at h
    · simp [rxChars, hc] at h

end

/-- A hunting port before the last byte of a frame. -/
theorem takeChars_untilEnd {port : Port} {s : State} (hr : (receiverOf port s).mode = .hunting) (kind : Byte)
    {payload : List Byte} (hlen : payload.length ≤ 60) (hi : Byte) (cs : List RxChar) :
    takeChars port (highChars (0xA5 :: kind :: byteOf payload.length :: (payload ++ [hi])) ++ cs) s =
      takeChars port cs (heard port
        { mode := .inFrame, bytes := kind :: byteOf payload.length :: (payload ++ [hi]), lastChar := s.pos.clock } s) := by
  have hwhole := rxChars_untilEnd (now := s.pos.clock) hr kind hlen hi []
  rw [List.append_nil, show highChars (0xA5 :: kind :: byteOf payload.length :: (payload ++ [hi])) =
    { byte := 0xA5, stopHigh := true } :: highChars (kind :: byteOf payload.length :: (payload ++ [hi])) from rfl,
    rxChars_cons_going (rxChar_start hr)] at hwhole
  rw [show highChars (0xA5 :: kind :: byteOf payload.length :: (payload ++ [hi])) ++ cs =
    { byte := 0xA5, stopHigh := true } :: (highChars (kind :: byteOf payload.length :: (payload ++ [hi])) ++ cs) from rfl,
    takeChars_high_going (rxChar_start hr)]
  exact takeChars_highChars hwhole

/-! ### The gap -/

/-- The gap limit of a port, in CLK periods. -/
theorem gapLimit_eq (port : Port) : gapLimit port = if port = .service then 480000 else 24000 := by
  cases port <;> rfl

theorem gapDue_eq_true_iff (port : Port) (s : State) : gapDue port s = true ↔ (receiverOf port s).mode = .inFrame ∧
    (if port = .service then 480000 else 24000) < s.pos.clock - (receiverOf port s).lastChar := by
  rw [gapDue, gapLimit_eq, Bool.and_eq_true, decide_eq_true_iff, decide_eq_true_iff]

theorem discardGap_eq (port : Port) (s : State) : discardGap port s =
    discardFrame port .gap (receiverOf port s).bytes.head?
      (setReceiver port { mode := .hunting, bytes := [], lastChar := s.pos.clock } s) := rfl

/-- Characters within the gap limit are taken as they come. -/
theorem frameDiscard_inTime {port : Port} {s : State} (h : gapDue port s = false) (cs : List RxChar) :
    exec (.frameDiscard port cs) s = match takeChars port cs s with
      | some t => .next (finish t)
      | none => .next s := by
  simp only [exec, execFrameDiscard, beforeChars, h]
  rfl

/-- A character beyond the gap limit finds the frame under way discarded. -/
theorem frameDiscard_late {port : Port} {s : State} (h : gapDue port s = true) (c : RxChar) (cs : List RxChar) :
    exec (.frameDiscard port (c :: cs)) s = match takeChars port (c :: cs) (discardGap port s) with
      | some t => .next (finish t)
      | none => .next s := by
  simp only [exec, execFrameDiscard, beforeChars, h]
  rfl

theorem frameDiscard_some {port : Port} {s t : State} {cs : List RxChar} (h : gapDue port s = false)
    (ht : takeChars port cs s = some t) : exec (.frameDiscard port cs) s = .next (finish t) := by
  rw [frameDiscard_inTime h, ht]

theorem frameDiscard_none {port : Port} {s : State} {cs : List RxChar} (h : gapDue port s = false)
    (ht : takeChars port cs s = none) : exec (.frameDiscard port cs) s = .next s := by
  rw [frameDiscard_inTime h, ht]

/-! ### Discards at the character that decides them -/

section
variable {port : Port} {s : State}

theorem notGapDue_of_hunting (h : (receiverOf port s).mode = .hunting) : gapDue port s = false := by
  simp [gapDue, h]

theorem notGapDue_of_inTime
    (h : (receiverOf port s).mode = .inFrame → s.pos.clock - (receiverOf port s).lastChar ≤ if port = .service then 480000 else 24000) :
    gapDue port s = false := by
  rw [Bool.eq_false_iff, ne_eq, gapDue_eq_true_iff]
  exact fun hdue => Nat.not_lt.2 (h hdue.1) hdue.2

/-- A Length byte above 60 ends the frame. -/
theorem frameDiscard_length (h : (receiverOf port s).mode = .hunting) (kind : Byte) {len : Byte} (hlen : 60 < len.toNat) :
    exec (.frameDiscard port [⟨0xA5, true⟩, ⟨kind, true⟩, ⟨len, true⟩]) s =
      .next (finish (discardFrame port .length (some kind) (received port s))) := by
  refine frameDiscard_some (notGapDue_of_hunting h) ?_
  rw [takeChars_high_going (rxChar_start h), takeChars_high_going (by simpa using rxChar_kind kind rfl rfl), heard_heard,
    takeChars_high_discarded (by simpa using rxChar_length (kind := kind) (rest := []) rfl rfl hlen), received_heard]
  rfl

/-- A frame whose last two bytes are not its check ends at the second one. -/
theorem frameDiscard_check (h : (receiverOf port s).mode = .hunting) (kind : Byte) {payload : List Byte} {hi lo : Byte}
    (hlen : payload.length ≤ 60) (hcheck : [hi, lo] ≠ wordBytes (crc16 (kind :: byteOf payload.length :: payload))) :
    exec (.frameDiscard port ((0xA5 :: kind :: byteOf payload.length :: payload ++ [hi, lo]).map fun b => ⟨b, true⟩)) s =
      .next (finish (discardFrame port .check (some kind) (received port s))) := by
  refine frameDiscard_some (notGapDue_of_hunting h) ?_
  have hsplit : ((0xA5 :: kind :: byteOf payload.length :: payload ++ [hi, lo]).map fun b => (⟨b, true⟩ : RxChar)) =
      highChars (0xA5 :: kind :: byteOf payload.length :: (payload ++ [hi])) ++ [⟨lo, true⟩] := by
    simp [highChars]
  have hlast := rxChar_frameEnd (now := s.pos.clock) kind hlen hi lo
  rw [if_neg hcheck] at hlast
  rw [hsplit, takeChars_untilEnd h kind hlen, takeChars_high_discarded (by simpa using hlast), received_heard]
  rfl

/-- The characters of a frame that passes are no discard. -/
theorem frameDiscard_wireFrame (h : (receiverOf port s).mode = .hunting) (kind : Byte) {payload : List Byte}
    (hlen : payload.length ≤ 60) :
    exec (.frameDiscard port ((wireFrame kind payload).map fun b => ⟨b, true⟩)) s = .next s := by
  refine frameDiscard_none (notGapDue_of_hunting h) ?_
  have hsplit : ((wireFrame kind payload).map fun b => (⟨b, true⟩ : RxChar)) =
      highChars (0xA5 :: kind :: byteOf payload.length :: (payload ++ [hiByte (crc16 (kind :: byteOf payload.length :: payload))])) ++
        [⟨loByte (crc16 (kind :: byteOf payload.length :: payload)), true⟩] := by
    simp [highChars, wireFrame, wordBytes]
  have hlast := rxChar_frameEnd (now := s.pos.clock) kind hlen (hiByte (crc16 (kind :: byteOf payload.length :: payload)))
    (loByte (crc16 (kind :: byteOf payload.length :: payload)))
  rw [if_pos (by rfl)] at hlast
  rw [hsplit, takeChars_untilEnd h kind hlen, takeChars_complete (by simpa using hlast)]

/-- A low stop bit discards the frame under way. -/
theorem takeChars_framing (h : (receiverOf port s).mode = .inFrame) (b : Byte) (cs : List RxChar) :
    takeChars port (⟨b, false⟩ :: cs) s =
      takeChars port cs (discardFrame port .framing (receiverOf port s).bytes.head? (received port s)) := by
  rw [takeChars_discarded (rxChar_framing b h), received_eq]

/-- Start after a discard opens a new frame. -/
theorem takeChars_start {u : State} (h : (receiverOf port u).mode = .hunting) (hhigh : lineHigh port u = u) :
    takeChars port [⟨0xA5, true⟩] u = some (setReceiver port { mode := .inFrame, bytes := [], lastChar := u.pos.clock } u) := by
  rw [takeChars_high_going (rxChar_start h), heard, hhigh]
  rfl

@[simp] theorem discardFrame_clock (reason : LinkReason) (kind : Option Byte) :
    (discardFrame port reason kind s).pos.clock = s.pos.clock := by
  simp

theorem startAfterDiscard (reason : LinkReason) (kind : Option Byte) :
    takeChars port [⟨0xA5, true⟩] (discardFrame port reason kind (received port s)) =
      some (setReceiver port { mode := .inFrame, bytes := [], lastChar := s.pos.clock }
        (discardFrame port reason kind (received port s))) := by
  rw [takeChars_start (by simp) (by rw [lineHigh_discardFrame, lineHigh_received])]
  simp

/-- Start beyond the gap limit: the frame under way is discarded, and a new one is open. -/
theorem startAfterGap : takeChars port [⟨0xA5, true⟩] (discardGap port s) =
    some (setReceiver port { mode := .inFrame, bytes := [], lastChar := s.pos.clock }
      (discardFrame port .gap (receiverOf port s).bytes.head? (received port s))) := by
  rw [takeChars_high_going (rxChar_start (by simp [discardGap_eq])), heard, discardGap_eq, lineHigh_discardFrame,
    lineHigh_setReceiver, ← received_eq, discardFrame_clock]
  simp [takeChars]

end

/-- A byte into a frame under way, within the gap limit: it waits, or it ends the frame. -/
theorem frameDiscard_byte {port : Port} {s : State} (h : (receiverOf port s).mode = .inFrame) (htime : gapDue port s = false)
    (b : Byte) :
    let waits : Prop := exec (.frameDiscard port [⟨b, true⟩]) s = .next (finish (setReceiver port
      { mode := .inFrame, bytes := (receiverOf port s).bytes ++ [b], lastChar := s.pos.clock } (received port s)))
    let discarded : LinkReason → Prop := fun reason => exec (.frameDiscard port [⟨b, true⟩]) s =
      .next (finish (discardFrame port reason ((receiverOf port s).bytes ++ [b]).head? (received port s)))
    ((receiverOf port s).bytes = [] → waits) ∧
    ∀ (kind len : Byte) (rest : List Byte), (receiverOf port s).bytes ++ [b] = kind :: len :: rest →
      (60 < len.toNat → discarded .length) ∧
      (len.toNat ≤ 60 → rest.length < len.toNat + 2 → waits) ∧
      (len.toNat ≤ 60 → rest.length = len.toNat + 2 →
        let passes : Prop := rest.drop len.toNat = wordBytes (crc16 (kind :: len :: rest.take len.toNat))
        (¬ passes → discarded .check) ∧ (passes → exec (.frameDiscard port [⟨b, true⟩]) s = .next s)) := by
  simp only [setReceiver_received]
  refine ⟨fun hempty => ?_, fun kind len rest hbytes => ⟨fun hlen => ?_, fun hlen hrest => ?_, fun hlen hrest => ⟨fun hcheck => ?_,
    fun hcheck => ?_⟩⟩⟩
  · exact frameDiscard_some htime (takeChars_high_going (rxChar_kind b h hempty))
  · exact frameDiscard_some htime (by rw [takeChars_high_discarded (rxChar_length h hbytes hlen), hbytes]; rfl)
  · exact frameDiscard_some htime (takeChars_high_going (rxChar_going h hbytes hlen hrest))
  · have hlast := rxChar_last (now := s.pos.clock) h hbytes hlen hrest
    rw [frameEnd_eq hrest, if_neg hcheck] at hlast
    exact frameDiscard_some htime (by rw [takeChars_high_discarded hlast, hbytes]; rfl)
  · have hlast := rxChar_last (now := s.pos.clock) h hbytes hlen hrest
    rw [frameEnd_eq hrest, if_pos hcheck] at hlast
    exact frameDiscard_none htime (takeChars_complete hlast)

/-- In a frame a frame can complete within the gap limit, where the bytes held are its first. -/
theorem frameCompletes_inFrame_iff {port : Port} {s : State} (h : (receiverOf port s).mode = .inFrame) (kind : Byte)
    (payload : List Byte) :
    frameCompletes port kind payload s = true ↔
      s.pos.clock - (receiverOf port s).lastChar ≤ (if port = .service then 480000 else 24000) ∧
        ∃ rest, wireFrame kind payload = 0xA5 :: (receiverOf port s).bytes ++ rest := by
  have hgap : gapDue port s = false ↔
      s.pos.clock - (receiverOf port s).lastChar ≤ if port = .service then 480000 else 24000 := by
    rw [Bool.eq_false_iff, ne_eq, gapDue_eq_true_iff, not_and, Nat.not_lt]
    exact ⟨fun hle => hle h, fun hle _ => hle⟩
  have hprefix : (∃ rest, wireFrame kind payload = 0xA5 :: (receiverOf port s).bytes ++ rest) ↔
      (receiverOf port s).bytes <+: (wireFrame kind payload).tail :=
    ⟨fun ⟨rest, hrest⟩ => ⟨rest, by simp [hrest]⟩, fun ⟨rest, hrest⟩ => ⟨rest, by simp [hrest, wireFrame]⟩⟩
  rw [hprefix, ← hgap, ← List.isPrefixOf_iff_prefix]
  simp [frameCompletes, h]

/-- Settles O19: the end of a frame at the character that decides it, and the moment and the port of its LINK ERROR. -/
theorem badFramesAreDiscarded : Obligations.BadFramesAreDiscarded := by
  refine ⟨fun port s => ⟨fun h kind len => frameDiscard_length h kind, fun h kind payload hi lo => frameDiscard_check h kind,
    fun h htime b => ⟨?_, ?_⟩, fun h hlate => ⟨?_, ?_, fun c cs => ?_⟩, fun h htime => ?_, fun htime => ?_, rfl, fun c cs => takeChars_cons port c cs s,
    fun h => ⟨?_, fun b hb => ?_, fun kind payload => frameDiscard_wireFrame h kind⟩, fun kind payload => ⟨fun h => ?_,
      fun h => frameCompletes_inFrame_iff h kind payload, fun h => ?_⟩⟩, fun reason kind r s => ⟨?_, rfl, rfl, rfl, rfl, rfl, rfl, rfl,
      rfl, rfl, rfl⟩⟩
  · exact frameDiscard_some (notGapDue_of_inTime fun _ => htime) (takeChars_framing h b [])
  · exact frameDiscard_some (notGapDue_of_inTime fun _ => htime) (by rw [takeChars_framing h b, startAfterDiscard])
  · simp only [exec, execGap, (gapDue_eq_true_iff port s).2 ⟨h, hlate⟩]
    rfl
  · rw [frameDiscard_late ((gapDue_eq_true_iff port s).2 ⟨h, hlate⟩), startAfterGap]
  · exact frameDiscard_late ((gapDue_eq_true_iff port s).2 ⟨h, hlate⟩) c cs
  · exact frameDiscard_byte h (notGapDue_of_inTime fun _ => htime)
  · exact frameDiscard_inTime (notGapDue_of_inTime htime)
  · refine frameDiscard_some (notGapDue_of_hunting h) ?_
    rw [takeChars_high_going (rxChar_start h), setReceiver_received]
    rfl
  · refine frameDiscard_some (notGapDue_of_hunting h) ?_
    rw [takeChars_high_going (rxChar_hunting h hb), setReceiver_received]
    rfl
  · simp [frameCompletes, h]
  · simp [frameCompletes, h]
  · rintro port (rfl | rfl) <;> rfl

end Sys2Proof.Machine
end

