-- ==== Sys2Proof/Proofs/PassedFrames.lean ====
section
/-! SUPPORT. Frames that are passed on or held, and the breaks of the service port. -/

namespace Sys2Proof.Machine

/-! ### Queues of a port -/

theorem joinCommands_of_room {c : Command} {s : State} (h : s.link.commands.length < 16) :
    joinCommands c s = { s with link.commands := s.link.commands ++ [c] } := if_pos h

theorem joinCommands_of_full {c : Command} {s : State} (h : 16 ≤ s.link.commands.length) :
    joinCommands c s = makeNotice (.linkError .upper .overflow c.kind) s := if_neg (Nat.not_lt.2 h)

theorem forwardUp_of_room {kind : Byte} {payload : List Byte} {s : State} (h : s.link.reports.length < 32) :
    forwardUp kind payload s = { s with link.reports := s.link.reports ++ [{ kind := kind, payload := payload }] } := if_pos h

theorem forwardUp_of_full {kind : Byte} {payload : List Byte} {s : State} (h : 32 ≤ s.link.reports.length) :
    forwardUp kind payload s = makeNotice (.linkError .lower .overflow kind) s := if_neg (Nat.not_lt.2 h)

theorem passUp_of_room {kind : Byte} {payload : List Byte} {s : State} (h : s.link.reports.length < 32) :
    passUp kind payload s = { s with
      link.rxLower := { mode := .hunting, bytes := [], lastChar := s.pos.clock }
      link.reports := s.link.reports ++ [{ kind := kind, payload := payload }] } :=
  forwardUp_of_room (s := received .lower s) h

theorem passUp_of_full {kind : Byte} {payload : List Byte} {s : State} (h : 32 ≤ s.link.reports.length) :
    passUp kind payload s = makeNotice (.linkError .lower .overflow kind) (received .lower s) :=
  forwardUp_of_full (s := received .lower s) h

/-! ### Frames of another Length -/

theorem decodeOrder_of_otherLength {payload : List Byte} (h : payload.length ≠ 16) : decodeOrder payload = none := by
  simp only [decodeOrder]
  split
  · simp at h
  · rfl

theorem readFinisherReport_of_otherLength {kind : Byte} {payload : List Byte} (act : SetRec → State → Option State) (s : State)
    (h : payload.length ≠ 2) : readFinisherReport kind payload act s = makeNotice (.linkError .lower .format kind) s := by
  simp only [readFinisherReport]
  split
  · simp at h
  · rfl

/-- Settles O20: the queues take a frame or overflow, and a frame of another Length is not read. -/
theorem passedFramesJoinOrOverflow : Obligations.PassedFramesJoinOrOverflow := by
  intro kind payload s
  refine ⟨fun hroom => ⟨fun hc => ?_, fun hc => ?_⟩, fun hfull => ⟨fun hc => ?_, fun hc => ?_⟩,
    fun hc => ⟨fun hroom => ?_, fun hfull => ?_⟩, passUp_of_room, passUp_of_full, fun hlen hc => ?_, fun hlen hc => ?_,
    fun hlen hc => ?_, fun hlen hc => ?_, fun hlen hc => ?_⟩
  · rw [exec, execEngineCommand, takeFrame_eq hc, joinCommands_of_room (s := received .upper s) hroom]
    rfl
  · rw [exec, execBarrierCommand, takeFrame_eq hc, joinCommands_of_room (s := received .upper s) hroom]
    rfl
  · rw [exec, execEngineCommand, takeFrame_eq hc, joinCommands_of_full (s := received .upper s) hfull]
  · rw [exec, execBarrierCommand, takeFrame_eq hc, joinCommands_of_full (s := received .upper s) hfull]
  · rw [exec, execEngineReport, takeReport_eq hc, passUp_of_room hroom]
    rfl
  · rw [exec, execEngineReport, takeReport_eq hc, passUp_of_full hfull]
    rfl
  · rw [exec, execOrder, takeFrame_eq hc, decodeOrder_of_otherLength hlen]
    rfl
  · simp only [exec, execSpeedReady, takeReport_eq hc]
    split
    · simp at hlen
    · rfl
  · rw [exec, execSetFault, takeReport_eq hc, readFinisherReport_of_otherLength _ _ hlen]
  · rw [exec, execSetCleared, takeReport_eq hc, readFinisherReport_of_otherLength _ _ hlen]
  · simp only [exec, execEngineCredit, takeFrame_eq hc]
    split
    · simp at hlen
    · rfl

/-- Settles O21: a MANAGE frame of each port waits, is too short, or finds its holding full. -/
theorem manageFramesAreHeld : Obligations.ManageFramesAreHeld := by
  intro payload s
  refine ⟨fun hc => ?_, fun hc => ?_⟩
  · simp only [exec, execManage, takeFrame_eq hc, holdUpper]
    refine ⟨fun hlen hroom => ?_, fun hshort => ?_, fun hlen hfull => ?_⟩
    · rw [if_neg (Nat.not_lt.2 hlen), if_pos (show (received .upper s).link.holding.length < 4 from hroom)]
      rfl
    · rw [if_pos hshort]
      rfl
    · rw [if_neg (Nat.not_lt.2 hlen), if_neg (show ¬(received .upper s).link.holding.length < 4 from Nat.not_lt.2 hfull)]
      rfl
  · simp only [exec, execManage, takeFrame_eq hc, holdService]
    refine ⟨fun hlen hfree => ?_, fun hshort => ?_, fun hlen hheld => ?_⟩
    · rw [if_neg (Nat.not_lt.2 hlen), if_neg (by simp [hfree])]
      rfl
    · rw [if_pos hshort]
      rfl
    · rw [if_neg (Nat.not_lt.2 hlen), if_pos (by simpa using hheld)]
      rfl

/-! ### Breaks -/

theorem captureAfterServiceReset_service {c : Capture} (h : c.owner = .service) :
    captureAfterServiceReset c = { c with owner := .free, state := .disarmed, post := none, buffer := [] } := if_pos h

theorem captureAfterServiceReset_other {c : Capture} (h : c.owner ≠ .service) : captureAfterServiceReset c = c := if_neg h

theorem breakDue_of_longLow {s : State} (hmode : s.svc.rx.mode ≠ .lineLow) (hlow : 240000 ≤ s.pos.clock - s.svc.highAt) :
    breakDue s = true := by
  rw [breakDue, Bool.and_eq_true, decide_eq_true_iff]
  exact ⟨by simp [serviceLineLow, hmode], hlow⟩

/-- An emptied service port grants nothing. -/
theorem finish_breakTaken_svc (s : State) : (finish (breakTaken s)).svc = (breakTaken s).svc := by
  rcases htx : s.svc.tx with _ | f <;> simp [finish_service, grantService, breakTaken, htx]

/-- A break empties the port it falls on, so that the transmitters that had nothing to send have nothing. -/
theorem granted_breakTaken {s : State} (h : Granted s) : Granted (breakTaken s) := by
  obtain ⟨hlower, hupper, -, hbarriers⟩ := h
  exact ⟨hlower, hupper, fun _ => ⟨rfl, rfl⟩, hbarriers⟩

/-- Settles O22: the frame that is no MANAGE, the break and the return of the line. -/
theorem servicePortBreaks : Obligations.ServicePortBreaks := by
  intro kind payload s
  refine ⟨fun hc => ?_, fun hmode hlow => ⟨finish (breakTaken s), ?_, finish_breakTaken_svc s, fun howner => ?_, fun howner => ?_,
    by simp [breakTaken], by simp [breakTaken], by simp [breakTaken], by simp [breakTaken], by simp [breakTaken],
    by simp [breakTaken], by simp [breakTaken], by simp [breakTaken], by simp [breakTaken], by simp [breakTaken], fun hg => ?_⟩,
    fun hlow => ?_⟩
  · rw [exec, execServiceManageDiscard, takeFrame_eq hc]
    rfl
  · rw [exec, execServiceReset_eq, breakDue_of_longLow hmode hlow]
    rfl
  · simp [breakTaken, captureAfterServiceReset_service howner]
  · simp [breakTaken, captureAfterServiceReset_other howner]
  · rw [(granted_iff _).1 (granted_breakTaken hg)]
    rfl
  · have hline : serviceLineLow s = true := by simpa [serviceLineLow] using hlow
    rw [exec, execServiceLineReturnsHigh, hline]
    rfl

end Sys2Proof.Machine
end

