-- ==== Sys2Proof/Proofs/WholeResets.lean ====
section
/-! SUPPORT. The two resets of the whole part. -/

namespace Sys2Proof.Machine

/-- The part at a reset of the whole part, before its STATE event and notice. -/
def restartState (cause : ResetCause) (s : State) : State :=
  { State.reset with
    pending := s.pending
    load := .start s.load.memory
    free := s.free
    pos := { PosCounter.initial with trunRaw := s.pos.trunRaw, trunQual := s.pos.trunRaw }
    front := { FrontEnd.initial with
      stations := tabulate fun i => { StationSense.initial with raw := (s.front.stations[i]).raw }
      covers := tabulate fun i =>
        { CoverSense.initial with rawClosed := (s.front.covers[i]).rawClosed, closed := (s.front.covers[i]).rawClosed } }
    sup := { State.reset.sup with resetCause := cause }
    svc := { ServicePort.initial with claim := (captureAfterReset cause s.cap).owner = .service }
    cap := captureAfterReset cause s.cap }

/-- The STATE event of a reset. -/
def startingRecord : TraceRec := { kind := .state, p := 0, ms := 0, station := none, order := none, detail := 0 }

theorem wholeReset_eq (cause : ResetCause) (s : State) :
    wholeReset cause s =
      if s.sup.state = .starting then offerEvent .state 0 none none 0 (restartState cause s)
      else makeNotice (.state .starting none) (offerEvent .state 0 none none 0 (restartState cause s)) := rfl

/-- The restarted part with a capture, and what its two transmitters send. -/
def restarted (cause : ResetCause) (c : Capture) (tx : Option ServiceFrame) (s : State) : State :=
  { restartState cause s with
    cap := c
    svc := { (restartState cause s).svc with tx := tx }
    link := { Link.initial with
      upperTx := if s.sup.state = .starting then none else some (.notice (.state .starting none)) } }

/-- What the service port sends after the STATE event of a reset has been offered to the capture. -/
def stoppedNotice (c : Capture) : Option ServiceFrame :=
  if c.state = .stopped then some (.notice (.captureDone c.buffer.length)) else none

/-- A reset that offers no event to a capture. -/
theorem finish_wholeReset_quiet {cause : ResetCause} {s : State}
    (h : ¬((captureAfterReset cause s.cap).state = .running ∧ (captureAfterReset cause s.cap).mask.getLsbD 9 = true)) :
    finish (wholeReset cause s) = restarted cause (captureAfterReset cause s.cap) none s := by
  have hevent : offerEvent .state 0 none none 0 (restartState cause s) = restartState cause s := if_neg h
  rw [wholeReset_eq, hevent]
  by_cases hstate : s.sup.state = .starting
  · rw [if_pos hstate, restarted, if_pos hstate]
    rfl
  · rw [if_neg hstate, restarted, if_neg hstate]
    rfl

/-- A reset whose STATE event the surviving capture of SERVICE records. -/
theorem finish_wholeReset_recorded {cause : ResetCause} {s : State} (howner : (captureAfterReset cause s.cap).owner = .service)
    (h : (captureAfterReset cause s.cap).state = .running ∧ (captureAfterReset cause s.cap).mask.getLsbD 9 = true) :
    finish (wholeReset cause s) = restarted cause (addRecord startingRecord (captureAfterReset cause s.cap))
      (stoppedNotice (addRecord startingRecord (captureAfterReset cause s.cap))) s := by
  have hclaim : (restartState cause s).svc.claim = true := by simp [restartState, howner]
  by_cases hstop : (addRecord startingRecord (captureAfterReset cause s.cap)).state = .stopped
  · have hevent : offerEvent .state 0 none none 0 (restartState cause s) =
        { restartState cause s with
          cap := addRecord startingRecord (captureAfterReset cause s.cap)
          svc.notices := [.captureDone (addRecord startingRecord (captureAfterReset cause s.cap)).buffer.length] } := by
      refine (if_pos h).trans ((if_pos hstop).trans ?_)
      simp only [makeCaptureDone]
      rw [if_pos (by exact hclaim)]
      rfl
    rw [wholeReset_eq, hevent, stoppedNotice, if_pos hstop]
    by_cases hstate : s.sup.state = .starting
    · rw [if_pos hstate, restarted, if_pos hstate]
      rfl
    · rw [if_neg hstate, restarted, if_neg hstate]
      rfl
  · have hevent : offerEvent .state 0 none none 0 (restartState cause s) =
        { restartState cause s with cap := addRecord startingRecord (captureAfterReset cause s.cap) } :=
      (if_pos h).trans (if_neg hstop)
    rw [wholeReset_eq, hevent, stoppedNotice, if_neg hstop]
    by_cases hstate : s.sup.state = .starting
    · rw [if_pos hstate, restarted, if_pos hstate]
      rfl
    · rw [if_neg hstate, restarted, if_neg hstate]
      rfl

theorem restarted_restarted (cause : ResetCause) {c : Capture} (tx : Option ServiceFrame) (s : State)
    (howner : c.owner = (captureAfterReset cause s.cap).owner) : Restarted s (restarted cause c tx s) := by
  simp [Restarted, restarted, restartState, State.reset, howner, Loader.start, StationSense.initial, CoverSense.initial,
    FrontEnd.initial, Link.initial, ServicePort.initial]

theorem noticesHeld_restarted (cause : ResetCause) (c : Capture) (tx : Option ServiceFrame) (s : State) :
    noticesHeld (restarted cause c tx s) = if s.sup.state = .starting then [] else [.state .starting none] := by
  by_cases hstate : s.sup.state = .starting <;> simp [noticesHeld, restarted, hstate, Link.initial]

@[simp] theorem captureAfterReset_power (c : Capture) : captureAfterReset .power c = .initial := if_neg (by simp)

theorem captureAfterReset_pin {c : Capture} (h : c.owner = .service) : captureAfterReset .pin c = c := if_pos ⟨rfl, h⟩

theorem captureAfterReset_pin_other {c : Capture} (h : c.owner ≠ .service) : captureAfterReset .pin c = .initial :=
  if_neg (by simp [h])

theorem addRecord_owner (r : TraceRec) (c : Capture) : (addRecord r c).owner = c.owner := by
  simp only [addRecord]
  split <;> rfl

theorem addRecord_mode (r : TraceRec) (c : Capture) : (addRecord r c).mode = c.mode := by
  simp only [addRecord]
  split <;> simp_all

theorem addRecord_mask (r : TraceRec) (c : Capture) : (addRecord r c).mask = c.mask := by
  simp only [addRecord]
  split <;> rfl

theorem addRecord_count {r : TraceRec} {c : Capture} {n : Nat} (h : c.mode = .count n) :
    addRecord r c = { c with
      buffer := c.buffer ++ [r]
      state := if n ≤ c.buffer.length + 1 then .stopped else c.state } := by
  simp [addRecord, h]

theorem addRecord_trigger {r : TraceRec} {c : Capture} {k : EventKind} {count : Nat} (h : c.mode = .trigger k count) :
    (addRecord r c).buffer = (if 512 ≤ c.buffer.length then c.buffer.drop 1 else c.buffer) ++ [r] ∧
    ((addRecord r c).post = match c.post with
      | none => if r.kind = k then some count else none
      | some m => some (m - 1)) ∧
    (addRecord r c).state = if (addRecord r c).post = some 0 then .stopped else c.state := by
  refine ⟨?_, ?_, ?_⟩ <;> simp only [addRecord, h] <;> rfl

/-- Settles O12: what a reset leaves, with the capture initial, untouched, or with the STATE event recorded. -/
theorem powerAndPinResetRestartThePart : Obligations.PowerAndPinResetRestartThePart := by
  intro s
  constructor
  · have hreset : finish (wholeReset .power s) = restarted .power .initial none s := by
      rw [finish_wholeReset_quiet (by simp [Capture.initial]), captureAfterReset_power]
    exact ⟨_, congrArg Host.Outcome.next hreset, restarted_restarted _ _ _ (by simp), rfl, rfl, rfl, noticesHeld_restarted _ _ _ _⟩
  · by_cases howner : s.cap.owner = .service
    · have hcap := captureAfterReset_pin howner
      by_cases hevent : s.cap.state = .running ∧ s.cap.mask.getLsbD 9 = true
      · have hreset := finish_wholeReset_recorded (cause := .pin) (s := s) (by rwa [hcap]) (by rwa [hcap])
        rw [hcap] at hreset
        refine ⟨_, congrArg Host.Outcome.next hreset, restarted_restarted _ _ _ (by rw [hcap, addRecord_owner]), rfl, noticesHeld_restarted _ _ _ _,
          fun h => absurd howner h, fun _ => ⟨(addRecord_owner _ _).trans howner, addRecord_mode _ _, addRecord_mask _ _,
            fun h => ?_, fun hrunning hmask => ⟨fun n hn => ?_, fun k count hk => ?_, rfl⟩⟩⟩
        · rcases h with h | h
          · exact absurd hevent.1 h
          · exact absurd (hevent.2.symm.trans h) (by simp)
        · simp [restarted, addRecord_count hn, hrunning, startingRecord]
        · obtain ⟨hbuffer, hpost, hstate⟩ := addRecord_trigger (r := startingRecord) hk
          rw [hrunning] at hstate
          refine ⟨hbuffer, ?_, hstate⟩
          rw [show (restarted .pin (addRecord startingRecord s.cap) _ s).cap = addRecord startingRecord s.cap from rfl, hpost]
          simp only [startingRecord, eq_comm] <;> rfl
      · have hreset := finish_wholeReset_quiet (cause := .pin) (s := s) (by rwa [hcap])
        rw [hcap] at hreset
        refine ⟨_, congrArg Host.Outcome.next hreset, restarted_restarted _ _ _ (by rw [hcap]), rfl, noticesHeld_restarted _ _ _ _,
          fun h => absurd howner h, fun _ => ⟨howner, rfl, rfl, fun _ => ⟨rfl, rfl⟩, fun hrunning hmask => ?_⟩⟩
        exact absurd ⟨hrunning, hmask⟩ hevent
    · have hcap := captureAfterReset_pin_other howner
      have hreset := finish_wholeReset_quiet (cause := .pin) (s := s) (by simp [hcap, Capture.initial])
      rw [hcap] at hreset
      exact ⟨_, congrArg Host.Outcome.next hreset, restarted_restarted _ _ _ (by rw [hcap]), rfl, noticesHeld_restarted _ _ _ _,
        fun _ => ⟨rfl, rfl⟩, fun h => absurd h howner⟩

end Sys2Proof.Machine
end

