-- ==== Sys2Proof/Proofs/Autoload.lean ====
section
/-! SUPPORT. The loader's periods, the end of autoload, and the state that follows it. -/

namespace Sys2Proof.Machine

/-! ### The sensing of a station whose record is applied -/

@[simp] theorem senseAfterWrite_raw (old new : StationRec) (x : StationSense) : (senseAfterWrite old new x).raw = x.raw := by
  simp only [senseAfterWrite]
  (repeat' split) <;> rfl

theorem senseAfterWrite_qual (old new : StationRec) (x : StationSense) :
    (senseAfterWrite old new x).qual = (new.defined && if old.defined then x.qual else x.raw) := by
  cases hnew : new.defined <;> cases hold : old.defined <;>
    simp [senseAfterWrite, hnew, hold, StationSense.defineAt, StationSense.undefine]

/-! ### One period of the loader -/

/-- The state in one period of the loader, before a bit is sampled. -/
def loaderClocked (s : State) : State :=
  { s with
    load.periods := s.load.periods + 1
    load.mclk := decide (12 ≤ (s.load.periods + 1) % 24)
    load.mdo := mdoLevel ((s.load.periods + 1) / 24) }

theorem loaderPeriod_eq {s : State} (h : s.load.msel = true) :
    loaderPeriod s =
      if (s.load.periods + 1) % 24 = 12 ∧ 24 ≤ (s.load.periods + 1) / 24 then
        sampleMdi ((s.load.periods + 1) / 24 - 24) (loaderClocked s)
      else loaderClocked s := by
  rw [loaderPeriod, if_pos h]
  rfl

theorem loaderPeriod_clock {s : State} (h : s.load.msel = true)
    (hn : (s.load.periods + 1) % 24 ≠ 12 ∨ s.load.periods + 1 < 576) : loaderPeriod s = loaderClocked s := by
  rw [loaderPeriod_eq h, if_neg]
  omega

theorem loaderPeriod_sample {s : State} (h : s.load.msel = true) {i : Nat} (hn : s.load.periods + 1 = 24 * (24 + i) + 12) :
    loaderPeriod s = sampleMdi i (loaderClocked s) := by
  rw [loaderPeriod_eq h, if_pos (by omega), show (s.load.periods + 1) / 24 - 24 = i by omega]

/-! ### The end of autoload -/

/-- A change of part state on neither side of STANDBY leaves the sensing. -/
theorem enterState_front {st : PartState} {s : State} (hfrom : s.sup.state ≠ .standby) (hto : st ≠ .standby) :
    (enterState st s).front = s.front := by
  simp only [enterState]
  split
  · rfl
  · simp [enterSensing, hfrom, hto, enterTimers]

@[simp] theorem clearMarks_orders (s : State) : (clearMarks s).ret.entries.map (·.order) = s.ret.entries.map (·.order) := by
  simp [clearMarks]

/-- A load ends with emptied tables, or with its tables checked. -/
theorem loadEnd_cases (r : Reading) (t : Tables) :
    (∃ result, loadEnd r t = emptyTablesWith result) ∨
      loadEnd r t = { t with checked := true, loadResult := { outcome := .loaded, length := r.length, fault := none } } := by
  simp only [loadEnd]
  split
  · split
    · exact .inl ⟨_, rfl⟩
    · exact .inr rfl
  · exact .inl ⟨_, rfl⟩
  · exact .inl ⟨_, rfl⟩

theorem emptyTablesWith_undefined (result : LoadResult) (st : Station) :
    ((emptyTablesWith result).stations[st]).defined = false := by
  simp [emptyTablesWith, Tables.empty, StationRec.undefined]

/-- A station is covered after the load where it is defined and its level, as the load found it, is covered. -/
theorem loadEnd_qual (r : Reading) (t : Tables) (old : StationRec) (x : StationSense) (st : Station) :
    (senseAfterWrite t.stations[st] (loadEnd r t).stations[st] (senseAfterWrite old t.stations[st] x)).qual =
      (((loadEnd r t).stations[st]).defined && if old.defined then x.qual else x.raw) := by
  rcases loadEnd_cases r t with ⟨result, h⟩ | h
  · rw [h, senseAfterWrite_qual, emptyTablesWith_undefined, Bool.false_and, Bool.false_and]
  · rw [h, senseAfterWrite_qual, senseAfterWrite_qual]
    cases (t.stations[st]).defined <;> simp

/-- What the state that follows a passed load leaves: IDLE without a covered station, else AWAIT CLEAR. -/
theorem idleOrForeign_state (s : State) :
    (idleOrForeign s).sup.state =
      if ∃ st : Station, ((s.tables.stations[st]).defined && (s.front.stations[st]).qual) = true then .awaitClear else .idle := by
  have hcovered : coveredStations s = [] ↔
      ¬∃ st : Station, ((s.tables.stations[st]).defined && (s.front.stations[st]).qual) = true := by
    simp [coveredStations, indexesWhere, List.filter_eq_nil_iff]
  simp only [idleOrForeign]
  split
  next h => rw [if_neg (hcovered.1 h), enterState_state]
  next st rest h =>
    rw [if_pos (Classical.not_not.1 fun hnone => by simp [hcovered.2 hnone] at h), foreignSheet, enterState_state]

theorem idleOrForeign_front {s : State} (h : s.sup.state ≠ .standby) : (idleOrForeign s).front = s.front := by
  simp only [idleOrForeign]
  split
  · exact enterState_front h (by simp)
  · rw [foreignSheet, enterState_front (by simpa using h) (by simp)]
    simp

@[simp] theorem idleOrForeign_orders (s : State) : (idleOrForeign s).ret.entries.map (·.order) = s.ret.entries.map (·.order) := by
  simp only [idleOrForeign]
  split
  · simp
  · simp [foreignSheet, clearMarks]

/-- The state at the end of autoload, before the state that follows is chosen. -/
def autoloadTaken (image : List Word) (s : State) : State :=
  queueControl .linkStart (applyTables (loadEnd (endTransfer image s).load.reading (endTransfer image s).tables)
    (endTransfer image s))

theorem endAutoload_eq (image : List Word) (s : State) :
    endAutoload image s =
      if (autoloadTaken image s).tables.checked then idleOrForeign (autoloadTaken image s)
      else enterState .unconfigured (autoloadTaken image s) := rfl

theorem autoloadTaken_stations (image : List Word) (s : State) (st : Station) :
    (autoloadTaken image s).front.stations[st] =
      senseAfterWrite (endTransfer image s).tables.stations[st] (autoloadTaken image s).tables.stations[st]
        (senseAfterWrite s.tables.stations[st] (endTransfer image s).tables.stations[st] s.front.stations[st]) := by
  simp [autoloadTaken, queueControl, applyTables, endTransfer]

theorem endAutoload_front {image : List Word} {s : State} (h : s.sup.state = .starting) :
    (endAutoload image s).front = (autoloadTaken image s).front := by
  have hstate : (autoloadTaken image s).sup.state ≠ .standby := by simp [autoloadTaken, h]
  rw [endAutoload_eq]
  split
  · exact idleOrForeign_front hstate
  · exact enterState_front hstate (by simp)

/-- While a PATH CONTROL frame waits, the end of a command takes no command from its queue. -/
theorem finish_commands_of_control {s : State} (h : s.link.pathControl ≠ []) :
    (finish s).link.commands.map (fun c => (c.kind, c.payload)) = s.link.commands.map fun c => (c.kind, c.payload) := by
  obtain ⟨f, rest, hcontrol⟩ := List.exists_cons_of_ne_nil h
  rcases htx : s.link.lowerTx with _ | g <;>
    simp [finish_lower, grantLower, htx, hcontrol, retestBarriers_commands]

theorem endAutoload_state (image : List Word) (s : State) :
    (endAutoload image s).sup.state =
      (if (autoloadTaken image s).tables.checked = false then .unconfigured
       else if ∃ st : Station, (((autoloadTaken image s).tables.stations[st]).defined &&
         ((autoloadTaken image s).front.stations[st]).qual) = true then .awaitClear
       else .idle) := by
  rw [endAutoload_eq]
  split
  next h => rw [if_neg (by simp [h]), idleOrForeign_state]
  next h => rw [if_pos (by simpa using h), enterState_state]

/-- Settles O13: the periods of the loader, one by one, and the end of autoload from the words it has not read. -/
theorem autoloadEndLeavesStarting : Obligations.AutoloadEndLeavesStarting := by
  refine ⟨fun s hmsel => ⟨loaderPeriod_clock hmsel, fun i hn => ⟨fun hi => ?_, fun hi => ⟨?_, fun st => ?_⟩⟩⟩,
    fun image s hstate hread => ?_⟩
  · rw [loaderPeriod_sample hmsel hn, sampleMdi, if_neg hi]
    rfl
  · have hclock : (loaderClocked s).load.mclk = true := by
      simp [loaderClocked, hn]
    rw [loaderPeriod_sample hmsel hn, sampleMdi, if_pos hi]
    simp only [takeWord, hclock, Bool.true_and]
    rfl
  · rw [loaderPeriod_sample hmsel hn, sampleMdi, if_pos hi]
    simp only [takeWord]
    rw [applyTables_stations]
    rfl
  · have hdue : (s.sup.state = .starting && agreesWithRead image s) = true := by simp [hstate, agreesWithRead, hread]
    have hqual : ∀ st : Station, ((autoloadTaken image s).front.stations[st]).qual =
        (((autoloadTaken image s).tables.stations[st]).defined &&
          if (s.tables.stations[st]).defined then (s.front.stations[st]).qual else (s.front.stations[st]).raw) := by
      intro st
      rw [autoloadTaken_stations]
      exact loadEnd_qual _ _ _ _ st
    refine ⟨finish (endAutoload image s), ?_, ?_, fun hended => loadWords_ended hended _, ?_, ?_, fun st => ⟨?_, ?_⟩, ?_, ?_, ?_, ?_, ?_,
      ?_, ?_, ?_, ?_, ?_, ?_⟩
    · simp only [exec, execAutoloadEnd, hdue]
      rfl
    · rw [endAutoload_eq]
      split <;> simp [autoloadTaken]
    · rw [endAutoload_eq]
      split <;> simp [autoloadTaken]
    · rw [controlHeld_finish, endAutoload_eq]
      split <;> simp [autoloadTaken, controlHeld]
    · simp only [finish_frame, endAutoload_front hstate, autoloadTaken_stations, senseAfterWrite_raw]
    · simp only [finish_frame, endAutoload_front hstate]
      exact hqual st
    · simp only [finish_frame, endAutoload_state, hqual, Bool.and_self_left]
      rfl
    · simp
    · simp
    · rw [endAutoload_eq]
      split <;> simp [autoloadTaken]
    · simp
    · simp
    · simp
    · simp
    · simp
    · simp
    · have hcontrol : (endAutoload image s).link.pathControl ≠ [] := by
        rw [endAutoload_eq]
        split <;> simp [autoloadTaken]
      rw [finish_commands_of_control hcontrol]
      simp

end Sys2Proof.Machine
end

