-- ==== Sys2Proof/Proofs/Orders.lean ====
section
/-! SUPPORT. ORDER: its checks and its acceptance. The engine CREDIT. -/

namespace Sys2Proof.Machine

/-! ### The checks of an ORDER -/

theorem indexOf_eq_some_iff {n : Nat} {b : Byte} {i : Fin n} : indexOf n b = some i ↔ i.val = b.toNat := by
  simp only [indexOf]
  split
  next h => simp [Fin.ext_iff, eq_comm]
  next h => simpa using fun hi : i.val = b.toNat => h (hi ▸ i.isLt)

theorem orderFieldsOf_eq_some_iff {t : Tables} {o : OrderFields} {r : RouteIx} {c : SpeedClass} :
    orderFieldsOf t o = some (r, c) ↔ r.val = o.route.toNat ∧ c.val = o.cls.toNat ∧ isPrintRoute t.routes[r] = true ∧
      500 ≤ o.length.toNat ∧ o.length.toNat ≤ 6000 := by
  simp only [orderFieldsOf, Option.bind_eq_bind, Option.bind_eq_some_iff, indexOf_eq_some_iff, Option.ite_none_right_eq_some,
    Option.some.injEq, Prod.mk.injEq, Bool.and_eq_true, decide_eq_true_iff]
  constructor
  · rintro ⟨r', hr, c', hc, ⟨⟨hprint, hlow⟩, hhigh⟩, rfl, rfl⟩
    exact ⟨hr, hc, hprint, hlow, hhigh⟩
  · rintro ⟨hr, hc, hprint, hlow, hhigh⟩
    exact ⟨r, hr, c, hc, ⟨⟨hprint, hlow⟩, hhigh⟩, rfl, rfl⟩

section
variable {s : State} {o : OrderFields}

theorem checkOrder_notReady (h : s.sup.state = .starting ∨ s.sup.state = .unconfigured) :
    checkOrder s o = .error .notReady := by
  rcases h with h | h <;> simp [checkOrder, h]

variable (hstarting : s.sup.state ≠ .starting) (hunconfigured : s.sup.state ≠ .unconfigured)
include hstarting hunconfigured

theorem checkOrder_sequence (h : ∃ e, s.ret.expected = some e ∧ o.order ≠ e) : checkOrder s o = .error .sequence := by
  obtain ⟨e, he, hne⟩ := h
  simp [checkOrder, hstarting, hunconfigured, sequenceOk, he, hne]

variable (hexpected : ∀ e, s.ret.expected = some e → o.order = e)
include hexpected

theorem sequenceOk_of_expected : sequenceOk s o.order = true := by
  rw [sequenceOk_iff]
  rcases h : s.ret.expected with _ | e
  · exact .inl rfl
  · exact .inr (by rw [hexpected e h])

theorem checkOrder_noCredit (h : 32 ≤ s.ret.entries.length) : checkOrder s o = .error .noCredit := by
  simp [checkOrder, hstarting, hunconfigured, sequenceOk_of_expected hstarting hunconfigured hexpected, h]

theorem checkOrder_field (hroom : s.ret.entries.length < 32)
    (h : ∀ r c, orderFieldsOf s.tables o = some (r, c) →
      setRefused s (s.tables.routes[r]).bin o.setNumber o.setLast = true) : checkOrder s o = .error .field := by
  simp only [checkOrder, hstarting, hunconfigured, sequenceOk_of_expected hstarting hunconfigured hexpected, Nat.not_le.2 hroom]
  rcases hfields : orderFieldsOf s.tables o with _ | ⟨r, c⟩
  · rfl
  · simp only [h r c hfields]
    rfl

theorem checkOrder_ok (hroom : s.ret.entries.length < 32) {r : RouteIx} {c : SpeedClass}
    (hfields : orderFieldsOf s.tables o = some (r, c))
    (hset : setRefused s (s.tables.routes[r]).bin o.setNumber o.setLast = false) : checkOrder s o = .ok (entryOf o r c) := by
  simp only [checkOrder, hstarting, hunconfigured, sequenceOk_of_expected hstarting hunconfigured hexpected, Nat.not_le.2 hroom,
    hfields, hset]
  rfl

end

/-! ### The wake -/

theorem wakeToIdle_state (s : State) : (wakeToIdle s).sup.state = if s.sup.state = .standby then .idle else s.sup.state := by
  simp only [wakeToIdle]
  split <;> simp_all

/-- The wake leaves what the checks of an ORDER look at. -/
theorem checkOrder_wakeToIdle (s : State) (o : OrderFields) : checkOrder (wakeToIdle s) o = checkOrder s o := by
  have hstarting : (wakeToIdle s).sup.state = .starting ↔ s.sup.state = .starting := by
    rw [wakeToIdle_state]
    split <;> simp_all
  have hunconfigured : (wakeToIdle s).sup.state = .unconfigured ↔ s.sup.state = .unconfigured := by
    rw [wakeToIdle_state]
    split <;> simp_all
  simp [checkOrder, hstarting, hunconfigured, sequenceOk, setRefused, findSet]

theorem checkOrder_received (s : State) (o : OrderFields) : checkOrder (received .upper s) o = checkOrder s o := rfl

/-- An ORDER that its receiver completes: the wake, and a refusal or the acceptance. -/
theorem exec_order {payload : List Byte} {o : OrderFields} {s : State} (hdecode : decodeOrder payload = some o)
    (hc : frameCompletes .upper 0x10 payload s = true) :
    exec (.order payload) s = .next (finish (match checkOrder s o with
      | .error reason => makeNotice (.orderRefused o.order reason) (wakeToIdle (received .upper s))
      | .ok e => forwarderPass (acceptEntry e (wakeToIdle (received .upper s))))) := by
  rw [exec, execOrder, takeFrame_eq hc, hdecode]
  simp only [takeOrder, checkOrder_wakeToIdle, checkOrder_received] <;> rfl

theorem exec_order_refused {payload : List Byte} {o : OrderFields} {s : State} {reason : OrderRefusal}
    (hdecode : decodeOrder payload = some o) (hc : frameCompletes .upper 0x10 payload s = true)
    (h : checkOrder s o = .error reason) :
    exec (.order payload) s = .next (finish (makeNotice (.orderRefused o.order reason) (wakeToIdle (received .upper s)))) := by
  rw [exec_order hdecode hc, h]

/-! ### The set check -/

theorem findSet_isSome_iff (s : State) (n : SetName) : (findSet s n).isSome = true ↔ ∃ r ∈ s.sets.records, r.name = n := by
  simp [findSet, List.find?_isSome]

/-- The set check refuses by the rows of the table of R39. -/
theorem setRefused_iff (s : State) (bin : Bin) (number : Option Byte) (setLast : Bool) :
    setRefused s bin number setLast = true ↔
      (setLast = true ∧ number = none) ∨
      (number = none ∧ (s.tables.bins[bin]).kind = .set) ∨
      (number.isSome = true ∧ (s.tables.bins[bin]).kind = .stack) ∨
      (∃ n, s.ret.receiving = none ∧ number = some n ∧ ∃ r ∈ s.sets.records, r.name = { bin := bin, set := n }) ∨
      (s.ret.receiving = none ∧ number.isSome = true ∧ 8 ≤ s.sets.records.length) ∨
      (s.ret.receiving.isSome = true ∧ number = none) ∨
      (∃ m n, s.ret.receiving = some m ∧ number = some n ∧ (n ≠ m.set ∨ bin ≠ m.bin)) := by
  rcases number with _ | n
  · simp [setRefused, or_assoc]
  · rcases hreceiving : s.ret.receiving with _ | m
    · simp [setRefused, hreceiving, findSet_isSome_iff, -Option.isSome_iff_ne_none]
    · have hname : m ≠ { bin := bin, set := n } ↔ n ≠ m.set ∨ bin ≠ m.bin := by
        rcases m with ⟨b, k⟩
        rw [ne_eq, SetName.mk.injEq, Classical.not_and_iff_not_or_not, eq_comm (a := b), eq_comm (a := k), or_comm]
      simp only [setRefused, hreceiving, Bool.or_eq_true, decide_eq_true_iff, hname]
      simp

/-- Settles O23: the first check that fails gives the reason, and the checks look at nothing that the wake changes. -/
theorem ordersAreRefusedInOrder : Obligations.OrdersAreRefusedInOrder := by
  refine ⟨fun payload o s hdecode hc => ⟨fun h => ?_, fun h1 h2 h => ?_, fun h1 h2 hseq h => ?_, fun h1 h2 hseq hroom h => ?_⟩,
    fun bin number setLast s => setRefused_iff s bin number setLast, fun r => ?_, fun s => ⟨fun h => if_pos h, fun h => if_neg h⟩⟩
  · exact exec_order_refused hdecode hc (checkOrder_notReady h)
  · exact exec_order_refused hdecode hc (checkOrder_sequence h1 h2 h)
  · exact exec_order_refused hdecode hc (checkOrder_noCredit h1 h2 hseq h)
  · refine exec_order_refused hdecode hc (checkOrder_field h1 h2 hseq hroom fun r c hfields => ?_)
    obtain ⟨hr, hcls, hprint, hlow, hhigh⟩ := orderFieldsOf_eq_some_iff.1 hfields
    rcases h with h | h | h | h | ⟨r', hr', h | h⟩
    · omega
    · omega
    · have := c.isLt
      omega
    · have := r.isLt
      omega
    · obtain rfl : r' = r := Fin.ext (hr'.trans hr.symm)
      exact absurd (h.symm.trans hprint) (by simp)
    · obtain rfl : r' = r := Fin.ext (hr'.trans hr.symm)
      exact h
  · simp [isPrintRoute, List.head?_eq_getElem?]

/-! ### Acceptance -/

theorem creditIfChanged_same {old : CreditContent} {s : State} (h : creditContent s.ret = old) : creditIfChanged old s = s :=
  if_pos h

theorem creditIfChanged_other {old : CreditContent} {s : State} (h : creditContent s.ret ≠ old) :
    creditIfChanged old s = { s with link.credit := some (creditContent s.ret) } := if_neg h

/-- The set of a new entry. -/
theorem entrySet_entryOf (t : Tables) (o : OrderFields) (r : RouteIx) (c : SpeedClass) :
    entrySet t (entryOf o r c) = o.setNumber.map fun n => { bin := (t.routes[r]).bin, set := n } := rfl

theorem acceptEntry_alone {e : Entry} {s : State} (h : entrySet s.tables e = none) :
    acceptEntry e s = creditIfChanged (creditContent s.ret)
      { s with ret.entries := s.ret.entries ++ [e], ret.expected := some (e.order + 1) } := by
  simp [acceptEntry, joinSet, h]

theorem acceptEntry_inSet {e : Entry} {s : State} {name : SetName} (h : entrySet s.tables e = some name) :
    acceptEntry e s = creditIfChanged (creditContent s.ret) (acceptMember name e.order e.setLast
      { s with ret.entries := s.ret.entries ++ [e], ret.expected := some (e.order + 1) }) := by
  simp [acceptEntry, joinSet, h]

/-- Acceptance of a member that opens its set. -/
theorem acceptMember_opens {name : SetName} {n : OrderNo} {setLast : Bool} {s : State} (hfree : s.ret.receiving = none)
    (hnew : ∀ r ∈ s.sets.records, r.name ≠ name) :
    acceptMember name n setLast s = { s with
      ret.receiving := if setLast then none else some name
      sets.records := s.sets.records ++
        [{ name := name, first := n, last := if setLast then some n else none, members := 1, delivered := 0,
           state := .opened, cancelled := false, rebuilt := false, deadline := none }] } := by
  have hothers : s.sets.records.map (fun r => if r.name = name then { r with last := some n } else r) = s.sets.records :=
    (List.map_congr_left fun r hr => if_neg (hnew r hr)).trans (List.map_id _)
  rw [acceptMember_first hfree]
  cases setLast
  · rfl
  · simp [updateSet, hothers, openedSet]

/-- Acceptance of a member of the set that is being received. -/
theorem acceptMember_joins {name : SetName} {n : OrderNo} {setLast : Bool} {s : State} (h : s.ret.receiving = some name) :
    acceptMember name n setLast s = { s with
      ret.receiving := if setLast then none else some name
      sets.records := s.sets.records.map fun r =>
        if r.name = name then { r with members := r.members + 1, last := if setLast then some n else r.last } else r } := by
  rw [acceptMember_later h]
  cases setLast
  · rfl
  · have hmap : ∀ r : SetRec, (if (if r.name = name then { r with members := r.members + 1 } else r).name = name then
        { (if r.name = name then { r with members := r.members + 1 } else r) with last := some n }
        else if r.name = name then { r with members := r.members + 1 } else r) =
        if r.name = name then { r with members := r.members + 1, last := some n } else r := by
      intro r
      by_cases hr : r.name = name <;> simp [hr]
    simp [updateSet, Function.comp_def, hmap]

/-- Settles O24: acceptance in terms of its set part, and the set part, the credit and the layout as equations. -/
theorem acceptedOrderJoinsTheTail : Obligations.AcceptedOrderJoinsTheTail := by
  refine ⟨fun payload o r c s hdecode hc h1 h2 hseq hroom hr hcls hprint hlow hhigh hset => ?_, fun name n setLast s =>
    ⟨fun hfree hnew => acceptMember_opens hfree hnew, fun h => acceptMember_joins h⟩, fun r => ⟨fun e es h => ?_, fun n h he => ?_, fun h he => ?_⟩,
    fun old s => ⟨creditIfChanged_same, creditIfChanged_other⟩, fun _ _ _ _ _ _ _ _ _ _ _ _ _ _ _ _ =>
    ⟨_, rfl, rfl, rfl, rfl, rfl, rfl, rfl, rfl, rfl, rfl, rfl, rfl⟩⟩
  · have hfields := orderFieldsOf_eq_some_iff.2 ⟨hr, hcls, hprint, hlow, hhigh⟩
    have hset' : entrySet (wakeToIdle (received .upper s)).tables (entryOf o r c) =
        o.setNumber.map fun n => { bin := (s.tables.routes[r]).bin, set := n } := by
      rw [entrySet_entryOf]
      simp
    have hcredit : creditContent (wakeToIdle (received .upper s)).ret = creditContent s.ret := by simp
    rw [exec_order hdecode hc, checkOrder_ok h1 h2 hseq hroom hfields hset]
    refine ⟨fun hnone => ?_, fun n hn => ?_⟩
    · rw [hnone] at hset'
      simp only [acceptEntry_alone hset', hcredit]
      rfl
    · rw [hn] at hset'
      simp only [acceptEntry_inSet hset', hcredit]
      rfl
  · simp [Retention.h, creditContent, h]
  · simp [Retention.h, creditContent, h, he]
  · simp [Retention.h, creditContent, h, he]

/-! ### The engine CREDIT -/

theorem engineWindow_open {x : Forwarder} (h : (x.limit - x.f).toNat ≤ 8) : engineWindow x = (x.limit - x.f).toNat := if_pos h

theorem engineWindow_closed {x : Forwarder} (h : 8 < (x.limit - x.f).toNat) : engineWindow x = 0 := if_neg (Nat.not_le.2 h)

theorem exec_engineCredit {limit : Byte} {s : State} (hc : frameCompletes .lower 0x46 [limit] s = true) :
    exec (.engineCredit [limit]) s = .next (finish (takeCredit limit (received .lower s))) := takeFrame_eq hc

/-- The forwarder of a part that has been reset. -/
theorem wholeReset_fwd (cause : ResetCause) (s : State) : (wholeReset cause s).fwd = .initial := by
  simp only [wholeReset]
  split <;> simp [State.reset]

/-- Settles O25: the window, the frame that sets its limit, and what the resets and LINK START leave. -/
theorem engineCreditSetsTheWindow : Obligations.EngineCreditSetsTheWindow := by
  refine ⟨fun x => ⟨fun _ h => engineWindow_open h, fun h => ?_⟩, fun limit s hc => ⟨fun hhold hstate => ?_, fun h => ?_, fun t ht => ?_⟩,
    fun s t h => ?_, fun s t htx hhalt h => ?_⟩
  · rcases h with h | h
    · rw [engineWindow_open (by omega), h]
    · exact engineWindow_closed h
  · have hopen : ((received .lower s).sup.state = .starting || (received .lower s).fwd.windowHold) = false := by
      simp [hstate, hhold]
    rw [exec_engineCredit hc, takeCredit, if_neg (by simpa using hopen)]
    rfl
  · have hclosed : ((received .lower s).sup.state = .starting || (received .lower s).fwd.windowHold) = true := by
      rcases h with h | h <;> simp [h]
    rw [exec_engineCredit hc, takeCredit, if_pos hclosed]
    rfl
  · rw [exec_engineCredit hc] at ht
    cases ht
    rw [reportsHeld_finish]
    simp [reportsHeld]
  · rcases h with h | h <;> cases h <;> simp [wholeReset_fwd, Forwarder.initial]
  · rw [(pathControlSentHasItsEffect.1 s).1 htx] at h
    cases h
    simp [hhalt]

end Sys2Proof.Machine
end

