-- ==== Sys2Proof/Proofs/Forwarding.lean ====
section
/-! SUPPORT. The forwarder: the entry it takes, and what follows when it considers the queue. -/

namespace Sys2Proof.Machine

/-! ### Lists -/

section
variable {α : Type} (l : List α)

theorem filter_const_true : (l.filter fun _ => true) = l := List.filter_eq_self.2 fun _ _ => rfl

theorem filter_const_false : (l.filter fun _ => false) = [] := List.filter_eq_nil_iff.2 fun _ _ => Bool.false_ne_true

end

theorem of_mem_takeWhile {α : Type} {p : α → Bool} {x : α} : ∀ {l : List α}, x ∈ l.takeWhile p → p x = true
  | y :: l, h => by
    by_cases hy : p y = true
    · rw [List.takeWhile_cons_of_pos hy, List.mem_cons] at h
      rcases h with rfl | h
      · exact hy
      · exact of_mem_takeWhile h
    · rw [List.takeWhile_cons_of_neg hy] at h
      exact absurd h List.not_mem_nil

/-! ### What the forwarder looks at -/

theorem trackingEmpty_iff (s : State) : trackingEmpty s = true ↔ ∀ tag : Tag, s.trk.table[tag] = none := by
  simp only [trackingEmpty, List.all_eq_true, Option.isNone_iff_eq_none, Vector.mem_toList_iff, Vector.mem_iff_getElem]
  exact ⟨fun h tag => h _ ⟨tag.val, tag.isLt, rfl⟩, fun h x ⟨i, hi, hx⟩ => hx ▸ h ⟨i, hi⟩⟩

theorem forwarderActs_iff (st : PartState) : forwarderActs st = true ↔ st = .running ∨ st = .idle := by
  cases st <;> simp [forwarderActs]

theorem forwardedCount_eq_zero_iff (s : State) : forwardedCount s = 0 ↔ ∀ e ∈ s.ret.entries, e.state ≠ .forwarded := by
  simp [forwardedCount, List.filter_eq_nil_iff]

theorem lowestQueued_eq_none_iff (s : State) : lowestQueued s = none ↔ ∀ e ∈ s.ret.entries, e.state ≠ .queued := by
  simp [lowestQueued, List.find?_eq_none]

theorem lowestWaiting_eq_none_iff (s : State) :
    lowestWaiting s = none ↔ ∀ e ∈ s.ret.entries, e.state ≠ .queued ∧ e.state ≠ .held := by
  simp [lowestWaiting, List.find?_eq_none]

/-- A HELD entry is below order `n`: it stands in the queue ahead of the first entry with that number. -/
theorem heldBelow_iff (s : State) (n : OrderNo) :
    heldBelow s n = true ↔ ∃ front x back, s.ret.entries = front ++ x :: back ∧ x.state = .held ∧
      ∀ y ∈ front ++ [x], y.order ≠ n := by
  simp only [heldBelow, List.any_eq_true, decide_eq_true_iff]
  constructor
  · rintro ⟨x, hx, hheld⟩
    obtain ⟨front, back, hsplit⟩ := List.append_of_mem hx
    refine ⟨front, x, back ++ s.ret.entries.dropWhile fun x => x.order ≠ n, ?_, hheld, fun y hy => ?_⟩
    · conv => lhs; rw [← List.takeWhile_append_dropWhile (p := fun x => decide (x.order ≠ n)) (l := s.ret.entries), hsplit]
      simp
    · have hmem : y ∈ s.ret.entries.takeWhile fun x => decide (x.order ≠ n) := by
        rw [hsplit]
        simp only [List.mem_append, List.mem_singleton] at hy
        rcases hy with hy | rfl <;> simp [*]
      simpa using of_mem_takeWhile hmem
  · rintro ⟨front, x, back, hsplit, hheld, hother⟩
    refine ⟨x, ?_, hheld⟩
    rw [hsplit, show front ++ x :: back = (front ++ [x]) ++ back by simp,
      List.takeWhile_append_of_pos fun y hy => by simpa using hother y hy]
    simp

theorem mayForward_iff (s : State) (e : Entry) :
    mayForward s e = true ↔ (s.sup.state = .running ∨ s.sup.state = .idle) ∧ heldBelow s e.order = false ∧
      1 ≤ engineWindow s.fwd ∧ forwardedCount s < 8 := by
  simp only [mayForward, Bool.and_eq_true, forwarderActs_iff, Bool.not_eq_true', decide_eq_true_iff, Nat.lt_iff_add_one_le,
    Nat.zero_add, and_assoc]

/-! ### Considering the queue -/

section
variable {n : Nat} {s : State}

theorem considerQueue_of_request (n : Nat) (h : s.fwd.request.isSome = true) : considerQueue n s = s := by
  cases n with
  | zero => rfl
  | succ n => rw [considerQueue, if_pos h]

theorem considerQueue_of_noneQueued (n : Nat) (h : lowestQueued s = none) : considerQueue n s = s := by
  cases n with
  | zero => rfl
  | succ n =>
    rw [considerQueue, h]
    split <;> rfl

variable {e : Entry} (hrequest : s.fwd.request = none) (he : lowestQueued s = some e)
include hrequest he

theorem considerQueue_stops (h : mayForward s e = false) : considerQueue (n + 1) s = s := by
  simp [considerQueue, hrequest, he, h]

theorem considerQueue_forwards (h : mayForward s e = true) (hclass : e.cls = s.fwd.speed) :
    considerQueue (n + 1) s = considerQueue n (forwardEntry e s) := by
  simp [considerQueue, hrequest, he, h, hclass]

theorem considerQueue_requests (h : mayForward s e = true) (hclass : e.cls ≠ s.fwd.speed) :
    considerQueue (n + 1) s = { s with fwd.request := some (e.cls, e.order) } := by
  simp [considerQueue, hrequest, he, h, hclass]

end

/-- The entries, F and the frames as forwarding leaves them, before the part leaves IDLE. -/
def entryForwarded (e : Entry) (s : State) : State :=
  { s with
    ret.entries := s.ret.entries.map fun x =>
      if x.order = e.order then
        { x with state := .forwarded, attempt := if x.unpicked then x.attempt else x.attempt + 1, unpicked := false }
      else x
    fwd.f := s.fwd.f + 1
    link.forwarded := s.link.forwarded ++
      [{ entry := { e with state := .forwarded, attempt := if e.unpicked then e.attempt else e.attempt + 1, unpicked := false },
         live := true }] }

theorem forwardEntry_eq (e : Entry) (s : State) :
    forwardEntry e s = if s.sup.state = .idle then enterState .running (entryForwarded e s) else entryForwarded e s := rfl

/-! ### What follows -/

theorem drained_iff (s : State) :
    (forwarderActs s.sup.state && trackingEmpty s && forwardedCount s = 0) = true ↔
      (s.sup.state = .running ∨ s.sup.state = .idle) ∧ trackingEmpty s = true ∧ ∀ e ∈ s.ret.entries, e.state ≠ .forwarded := by
  rw [Bool.and_eq_true, Bool.and_eq_true, forwarderActs_iff, decide_eq_true_iff, forwardedCount_eq_zero_iff, and_assoc]

theorem enterHeld_eq (reason : HeldReason) (n : OrderNo) (s : State) :
    enterHeld reason n s = enterState .held { makeNotice (.held n reason) s with
      sup := { s.sup with heldReason := some reason } } := by
  simp [enterHeld]

theorem heldCheck_of_none {s : State} (h : s.sup.state ≠ .running ∨ lowestWaiting s = none) : heldCheck s = s := by
  simp only [heldCheck]
  split
  next hrunning =>
    rw [h.resolve_left (Classical.not_not.2 hrunning)]
  next => rfl

theorem heldCheck_of_some {s : State} {e : Entry} (hrunning : s.sup.state = .running) (h : lowestWaiting s = some e) :
    heldCheck s = if e.state = .held then enterHeld .attempts e.order s else s := by
  simp [heldCheck, hrunning, h]

theorem nothingToRun_iff (s : State) :
    (s.sup.state = .running && nothingToRun s) = true ↔ s.sup.state = .running ∧ s.fwd.request = none ∧ trackingEmpty s = true ∧
      ∀ e ∈ s.ret.entries, e.state ≠ .forwarded ∧ e.state ≠ .queued := by
  simp only [nothingToRun, Bool.and_eq_true, decide_eq_true_iff, Option.isNone_iff_eq_none, lowestQueued_eq_none_iff,
    forwardedCount_eq_zero_iff, forall_and]
  grind

section
variable {s : State} {c : SpeedClass} {n : OrderNo}

theorem reviewRequest_of_none (h : s.fwd.request = none ∨ s.sup.state ≠ .running) : reviewRequest s = s := by
  simp only [reviewRequest]
  split
  · rfl
  next hrequest => rw [if_neg (h.resolve_left (by simp [hrequest]))]

variable (hrequest : s.fwd.request = some (c, n)) (hrunning : s.sup.state = .running)
include hrequest hrunning

theorem reviewRequest_of_noneQueued (h : lowestQueued s = none) : reviewRequest s = { s with fwd.request := none } := by
  simp [reviewRequest, hrequest, hrunning, h]

theorem reviewRequest_of_queued {e : Entry} (h : lowestQueued s = some e) :
    reviewRequest s =
      if e.order = n then s
      else if e.cls = s.fwd.speed || heldBelow s e.order then { s with fwd.request := none }
      else { s with fwd.request := some (e.cls, e.order) } := by
  simp [reviewRequest, hrequest, hrunning, h]

end

/-- An entry that waits and is not HELD is QUEUED. -/
theorem waiting_state {s : State} {e : Entry} (h : lowestWaiting s = some e) : e.state = .queued ∨ e.state = .held := by
  simpa using List.find?_some h

theorem updateEntry_orders {n : OrderNo} {f : Entry → Entry} (hf : ∀ e, (f e).order = e.order) (s : State) :
    (updateEntry n f s).ret.entries.map (·.order) = s.ret.entries.map (·.order) := by
  simp only [updateEntry, mapEntries_entries, List.map_map]
  refine List.map_congr_left fun e _ => ?_
  simp only [Function.comp_apply]
  split
  · exact hf e
  · rfl

theorem forwardEntry_orders (e : Entry) (s : State) :
    (forwardEntry e s).ret.entries.map (·.order) = s.ret.entries.map (·.order) := by
  have horders : (entryForwarded e s).ret.entries.map (·.order) = s.ret.entries.map (·.order) :=
    updateEntry_orders (f := Entry.forward) (fun _ => rfl) s
  rw [forwardEntry_eq]
  split <;> simpa using horders

theorem considerQueue_orders (n : Nat) (s : State) :
    (considerQueue n s).ret.entries.map (·.order) = s.ret.entries.map (·.order) := by
  induction n generalizing s with
  | zero => rfl
  | succ n ih =>
    simp only [considerQueue]
    (repeat' split) <;> first | rfl | exact (ih _).trans (forwardEntry_orders _ s)

theorem forwarderPass_orders (s : State) : (forwarderPass s).ret.entries.map (·.order) = s.ret.entries.map (·.order) := by
  simp [forwarderPass, considerQueue_orders]

/-- Settles O26: one entry, the end of the queue, what follows in its order, and what all of it leaves. -/
theorem forwardingTakesTheLowestQueuedEntry : Obligations.ForwardingTakesTheLowestQueuedEntry := by
  refine ⟨fun n e s hrequest he => ⟨fun hstate hheld hwindow hcount => ?_, fun h => ?_⟩,
    fun n s h => considerQueue_of_noneQueued n ((lowestQueued_eq_none_iff s).2 h), fun s => rfl,
    fun s => ⟨?_, fun n x h => considerQueue_of_request n (by simp [h]), fun c n h hdrained => ?_, fun h => ?_,
      fun e hrunning he => ⟨fun hheld => ?_, fun hqueued => ?_⟩, fun h => ?_, fun h => ?_, fun h => ?_, reviewRequest_of_none,
      fun c n hrequest hrunning => ⟨fun h => ?_, fun e he => ⟨fun h => ?_, fun h hother => ?_, fun h hclass hheld => ?_⟩⟩⟩, fun s => ?_,
    fun n s => ⟨heldBelow_iff s n, rfl, trackingEmpty_iff s⟩⟩
  · have hmay := (mayForward_iff s e).2 ⟨hstate, hheld, hwindow, hcount⟩
    refine ⟨fun hclass hrunning => ?_, fun hclass hidle => ?_, considerQueue_requests hrequest he hmay⟩
    · rw [considerQueue_forwards hrequest he hmay hclass, forwardEntry_eq, if_neg (by simp [hrunning])]
      rfl
    · rw [considerQueue_forwards hrequest he hmay hclass, forwardEntry_eq, if_pos hidle]
      rfl
  · refine considerQueue_stops hrequest he (Bool.eq_false_iff.2 fun hmay => ?_)
    obtain ⟨hstate, hheld, hwindow, hcount⟩ := (mayForward_iff s e).1 hmay
    rcases h with ⟨hrunning, hidle⟩ | h | h | h
    · exact hstate.elim hrunning hidle
    · simp [h] at hheld
    · omega
    · omega
  · simp [forwarderPass]
  · simp only [drainCheck, h]
    exact if_pos ((drained_iff s).2 hdrained)
  · simp only [drainCheck]
    split
    · rfl
    next hrequest => exact if_neg fun hd => h.resolve_left (by simp [hrequest]) ((drained_iff s).1 hd)
  · rw [heldCheck_of_some hrunning he, if_pos hheld, enterHeld_eq]
  · rw [heldCheck_of_some hrunning he, if_neg (by simp [hqueued])]
  · exact heldCheck_of_none (h.imp_right (lowestWaiting_eq_none_iff s).2)
  · exact if_pos ((nothingToRun_iff s).2 h)
  · exact if_neg fun hrest => h ((nothingToRun_iff s).1 hrest)
  · exact reviewRequest_of_noneQueued hrequest hrunning ((lowestQueued_eq_none_iff s).2 h)
  · rw [reviewRequest_of_queued hrequest hrunning he, if_pos h]
  · rw [reviewRequest_of_queued hrequest hrunning he, if_neg h, if_pos (by simpa using hother)]
  · rw [reviewRequest_of_queued hrequest hrunning he, if_neg h, if_neg (by simp [hclass, hheld])]
  · simp [forwarderPass_orders]

end Sys2Proof.Machine
end

