-- ==== Sys2Proof/Proofs/Picks.lean ====
section
/-! SUPPORT. The posting of a visit, and PICK. -/

namespace Sys2Proof.Machine

/-! ### Posting -/

section
variable {tag : Tag} {k : Nat} {a : Pos} {s : State} {r : TrackRec} {v : Visit} (hr : s.trk.table[tag] = some r)
  (hv : followedVisit s.tables r k = some v)
include hr hv

theorem postVisit_of_room (h : (s.trk.lists[v.station]).length < 8) :
    postVisit tag k a s =
      (setList v.station (insertExpectation (expectationOf s.tables.limits tag k a v) s.trk.lists[v.station]) s, []) := by
  simp only [postVisit, hr, hv]
  exact if_pos h

theorem postVisit_of_full (h : 8 ≤ (s.trk.lists[v.station]).length) :
    postVisit tag k a s = (s, [{ kind := .overrun, station := v.station, sheet := some r.order, pos := s.pos.p }]) := by
  simp only [postVisit, hr, hv]
  exact if_neg (Nat.not_lt.2 h)

end

/-- A new expectation stands ahead of the first whose E is beyond its own. -/
theorem insertExpectation_between (x : Expectation) (front back : List Expectation)
    (hfront : ∀ y ∈ front, 0 ≤ (x.e - y.e).toInt) (hback : ∀ y, back.head? = some y → (x.e - y.e).toInt < 0) :
    insertExpectation x (front ++ back) = front ++ x :: back := by
  have hpass : ∀ y ∈ front, atOrBeyond x.e y.e = true := fun y hy => by simpa [atOrBeyond, posDiff] using hfront y hy
  have hstop : back.takeWhile (fun y => atOrBeyond x.e y.e) = [] ∧ back.dropWhile (fun y => atOrBeyond x.e y.e) = back := by
    cases back with
    | nil => exact ⟨rfl, rfl⟩
    | cons y ys =>
      have hbeyond : atOrBeyond x.e y.e = false := by simpa [atOrBeyond, posDiff] using hback y rfl
      simp [hbeyond]
  rw [insertExpectation, List.takeWhile_append_of_pos hpass, List.dropWhile_append_of_pos hpass, hstop.1, hstop.2,
    List.append_nil]

/-! ### The record of a PICK -/

theorem lowestFreeTag_eq {s : State} {tag : Tag} (h : s.trk.table[tag] = none) (hbelow : ∀ g : Tag, g < tag → s.trk.table[g] ≠ none) :
    lowestFreeTag s = some tag := by
  rw [lowestFreeTag, List.find?_eq_some_iff_getElem]
  refine ⟨Option.isNone_iff_eq_none.2 h, tag.val, by simp, by simp, fun j hj => ?_⟩
  have hsome := hbelow ⟨j, by omega⟩ hj
  simpa [Option.isSome_iff_ne_none] using hsome

theorem lowestFreeTag_eq_none {s : State} (h : ∀ g : Tag, s.trk.table[g] ≠ none) : lowestFreeTag s = none := by
  rw [lowestFreeTag, List.find?_eq_none]
  exact fun g _ => by simpa [Option.isNone_iff_eq_none] using h g

/-- The tracking record that a PICK allocates (R49, R57). -/
def pickedRecord (e : Entry) : TrackRec :=
  { order := e.order, route := e.route, length := e.length, next := 0, occupied := [], wasteTail := false, complete := false,
    disp := none }

/-- The part once the sheet of an entry is tracked, before its visit 0 is posted. -/
def picked (tag : Tag) (e : Entry) (s : State) : State :=
  syncStall (trackingEmpty s) { s with
    trk.table := s.trk.table.set tag (some (pickedRecord e))
    ret.entries := s.ret.entries.map fun y => if y.order = e.order then { y with state := .inFlight, tag := some tag } else y }

theorem allocate_eq (tag : Tag) (e : Entry) (s : State) : allocate tag e s = postVisit tag 0 s.pos.p (picked tag e s) := rfl

@[simp] theorem picked_frame (tag : Tag) (e : Entry) (s : State) :
    (picked tag e s).tables = s.tables ∧ (picked tag e s).pos.p = s.pos.p ∧ (picked tag e s).trk.lists = s.trk.lists := by
  simp [picked]

theorem picked_record (tag : Tag) (e : Entry) (s : State) : (picked tag e s).trk.table[tag] = some (pickedRecord e) := by
  simp [picked]

theorem followedVisit_pickedRecord (t : Tables) (e : Entry) (k : Nat) :
    followedVisit t (pickedRecord e) k = (t.routes[e.route]).visits[k]? := by
  simp [followedVisit, followedRoute, pickedRecord]

section
variable {tag : Tag} {e : Entry} {s : State} {v : Visit} (hv : (s.tables.routes[e.route]).visits[0]? = some v)
include hv

theorem allocate_of_room (h : (s.trk.lists[v.station]).length < 8) :
    allocate tag e s = ({ picked tag e s with
      trk.lists := s.trk.lists.set v.station
        (insertExpectation (expectationOf s.tables.limits tag 0 s.pos.p v) s.trk.lists[v.station]) }, []) := by
  have hvisit : followedVisit (picked tag e s).tables (pickedRecord e) 0 = some v := by simpa [followedVisit_pickedRecord] using hv
  obtain ⟨htables, -, hlists⟩ := picked_frame tag e s
  have hlimits : (picked tag e s).tables.limits = s.tables.limits := congrArg Tables.limits htables
  rw [allocate_eq, postVisit_of_room (picked_record tag e s) hvisit (by rw [hlists]; exact h), setList, hlists, hlimits]

theorem allocate_of_full (h : 8 ≤ (s.trk.lists[v.station]).length) :
    allocate tag e s = (picked tag e s,
      [{ kind := .overrun, station := v.station, sheet := some e.order, pos := s.pos.p }]) := by
  have hvisit : followedVisit (picked tag e s).tables (pickedRecord e) 0 = some v := by simpa [followedVisit_pickedRecord] using hv
  obtain ⟨-, hpos, hlists⟩ := picked_frame tag e s
  rw [allocate_eq, postVisit_of_full (picked_record tag e s) hvisit (by rw [hlists]; exact h), hpos]
  rfl

end

/-! ### PICK -/

theorem pickMatch_some {s : State} {e : Entry} {tag : Tag} (he : oldestForwarded s = some e) (htag : lowestFreeTag s = some tag) :
    pickMatch e.order s = some (e, tag) := by
  simp [pickMatch, he, htag]

theorem pickMatch_none {s : State} {n : OrderNo}
    (h : ∀ e, oldestForwarded s = some e → e.order ≠ n ∨ ∀ g : Tag, s.trk.table[g] ≠ none) : pickMatch n s = none := by
  simp only [pickMatch]
  split
  next e tag he htag =>
    refine if_neg ((h e he).resolve_right fun hfull => ?_)
    simp [lowestFreeTag_eq_none hfull] at htag
  next => rfl

theorem takePick_matched {s : State} {n : OrderNo} {e : Entry} {tag : Tag} (h : pickMatch n s = some (e, tag)) :
    takePick n s = afterTracking (allocate tag e (offerEvent .pick s.pos.p none (some n) 0 s)) := by
  simp only [takePick, h]
  rfl

theorem takePick_unmatched {s : State} {n : OrderNo} (h : pickMatch n s = none) :
    takePick n s = offerEvent .pick s.pos.p none (some n) 1 (makeNotice (.unexpectedReport 0x41 0xFF n) s) := by
  simp only [takePick, h, pickEvent]
  simp

/-- What a PICK is matched to is not changed by its passing up. -/
theorem pickMatch_passUp (n : OrderNo) (kind : Byte) (payload : List Byte) (s : State) :
    pickMatch n (passUp kind payload s) = pickMatch n s := by
  simp [pickMatch, oldestForwarded, lowestFreeTag]

section
variable {hi lo : Byte} {s : State} (hc : frameCompletes .lower 0x41 [hi, lo] s = true)
include hc

theorem exec_pick (h : s.sup.state ≠ .starting) :
    exec (.pick [hi, lo]) s = .next (finish (takePick (wordOf hi lo) (passUp 0x41 [hi, lo] s))) := by
  have hread : ¬(passUp 0x41 [hi, lo] s).sup.state = .starting := by simpa using h
  refine (takeReport_eq hc).trans ?_
  simp only [if_neg hread]

theorem exec_pick_starting (h : s.sup.state = .starting) :
    exec (.pick [hi, lo]) s = .next (finish (passUp 0x41 [hi, lo] s)) := by
  have hread : (passUp 0x41 [hi, lo] s).sup.state = .starting := by simpa using h
  refine (takeReport_eq hc).trans ?_
  simp only [if_pos hread]

end

/-- Settles O27: the PICK that is matched, with and without room for its posting, the one that is not, and the insertion. -/
theorem pickStartsTrackingOrIsReported : Obligations.PickStartsTrackingOrIsReported := by
  refine ⟨fun hi lo e tag v s hstate hc he horder htag hbelow hv => ?_, fun hi lo s hc => ⟨fun hstate h => ?_, exec_pick_starting hc⟩,
    fun payload s hlen hc => ?_, insertExpectation_between⟩
  · have hmatch : pickMatch (wordOf hi lo) (passUp 0x41 [hi, lo] s) = some (e, tag) := by
      rw [pickMatch_passUp, ← horder]
      exact pickMatch_some he (lowestFreeTag_eq htag hbelow)
    rw [exec_pick hc hstate, takePick_matched hmatch, ← horder]
    have hpos : (passUp 0x41 [hi, lo] s).pos = s.pos := by simp
    rw [hpos]
    obtain ⟨w, hw⟩ : ∃ w, w = offerEvent .pick s.pos.p none (some e.order) 0 (passUp 0x41 [hi, lo] s) := ⟨_, rfl⟩
    have htrk : w.trk = s.trk := by simp [hw]
    have htables : w.tables = s.tables := by simp [hw]
    have hret : w.ret = s.ret := by simp [hw]
    have hwpos : w.pos = s.pos := by simp [hw]
    have hempty : trackingEmpty s = trackingEmpty w := by simp [trackingEmpty, htrk]
    rw [← hw, hempty, ← htrk, ← hret, ← htables, ← hwpos]
    rw [← htables] at hv
    exact ⟨fun hroom => by rw [allocate_of_room hv hroom]; rfl, fun hfull => by rw [allocate_of_full hv hfull]; rfl⟩
  · have hnone : pickMatch (wordOf hi lo) (passUp 0x41 [hi, lo] s) = none := by
      rw [pickMatch_passUp]
      exact pickMatch_none h
    have hpos : (passUp 0x41 [hi, lo] s).pos = s.pos := by simp
    rw [exec_pick hc hstate, takePick_unmatched hnone, hpos]
  · simp only [exec, execPick, takeReport_eq hc]
    split
    · simp at hlen
    · rfl

end Sys2Proof.Machine
end

