-- ==== Sys2Proof/Proofs/Withdrawal.lean ====
section
/-! SUPPORT. SKIP ORDER and CANCEL JOB: the entries and sets that are withdrawn, and what follows. -/

namespace Sys2Proof.Machine

/-! ### Requests -/

/-- The service of the request that a row awaits: its act, and the reply. -/
theorem exec_served {c : Instr} {port : MgmtPort} {isCode : Byte → Bool} {lengthOk : List Byte → Bool} {q : Request} {code : Byte}
    {args : List Byte} {s : State} (hrow : servedRow c = some (port, isCode, lengthOk)) (h : Awaits port q code args s)
    (hcode : isCode code = true) (hlength : lengthOk args = true) :
    exec c s = .next (answered port q (actOf c args (takeRequest port s)).status (actOf c args (takeRequest port s)).results
      (actOf c args (takeRequest port s)).state) := by
  rw [exec_eq_serve hrow, serve_eq h hcode hlength]

@[simp] theorem wordArg_pair (hi lo : Byte) : wordArg [hi, lo] = wordOf hi lo := rfl

theorem actOf_skipOrder (port : MgmtPort) (args : List Byte) (s : State) :
    actOf (.skipOrder port) args s =
      { state := (skipOrder (wordArg args) (wakeToIdle s)).1, status := (skipOrder (wordArg args) (wakeToIdle s)).2 } := rfl

theorem actOf_cancelJob (port : MgmtPort) (args : List Byte) (s : State) :
    actOf (.cancelJob port) args s =
      { state := (cancelJob (wordArg args) (wakeToIdle s)).1, status := .done,
        results := [byteOf (cancelJob (wordArg args) (wakeToIdle s)).2] } := rfl

/-! ### What follows a withdrawal -/

section
variable {s : State} {old : Option OrderNo}

theorem afterWithdrawal_notHeld (h : s.sup.state ≠ .held) : afterWithdrawal old s = forwarderPass s := if_neg h

theorem afterWithdrawal_otherReason (h : s.sup.state = .held) (hreason : s.sup.heldReason ≠ some .attempts) :
    afterWithdrawal old s = s := by
  rw [afterWithdrawal, if_pos h, if_neg hreason]

variable (h : s.sup.state = .held) (hreason : s.sup.heldReason = some .attempts)
include h hreason

theorem afterWithdrawal_attempts : afterWithdrawal old s = leaveHeld old s := by
  rw [afterWithdrawal, if_pos h, if_pos hreason]

theorem afterWithdrawal_waiting {e : Entry} (he : lowestWaiting s = some e) :
    afterWithdrawal old s =
      if e.state = .held then (if old = some e.order then s else makeNotice (.held e.order .attempts) s)
      else forwarderPass (enterState .running s) := by
  rw [afterWithdrawal_attempts h hreason, leaveHeld, he]

theorem afterWithdrawal_noneWaiting (hnone : lowestWaiting s = none) :
    afterWithdrawal old s =
      if trackingEmpty s && forwardedCount s = 0 then enterState .idle s else forwarderPass (enterState .running s) := by
  rw [afterWithdrawal_attempts h hreason, leaveHeld, hnone]

end

theorem atRest_iff (s : State) :
    (trackingEmpty s && forwardedCount s = 0) = true ↔ trackingEmpty s = true ∧ ∀ e ∈ s.ret.entries, e.state ≠ .forwarded := by
  rw [Bool.and_eq_true, decide_eq_true_iff, forwardedCount_eq_zero_iff]

/-! ### SKIP ORDER -/

theorem skipOrder_refused {n : OrderNo} {s : State} (h : skipStatus s n ≠ .done) : skipOrder n s = (s, skipStatus s n) := if_neg h

theorem skipOrder_done {n : OrderNo} {s : State} (h : skipStatus s n = .done) :
    skipOrder n s = (afterWithdrawal (lowestHeld s) (removeHeads (updateEntry n Entry.skip s)), .done) := if_pos h

theorem exec_skipOrder {port : MgmtPort} {q : Request} {hi lo : Byte} {s : State} (h : Awaits port q 0x23 [hi, lo] s) :
    exec (.skipOrder port) s = .next (answered port q (skipOrder (wordOf hi lo) (wakeToIdle (takeRequest port s))).2 []
      (skipOrder (wordOf hi lo) (wakeToIdle (takeRequest port s))).1) := by
  rw [exec_served (c := .skipOrder port) rfl h (by decide) (by simp [exactly]), actOf_skipOrder, wordArg_pair]

/-- What SKIP ORDER looks at is not changed by the wake. -/
theorem findEntry_wake (port : MgmtPort) (n : OrderNo) (s : State) :
    findEntry (wakeToIdle (takeRequest port s)) n = findEntry s n := by
  simp [findEntry]

theorem lowestHeld_wake (port : MgmtPort) (s : State) : lowestHeld (wakeToIdle (takeRequest port s)) = lowestHeld s := by
  simp [lowestHeld]

theorem skipStatus_wake (port : MgmtPort) (n : OrderNo) (s : State) :
    skipStatus (wakeToIdle (takeRequest port s)) n = skipStatus s n := by
  simp [skipStatus, findEntry_wake]

theorem skipStatus_of_none {s : State} {n : OrderNo} (h : findEntry s n = none) : skipStatus s n = .range := by
  simp [skipStatus, h]

theorem skipStatus_of_some {s : State} {n : OrderNo} {e : Entry} (h : findEntry s n = some e) :
    skipStatus s n = if e.state = .queued ∨ e.state = .held then (if e.set.isSome then .set else .done) else .state := by
  simp [skipStatus, h, isWaiting]

theorem exec_skipOrder_refused {port : MgmtPort} {q : Request} {hi lo : Byte} {s : State} (h : Awaits port q 0x23 [hi, lo] s)
    {status : Status} (hstatus : skipStatus s (wordOf hi lo) = status) (hne : status ≠ .done) :
    exec (.skipOrder port) s = .next (answered port q status [] (wakeToIdle (takeRequest port s))) := by
  rw [exec_skipOrder h, skipOrder_refused (by rwa [skipStatus_wake, hstatus]), skipStatus_wake, hstatus]

theorem exec_skipOrder_done {port : MgmtPort} {q : Request} {hi lo : Byte} {s : State} (h : Awaits port q 0x23 [hi, lo] s)
    (hstatus : skipStatus s (wordOf hi lo) = .done) :
    exec (.skipOrder port) s = .next (answered port q .done [] (afterWithdrawal (lowestHeld s)
      (removeHeads (updateEntry (wordOf hi lo) Entry.skip (wakeToIdle (takeRequest port s)))))) := by
  rw [exec_skipOrder h, skipOrder_done (by rw [skipStatus_wake, hstatus]), lowestHeld_wake]

/-! ### CANCEL JOB: the sets that are voided -/

/-- The part with these sets voided by CANCEL JOB, one after the other (R55, R131). -/
def setsVoided (names : List SetName) (s : State) : State :=
  { s with
    sets.records := s.sets.records.map fun r => if r.name ∈ names then { r with state := .voided, deadline := none } else r
    sets.voidOrder := s.sets.voidOrder ++ names
    link.pathControl := s.link.pathControl ++ names.map .setVoid
    sup.purge := s.sup.purge.map fun p =>
      if p.phase = .voidWait then { p with outstanding := p.outstanding ++ names } else p }

theorem setsVoided_nil (s : State) : setsVoided [] s = s := by
  simp [setsVoided]

theorem setsVoided_cons (n : SetName) (names : List SetName) (s : State) :
    setsVoided names (voidByCancel n s) = setsVoided (n :: names) s := by
  have hrecord : ∀ r : SetRec, (if (if r.name = n then { r with state := .voided, deadline := none } else r).name ∈ names then
      { (if r.name = n then { r with state := .voided, deadline := none } else r) with state := .voided, deadline := none }
      else if r.name = n then { r with state := .voided, deadline := none } else r) =
      if r.name = n ∨ r.name ∈ names then { r with state := SetState.voided, deadline := none } else r := by
    intro r
    by_cases hn : r.name = n <;> by_cases hmem : r.name ∈ names <;> simp_all
  have hpurge : ∀ p : Purge, (if (if p.phase = .voidWait then { p with outstanding := p.outstanding ++ [n] } else p).phase =
      .voidWait then
      { (if p.phase = .voidWait then { p with outstanding := p.outstanding ++ [n] } else p) with
        outstanding := (if p.phase = .voidWait then { p with outstanding := p.outstanding ++ [n] } else p).outstanding ++ names }
      else if p.phase = .voidWait then { p with outstanding := p.outstanding ++ [n] } else p) =
      if p.phase = .voidWait then { p with outstanding := p.outstanding ++ n :: names } else p := by
    intro p
    by_cases hp : p.phase = .voidWait <;> simp [hp]
  simp [setsVoided, voidByCancel, queueSetVoid, queueControl, becomeVoided, updateSet, Function.comp_def, hrecord, hpurge]

theorem voidByCancel_fold_eq (names : List SetName) (s : State) :
    names.foldl (fun s n => voidByCancel n s) s = setsVoided names s := by
  induction names generalizing s with
  | nil => exact (setsVoided_nil s).symm
  | cons n names ih => rw [List.foldl_cons, ih, setsVoided_cons]

/-! ### CANCEL JOB: the sets that are freed -/

/-- A record without members that CANCEL JOB frees (R148). -/
def freeable (r : SetRec) : Bool := r.members = 0 && (r.state = .opened || r.state = .completeAwaiting)

/-- The record of a set is one that CANCEL JOB frees. -/
def frees (s : State) (n : SetName) : Bool := (findSet s n).any freeable

theorem freeIfEmpty_eq (n : SetName) (s : State) : freeIfEmpty n s = if frees s n then freeSet n s else s := by
  have hfrees : frees s n = (findSet s n).any freeable := rfl
  rw [hfrees, freeIfEmpty]
  split
  next r hr =>
    rw [hr]
    rfl
  next hr =>
    rw [hr]
    rfl

/-- The part with those of these sets freed whose record CANCEL JOB frees. -/
def setsFreed (names : List SetName) (s : State) : State :=
  { s with
    sets.records := s.sets.records.filter fun r => !(names.contains r.name && frees s r.name)
    sets.voidOrder := s.sets.voidOrder.filter fun n => !(names.contains n && frees s n)
    jam.deferred := if s.sup.state = .awaitClear then
        s.jam.deferred.filter fun c => !names.any fun n => frees s n && c.set = some n
      else s.jam.deferred }

theorem findSet_freeSet (n m : SetName) (s : State) : findSet (freeSet n s) m = if m = n then none else findSet s m := by
  simp only [findSet, freeSet_records]
  split
  next h =>
    subst h
    simp [List.find?_eq_none]
  next h =>
    rw [List.find?_filter]
    refine congrArg (fun p => s.sets.records.find? p) (funext fun r => ?_)
    by_cases hr : r.name = m
    · simp [hr, h]
    · simp [hr]

theorem frees_freeSet (n m : SetName) (s : State) : frees (freeSet n s) m = (decide (m ≠ n) && frees s m) := by
  rw [frees, findSet_freeSet]
  by_cases h : m = n <;> simp [h, frees]

theorem setsFreed_nil (s : State) : setsFreed [] s = s := by
  simp only [setsFreed, List.contains_nil, List.any_nil, Bool.false_and, Bool.not_false, filter_const_true, ite_self]

theorem setsFreed_cons (n : SetName) (names : List SetName) (s : State) :
    setsFreed names (freeIfEmpty n s) = setsFreed (n :: names) s := by
  rw [freeIfEmpty_eq]
  split
  next h =>
    have hrecord : ∀ m : SetName, (!(names.contains m && (decide (m ≠ n) && frees s m)) && decide (m ≠ n)) =
        !((n :: names).contains m && frees s m) := by
      intro m
      by_cases hm : m = n <;> simp [hm, h]
    have hcause : ∀ c : Cause, ((!names.any fun m => decide (m ≠ n) && frees s m && decide (c.set = some m)) &&
        decide (c.set ≠ some n)) = !(n :: names).any fun m => frees s m && decide (c.set = some m) := by
      intro c
      by_cases hc : c.set = some n
      · simp [hc, h]
      · simp only [List.any_cons, h, Bool.true_and, hc, decide_false, Bool.false_or, ne_eq, not_false_eq_true, decide_true,
          Bool.and_true]
        congr 2
        funext m
        by_cases hm : m = n
        · simp [hm, hc]
        · simp [hm]
    simp only [setsFreed, frees_freeSet, freeSet_records, freeSet_voidOrder, List.filter_filter, hrecord]
    by_cases hstate : s.sup.state = .awaitClear
    · simp only [← hcause, if_pos hstate]
      simp [freeSet, hstate, List.filter_filter]
    · simp [freeSet, hstate]
  next h =>
    have hskip : ∀ m : SetName, ((n :: names).contains m && frees s m) = (names.contains m && frees s m) := by
      intro m
      by_cases hm : m = n <;> simp [hm, h]
    simp only [setsFreed, hskip, List.any_cons, h, Bool.false_and, Bool.false_or]

theorem freeIfEmpty_fold_eq (names : List SetName) (s : State) :
    names.foldl (fun s n => freeIfEmpty n s) s = setsFreed names s := by
  induction names generalizing s with
  | nil => exact (setsFreed_nil s).symm
  | cons n names ih => rw [List.foldl_cons, ih, setsFreed_cons]

/-- CANCEL JOB in terms of the names of the sets it voids and frees. -/
theorem cancelJob_eq (job : Word) (s : State) :
    cancelJob job s =
      (afterWithdrawal (lowestHeld s) (removeHeads (setsFreed ((setsOfJob s job).map (·.name))
        (setsVoided (((setsOfJob s job).filter (isVoidedByCancel s)).map (·.name)) (cancelEntries job s)))),
        (s.ret.entries.filter (cancelsEntry s job)).length) := by
  rw [← voidByCancel_fold_eq, ← freeIfEmpty_fold_eq, List.foldl_map, List.foldl_map]
  rfl

theorem exec_cancelJob {port : MgmtPort} {q : Request} {hi lo : Byte} {s : State} (h : Awaits port q 0x24 [hi, lo] s) :
    exec (.cancelJob port) s = .next (answered port q .done
      [byteOf (cancelJob (wordOf hi lo) (wakeToIdle (takeRequest port s))).2]
      (cancelJob (wordOf hi lo) (wakeToIdle (takeRequest port s))).1) := by
  rw [exec_served (c := .cancelJob port) rfl h (by decide) (by simp [exactly]), actOf_cancelJob, wordArg_pair]

end Sys2Proof.Machine
end

