-- ==== Sys2Proof/Proofs/CancelJob.lean ====
section
/-! SUPPORT. CANCEL JOB on set records with distinct names, record by record. -/

namespace Sys2Proof.Machine

/-- The record of a set of the job as CANCEL JOB leaves it, its voiding included. -/
def withdrawn (s : State) (job : Word) (r : SetRec) : SetRec :=
  if isVoidedByCancel s r then { cancelRecord s job r with state := .voided, deadline := none } else cancelRecord s job r

@[simp] theorem withdrawn_name (s : State) (job : Word) (r : SetRec) : (withdrawn s job r).name = r.name := by
  simp only [withdrawn]
  split <;> rfl

/-- The record of any set as CANCEL JOB leaves it. -/
def afterCancel (s : State) (job : Word) (r : SetRec) : SetRec := if isSetOfJob s job r then withdrawn s job r else r

@[simp] theorem afterCancel_name (s : State) (job : Word) (r : SetRec) : (afterCancel s job r).name = r.name := by
  simp only [afterCancel]
  split <;> simp

/-- A set of the job that is left with no member and freed. -/
def freedByCancel (s : State) (job : Word) (r : SetRec) : Bool := isSetOfJob s job r && freeable (withdrawn s job r)

/-- The names of the sets that CANCEL JOB voids. -/
def voidedByCancel (s : State) (job : Word) : List SetName :=
  (s.sets.records.filter fun r => isVoidedByCancel s r && isSetOfJob s job r).map (·.name)

theorem voidedByCancel_eq (s : State) (job : Word) :
    ((setsOfJob s job).filter (isVoidedByCancel s)).map (·.name) = voidedByCancel s job := by
  rw [setsOfJob, List.filter_filter, voidedByCancel]

/-- The part after CANCEL JOB, before the finished entries leave. -/
def jobWithdrawn (job : Word) (s : State) : State :=
  setsFreed ((setsOfJob s job).map (·.name)) (setsVoided (voidedByCancel s job) (cancelEntries job s))

theorem cancelJob_jobWithdrawn (job : Word) (s : State) :
    cancelJob job s =
      (afterWithdrawal (lowestHeld s) (removeHeads (jobWithdrawn job s)), (s.ret.entries.filter (cancelsEntry s job)).length) := by
  rw [cancelJob_eq, voidedByCancel_eq]
  rfl

theorem eq_of_nodup_map {α β : Type} {f : α → β} {a b : α} (hf : f a = f b) :
    ∀ {l : List α}, (l.map f).Nodup → a ∈ l → b ∈ l → a = b
  | x :: l, hnodup, ha, hb => by
    obtain ⟨hx, hl⟩ := List.nodup_cons.1 hnodup
    rcases List.mem_cons.1 ha with rfl | hal
    · rcases List.mem_cons.1 hb with rfl | hbl
      · rfl
      · exact absurd (List.mem_map.2 ⟨b, hbl, hf.symm⟩) hx
    · rcases List.mem_cons.1 hb with rfl | hbl
      · exact absurd (List.mem_map.2 ⟨a, hal, hf⟩) hx
      · exact eq_of_nodup_map hf hl hal hbl

section
variable {s : State} (hnodup : (s.sets.records.map (·.name)).Nodup)
include hnodup

/-- Two records of one set are one record. -/
theorem record_eq_of_name {r r' : SetRec} (hr : r ∈ s.sets.records) (hr' : r' ∈ s.sets.records) (h : r.name = r'.name) : r = r' :=
  eq_of_nodup_map h hnodup hr hr'

theorem findSet_of_mem {r : SetRec} (hr : r ∈ s.sets.records) : findSet s r.name = some r := by
  have hsome : (findSet s r.name).isSome = true := (findSet_isSome_iff s r.name).2 ⟨r, hr, rfl⟩
  obtain ⟨r', hr'⟩ := Option.isSome_iff_exists.1 hsome
  have hname : r'.name = r.name := by simpa using List.find?_some hr'
  rw [hr', record_eq_of_name hnodup (List.mem_of_find?_eq_some hr') hr hname]

theorem mem_names_iff {p : SetRec → Bool} {r : SetRec} (hr : r ∈ s.sets.records) :
    r.name ∈ (s.sets.records.filter p).map (·.name) ↔ p r = true := by
  simp only [List.mem_map, List.mem_filter]
  constructor
  · rintro ⟨r', ⟨hr', hp⟩, hname⟩
    rwa [← record_eq_of_name hnodup hr' hr hname]
  · exact fun hp => ⟨r, ⟨hr, hp⟩, rfl⟩

/-- The records after the voiding: each one as CANCEL JOB leaves it. -/
theorem setsVoided_records (job : Word) :
    (setsVoided (voidedByCancel s job) (cancelEntries job s)).sets.records = s.sets.records.map (afterCancel s job) := by
  simp only [setsVoided, cancelEntries, List.map_map]
  refine List.map_congr_left fun r hr => ?_
  have hname : (if isSetOfJob s job r then cancelRecord s job r else r).name = r.name := by
    split <;> rfl
  simp only [Function.comp_apply, hname, voidedByCancel, mem_names_iff hnodup hr, afterCancel, withdrawn]
  cases isSetOfJob s job r <;> cases isVoidedByCancel s r <;> rfl

/-- The set of a record is one that CANCEL JOB frees exactly where the record, as it is left, is freeable. -/
theorem frees_afterCancel (job : Word) {r : SetRec} (hr : r ∈ s.sets.records) :
    frees (setsVoided (voidedByCancel s job) (cancelEntries job s)) r.name = freeable (afterCancel s job r) := by
  have hfind : findSet (setsVoided (voidedByCancel s job) (cancelEntries job s)) r.name =
      (findSet s r.name).map (afterCancel s job) := by
    simp only [findSet, setsVoided_records hnodup, List.find?_map, Function.comp_def, afterCancel_name]
  rw [frees, hfind, findSet_of_mem hnodup hr]
  rfl

/-- The sets freed, by name: those of the freed records. -/
theorem freedNames (job : Word) (n : SetName) :
    (((setsOfJob s job).map (·.name)).contains n && frees (setsVoided (voidedByCancel s job) (cancelEntries job s)) n) =
      s.sets.records.any fun r => freedByCancel s job r && r.name = n := by
  rw [Bool.eq_iff_iff, Bool.and_eq_true, List.contains_iff_mem, List.any_eq_true]
  constructor
  · rintro ⟨hmem, hfrees⟩
    obtain ⟨r, hr, rfl⟩ := List.mem_map.1 hmem
    obtain ⟨hr, hjob⟩ := List.mem_filter.1 hr
    rw [frees_afterCancel hnodup job hr, afterCancel, if_pos hjob] at hfrees
    exact ⟨r, hr, by simp [freedByCancel, hjob, hfrees]⟩
  · rintro ⟨r, hr, h⟩
    simp only [freedByCancel, Bool.and_eq_true, decide_eq_true_iff] at h
    obtain ⟨⟨hjob, hfreeable⟩, rfl⟩ := h
    exact ⟨List.mem_map.2 ⟨r, List.mem_filter.2 ⟨hr, hjob⟩, rfl⟩, by
      rwa [frees_afterCancel hnodup job hr, afterCancel, if_pos hjob]⟩

theorem freedNames_of_mem (job : Word) {r : SetRec} (hr : r ∈ s.sets.records) :
    (s.sets.records.any fun r' => freedByCancel s job r' && r'.name = r.name) = freedByCancel s job r := by
  rw [Bool.eq_iff_iff, List.any_eq_true]
  constructor
  · rintro ⟨r', hr', h⟩
    simp only [Bool.and_eq_true, decide_eq_true_iff] at h
    rw [← record_eq_of_name hnodup hr' hr h.2]
    exact h.1
  · exact fun h => ⟨r, hr, by simp [h]⟩

/-- CANCEL JOB, block by block. -/
theorem jobWithdrawn_eq (job : Word) :
    jobWithdrawn job s = { s with
      ret.entries := s.ret.entries.map fun e => if cancelsEntry s job e then e.skip else e
      ret.receiving := if (setsOfJob s job).any fun r => s.ret.receiving = some r.name then none else s.ret.receiving
      sets := {
        records := (s.sets.records.filter fun r => !freedByCancel s job r).map (afterCancel s job)
        voidOrder := (s.sets.voidOrder ++ voidedByCancel s job).filter fun n =>
          !s.sets.records.any fun r => freedByCancel s job r && r.name = n }
      link.pathControl := s.link.pathControl ++ (voidedByCancel s job).map .setVoid
      sup.purge := s.sup.purge.map fun p =>
        if p.phase = .voidWait then { p with outstanding := p.outstanding ++ voidedByCancel s job } else p
      jam.deferred := if s.sup.state = .awaitClear then
          s.jam.deferred.filter fun c => !s.sets.records.any fun r => freedByCancel s job r && c.set = some r.name
        else s.jam.deferred } := by
  have hrecords : (s.sets.records.map (afterCancel s job)).filter (fun r => !s.sets.records.any fun r' =>
      freedByCancel s job r' && r'.name = r.name) =
      (s.sets.records.filter fun r => !freedByCancel s job r).map (afterCancel s job) := by
    rw [List.filter_map]
    refine congrArg _ (List.filter_congr fun r hr => ?_)
    simp only [Function.comp_apply, afterCancel_name, freedNames_of_mem hnodup job hr]
  have hcause : ∀ c : Cause, (((setsOfJob s job).map (·.name)).any fun n =>
      frees (setsVoided (voidedByCancel s job) (cancelEntries job s)) n && c.set = some n) =
      s.sets.records.any fun r => freedByCancel s job r && c.set = some r.name := by
    intro c
    rcases hc : c.set with _ | n
    · rw [List.any_eq_false.2 (by simp), List.any_eq_false.2 (by simp)]
    · have hnames := freedNames hnodup job n
      rw [Bool.eq_iff_iff] at hnames ⊢
      simp only [Bool.and_eq_true, List.contains_iff_mem, List.any_eq_true, decide_eq_true_iff, Option.some.injEq] at hnames ⊢
      rw [show (∃ r ∈ s.sets.records, freedByCancel s job r = true ∧ n = r.name) ↔
        ∃ r ∈ s.sets.records, freedByCancel s job r = true ∧ r.name = n by simp only [eq_comm], ← hnames]
      exact ⟨fun ⟨m, hm, hfrees, h⟩ => h ▸ ⟨hm, hfrees⟩, fun ⟨hm, hfrees⟩ => ⟨n, hm, hfrees, rfl⟩⟩
  have hvoidOrder : (setsVoided (voidedByCancel s job) (cancelEntries job s)).sets.voidOrder =
      s.sets.voidOrder ++ voidedByCancel s job := rfl
  rw [jobWithdrawn, setsFreed]
  simp only [freedNames hnodup, hcause, setsVoided_records hnodup, hrecords, hvoidOrder]
  rfl

end

end Sys2Proof.Machine
end

