-- ==== Sys2Proof/Proofs/OrdersWithdrawn.lean ====
section
/-! SUPPORT. CANCEL JOB as its statement writes it, and SKIP ORDER beside it. -/

namespace Sys2Proof.Machine

/-! ### The entries and sets of a job -/

theorem isCancelled_iff (job : Word) (e : Entry) :
    isCancelled job e = true ↔ e.job = job ∧ (e.state = .queued ∨ e.state = .held ∨ e.state = .reprint) := by
  simp [isCancelled, isWaiting, or_assoc]

theorem isSetOfJob_iff (s : State) (job : Word) (r : SetRec) :
    isSetOfJob s job r = true ↔ ∃ e ∈ s.ret.entries.filter (fun e => memberOf s.tables r e), e.job = job := by
  simp only [isSetOfJob, List.any_eq_true, List.mem_filter, Bool.and_eq_true, decide_eq_true_iff]
  exact ⟨fun ⟨e, he, hjob, hm⟩ => ⟨e, ⟨he, hm⟩, hjob⟩, fun ⟨e, ⟨he, hm⟩, hjob⟩ => ⟨e, he, hjob, hm⟩⟩

theorem deliveredMembers_pos_iff (s : State) (r : SetRec) :
    0 < deliveredMembers s r ↔ ∃ e ∈ s.ret.entries.filter (fun e => memberOf s.tables r e), e.state = .delivered := by
  simp only [deliveredMembers, membersWhere, List.length_pos_iff_exists_mem, List.mem_filter, Bool.and_eq_true,
    decide_eq_true_iff, and_assoc]

theorem isVoidedByCancel_iff (s : State) (r : SetRec) :
    isVoidedByCancel s r = true ↔
      r.state = .opened ∧ ∃ e ∈ s.ret.entries.filter (fun e => memberOf s.tables r e), e.state = .delivered := by
  rw [isVoidedByCancel, Bool.and_eq_true, decide_eq_true_iff, decide_eq_true_iff, deliveredMembers_pos_iff]

theorem cancelsEntry_iff (s : State) (job : Word) (e : Entry) :
    cancelsEntry s job e = true ↔ isCancelled job e = true ∨ (e.state = .delivered ∧
      ∃ r ∈ s.sets.records, isSetOfJob s job r = true ∧ isVoidedByCancel s r = true ∧ memberOf s.tables r e = true) := by
  simp only [cancelsEntry, setsOfJob, Bool.or_eq_true, Bool.and_eq_true, decide_eq_true_iff, List.any_eq_true, List.mem_filter,
    and_assoc]

/-- With no set of the job, CANCEL JOB withdraws the entries of the job alone. -/
theorem jobWithdrawn_of_noSets {job : Word} {s : State} (h : setsOfJob s job = []) :
    jobWithdrawn job s = { s with
      ret.entries := s.ret.entries.map fun e => if isCancelled job e then e.skip else e } := by
  have hnone : ∀ r ∈ s.sets.records, isSetOfJob s job r = false := by
    simpa [setsOfJob, List.filter_eq_nil_iff] using h
  have hrecords : s.sets.records.map (fun r => if isSetOfJob s job r then cancelRecord s job r else r) = s.sets.records :=
    (List.map_congr_left fun r hr => if_neg (by simp [hnone r hr])).trans (List.map_id _)
  have hvoided : voidedByCancel s job = [] := by
    rw [← voidedByCancel_eq, h]
    rfl
  have hentries : ∀ e : Entry, cancelsEntry s job e = isCancelled job e := by simp [cancelsEntry, h]
  rw [jobWithdrawn, hvoided, setsVoided_nil, h, cancelEntries]
  simp only [hrecords, h, hentries]
  exact setsFreed_nil _

theorem cancelled_of_noSets {job : Word} {s : State} (h : setsOfJob s job = []) :
    s.ret.entries.filter (cancelsEntry s job) = s.ret.entries.filter (isCancelled job) := by
  congr 1
  funext e
  simp [cancelsEntry, h]

/-! ### A set that is voided -/

/-- What follows a withdrawal only adds to the PATH CONTROL frames. -/
theorem forwarderPass_pathControl (s : State) : ∃ more, (forwarderPass s).link.pathControl = s.link.pathControl ++ more := by
  have hdrain : ∀ u : State, ∃ more, (drainCheck u).link.pathControl = u.link.pathControl ++ more := by
    intro u
    simp only [drainCheck]
    (repeat' split)
    · exact ⟨[], by simp⟩
    · exact ⟨_, by simp; rfl⟩
    · exact ⟨[], by simp⟩
  obtain ⟨more, hmore⟩ := hdrain (considerQueue ((reviewRequest s).ret.entries.length + 1) (reviewRequest s))
  exact ⟨more, by simpa [forwarderPass] using hmore⟩

theorem afterWithdrawal_pathControl (old : Option OrderNo) (s : State) :
    ∃ more, (afterWithdrawal old s).link.pathControl = s.link.pathControl ++ more := by
  simp only [afterWithdrawal, leaveHeld]
  (repeat' split)
  · exact ⟨[], by simp⟩
  · exact ⟨[], by simp⟩
  · simpa using forwarderPass_pathControl (enterState .running s)
  · exact ⟨[], by simp⟩
  · simpa using forwarderPass_pathControl (enterState .running s)
  · exact ⟨[], by simp⟩
  · exact forwarderPass_pathControl s

theorem afterWithdrawal_sets (old : Option OrderNo) (s : State) : (afterWithdrawal old s).sets = s.sets := by
  simp

/-- A set that CANCEL JOB voids has its SET VOID on its way, and its record, where one is left, is VOIDED. -/
theorem jobWithdrawn_voids {job : Word} {s : State} {n : SetName} (h : n ∈ voidedByCancel s job) :
    .setVoid n ∈ (jobWithdrawn job s).link.pathControl ∧
      ∀ x ∈ (jobWithdrawn job s).sets.records, x.name = n → x.state = .voided := by
  refine ⟨List.mem_append_right _ (List.mem_map_of_mem h), fun x hx hname => ?_⟩
  obtain ⟨r, -, rfl⟩ := List.mem_map.1 (List.mem_filter.1 hx).1
  by_cases hr : r.name ∈ voidedByCancel s job
  · rw [if_pos hr]
  · rw [if_neg hr] at hname
    exact absurd (hname ▸ h) hr

/-! ### The obligation -/

/-- What CANCEL JOB looks at is not changed by the wake. -/
theorem wake_frame (port : MgmtPort) (s : State) :
    (wakeToIdle (takeRequest port s)).ret = s.ret ∧ (wakeToIdle (takeRequest port s)).sets = s.sets ∧
    (wakeToIdle (takeRequest port s)).tables = s.tables ∧ (wakeToIdle (takeRequest port s)).jam = s.jam ∧
    (wakeToIdle (takeRequest port s)).link.pathControl = s.link.pathControl := by
  cases port <;> simp [takeRequest]

theorem wake_awaitClear (port : MgmtPort) (s : State) :
    (wakeToIdle (takeRequest port s)).sup.state = .awaitClear ↔ s.sup.state = .awaitClear := by
  have hsup : (takeRequest port s).sup = s.sup := by cases port <;> rfl
  rw [wakeToIdle_state, hsup]
  split <;> simp_all

theorem setsOfJob_wake (port : MgmtPort) (job : Word) (s : State) :
    setsOfJob (wakeToIdle (takeRequest port s)) job = setsOfJob s job := by
  obtain ⟨hret, hsets, htables, -, -⟩ := wake_frame port s
  simp only [setsOfJob, hsets]
  refine List.filter_congr fun r _ => ?_
  simp only [isSetOfJob, hret, htables]

/-- CANCEL JOB as a request: the part with the job withdrawn, and the number of entries made SKIPPED. -/
theorem exec_cancelJob_withdrawn {port : MgmtPort} {q : Request} {hi lo : Byte} {s : State} (h : Awaits port q 0x24 [hi, lo] s) :
    exec (.cancelJob port) s = .next (answered port q .done
      [byteOf ((wakeToIdle (takeRequest port s)).ret.entries.filter
        (cancelsEntry (wakeToIdle (takeRequest port s)) (wordOf hi lo))).length]
      (afterWithdrawal (lowestHeld s) (removeHeads (jobWithdrawn (wordOf hi lo) (wakeToIdle (takeRequest port s)))))) := by
  rw [exec_cancelJob h, cancelJob_jobWithdrawn, lowestHeld_wake]

/-- CANCEL JOB of a job without sets. -/
theorem cancelJob_ofNoSets {port : MgmtPort} {q : Request} {hi lo : Byte} {s : State} (h : Awaits port q 0x24 [hi, lo] s)
    (hnone : setsOfJob s (wordOf hi lo) = []) :
    exec (.cancelJob port) s = .next (answered port q .done
      [byteOf (s.ret.entries.filter (isCancelled (wordOf hi lo))).length]
      (afterWithdrawal (lowestHeld s) (removeHeads { wakeToIdle (takeRequest port s) with
        ret.entries := (wakeToIdle (takeRequest port s)).ret.entries.map fun e =>
          if isCancelled (wordOf hi lo) e then e.skip else e }))) := by
  have hnone' : setsOfJob (wakeToIdle (takeRequest port s)) (wordOf hi lo) = [] := by rw [setsOfJob_wake, hnone]
  obtain ⟨hret, -⟩ := wake_frame port s
  rw [exec_cancelJob_withdrawn h, jobWithdrawn_of_noSets hnone', cancelled_of_noSets hnone']
  simp only [hret]

/-- CANCEL JOB voids an OPEN set of the job that has a DELIVERED member. -/
theorem cancelJob_voids {port : MgmtPort} {q : Request} {hi lo : Byte} {s : State} (h : Awaits port q 0x24 [hi, lo] s)
    {r : SetRec} (hr : r ∈ setsOfJob s (wordOf hi lo)) (hopened : r.state = .opened)
    (hdelivered : ∃ e ∈ s.ret.entries, e.state = .delivered ∧ memberOf s.tables r e = true) :
    ∃ t, exec (.cancelJob port) s = .next t ∧ .setVoid r.name ∈ controlHeld t ∧
      ∀ x ∈ t.sets.records, x.name = r.name → x.state = .voided := by
  obtain ⟨hret, hsets, htables, -, -⟩ := wake_frame port s
  have hvoided : r.name ∈ voidedByCancel (wakeToIdle (takeRequest port s)) (wordOf hi lo) := by
    obtain ⟨e, he, hstate, hmember⟩ := hdelivered
    rw [← voidedByCancel_eq, setsOfJob_wake]
    refine List.mem_map_of_mem (List.mem_filter.2 ⟨hr, (isVoidedByCancel_iff _ _).2 ⟨hopened, e, ?_, hstate⟩⟩)
    rw [hret, htables]
    exact List.mem_filter.2 ⟨he, hmember⟩
  obtain ⟨hcontrol, hrecords⟩ := jobWithdrawn_voids hvoided
  refine ⟨_, exec_cancelJob_withdrawn h, ?_, fun x hx => hrecords x ?_⟩
  · obtain ⟨more, hmore⟩ := afterWithdrawal_pathControl (lowestHeld s)
      (removeHeads (jobWithdrawn (wordOf hi lo) (wakeToIdle (takeRequest port s))))
    rw [answered, controlHeld_finish]
    refine List.mem_append_right _ ?_
    have hreply : ∀ (reply : Reply) (u : State), (putReply port reply u).link.pathControl = u.link.pathControl := by
      intro reply u
      cases port <;> rfl
    rw [hreply, hmore]
    refine List.mem_append_left _ ?_
    simpa using hcontrol
  · have hreply : ∀ (reply : Reply) (u : State), (putReply port reply u).sets = u.sets := by
      intro reply u
      cases port <;> rfl
    simpa [answered, hreply] using hx

/-- A set of the job, as it is left, in the places where CANCEL JOB changes it. -/
theorem withdrawn_eq (s : State) (job : Word) (r : SetRec) :
    withdrawn s job r = { r with
      last := if s.ret.receiving = some r.name then highestMember s r else r.last
      cancelled := r.cancelled || decide (r.state ≠ .completeAwaiting)
      rebuilt := r.rebuilt && decide (r.state = .completeAwaiting)
      members := r.members - cancelledMembers s job r - (if isVoidedByCancel s r then deliveredMembers s r else 0)
      delivered := r.delivered - (if isVoidedByCancel s r then deliveredMembers s r else 0)
      state := if isVoidedByCancel s r then .voided else r.state
      deadline := if isVoidedByCancel s r then none else r.deadline } := by
  simp only [withdrawn, cancelRecord]
  cases isVoidedByCancel s r <;> rfl

theorem freedByCancel_iff (s : State) (job : Word) (r : SetRec) :
    freedByCancel s job r = true ↔ isSetOfJob s job r = true ∧ (withdrawn s job r).members = 0 ∧
      ((withdrawn s job r).state = .opened ∨ (withdrawn s job r).state = .completeAwaiting) := by
  simp only [freedByCancel, freeable, Bool.and_eq_true, Bool.or_eq_true, decide_eq_true_iff]

/-- The members of a record that CANCEL JOB withdraws for their own state, and its DELIVERED members, among its members. -/
theorem cancelledMembers_eq (s : State) (job : Word) (r : SetRec) :
    cancelledMembers s job r =
      ((s.ret.entries.filter fun e => memberOf s.tables r e).filter (isCancelled job)).length := by
  rw [cancelledMembers, List.filter_filter]

theorem deliveredMembers_eq (s : State) (r : SetRec) :
    deliveredMembers s r =
      ((s.ret.entries.filter fun e => memberOf s.tables r e).filter fun e => decide (e.state = .delivered)).length := by
  rw [deliveredMembers, membersWhere, List.filter_filter]
  simp only [Bool.and_comm]

/-- Settles O28: SKIP ORDER by the named entry, CANCEL JOB block by block, and what follows by the part state. -/
theorem ordersAreWithdrawn : Obligations.OrdersAreWithdrawn := by
  refine ⟨fun port q hi lo s h => ⟨fun hnone => ?_, fun e he => ⟨fun hwaiting => ⟨fun hset => ?_, fun hset => ?_⟩, fun hq hh => ?_⟩⟩,
    fun port q hi lo s h => ⟨⟨_, _, exec_cancelJob h⟩, fun hnone => ?_, fun r hr hopened hdelivered =>
      cancelJob_voids h hr hopened hdelivered⟩,
    fun port q hi lo s h hnodup => ?_, fun old s => ⟨afterWithdrawal_notHeld, afterWithdrawal_otherReason, fun hheld hreason =>
      ⟨fun e he hstate hold => ?_, fun e he hstate hold => ?_, fun e he hstate => ?_, fun hnone hrest => ?_, fun hnone hmore => ?_⟩⟩,
    fun n job s => ⟨rfl, rfl, rfl⟩⟩
  · exact exec_skipOrder_refused h (skipStatus_of_none hnone) (by simp)
  · exact exec_skipOrder_refused h (by rw [skipStatus_of_some he, if_pos hwaiting, if_pos hset]) (by simp)
  · rw [exec_skipOrder_done h (by rw [skipStatus_of_some he, if_pos hwaiting, if_neg (by simp [hset])])]
    rfl
  · exact exec_skipOrder_refused h (by rw [skipStatus_of_some he, if_neg (by simp [hq, hh])]) (by simp)
  · rw [cancelJob_ofNoSets h hnone]
    simp only [← isCancelled_iff, Bool.decide_eq_true]
    rfl
  · intro u gone count members ofJob voids skipped lost left freed voided kept keeps
    obtain ⟨hret, hsets, htables, hjam, hcontrol⟩ : u.ret = s.ret ∧ u.sets = s.sets ∧ u.tables = s.tables ∧ u.jam = s.jam ∧
      u.link.pathControl = s.link.pathControl := wake_frame port s
    have hawait : u.sup.state = .awaitClear ↔ s.sup.state = .awaitClear := wake_awaitClear port s
    have hgone : ∀ e, gone e ↔ isCancelled (wordOf hi lo) e = true := fun e => (isCancelled_iff _ e).symm
    have hofJob : ∀ r, ofJob r ↔ isSetOfJob u (wordOf hi lo) r = true := by
      intro r
      rw [isSetOfJob_iff, hret, htables]
    have hvoids : ∀ r, voids r ↔ isSetOfJob u (wordOf hi lo) r = true ∧ isVoidedByCancel u r = true := by
      intro r
      rw [← hofJob, isVoidedByCancel_iff, hret, htables]
    have hskipped : ∀ e ∈ s.ret.entries, skipped e ↔ cancelsEntry u (wordOf hi lo) e = true := by
      intro e he
      rw [cancelsEntry_iff, hsets, htables]
      simp only [skipped, hgone, hvoids, members, List.mem_filter, he, true_and, and_assoc]
    have hleft : ∀ r, ofJob r → left r = withdrawn u (wordOf hi lo) r := by
      intro r hr
      have hvoid : voids r ↔ isVoidedByCancel u r = true := by rw [hvoids, ← hofJob, and_iff_right hr]
      have hlost : lost r = if isVoidedByCancel u r then deliveredMembers u r else 0 := by
        simp only [lost, hvoid, deliveredMembers_eq, hret, htables, members]
      rw [withdrawn_eq, cancelledMembers_eq, hret, htables]
      simp only [left, hlost, hvoid, hgone, highestMember, hret, htables, members, Bool.decide_eq_true]
    have hfreed : ∀ r, freed r ↔ freedByCancel u (wordOf hi lo) r = true := by
      intro r
      rw [freedByCancel_iff, ← hofJob]
      exact and_congr_right fun hr => by rw [hleft r hr]
    have hfreedAny : ∀ p : SetRec → Prop, ∀ _ : DecidablePred p, (∀ r ∈ s.sets.records, freed r → ¬p r) ↔
        (!u.sets.records.any fun r => freedByCancel u (wordOf hi lo) r && decide (p r)) = true := by
      intro p _
      simp only [hsets, hfreed, Bool.not_eq_true', List.any_eq_false, Bool.and_eq_true, decide_eq_true_iff, not_and]
    have hvoided : voided = voidedByCancel u (wordOf hi lo) := by
      simp only [voided, voidedByCancel, hvoids, hsets, Bool.decide_and, Bool.decide_eq_true, Bool.and_comm]
    have hkept : kept = (u.sets.records.filter fun r => !freedByCancel u (wordOf hi lo) r).map (afterCancel u (wordOf hi lo)) := by
      simp only [kept, hfreed, hsets, Bool.not_eq_true, Bool.decide_eq_false]
      refine List.map_congr_left fun r _ => ?_
      simp only [afterCancel, ← hofJob]
      split
      next hr => exact hleft r hr
      next => rfl
    have hentries : (s.ret.entries.map fun e => if cancelsEntry u (wordOf hi lo) e then e.skip else e) =
        s.ret.entries.map fun e => if skipped e then { e with state := .skipped, unpicked := false } else e := by
      refine List.map_congr_left fun e he => ?_
      simp only [hskipped e he]
      rfl
    have hcount : (s.ret.entries.filter (cancelsEntry u (wordOf hi lo))).length = count fun e => decide (skipped e) := by
      refine congrArg List.length (List.filter_congr fun e he => ?_)
      simp only [hskipped e he, Bool.decide_eq_true]
    have hreceiving : (if (setsOfJob u (wordOf hi lo)).any fun r => s.ret.receiving = some r.name then none else s.ret.receiving) =
        if ∃ r ∈ s.sets.records, ofJob r ∧ s.ret.receiving = some r.name then none else s.ret.receiving := by
      refine ite_congr (propext ?_) (fun _ => rfl) fun _ => rfl
      simp only [setsOfJob, hsets, hofJob, List.any_eq_true, List.mem_filter, decide_eq_true_iff, and_assoc]
    have hvoidOrder : ((u.sets.voidOrder ++ voidedByCancel u (wordOf hi lo)).filter fun n =>
        !u.sets.records.any fun r => freedByCancel u (wordOf hi lo) r && r.name = n) =
        (s.sets.voidOrder ++ voided).filter keeps := by
      rw [hvoided, congrArg SetMonitor.voidOrder hsets]
      refine List.filter_congr fun n _ => ?_
      simp only [keeps, ne_eq, hfreedAny (fun r => r.name = n) inferInstance, Bool.decide_eq_true]
    have hdeferred : (if u.sup.state = .awaitClear then
        s.jam.deferred.filter fun c => !u.sets.records.any fun r => freedByCancel u (wordOf hi lo) r && c.set = some r.name
        else s.jam.deferred) =
        if s.sup.state = .awaitClear then
          s.jam.deferred.filter fun c => decide (∀ r ∈ s.sets.records, freed r → c.set ≠ some r.name)
        else s.jam.deferred := by
      refine ite_congr (propext hawait) (fun _ => List.filter_congr fun c _ => ?_) fun _ => rfl
      simp only [ne_eq, hfreedAny (fun r => c.set = some r.name) inferInstance, Bool.decide_eq_true]
    have hwithdrawn := jobWithdrawn_eq (s := u) (by rwa [hsets]) (wordOf hi lo)
    rw [hret, hjam, hcontrol, hentries, hreceiving, hvoidOrder, hdeferred, ← hkept, ← hvoided] at hwithdrawn
    refine (exec_cancelJob_withdrawn h).trans ?_
    rw [show wakeToIdle (takeRequest port s) = u from rfl, hwithdrawn, hret, hcount]
    rw [hjam]
    rfl
  · rw [afterWithdrawal_waiting hheld hreason he, if_pos hstate, if_pos hold]
  · rw [afterWithdrawal_waiting hheld hreason he, if_pos hstate, if_neg hold]
  · rw [afterWithdrawal_waiting hheld hreason he, if_neg (by simp [hstate])]
  · rw [afterWithdrawal_noneWaiting hheld hreason hnone, if_pos ((atRest_iff s).2 hrest)]
  · rw [afterWithdrawal_noneWaiting hheld hreason hnone, if_neg]
    rw [atRest_iff]
    rintro ⟨hempty, hnoneForwarded⟩
    rcases hmore with hmore | ⟨e, he, hforwarded⟩
    · simp [hmore] at hempty
    · exact hnoneForwarded e he hforwarded

end Sys2Proof.Machine
end


-- ==== Sys2Proof/Proofs/ReadCommands.lean ====
section
/-! SUPPORT. What the read commands answer: the bytes of each reply (R13, R117, R180, R181, R182). -/

namespace Sys2Proof.Machine

theorem actOf_identify (port : MgmtPort) (args : List Byte) (s : State) :
    actOf (.identify port) args s = { state := s, status := .done, results := identifyBytes s } := rfl

theorem actOf_readState (port : MgmtPort) (args : List Byte) (s : State) :
    actOf (.readState port) args s = { state := s, status := .done, results := stateBytes s } := rfl

theorem actOf_readOrder (port : MgmtPort) (args : List Byte) (s : State) :
    actOf (.readOrder port) args s = readOrder (wordArg args) s := rfl

theorem actOf_readTable (port : MgmtPort) (args : List Byte) (s : State) :
    actOf (.readTable port) args s = readTable args s := rfl

theorem actOf_readPlan (port : MgmtPort) (args : List Byte) (s : State) :
    actOf (.readPlan port) args s = readPlan (args.getD 0 0) (args.getD 1 0).toNat s := rfl

/-! ### The bytes of the flags -/

theorem flagsByte_one (a : Bool) : flagsByte [(0, a)] = boolByte a := by
  cases a <;> rfl

theorem flagsByte_two (a b : Bool) :
    flagsByte [(0, a), (1, b)] = (if a then 1 else 0) ||| (if b then 2 else 0) := by
  cases a <;> cases b <;> rfl

theorem flagsByte_three (a b c : Bool) :
    flagsByte [(0, a), (1, b), (2, c)] = (if a then 1 else 0) ||| (if b then 2 else 0) ||| (if c then 4 else 0) := by
  cases a <;> cases b <;> cases c <;> rfl

theorem boolByte_not (b : Bool) : boolByte (!b) = if b then 0 else 1 := by
  cases b <;> rfl

theorem flagBit_seven (b : Bool) : flagBit 7 b = if b then 0x80 else 0 := by
  cases b <;> rfl

/-! ### What the taking of the request leaves -/

theorem findEntry_takeRequest (port : MgmtPort) (n : OrderNo) (s : State) : findEntry (takeRequest port s) n = findEntry s n := by
  simp [findEntry]

theorem trackingCount_takeRequest (port : MgmtPort) (s : State) : trackingCount (takeRequest port s) = trackingCount s := by
  simp [trackingCount]

/-! ### IDENTIFY, READ STATE and READ ORDER -/

theorem identifyBytes_eq (s : State) :
    identifyBytes s = [0x52, 0x18, Config.revision, match s.sup.resetCause with
      | .power => 0
      | .pin => 1
      | .link => 2] := by
  simp only [identifyBytes]
  cases s.sup.resetCause <;> rfl

theorem planStateBytes_eq (plan : Option PlanRec) :
    planStateBytes plan = match plan with
      | some p => [p.number, if p.isOpen then 0 else 1]
      | none => [0, 0xFF] := by
  cases plan with
  | none => rfl
  | some p => simp only [planStateBytes, boolByte_not]

/-- The bytes of the window's limits: highest and lowest order number (R42). -/
theorem creditBytes_eq (r : Retention) :
    wordBytes (creditContent r).limit ++ wordBytes (creditContent r).oldest = match r.h with
      | some h => wordBytes (h + 31) ++ wordBytes h
      | none => [0, 31, 0, 0] := by
  simp only [creditContent]
  cases r.h <;> rfl

theorem creditContent_isOpen (r : Retention) : (creditContent r).isOpen = decide (r.h = none) := by
  simp only [creditContent]
  cases r.h <;> rfl

theorem requestByte_eq (x : Option (SpeedClass × OrderNo)) : finByte (x.map (·.1)) = match x with
    | some x => byteOf x.1.val
    | none => 0xFF := by
  cases x <;> rfl

theorem stateBytes_eq (s : State) :
    stateBytes s =
      [s.sup.state.code, HeldReason.code s.sup.heldReason, byteOf s.fwd.speed.val,
        (match s.fwd.request with
          | some x => byteOf x.1.val
          | none => 0xFF),
        byteOf s.ret.entries.length, byteOf (trackingCount s)] ++
      (match s.plan.plan with
        | some p => [p.number, if p.isOpen then 0 else 1]
        | none => [0, 0xFF]) ++
      (match s.ret.h with
        | some h => wordBytes (h + 31) ++ wordBytes h
        | none => [0, 31, 0, 0]) ++
      [(if s.ret.h = none then 1 else 0) ||| (if s.fwd.windowHold then 2 else 0) |||
        (if s.tables.checked then 4 else 0),
       byteOf (engineWindow s.fwd), s.fwd.f] := by
  simp only [stateBytes, flagsByte_three, creditContent_isOpen, requestByte_eq, planStateBytes_eq, decide_eq_true_iff]
  rw [List.append_assoc (_ ++ _) (wordBytes _) (wordBytes _), creditBytes_eq] <;> rfl

theorem entryBytes_eq (e : Entry) :
    entryBytes e = orderBytes e ++ [e.state.code, byteOf e.attempt, boolByte e.unpicked, finByte e.tag, Mark.code e.mark] := by
  simp only [entryBytes, flagsByte_one]

theorem readOrder_of_some {n : OrderNo} {e : Entry} {s : State} (h : findEntry s n = some e) :
    readOrder n s = { state := s, status := .done, results := entryBytes e } := by
  simp [readOrder, h]

theorem readOrder_of_none {n : OrderNo} {s : State} (h : findEntry s n = none) :
    readOrder n s = { state := s, status := .range } := by
  simp [readOrder, h]

theorem exec_readOrder {port : MgmtPort} {q : Request} {hi lo : Byte} {s : State} (h : Awaits port q 0x20 [hi, lo] s) :
    exec (.readOrder port) s = .next (answered port q (readOrder (wordOf hi lo) (takeRequest port s)).status
      (readOrder (wordOf hi lo) (takeRequest port s)).results (readOrder (wordOf hi lo) (takeRequest port s)).state) := by
  rw [exec_served (c := .readOrder port) rfl h (by decide) (by simp [exactly]), actOf_readOrder, wordArg_pair]

/-! ### READ TABLE -/

theorem indexOf_byteOf {n : Nat} (i : Fin n) (h : n ≤ 256) : indexOf n (byteOf i.val) = some i :=
  indexOf_eq_some_iff.2 (byteOf_toNat (by omega)).symm

theorem indexOf_of_le {n : Nat} {b : Byte} (h : n ≤ b.toNat) : indexOf n b = none := by
  simp [indexOf, Nat.not_lt.2 h]

theorem tableBytes_station (t : Tables) (i : Station) : tableBytes t 0 (byteOf i.val) = some (stationBytes i t.stations[i]) := by
  simp [tableBytes, indexOf_byteOf]

theorem tableBytes_zone (t : Tables) (i : Zone) : tableBytes t 1 (byteOf i.val) = some (zoneBytes i t.zones[i]) := by
  simp [tableBytes, indexOf_byteOf]

theorem tableBytes_bin (t : Tables) (i : Bin) : tableBytes t 2 (byteOf i.val) = some (binBytes i t.bins[i]) := by
  simp [tableBytes, indexOf_byteOf]

theorem tableBytes_route (t : Tables) (i : RouteIx) : tableBytes t 3 (byteOf i.val) = some (routeBytes i t.routes[i]) := by
  simp [tableBytes, indexOf_byteOf]

/-- No record stands beyond the last index of a table, nor in a table beyond the last. -/
theorem tableBytes_eq_none (t : Tables) {table index : Byte}
    (h : (table = 0 ∧ 16 ≤ index.toNat) ∨ (table = 1 ∧ 12 ≤ index.toNat) ∨ (table = 2 ∧ 8 ≤ index.toNat) ∨
      (table = 3 ∧ 32 ≤ index.toNat) ∨ 7 ≤ table.toNat) : tableBytes t table index = none := by
  rcases h with ⟨rfl, h⟩ | ⟨rfl, h⟩ | ⟨rfl, h⟩ | ⟨rfl, h⟩ | h
  · simp [tableBytes, indexOf_of_le h]
  · simp [tableBytes, indexOf_of_le h]
  · simp [tableBytes, indexOf_of_le h]
  · simp [tableBytes, indexOf_of_le h]
  · obtain ⟨k, hk⟩ := Nat.exists_eq_add_of_le' h
    simp [tableBytes, hk]

theorem readTable_of_some {s : State} {table index : Byte} {bytes : List Byte}
    (h : tableBytes s.tables table index = some bytes) :
    readTable [table, index] s = { state := s, status := .done, results := bytes } := by
  simp [readTable, h]

theorem readTable_of_none {s : State} {table index : Byte} (h : tableBytes s.tables table index = none) :
    readTable [table, index] s = { state := s, status := .range } := by
  simp [readTable, h]

section
variable {port : MgmtPort} {q : Request} {table index : Byte} {s : State} (h : Awaits port q 0x15 [table, index] s)
include h

theorem exec_readTable_some {bytes : List Byte} (hbytes : tableBytes s.tables table index = some bytes) :
    exec (.readTable port) s = .next (answered port q .done bytes (takeRequest port s)) := by
  rw [exec_served (c := .readTable port) rfl h (by decide) (by simp [exactly]), actOf_readTable,
    readTable_of_some (bytes := bytes) (by simpa using hbytes)]

theorem exec_readTable_none (hbytes : tableBytes s.tables table index = none) :
    exec (.readTable port) s = .next (answered port q .range [] (takeRequest port s)) := by
  rw [exec_served (c := .readTable port) rfl h (by decide) (by simp [exactly]), actOf_readTable,
    readTable_of_none (by simpa using hbytes)]

end

/-! ### READ PLAN -/

section
variable {number : Byte} {page : Nat} {s : State}

theorem readPlan_of_none (h : s.plan.plan = none) : readPlan number page s = { state := s, status := .stale } := by
  simp [readPlan, h]

variable {p : PlanRec} (h : s.plan.plan = some p)
include h

theorem readPlan_of_other (h0 : number ≠ 0) (hne : number ≠ p.number) :
    readPlan number page s = { state := s, status := .stale } := by
  simp only [readPlan, h, ne_eq, h0, hne, not_false_iff, decide_true, Bool.and_self, if_true]

theorem readPlan_of_beyond (hnumber : number = 0 ∨ number = p.number) (hpage : lastPage p < page) :
    readPlan number page s = { state := s, status := .range } := by
  rcases hnumber with hnumber | hnumber <;> simp [readPlan, h, hnumber, hpage]

theorem readPlan_of_page (hnumber : number = 0 ∨ number = p.number) (hpage : page ≤ lastPage p) :
    readPlan number page s = { state := s, status := .done, results := p.number :: pageBytes p page } := by
  rcases hnumber with hnumber | hnumber <;> simp [readPlan, h, hnumber, Nat.not_lt.2 hpage]

end

theorem exec_readPlan {port : MgmtPort} {q : Request} {number page : Byte} {s : State} (h : Awaits port q 0x21 [number, page] s) :
    exec (.readPlan port) s = .next (answered port q (readPlan number page.toNat (takeRequest port s)).status
      (readPlan number page.toNat (takeRequest port s)).results (readPlan number page.toNat (takeRequest port s)).state) := by
  rw [exec_served (c := .readPlan port) rfl h (by decide) (by simp [exactly]), actOf_readPlan]
  rfl

theorem pageBytes_zero (p : PlanRec) :
    pageBytes p 0 =
      [if p.isOpen then 0 else 1, p.number, p.kind.code, byteOf p.causes.length,
       (if p.more then 1 else 0) ||| (if p.resume.isSome then 2 else 0)] ++
      wordBytes (p.clear.setWidth 16) ++ wordBytes (p.resume.getD 0xFFFF) ++
      [byteOf p.reprint, byteOf (dispositionCount p .unpicked), byteOf (dispositionCount p .lost),
       byteOf (dispositionCount p .salvage), byteOf (dispositionCount p .wasteDivert), byteOf (dispositionCount p .wasteAtDest),
       byteOf p.voided.length] ++ posBytes p.pos := by
  simp only [pageBytes, summaryBytes, planSummary, flagsByte_two, boolByte_not, zoneSetBytes, absentInReply]
  simp only [List.cons_append, List.append_assoc, List.nil_append]

theorem setBytes_reply (n : Option SetName) : setBytes 0xFF n = match n with
    | some n => [byteOf n.bin.val, n.set]
    | none => [0xFF, 0xFF] := by
  cases n <;> rfl

theorem pageBytes_one (p : PlanRec) :
    pageBytes p 1 =
      (byteOf p.causes.length ||| (if p.more then 0x80 else 0)) ::
      p.causes.flatMap (fun c =>
        [c.kind.code, finByte c.station, finByte c.cover] ++
        (match c.set with
          | some n => [byteOf n.bin.val, n.set]
          | none => [0xFF, 0xFF]) ++
        wordBytes (c.zones.setWidth 16) ++ [if c.sheet.isSome then 1 else 0] ++ wordBytes (c.sheet.getD 0xFFFF) ++
        [c.pos.extractLsb' 24 8, c.pos.extractLsb' 16 8, c.pos.extractLsb' 8 8, c.pos.extractLsb' 0 8]) := by
  simp only [pageBytes, causesBytes, causeBytes, flagBit_seven, flagsByte_one, boolByte, setBytes_reply, zoneSetBytes, posBytes,
    absentInReply]

theorem dispositionBytes_eq (p : PlanRec) (d : Disposition) :
    byteOf (dispositionCount p d) = byteOf (p.dispositions.filter fun x => x.2 = d).length := rfl

/-- Settles O29. -/
theorem readCommandsAnswerWhatIsHeld : Obligations.ReadCommandsAnswerWhatIsHeld := by
  refine ⟨fun port q s => ⟨fun h => ?_, fun h => ?_, fun hi lo h => ?_, fun table index h => ?_, fun number page h => ?_⟩,
    fun p => ⟨?_, ?_, rfl, fun k => rfl⟩⟩
  · rw [exec_served (c := .identify port) rfl h (by decide) (by decide), actOf_identify, identifyBytes_eq,
      show (takeRequest port s).sup = s.sup by simp] <;> rfl
  · rw [exec_served (c := .readState port) rfl h (by decide) (by decide), actOf_readState, stateBytes_eq]
    rw [trackingCount_takeRequest]
    simp only [takeRequest_frame] <;> rfl
  · refine ⟨fun e he => ?_, fun hnone => ?_⟩
    · rw [exec_readOrder h, readOrder_of_some (by rwa [findEntry_takeRequest]), entryBytes_eq]
    · rw [exec_readOrder h, readOrder_of_none (by rwa [findEntry_takeRequest])]
  · exact ⟨fun i ht hi => exec_readTable_some h (by rw [ht, hi, tableBytes_station]),
      fun i ht hi => exec_readTable_some h (by rw [ht, hi, tableBytes_zone]),
      fun i ht hi => exec_readTable_some h (by rw [ht, hi, tableBytes_bin]),
      fun i ht hi => exec_readTable_some h (by rw [ht, hi, tableBytes_route]),
      fun ht => exec_readTable_some h (by rw [ht]; rfl), fun ht => exec_readTable_some h (by rw [ht]; rfl),
      fun ht => exec_readTable_some h (by rw [ht]; rfl), fun ht => exec_readTable_none h (tableBytes_eq_none _ ht)⟩
  · have hplan : (takeRequest port s).plan = s.plan := by simp
    refine ⟨fun hnone => ?_, fun p hp => ⟨fun h0 hne => ?_, fun hnumber => ⟨fun hpage => ?_, fun hpage => ?_⟩⟩⟩
    · rw [exec_readPlan h, readPlan_of_none (by rw [hplan, hnone])]
    · rw [exec_readPlan h, readPlan_of_other (by rw [hplan, hp]) h0 hne]
    · rw [exec_readPlan h, readPlan_of_beyond (by rw [hplan, hp]) hnumber hpage]
    · rw [exec_readPlan h, readPlan_of_page (by rw [hplan, hp]) hnumber hpage]
  · rw [pageBytes_zero]
    simp only [dispositionBytes_eq, posBytes]
  · exact pageBytes_one p

end Sys2Proof.Machine
end


-- ==== Sys2Proof/Proofs/RequestsSettled.lean ====
section
/-! SUPPORT. How a request is taken, settled and answered, and the argument lengths (R176, R178, R181). -/

namespace Sys2Proof.Machine

section
variable {lengthOk : List Byte → Bool} {act : List Byte → State → Served} {q : Request} {s : State}

theorem settle_wrongLength (h : s.sup.state ≠ .starting) (hlength : lengthOk q.args = false) :
    settle lengthOk act q s = { state := s, status := .range } := by
  simp [settle, h, hlength]

theorem settle_act (h : s.sup.state ≠ .starting) (hlength : lengthOk q.args = true) :
    settle lengthOk act q s = act q.args s := by
  simp [settle, h, hlength]

end

/-- The service of the request of a row, by what it is settled to. -/
theorem exec_settled {c : Instr} {port : MgmtPort} {isCode : Byte → Bool} {lengthOk : List Byte → Bool} {q : Request} {s : State}
    (hrow : servedRow c = some (port, isCode, lengthOk)) (hq : nextRequest port s = some q) (hcode : isCode q.code = true)
    {status : Status} (h : settle lengthOk (actOf c) q (takeRequest port s) = { state := takeRequest port s, status := status }) :
    exec c s = .next (answered port q status [] (takeRequest port s)) := by
  rw [exec_eq_serve hrow]
  simp only [serve, hq, hcode, if_true, h]
  rfl

theorem writeLengthOk_iff (len : Nat) (args : List Byte) :
    writeLengthOk len args = true ↔ ∃ i d rest, args = i :: d :: rest ∧ (d = 0 ∨ args.length = len) := by
  match args with
  | [] => simp [writeLengthOk]
  | [_] => simp [writeLengthOk]
  | i :: d :: rest =>
    have hlength : writeLengthOk len (i :: d :: rest) = true ↔ d = 0 ∨ (i :: d :: rest).length = len := by
      by_cases hd : d = 0 <;> simp [writeLengthOk, hd]
    exact hlength.trans ⟨fun h => ⟨i, d, rest, rfl, h⟩, fun ⟨_, _, _, heq, h⟩ => by cases heq; exact h⟩

/-- A visit count that a route with defined 1 may have; with another defined byte the count is not judged here (R181). -/
theorem countFault_eq_false_iff (defined count : Byte) :
    (decide (defined = 1) && (decide (count.toNat = 0) || decide (16 < count.toNat))) = false ↔
      (defined = 1 → 1 ≤ count.toNat ∧ count.toNat ≤ 16) := by
  simp only [Bool.and_eq_false_imp, Bool.or_eq_false_iff, decide_eq_true_iff, decide_eq_false_iff_not]
  exact imp_congr_right fun _ => by omega

theorem routeLengthOk_iff (args : List Byte) :
    routeLengthOk args = true ↔ ∃ i d rest, args = i :: d :: rest ∧
      (d = 0 ∨ ∃ count tail, rest = count :: tail ∧ (d = 1 → 1 ≤ count.toNat ∧ count.toNat ≤ 16) ∧
        args.length = 8 + 3 * count.toNat) := by
  match args with
  | [] => simp [routeLengthOk]
  | [_] => simp [routeLengthOk]
  | [i, d] =>
    have hlength : routeLengthOk [i, d] = true ↔ d = 0 := by simp [routeLengthOk]
    refine hlength.trans ⟨fun h => ⟨i, d, [], rfl, .inl h⟩, fun ⟨_, _, _, heq, h⟩ => ?_⟩
    cases heq
    exact h.resolve_right fun ⟨_, _, hnil, _⟩ => List.cons_ne_nil _ _ hnil.symm
  | i :: d :: count :: tail =>
    have hlength : routeLengthOk (i :: d :: count :: tail) = true ↔ d = 0 ∨ ((d = 1 → 1 ≤ count.toNat ∧ count.toNat ≤ 16) ∧
        (i :: d :: count :: tail).length = 8 + 3 * count.toNat) := by
      by_cases hd : d = 0
      · simp [routeLengthOk, hd]
      · simp only [routeLengthOk, if_neg hd]
        rw [Bool.if_false_left, Bool.and_eq_true, Bool.decide_eq_true, Bool.not_eq_true', countFault_eq_false_iff,
          decide_eq_true_iff, or_iff_right hd]
    refine hlength.trans ⟨fun h => ⟨i, d, count :: tail, rfl, h.imp_right fun h => ⟨count, tail, rfl, h⟩⟩,
      fun ⟨_, _, _, heq, h⟩ => ?_⟩
    cases heq
    refine h.imp_right fun ⟨_, _, hrest, h⟩ => ?_
    cases hrest
    exact h

/-- Settles O30. -/
theorem requestsAreSettledBeforeTheCommand : Obligations.RequestsAreSettledBeforeTheCommand := by
  refine ⟨fun c port isCode lengthOk q s hrow hq hcode => ⟨fun hstate => ?_, fun hstate hc => ?_, fun hstate hlength => ?_⟩,
    fun tag code args rest s => ⟨fun h => ⟨?_, fun hroom => ?_⟩, fun h => ?_, fun h => ⟨?_, ?_⟩, fun h => ?_⟩,
    fun q status results s => ⟨rfl, rfl⟩, rfl, fun n args => by simp [exactly], writeLengthOk_iff, routeLengthOk_iff⟩
  · rw [exec_eq_serve hrow, serve_starting hq hcode hstate]
  · subst hc
    cases hrow
    exact exec_settled (c := .unknownCommand port) rfl hq hcode (settle_act (by simpa using hstate) rfl)
  · exact exec_settled hrow hq hcode (settle_wrongLength (by simpa using hstate) hlength)
  · simp [takeRequest, h]
  · simp [nextRequest, Nat.not_le.2 hroom, h, requestOf]
  · rcases h with h | h <;> simp [nextRequest, h]
  · simp [takeRequest, h]
  · simp [nextRequest, h, requestOf]
  · rcases h with h | ⟨held, h, hserved⟩
    · simp [nextRequest, h]
    · simp [nextRequest, h, hserved]

end Sys2Proof.Machine
end


-- ==== Sys2Proof/Proofs/TableWrites.lean ====
section
/-! SUPPORT. What an admitted table write stores, and the records that its arguments give (R3, R7, R10, R11, R12). -/

namespace Sys2Proof.Machine

/-! ### Sets of zones -/

theorem mem_indexesWhere {n : Nat} {p : Fin n → Bool} {i : Fin n} : i ∈ indexesWhere p ↔ p i = true := by
  simp [indexesWhere]

theorem zoneBit_getLsbD (z y : Zone) : (zoneBit z).getLsbD y.val = decide (y = z) := by
  have hz := z.isLt
  have hy := y.isLt
  simp only [zoneBit]
  revert z y
  decide

/-- A zone is in the union of a list's bits exactly when it was in before or is in the list. -/
theorem foldl_zoneBit_getLsbD (zones : List Zone) (acc : ZoneSet) (y : Zone) :
    (zones.foldl (fun acc z => acc ||| zoneBit z) acc).getLsbD y.val = (acc.getLsbD y.val || decide (y ∈ zones)) := by
  induction zones generalizing acc with
  | nil => simp
  | cons z zones ih =>
    rw [List.foldl_cons, ih, BitVec.getLsbD_or, zoneBit_getLsbD, Bool.or_assoc]
    simp only [List.mem_cons, Bool.decide_or]

theorem unionOfZones_getLsbD (p : Zone → Bool) (y : Zone) :
    ((indexesWhere p).foldl (fun acc z => acc ||| zoneBit z) 0).getLsbD y.val = p y := by
  rw [foldl_zoneBit_getLsbD]
  simp [mem_indexesWhere]

theorem guardedSets_getLsbD (zones : Vector ZoneRec 12) (c : Cover) (z : Zone) :
    ((guardedSets zones)[c]).getLsbD z.val = true ↔ (zones[z]).defined = true ∧ (zones[z]).cover = some c := by
  rw [show (guardedSets zones)[c] = _ from tabulate_getElem _ _ c.isLt, unionOfZones_getLsbD, Bool.and_eq_true,
    decide_eq_true_iff]

/-! ### The write itself -/

theorem afterWrite_eq (s : State) :
    afterWrite s = if s.sup.state = .idle ∨ s.sup.state = .standby then enterState .unconfigured { s with tables.checked := false }
      else { s with tables.checked := false } := by
  simp only [afterWrite, Bool.or_eq_true, decide_eq_true_iff]

section
variable {c : Instr} {port : MgmtPort} {isCode : Byte → Bool} {lengthOk : List Byte → Bool} {q : Request} {code : Byte}
  {args : List Byte} {s : State} {parsed : Option (State × List Byte)}
variable (hrow : servedRow c = some (port, isCode, lengthOk)) (h : Awaits port q code args s)
  (hcode : isCode code = true) (hlength : lengthOk args = true) (hadmitted : tablesRefusal s = none)
  (hact : actOf c args (takeRequest port s) = writeTable parsed (takeRequest port s))
include hrow h hcode hlength hadmitted hact

/-- An admitted write whose arguments give a record stores it and answers it. -/
theorem exec_write_stored {v : State} {bytes : List Byte} (hparsed : parsed = some (v, bytes)) :
    exec c s = .next (answered port q .done bytes (afterWrite v)) := by
  rw [exec_served hrow h hcode hlength, hact, hparsed, writeTable_stored _ (by simpa using hadmitted)]

theorem exec_write_outOfRange (hparsed : parsed = none) :
    exec c s = .next (answered port q .range [] (takeRequest port s)) := by
  rw [exec_served hrow h hcode hlength, hact, hparsed, writeTable_outOfRange (by simpa using hadmitted)]

end

/-! ### The acceptance at the write of a station -/

section
variable {st : Station} {s : State}

theorem acceptAtWrite_qualified {c : PendingChange} (hc : (s.front.stations[st]).pending = some c)
    (hdue : (s.tables.stations[st]).qualify * 1200 ≤ s.pos.clock - c.time) :
    acceptAtWrite st s = acceptLevel st c.toCovered c.p 0 s := by
  simp only [acceptAtWrite, hc]
  exact if_pos (decide_eq_true hdue)

theorem acceptAtWrite_waiting (h : (s.front.stations[st]).pending = none ∨
    ∃ c, (s.front.stations[st]).pending = some c ∧ s.pos.clock - c.time < (s.tables.stations[st]).qualify * 1200) :
    acceptAtWrite st s = s := by
  rcases h with hnone | ⟨c, hc, hdue⟩
  · simp only [acceptAtWrite, hnone]
  · simp only [acceptAtWrite, hc]
    exact if_neg (mt of_decide_eq_true (Nat.not_le.2 hdue))

end

/-! ### The records that the arguments give -/

section
variable {α : Type} {n : Nat} {empty : α} {parse : List Byte → Option α} {rest : List Byte}

theorem indexedRecord_defined {i : Byte} {k : Fin n} (hi : indexOf n i = some k) :
    indexedRecord n empty parse (i :: 1 :: rest) = (parse rest).map fun r => (k, r) := by
  simp only [indexedRecord, hi]
  cases parse rest <;> rfl

theorem indexedRecord_undefined {i : Byte} {k : Fin n} (hi : indexOf n i = some k) :
    indexedRecord n empty parse (i :: 0 :: rest) = some (k, empty) := by
  simp only [indexedRecord, hi]
  rfl

theorem indexedRecord_outOfRange {i d : Byte} (h : n ≤ i.toNat ∨ 2 ≤ d.toNat ∨ (d = 1 ∧ parse rest = none)) :
    indexedRecord n empty parse (i :: d :: rest) = none := by
  rcases h with h | h | ⟨rfl, h⟩
  · simp [indexedRecord, indexOf_of_le h]
  · have hd : yesNo d = none := by
      have h0 : d ≠ 0 := by rintro rfl; simp at h
      have h1 : d ≠ 1 := by rintro rfl; simp at h
      simp only [yesNo, if_neg h0, if_neg h1]
    cases hi : indexOf n i <;> simp [indexedRecord, hi, hd]
  · rcases hi : indexOf n i with _ | k
    · simp [indexedRecord, hi]
    · rw [indexedRecord_defined hi, h, Option.map_none]

end

theorem yesNo_of_two_le {b : Byte} (h : 2 ≤ b.toNat) : yesNo b = none := by
  have h0 : b ≠ 0 := by rintro rfl; simp at h
  have h1 : b ≠ 1 := by rintro rfl; simp at h
  simp only [yesNo, if_neg h0, if_neg h1]

theorem stationOf_byteOf (z : Zone) (q : Byte) :
    stationOf (byteOf z.val) q = some { defined := true, zone := z, qualify := if q = 0 then 1 else q.toNat } := by
  have hq : max 1 q.toNat = if q = 0 then 1 else q.toNat := by
    split
    next h => simp [h]
    next h => exact Nat.max_eq_right (Nat.one_le_iff_ne_zero.2 fun h0 => h (BitVec.eq_of_toNat_eq h0))
  simp only [stationOf, indexOf_byteOf z (by decide), Option.map_some, hq]

theorem stationOf_of_le {zone qualify : Byte} (h : 12 ≤ zone.toNat) : stationOf zone qualify = none := by
  simp only [stationOf, indexOf_of_le h, Option.map_none]

theorem zoneOf_outOfRange {purgeable cover : Byte} (h : 2 ≤ purgeable.toNat ∨ (4 ≤ cover.toNat ∧ cover ≠ 0xFF)) :
    zoneOf purgeable cover = none := by
  rcases h with h | ⟨h, hne⟩
  · simp [zoneOf, yesNo_of_two_le h]
  · have hcover : coverOf cover = none := by simp only [coverOf, if_neg hne, indexOf_of_le h, Option.map_none]
    cases hp : yesNo purgeable <;> simp [zoneOf, hp, hcover]

theorem binOf_outOfRange {kind zone : Byte} (h : 2 ≤ kind.toNat ∨ 12 ≤ zone.toNat) : binOf kind zone = none := by
  rcases h with h | h
  · have hkind : binKindOf kind = none := by
      have h0 : kind ≠ 0 := by rintro rfl; simp at h
      have h1 : kind ≠ 1 := by rintro rfl; simp at h
      simp only [binKindOf, if_neg h0, if_neg h1]
    simp [binOf, hkind]
  · cases hk : binKindOf kind <;> simp [binOf, hk, indexOf_of_le h]

/-- A visit whose anchor bits name no anchor makes the visits of the route out of range. -/
theorem visitsOf_of_badAnchor : ∀ (visits : List Byte) {k : Nat} {f : Byte}, visits[3 * k]? = some f →
    f.extractLsb' 2 2 = 3 → visitsOf visits = none
  | [], _, _, h, _ => by simp at h
  | [_], _, _, _, _ => rfl
  | [_, _], _, _, _, _ => rfl
  | g :: hi :: lo :: rest, 0, f, h, hf => by
    obtain rfl : g = f := by simpa using h
    have hvisit : visitOf g hi lo = none := by simp [visitOf, hf, Anchor.ofNumber]
    simp [visitsOf, hvisit]
  | g :: hi :: lo :: rest, k + 1, f, h, hf => by
    have ih := visitsOf_of_badAnchor rest (k := k) (f := f) (by simpa [Nat.mul_succ] using h) hf
    cases hvisit : visitOf g hi lo <;> simp [visitsOf, hvisit, ih]

theorem divertOf_outOfRange {present d w : Byte} (h : 2 ≤ present.toNat ∨ (present = 1 ∧ (16 ≤ d.toNat ∨ 32 ≤ w.toNat))) :
    divertOf present d w = none := by
  rcases h with h | ⟨rfl, h | h⟩
  · simp [divertOf, yesNo_of_two_le h]
  · simp [divertOf, yesNo, indexOf_of_le h]
  · cases hd : indexOf 16 d <;> simp [divertOf, yesNo, hd, indexOf_of_le h]

theorem routeOf_outOfRange {bin c present d w : Byte} {visits : List Byte}
    (h : 8 ≤ bin.toNat ∨ 16 ≤ c.toNat ∨ 2 ≤ present.toNat ∨ (present = 1 ∧ (16 ≤ d.toNat ∨ 32 ≤ w.toNat)) ∨
      ∃ k f, visits[3 * k]? = some f ∧ f.extractLsb' 2 2 = 3) : routeOf bin c present d w visits = none := by
  have hparts : indexOf 8 bin = none ∨ indexOf 16 c = none ∨ divertOf present d w = none ∨ visitsOf visits = none := by
    rcases h with h | h | h | h | ⟨k, f, hf, hanchor⟩
    · exact .inl (indexOf_of_le h)
    · exact .inr (.inl (indexOf_of_le h))
    · exact .inr (.inr (.inl (divertOf_outOfRange (.inl h))))
    · exact .inr (.inr (.inl (divertOf_outOfRange (.inr h))))
    · exact .inr (.inr (.inr (visitsOf_of_badAnchor visits hf hanchor)))
  simp only [routeOf, Option.bind_eq_bind, Option.bind_eq_none_iff]
  intro b hb c' hc' dv hdv vs hvs
  simp [hb, hc', hdv, hvs] at hparts

/-! ### The limits -/

@[simp] theorem wordOf_hiByte_loByte (w : Word) : wordOf (hiByte w) (loByte w) = w := by
  refine BitVec.eq_of_getLsbD_eq fun i hi => ?_
  rw [wordOf_getLsbD]
  split
  next h => simp [loByte, h]
  next h =>
    have h8 : i - 8 < 8 := by omega
    have hsum : 8 + (i - 8) = i := by omega
    simp [hiByte, h8, hsum]

theorem wordsOf_flatMap (ws : List Word) : wordsOf (ws.flatMap wordBytes) = some ws := by
  induction ws with
  | nil => rfl
  | cons w ws ih => simp [wordBytes, wordsOf, ih, wordOf_hiByte_loByte]

theorem clampTo_eq {lo hi v : Nat} (h : lo ≤ hi) : clampTo lo hi v = if v < lo then lo else if hi < v then hi else v := by
  simp only [clampTo]
  split
  · omega
  · split <;> omega

/-- Every argument of 28 bytes gives a limits record. -/
theorem limitsArgs_isSome {args : List Byte} (h : args.length = 28) : ∃ l, limitsArgs args = some l := by
  match args, h with
  | [_, _, _, _, _, _, _, _, _, _, _, _, _, _, _, _, _, _, _, _, _, _, _, _, _, _, _, _], _ => exact ⟨_, rfl⟩

/-- The limits in the order of R7, each brought within its range. -/
theorem limitsArgs_flatMap (eb lb sl tb sr ln lt se s0 s1 s2 sc sw al : Word) :
    limitsArgs ([eb, lb, sl, tb, sr, ln, lt, se, s0, s1, s2, sc, sw, al].flatMap wordBytes) = some
      { earlyBase := clampTo 0 4095 eb.toNat, lateBase := clampTo 0 4095 lb.toNat, slip := clampTo 0 200 sl.toNat,
        trailBase := clampTo 0 4095 tb.toNat, stretch := clampTo 0 200 sr.toNat, lengthBase := clampTo 0 4095 ln.toNat,
        lengthTol := clampTo 0 200 lt.toNat, settleTime := clampTo 50 1000 se.toNat, stall0 := clampTo 1 255 s0.toNat,
        stall1 := clampTo 1 255 s1.toNat, stall2 := clampTo 1 255 s2.toNat, setConfirm := clampTo 1 255 sc.toNat,
        speedWait := clampTo 10 255 sw.toNat, attemptLimit := clampTo 1 7 al.toNat } := by
  rw [limitsArgs, wordsOf_flatMap]
  rfl

/-! ### The five write rows -/

section
variable {port : MgmtPort} {q : Request} {args : List Byte} {s : State} (hadmitted : tablesRefusal s = none)
include hadmitted

theorem exec_writeZone_admitted (h : Awaits port q 0x11 args s) (hlength : writeLengthOk 4 args = true) :
    (∀ i r, zoneArgs args = some (i, r) → exec (.writeZone port) s =
      .next (answered port q .done (zoneBytes i r) (afterWrite (storeZone i r (takeRequest port s))))) ∧
    (zoneArgs args = none → exec (.writeZone port) s = .next (answered port q .range [] (takeRequest port s))) :=
  ⟨fun i r hargs => exec_write_stored (c := .writeZone port) rfl h rfl hlength hadmitted rfl
      (congrArg (Option.map fun x => (storeZone x.1 x.2 (takeRequest port s), zoneBytes x.1 x.2)) hargs),
    fun hargs => exec_write_outOfRange (c := .writeZone port) rfl h rfl hlength hadmitted rfl
      (congrArg (Option.map fun x => (storeZone x.1 x.2 (takeRequest port s), zoneBytes x.1 x.2)) hargs)⟩

theorem exec_writeBin_admitted (h : Awaits port q 0x12 args s) (hlength : writeLengthOk 4 args = true) :
    (∀ i r, binArgs args = some (i, r) → exec (.writeBin port) s =
      .next (answered port q .done (binBytes i r) (afterWrite (storeBin i r (takeRequest port s))))) ∧
    (binArgs args = none → exec (.writeBin port) s = .next (answered port q .range [] (takeRequest port s))) :=
  ⟨fun i r hargs => exec_write_stored (c := .writeBin port) rfl h rfl hlength hadmitted rfl
      (congrArg (Option.map fun x => (storeBin x.1 x.2 (takeRequest port s), binBytes x.1 x.2)) hargs),
    fun hargs => exec_write_outOfRange (c := .writeBin port) rfl h rfl hlength hadmitted rfl
      (congrArg (Option.map fun x => (storeBin x.1 x.2 (takeRequest port s), binBytes x.1 x.2)) hargs)⟩

theorem exec_writeRoute_admitted (h : Awaits port q 0x13 args s) (hlength : routeLengthOk args = true) :
    (∀ i r, routeArgs args = some (i, r) → exec (.writeRoute port) s =
      .next (answered port q .done (routeBytes i r) (afterWrite (storeRoute i r (takeRequest port s))))) ∧
    (routeArgs args = none → exec (.writeRoute port) s = .next (answered port q .range [] (takeRequest port s))) :=
  ⟨fun i r hargs => exec_write_stored (c := .writeRoute port) rfl h rfl hlength hadmitted rfl
      (congrArg (Option.map fun x => (storeRoute x.1 x.2 (takeRequest port s), routeBytes x.1 x.2)) hargs),
    fun hargs => exec_write_outOfRange (c := .writeRoute port) rfl h rfl hlength hadmitted rfl
      (congrArg (Option.map fun x => (storeRoute x.1 x.2 (takeRequest port s), routeBytes x.1 x.2)) hargs)⟩

theorem exec_writeLimits_admitted (h : Awaits port q 0x14 args s) (hlength : args.length = 28) {l : Limits}
    (hargs : limitsArgs args = some l) : exec (.writeLimits port) s =
      .next (answered port q .done (limitsBytes l) (afterWrite { takeRequest port s with tables.limits := l })) :=
  exec_write_stored (c := .writeLimits port) rfl h rfl (decide_eq_true hlength) hadmitted rfl
    (congrArg (Option.map fun l => ({ takeRequest port s with tables.limits := l }, limitsBytes l)) hargs)

theorem exec_writeStation_admitted (h : Awaits port q 0x10 args s) (hlength : writeLengthOk 4 args = true) :
    (∀ i r, stationArgs args = some (i, r) → exec (.writeStation port) s =
      .next (answered port q .done (stationBytes i r) (acceptAtWrite i (afterWrite (storeStation i r (takeRequest port s)))))) ∧
    (stationArgs args = none → exec (.writeStation port) s = .next (answered port q .range [] (takeRequest port s))) := by
  have hu : tablesRefusal (takeRequest port s) = none := by simpa using hadmitted
  have hact : actOf (.writeStation port) args = writeStation args := rfl
  refine ⟨fun i r hargs => ?_, fun hargs => ?_⟩
  · rw [exec_served (c := .writeStation port) rfl h rfl hlength, hact]
    simp only [writeStation, hargs, writeTable_stored _ hu, if_true]
  · rw [exec_served (c := .writeStation port) rfl h rfl hlength, hact]
    simp only [writeStation, hargs, writeTable_outOfRange hu]

end

/-- Settles O31. -/
theorem tableWritesStoreTheRecord : Obligations.TableWritesStoreTheRecord := by
  refine ⟨fun port q args s hadmitted => ?_, fun st s => ⟨fun c hc hdue => ?_, fun h => ?_⟩, guardedSets_getLsbD,
    fun st z b r q rest => ⟨?_, ?_, ?_, ?_, ?_⟩, fun i d x y => ⟨fun h => ?_, fun h => ?_, fun h => ?_⟩,
    fun i d n bin c present dv w visits h => ?_, ?_⟩
  · have hadm := (tablesRefusal_eq_none_iff s).2 hadmitted
    have hleave (v : State) (hv : v.sup = s.sup) : afterWrite v =
        if s.sup.state = .idle ∨ s.sup.state = .standby then enterState .unconfigured { v with tables.checked := false }
        else { v with tables.checked := false } := by
      rw [afterWrite_eq, hv]
    have hsup : (takeRequest port s).sup = s.sup := by simp
    have hstations : (takeRequest port s).tables.stations = s.tables.stations := by simp
    have hzones : (takeRequest port s).tables.zones = s.tables.zones := by simp
    have hbins : (takeRequest port s).tables.bins = s.tables.bins := by simp
    have hroutes : (takeRequest port s).tables.routes = s.tables.routes := by simp
    have hsense : (takeRequest port s).front.stations = s.front.stations := by simp
    refine ⟨fun h hlength => ⟨fun i r hargs => ?_, (exec_writeStation_admitted hadm h hlength).2⟩,
      fun h hlength => ⟨fun i r hargs => ?_, (exec_writeZone_admitted hadm h hlength).2⟩,
      fun h hlength => ⟨fun i r hargs => ?_, (exec_writeBin_admitted hadm h hlength).2⟩,
      fun h hlength => ⟨fun i r hargs => ?_, (exec_writeRoute_admitted hadm h hlength).2⟩, fun h hlength => ?_⟩
    · rw [(exec_writeStation_admitted hadm h hlength).1 i r hargs, hleave (storeStation i r (takeRequest port s)) hsup]
      simp only [storeStation, setSense, senseAfterWrite, hstations, hsense] <;> rfl
    · rw [(exec_writeZone_admitted hadm h hlength).1 i r hargs, hleave (storeZone i r (takeRequest port s)) hsup]
      simp only [storeZone, hzones]
    · rw [(exec_writeBin_admitted hadm h hlength).1 i r hargs, hleave (storeBin i r (takeRequest port s)) hsup]
      simp only [storeBin, hbins]
    · rw [(exec_writeRoute_admitted hadm h hlength).1 i r hargs, hleave (storeRoute i r (takeRequest port s)) hsup]
      simp only [storeRoute, hroutes]
    · obtain ⟨l, hl⟩ := limitsArgs_isSome hlength
      exact ⟨l, hl, by rw [exec_writeLimits_admitted hadm h hlength hl,
        hleave { takeRequest port s with tables.limits := l } hsup]⟩
  · rw [acceptAtWrite_qualified hc hdue]
    rfl
  · exact acceptAtWrite_waiting h
  · exact (indexedRecord_defined (indexOf_byteOf st (by decide))).trans (congrArg (Option.map _) (stationOf_byteOf z q))
  · exact indexedRecord_undefined (indexOf_byteOf st (by decide))
  · exact indexedRecord_undefined (indexOf_byteOf z (by decide))
  · exact indexedRecord_undefined (indexOf_byteOf b (by decide))
  · exact indexedRecord_undefined (indexOf_byteOf r (by decide))
  · exact indexedRecord_outOfRange (h.imp_right (Or.imp_right (And.imp_right stationOf_of_le)))
  · exact indexedRecord_outOfRange (h.imp_right (Or.imp_right (And.imp_right zoneOf_outOfRange)))
  · exact indexedRecord_outOfRange (h.imp_right (Or.imp_right (And.imp_right binOf_outOfRange)))
  · exact indexedRecord_outOfRange (h.imp_right (Or.imp_right (And.imp_right routeOf_outOfRange)))
  · intro eb lb sl tb sr ln lt se s0 s1 s2 sc sw al
    rw [limitsArgs_flatMap]
    simp only [clampTo_eq (show 0 ≤ 4095 by decide), clampTo_eq (show 0 ≤ 200 by decide), clampTo_eq (show 50 ≤ 1000 by decide),
      clampTo_eq (show 1 ≤ 255 by decide), clampTo_eq (show 10 ≤ 255 by decide), clampTo_eq (show 1 ≤ 7 by decide)]

end Sys2Proof.Machine
end


-- ==== Sys2Proof/Proofs/TablesValidated.lean ====
section
/-! SUPPORT. CHECK TABLES and validation: the first fault of each list of checks (R15, R16). -/

namespace Sys2Proof.Machine

/-! ### The first fault of a list -/

/-- The first fault of a table is the one of the lowest index that has one. -/
theorem findSome?_finRange_of_first {n : Nat} {α : Type} {f : Fin n → Option α} {i : Fin n} {y : α} (hi : f i = some y)
    (hbelow : ∀ j, j < i → f j = none) : (List.finRange n).findSome? f = some y := by
  obtain ⟨x, hx⟩ : ∃ x, (List.finRange n).findSome? f = some x :=
    Option.isSome_iff_exists.1 (List.findSome?_isSome_iff.2 ⟨i, List.mem_finRange i, by simp [hi]⟩)
  obtain ⟨before, a, after, hlist, ha, hbefore⟩ := List.findSome?_eq_some_iff.1 hx
  have hsorted : (before ++ a :: after).Pairwise (· < ·) := hlist ▸ List.pairwise_lt_finRange n
  have hmem : i ∈ before ++ a :: after := hlist ▸ List.mem_finRange i
  obtain hmem | rfl | hmem : i ∈ before ∨ i = a ∨ i ∈ after := by simpa using hmem
  · simp [hbefore i hmem] at hi
  · rw [hx, ← ha, hi]
  · have hlt : a < i := (List.pairwise_cons.1 (List.pairwise_append.1 hsorted).2.1).1 i hmem
    simp [hbelow a hlt] at ha

theorem findSome?_finRange_eq_none_iff {n : Nat} {α : Type} {f : Fin n → Option α} :
    (List.finRange n).findSome? f = none ↔ ∀ i, f i = none := by
  simp [List.findSome?_eq_none_iff]

/-! ### Stations, bins and the print route -/

section
variable (t : Tables)

theorem stationFault_eq (st : Station) :
    stationFault t st = if (t.stations[st]).defined = true ∧ (t.zones[(t.stations[st]).zone]).defined = false then
      some { table := some .station, index := some st.val, visit := none, fault := .stationZone } else none := by
  simp only [stationFault, Bool.and_eq_true, Bool.not_eq_true']

theorem binFault_eq (b : Bin) :
    binFault t b = if (t.bins[b]).defined = true ∧ (t.zones[(t.bins[b]).zone]).defined = false then
      some { table := some .bin, index := some b.val, visit := none, fault := .binZone } else none := by
  simp only [binFault, Bool.and_eq_true, Bool.not_eq_true']

theorem any_isPrintRoute_iff :
    t.routes.toList.any isPrintRoute = true ↔
      ∃ i : RouteIx, (t.routes[i]).defined = true ∧ (t.routes[i]).visits.head?.map (·.anchor) = some .pick := by
  simp only [List.any_eq_true, Vector.mem_toList_iff, Vector.mem_iff_getElem, isPrintRoute, Bool.and_eq_true, decide_eq_true_iff]
  constructor
  · rintro ⟨r, ⟨k, hk, rfl⟩, h⟩
    exact ⟨⟨k, hk⟩, h⟩
  · rintro ⟨i, h⟩
    exact ⟨_, ⟨i.val, i.isLt, rfl⟩, h⟩

theorem isNamedWaste_iff (i : RouteIx) :
    isNamedWaste t i = true ↔ ∃ j : RouteIx, (t.routes[j]).defined = true ∧ (t.routes[j]).divert.map (·.w) = some i := by
  simp only [isNamedWaste, List.any_eq_true, Vector.mem_toList_iff, Vector.mem_iff_getElem, Bool.and_eq_true, decide_eq_true_iff]
  constructor
  · rintro ⟨r, ⟨k, hk, rfl⟩, h⟩
    exact ⟨⟨k, hk⟩, h⟩
  · rintro ⟨j, h⟩
    exact ⟨_, ⟨j.val, j.isLt, rfl⟩, h⟩

end

/-! ### The faults of validation, in their order -/

section
variable {t : Tables}

theorem validate_of_station {f : FaultRec} (h : (List.finRange 16).findSome? (stationFault t) = some f) : validate t = some f := by
  simp only [validate, h]

section
variable (hstations : ∀ st, stationFault t st = none)
include hstations

theorem validate_of_bin {f : FaultRec} (h : (List.finRange 8).findSome? (binFault t) = some f) : validate t = some f := by
  simp only [validate, findSome?_finRange_eq_none_iff.2 hstations, h]

variable (hbins : ∀ b, binFault t b = none)
include hbins

theorem validate_of_route {f : FaultRec} (h : (List.finRange 32).findSome? (routeFault t) = some f) : validate t = some f := by
  simp only [validate, findSome?_finRange_eq_none_iff.2 hstations, findSome?_finRange_eq_none_iff.2 hbins, h]

theorem validate_of_sound (hroutes : ∀ i, routeFault t i = none) :
    validate t = if t.routes.toList.any isPrintRoute then none
      else some { table := none, index := none, visit := none, fault := .noRoute } := by
  simp only [validate, findSome?_finRange_eq_none_iff.2 hstations, findSome?_finRange_eq_none_iff.2 hbins,
    findSome?_finRange_eq_none_iff.2 hroutes]

end
end

/-! ### The visits of a route -/

/-- The visit before visit `k` of a list that follows `prev`. -/
def visitBefore (prev : Option Visit) (visits : List Visit) : Nat → Option Visit
  | 0 => prev
  | k + 1 => visits[k]?

theorem visitBefore_cons (prev : Option Visit) (v : Visit) (visits : List Visit) (k : Nat) :
    visitBefore prev (v :: visits) (k + 1) = visitBefore (some v) visits k := by
  cases k <;> simp [visitBefore]

section
variable {t : Tables} {named : Bool}

/-- The first visit with a fault, whatever faults come after it. -/
theorem visitsFault_of_first {visits : List Visit} : ∀ {first k : Nat} {prev : Option Visit} {v : Visit} {code : FaultCode},
    visits[k]? = some v → visitFault t named (visitBefore prev visits k) v = some code →
    (∀ j x, j < k → visits[j]? = some x → visitFault t named (visitBefore prev visits j) x = none) →
    visitsFault t named first prev visits = some (first + k, code) := by
  induction visits with
  | nil => simp
  | cons w visits ih =>
    intro first k prev v code hv hfault hbelow
    cases k with
    | zero =>
      obtain rfl : w = v := by simpa using hv
      have hw : visitFault t named prev w = some code := hfault
      simp [visitsFault, hw]
    | succ k =>
      have hw : visitFault t named prev w = none := hbelow 0 w (by omega) rfl
      simp only [visitsFault, hw]
      rw [ih (prev := some w) (k := k) (by simpa using hv) (by rwa [visitBefore_cons] at hfault) fun j x hj hx => ?_,
        Nat.add_right_comm, Nat.add_assoc]
      have := hbelow (j + 1) x (by omega) (by simpa using hx)
      rwa [visitBefore_cons] at this

theorem visitsFault_of_none {visits : List Visit} : ∀ {first : Nat} {prev : Option Visit},
    (∀ k v, visits[k]? = some v → visitFault t named (visitBefore prev visits k) v = none) →
    visitsFault t named first prev visits = none := by
  induction visits with
  | nil => intros; rfl
  | cons w visits ih =>
    intro first prev h
    have hw : visitFault t named prev w = none := h 0 w rfl
    simp only [visitsFault, hw]
    refine ih fun k v hv => ?_
    have := h (k + 1) v (by simpa using hv)
    rwa [visitBefore_cons] at this

end

/-- The three checks of visit `k`, as R16 states them for the visits of one route. -/
theorem visitFault_visitBefore {t : Tables} {named : Bool} {visits : List Visit} {k : Nat} {v : Visit} (hv : visits[k]? = some v) :
    visitFault t named (visitBefore none visits k) v =
      if (k = 0 ∧ v.anchor ≠ .pick ∧ ¬named = true) ∨ (0 < k ∧ v.anchor = .pick) then some .visitAnchor
      else if (t.stations[v.station]).defined = false then some .visitStation
      else if 0 < k ∧ visits[k - 1]?.map (·.station) = some v.station then some .visitRepeat
      else none := by
  cases k with
  | zero =>
    simp [visitFault, visitBefore, firstFault]
  | succ k =>
    obtain ⟨hlt, -⟩ := List.getElem?_eq_some_iff.1 hv
    have hprev : visits[k]? = some (visits[k]'(by omega)) := List.getElem?_eq_getElem (by omega)
    simp [visitFault, visitBefore, firstFault, hprev]

/-! ### The faults of a route -/

theorem divertFault_eq (t : Tables) (r : RouteRec) (dv : Divert) :
    divertFault t r dv =
      let w := t.routes[dv.w]
      if r.visits.length ≤ dv.d.val then some .divertIndex
      else if w.defined = false then some .wasteRoute
      else if (t.bins[w.bin]).defined = true ∧ (t.bins[w.bin]).kind ≠ .stack then some .wasteBin
      else if w.visits.head?.map (·.anchor) = some .pick then some .wasteAnchor
      else if w.visits ≠ [] ∧ w.visits.head?.map (·.station) = r.visits[dv.d.val]?.map (·.station) then some .visitRepeat
      else if r.visits.head?.map (·.anchor) ≠ some .pick then some .wasteDivert
      else none := by
  simp only [divertFault, firstFault, decide_eq_true_iff, Bool.not_eq_true', Bool.and_eq_true, ne_eq, decide_not,
    decide_eq_false_iff_not, Option.isSome_iff_ne_none, List.head?_eq_none_iff]

section
variable {t : Tables} {i : RouteIx}

theorem routeFault_undefined (h : (t.routes[i]).defined = false) : routeFault t i = none := by
  simp only [routeFault, h, Bool.not_false, if_true]

variable (hdefined : (t.routes[i]).defined = true)
include hdefined

theorem routeFault_of_visit {k : Nat} {code : FaultCode}
    (h : visitsFault t (isNamedWaste t i) 0 none (t.routes[i]).visits = some (k, code)) :
    routeFault t i = some { table := some .route, index := some i.val, visit := some k, fault := code } := by
  simp only [routeFault, hdefined, h, Bool.not_true, if_false, Bool.false_eq_true]

theorem routeFault_of_visits (h : visitsFault t (isNamedWaste t i) 0 none (t.routes[i]).visits = none) :
    routeFault t i =
      if (t.routes[i]).visits.length ≤ (t.routes[i]).completeAfter.val then
        some { table := some .route, index := some i.val, visit := none, fault := .completeIndex }
      else if (t.bins[(t.routes[i]).bin]).defined = false then
        some { table := some .route, index := some i.val, visit := none, fault := .routeBin }
      else (t.routes[i]).divert.bind fun dv => (divertFault t t.routes[i] dv).map fun code =>
        { table := some .route, index := some i.val, visit := if code = .visitRepeat then some dv.d.val else none, fault := code } := by
  simp only [routeFault, hdefined, h, Bool.not_true, if_false, Bool.false_eq_true, Bool.not_eq_true']
  cases (t.routes[i]).divert <;> rfl

end

/-! ### CHECK TABLES -/

theorem tablesRefusal_busy {s : State} (hstarting : s.sup.state ≠ .starting) (h : tablesRefusal s ≠ none) :
    tablesRefusal s = some .busy := by
  cases hstate : s.sup.state <;> simp_all [tablesRefusal]

theorem actOf_checkTables (port : MgmtPort) (args : List Byte) (s : State) : actOf (.checkTables port) args s = checkTables s := rfl

theorem checkTables_refused {s : State} {status : Status} (h : tablesRefusal s = some status) :
    checkTables s = { state := s, status := status } := by
  simp only [checkTables, h]

section
variable {s : State} (h : tablesRefusal s = none)
include h

theorem checkTables_fault {f : FaultRec} (hf : validate s.tables = some f) :
    checkTables s = { state := s, status := .tableFault, results := faultBytes f ++ [0] } := by
  simp only [checkTables, h, hf]

theorem checkTables_sound (hsound : validate s.tables = none) :
    checkTables s = { state := tablesPass s, status := .done, results := [1] } := by
  simp only [checkTables, h, hsound]

end

theorem exec_checkTables {port : MgmtPort} {q : Request} {s : State} (h : Awaits port q 0x16 [] s) :
    exec (.checkTables port) s = .next (answered port q (checkTables (takeRequest port s)).status
      (checkTables (takeRequest port s)).results (checkTables (takeRequest port s)).state) := by
  rw [exec_served (c := .checkTables port) rfl h (by decide) (by decide), actOf_checkTables]

theorem idleOrForeign_idle {s : State} (h : coveredStations s = []) : idleOrForeign s = enterState .idle s := by
  simp only [idleOrForeign, h]

theorem idleOrForeign_foreign {s : State} {st : Station} {rest : List Station} (h : coveredStations s = st :: rest) :
    idleOrForeign s = foreignSheet st s.pos.p s := by
  simp only [idleOrForeign, h]

/-- Settles O33. -/
theorem checkTablesValidates : Obligations.CheckTablesValidates := by
  refine ⟨fun port q s h => ⟨fun hne hnot => ?_, fun hadmitted => ⟨fun f hf => ?_, fun hsound =>
    ⟨fun hne => ?_, fun hstate hnone => ?_, fun st rest hstate hcovered => ?_⟩⟩⟩, fun t => ?_, fun t i => ?_, fun s => rfl⟩
  · have hbusy : tablesRefusal s = some .busy :=
      tablesRefusal_busy h.2.2.2 fun hnone => ((tablesRefusal_eq_none_iff s).1 hnone).elim hne hnot
    rw [exec_checkTables h, checkTables_refused (by simpa using hbusy)]
  · rw [exec_checkTables h, checkTables_fault (by simpa using (tablesRefusal_eq_none_iff s).2 hadmitted) (by simpa using hf)]
  · rw [exec_checkTables h, checkTables_sound (by simpa using (tablesRefusal_eq_none_iff s).2 hadmitted) (by simpa using hsound),
      tablesPass, if_neg (by simpa using hne)]
  · rw [exec_checkTables h, checkTables_sound (by simpa using (tablesRefusal_eq_none_iff s).2 hadmitted) (by simpa using hsound),
      tablesPass, if_pos (by simpa using hstate), idleOrForeign_idle]
    simpa [coveredStations] using hnone
  · rw [exec_checkTables h, checkTables_sound (by simpa using (tablesRefusal_eq_none_iff s).2 hadmitted) (by simpa using hsound),
      tablesPass, if_pos (by simpa using hstate), idleOrForeign_foreign (st := st) (rest := rest)]
    · simp
    · simpa [coveredStations] using hcovered
  · refine ⟨fun st hst hbelow => ?_, fun hstations => ⟨fun b hb hbelow => ?_, fun hbins => ⟨fun i f hf hbelow => ?_,
      fun hroutes hprint => ?_, fun hroutes hprint => ?_⟩⟩⟩
    · exact validate_of_station (findSome?_finRange_of_first (by rw [stationFault_eq, if_pos hst])
        fun j hj => by rw [stationFault_eq, if_neg (hbelow j hj)])
    all_goals have hsound : ∀ st, stationFault t st = none := fun st => by rw [stationFault_eq, if_neg (hstations st)]
    · exact validate_of_bin hsound (findSome?_finRange_of_first (by rw [binFault_eq, if_pos hb])
        fun j hj => by rw [binFault_eq, if_neg (hbelow j hj)])
    all_goals have hbinsSound : ∀ b, binFault t b = none := fun b => by rw [binFault_eq, if_neg (hbins b)]
    · exact validate_of_route hsound hbinsSound (findSome?_finRange_of_first hf hbelow)
    · rw [validate_of_sound hsound hbinsSound hroutes, if_pos ((any_isPrintRoute_iff t).2 hprint)]
    · rw [validate_of_sound hsound hbinsSound hroutes, if_neg (mt (any_isPrintRoute_iff t).1 hprint)]
  · intro r named fault fails
    have hfails : ∀ k v, r.visits[k]? = some v →
        visitFault t (isNamedWaste t i) (visitBefore none r.visits k) v = fails k v := by
      intro k v hv
      simp only [visitFault_visitBefore hv, isNamedWaste_iff]
      rfl
    refine ⟨routeFault_undefined, fun hdefined => ⟨fun k v code hv hcode hbelow => ?_, fun hnone => ?_⟩⟩
    · rw [routeFault_of_visit hdefined (visitsFault_of_first hv (by rw [hfails k v hv, hcode])
        fun j x hj hx => by rw [hfails j x hx, hbelow j x hj hx]), Nat.zero_add]
    · rw [routeFault_of_visits hdefined (visitsFault_of_none fun k v hv => by rw [hfails k v hv, hnone k v hv])]
      refine ite_congr rfl (fun _ => rfl) fun _ => ite_congr rfl (fun _ => rfl) fun _ => ?_
      change Option.bind r.divert _ = _
      rcases r.divert with _ | dv
      · rfl
      · simp only [Option.bind_some, divertFault_eq, apply_ite (Option.map _), Option.map_some, Option.map_none] <;> rfl

end Sys2Proof.Machine
end


-- ==== Sys2Proof/Proofs/RecordsReadBack.lean ====
section
/-! SUPPORT. A record in the layout of its reply is read back as that record (R10, R177, R181). -/

namespace Sys2Proof.Machine

/-! ### The fields -/

theorem yesNo_boolByte (b : Bool) : yesNo (boolByte b) = some b := by
  cases b <;> rfl

theorem binKindOf_code (k : BinKind) : binKindOf k.code = some k := by
  cases k <;> rfl

theorem coverOf_finByte (c : Option Cover) : coverOf (finByte c) = some c := by
  rcases c with _ | c
  · rfl
  · revert c
    decide

/-- The station, anchor and check bits of a visit byte are the ones it was made of. -/
theorem visitOf_byteOf (v : Visit) :
    visitOf (byteOf (v.station.val * 16 + v.anchor.number * 4 + (if v.check then 1 else 0))) (hiByte v.distance)
      (loByte v.distance) = some v := by
  obtain ⟨st, anchor, distance, check⟩ := v
  have hbits : ∀ (st : Station) (check : Bool), let b := byteOf (st.val * 16 + anchor.number * 4 + (if check then 1 else 0))
      Anchor.ofNumber (b.extractLsb' 2 2).toNat = some anchor ∧ (b.extractLsb' 4 4).toFin = st ∧ b.getLsbD 0 = check := by
    cases anchor <;> decide
  obtain ⟨hanchor, hstation, hcheck⟩ := hbits st check
  simp only [visitOf, hanchor, hstation, hcheck, wordOf_hiByte_loByte]
  rfl

theorem visitsOf_visitBytes (visits : List Visit) : visitsOf (visits.flatMap visitBytes) = some visits := by
  induction visits with
  | nil => rfl
  | cons v visits ih =>
    have hcons : (v :: visits).flatMap visitBytes =
        byteOf (v.station.val * 16 + v.anchor.number * 4 + (if v.check then 1 else 0)) :: hiByte v.distance ::
          loByte v.distance :: visits.flatMap visitBytes := rfl
    rw [hcons, visitsOf, visitOf_byteOf, ih]
    rfl

theorem divertOf_bytes (dv : Option Divert) :
    divertOf (boolByte dv.isSome) (finByte (dv.map (·.d))) (finByte (dv.map (·.w))) = some dv := by
  rcases dv with _ | ⟨d, w⟩
  · rfl
  · simp only [divertOf, Option.isSome_some, Option.map_some, finByte, yesNo_boolByte, indexOf_byteOf d (by decide),
      indexOf_byteOf w (by decide)]
    rfl

/-! ### The records -/

theorem stationArgs_stationBytes (i : Station) (r : StationRec) (h : r.defined = true) (hlow : 1 ≤ r.qualify)
    (hhigh : r.qualify ≤ 255) : stationArgs (stationBytes i r) = some (i, r) := by
  obtain ⟨defined, zone, qualify⟩ := r
  obtain rfl : defined = true := h
  have hqualify : max 1 (byteOf qualify).toNat = qualify := by
    rw [byteOf_toNat (Nat.lt_succ_of_le hhigh), Nat.max_eq_right hlow]
  refine (indexedRecord_defined (indexOf_byteOf i (by decide))).trans ?_
  simp only [stationOf, indexOf_byteOf zone (by decide), Option.map_some, hqualify]

theorem zoneArgs_zoneBytes (i : Zone) (r : ZoneRec) (h : r.defined = true) : zoneArgs (zoneBytes i r) = some (i, r) := by
  obtain ⟨defined, purgeable, cover⟩ := r
  obtain rfl : defined = true := h
  refine (indexedRecord_defined (indexOf_byteOf i (by decide))).trans ?_
  simp only [zoneOf, yesNo_boolByte, coverOf_finByte]
  rfl

theorem binArgs_binBytes (i : Bin) (r : BinRec) (h : r.defined = true) : binArgs (binBytes i r) = some (i, r) := by
  obtain ⟨defined, kind, zone⟩ := r
  obtain rfl : defined = true := h
  refine (indexedRecord_defined (indexOf_byteOf i (by decide))).trans ?_
  simp only [binOf, binKindOf_code, indexOf_byteOf zone (by decide)]
  rfl

theorem routeArgs_routeBytes (i : RouteIx) (r : RouteRec) (h : r.defined = true) :
    routeArgs (routeBytes i r) = some (i, r) := by
  obtain ⟨defined, visits, bin, completeAfter, divert⟩ := r
  obtain rfl : defined = true := h
  refine (indexedRecord_defined (indexOf_byteOf i (by decide))).trans ?_
  change Option.map (fun r => (i, r)) (routeOf (byteOf bin.val) (byteOf completeAfter.val) (boolByte divert.isSome)
    (finByte (divert.map (·.d))) (finByte (divert.map (·.w))) (visits.flatMap visitBytes)) = _
  simp only [routeOf, indexOf_byteOf bin (by decide), indexOf_byteOf completeAfter (by decide), divertOf_bytes,
    visitsOf_visitBytes]
  rfl

/-- A limits record that R7 leaves as it is has limits of 16 bits. -/
theorem limitsValues_lt {l : Limits} (h : limitsOf (limitsValues l) = some l) : ∀ v ∈ limitsValues l, v < 65536 := by
  have hclamped := Option.some.inj h
  rw [← hclamped]
  simp only [limitsValues, List.forall_mem_cons, clampTo, List.not_mem_nil, false_implies, implies_true, and_true]
  omega

theorem limitsArgs_limitsBytes {l : Limits} (h : limitsOf (limitsValues l) = some l) :
    limitsArgs (limitsBytes l) = some l := by
  have hbytes : limitsBytes l = ((limitsValues l).map (BitVec.ofNat 16)).flatMap wordBytes := by
    rw [List.flatMap_map]
    rfl
  have hvalues : ((limitsValues l).map (BitVec.ofNat 16)).map (·.toNat) = limitsValues l := by
    rw [List.map_map, List.map_congr_left (g := id) fun v hv => ?_, List.map_id]
    simpa using limitsValues_lt h v hv
  rw [limitsArgs, hbytes, wordsOf_flatMap, Option.bind_some, hvalues, h]

/-! ### The order fields -/

theorem orderBytes_eq (e : Entry) :
    orderBytes e = wordBytes e.order ++ wordBytes e.job ++ wordBytes e.sheetIndex ++ wordBytes e.front ++
      wordBytes e.back ++ [(if e.backPresent then 1 else 0) ||| (if e.setLast then 2 else 0), byteOf e.route.val] ++
      wordBytes e.length ++ [byteOf e.cls.val, match e.set with
        | some n => n
        | none => 0] := by
  rw [← flagsByte_two, orderBytes]
  cases e.set <;> rfl

theorem orderFlags (a b : Bool) : (flagsByte [(0, a), (1, b)]).getLsbD 0 = a ∧ (flagsByte [(0, a), (1, b)]).getLsbD 1 = b := by
  cases a <;> cases b <;> decide

theorem decodeOrder_orderBytes (e : Entry) :
    decodeOrder (orderBytes e) = some
      { order := e.order, job := e.job, sheetIndex := e.sheetIndex, front := e.front, back := e.back,
        flags := flagsByte [(0, e.backPresent), (1, e.setLast)], route := byteOf e.route.val, length := e.length,
        cls := byteOf e.cls.val, set := e.set.getD 0 } := by
  simp only [orderBytes, wordBytes, List.cons_append, List.nil_append, decodeOrder, wordOf_hiByte_loByte]

theorem setNumber_getD {set : Option Byte} (h : set ≠ some 0) : (if set.getD 0 = 0 then none else some (set.getD 0)) = set := by
  rcases set with _ | n
  · rfl
  · have hn : n ≠ 0 := fun h0 => h (congrArg some h0)
    simp only [Option.getD_some, if_neg hn]

/-! ### The layouts -/

theorem guardedBytes_eq (t : Tables) :
    guardedBytes t = (List.finRange 4).flatMap (fun c : Cover => wordBytes ((t.guarded[c]).setWidth 16)) := by
  have hlist : t.guarded.toList = (List.finRange 4).map fun c : Cover => t.guarded[c] := by
    apply List.ext_getElem <;> simp
  rw [guardedBytes, hlist, List.flatMap_map]
  rfl

/-- Settles O34. -/
theorem recordsReadBackAsWritten : Obligations.RecordsReadBackAsWritten := by
  refine ⟨stationArgs_stationBytes, zoneArgs_zoneBytes, binArgs_binBytes, routeArgs_routeBytes, fun l => limitsArgs_limitsBytes,
    fun e => orderBytes_eq e, fun e hset => ?_, fun st r z zr b br i rr t f o w => ?_⟩
  · obtain ⟨hback, hlast⟩ := orderFlags e.backPresent e.setLast
    exact ⟨_, decodeOrder_orderBytes e, rfl, rfl, rfl, rfl, rfl, hback, hlast, rfl, rfl, rfl, setNumber_getD hset⟩
  · have hindex (x : Option Nat) : optByte x = match x with
        | some n => byteOf n
        | none => (0xFF : Byte) := by
      cases x <;> rfl
    have hfin {n : Nat} (x : Option (Fin n)) : finByte x = optByte (x.map (·.val)) := by
      cases x <;> rfl
    refine ⟨rfl, rfl, rfl, ?_, rfl, guardedBytes_eq t, ?_, ?_, rfl, rfl⟩
    · simp only [routeBytes, hfin, Option.map_map, hindex] <;> rfl
    · simp only [faultBytes, hindex] <;> rfl
    · have hbytes : wordBytes 0xFFFF = [0xFF, 0xFF] := by decide
      simp only [loadResultBytes, Option.getD_none, hbytes] <;> rfl

end Sys2Proof.Machine
end


-- ==== Sys2Proof/Proofs/ResumeElsewhere.lean ====
section
/-! SUPPORT. RESUME outside AWAIT CLEAR (R122, R138). -/

namespace Sys2Proof.Machine

theorem actOf_resume (port : MgmtPort) (args : List Byte) (s : State) : actOf (.resume port) args s = resume (args.getD 0 0) s := rfl

theorem exec_resume {port : MgmtPort} {q : Request} {n : Byte} {s : State} (h : Awaits port q 0x22 [n] s) :
    exec (.resume port) s = .next (answered port q (resume n (takeRequest port s)).status (resume n (takeRequest port s)).results
      (resume n (takeRequest port s)).state) := by
  rw [exec_served (c := .resume port) rfl h (by decide) (by simp [exactly]), actOf_resume]
  rfl

/-- A RESUME that is answered and changes nothing. -/
theorem exec_resume_kept {port : MgmtPort} {q : Request} {n : Byte} {s : State} {status : Status} {results : List Byte}
    (h : Awaits port q 0x22 [n] s)
    (hresume : ∀ u : State, u.sup = s.sup → u.plan = s.plan → u.front = s.front → u.tables = s.tables →
      resume n u = { state := u, status := status, results := results }) :
    exec (.resume port) s = .next (answered port q status results (takeRequest port s)) := by
  rw [exec_resume h, hresume (takeRequest port s) (by simp) (by simp) (by simp) (by simp)]

/-! ### The states without a plan to resume -/

theorem resume_plain {n : Byte} {s : State} (h : s.sup.state = .unconfigured ∨ s.sup.state = .idle ∨ s.sup.state = .standby ∨
    s.sup.state = .running ∨ s.sup.state = .speedChange) :
    resume n s = { state := s, status := if n = 0 then .state else .stale } := by
  rcases h with h | h | h | h | h <;> simp only [resume, h]

theorem currentPlan_eq_some_iff {s : State} {p : PlanRec} : currentPlan s = some p ↔ s.plan.plan = some p ∧ p.isOpen = true := by
  rcases hplan : s.plan.plan with _ | r
  · simp [currentPlan, hplan]
  · simp only [currentPlan, hplan, Option.ite_none_right_eq_some, Option.some.injEq]
    exact ⟨fun ⟨hopen, hr⟩ => ⟨hr, hr ▸ hopen⟩, fun ⟨hr, hopen⟩ => ⟨hr ▸ hopen, hr⟩⟩

theorem namesCurrentPlan_iff (s : State) (n : Byte) :
    namesCurrentPlan s n = true ↔ ∃ p, s.plan.plan = some p ∧ p.isOpen = true ∧ p.number = n := by
  simp only [namesCurrentPlan]
  rcases h : currentPlan s with _ | p
  · simp only [Bool.false_eq_true, false_iff]
    rintro ⟨p, hp, hopen, -⟩
    simp [currentPlan_eq_some_iff.2 ⟨hp, hopen⟩] at h
  · obtain ⟨hp, hopen⟩ := currentPlan_eq_some_iff.1 h
    simp [hp, hopen]

theorem resume_stopped {n : Byte} {s : State} (h : s.sup.state = .stopping ∨ s.sup.state = .purging) :
    resume n s = { state := s, status := if namesCurrentPlan s n then .state else .stale } := by
  rcases h with h | h <;> simp only [resume, h]

/-! ### RESUME 0 in HELD -/

theorem resume_held {n : Byte} {s : State} (h : s.sup.state = .held) :
    resume n s = if n = 0 then releaseHeld s else { state := s, status := .stale } := by
  simp only [resume, h]

theorem releaseTarget_iff (s : State) :
    releaseTarget s = if (∀ e ∈ s.ret.entries, e.state ≠ .queued ∧ e.state ≠ .forwarded) ∧ trackingEmpty s = true then .idle
      else .running := by
  simp only [releaseTarget]
  refine ite_congr (propext ?_) (fun _ => rfl) fun _ => rfl
  rw [Bool.and_eq_true, Bool.and_eq_true, Option.isNone_iff_eq_none, lowestQueued_eq_none_iff, decide_eq_true_iff,
    forwardedCount_eq_zero_iff]
  exact ⟨fun ⟨⟨hqueued, hforwarded⟩, hempty⟩ => ⟨fun e he => ⟨hqueued e he, hforwarded e he⟩, hempty⟩,
    fun ⟨hall, hempty⟩ => ⟨⟨fun e he => (hall e he).1, fun e he => (hall e he).2⟩, hempty⟩⟩

theorem releaseHeld_eq {s : State} {target : PartState} (h : releaseTarget (mapEntries Entry.release s) = target) :
    releaseHeld s =
      { state := forwarderPass (enterState target (mapEntries Entry.release s)), status := .done, results := [target.code] } := by
  subst h
  rfl

/-- Settles O35. -/
theorem resumeOutsideAwaitClear : Obligations.ResumeOutsideAwaitClear := by
  refine ⟨fun port q n s h => ⟨fun hplain hn => ?_, fun hplain hn => ?_, fun hstate hcurrent => ?_, fun hstate hnone => ?_,
    fun hstate hn => ?_⟩, fun port q s h hstate => ?_⟩
  · exact exec_resume_kept h fun u hsup _ _ _ => by rw [resume_plain (by rwa [hsup]), if_pos hn]
  · exact exec_resume_kept h fun u hsup _ _ _ => by rw [resume_plain (by rwa [hsup]), if_neg hn]
  · exact exec_resume_kept h fun u hsup hplan _ _ => by
      rw [resume_stopped (by rwa [hsup]), if_pos ((namesCurrentPlan_iff u n).2 (by rwa [hplan]))]
  · exact exec_resume_kept h fun u hsup hplan _ _ => by
      rw [resume_stopped (by rwa [hsup]), if_neg fun hnames => hnone (by rwa [← hplan, ← namesCurrentPlan_iff])]
  · exact exec_resume_kept h fun u hsup _ _ _ => by rw [resume_held (by rwa [hsup]), if_neg hn]
  · intro entries v
    have hreleased : mapEntries Entry.release (takeRequest port s) = v := by
      have hentries : (takeRequest port s).ret.entries = s.ret.entries := by simp
      simp only [mapEntries, hentries] <;> rfl
    have htracking : trackingEmpty v = trackingEmpty s := by simp [v, trackingEmpty]
    have hresume : resume 0 (takeRequest port s) = releaseHeld (takeRequest port s) := by
      rw [resume_held (by simpa using hstate), if_pos rfl]
    refine ⟨fun hnone hempty => ?_, fun hmore => ?_⟩
    · have htarget : releaseTarget v = .idle := by rw [releaseTarget_iff, if_pos ⟨hnone, htracking.trans hempty⟩]
      rw [exec_resume h, hresume, releaseHeld_eq (hreleased.symm ▸ htarget), hreleased]
      rfl
    · have htarget : releaseTarget v = .running := by
        rw [releaseTarget_iff, if_neg]
        rintro ⟨hnone, hempty⟩
        rcases hmore with ⟨e, he, hstate⟩ | hmore
        · obtain ⟨hqueued, hforwarded⟩ := hnone e he
          exact hstate.elim hqueued hforwarded
        · rw [htracking, hmore] at hempty
          cases hempty
      rw [exec_resume h, hresume, releaseHeld_eq (hreleased.symm ▸ htarget), hreleased]
      rfl

end Sys2Proof.Machine
end


-- ==== Sys2Proof/Proofs/ReplayReturns.lean ====
section
/-! SUPPORT. Replay: the entries returned, the plan closed, the state chosen, the deferred causes taken, and the end of the
drive-out (R84, R96, R102, R130, R133, R135, R148). -/

namespace Sys2Proof.Machine

/-! ### PATH CONTROL frames queued in a row -/

theorem foldl_queueControl (frames : List PathControl) (s : State) :
    frames.foldl (fun s f => queueControl f s) s = { s with link.pathControl := s.link.pathControl ++ frames } := by
  induction frames generalizing s with
  | nil => simp
  | cons f frames ih => rw [List.foldl_cons, ih, queueControl, List.append_assoc, List.singleton_append]

theorem foldl_queueSetVoid (names : List SetName) (s : State) :
    names.foldl (fun s n => queueSetVoid n s) s = { s with link.pathControl := s.link.pathControl ++ names.map .setVoid } := by
  rw [← foldl_queueControl, List.foldl_map]
  rfl

theorem startVoidPhase_eq (s : State) :
    startVoidPhase s = { s with
      link.pathControl := s.link.pathControl ++ s.sets.voidOrder.map .setVoid
      sup.purge := some { phase := .voidWait, outstanding := s.sets.voidOrder } } := by
  simp only [startVoidPhase, voidedSets, foldl_queueSetVoid]

/-! ### The entries returned -/

/-- An entry as replay returns it (R102, R133). -/
def Entry.returned (limit : Nat) (e : Entry) : Entry :=
  { e with
    mark := none
    state := if e.state = .reprint then (if e.attempt + 1 ≤ limit then .queued else .held) else e.state }

theorem replayEntry_unmarked (limit : Nat) (e : Entry) : { replayEntry limit e with mark := none } = e.returned limit := by
  simp only [replayEntry, Entry.returned]
  split <;> rfl

theorem returnEntries_entries (s : State) :
    (returnEntries s).ret.entries = s.ret.entries.map (Entry.returned s.tables.limits.attemptLimit) := by
  simp only [returnEntries, closePlan, clearMarks, mapEntries, rebuildSets, List.map_map]
  exact List.map_congr_left fun e _ => replayEntry_unmarked _ e

theorem returnEntries_eq (s : State) :
    returnEntries s = { s with
      ret.entries := (returnEntries s).ret.entries
      sets.records := s.sets.records.map fun r => { r with
        rebuilt := r.rebuilt || (r.cancelled &&
          s.ret.entries.any fun e => decide (e.state = .reprint) && memberOf s.tables r e) }
      plan.plan := s.plan.plan.map fun p => { p with isOpen := false }
      trk.table := (returnEntries s).trk.table } := rfl

theorem returnEntries_table (s : State) (tag : Tag) :
    (returnEntries s).trk.table[tag] = (s.trk.table[tag]).map fun r => { r with disp := none } :=
  tabulate_getElem _ _ tag.isLt

/-! ### The state chosen -/

section
variable {s : State} {e : Entry}

theorem enterChosen_queued (he : lowestWaiting s = some e) (hqueued : e.state = .queued) :
    enterChosen s = enterState .running s := by
  simp [enterChosen, he, hqueued]

theorem enterChosen_held (he : lowestWaiting s = some e) (hheld : e.state = .held) :
    enterChosen s = enterState .held { makeNotice (.held e.order .attempts) s with
      sup := { s.sup with heldReason := some .attempts } } := by
  simp only [enterChosen, he, hheld, if_true, enterHeld_eq]

theorem enterChosen_none (h : lowestWaiting s = none) : enterChosen s = enterState .idle s := by
  simp only [enterChosen, h]

end

/-! ### The deferred causes -/

/-- One deferred cause at the entry into the state that RESUME leads to (R96). -/
theorem takeIfOwed_eq (c : Cause) (v : State) :
    (if stillOwed v c then takeCause c v else v) = match c.set.bind (findSet v) with
      | some r => if r.state = .opened ∨ r.state = .completeAwaiting then takeCause c v else v
      | none => v := by
  rcases hset : c.set with _ | n
  · simp [stillOwed, hset]
  · rcases hrecord : findSet v n with _ | r
    · simp [stillOwed, hset, hrecord]
    · simp [stillOwed, hset, hrecord]

/-! ### What follows the tracker's handling of an edge -/

theorem inDriveOut_iff (s : State) :
    inDriveOut s = true ↔ s.sup.state = .purging ∧ ∃ p, s.sup.purge = some p ∧ p.phase = .driveOut := by
  rcases hpurge : s.sup.purge with _ | p <;> simp [inDriveOut, hpurge]

theorem afterTracking_nil (s : State) :
    afterTracking (s, []) = if inDriveOut s && trackingEmpty s then endDriveOut s else forwarderPass s := rfl

theorem endDriveOut_replay {s : State} (h : s.sets.voidOrder = []) : endDriveOut s = replay s := by
  simp [endDriveOut, voidedSets, h]

theorem endDriveOut_void {s : State} (h : s.sets.voidOrder ≠ []) : endDriveOut s = startVoidPhase s := by
  simp [endDriveOut, voidedSets, h]

/-- Settles O37. -/
theorem replayReturnsEntriesAndClosesThePlan : Obligations.ReplayReturnsEntriesAndClosesThePlan := by
  refine ⟨fun s => ⟨rfl, returnEntries_entries s, returnEntries_eq s, returnEntries_table s,
      fun e he => ⟨enterChosen_queued he, enterChosen_held he⟩, fun hnone => enterChosen_none ((lowestWaiting_eq_none_iff s).2 hnone)⟩,
    fun s => ?_, fun s => ?_⟩
  · exact congrArg (fun step => s.jam.deferred.foldl step _) (funext fun v => funext fun c => takeIfOwed_eq c v)
  · intro driveOut
    have hdriveOut : (inDriveOut s && trackingEmpty s) = true ↔ driveOut := by
      rw [Bool.and_eq_true, inDriveOut_iff, and_assoc]
    refine ⟨fun r rest => rfl, fun hnot => ?_, fun hend hnone => ?_, fun hend hsome => ?_⟩
    · rw [afterTracking_nil, if_neg (mt hdriveOut.1 hnot)]
    · rw [afterTracking_nil, if_pos (hdriveOut.2 hend), endDriveOut_replay hnone]
    · rw [afterTracking_nil, if_pos (hdriveOut.2 hend), endDriveOut_void hsome, startVoidPhase_eq]

end Sys2Proof.Machine
end


-- ==== Sys2Proof/Proofs/ResumeChecked.lean ====
section
/-! SUPPORT. RESUME in AWAIT CLEAR: its checks, and the three ways on from an accepted one (R79, R96, R123, R125, R127, R130). -/

namespace Sys2Proof.Machine

/-! ### The bits of a byte of flags -/

theorem flagBit_getLsbD {n : Nat} (hn : n < 8) (b : Bool) (k : Nat) : (flagBit n b).getLsbD k = (b && decide (n = k)) := by
  cases b
  · simp [flagBit]
  · rcases Nat.lt_or_ge k 8 with hk | hk
    · have hbits : ∀ n k : Fin 8, (flagBit n.val true).getLsbD k.val = decide (n.val = k.val) := by decide
      simpa using hbits ⟨n, hn⟩ ⟨k, hk⟩
    · rw [BitVec.getLsbD_of_ge _ _ hk, decide_eq_false (by omega), Bool.and_false]

theorem foldl_flagBit_getLsbD {bits : List (Nat × Bool)} (h : ∀ x ∈ bits, x.1 < 8) (acc : Byte) (k : Nat) :
    (bits.foldl (fun acc x => acc ||| flagBit x.1 x.2) acc).getLsbD k =
      (acc.getLsbD k || bits.any fun x => x.2 && decide (x.1 = k)) := by
  induction bits generalizing acc with
  | nil => simp
  | cons x bits ih =>
    obtain ⟨hx, hbits⟩ := List.forall_mem_cons.1 h
    rw [List.foldl_cons, ih hbits, BitVec.getLsbD_or, flagBit_getLsbD hx, List.any_cons, Bool.or_assoc]

theorem coverBits_getLsbD (cs : List Cover) (k : Nat) : (coverBits cs).getLsbD k = cs.any fun c => decide (c.val = k) := by
  rw [coverBits, flagsByte, foldl_flagBit_getLsbD fun x hx => ?_]
  · simp [List.any_map, Function.comp_def]
  · obtain ⟨c, -, rfl⟩ := List.mem_map.1 hx
    omega

theorem coverBits_openCovers (s : State) :
    (∀ c : Cover, (coverBits (openCovers s)).getLsbD c.val = !(s.front.covers[c]).closed) ∧
    ∀ k : Nat, 4 ≤ k → (coverBits (openCovers s)).getLsbD k = false := by
  refine ⟨fun c => ?_, fun k hk => ?_⟩
  · rw [coverBits_getLsbD, Bool.eq_iff_iff]
    simp only [List.any_eq_true, openCovers, mem_indexesWhere, decide_eq_true_iff, ← Fin.ext_iff, exists_eq_right]
  · rw [coverBits_getLsbD, List.any_eq_false]
    intro c _
    simp only [decide_eq_true_iff]
    omega

/-! ### The checks -/

theorem openCovers_eq_nil_iff (s : State) : openCovers s = [] ↔ ∀ c : Cover, (s.front.covers[c]).closed = true := by
  simp [List.eq_nil_iff_forall_not_mem, openCovers, mem_indexesWhere]

theorem stationsNotClear_eq (s : State) (p : PlanRec) :
    stationsNotClear s p = (List.finRange 16).filter fun st : Station => decide ((s.tables.stations[st]).defined = true ∧
      (s.front.stations[st]).qual = true ∧ p.clear.getLsbD (s.tables.stations[st]).zone.val = true) := by
  simp only [stationsNotClear, coveredStations, indexesWhere, List.filter_filter]
  refine List.filter_congr fun st _ => ?_
  rw [Bool.eq_iff_iff]
  simp only [inZones, stationZone, Bool.and_eq_true, decide_eq_true_iff]
  exact ⟨fun ⟨hzone, hdefined, hqual⟩ => ⟨hdefined, hqual, hzone⟩, fun ⟨hdefined, hqual, hzone⟩ => ⟨hzone, hdefined, hqual⟩⟩

section
variable {s : State} {n : Byte}

theorem clearRefusal_stale (h : ∀ p, s.plan.plan = some p → p.isOpen = true → p.number ≠ n) :
    clearRefusal s n = some (.stale, []) := by
  rcases hplan : currentPlan s with _ | p
  · simp only [clearRefusal, hplan]
  · obtain ⟨hp, hopen⟩ := currentPlan_eq_some_iff.1 hplan
    simp only [clearRefusal, hplan, ne_eq, (h p hp hopen).symm, not_false_iff, if_true]

variable {p : PlanRec} (hp : s.plan.plan = some p) (hopen : p.isOpen = true) (hn : p.number = n)
include hp hopen hn

theorem clearRefusal_of_plan :
    clearRefusal s n = if openCovers s ≠ [] then some (.coverOpen, [coverBits (openCovers s)])
      else if stationsNotClear s p ≠ [] then
        some (.notClear, byteOf (stationsNotClear s p).length :: (stationsNotClear s p).map fun st => byteOf st.val)
      else none := by
  simp only [clearRefusal, currentPlan_eq_some_iff.2 ⟨hp, hopen⟩, hn, ne_eq, not_true_eq_false, if_false, Bool.not_eq_true',
    List.isEmpty_eq_false_iff]

end

theorem resume_awaitClear_refused {s : State} {n : Byte} {status : Status} {results : List Byte} (h : s.sup.state = .awaitClear)
    (hrefusal : clearRefusal s n = some (status, results)) :
    resume n s = { state := s, status := status, results := results } := by
  simp only [resume, h, hrefusal]

theorem resume_awaitClear_accepted {s : State} {n : Byte} (h : s.sup.state = .awaitClear) (hrefusal : clearRefusal s n = none) :
    resume n s = { state := acceptResume s, status := .done, results := [(resumeTarget s).code] } := by
  simp only [resume, h, hrefusal]

/-! ### The items of PURGE RUN -/

theorem recordOf_eq (s : State) (e : Entry) :
    recordOf s e = if e.state = .inFlight then e.tag.bind fun tag => s.trk.table[tag] else none := by
  rcases hstate : e.state <;> rcases htag : e.tag with _ | tag <;> simp [recordOf, hstate, htag]

theorem purgeItems_eq_bind (s : State) :
    purgeItems s = s.ret.entries.filterMap fun e => (recordOf s e).bind fun r => r.disp.map fun m => (e.order, m) := by
  refine congrArg (fun f => s.ret.entries.filterMap f) (funext fun e => ?_)
  cases recordOf s e <;> rfl

theorem purgeItems_eq (s : State) :
    purgeItems s = s.ret.entries.filterMap fun e =>
      if e.state = .inFlight then
        match e.tag with
        | some tag => (s.trk.table[tag]).bind fun r => r.disp.map fun m => (e.order, m)
        | none => none
      else none := by
  rw [purgeItems_eq_bind]
  refine congrArg (fun f => s.ret.entries.filterMap f) (funext fun e => ?_)
  rw [recordOf_eq]
  by_cases hstate : e.state = .inFlight
  · rw [if_pos hstate, if_pos hstate]
    cases e.tag <;> rfl
  · rw [if_neg hstate, if_neg hstate, Option.bind_none]

theorem numbersFrom_increase (h : OrderNo) {n : Nat} (hn : n ≤ 65536) :
    (numbersFrom h n).Pairwise fun a b => (a - h).toNat < (b - h).toNat := by
  have hoffset (i : Nat) (hi : i < n) : (h + BitVec.ofNat 16 i - h).toNat = i := by
    rw [BitVec.add_comm, BitVec.add_sub_cancel, BitVec.toNat_ofNat, Nat.mod_eq_of_lt (by omega)]
  rw [List.pairwise_iff_getElem]
  intro i j hi hj hij
  rw [numbersFrom_length] at hi hj
  rw [numbersFrom_getElem, numbersFrom_getElem, hoffset i hi, hoffset j hj]
  exact hij

/-- The distance from H grows along the queue. -/
theorem orders_increase {s : State} {h : OrderNo} (hret : RetentionInv s) (hh : s.ret.h = some h) :
    s.ret.entries.Pairwise fun a b => (a.order - h).toNat < (b.order - h).toNat := by
  obtain ⟨hlen, horders, -⟩ := (RetentionInv.iff s).1 hret
  rcases hentries : s.ret.entries with _ | ⟨first, rest⟩
  · exact .nil
  · obtain rfl : first.order = h := by simpa [Retention.h, hentries] using hh
    rcases hexpected : s.ret.expected with _ | x
    · simp [hexpected, hentries] at horders
    · simp only [hexpected, hentries, List.length_cons, numbersFrom, List.map_cons, List.cons.injEq] at horders
      obtain ⟨hfirst, hrest⟩ := horders
      have hlist : (first :: rest).map (·.order) = numbersFrom first.order (rest.length + 1) := by
        rw [List.map_cons, hrest, ← hfirst]
        rfl
      rw [hentries, List.length_cons] at hlen
      refine (List.pairwise_map (f := fun e : Entry => e.order)
        (R := fun a b => (a - first.order).toNat < (b - first.order).toNat)).1 ?_
      rw [hlist]
      exact numbersFrom_increase first.order (by omega)

theorem purgeItems_increase {s : State} {h : OrderNo} (hret : RetentionInv s) (hh : s.ret.h = some h) :
    (purgeItems s).Pairwise fun a b => (a.1 - h).toNat < (b.1 - h).toNat := by
  have horder {e : Entry} {x : OrderNo × Mark}
      (hx : ((recordOf s e).bind fun r => r.disp.map fun m => (e.order, m)) = some x) : x.1 = e.order := by
    obtain ⟨r, -, hr⟩ := Option.bind_eq_some_iff.1 hx
    obtain ⟨m, -, rfl⟩ := Option.map_eq_some_iff.1 hr
    rfl
  rw [purgeItems_eq_bind]
  refine List.Pairwise.filterMap _ (fun a a' hlt b hb b' hb' => ?_) (orders_increase hret hh)
  rw [horder hb, horder hb']
  exact hlt

/-! ### The three ways on -/

theorem tabulate_map {α β : Type} {n : Nat} (f : α → β) (v : Vector α n) : (tabulate fun i => f v[i]) = v.map f := by
  ext i hi
  simp

theorem rebase_eq {s : State} {p0 : Pos} (h : s.trk.notedP = some p0) :
    rebase s = { s with
      trk.lists := s.trk.lists.map fun l => l.map fun x =>
        { x with e := x.e + (s.pos.p - p0), early := x.early + (s.pos.p - p0), late := x.late + (s.pos.p - p0), spent := false }
      trk.slots := s.trk.slots.map fun y => y.map fun o =>
        { o with offLate := o.offLate + (s.pos.p - p0), check := false, spent := false } } := by
  rw [← tabulate_map, ← tabulate_map]
  simp only [rebase, h, Option.getD_some]

theorem settleDeferred_nil {s : State} (h : s.jam.deferred = []) : settleDeferred s = { s with jam.deferred := [] } := by
  simp only [settleDeferred, h, List.foldl_nil]

theorem purgeItems_run (s : State) : purgeItems (queueControl .run s) = purgeItems s := by
  rw [purgeItems_eq, purgeItems_eq]
  rfl

theorem beginDriveOut_eq (s : State) :
    beginDriveOut s = settleDeferred (enterState .purging (rebase { s with
      link.pathControl := s.link.pathControl ++ purgeFrames (purgeItems s)
      sup.purge := some { phase := .driveOut, outstanding := [] } })) := by
  rw [beginDriveOut, foldl_queueControl]

section
variable {s : State}

theorem resumePath_driveOut (h : trackingEmpty s = false) : resumePath s = .driveOut := by
  simp [resumePath, h]

theorem resumePath_voidPhase (h : trackingEmpty s = true) (hvoid : s.sets.voidOrder ≠ []) : resumePath s = .voidPhase := by
  simp [resumePath, h, voidedSets, hvoid]

theorem resumePath_replay (h : trackingEmpty s = true) (hvoid : s.sets.voidOrder = []) : resumePath s = .replay := by
  simp [resumePath, h, voidedSets, hvoid]

/-- The drive-out without its rebasing. -/
theorem acceptResume_driveOut (h : trackingEmpty s = false) :
    acceptResume s = settleDeferred (enterState .purging (rebase { s with
      link.pathControl := s.link.pathControl ++ .run :: purgeFrames (purgeItems s)
      sup.purge := some { phase := .driveOut, outstanding := [] } })) := by
  simp only [acceptResume, resumePath_driveOut h, beginDriveOut_eq, purgeItems_run]
  simp only [queueControl, List.append_assoc, List.singleton_append]

theorem acceptResume_voidPhase (h : trackingEmpty s = true) (hvoid : s.sets.voidOrder ≠ []) :
    acceptResume s = settleDeferred (enterState .purging { s with
      link.pathControl := s.link.pathControl ++ .run :: s.sets.voidOrder.map .setVoid
      sup.purge := some { phase := .voidWait, outstanding := s.sets.voidOrder } }) := by
  simp only [acceptResume, resumePath_voidPhase h hvoid, startVoidPhase_eq]
  simp only [queueControl, List.append_assoc, List.singleton_append]

theorem acceptResume_replay (h : trackingEmpty s = true) (hvoid : s.sets.voidOrder = []) :
    acceptResume s = replay { s with link.pathControl := s.link.pathControl ++ [.run] } := by
  simp only [acceptResume, resumePath_replay h hvoid]
  rfl

theorem resumeTarget_replay (h : trackingEmpty s = true) (hvoid : s.sets.voidOrder = []) :
    resumeTarget s = match (s.ret.entries.map (Entry.returned s.tables.limits.attemptLimit)).find? fun e =>
        e.state = .queued || e.state = .held with
      | some e => if e.state = .held then .held else .running
      | none => .idle := by
  simp only [resumeTarget, resumePath_replay h hvoid, chosenState, lowestWaiting, returnEntries_entries] <;> rfl

end

/-- What stands after the entry into PURGING where no cause is deferred, once the reply is made. -/
theorem answered_purging {port : MgmtPort} {q : Request} {results : List Byte} {v : State} (hstate : v.sup.state ≠ .purging)
    (hdeferred : v.jam.deferred = []) :
    let t := answered port q .done results (settleDeferred (enterState .purging v))
    t.sup.state = .purging ∧ t.sup.pathHalt = false ∧ t.sup.purge = v.sup.purge ∧ controlHeld t = controlHeld v ∧ t.trk.table = v.trk.table ∧
      t.trk.lists = v.trk.lists ∧ t.trk.slots = v.trk.slots := by
  have hsup := enterState_sup .purging v hstate
  have hnil : settleDeferred (enterState .purging v) = { enterState .purging v with jam.deferred := [] } :=
    settleDeferred_nil (by simpa using hdeferred)
  simp only [answered, hnil, controlHeld_finish, finish_frame, putReply_frame, hsup, enterState_frame]
  refine ⟨rfl, rfl, rfl, ?_, trivial, trivial, trivial⟩
  simp [controlHeld]

section
variable {port : MgmtPort} {q : Request} {n : Byte} {s : State} (h : Awaits port q 0x22 [n] s) (hstate : s.sup.state = .awaitClear)
include h hstate

theorem exec_resume_refused {status : Status} {results : List Byte}
    (hrefusal : clearRefusal (takeRequest port s) n = some (status, results)) :
    exec (.resume port) s = .next (answered port q status results (takeRequest port s)) := by
  rw [exec_resume h, resume_awaitClear_refused (by simpa using hstate) hrefusal]

theorem exec_resume_accepted (hrefusal : clearRefusal (takeRequest port s) n = none) :
    exec (.resume port) s = .next (answered port q .done [(resumeTarget (takeRequest port s)).code]
      (acceptResume (takeRequest port s))) := by
  rw [exec_resume h, resume_awaitClear_accepted (by simpa using hstate) hrefusal]

end

/-- Settles O36. -/
theorem resumeInAwaitClearIsChecked : Obligations.ResumeInAwaitClearIsChecked := by
  refine ⟨fun port q n s h hstate => ?_, fun s => ⟨purgeItems_eq s, fun h => purgeItems_increase⟩,
    fun items => ⟨fun hshort => if_pos hshort, fun hlong => if_neg (Nat.not_le.2 hlong)⟩⟩
  intro u covered
  have hplan : u.plan = s.plan := by simp [u]
  have hfront : u.front = s.front := by simp [u]
  have htables : u.tables = s.tables := by simp [u]
  have hret : u.ret = s.ret := by simp [u]
  have htrk : u.trk = s.trk := by simp [u]
  have hp : u.pos.p = s.pos.p := by simp [u]
  have hsets : u.sets = s.sets := by simp [u]
  have hjam : u.jam = s.jam := by simp [u]
  have hcontrol : u.link.pathControl = s.link.pathControl := by simp [u]
  have htracking : trackingEmpty u = trackingEmpty s := by rw [trackingEmpty, htrk, trackingEmpty]
  have hitems : purgeItems u = purgeItems s := by rw [purgeItems_eq, purgeItems_eq, hret, htrk]
  have hopenCovers : openCovers u = openCovers s := by rw [openCovers, hfront, openCovers]
  refine ⟨fun hstale => exec_resume_refused h hstate (clearRefusal_stale (by rwa [hplan])), fun p hcurrent hopen hn => ?_⟩
  have hnotClear : stationsNotClear u p = (List.finRange 16).filter fun st => decide (covered p st) := by
    rw [stationsNotClear_eq, htables, hfront]
  have hrefusal := clearRefusal_of_plan (s := u) (by rw [hplan, hcurrent]) hopen hn
  rw [hopenCovers, hnotClear] at hrefusal
  refine ⟨fun ⟨c, hc⟩ => ?_, fun hclosed ⟨st, hst⟩ => ?_, fun hclosed hclear => ?_⟩
  · have hsome : openCovers s ≠ [] := mt (openCovers_eq_nil_iff s).1 fun hall =>
      absurd (hc.symm.trans (hall c)) (by decide)
    obtain ⟨hbits, hhigh⟩ := coverBits_openCovers s
    exact ⟨coverBits (openCovers s), hbits, hhigh, exec_resume_refused h hstate (hrefusal.trans (if_pos hsome))⟩
  · have hnone : ¬openCovers s ≠ [] := Classical.not_not.2 ((openCovers_eq_nil_iff s).2 hclosed)
    have hsome : ((List.finRange 16).filter fun st => decide (covered p st)) ≠ [] :=
      List.ne_nil_of_mem (List.mem_filter.2 ⟨List.mem_finRange st, decide_eq_true hst⟩)
    exact exec_resume_refused h hstate (hrefusal.trans ((if_neg hnone).trans (if_pos hsome)))
  · have hnone : ¬openCovers s ≠ [] := Classical.not_not.2 ((openCovers_eq_nil_iff s).2 hclosed)
    have hempty : ¬((List.finRange 16).filter fun st => decide (covered p st)) ≠ [] := by
      simp [List.filter_eq_nil_iff, hclear]
    intro accepted purging returned replayed
    have hexec : accepted (resumeTarget u).code (acceptResume u) :=
      exec_resume_accepted h hstate (hrefusal.trans ((if_neg hnone).trans (if_neg hempty)))
    have haccepted {state : Byte} {t : State} (hcode : (resumeTarget u).code = state) (ht : acceptResume u = t) :
        accepted state t := hcode ▸ ht ▸ hexec
    have hreplay : trackingEmpty s = true → s.sets.voidOrder = [] → acceptResume u = replayed := fun hgone hvoid => by
      rw [acceptResume_replay (htracking.trans hgone) (by rwa [hsets]), hcontrol]
    have htarget : trackingEmpty s = true → s.sets.voidOrder = [] → resumeTarget u =
        match returned.find? fun e => e.state = .queued || e.state = .held with
        | some e => if e.state = .held then .held else .running
        | none => .idle := fun hgone hvoid => by
      rw [resumeTarget_replay (htracking.trans hgone) (by rwa [hsets]), hret, htables] <;> rfl
    have hdrive : trackingEmpty s = false → acceptResume u = settleDeferred (enterState .purging (rebase { u with
        link.pathControl := s.link.pathControl ++ .run :: purgeFrames (purgeItems s)
        sup.purge := some { phase := .driveOut, outstanding := [] } })) := fun htracked => by
      rw [acceptResume_driveOut (htracking.trans htracked), hcontrol, hitems]
    have hvoidPhase : trackingEmpty s = true → s.sets.voidOrder ≠ [] → acceptResume u =
        purging (s.sets.voidOrder.map .setVoid) { phase := .voidWait, outstanding := s.sets.voidOrder }
          s.trk.lists s.trk.slots := fun hgone hvoid => by
      rw [acceptResume_voidPhase (htracking.trans hgone) (by rwa [hsets]), hcontrol, congrArg SetMonitor.voidOrder hsets]
      refine congrArg (fun v => settleDeferred (enterState .purging v))
        (State.eq_of_blocks rfl rfl rfl rfl rfl rfl ?_ rfl rfl rfl rfl rfl rfl rfl rfl rfl rfl)
      rw [htrk]
    refine ⟨⟨_, _, hexec⟩, fun htracked p0 hp0 => haccepted ?_ ?_, fun hgone hvoid => haccepted ?_ (hvoidPhase hgone hvoid),
      fun hgone hvoid => ⟨fun e he => ⟨fun hqueued => haccepted ?_ (hreplay hgone hvoid),
        fun hheld => haccepted ?_ (hreplay hgone hvoid)⟩, fun hidle => haccepted ?_ (hreplay hgone hvoid)⟩,
      fun htracked hdeferred => ?_, fun hgone hvoid hdeferred => ?_⟩
    · rw [resumeTarget, resumePath_driveOut (htracking.trans htracked)]
      rfl
    · rw [hdrive htracked, rebase_eq (p0 := p0) (by rw [← hp0, ← htrk])]
      refine congrArg (fun v => settleDeferred (enterState .purging v))
        (State.eq_of_blocks rfl rfl rfl rfl rfl rfl ?_ rfl rfl rfl rfl rfl rfl rfl rfl rfl rfl)
      simp only [htrk, hp]
    · rw [resumeTarget, resumePath_voidPhase (htracking.trans hgone) (by rwa [hsets])]
      rfl
    · rw [htarget hgone hvoid, he]
      simp only [hqueued] <;> rfl
    · rw [htarget hgone hvoid, he]
      simp only [hheld] <;> rfl
    · rw [htarget hgone hvoid, List.find?_eq_none.2 fun e he => by simp [hidle e he]]
      rfl
    · obtain ⟨hst, hhalt, hpurge, hheld, htable, hlists, hslots⟩ := answered_purging (port := port) (q := q)
        (results := [(resumeTarget u).code]) (v := rebase { u with
          link.pathControl := s.link.pathControl ++ .run :: purgeFrames (purgeItems s)
          sup.purge := some { phase := .driveOut, outstanding := [] } })
        (by simp [u, hstate]) (by simpa [hjam] using hdeferred)
      refine ⟨_, hexec.trans (by rw [hdrive htracked]), hst, hhalt, hpurge.trans (by simp), hheld.trans ?_,
        htable.trans (by simp [htrk]), fun p0 hp0 => ?_⟩
      · simp [controlHeld, u]
      · rw [hlists, hslots, rebase_eq (p0 := p0) (by rw [← hp0, ← htrk])]
        intro travel st
        simp only [htrk, hp, Fin.getElem_fin, Vector.getElem_map]
        exact ⟨rfl, rfl⟩
    · obtain ⟨hst, hhalt, hpurge, hheld, -, -, -⟩ := answered_purging (port := port) (q := q)
        (results := [(resumeTarget u).code]) (v := { u with
          link.pathControl := s.link.pathControl ++ .run :: s.sets.voidOrder.map .setVoid
          sup.purge := some { phase := .voidWait, outstanding := s.sets.voidOrder }
          trk.lists := s.trk.lists
          trk.slots := s.trk.slots })
        (by simp [u, hstate]) (by simpa [hjam] using hdeferred)
      refine ⟨_, hexec.trans (by rw [hvoidPhase hgone hvoid]), hst, hhalt, hpurge, hheld.trans ?_⟩
      simp [controlHeld, u]

end Sys2Proof.Machine
end


-- ==== Sys2Proof/Proofs/StateChanges.lean ====
section
/-! SUPPORT. STANDBY and WAKE, and what a change of part state does (R22, R23, R28, R29, R79, R150, R151, R163, R164). -/

namespace Sys2Proof.Machine

/-! ### STANDBY and WAKE -/

theorem exec_standby {port : MgmtPort} {q : Request} {s : State} (h : Awaits port q 0x30 [] s) :
    exec (.standby port) s = .next (answered port q (goStandby (takeRequest port s)).status
      (goStandby (takeRequest port s)).results (goStandby (takeRequest port s)).state) := by
  rw [exec_served (c := .standby port) rfl h (by decide) (by decide)]
  rfl

theorem exec_wake {port : MgmtPort} {q : Request} {s : State} (h : Awaits port q 0x31 [] s) :
    exec (.wake port) s = .next (answered port q (goWake (takeRequest port s)).status
      (goWake (takeRequest port s)).results (goWake (takeRequest port s)).state) := by
  rw [exec_served (c := .wake port) rfl h (by decide) (by decide)]
  rfl

theorem isSome_lowestQueued_iff (s : State) : (lowestQueued s).isSome = true ↔ ∃ e ∈ s.ret.entries, e.state = .queued := by
  simp [lowestQueued, List.find?_isSome]

section
variable {s : State}

theorem goStandby_free (h : s.sup.state = .idle) (hnone : ∀ e ∈ s.ret.entries, e.state ≠ .queued) :
    goStandby s = { state := enterState .standby s, status := .done } := by
  simp only [goStandby, if_pos h]
  exact if_neg fun hsome => by
    obtain ⟨e, he, hqueued⟩ := (isSome_lowestQueued_iff s).1 hsome
    exact hnone e he hqueued

theorem goStandby_busy (h : s.sup.state = .idle) (hsome : ∃ e ∈ s.ret.entries, e.state = .queued) :
    goStandby s = { state := s, status := .busy } := by
  simp only [goStandby, if_pos h, (isSome_lowestQueued_iff s).2 hsome, if_true]

theorem goStandby_elsewhere (h : s.sup.state ≠ .idle) : goStandby s = { state := s, status := .state } := by
  simp only [goStandby, if_neg h]

theorem goWake_standby (h : s.sup.state = .standby) : goWake s = { state := enterState .idle s, status := .done } := by
  simp only [goWake, if_pos h]

theorem goWake_elsewhere (h : s.sup.state ≠ .standby) : goWake s = { state := s, status := .state } := by
  simp only [goWake, if_neg h]

end

/-! ### The parts of a change of state -/

/-- The state entered, before its STATE event and STATE notice. -/
def entering (st : PartState) (s : State) : State :=
  syncStall true { enterTimers st (enterSensing st s) with sup := (enterTimers st (enterSensing st s)).sup.moveTo st }

theorem enterState_entering {st : PartState} {s : State} (h : s.sup.state ≠ st) :
    enterState st s = makeNotice (.state st (entering st s).sup.heldReason)
      (offerEvent .state (entering st s).pos.p none none st.code (entering st s)) := by
  simp only [enterState, if_neg h, entering]

theorem entering_frame (st : PartState) (s : State) :
    (entering st s).link = s.link ∧ (entering st s).svc = s.svc ∧ (entering st s).cap = s.cap ∧
    (entering st s).pos.msCount = s.pos.msCount ∧ (entering st s).pos.p = s.pos.p := by
  simp [entering, enterTimers]

theorem entering_heldReason (st : PartState) (s : State) :
    (entering st s).sup.heldReason = if st = .held then s.sup.heldReason else none := by
  simp [entering, enterTimers, Supervisor.moveTo]

section
variable {st : PartState} {s : State} (h : s.sup.state ≠ st)
include h

theorem enterState_sensing : (enterState st s).front = (enterSensing st s).front := by
  simp [enterState_entering h, entering, enterTimers]

theorem enterState_stallTimer :
    (enterState st s).pos.stallTimer = if stallState st && s.pos.trunQual && !trackingEmpty s then .running s.pos.clock else .stopped := by
  simp [enterState_entering h, entering, enterTimers, syncStall, stallMeasured, Supervisor.moveTo, trackingEmpty]

theorem enterState_notedP : (enterState st s).trk.notedP = if st = .awaitClear then some s.pos.p else s.trk.notedP := by
  simp [enterState_entering h, entering, enterTimers]

theorem enterState_reached_eq : (enterState st s).reached = if st = .stopping then s.reached else .nothing := by
  simp [enterState_entering h, entering, enterTimers]

/-- With no capture running and room in the queue, the STATE notice is the only one made. -/
theorem enterState_notices (hcap : s.cap.state ≠ .running) (hroom : s.link.notices.length < 48) :
    (enterState st s).link.notices = s.link.notices ++ [.state st (if st = .held then s.sup.heldReason else none)] := by
  obtain ⟨hlink, -, hcap', -, -⟩ := entering_frame st s
  rw [enterState_entering h, offerEvent, if_neg (by rw [hcap']; exact fun hrunning => hcap hrunning.1),
    makeNotice_of_room (s := entering st s) _ (by rwa [hlink]), hlink, entering_heldReason]

end

theorem stallState_iff (st : PartState) :
    stallState st = true ↔ st = .running ∨ st = .speedChange ∨ st = .purging ∨ st = .held := by
  cases st <;> simp [stallState]

theorem haltAsserted_iff (st : PartState) : haltAsserted st = true ↔ st = .starting ∨ st = .stopping ∨ st = .awaitClear := by
  cases st <;> simp [haltAsserted]

theorem trackingEmpty_eq_false_iff (s : State) : trackingEmpty s = false ↔ ∃ tag : Tag, s.trk.table[tag] ≠ none := by
  rw [← Bool.not_eq_true, trackingEmpty_iff, Classical.not_forall]

/-! ### The sensing on both sides of STANDBY -/

theorem beginSampling_station (s : State) (i : Station) :
    (beginSampling s).front.stations[i] = { s.front.stations[i] with pending := none, sample := none } :=
  tabulate_getElem _ _ i.isLt

theorem endSampling_station (s : State) (i : Station) :
    (endSampling s).front.stations[i] = { s.front.stations[i] with
      sample := none
      pending := if (s.tables.stations[i]).defined = true ∧ (s.front.stations[i]).raw ≠ (s.front.stations[i]).qual
        then some { toCovered := (s.front.stations[i]).raw, p := s.pos.p, time := s.pos.clock } else none } := by
  refine (tabulate_getElem _ _ i.isLt).trans ?_
  by_cases h : (s.tables.stations[i]).defined = true ∧ (s.front.stations[i]).raw ≠ (s.front.stations[i]).qual
  · rw [if_pos h]
    exact if_pos (Bool.and_eq_true_iff.2 ⟨h.1, bne_iff_ne.2 h.2⟩)
  · rw [if_neg h]
    exact if_neg fun hboth => h ⟨(Bool.and_eq_true_iff.1 hboth).1, bne_iff_ne.1 (Bool.and_eq_true_iff.1 hboth).2⟩

theorem enterSensing_raw_qual (st : PartState) (s : State) (i : Station) :
    ((enterSensing st s).front.stations[i]).raw = (s.front.stations[i]).raw ∧
    ((enterSensing st s).front.stations[i]).qual = (s.front.stations[i]).qual := by
  simp only [enterSensing]
  split
  · rw [endSampling_station]
    exact ⟨rfl, rfl⟩
  · split
    · rw [beginSampling_station]
      exact ⟨rfl, rfl⟩
    · exact ⟨rfl, rfl⟩

/-- Settles O38. -/
theorem standbyAndWakeChangeTheState : Obligations.StandbyAndWakeChangeTheState := by
  refine ⟨fun port q s => ⟨fun h => ⟨fun hstate hnone => ?_, fun hstate hsome => ?_, fun hstate => ?_⟩,
    fun h => ⟨fun hstate => ?_, fun hstate => ?_⟩⟩, fun st s h => ?_, fun s => enterState_same _ s rfl⟩
  · rw [exec_standby h, goStandby_free (by simpa using hstate) (by simpa using hnone)]
  · rw [exec_standby h, goStandby_busy (by simpa using hstate) (by simpa using hsome)]
  · rw [exec_standby h, goStandby_elsewhere (by simpa using hstate)]
  · rw [exec_wake h, goWake_standby (by simpa using hstate)]
  · rw [exec_wake h, goWake_elsewhere (by simpa using hstate)]
  · intro t
    have hsup : t.sup = s.sup.moveTo st := enterState_sup st s h
    have hfront : t.front = (enterSensing st s).front := enterState_sensing h
    have hheld : t.sup.heldReason = if st = .held then s.sup.heldReason else none := by rw [hsup, Supervisor.moveTo]
    have hfields := enterState_frame st s
    refine ⟨by rw [hsup, Supervisor.moveTo], by rw [hsup, Supervisor.moveTo, haltAsserted_iff], fun hto => ?_, fun hfrom => ?_,
      fun hfrom hto => enterState_front hfrom hto, fun i => ?_, ?_⟩
    · have hsensing : enterSensing st s = beginSampling s := by
        simp only [enterSensing, if_neg (hto ▸ h), if_pos hto]
      rw [hfront, hsensing]
      exact ⟨rfl, rfl, beginSampling_station s⟩
    · have hsensing : enterSensing st s = endSampling s := by simp only [enterSensing, if_pos hfrom]
      rw [hfront, hsensing]
      exact ⟨rfl, endSampling_station s⟩
    · rw [hfront]
      exact enterSensing_raw_qual st s i
    · obtain ⟨hlink, hsvc, hcap, hms, hp⟩ := entering_frame st s
      refine ⟨by simp [t], by simp [t], by simp [t], by simp [t], by simp [t], by simp [t], by simp [t], by simp [t], by simp [t],
        by simp [t], by simp [t], by simp [t], by simp [t], ?_, hheld, by rw [hsup, Supervisor.moveTo], enterState_settleFrom st s h,
        enterState_notedP h, by simp [t], enterState_reached_eq h, ⟨entering st s, ?_, hlink, hsvc, hcap, hms⟩,
        fun hcapture hroom => ?_⟩
      · rw [enterState_stallTimer h]
        refine ite_congr (propext ?_) (fun _ => rfl) fun _ => rfl
        rw [Bool.and_eq_true, Bool.and_eq_true, stallState_iff, Bool.not_eq_true', trackingEmpty_eq_false_iff, and_assoc]
      · rw [hheld, ← entering_heldReason, ← hp]
        exact enterState_entering h
      · rw [hheld]
        exact enterState_notices h hcapture hroom

end Sys2Proof.Machine
end


-- ==== Sys2Proof/Proofs/CaptureCommands.lean ====
section
/-! SUPPORT. CLAIM, RELEASE, ARM and READ of the capture, and the recording of an event (R184, R188 to R192). -/

namespace Sys2Proof.Machine

/-! ### The service of the four commands -/

section
variable {port : MgmtPort} {q : Request} {s : State}

theorem exec_claimCapture {force : Byte} (h : Awaits port q 0x40 [force] s) :
    exec (.claimCapture port) s = .next (answered port q (claimCapture port force (takeRequest port s)).status
      (claimCapture port force (takeRequest port s)).results (claimCapture port force (takeRequest port s)).state) := by
  rw [exec_served (c := .claimCapture port) rfl h (by decide) (by simp [exactly])]
  rfl

theorem exec_releaseCapture (h : Awaits port q 0x41 [] s) :
    exec (.releaseCapture port) s = .next (answered port q (releaseCapture port (takeRequest port s)).status
      (releaseCapture port (takeRequest port s)).results (releaseCapture port (takeRequest port s)).state) := by
  rw [exec_served (c := .releaseCapture port) rfl h (by decide) (by decide)]
  rfl

theorem exec_armCapture {mode c1 c0 kind m1 m0 : Byte} (h : Awaits port q 0x42 [mode, c1, c0, kind, m1, m0] s) :
    exec (.armCapture port) s = .next (answered port q (armCapture port [mode, c1, c0, kind, m1, m0] (takeRequest port s)).status
      (armCapture port [mode, c1, c0, kind, m1, m0] (takeRequest port s)).results
      (armCapture port [mode, c1, c0, kind, m1, m0] (takeRequest port s)).state) := by
  rw [exec_served (c := .armCapture port) rfl h (by decide) (by simp [exactly])]
  rfl

theorem exec_readCapture {hi lo : Byte} (h : Awaits port q 0x43 [hi, lo] s) :
    exec (.readCapture port) s = .next (answered port q (readCapture port (wordOf hi lo) (takeRequest port s)).status
      (readCapture port (wordOf hi lo) (takeRequest port s)).results
      (readCapture port (wordOf hi lo) (takeRequest port s)).state) := by
  rw [exec_served (c := .readCapture port) rfl h (by decide) (by simp [exactly])]
  rfl

end

/-! ### CLAIM and RELEASE -/

section
variable {port : MgmtPort} {force : Byte} {s : State}

theorem claimCapture_outOfRange (h : 2 ≤ force.toNat ∨ (force = 1 ∧ port = .upper)) :
    claimCapture port force s = { state := s, status := .range } := by
  simp only [claimCapture]
  refine if_pos ?_
  rcases h with h | ⟨rfl, rfl⟩
  · simp [show 1 < force.toNat by omega]
  · simp

variable (h : force = 0 ∨ (force = 1 ∧ port = .service))
include h

/-- A CLAIM that the port may make, by the owner it finds. -/
theorem claimCapture_inRange :
    claimCapture port force s =
      if s.cap.owner = requester port then claimed s
      else if s.cap.owner = .free then claimed (setOwner (requester port) s)
      else if force = 1 then claimed (makeNotice .captureLost (setOwner (requester port) s))
      else { state := s, status := .owned } := by
  simp only [claimCapture]
  refine if_neg ?_
  rcases h with rfl | ⟨rfl, rfl⟩
  · simp
  · simp

end

theorem requester_eq (port : MgmtPort) : requester port = match port with
    | .upper => .controller
    | .service => .service := by
  cases port <;> rfl

theorem claimed_setOwner (o : Owner) (s : State) :
    claimed (setOwner o s) = { state := setOwner o s, status := .done, results := [o.code] } := rfl

theorem claimed_captureLost (o : Owner) (s : State) :
    claimed (makeNotice .captureLost (setOwner o s)) =
      { state := makeNotice .captureLost (setOwner o s), status := .done, results := [o.code] } := by
  simp [claimed, setOwner]

/-- Settles O39. -/
theorem captureIsClaimedAndReleased : Obligations.CaptureIsClaimedAndReleased := by
  intro port q s u me given
  have hcap : u.cap = s.cap := by simp [u]
  have hme : requester port = me := requester_eq port
  have hgiven (o : Owner) : setOwner o u = given o := by simp only [setOwner, hcap, given]
  have hmeFree : Owner.free ≠ me := by
    rw [← hme]
    cases port <;> decide
  have hmeController (hport : port = .service) : Owner.controller ≠ me := by
    rw [← hme, hport]
    decide
  have howner' {o : Owner} (h : s.cap.owner = o) : (takeRequest port s).cap.owner = o := (congrArg Capture.owner hcap).trans h
  have hother {o : Owner} (h : s.cap.owner ≠ o) : (takeRequest port s).cap.owner ≠ o := fun heq =>
    h ((congrArg Capture.owner hcap).symm.trans heq)
  refine ⟨fun force h => ⟨fun hrange => ?_, fun hforce howner => ?_, fun hforce howner => ?_, fun hforce hfree howner => ?_,
    fun hforce hport howner => ?_⟩, fun h => ⟨fun howner => ?_, fun howner => ?_⟩⟩
  · rw [exec_claimCapture h, claimCapture_outOfRange hrange]
  · rw [exec_claimCapture h, claimCapture_inRange hforce, hme, if_pos (howner' howner), claimed, howner' howner]
  · rw [exec_claimCapture h, claimCapture_inRange hforce, hme, if_neg (hother (by rw [howner]; exact hmeFree)),
      if_pos (howner' howner), claimed_setOwner, hgiven]
  · rw [exec_claimCapture h, claimCapture_inRange (.inl hforce), hme, if_neg (hother howner), if_neg (hother hfree),
      if_neg (by simp [hforce])]
  · obtain rfl : port = .service := hport
    rw [exec_claimCapture h, claimCapture_inRange (.inr ⟨hforce, rfl⟩), hme, if_neg (hother (by rw [howner]; exact hmeController rfl)),
      if_neg (hother (by rw [howner]; decide)), if_pos hforce, claimed_captureLost, hgiven]
    rfl
  · rw [exec_releaseCapture h, releaseCapture, if_pos ((howner' howner).trans hme.symm)]
    exact congrArg Host.Outcome.next (congrArg (answered port q .done []) (hgiven .free))
  · rw [exec_releaseCapture h, releaseCapture, if_neg (hother (by rwa [hme]))]

/-! ### ARM -/

theorem ofCode_byteOf (k : EventKind) : EventKind.ofCode (byteOf k.number) = some k := by
  cases k <;> rfl

/-- A code up to 9 names the kind of that number. -/
theorem ofCode_eq_some {b : Byte} {k : EventKind} (h : EventKind.ofCode b = some k) : k.number = b.toNat := by
  revert b k
  decide

theorem ofCode_of_gt {b : Byte} (h : 9 < b.toNat) : EventKind.ofCode b = none := by
  revert b
  decide

theorem armOf_eq_none {mode count : Nat} {kind : Byte} {mask : EventMask}
    (h : 2 ≤ mode ∨ mask = 0 ∨ (mode = 0 ∧ (count = 0 ∨ 512 < count)) ∨
      (mode = 1 ∧ (511 < count ∨ 9 < kind.toNat ∨ mask.getLsbD kind.toNat = false))) : armOf mode count kind mask = none := by
  simp only [armOf]
  split
  · rfl
  next hmask =>
    rcases h with h | h | ⟨rfl, h⟩ | ⟨rfl, h⟩
    · rw [if_neg (by omega), if_neg (by omega)]
    · exact absurd h hmask
    · rw [if_pos rfl, if_neg (by omega)]
    · rw [if_neg (by decide), if_pos rfl]
      rcases hkind : EventKind.ofCode kind with _ | k
      · rfl
      · have hnumber := ofCode_eq_some hkind
        refine if_neg fun hboth => ?_
        rcases h with h | h | h
        · omega
        · exact absurd hkind (by simp [ofCode_of_gt h])
        · rw [← hnumber] at h
          exact absurd hboth.2 (by simp [h])

section
variable {port : MgmtPort} {s : State} {mode c1 c0 kind m1 m0 : Byte}

theorem armCapture_notOwner {args : List Byte} (h : s.cap.owner ≠ requester port) :
    armCapture port args s = { state := s, status := .notOwner } := by
  simp only [armCapture, if_neg h]

theorem armCapture_range (h : s.cap.owner = requester port)
    (hnone : armOf mode.toNat (wordOf c1 c0).toNat kind (maskOf m1 m0) = none) :
    armCapture port [mode, c1, c0, kind, m1, m0] s = { state := s, status := .range } := by
  simp only [armCapture, if_pos h, hnone]

theorem armCapture_armed {m : CaptureMode} (h : s.cap.owner = requester port)
    (hsome : armOf mode.toNat (wordOf c1 c0).toNat kind (maskOf m1 m0) = some m) :
    armCapture port [mode, c1, c0, kind, m1, m0] s = { state := { s with cap := armed m (maskOf m1 m0) s.cap }, status := .done } := by
  simp only [armCapture, if_pos h, hsome]

end

/-! ### READ -/

section
variable {port : MgmtPort} {s : State} {start : Word}

theorem readCapture_notOwner (h : s.cap.owner ≠ requester port) :
    readCapture port start s = { state := s, status := .notOwner } := by
  simp only [readCapture, ne_eq, h, not_false_iff, if_true]

variable (howner : s.cap.owner = requester port)
include howner

theorem readCapture_busy (h : s.cap.state = .running) : readCapture port start s = { state := s, status := .busy } := by
  simp only [readCapture, ne_eq, howner, not_true_eq_false, h, if_true, if_false]

variable (hstopped : s.cap.state ≠ .running)
include hstopped

theorem readCapture_range (hbeyond : s.cap.buffer.length ≤ start.toNat) (h : s.cap.buffer ≠ [] ∨ start ≠ 0) :
    readCapture port start s = { state := s, status := .range } := by
  simp only [readCapture, ne_eq, howner, not_true_eq_false, if_neg hstopped, if_false]
  refine if_pos ?_
  simp only [hbeyond, decide_true, Bool.true_and, Bool.not_eq_true', Bool.and_eq_false_iff, List.isEmpty_eq_false_iff,
    decide_eq_false_iff_not]
  exact h

theorem readCapture_records (h : start.toNat < s.cap.buffer.length ∨ (s.cap.buffer = [] ∧ start = 0)) :
    readCapture port start s =
      { state := s, status := .done
        results := wordBytes (BitVec.ofNat 16 s.cap.buffer.length) ++ wordBytes start ++
          byteOf ((s.cap.buffer.drop start.toNat).take 4).length :: recordsBytes ((s.cap.buffer.drop start.toNat).take 4) } := by
  simp only [readCapture, ne_eq, howner, not_true_eq_false, if_neg hstopped, if_false]
  refine if_neg ?_
  rcases h with h | ⟨hempty, rfl⟩
  · simp [Nat.not_le.2 h]
  · simp [hempty]

end

theorem captureRecordBytes_eq (r : TraceRec) :
    captureRecordBytes r =
      [byteOf r.kind.number, r.p.extractLsb' 24 8, r.p.extractLsb' 16 8, r.p.extractLsb' 8 8, r.p.extractLsb' 0 8] ++
      wordBytes r.ms ++ [finByte r.station, if r.order.isSome then 1 else 0] ++ wordBytes (r.order.getD 0xFFFF) ++
      [r.detail] := by
  rw [captureRecordBytes, flagsByte_one]
  rfl

/-! ### The recording of an event -/

section
variable {k : EventKind} {p : Pos} {st : Option Station} {order : Option OrderNo} {detail : Byte} {s : State}

theorem offerEvent_unrecorded (h : s.cap.state ≠ .running ∨ s.cap.mask.getLsbD k.number = false) :
    offerEvent k p st order detail s = s := by
  refine if_neg fun hboth => ?_
  rcases h with h | h
  · exact h hboth.1
  · exact absurd hboth.2 (by simp [h])

/-- The record of an event, as the capture holds it (R189, R192). -/
def eventRecord (k : EventKind) (p : Pos) (st : Option Station) (order : Option OrderNo) (detail : Byte) (s : State) : TraceRec :=
  { kind := k, p := p, ms := s.pos.msCount, station := st, order := order, detail := detail }

variable (hrunning : s.cap.state = .running) (hmask : s.cap.mask.getLsbD k.number = true)
include hrunning hmask

theorem offerEvent_recorded :
    offerEvent k p st order detail s =
      if (addRecord (eventRecord k p st order detail s) s.cap).state = .stopped then
        makeCaptureDone { s with cap := addRecord (eventRecord k p st order detail s) s.cap }
      else { s with cap := addRecord (eventRecord k p st order detail s) s.cap } :=
  if_pos ⟨hrunning, hmask⟩

end

/-- The capture in TRIGGER mode after a record, in one equation. -/
theorem addRecord_trigger_eq {r : TraceRec} {c : Capture} {k : EventKind} {count : Nat} (h : c.mode = .trigger k count)
    {post : Option Nat} (hpost : (match c.post with
      | none => if r.kind = k then some count else none
      | some m => some (m - 1)) = post) :
    addRecord r c = { c with
      buffer := (if 512 ≤ c.buffer.length then c.buffer.drop 1 else c.buffer) ++ [r]
      post := post
      state := if post = some 0 then .stopped else c.state } := by
  subst hpost
  simp only [addRecord, h] <;> rfl

/-- Settles O40. -/
theorem captureIsArmedAndRead : Obligations.CaptureIsArmedAndRead := by
  refine ⟨fun port q s => ?_, fun rs => congrArg rs.flatMap (funext captureRecordBytes_eq), fun k p st order detail s =>
    ⟨offerEvent_unrecorded, fun hrunning hmask => ⟨fun n hn => ?_, fun kind count hk => ?_⟩⟩⟩
  · intro u me
    have hcap : u.cap = s.cap := by simp [u]
    have hme : requester port = me := requester_eq port
    have howner (h : s.cap.owner = me) : u.cap.owner = requester port := by rw [hcap, hme, h]
    have hother (h : s.cap.owner ≠ me) : u.cap.owner ≠ requester port := by rwa [hcap, hme]
    refine ⟨fun mode c1 c0 kind m1 m0 h => ?_, fun hi lo h => ?_⟩
    · intro count mask armedWith
      have hexec := exec_armCapture h
      have harmed {m : CaptureMode} (hown : s.cap.owner = me) (hm : armOf mode.toNat count kind mask = some m) :
          exec (.armCapture port) s = .next (answered port q .done [] (armedWith m)) := by
        rw [hexec, armCapture_armed (howner hown) hm]
        simp only [armedWith, armed, ← hcap] <;> rfl
      refine ⟨fun hown => by rw [hexec, armCapture_notOwner (hother hown)], fun hown =>
        ⟨fun hmode hlow hhigh hmask => harmed hown ?_, fun k hmode hcount hkind hbit => harmed hown ?_, fun hrange => ?_⟩⟩
      · simp only [armOf, if_neg hmask, hmode]
        exact (if_pos rfl).trans (if_pos ⟨hlow, hhigh⟩)
      · have hmask : mask ≠ 0 := by
          rintro hzero
          simp [hzero] at hbit
        simp only [armOf, if_neg hmask, hmode, hkind, ofCode_byteOf]
        exact (if_neg (by decide)).trans ((if_pos rfl).trans (if_pos ⟨hcount, hbit⟩))
      · rw [hexec, armCapture_range (howner hown) (armOf_eq_none ?_)]
        refine hrange.imp_right (Or.imp_right (Or.imp ?_ ?_))
        · exact And.imp_left fun hmode => congrArg BitVec.toNat hmode
        · exact And.imp_left fun hmode => congrArg BitVec.toNat hmode
    · intro start
      have hexec := exec_readCapture h
      refine ⟨fun hown => by rw [hexec, readCapture_notOwner (hother hown)],
        fun hown hstate => by rw [hexec, readCapture_busy (howner hown) (by rwa [hcap])],
        fun hown hstate => ⟨fun hbeyond hsome => ?_, fun hwithin => ?_⟩⟩
      · rw [hexec, readCapture_range (howner hown) (by rwa [hcap]) (by rwa [hcap]) (by rwa [hcap])]
      · rw [hexec, readCapture_records (howner hown) (by rwa [hcap]) (by rwa [hcap])]
        simp only [hcap] <;> rfl
  · have hadd := addRecord_count (r := eventRecord k p st order detail s) hn
    refine ⟨fun hmore => ?_, fun hlast => ?_⟩
    · rw [offerEvent_recorded hrunning hmask, hadd, if_neg (Nat.not_le.2 hmore)]
      exact if_neg (by simp [hrunning])
    · rw [offerEvent_recorded hrunning hmask, hadd, if_pos hlast]
      exact if_pos rfl
  · intro kept post c
    have hadd : addRecord (eventRecord k p st order detail s) s.cap =
        { c with state := if post = some 0 then .stopped else s.cap.state } := addRecord_trigger_eq hk rfl
    refine ⟨fun hmore => ?_, fun hlast => ?_⟩
    · rw [offerEvent_recorded hrunning hmask, hadd, if_neg hmore]
      exact if_neg (by simp [hrunning])
    · rw [offerEvent_recorded hrunning hmask, hadd, if_pos hlast]
      exact if_pos rfl

end Sys2Proof.Machine
end


-- ==== Sys2Proof/Proofs/LinkReset.lean ====
section
/-! SUPPORT. The link reset: what it discards and keeps, and the four states it leads to (R46, R56, R80, R86, R95, R114, R156,
R157, R193). -/

namespace Sys2Proof.Machine

/-! ### With no capture running -/

section
variable {s : State} (hcap : s.cap.state ≠ .running)
include hcap

theorem enterState_cap (st : PartState) : (enterState st s).cap = s.cap := by
  by_cases h : s.sup.state = st
  · rw [enterState_same st s h]
  · rw [enterState_entering h, offerEvent_unrecorded (.inl (by rwa [(entering_frame st s).2.2.1]))]
    simp [(entering_frame st s).2.2.1]

theorem announceCause_unrecorded (t : Treatment) (index : Nat) (c : Cause) :
    announceCause t index c s = useFree 1 (makeNotice (.jam t index c (freeWord s)) s) :=
  offerEvent_unrecorded (.inl (by simpa using hcap))

theorem formPlan_unrecorded (p : PlanRec) :
    formPlan p s = useFree 1 (makeNotice
      (.plan (planSummary { p with number := nextPlanNumber s.plan.counter, isOpen := true } (freeWord s)))
      { s with plan :=
        { plan := some { p with number := nextPlanNumber s.plan.counter, isOpen := true }
          counter := nextPlanNumber s.plan.counter } }) :=
  offerEvent_unrecorded (.inl (by simpa using hcap))

/-- The notices of a change of state, or of none where the part holds that state already. -/
theorem enterState_notices_of_stopped (st : PartState) (hroom : s.link.notices.length < 48)
    (hreason : s.sup.heldReason = none) :
    (enterState st s).link.notices = s.link.notices ++ (if s.sup.state = st then [] else [.state st none]) ∧
    (enterState st s).link.lossCount = s.link.lossCount := by
  by_cases h : s.sup.state = st
  · rw [enterState_same st s h, if_pos h, List.append_nil]
    exact ⟨rfl, rfl⟩
  · rw [enterState_notices h hcap hroom, hreason, if_neg h, ite_self]
    refine ⟨rfl, ?_⟩
    rw [enterState_entering h, offerEvent_unrecorded (.inl (by rwa [(entering_frame st s).2.2.1])),
      makeNotice_of_room _ (by rwa [(entering_frame st s).1])]
    simp [(entering_frame st s).1]

end

/-! ### A change of state that leaves neither a held reason nor a purge -/

theorem enterState_none {st : PartState} {s : State} (hreason : s.sup.heldReason = none) (hpurge : s.sup.purge = none) :
    (enterState st s).sup.heldReason = none ∧ (enterState st s).sup.purge = none := by
  by_cases h : s.sup.state = st
  · rw [enterState_same st s h]
    exact ⟨hreason, hpurge⟩
  · simp [enterState_sup st s h, Supervisor.moveTo, hreason, hpurge]

theorem enterState_nothing {st : PartState} {s : State} (h : s.reached = .nothing) : (enterState st s).reached = .nothing := by
  by_cases hst : s.sup.state = st
  · rwa [enterState_same st s hst]
  · rw [enterState_reached_eq hst, h, ite_self]

theorem enterState_raw_qual (st : PartState) (s : State) (i : Station) :
    ((enterState st s).front.stations[i]).raw = (s.front.stations[i]).raw ∧
    ((enterState st s).front.stations[i]).qual = (s.front.stations[i]).qual := by
  by_cases h : s.sup.state = st
  · rw [enterState_same st s h]
    exact ⟨rfl, rfl⟩
  · rw [enterState_sensing h]
    exact enterSensing_raw_qual st s i

theorem enterState_emit {st : PartState} {s : State} (h : s.sup.state = .standby) (hst : st ≠ .standby) :
    (enterState st s).front.emit = true := by
  rw [enterState_sensing (by rw [h]; exact hst.symm), enterSensing, if_pos h]
  rfl

/-! ### The job discarded -/

/-- The state of a link reset before the state it leads to is chosen. -/
def jobDiscarded (s : State) : State := syncStall false (makeCredit (requestHalt (discardJob s)))

theorem linkReset_eq (s : State) : linkReset s = afterLinkReset (!trackingEmpty s) (jobDiscarded s) := rfl

theorem jobDiscarded_blocks (s : State) :
    (jobDiscarded s).ret = .empty ∧ (jobDiscarded s).trk = .empty ∧ (jobDiscarded s).sets = .empty ∧ (jobDiscarded s).jam = .empty ∧
    (jobDiscarded s).plan = { plan := none, counter := s.plan.counter } ∧
    (jobDiscarded s).sup = { s.sup with resetCause := .link, heldReason := none, speedWait := none, purge := none } ∧
    (jobDiscarded s).reached = .nothing ∧ (jobDiscarded s).cap = captureAfterLinkReset s.cap ∧ (jobDiscarded s).free = s.free ∧
    (jobDiscarded s).front = s.front ∧ (jobDiscarded s).tables = s.tables :=
  ⟨rfl, rfl, rfl, rfl, rfl, rfl, rfl, rfl, rfl, rfl, rfl⟩

theorem jobDiscarded_link (s : State) :
    (jobDiscarded s).link = { s.link with
      pathControl := haltFrames s.link.pathControl
      forwarded := []
      lowerTx := orphanFrame s.link.lowerTx
      credit := some { limit := 31, oldest := 0, isOpen := true } } := rfl

theorem jobDiscarded_fwd (s : State) :
    (jobDiscarded s).fwd = { s.fwd with request := none, limit := s.fwd.f, windowHold := true } := rfl

theorem halt_mem_haltFrames (frames : List PathControl) : .halt ∈ haltFrames frames := by
  simp only [haltFrames]
  split
  next h => simpa using h
  next => simp

/-! ### The state it leads to -/

section
variable {tracked : Bool} {s : State}

theorem afterLinkReset_unchecked (h : s.tables.checked = false) : afterLinkReset tracked s = enterState .unconfigured s := by
  simp [afterLinkReset, h]

theorem afterLinkReset_tracked (h : s.tables.checked = true) : afterLinkReset true s = pathLostStop s := by
  simp [afterLinkReset, h]

theorem afterLinkReset_idle (h : s.tables.checked = true) (hnone : coveredStations s = []) :
    afterLinkReset false s = enterState .idle s := by
  simp [afterLinkReset, h, idleOrForeign_idle hnone]

theorem afterLinkReset_foreign {st : Station} {rest : List Station} (h : s.tables.checked = true)
    (hcovered : coveredStations s = st :: rest) : afterLinkReset false s = foreignSheet st s.pos.p s := by
  simp [afterLinkReset, h, idleOrForeign_foreign hcovered]

/-- The four ways on from a link reset. -/
theorem afterLinkReset_cases {P : State → Prop} (s : State) (tracked : Bool) (hunconfigured : P (enterState .unconfigured s))
    (hstop : P (pathLostStop s)) (hidle : P (enterState .idle s)) (hforeign : ∀ st, P (foreignSheet st s.pos.p s)) :
    P (afterLinkReset tracked s) := by
  simp only [afterLinkReset, idleOrForeign]
  split
  · exact hunconfigured
  · split
    · exact hstop
    · split
      · exact hidle
      · exact hforeign _

theorem afterLinkReset_sup_none (hreason : s.sup.heldReason = none) (hpurge : s.sup.purge = none) :
    (afterLinkReset tracked s).sup.heldReason = none ∧ (afterLinkReset tracked s).sup.purge = none := by
  refine afterLinkReset_cases (P := fun t => t.sup.heldReason = none ∧ t.sup.purge = none) s tracked
    (enterState_none hreason hpurge) ?_ (enterState_none hreason hpurge) fun st => ?_
  · exact enterState_none (by simpa [startCauses] using hreason) (by simpa [startCauses] using hpurge)
  · exact enterState_none (by simpa using hreason) (by simpa using hpurge)

theorem afterLinkReset_reached (h : s.reached = .nothing) : (afterLinkReset tracked s).reached = .nothing := by
  refine afterLinkReset_cases (P := fun t => t.reached = .nothing) s tracked
    (enterState_nothing h) ?_ (enterState_nothing h) fun st => ?_
  · exact enterState_nothing (by simpa [startCauses] using h)
  · exact enterState_nothing (by simpa using h)

theorem afterLinkReset_ret (h : s.ret = .empty) : (afterLinkReset tracked s).ret = .empty := by
  refine afterLinkReset_cases (P := fun t => t.ret = .empty) s tracked (by simpa using h) (by simpa using h) (by simpa using h)
    fun st => ?_
  have hmarks (v : State) (hv : v.ret = .empty) : (clearMarks v).ret = .empty := by simp [clearMarks, hv, Retention.empty]
  simpa [foreignSheet] using hmarks _ (by simpa using h)

theorem afterLinkReset_table (h : ∀ tag : Tag, s.trk.table[tag] = none) (tag : Tag) :
    (afterLinkReset tracked s).trk.table[tag] = none := by
  refine afterLinkReset_cases (P := fun t => t.trk.table[tag] = none) s tracked (by simpa using h tag) (by simpa using h tag)
    (by simpa using h tag) fun st => ?_
  have hmarks (v : State) (hv : v.trk = s.trk) : (clearMarks v).trk.table[tag] = none := by
    rw [show (clearMarks v).trk.table[tag] = _ from tabulate_getElem _ _ tag.isLt, hv]
    exact congrArg (Option.map _) (h tag)
  simpa [foreignSheet] using hmarks (makeNotice (.foreignSheet st) s) (by simp)

theorem afterLinkReset_raw_qual (i : Station) :
    ((afterLinkReset tracked s).front.stations[i]).raw = (s.front.stations[i]).raw ∧
    ((afterLinkReset tracked s).front.stations[i]).qual = (s.front.stations[i]).qual := by
  refine afterLinkReset_cases (P := fun t => (t.front.stations[i]).raw = (s.front.stations[i]).raw ∧
    (t.front.stations[i]).qual = (s.front.stations[i]).qual) s tracked (enterState_raw_qual _ _ i) ?_
    (enterState_raw_qual _ _ i) fun st => ?_
  · have := enterState_raw_qual .stopping (announceCause .declared 1 (pathLostCause s) (startCauses (pathLostCause s) s)) i
    simpa [pathLostStop, startCauses] using this
  · simpa [foreignSheet] using enterState_raw_qual .awaitClear
      (formPlan (emptyPlan st s.pos.p (clearMarks (makeNotice (.foreignSheet st) s))) (clearMarks (makeNotice (.foreignSheet st) s))) i

theorem afterLinkReset_front (h : s.sup.state ≠ .standby) : (afterLinkReset tracked s).front = s.front := by
  refine afterLinkReset_cases (P := fun t => t.front = s.front) s tracked (enterState_front h (by decide)) ?_
    (enterState_front h (by decide)) fun st => ?_
  · have := enterState_front (st := .stopping) (s := announceCause .declared 1 (pathLostCause s) (startCauses (pathLostCause s) s))
      (by simpa [startCauses] using h) (by decide)
    simpa [pathLostStop, startCauses] using this
  · have := enterState_front (st := .awaitClear) (s := formPlan (emptyPlan st s.pos.p (clearMarks (makeNotice (.foreignSheet st) s)))
      (clearMarks (makeNotice (.foreignSheet st) s))) (by simpa using h) (by decide)
    simpa [foreignSheet] using this

theorem afterLinkReset_emit (h : s.sup.state = .standby) : (afterLinkReset tracked s).front.emit = true := by
  refine afterLinkReset_cases (P := fun t => t.front.emit = true) s tracked (enterState_emit h (by decide)) ?_
    (enterState_emit h (by decide)) fun st => ?_
  · exact enterState_emit (by simpa [startCauses] using h) (by decide)
  · exact enterState_emit (by simpa using h) (by decide)

theorem afterLinkReset_cap (h : s.cap.state ≠ .running) : (afterLinkReset tracked s).cap = s.cap := by
  refine afterLinkReset_cases (P := fun t => t.cap = s.cap) s tracked (enterState_cap h _) ?_ (enterState_cap h _) fun st => ?_
  · have hstart : (startCauses (pathLostCause s) s).cap.state ≠ .running := by simpa [startCauses] using h
    have hcap : (announceCause .declared 1 (pathLostCause s) (startCauses (pathLostCause s) s)).cap = s.cap := by
      rw [announceCause_unrecorded hstart]
      simp [startCauses]
    exact (enterState_cap (by rwa [hcap]) .stopping).trans hcap
  · have hmarks : (clearMarks (makeNotice (.foreignSheet st) s)).cap.state ≠ .running := by simpa using h
    have hcap (p : PlanRec) : (formPlan p (clearMarks (makeNotice (.foreignSheet st) s))).cap = s.cap := by
      rw [formPlan_unrecorded hmarks]
      simp
    exact (enterState_cap (by rwa [hcap]) .awaitClear).trans (hcap _)

end

/-! ### The PATH LOST stop and the foreign sheet -/

theorem pathLostStop_jam (s : State) :
    (pathLostStop s).jam.causes = [pathLostCause s] ∧ (pathLostStop s).jam.more = false ∧
    (pathLostStop s).pos.settleFrom = some s.pos.clock ∧ (pathLostStop s).sup.state = .stopping := by
  simp [pathLostStop, startCauses]

theorem definedZones_getLsbD (t : Tables) (z : Zone) : (definedZones t).getLsbD z.val = (t.zones[z]).defined :=
  unionOfZones_getLsbD _ z

theorem foreignSheet_plan (st : Station) (p : Pos) (s : State) :
    (foreignSheet st p s).plan =
      { plan := some { emptyPlan st p s with number := nextPlanNumber s.plan.counter }
        counter := nextPlanNumber s.plan.counter } := by
  have hempty : emptyPlan st p (clearMarks (makeNotice (.foreignSheet st) s)) = emptyPlan st p s := by
    simp [emptyPlan, trackerCause, coveredStations]
  have hform (r : PlanRec) (v : State) : (formPlan r v).plan =
      { plan := some { r with number := nextPlanNumber v.plan.counter, isOpen := true }
        counter := nextPlanNumber v.plan.counter } := by
    simp [formPlan]
  simp only [foreignSheet, enterState_frame, hform, hempty, clearMarks_frame, makeNotice_frame]
  rfl

section
variable {s : State} (hcap : s.cap.state ≠ .running) (hreason : s.sup.heldReason = none)
include hcap hreason

theorem pathLostStop_notices (hroom : s.link.notices.length + 2 ≤ 48) :
    (pathLostStop s).link.notices = s.link.notices ++ .jam .declared 1 (pathLostCause s) (freeWord s) ::
      (if s.sup.state = .stopping then [] else [.state .stopping none]) ∧
    (pathLostStop s).link.lossCount = s.link.lossCount := by
  have hannounce : announceCause .declared 1 (pathLostCause s) (startCauses (pathLostCause s) s) =
      useFree 1 { startCauses (pathLostCause s) s with
        link.notices := s.link.notices ++ [.jam .declared 1 (pathLostCause s) (freeWord s)] } := by
    rw [announceCause_unrecorded (by simpa [startCauses] using hcap),
      makeNotice_of_room _ (by simp only [startCauses]; omega)]
    rfl
  have henter := enterState_notices_of_stopped (s := announceCause .declared 1 (pathLostCause s) (startCauses (pathLostCause s) s))
    (by rw [hannounce]; exact hcap) .stopping (by rw [hannounce]; simp [useFree]; omega) (by rw [hannounce]; exact hreason)
  refine ⟨henter.1.trans ?_, henter.2.trans ?_⟩
  · rw [hannounce]
    exact List.append_assoc _ _ _
  · rw [hannounce]
    rfl

theorem foreignSheet_notices (st : Station) (p : Pos) (hroom : s.link.notices.length + 3 ≤ 48) :
    (foreignSheet st p s).link.notices = s.link.notices ++ .foreignSheet st ::
      .plan (planSummary { emptyPlan st p s with number := nextPlanNumber s.plan.counter } (freeWord s)) ::
      (if s.sup.state = .awaitClear then [] else [.state .awaitClear none]) ∧
    (foreignSheet st p s).link.lossCount = s.link.lossCount := by
  have hempty : emptyPlan st p (clearMarks (makeNotice (.foreignSheet st) s)) = emptyPlan st p s := by
    simp [emptyPlan, trackerCause, coveredStations]
  have hmade : makeNotice (.foreignSheet st) s = { s with link.notices := s.link.notices ++ [.foreignSheet st] } :=
    makeNotice_of_room _ (by omega)
  have hform : (formPlan (emptyPlan st p s) (clearMarks (makeNotice (.foreignSheet st) s))).link =
        { s.link with notices := s.link.notices ++ [.foreignSheet st] ++
            [.plan (planSummary { emptyPlan st p s with number := nextPlanNumber s.plan.counter } (freeWord s))] } ∧
      (formPlan (emptyPlan st p s) (clearMarks (makeNotice (.foreignSheet st) s))).cap = s.cap := by
    rw [formPlan_unrecorded (by simpa using hcap), hmade, makeNotice_of_room _ (by simp [clearMarks]; omega)]
    exact ⟨rfl, rfl⟩
  have henter := enterState_notices_of_stopped (s := formPlan (emptyPlan st p s) (clearMarks (makeNotice (.foreignSheet st) s)))
    (by rwa [hform.2]) .awaitClear (by rw [hform.1]; simp; omega) (by simpa using hreason)
  rw [foreignSheet, hempty]
  refine ⟨henter.1.trans ?_, henter.2.trans (by rw [hform.1])⟩
  rw [hform.1, show (formPlan (emptyPlan st p s) (clearMarks (makeNotice (.foreignSheet st) s))).sup = s.sup by simp]
  simp only [List.append_assoc, List.cons_append, List.nil_append]

end

end Sys2Proof.Machine
end


-- ==== Sys2Proof/Proofs/ResetPart.lean ====
section
/-! SUPPORT. RESET PART from each port (R46, R56, R80, R86, R95, R114, R156, R157, R187, R193). -/

namespace Sys2Proof.Machine

/-! ### The end of the command beside a waiting HALT -/

section
variable {s : State} (hcontrol : s.link.pathControl ≠ [])
include hcontrol

/-- With no entry held every barrier is satisfied, and the waiting PATH CONTROL frame goes ahead of every command. -/
theorem finish_commands_released (hret : s.ret.entries = []) :
    (finish s).link.commands = s.link.commands.map fun c => { c with mark := c.mark.map fun _ => [] } := by
  obtain ⟨f, rest, hf⟩ := List.exists_cons_of_ne_nil hcontrol
  have hretested : s.link.commands.map (retested s.ret.entries) =
      s.link.commands.map fun c => { c with mark := c.mark.map fun _ => [] } := by
    refine List.map_congr_left fun c _ => ?_
    simp [retested, hret, satisfiesBarrier, filter_const_false]
  rw [← hretested]
  rcases htx : s.link.lowerTx with _ | g <;> simp [finish_lower, grantLower, htx, hf, retestBarriers_commands]

theorem finish_forwarded_of_control : (finish s).link.forwarded = s.link.forwarded := by
  obtain ⟨f, rest, hf⟩ := List.exists_cons_of_ne_nil hcontrol
  rcases htx : s.link.lowerTx with _ | g <;> simp [finish_lower, grantLower, htx, hf]

end

/-! ### The service of RESET PART -/

theorem exec_resetPart {port : MgmtPort} {q : Request} {s : State} (h : Awaits port q 0x50 [] s) :
    exec (.resetPart port) s = .next (answered port q (resetPart port (takeRequest port s)).status
      (resetPart port (takeRequest port s)).results (resetPart port (takeRequest port s)).state) := by
  rw [exec_served (c := .resetPart port) rfl h (by decide) (by decide)]
  rfl

/-- Settles O41. -/
theorem resetPartDiscardsTheJobState : Obligations.ResetPartDiscardsTheJobState := by
  intro q s
  refine ⟨fun h => exec_resetPart h, fun h => ⟨_, exec_resetPart h, ?_⟩⟩
  obtain ⟨u, hu⟩ : ∃ u, u = takeRequest .upper s := ⟨_, rfl⟩
  obtain ⟨b, hb⟩ : ∃ b, b = jobDiscarded u := ⟨_, rfl⟩
  obtain ⟨v, hv⟩ : ∃ v, v = linkReset u := ⟨_, rfl⟩
  obtain ⟨w, hw⟩ : ∃ w, w = putReply .upper { tag := q.tag, status := .done, results := [v.sup.state.code] } v := ⟨_, rfl⟩
  have ht : answered .upper q (resetPart .upper (takeRequest .upper s)).status (resetPart .upper (takeRequest .upper s)).results
      (resetPart .upper (takeRequest .upper s)).state = finish w := by
    rw [hw, hv, hu]
    rfl
  rw [ht]
  obtain ⟨hbret, hbtrk, hbsets, hbjam, hbplan, hbsup, hbreached, hbcap, hbfree, hbfront, hbtables⟩ := jobDiscarded_blocks u
  have hblink := jobDiscarded_link u
  have hbfwd := jobDiscarded_fwd u
  rw [← hb] at hbret hbtrk hbsets hbjam hbplan hbsup hbreached hbcap hbfree hbfront hbtables hblink hbfwd
  have hbpos : b.pos.p = s.pos.p ∧ b.pos.clock = s.pos.clock := by simp [hb, hu, jobDiscarded]
  have htracking : trackingEmpty u = trackingEmpty s := by simp [hu, trackingEmpty]
  have hvb : v = afterLinkReset (!trackingEmpty s) b := by rw [hv, linkReset_eq, htracking, ← hb]
  have hcovered : coveredStations b = coveredStations s := by
    simp [coveredStations, hbtables, hbfront, hu]
  have hchecked : b.tables.checked = s.tables.checked := by rw [hbtables, hu]; simp
  have hcontrol : v.link.pathControl = haltFrames s.link.pathControl := by simp [hvb, hblink, hu]
  have hlower : v.link.lowerTx = orphanFrame s.link.lowerTx := by simp [hvb, hblink, hu]
  have hret : v.ret = .empty := hvb ▸ afterLinkReset_ret hbret
  have hwcontrol : w.link.pathControl ≠ [] := by
    rw [hw, show (putReply .upper _ v).link.pathControl = v.link.pathControl from rfl, hcontrol]
    exact List.ne_nil_of_mem (halt_mem_haltFrames _)
  have hheld : controlHeld (finish w) = (match s.link.lowerTx with
      | some (.pathControl f) => [f]
      | _ => []) ++ haltFrames s.link.pathControl := by
    rw [controlHeld_finish, controlHeld, hw, show (putReply .upper _ v).link.pathControl = v.link.pathControl from rfl, hcontrol,
      show (putReply .upper _ v).link.lowerTx = v.link.lowerTx from rfl, hlower]
    rcases s.link.lowerTx with _ | f
    · rfl
    · cases f <;> rfl
  have hfinal : (finish w).sup = v.sup ∧ (finish w).ret = v.ret ∧ (finish w).sets = v.sets ∧ (finish w).trk = v.trk ∧
      (finish w).jam = v.jam ∧ (finish w).fwd = v.fwd ∧ (finish w).tables = v.tables ∧ (finish w).pos = v.pos ∧
      (finish w).front = v.front ∧ (finish w).reached = v.reached ∧ (finish w).plan = v.plan ∧ (finish w).cap = v.cap := by
    simp [hw]
  obtain ⟨hsup, hret', hsets, htrk, hjam, hfwd, htables, hpos, hfront, hreached, hplan, hcap⟩ := hfinal
  have hnone := afterLinkReset_sup_none (tracked := !trackingEmpty s) (s := b) (by rw [hbsup]) (by rw [hbsup])
  rw [← hvb] at hnone
  have hnotRunning : s.cap.owner = .controller ∨ s.cap.state ≠ .running → b.cap.state ≠ .running := by
    intro h
    rw [hbcap, show u.cap = s.cap by simp [hu], captureAfterLinkReset]
    split
    next => simp
    next howner => exact h.resolve_left howner
  refine ⟨?_, ?_, ?_, hheld, ?_, ?_, ?_, ?_, ?_, ?_, ?_, ?_, ?_, ?_, ?_, ?_, ?_, ?_, ?_, ?_, ?_, ?_, ?_, ?_, ?_, ?_, ?_, ?_, ?_, ?_, ?_, ?_,
    ?_, ?_, ?_, ?_, ?_, ?_, ?_, ?_, ?_, ?_⟩
  · rw [repliesHeld_finish, hsup, hw]
    simp [repliesHeld, putReply, hvb, hblink, hu]
  · exact creditHeld_finish _ _ (by simp [hw, hvb, hblink])
  · rw [hheld]
    exact List.mem_append_right _ (halt_mem_haltFrames _)
  · simp [hw, hvb, hbsup]
  · rw [hsup, hnone.1]
  · rw [hsup, hnone.2]
  · simp [hw, hvb, hbsup]
  · rw [hret', hret]
    rfl
  · simp [hw, hvb, hbsets, SetMonitor.empty]
  · intro tag
    rw [htrk, hvb]
    exact afterLinkReset_table (fun tag => by simp [hbtrk, Tracker.empty]) tag
  · intro st
    simp [hw, hvb, hbtrk, Tracker.empty]
  · simp [hw, hvb, hbjam, Jam.empty]
  · simp [hw, hvb, hbfwd]
  · simp [hw, hvb, hbfwd, hu]
  · simp [hw, hvb, hbfwd, hu]
  · simp [hw, hvb, hbfwd]
  · simp [hw, hvb, hbfwd, hu]
  · simp [hw, hvb, hbtables, hu]
  · simp [hw, hvb, hbpos]
  · simp [hw, hvb, hbfront, hu]
  · rw [hreached, hvb]
    exact afterLinkReset_reached hbreached
  · simp [hw, hvb, hblink, hu]
  · simp [hw, hvb, hblink, hu]
  · simp [hw, hvb, hblink, hu]
  · intro st
    have hstation := afterLinkReset_raw_qual (tracked := !trackingEmpty s) (s := b) st
    rwa [← hvb, hbfront, show u.front = s.front by simp [hu], ← hfront] at hstation
  · intro hstate
    rw [hfront, hvb, afterLinkReset_front (by rw [hbsup]; simpa [hu] using hstate), hbfront, hu]
    simp
  · intro hstate
    rw [hfront, hvb]
    exact afterLinkReset_emit (by rw [hbsup]; simpa [hu] using hstate)
  · simp only [coveredStations, indexesWhere, Bool.decide_and, Bool.decide_eq_true]
  · intro hcheck
    have hv' : v = enterState .unconfigured b := by rw [hvb, afterLinkReset_unchecked (by rw [hchecked, hcheck])]
    rw [hsup, hplan, hv']
    simp [hbplan, hu]
  · intro hcheck htrack
    have hv' : v = pathLostStop b := by rw [hvb, htrack, Bool.not_false, afterLinkReset_tracked (by rw [hchecked, hcheck])]
    obtain ⟨hcauses, hmore, hsettle, hstate⟩ := pathLostStop_jam b
    refine ⟨by rw [hsup, hv', hstate], ⟨definedZones s.tables, definedZones_getLsbD _, ?_, ?_⟩, ?_, ?_⟩
    · rw [hjam, hv', hcauses, pathLostCause, hbpos.1, hbtables, hu]
      simp
    · rw [hjam, hv', hmore]
    · rw [hplan, hv']
      simp [hbplan, hu]
    · rw [hpos, hv', hsettle, hbpos.2]
  · intro hcheck hempty hcov
    have hv' : v = enterState .idle b := by
      rw [hvb, hempty, Bool.not_true, afterLinkReset_idle (by rw [hchecked, hcheck]) (by rw [hcovered, hcov])]
    rw [hsup, hplan, hv']
    simp [hbplan, hu]
  · intro hcheck hempty hcov
    obtain ⟨st, rest, hlist⟩ := List.exists_cons_of_ne_nil hcov
    have hv' : v = foreignSheet st b.pos.p b := by
      rw [hvb, hempty, Bool.not_true, afterLinkReset_foreign (by rw [hchecked, hcheck]) (by rw [hcovered, hlist])]
    rw [hsup, hv', foreignSheet, enterState_state]
  · intro st rest hcheck hempty hlist
    have hv' : v = foreignSheet st b.pos.p b := by
      rw [hvb, hempty, Bool.not_true, afterLinkReset_foreign (by rw [hchecked, hcheck]) (by rw [hcovered, hlist])]
    have hcounter : b.plan.counter = s.plan.counter := by rw [hbplan, hu]; simp
    rw [hplan, hv', foreignSheet_plan, emptyPlan, trackerCause, hcounter, hcovered, hbpos.1, hbtables, hu]
    simp [stationZone, nextPlanNumber]
  · intro h
    by_cases hcheck : s.tables.checked = true
    · have hempty : trackingEmpty s = true := h.resolve_right (by simp [hcheck])
      rcases hcov : coveredStations s with _ | ⟨st, rest⟩
      · rw [hjam, hvb, hempty, Bool.not_true, afterLinkReset_idle (by rw [hchecked, hcheck]) (by rw [hcovered, hcov])]
        simp [hbjam, Jam.empty]
      · rw [hjam, hvb, hempty, Bool.not_true, afterLinkReset_foreign (by rw [hchecked, hcheck]) (by rw [hcovered, hcov])]
        simp [foreignSheet, hbjam, Jam.empty]
    · rw [hjam, hvb, afterLinkReset_unchecked (by rw [hchecked]; simpa using hcheck)]
      simp [hbjam, Jam.empty]
  · rw [finish_commands_released hwcontrol (by rw [hw]; simp [hret, Retention.empty])]
    simp [hw, hvb, hblink, hu]
  · simp [hw, hvb, hblink, hu, takeRequest]
  · rw [reportsHeld_finish, hw]
    simp [reportsHeld, hvb, hblink, hu]
  · rw [finish_forwarded_of_control hwcontrol]
    simp [hw, hvb, hblink]
  · intro howner
    rw [hcap, hvb, afterLinkReset_cap (hnotRunning (.inl howner)), hbcap, show u.cap = s.cap by simp [hu], captureAfterLinkReset,
      if_pos howner]
  · intro howner
    have hbcap' : b.cap = s.cap := by
      rw [hbcap, show u.cap = s.cap by simp [hu], captureAfterLinkReset, if_neg howner]
    refine ⟨?_, ?_, ?_, fun hstopped => ?_⟩
    · simp [hw, hvb, hbcap']
    · simp [hw, hvb, hbcap']
    · simp [hw, hvb, hbcap']
    · rw [hcap, hvb, afterLinkReset_cap (hnotRunning (.inr hstopped)), hbcap']
  · intro hcapture hloss hroom entered
    have hbcapture := hnotRunning hcapture.symm
    have hbreason : b.sup.heldReason = none := by rw [hbsup]
    have hbstate : b.sup.state = s.sup.state := by rw [hbsup, hu]; simp
    have hbnotices : b.link.notices = s.link.notices := by rw [hblink, hu]; simp
    have hbloss : b.link.lossCount = 0 := by rw [hblink, hu]; simpa using hloss
    have hfree : freeWord b = Config.absentWord s.free := by rw [freeWord, hbfree, hu]; simp
    have hheldBy {more : List Notice} (hmore : v.link.notices = b.link.notices ++ more ∧ v.link.lossCount = b.link.lossCount) :
        noticesHeld (finish w) = noticesHeld s ++ more := by
      rw [noticesHeld_finish _ (by rw [hw, ← hbloss, ← hmore.2]; rfl), noticesHeld, noticesHeld, hw,
        show (putReply .upper _ v).link.notices = v.link.notices from rfl, hmore.1, hbnotices, List.append_assoc,
        show (putReply .upper _ v).link.upperTx = s.link.upperTx by simp [hvb, hblink, hu]]
    have hentered (st : PartState) : (if b.sup.state = st then [] else [Notice.state st none]) = entered st := by
      rw [hbstate]
    refine ⟨fun hcheck => ?_, fun hcheck htrack => ?_, fun hcheck hempty hcov => ?_, fun st rest hcheck hempty hlist => ?_⟩
    · rw [← hentered]
      refine hheldBy ?_
      rw [hvb, afterLinkReset_unchecked (by rw [hchecked, hcheck])]
      exact enterState_notices_of_stopped hbcapture _ (by rw [hbnotices]; omega) hbreason
    · have hv' : v = pathLostStop b := by rw [hvb, htrack, Bool.not_false, afterLinkReset_tracked (by rw [hchecked, hcheck])]
      refine ⟨pathLostCause b, by rw [hjam, hv', (pathLostStop_jam b).1], ?_⟩
      rw [← hentered, ← hfree]
      refine hheldBy ?_
      rw [hv']
      exact pathLostStop_notices hbcapture hbreason (by rw [hbnotices]; omega)
    · rw [← hentered]
      refine hheldBy ?_
      rw [hvb, hempty, Bool.not_true, afterLinkReset_idle (by rw [hchecked, hcheck]) (by rw [hcovered, hcov])]
      exact enterState_notices_of_stopped hbcapture _ (by rw [hbnotices]; omega) hbreason
    · have hv' : v = foreignSheet st b.pos.p b := by
        rw [hvb, hempty, Bool.not_true, afterLinkReset_foreign (by rw [hchecked, hcheck]) (by rw [hcovered, hlist])]
      intro summary
      have hsummary : planSummary { emptyPlan st b.pos.p b with number := nextPlanNumber b.plan.counter } (freeWord b) = summary := by
        rw [hfree]
        simp only [summary]
        rw [hplan, hv', foreignSheet_plan, ← hcovered, show s.tables = b.tables by rw [hbtables, hu]; simp]
        rfl
      rw [← hentered, ← hsummary]
      refine hheldBy ?_
      rw [hv']
      exact foreignSheet_notices hbcapture hbreason st _ (by rw [hbnotices]; omega)

end Sys2Proof.Machine
end


-- ==== Sys2Proof/Proofs/TimersAndStations.lean ====
section
/-! SUPPORT. The encoder pulse, transport run, the stall timer, and the raw changes of a station (R19 to R26, R28, R77). -/

namespace Sys2Proof.Machine

/-! ### The stall timer -/

theorem stallMeasured_iff (s : State) :
    stallMeasured s = true ↔
      (s.sup.state = .running ∨ s.sup.state = .speedChange ∨ s.sup.state = .purging ∨ s.sup.state = .held) ∧
      s.pos.trunQual = true ∧ ∃ tag : Tag, s.trk.table[tag] ≠ none := by
  rw [stallMeasured, Bool.and_eq_true, Bool.and_eq_true, stallState_iff, Bool.not_eq_true', trackingEmpty_eq_false_iff, and_assoc]

section
variable {moment : Bool} {s : State}

theorem syncStall_unmeasured (h : ¬stallMeasured s = true) : syncStall moment s = { s with pos.stallTimer := .stopped } := by
  simp only [syncStall, if_neg h]

theorem syncStall_started (h : stallMeasured s = true) (hstart : moment = true ∨ s.pos.stallTimer = .stopped) :
    syncStall moment s = { s with pos.stallTimer := .running s.pos.clock } := by
  have hstart' : (moment || decide (s.pos.stallTimer = .stopped)) = true := by simpa using hstart
  simp only [syncStall, if_pos h, if_pos hstart']

theorem syncStall_kept (h : stallMeasured s = true) (hmoment : moment = false) (hrunning : s.pos.stallTimer ≠ .stopped) :
    syncStall moment s = s := by
  simp [syncStall, h, hmoment, hrunning]

end

/-- At one of the four moments of R23 a measured timer starts again. -/
theorem syncStall_moment (s : State) :
    syncStall true s = { s with pos.stallTimer :=
      if (s.sup.state = .running ∨ s.sup.state = .speedChange ∨ s.sup.state = .purging ∨ s.sup.state = .held) ∧
        s.pos.trunQual = true ∧ (∃ tag : Tag, s.trk.table[tag] ≠ none) then .running s.pos.clock else .stopped } := by
  by_cases h : stallMeasured s = true
  · rw [syncStall_started h (.inl rfl), if_pos ((stallMeasured_iff s).1 h)]
  · rw [syncStall_unmeasured h, if_neg (mt (stallMeasured_iff s).2 h)]

/-! ### Transport run -/

theorem linePending_eq (raw qual : Bool) (pending : Option Nat) (now : Nat) :
    linePending raw qual pending now = if raw = qual then none else some (pending.getD now) := rfl

/-- Settles O43. -/
theorem pulseAndTransportRunDriveTheTimers : Obligations.PulseAndTransportRunDriveTheTimers := by
  refine ⟨fun s => ?_, fun s => ⟨fun heq hnone => ?_, fun hne => ?_, fun since hsince hdue => ?_⟩, fun moment s =>
    ⟨fun h => syncStall_unmeasured (mt (stallMeasured_iff s).1 h), fun h => syncStall_started ((stallMeasured_iff s).2 h),
      fun h => syncStall_kept ((stallMeasured_iff s).2 h)⟩⟩
  · exact congrArg (fun t => Host.Outcome.next (finish t)) (syncStall_moment _)
  · have hpending : linePending (!s.pos.trunRaw) s.pos.trunQual s.pos.trunPending s.pos.clock = some s.pos.clock := by
      rw [linePending_eq, if_neg (by simp [heq]), hnone, Option.getD_none]
    rw [← hpending]
    rfl
  · have hpending : linePending (!s.pos.trunRaw) s.pos.trunQual s.pos.trunPending s.pos.clock = none := by
      rw [linePending_eq, if_pos (by cases h : s.pos.trunRaw <;> cases h' : s.pos.trunQual <;> simp_all)]
    rw [← hpending]
    rfl
  · have hheld : heldFor clkMs s.pos.clock s.pos.trunPending = true := by
      rw [hsince]
      exact decide_eq_true (show clkMs ≤ s.pos.clock - since by rw [clkMs]; omega)
    exact if_pos hheld

/-! ### A raw change of a station -/

section
variable {st : Station} {s : State}

theorem exec_stationRawChange_plain (h : continuous s st = false) :
    exec (.stationRawChange st) s =
      .next (finish (setSense st { s.front.stations[st] with raw := !(s.front.stations[st]).raw } s)) :=
  congrArg (fun t => Host.Outcome.next (finish t)) (if_neg (by simp [h]))

theorem exec_stationRawChange_followed (h : continuous s st = true) :
    exec (.stationRawChange st) s =
      .next (finish (followRaw st (setSense st { s.front.stations[st] with raw := !(s.front.stations[st]).raw } s))) :=
  congrArg (fun t => Host.Outcome.next (finish t)) (if_pos h)

theorem setSense_same (x : StationSense) : (setSense st x s).front.stations[st] = x :=
  Vector.getElem_set_self _

theorem setSense_setSense (x y : StationSense) : setSense st y (setSense st x s) = setSense st y s := by
  simp [setSense]

section
variable {x : StationSense} (hx : s.front.stations[st] = x)
include hx

theorem followRaw_dropped (h : x.raw = x.qual) (hpending : x.pending.isSome = true) :
    followRaw st s = takeDueExpiries st (setSense st { x with pending := none } s) := by
  simp only [followRaw, hx, if_pos h, if_pos hpending]

theorem followRaw_begun (h : x.raw ≠ x.qual) (hpending : x.pending = none) :
    followRaw st s =
      setSense st { x with pending := some { toCovered := x.raw, p := s.pos.p, time := s.pos.clock } } s := by
  simp only [followRaw, hx, if_neg h, hpending, Option.isSome_none, Bool.false_eq_true, if_false]

end
end

theorem continuous_iff (s : State) (st : Station) :
    continuous s st = true ↔ (s.tables.stations[st]).defined = true ∧ s.sup.state ≠ .standby := by
  simp only [continuous, Bool.and_eq_true, decide_eq_true_iff]

/-- Settles O44. -/
theorem stationChangeBeginsOrDrops : Obligations.StationChangeBeginsOrDrops := by
  intro st s x sensed
  refine ⟨fun h => exec_stationRawChange_plain ?_, fun hdefined hstate => ?_⟩
  · rw [← Bool.not_eq_true, continuous_iff]
    rintro ⟨hdefined, hstate⟩
    rcases h with h | h
    · exact absurd (hdefined.symm.trans h) (by decide)
    · exact hstate h
  · have hexec := exec_stationRawChange_followed ((continuous_iff s st).2 ⟨hdefined, hstate⟩)
    have hsensed : (setSense st { x with raw := !x.raw } s).front.stations[st] = { x with raw := !x.raw } := setSense_same _
    refine ⟨fun heq hnone => ?_, fun hne hsome => ?_⟩
    · have hraw : (!x.raw) ≠ x.qual := by simp [heq]
      exact hexec.trans (congrArg (fun t => Host.Outcome.next (finish t))
        ((followRaw_begun hsensed hraw hnone).trans (setSense_setSense _ _)))
    · have hraw : (!x.raw) = x.qual := by rw [Bool.eq_not_of_ne hne, Bool.not_not]
      exact hexec.trans (congrArg (fun t => Host.Outcome.next (finish t))
        ((followRaw_dropped hsensed hraw hsome).trans (congrArg (takeDueExpiries st) (setSense_setSense _ _))))

end Sys2Proof.Machine
end


-- ==== Sys2Proof/Proofs/MatchedOn.lean ====
section
/-! SUPPORT. An accepted ON at a station with an empty slot and a head in its list (R26, R27, R57, R64 to R67, R70, R71). -/

namespace Sys2Proof.Machine

/-! ### Positions -/

theorem before_iff (a b : Pos) : before a b = true ↔ (a - b).toInt < 0 := decide_eq_true_iff

theorem atOrBeyond_iff (a b : Pos) : atOrBeyond a b = true ↔ 0 ≤ (a - b).toInt := decide_eq_true_iff

/-! ### When an edge is accepted, and where it goes -/

theorem acceptable_iff (st : Station) (covered : Bool) (c : PendingChange) (s : State) :
    acceptable st covered s = some c ↔
      (s.tables.stations[st]).defined = true ∧ s.sup.state ≠ .standby ∧ (s.front.stations[st]).pending = some c ∧
      c.toCovered = covered ∧ (s.tables.stations[st]).qualify * 1200 ≤ s.pos.clock - c.time ∧ lateDue s st = false ∧
      stuckDue s st = false := by
  have hqualified (c : PendingChange) : qualified s st c = true ↔
      (s.tables.stations[st]).qualify * 1200 ≤ s.pos.clock - c.time := decide_eq_true_iff
  simp only [acceptable]
  rcases hpending : (s.front.stations[st]).pending with _ | d
  · simp
  · simp only [Option.ite_none_right_eq_some, Bool.and_eq_true, continuous_iff, decide_eq_true_iff, hqualified, Bool.not_eq_true',
      Option.some.injEq]
    constructor
    · rintro ⟨⟨⟨⟨⟨⟨hdefined, hstate⟩, hto⟩, hdue⟩, hlate⟩, hstuck⟩, rfl⟩
      exact ⟨hdefined, hstate, rfl, hto, hdue, hlate, hstuck⟩
    · rintro ⟨hdefined, hstate, rfl, hto, hdue, hlate, hstuck⟩
      exact ⟨⟨⟨⟨⟨⟨hdefined, hstate⟩, hto⟩, hdue⟩, hlate⟩, hstuck⟩, rfl⟩

theorem edgesHanded_iff (st : PartState) :
    edgesHanded st = true ↔ st ≠ .starting ∧ st ≠ .unconfigured ∧ st ≠ .awaitClear := by
  cases st <;> simp [edgesHanded]

theorem exec_onEdge {st : Station} {c : PendingChange} {s : State} (h : acceptable st true s = some c) :
    exec (.onEdge st) s = .next (finish (handEdge st true c.p (acceptLevel st true c.p 0 s))) := by
  change acceptEdge st true s = _
  simp only [acceptEdge, h]
  rfl

theorem exec_offEdge {st : Station} {c : PendingChange} {s : State} (h : acceptable st false s = some c) :
    exec (.offEdge st) s = .next (finish (handEdge st false c.p (acceptLevel st false c.p 0 s))) := by
  change acceptEdge st false s = _
  simp only [acceptEdge, h]
  rfl

section
variable {st : Station} {stamp : Pos} {s : State}

theorem handEdge_unhanded {covered : Bool} (h : edgesHanded s.sup.state = false) : handEdge st covered stamp s = s := by
  simp [handEdge, h]

theorem handEdge_off (h : edgesHanded s.sup.state = true) :
    handEdge st false stamp s = afterTracking (trackOff st stamp s) := by
  simp [handEdge, h]

theorem handEdge_foreign (h : edgesHanded s.sup.state = true) (hforeign : isForeignOn st s = true) :
    handEdge st true stamp s = foreignSheet st stamp s := by
  simp [handEdge, h, hforeign]

theorem handEdge_on (h : edgesHanded s.sup.state = true) (hforeign : isForeignOn st s = false) :
    handEdge st true stamp s = settledByOn s st stamp (afterTracking (trackOn st stamp s)) := by
  simp [handEdge, h, hforeign]

theorem isForeignOn_iff :
    isForeignOn st s = true ↔ (s.sup.state = .idle ∨ s.sup.state = .standby) ∧ trackingEmpty s = true ∧ s.trk.slots[st] = none ∧
      s.trk.lists[st] = [] := by
  simp only [isForeignOn, Bool.and_eq_true, Bool.or_eq_true, decide_eq_true_iff, Option.isNone_iff_eq_none, List.isEmpty_iff,
    and_assoc]

theorem settledByOn_emptyList {t : State} (h : s.trk.lists[st] = []) : settledByOn s st stamp t = t := by
  rcases hslot : s.trk.slots[st] <;> simp only [settledByOn, hslot, h]

theorem settledByOn_head {t : State} {x : Expectation} {rest : List Expectation} (hslot : s.trk.slots[st] ≠ none)
    (hlist : s.trk.lists[st] = x :: rest) :
    settledByOn s st stamp t = if (x.late - stamp).toInt < 0 then t else lateSettled st x t := by
  obtain ⟨o, ho⟩ := Option.ne_none_iff_exists'.1 hslot
  simp only [settledByOn, ho, hlist]
  by_cases h : (x.late - stamp).toInt < 0
  · rw [if_pos h, if_neg (mt (atOrBeyond_iff _ _).1 (by omega))]
  · rw [if_neg h, if_pos ((atOrBeyond_iff _ _).2 (by omega))]

end

/-! ### The routes of a sheet -/

theorem divertsAt_iff (t : Tables) (r : TrackRec) (k : Nat) :
    divertsAt t r k = true ↔ r.disp = some .wasteDivert ∧ r.wasteTail = false ∧
      ∃ dv, (t.routes[r.route]).divert = some dv ∧ dv.d.val = k := by
  simp only [divertsAt, Bool.and_eq_true, decide_eq_true_iff, Bool.not_eq_true', and_assoc]
  refine and_congr_right fun _ => and_congr_right fun _ => ?_
  cases (t.routes[r.route]).divert <;> simp

theorem followedRoute_own {t : Tables} {r : TrackRec} (h : r.wasteTail = false) : followedRoute t r = t.routes[r.route] := by
  simp [followedRoute, h]

theorem followedRoute_waste {t : Tables} {r : TrackRec} {dv : Divert} (h : r.wasteTail = true)
    (hdv : (t.routes[r.route]).divert = some dv) : followedRoute t r = t.routes[dv.w] := by
  simp only [followedRoute, h, if_true, hdv]

theorem wasteAnchor_eq {t : Tables} {r : TrackRec} {dv : Divert} {v : Visit} (hdv : (t.routes[r.route]).divert = some dv)
    (hv : (t.routes[dv.w]).visits.head? = some v) : wasteAnchor t r = some v.anchor := by
  simp only [wasteAnchor, hdv, hv, Option.map_some]

/-- The record as the waste tail begins. -/
def TrackRec.onWaste (r : TrackRec) : TrackRec := { r with wasteTail := true, next := 0 }

section
variable {tag : Tag} {a : Pos} {r : TrackRec} {dv : Divert} {v : Visit} {s : State} (hr : s.trk.table[tag] = some r)
include hr

theorem startWasteTail_eq : startWasteTail tag a s = postVisit tag 0 a (setRecord tag (some r.onWaste) s) := by
  simp only [startWasteTail, hr]
  rfl

variable (hdv : (s.tables.routes[r.route]).divert = some dv) (hv : (s.tables.routes[dv.w]).visits.head? = some v)
include hdv hv

omit hr in
theorem followedVisit_onWaste : followedVisit s.tables r.onWaste 0 = some v := by
  rw [followedVisit, followedRoute_waste (r := r.onWaste) rfl hdv, ← List.head?_eq_getElem?, hv]

theorem startWasteTail_of_room (h : (s.trk.lists[v.station]).length < 8) :
    startWasteTail tag a s = (setList v.station
      (insertExpectation (expectationOf s.tables.limits tag 0 a v) s.trk.lists[v.station]) (setRecord tag (some r.onWaste) s), []) := by
  rw [startWasteTail_eq hr]
  exact postVisit_of_room (r := r.onWaste) (s := setRecord tag (some r.onWaste) s) (Vector.getElem_set_self _) (followedVisit_onWaste hdv hv) h

theorem startWasteTail_of_full (h : 8 ≤ (s.trk.lists[v.station]).length) :
    startWasteTail tag a s = (setRecord tag (some r.onWaste) s,
      [{ kind := .overrun, station := v.station, sheet := some r.order, pos := s.pos.p }]) := by
  rw [startWasteTail_eq hr]
  exact postVisit_of_full (r := r.onWaste) (s := setRecord tag (some r.onWaste) s) (Vector.getElem_set_self _) (followedVisit_onWaste hdv hv) h

end

/-! ### The match -/

/-- The state as an ON is matched, before the next visit is posted and the MATCH event is offered. -/
def onMatched (st : Station) (p : Pos) (x : Expectation) (rest : List Expectation) (r : TrackRec) (s : State) : State :=
  setRecord x.tag (some (TrackRec.matchedOn s.tables r st p x.visit))
    (setSlot st (some (occupantOf s.tables r x.tag p x.visit)) (setList st rest (lateSettled st x s)))

section
variable {st : Station} {p : Pos} {x : Expectation} {rest : List Expectation} {r : TrackRec} {s : State}

theorem occupantOf_eq (t : Tables) (r : TrackRec) (tag : Tag) (p : Pos) (k : Nat) :
    occupantOf t r tag p k =
      { tag := tag, visit := k, onPos := p
        offLate := p + BitVec.ofNat 32 (r.length.toNat + t.limits.trailBase + (r.length.toNat * t.limits.stretch + 999) / 1000)
        check := ((followedRoute t r).visits[k]?.map (·.check)).getD false, action := actionAtOff t r k, spent := false } := by
  simp only [occupantOf, followedVisit]
  cases (followedRoute t r).visits[k]? <;> rfl

theorem trackOn_matched (hslot : s.trk.slots[st] = none) (hlist : s.trk.lists[st] = x :: rest) (hr : s.trk.table[x.tag] = some r) :
    trackOn st p s =
      (offerEvent .matched p (some st) (some r.order) (matchDetail x.visit false)
        (postAtOn s.tables r x.tag p x.visit (onMatched st p x rest r s)).1,
       (if (p - x.early).toInt < 0 then [{ kind := .early, station := st, sheet := some r.order, pos := p }] else []) ++
        (postAtOn s.tables r x.tag p x.visit (onMatched st p x rest r s)).2) := by
  simp only [trackOn, hslot, hlist, matchOn, hr, sheetOf, Option.map_some, before_iff]
  rfl

theorem trackOn_unmatched (h : s.trk.slots[st] ≠ none ∨ s.trk.lists[st] = []) :
    trackOn st p s = (s, [{ kind := .unexpected, station := st, sheet := none, pos := p }]) := by
  rcases hslot : s.trk.slots[st] with _ | o
  · have hlist : s.trk.lists[st] = [] := h.resolve_left (by simp [hslot])
    simp only [trackOn, hslot, hlist]
    rfl
  · simp only [trackOn, hslot]
    rfl

end

section
variable {t : Tables} {r : TrackRec} {tag : Tag} {p : Pos} {k : Nat} {s : State}

section
variable (h : divertsAt t r k = false)
include h

theorem actionAtOff_last (hnext : (followedRoute t r).visits[k + 1]? = none) : actionAtOff t r k = .delivery := by
  simp [actionAtOff, h, followedVisit, hnext]

theorem postAtOn_last (hnext : (followedRoute t r).visits[k + 1]? = none) : postAtOn t r tag p k s = (s, []) := by
  simp [postAtOn, h, followedVisit, hnext]

variable {v : Visit} (hnext : (followedRoute t r).visits[k + 1]? = some v)
include hnext

theorem actionAtOff_next :
    actionAtOff t r k = match v.anchor with
      | .prevOn => .nothing
      | .prevOff => .postNext
      | .pick => .delivery := by
  simp only [actionAtOff, h, Bool.false_eq_true, if_false, followedVisit, hnext] <;> rfl

theorem postAtOn_next :
    postAtOn t r tag p k s = if v.anchor = .prevOn then postVisit tag (k + 1) p s else (s, []) := by
  simp [postAtOn, h, followedVisit, hnext]

end

variable (h : divertsAt t r k = true) {anchor : Anchor} (hanchor : wasteAnchor t r = some anchor)
include h hanchor

theorem actionAtOff_diverting : actionAtOff t r k = if anchor = .prevOn then .nothing else .beginWaste := by
  simp [actionAtOff, h, hanchor]

theorem postAtOn_diverting : postAtOn t r tag p k s = if anchor = .prevOn then startWasteTail tag p s else (s, []) := by
  simp [postAtOn, h, hanchor]

end

theorem matchDetail_eq {k : Nat} (h : k < 16) : matchDetail k false = byteOf k ∧ matchDetail k true = byteOf (k + 128) := by
  have hall : ∀ k : Fin 16, matchDetail k.val false = byteOf k.val ∧ matchDetail k.val true = byteOf (k.val + 128) := by decide
  exact hall ⟨k, h⟩

/-- Settles O45. -/
theorem matchedOnMovesTheSheetOn : Obligations.MatchedOnMovesTheSheetOn := by
  refine ⟨fun st covered c s => ⟨acceptable_iff st covered c s, fun stamp detail => rfl, edgesHanded_iff _⟩,
    fun st c x rest s hc hhanded hslot hlist => ?_, fun st p x rest r s hslot hlist hr => ?_, fun st p s => trackOn_unmatched,
    divertsAt_iff, fun tag a r dv v s hr hdv hv => ⟨startWasteTail_of_room hr hdv hv, startWasteTail_of_full hr hdv hv⟩,
    fun tag k a r v s hr hv => ⟨postVisit_of_room hr hv, postVisit_of_full hr hv⟩,
    fun t r => ⟨followedRoute_own, fun dv => followedRoute_waste⟩, fun k => matchDetail_eq⟩
  · rw [exec_onEdge hc, handEdge_on (by simpa using hhanded) ?_, settledByOn_emptySlot _ _ _ _ (by simpa using hslot)]
    rw [← Bool.not_eq_true, isForeignOn_iff]
    rintro ⟨-, -, -, hnil⟩
    simp [hlist] at hnil
  · intro l early onto matched
    have htrack := trackOn_matched (p := p) hslot hlist hr
    have honto {a : OffAction} (ha : actionAtOff s.tables r x.visit = a) : onMatched st p x rest r s = onto a := by
      rw [onMatched, occupantOf_eq, ha]
      rfl
    refine ⟨fun hstay => ⟨fun hnext => ?_, fun v hnext hv => ?_, fun v hnext hv => ?_⟩,
      fun dv v hdisp htail hdv hat hv => ?_⟩
    · rw [htrack, postAtOn_last hstay hnext, honto (actionAtOff_last hstay hnext), List.append_nil]
    · rw [htrack, postAtOn_next hstay hnext, if_neg (by simp [hv]), honto (by rw [actionAtOff_next hstay hnext, hv]), List.append_nil]
    · rw [htrack, postAtOn_next hstay hnext, if_pos hv, honto (by rw [actionAtOff_next hstay hnext, hv])]
    · have hdivert := (divertsAt_iff s.tables r x.visit).2 ⟨hdisp, htail, dv, hdv, hat⟩
      have hanchor := wasteAnchor_eq hdv hv
      refine ⟨fun hon => ?_, fun hoff => ?_⟩
      · rw [htrack, postAtOn_diverting hdivert hanchor, if_pos hon, honto (by rw [actionAtOff_diverting hdivert hanchor, if_pos hon])]
      · rw [htrack, postAtOn_diverting hdivert hanchor, if_neg hoff, honto (by rw [actionAtOff_diverting hdivert hanchor, if_neg hoff]),
          List.append_nil]

end Sys2Proof.Machine
end


-- ==== Sys2Proof/Proofs/UnmatchedOn.lean ====
section
/-! SUPPORT. An accepted ON with nothing to match: a foreign sheet, or an UNEXPECTED report (R27, R68, R69, R102, R114, R165). -/

namespace Sys2Proof.Machine

theorem zonesOf_getLsbD (t : Tables) (sts : List Station) (z : Zone) :
    (zonesOf t sts).getLsbD z.val = true ↔ ∃ st ∈ sts, (t.stations[st]).zone = z := by
  rw [zonesOf, ← List.foldl_map (f := stationZone t) (g := fun acc z => acc ||| zoneBit z), foldl_zoneBit_getLsbD]
  simp [stationZone]

/-- A notice is a matter of the link alone. -/
theorem makeNotice_link_congr (n : Notice) {s t : State} (h : s.link = t.link) : (makeNotice n s).link = (makeNotice n t).link := by
  simp only [makeNotice, h]
  split <;> rfl

/-- A foreign sheet before its PLAN event: the two notices, the plan and its number, and no plan mark (R102, R114, R116). -/
def foreignPlanned (st : Station) (p : PlanRec) (summary : PlanSummary) (s : State) : State :=
  { makeNotice (.plan summary) (makeNotice (.foreignSheet st) s) with
    plan := { plan := some p, counter := p.number }
    free := s.free + 1
    ret.entries := s.ret.entries.map fun e => { e with mark := none }
    trk.table := s.trk.table.map fun o => o.map fun r => { r with disp := none } }

section
variable (st : Station) (at_ : Pos) (s : State)

/-- The plan of a foreign sheet, with its number (R114). -/
def foreignPlan : PlanRec := { emptyPlan st at_ s with number := nextPlanNumber s.plan.counter }

theorem clearMarks_eq : clearMarks s = { s with
    ret.entries := s.ret.entries.map fun e => { e with mark := none }
    trk.table := s.trk.table.map fun o => o.map fun r => { r with disp := none } } := by
  rw [clearMarks, ← tabulate_map]

theorem foreignSheet_eq :
    foreignSheet st at_ s = enterState .awaitClear (offerEvent .plan s.pos.p none none (foreignPlan st at_ s).number
      (foreignPlanned st (foreignPlan st at_ s) (planSummary (foreignPlan st at_ s) (freeWord s)) s)) := by
  have hempty : emptyPlan st at_ (clearMarks (makeNotice (.foreignSheet st) s)) = emptyPlan st at_ s := by
    simp [emptyPlan, trackerCause, coveredStations]
  have hpos : (makeNotice (.foreignSheet st) s).pos = s.pos ∧ (makeNotice (.foreignSheet st) s).plan = s.plan ∧
      (makeNotice (.foreignSheet st) s).free = s.free := by simp
  obtain ⟨hpos, hplan, hfree⟩ := hpos
  have hform : formPlan (emptyPlan st at_ s) (clearMarks (makeNotice (.foreignSheet st) s)) =
      offerEvent .plan s.pos.p none none (foreignPlan st at_ s).number
        (useFree 1 (makeNotice (.plan (planSummary (foreignPlan st at_ s) (freeWord s)))
          { clearMarks (makeNotice (.foreignSheet st) s) with
            plan := { plan := some (foreignPlan st at_ s), counter := (foreignPlan st at_ s).number } })) := by
    simp only [formPlan, freeWord, clearMarks_frame, hplan, hfree]
    rfl
  rw [foreignSheet, hempty, hform]
  refine congrArg (fun v => enterState .awaitClear (offerEvent .plan s.pos.p none none (foreignPlan st at_ s).number v)) ?_
  rw [clearMarks_eq]
  apply State.eq_of_blocks <;> simp [useFree, foreignPlanned]
  exact makeNotice_link_congr _ rfl

end

/-- Settles O46. -/
theorem unmatchedOnIsForeignOrUnexpected : Obligations.UnmatchedOnIsForeignOrUnexpected := by
  refine ⟨fun st c s hc => ?_, fun st at_ s => ?_, fun st at_ s => ?_⟩
  · intro u unexpected
    have hsup : u.sup = s.sup := by simp [u]
    have htrk : u.trk = s.trk := by simp [u]
    have htracking : trackingEmpty u = trackingEmpty s := by rw [trackingEmpty, htrk, trackingEmpty]
    have hexec := exec_onEdge hc
    refine ⟨fun hstate => ?_, fun hslot hlist hstate hempty => ?_, fun hhanded hslot => ?_, fun hhanded hslot hlist hstate => ?_⟩
    · rw [hexec, handEdge_unhanded]
      rw [← Bool.not_eq_true, edgesHanded_iff, hsup]
      exact fun ⟨hstarting, hunconfigured, hawait⟩ => hstate.elim hstarting (·.elim hunconfigured hawait)
    · rw [hexec, handEdge_foreign]
      · rw [edgesHanded_iff, hsup, hstate]
        decide
      · rw [isForeignOn_iff, hsup, htracking, htrk]
        exact ⟨.inl hstate, hempty, hslot, hlist⟩
    · have hforeign : isForeignOn st u = false := by
        rw [← Bool.not_eq_true, isForeignOn_iff, htrk]
        exact fun h => hslot h.2.2.1
      have htrack : trackOn st c.p u = (u, [unexpected]) := trackOn_unmatched (.inl (by rwa [htrk]))
      have hedge : handEdge st true c.p u = settledByOn u st c.p (afterTracking (u, [unexpected])) := by
        rw [handEdge_on (by rwa [hsup]) hforeign, htrack]
      intro v
      refine ⟨fun hlist => ?_, fun x rest hlist => ⟨fun hlate => ?_, fun hlate => ?_⟩⟩
      · rw [hexec, hedge, settledByOn_emptyList (by rwa [htrk])]
      · rw [hexec, hedge, settledByOn_head (by rwa [htrk]) (by rw [htrk, hlist]), if_pos hlate]
      · rw [hexec, hedge, settledByOn_head (by rwa [htrk]) (by rw [htrk, hlist]), if_neg (Int.not_lt.2 hlate)]
        rfl
    · have hforeign : isForeignOn st u = false := by
        rw [← Bool.not_eq_true, isForeignOn_iff, hsup, htracking]
        rintro ⟨hquiet, hempty, -⟩
        rcases hstate with hstate | hstate
        · exact (acceptable_iff st true c s).1 hc |>.2.1 (hquiet.resolve_left hstate)
        · simp [hstate] at hempty
      have htrack : trackOn st c.p u = (u, [unexpected]) := trackOn_unmatched (.inr (by rwa [htrk]))
      rw [hexec, handEdge_on (by rwa [hsup]) hforeign, htrack, settledByOn_emptyList (by rwa [htrk])]
  · intro t
    refine ⟨⟨_, foreignSheet_plan st at_ s, rfl, rfl, rfl, rfl, rfl, rfl, rfl, rfl⟩, ?_⟩
    simp [t, foreignSheet]
  · intro zone p summary u
    refine ⟨foreignSheet_eq st at_ s, fun z => ?_, fun hcap hstate hroom => ?_⟩
    · rw [show p.clear = zonesOf s.tables (coveredStations s) from rfl, zonesOf_getLsbD]
      simp [coveredStations, mem_indexesWhere, and_assoc]
    · have hmade : u.link = { s.link with notices := s.link.notices ++ [.foreignSheet st] ++ [.plan summary] } := by
        simp only [u]
        rw [makeNotice_of_room (s := s) _ (by omega), makeNotice_of_room _ (by simp; omega)]
      have hu : u.cap = s.cap ∧ u.sup = s.sup := by simp [u]
      have heq : foreignSheet st at_ s = enterState .awaitClear u := by
        rw [foreignSheet_eq]
        exact congrArg (enterState .awaitClear) (offerEvent_unrecorded (.inl (by rw [← hu.1] at hcap; exact hcap)))
      rw [heq, enterState_notices (by rwa [hu.2]) (by rwa [hu.1]) (by rw [hmade]; simp; omega), hmade]
      simp

end Sys2Proof.Machine
end


-- ==== Sys2Proof/Proofs/MatchedOff.lean ====
section
/-! SUPPORT. An accepted OFF: the slot emptied, the length checked, and the action carried out (R64, R72, R73, R74). -/

namespace Sys2Proof.Machine

section
variable {st : Station} {stamp : Pos} {s : State}

theorem trackOff_quiet (hslot : s.trk.slots[st] = none) (hstate : s.sup.state = .idle ∨ s.sup.state = .standby)
    (hempty : trackingEmpty s = true) : trackOff st stamp s = (s, []) := by
  rcases hstate with hstate | hstate <;> simp [trackOff, hslot, hstate, hempty]

theorem trackOff_unexpected (hslot : s.trk.slots[st] = none)
    (h : ¬(s.sup.state = .idle ∨ s.sup.state = .standby) ∨ trackingEmpty s = false) :
    trackOff st stamp s = (s, [{ kind := .unexpected, station := st, sheet := none, pos := stamp }]) := by
  have hnot : ((decide (s.sup.state = .idle) || decide (s.sup.state = .standby)) && trackingEmpty s) = false := by
    rcases h with h | h <;> simp [h]
  simp only [trackOff, hslot]
  exact if_neg (by simp [hnot])

/-- The state as an OFF is matched to occupant `o`, before the MATCH event and the action (R73, R74). -/
def offMatched (st : Station) (o : Occupant) (r : TrackRec) (s : State) : State :=
  setRecord o.tag (some { r with occupied := r.occupied.filter fun x => x.1 ≠ st }) (setSlot st none (stuckSettled st o s))

theorem trackOff_matched {o : Occupant} {r : TrackRec} (hslot : s.trk.slots[st] = some o) (hr : s.trk.table[o.tag] = some r) :
    trackOff st stamp s =
      ((offAction stamp o (offerEvent .matched stamp (some st) (some r.order) (matchDetail o.visit true) (offMatched st o r s))).1,
       lengthReports st stamp o r s ++
        (offAction stamp o (offerEvent .matched stamp (some st) (some r.order) (matchDetail o.visit true) (offMatched st o r s))).2) := by
  simp only [trackOff, hslot, matchOff, hr]
  rfl

/-- The length report of an OFF (R64, R73). -/
theorem lengthReports_eq (o : Occupant) (r : TrackRec) :
    lengthReports st stamp o r s =
      if o.check = true ∧ s.sup.state ≠ .stopping then
        (if (stamp - o.onPos).toInt < (r.length.toNat : Int) -
            (s.tables.limits.lengthBase + (r.length.toNat * s.tables.limits.lengthTol + 999) / 1000 : Nat) then
          [{ kind := .lengthShort, station := st, sheet := some r.order, pos := stamp }]
        else if (r.length.toNat : Int) +
            (s.tables.limits.lengthBase + (r.length.toNat * s.tables.limits.lengthTol + 999) / 1000 : Nat) < (stamp - o.onPos).toInt then
          [{ kind := .lengthLong, station := st, sheet := some r.order, pos := stamp }]
        else [])
      else [] := by
  simp only [lengthReports, Bool.and_eq_true, decide_eq_true_iff]
  refine ite_congr rfl (fun _ => ?_) fun _ => rfl
  by_cases hshort : (stamp - o.onPos).toInt < (r.length.toNat : Int) -
      (s.tables.limits.lengthBase + (r.length.toNat * s.tables.limits.lengthTol + 999) / 1000 : Nat)
  · have hfault : lengthFault s.tables.limits r.length (posDiff stamp o.onPos) = some .lengthShort := if_pos hshort
    rw [hfault, if_pos hshort]
  · rw [if_neg hshort]
    by_cases hlong : (r.length.toNat : Int) +
        (s.tables.limits.lengthBase + (r.length.toNat * s.tables.limits.lengthTol + 999) / 1000 : Nat) < (stamp - o.onPos).toInt
    · have hfault : lengthFault s.tables.limits r.length (posDiff stamp o.onPos) = some .lengthLong :=
        (if_neg hshort).trans (if_pos hlong)
      rw [hfault, if_pos hlong]
    · have hfault : lengthFault s.tables.limits r.length (posDiff stamp o.onPos) = none :=
        (if_neg hshort).trans (if_neg hlong)
      rw [hfault, if_neg hlong]

end

/-- Settles O47. -/
theorem matchedOffEmptiesTheSlot : Obligations.MatchedOffEmptiesTheSlot := by
  intro st c s hc u
  have hsup : u.sup = s.sup := by simp [u]
  have htrk : u.trk = s.trk := by simp [u]
  have htables : u.tables = s.tables := by simp [u]
  have hreached : u.reached = s.reached := by simp [u]
  have htracking : trackingEmpty u = trackingEmpty s := by rw [trackingEmpty, htrk, trackingEmpty]
  have hstandby := ((acceptable_iff st false c s).1 hc).2.1
  have hexec := exec_offEdge hc
  have hhandedBy (h : edgesHanded s.sup.state = true) : exec (.offEdge st) s = .next (finish (afterTracking (trackOff st c.p u))) := by
    rw [hexec, handEdge_off (by rwa [hsup])]
  refine ⟨fun hstate => ?_, fun hhanded hslot => ⟨fun hstate hempty => ?_, fun h => ?_⟩, fun o r hhanded hslot hr => ?_⟩
  · rw [hexec, handEdge_unhanded]
    rw [← Bool.not_eq_true, edgesHanded_iff, hsup]
    exact fun ⟨hstarting, hunconfigured, hawait⟩ => hstate.elim hstarting (·.elim hunconfigured hawait)
  · rw [hhandedBy hhanded, trackOff_quiet (by rwa [htrk]) (.inl (by rw [hsup, hstate])) (htracking.trans hempty)]
  · rw [hhandedBy hhanded, trackOff_unexpected (by rwa [htrk])]
    refine h.imp (fun hidle => ?_) htracking.trans
    rw [hsup]
    exact fun hor => hor.elim hidle hstandby
  · intro m tol length v
    have hlength : lengthReports st c.p o r u = length := by
      rw [lengthReports_eq, hsup, htables]
      rfl
    have hv : offerEvent .matched c.p (some st) (some r.order) (matchDetail o.visit true) (offMatched st o r u) = v := by
      refine congrArg _ (State.eq_of_blocks rfl rfl rfl rfl rfl rfl ?_ rfl rfl rfl rfl rfl rfl rfl rfl rfl ?_)
      · simp only [offMatched, setRecord, setSlot, stuckSettled, htrk]
      · simp only [offMatched, setRecord, setSlot, stuckSettled, hreached]
    have htrack := trackOff_matched (st := st) (stamp := c.p) (s := u) (o := o) (r := r) (by rwa [htrk]) (by rwa [htrk])
    rw [hv, hlength] at htrack
    refine ⟨fun ha => ?_, fun ha => ?_, fun ha => ?_, fun ha => ?_⟩
    · rw [hhandedBy hhanded, htrack]
      simp only [offAction, ha, List.append_nil]
    · rw [hhandedBy hhanded, htrack]
      simp only [offAction, ha, List.append_nil]
    · rw [hhandedBy hhanded, htrack]
      simp only [offAction, ha]
    · rw [hhandedBy hhanded, htrack]
      simp only [offAction, ha]

end Sys2Proof.Machine
end


-- ==== Sys2Proof/Proofs/Delivery.lean ====
section
/-! SUPPORT. The delivery of a sheet: the record freed, the entry settled by its mark and its bin, the Set Monitor told, and the
finished entries leaving from the head (R42, R51, R52, R62, R141, R143). -/

namespace Sys2Proof.Machine

/-! ### Updates of one entry and of one set -/

theorem updateEntry_updateEntry {n : OrderNo} {f g : Entry → Entry} (hg : ∀ e, (g e).order = e.order) (s : State) :
    updateEntry n f (updateEntry n g s) = updateEntry n (fun e => f (g e)) s := by
  simp only [updateEntry, mapEntries, List.map_map]
  refine congrArg (fun l => { s with ret.entries := l }) (List.map_congr_left fun e _ => ?_)
  simp only [Function.comp_apply]
  by_cases h : e.order = n
  · rw [if_pos h, if_pos ((hg e).trans h), if_pos h]
  · rw [if_neg h, if_neg h, if_neg h]

theorem updateSet_updateSet {n : SetName} {f g : SetRec → SetRec} (hg : ∀ r, (g r).name = r.name) (s : State) :
    updateSet n f (updateSet n g s) = updateSet n (fun r => f (g r)) s := by
  simp only [updateSet, List.map_map]
  refine congrArg (fun l => { s with sets.records := l }) (List.map_congr_left fun r _ => ?_)
  simp only [Function.comp_apply]
  by_cases h : r.name = n
  · rw [if_pos h, if_pos ((hg r).trans h), if_pos h]
  · rw [if_neg h, if_neg h, if_neg h]

theorem updateSet_id (n : SetName) (s : State) : updateSet n (fun r => r) s = s := by
  simp only [updateSet, ite_self, List.map_id']

/-! ### The entry of a delivered sheet -/

/-- The record freed, and the entry of its sheet turned to `st` without its tag (R51, R62). -/
def turned (tag : Tag) (n : OrderNo) (st : EntryState) (s : State) : State :=
  updateEntry n (fun e => { e with state := st, tag := none }) (freeRecord tag s)

section
variable {tag : Tag} {n : OrderNo} {s : State}

theorem turned_eq (st : EntryState) :
    turned tag n st s = { freeRecord tag s with
      ret.entries := s.ret.entries.map fun x => if x.order = n then { x with state := st, tag := none } else x } := rfl

theorem updateEntry_untagged (st : EntryState) :
    updateEntry n (fun e => { e with state := st }) (updateEntry n (fun e => { e with tag := none }) (freeRecord tag s)) =
      turned tag n st s :=
  updateEntry_updateEntry (g := fun e => { e with tag := none }) (fun _ => rfl) _

theorem updateEntry_turned (st st' : EntryState) :
    updateEntry n (fun e => { e with state := st' }) (turned tag n st s) = turned tag n st' s :=
  updateEntry_updateEntry (g := fun e => { e with state := st, tag := none }) (fun _ => rfl) _

theorem findSet_turned (st : EntryState) (name : SetName) : findSet (turned tag n st s) name = findSet s name := rfl

end

section
variable {tag : Tag} {r : TrackRec} {e : Entry} {s : State} (hr : s.trk.table[tag] = some r) (he : findEntry s r.order = some e)

include he in
theorem order_of_findEntry : e.order = r.order := by
  simpa using List.find?_some he

include hr he in
theorem deliver_eq :
    deliver tag s = removeHeads (deliverEntry e (s.tables.bins[(followedRoute s.tables r).bin]).kind
      (updateEntry r.order (fun e => { e with tag := none }) (freeRecord tag s))) := by
  have hfreed : findEntry (freeRecord tag s) r.order = some e := he
  simp only [deliver, hr, hfreed]

variable {kind : BinKind}

include he in
theorem deliverEntry_committed (hmark : e.mark = none ∨ e.mark = some .salvage) (hkind : kind = .stack) :
    deliverEntry e kind (updateEntry r.order (fun e => { e with tag := none }) (freeRecord tag s)) =
      offerEvent .commit s.pos.p none (some r.order) 0 (turned tag r.order .committed s) := by
  subst hkind
  have hcommit : deliverEntry e .stack (updateEntry r.order (fun e => { e with tag := none }) (freeRecord tag s)) =
      commitEntry e.order 0 (updateEntry r.order (fun e => { e with tag := none }) (freeRecord tag s)) := by
    rcases hmark with hmark | hmark <;> simp only [deliverEntry, hmark]
  rw [hcommit, commitEntry, order_of_findEntry he, updateEntry_untagged]
  rfl

include he in
theorem deliverEntry_wasteDivert (hmark : e.mark = some .wasteDivert) :
    deliverEntry e kind (updateEntry r.order (fun e => { e with tag := none }) (freeRecord tag s)) =
      turned tag r.order .reprint s := by
  simp only [deliverEntry, hmark]
  rw [order_of_findEntry he, updateEntry_untagged]

include he in
theorem deliverEntry_wasteAtStack (hmark : e.mark = some .wasteAtDest) (hkind : kind = .stack) :
    deliverEntry e kind (updateEntry r.order (fun e => { e with tag := none }) (freeRecord tag s)) =
      turned tag r.order .reprint s := by
  subst hkind
  simp only [deliverEntry, hmark]
  rw [order_of_findEntry he, updateEntry_untagged]

variable {name : SetName} (hname : entrySet s.tables e = some name)
include he hname

theorem deliverEntry_wasteAtSet (hmark : e.mark = some .wasteAtDest) (hkind : kind = .set) :
    deliverEntry e kind (updateEntry r.order (fun e => { e with tag := none }) (freeRecord tag s)) =
      deliverToSet name r.order true (turned tag r.order .reprint s) := by
  subst hkind
  have hset : entrySet (updateEntry r.order (fun e => { e with tag := none }) (freeRecord tag s)).tables e = some name := hname
  simp only [deliverEntry, hmark, hset]
  rw [order_of_findEntry he, updateEntry_untagged]

theorem deliverEntry_set (hmark : e.mark = none ∨ e.mark = some .salvage) (hkind : kind = .set) :
    deliverEntry e kind (updateEntry r.order (fun e => { e with tag := none }) (freeRecord tag s)) =
      deliverToSet name r.order false (turned tag r.order .delivered s) := by
  subst hkind
  have hset : entrySet (updateEntry r.order (fun e => { e with tag := none }) (freeRecord tag s)).tables e = some name := hname
  rcases hmark with hmark | hmark <;>
  · simp only [deliverEntry, hmark, hset]
    rw [order_of_findEntry he, updateEntry_untagged]

end

/-! ### What the Set Monitor makes of it -/

section
variable {name : SetName} {n : OrderNo} {m : SetRec} {s : State} (hm : findSet s name = some m)
include hm

theorem deliverToSet_counted (hstate : m.state = .opened) (h : m.cancelled = false ∨ m.rebuilt = true) :
    deliverToSet name n false s = updateSet name (countDelivery s) s := by
  have hnot : withdraws m = false := by rcases h with h | h <;> simp [withdraws, h]
  simp only [deliverToSet, hm, hstate, hnot, Bool.false_eq_true, if_false]

theorem deliverToSet_voided (hstate : m.state = .voided) : deliverToSet name n false s = withdrawDelivered m n s := by
  simp only [deliverToSet, hm, hstate]

theorem deliverToSet_voids (h : m.state = .done ∨ (m.state = .opened ∧ m.cancelled = true ∧ m.rebuilt = false)) :
    deliverToSet name n false s = queueSetVoidOutsidePurge name (becomeVoided name (withdrawDelivered m n s)) := by
  rcases h with h | ⟨h, hcancelled, hrebuilt⟩
  · simp only [deliverToSet, hm, h]
  · simp [deliverToSet, hm, h, withdraws, hcancelled, hrebuilt]

theorem deliverToSet_complete (hstate : m.state = .completeAwaiting) : deliverToSet name n false s = s := by
  simp only [deliverToSet, hm, hstate]

theorem deliverToSet_waste (hstate : m.state ≠ .done) : deliverToSet name n true s = s := by
  cases h : m.state with
  | done => exact absurd h hstate
  | opened | completeAwaiting | voided => simp only [deliverToSet, hm, h]

theorem deliverToSet_wasteDone (hstate : m.state = .done) :
    deliverToSet name n true s = queueSetVoidOutsidePurge name (becomeVoided name s) := by
  simp only [deliverToSet, hm, hstate]

end

/-- The member count of a cancelled set falls with a member withdrawn at its delivery (R141). -/
def SetRec.fewer (m x : SetRec) : SetRec := if m.cancelled then { x with members := x.members - 1 } else x

theorem SetRec.fewer_name (m x : SetRec) : (m.fewer x).name = x.name := by
  simp only [SetRec.fewer]
  split <;> rfl

theorem becomeVoided_updateSet {name : SetName} {f : SetRec → SetRec} (hf : ∀ r, (f r).name = r.name) {s : State} :
    becomeVoided name (updateSet name f s) =
      { updateSet name (fun r => { f r with state := .voided, deadline := none }) s with
        sets.voidOrder := s.sets.voidOrder ++ [name] } := by
  simp only [becomeVoided]
  rw [updateSet_updateSet hf]
  rfl

theorem withdrawDelivered_turned {tag : Tag} {n : OrderNo} {m : SetRec} {s : State} (st : EntryState) :
    withdrawDelivered m n (turned tag n st s) =
      updateSet m.name m.fewer (turned tag n (if m.cancelled then .skipped else .reprint) s) := by
  by_cases h : m.cancelled = true
  · have hfewer : m.fewer = fun x => { x with members := x.members - 1 } := funext fun x => if_pos h
    rw [withdrawDelivered, if_pos h, if_pos h, updateEntry_turned, hfewer]
  · have hfewer : m.fewer = fun x => x := funext fun x => if_neg h
    rw [withdrawDelivered, if_neg h, if_neg h, updateEntry_turned, hfewer, updateSet_id]

theorem queueSetVoidOutsidePurge_eq (n : SetName) (s : State) :
    queueSetVoidOutsidePurge n s = { s with
      link.pathControl := if s.sup.state = .purging then s.link.pathControl else s.link.pathControl ++ [.setVoid n] } := by
  simp only [queueSetVoidOutsidePurge]
  split <;> rfl

/-! ### The head of the queue, and the record freed -/

theorem removeHeads_split {front back : List Entry} {s : State} (hentries : s.ret.entries = front ++ back)
    (hfront : ∀ e ∈ front, e.state = .committed ∨ e.state = .skipped)
    (hback : ∀ e, back.head? = some e → e.state ≠ .committed ∧ e.state ≠ .skipped) :
    removeHeads s = creditIfChanged (creditContent s.ret) { s with ret.entries := back } := by
  have hdrop : s.ret.entries.dropWhile (fun e => e.state = .committed || e.state = .skipped) = back := by
    rw [hentries, List.dropWhile_append_of_pos fun e he => by simpa using hfront e he]
    rcases back with _ | ⟨e, rest⟩
    · rfl
    · obtain ⟨hcommitted, hskipped⟩ := hback e rfl
      exact List.dropWhile_cons_of_neg (by simp [hcommitted, hskipped])
  simp only [removeHeads, hdrop]

/-- The tracker without the record of a tag, before the stall timer follows (R62). -/
def untracked (tag : Tag) (s : State) : State :=
  { s with trk.table := s.trk.table.set tag none
           trk.lists := tabulate fun st => (s.trk.lists[st]).filter fun x => x.tag ≠ tag
           trk.slots := tabulate fun st => (s.trk.slots[st]).filter fun o => o.tag ≠ tag }

theorem freeRecord_untracked (tag : Tag) (s : State) : freeRecord tag s = syncStall false (untracked tag s) := by
  have hslots : (fun st : Station => match s.trk.slots[st] with
      | some o => if o.tag = tag then none else some o
      | none => none) = fun st : Station => (s.trk.slots[st]).filter fun o => o.tag ≠ tag := by
    funext st
    rcases s.trk.slots[st] with _ | o
    · rfl
    · by_cases h : o.tag = tag <;> simp [Option.filter, h]
  exact congrArg (fun f => syncStall false { s with
    trk.table := s.trk.table.set tag none
    trk.lists := tabulate fun st => (s.trk.lists[st]).filter fun x => x.tag ≠ tag
    trk.slots := tabulate f }) hslots

theorem untracked_station (tag : Tag) (s : State) (st : Station) :
    (untracked tag s).trk.lists[st] = (s.trk.lists[st]).filter (fun x => x.tag ≠ tag) ∧
    (untracked tag s).trk.slots[st] = (s.trk.slots[st]).filter fun o => o.tag ≠ tag :=
  ⟨tabulate_getElem _ _ st.isLt, tabulate_getElem _ _ st.isLt⟩

/-- Settles O48. -/
theorem deliverySettlesTheEntry : Obligations.DeliverySettlesTheEntry := by
  refine ⟨fun tag r e s hr he => ?_, fun tag r e n m s hr he hkind hset => ?_, fun front back s hentries hfront hback => ?_,
    fun tag s => ⟨untracked tag s, freeRecord_untracked tag s, rfl, untracked_station tag s⟩⟩
  · intro kind freed turned'
    refine ⟨fun hmark hstack => ?_, fun hmark => ?_, fun hmark hstack => ?_, ?_, fun st => ?_⟩
    · rw [deliver_eq hr he, deliverEntry_committed he hmark hstack]
      rfl
    · rw [deliver_eq hr he, deliverEntry_wasteDivert he hmark]
      rfl
    · rw [deliver_eq hr he, deliverEntry_wasteAtStack he hmark hstack]
      rfl
    · exact Vector.getElem_set_self _
    · obtain ⟨hlists, hslots⟩ := untracked_station tag s st
      have hfreed : freed = syncStall false (untracked tag s) := freeRecord_untracked tag s
      rw [hfreed, show (syncStall false (untracked tag s)).trk = (untracked tag s).trk from rfl, hlists, hslots]
      refine ⟨fun x hx => by simpa using (List.mem_filter.1 hx).2, fun o ho => ?_⟩
      simpa using (Option.filter_eq_some_iff.1 ho).2
  · intro name hm entries records fewer withdrawn voids frames freed
    have hname : entrySet s.tables e = some name := by rw [entrySet, hset]; rfl
    have hm' (st : EntryState) : findSet (turned tag r.order st s) name = some m := hm
    have hmName : m.name = name := by simpa using List.find?_some hm
    refine ⟨fun hmark => ⟨fun hstate h => ?_, fun hstate => ?_, fun h => ?_, fun hstate => ?_⟩, fun hmark => ⟨fun hstate => ?_, fun hstate => ?_⟩⟩
    · rw [deliver_eq hr he, deliverEntry_set he hname hmark hkind, deliverToSet_counted (hm' _) hstate h]
      rfl
    · rw [deliver_eq hr he, deliverEntry_set he hname hmark hkind, deliverToSet_voided (hm' _) hstate, withdrawDelivered_turned, hmName]
      rfl
    · rw [deliver_eq hr he, deliverEntry_set he hname hmark hkind, deliverToSet_voids (hm' _) h, withdrawDelivered_turned, hmName,
        becomeVoided_updateSet (SetRec.fewer_name m), queueSetVoidOutsidePurge_eq]
      rfl
    · rw [deliver_eq hr he, deliverEntry_set he hname hmark hkind, deliverToSet_complete (hm' _) hstate]
      rfl
    · rw [deliver_eq hr he, deliverEntry_wasteAtSet he hname hmark hkind, deliverToSet_waste (hm' _) hstate]
      rfl
    · rw [deliver_eq hr he, deliverEntry_wasteAtSet he hname hmark hkind, deliverToSet_wasteDone (hm' _) hstate,
        queueSetVoidOutsidePurge_eq]
      rfl
  · intro u
    have hremove := removeHeads_split hentries hfront hback
    exact ⟨fun hsame => hremove.trans (if_pos hsame), fun hother => hremove.trans (if_neg hother)⟩

end Sys2Proof.Machine
end


-- ==== Sys2Proof/Proofs/Covers.lean ====
section
/-! SUPPORT. The covers: their pending changes, an opening and a closing (R30, R31, R93). -/

namespace Sys2Proof.Machine

theorem heldFor_some {limit now since : Nat} (h : since + limit ≤ now) : heldFor limit now (some since) = true :=
  decide_eq_true (Nat.le_sub_of_add_le' h)

section
variable {c : Cover} {s : State} {x : CoverSense} (hx : s.front.covers[c] = x)
include hx

theorem exec_coverRawChange {y : Option Nat} (hy : linePending (!x.rawClosed) x.closed x.pending s.pos.clock = y) :
    exec (.coverRawChange c) s =
      .next (finish (coverSettled c (setCover c { x with rawClosed := !x.rawClosed, pending := y } s))) := by
  subst hx hy
  rfl


theorem coverHeld_of {since : Nat} {level : Bool} (hpending : x.pending = some since)
    (hlong : since + 120000 ≤ s.pos.clock) (hraw : x.rawClosed = level) (hclosed : x.closed ≠ level) :
    coverHeld c level s = true := by
  have hheld : heldFor (5 * clkMs) s.pos.clock x.pending = true := hpending ▸ heldFor_some hlong
  simp only [coverHeld, hx, hheld, hraw, hclosed, decide_true, Bool.and_self, ne_eq, not_false_eq_true]

end

theorem openingMatters_iff (c : Cover) (s : State) :
    openingMatters c s = true ↔ trackingEmpty s = false ∨ s.sup.state = .running ∨ s.sup.state = .purging ∨
      (s.sup.state = .stopping ∧ c ∈ s.reached.covers) := by
  simp only [openingMatters, coverMatters, Bool.or_eq_true, Bool.and_eq_true, Bool.not_eq_true', decide_eq_true_iff,
    List.contains_iff_mem, or_assoc]

section
variable {c : Cover} {s : State}

theorem exec_coverOpen_raises (hheld : coverHeld c false s = true) (h : openingMatters c s = true) :
    exec (.coverOpen c) s =
      .next (finish (takeCause (coverCause s c) (coverSettled c (acceptCover c s)))) :=
  (if_pos hheld).trans (congrArg (fun t => Host.Outcome.next (finish t)) (if_pos h))

theorem exec_coverOpen_quiet (hheld : coverHeld c false s = true) (h : ¬openingMatters c s = true) :
    exec (.coverOpen c) s = .next (finish (coverSettled c (acceptCover c s))) :=
  (if_pos hheld).trans (congrArg (fun t => Host.Outcome.next (finish t)) (if_neg h))

theorem exec_coverClosed (hheld : coverHeld c true s = true) :
    exec (.coverClosed c) s = .next (finish (acceptCover c s)) :=
  if_pos hheld

end

/-- Settles O50. -/
theorem coversAreQualifiedAndWatched : Obligations.CoversAreQualifiedAndWatched := by
  intro c s x sensed settled
  have hx : s.front.covers[c] = x := rfl
  refine ⟨fun heq hnone => exec_coverRawChange hx ?_, fun hne => exec_coverRawChange hx ?_, fun since hsince hlong => ?_⟩
  · rw [linePending_eq, if_neg (by simp [heq]), hnone, Option.getD_none]
  · rw [linePending_eq, if_pos (by rw [Bool.eq_not_of_ne hne, Bool.not_not])]
  · intro u raises
    refine ⟨fun hraw hclosed hraises => ?_, fun hraw hclosed hquiet => ?_, fun hraw hclosed => ?_⟩
    · exact exec_coverOpen_raises (coverHeld_of hx hsince hlong hraw (by simp [hclosed])) ((openingMatters_iff c s).2 hraises)
    · exact exec_coverOpen_quiet (coverHeld_of hx hsince hlong hraw (by simp [hclosed])) (mt (openingMatters_iff c s).1 hquiet)
    · exact exec_coverClosed (coverHeld_of hx hsince hlong hraw (by simp [hclosed]))

end Sys2Proof.Machine
end


-- ==== Sys2Proof/Proofs/Expiries.lean ====
section
/-! SUPPORT. When a LATE or STUCK expiry is due and what taking it does, and the stall (R23, R58, R75 to R77, R92). -/

namespace Sys2Proof.Machine

/-! ### What is due -/

theorem watchesActed_iff (x : PartState) :
    watchesActed x = true ↔ x = .idle ∨ x = .standby ∨ x = .running ∨ x = .speedChange ∨ x = .held ∨ x = .purging := by
  cases x <;> simp [watchesActed]

theorem deferred_iff (s : State) (st : Station) (toCovered : Bool) (bound : Pos) :
    deferred s st toCovered bound = true ↔
      (∃ c, (s.front.stations[st]).pending = some c ∧ c.toCovered = toCovered ∧ 0 ≤ (bound - c.p).toInt) ∨
      (s.sup.state = .standby ∧ ∃ p, (s.front.stations[st]).sample = some p ∧ (s.front.stations[st]).qual ≠ toCovered ∧
        0 ≤ (bound - p).toInt) := by
  rw [deferred, Bool.or_eq_true]
  refine or_congr ?_ ?_
  · rcases (s.front.stations[st]).pending with _ | c <;> simp [atOrBeyond_iff]
  · rcases (s.front.stations[st]).sample with _ | p <;> simp [atOrBeyond_iff, and_assoc]

theorem watchDue_iff (s : State) (st : Station) (toCovered : Bool) (bound : Pos) :
    watchDue s st toCovered bound = true ↔
      watchesActed s.sup.state = true ∧ 0 ≤ (s.pos.p - (bound + 1)).toInt ∧ ¬deferred s st toCovered bound = true := by
  rw [watchDue, watchReached, Bool.and_eq_true, Bool.and_eq_true, atOrBeyond_iff, Bool.not_eq_true', Bool.not_eq_true,
    and_assoc]

theorem joinsStop_iff {α : Type} [DecidableEq α] (s : State) (watches : List (Station × α)) (st : Station) (x : α) :
    joinsStop s watches st x = true ↔ s.sup.state = .stopping ∧ (st, x) ∈ watches := by
  simp only [joinsStop, Bool.and_eq_true, decide_eq_true_iff]

theorem lateDue_iff (s : State) (st : Station) :
    lateDue s st = true ↔ ∃ x rest, s.trk.lists[st] = x :: rest ∧ x.spent = false ∧
      (watchDue s st true x.late = true ∨ joinsStop s s.reached.late st x = true) := by
  rw [lateDue]
  rcases s.trk.lists[st] with _ | ⟨x, rest⟩
  · simp
  · simp only [Bool.and_eq_true, Bool.or_eq_true, Bool.not_eq_true']
    exact ⟨fun h => ⟨x, rest, rfl, h⟩, fun ⟨y, _, hy, h⟩ => by obtain ⟨rfl, -⟩ := List.cons.inj hy; exact h⟩

theorem stuckDue_iff (s : State) (st : Station) :
    stuckDue s st = true ↔ ∃ o, s.trk.slots[st] = some o ∧ o.spent = false ∧
      (watchDue s st false o.offLate = true ∨ joinsStop s s.reached.stuck st o = true) := by
  rw [stuckDue]
  rcases s.trk.slots[st] with _ | o
  · simp
  · simp only [Bool.and_eq_true, Bool.or_eq_true, Bool.not_eq_true', Option.some.injEq, exists_eq_left']

theorem stallDue_iff (s : State) :
    stallDue s = true ↔
      (∃ since, s.pos.stallTimer = .running since ∧ stallLimit s * 240000 ≤ s.pos.clock - since) ∨
      (s.sup.state = .stopping ∧ s.reached.stall = true) := by
  have hlimit (since : Nat) : decide (stallLimit s * (10 * clkMs) ≤ s.pos.clock - since) = true ↔
      stallLimit s * 240000 ≤ s.pos.clock - since := decide_eq_true_iff
  rw [stallDue, Bool.or_eq_true, Bool.and_eq_true, decide_eq_true_iff]
  refine or_congr_left ?_
  rcases s.pos.stallTimer with _ | since | _ <;> simp [hlimit]

/-! ### What an expiry does -/

/-- The cause of an expiry at a station. -/
def expiryCause (s : State) (st : Station) (kind : CauseKind) (sheet : OrderNo) : Cause :=
  { kind := kind, station := some st, cover := none, set := none, zones := zoneBit (s.tables.stations[st]).zone,
    sheet := some sheet, pos := s.pos.p }

/-- A LATE expiry of head `x`, the sheet of record `r`. -/
def lateTaken (st : Station) (x : Expectation) (rest : List Expectation) (r : TrackRec) (s : State) : State :=
  takeCause (expiryCause s st .late r.order) (offerEvent .expiry s.pos.p (some st) (some r.order) 0 { s with
    reached.late := s.reached.late.filter fun w => decide (w ≠ (st, x))
    trk.lists := s.trk.lists.set st ({ x with spent := true } :: rest) })

/-- A STUCK expiry of occupant `o`, the sheet of record `r`. -/
def stuckTaken (st : Station) (o : Occupant) (r : TrackRec) (s : State) : State :=
  takeCause (expiryCause s st .stuck r.order) (offerEvent .expiry s.pos.p (some st) (some r.order) 1 { s with
    reached.stuck := s.reached.stuck.filter fun w => decide (w ≠ (st, o))
    trk.slots := s.trk.slots.set st (some { o with spent := true }) })

section
variable {st : Station} {s : State} {r : TrackRec}

theorem takeLate_of {x : Expectation} {rest : List Expectation} (hlist : s.trk.lists[st] = x :: rest)
    (hr : s.trk.table[x.tag] = some r) : takeLate st s = lateTaken st x rest r s := by
  have hsheet : sheetOf s x.tag = some r.order := by rw [sheetOf, hr]; rfl
  simp only [takeLate, hlist, hsheet, takeReports, List.foldl_cons, List.foldl_nil, trackerCause, stationZone]
  rw [offerEvent_frame .. |>.2.2.1] <;> rfl

theorem takeStuck_of {o : Occupant} (hslot : s.trk.slots[st] = some o) (hr : s.trk.table[o.tag] = some r) :
    takeStuck st s = stuckTaken st o r s := by
  have hsheet : sheetOf s o.tag = some r.order := by rw [sheetOf, hr]; rfl
  simp only [takeStuck, hslot, hsheet, takeReports, List.foldl_cons, List.foldl_nil, trackerCause, stationZone]
  rw [offerEvent_frame .. |>.2.2.1] <;> rfl

theorem takeDueExpiries_late (hlate : lateDue s st = true) (hstuck : stuckDue (takeLate st s) st = false) :
    takeDueExpiries st s = takeLate st s := by
  simp [takeDueExpiries, hlate, hstuck]

theorem takeDueExpiries_both (hlate : lateDue s st = true) (hstuck : stuckDue (takeLate st s) st = true) :
    takeDueExpiries st s = takeStuck st (takeLate st s) := by
  simp [takeDueExpiries, hlate, hstuck]

theorem takeDueExpiries_stuck (hlate : lateDue s st = false) (hstuck : stuckDue s st = true) :
    takeDueExpiries st s = takeStuck st s := by
  simp [takeDueExpiries, hlate, hstuck]

theorem takeDueExpiries_none (hlate : lateDue s st = false) (hstuck : stuckDue s st = false) : takeDueExpiries st s = s := by
  simp [takeDueExpiries, hlate, hstuck]

end

theorem afterEvent_eq (x : StallTimer) : x.afterEvent = if x = .stopped then .stopped else .waiting := by
  cases x <;> rfl

/-- Settles O51. -/
theorem expiriesReportLateStuckAndStall : Obligations.ExpiriesReportLateStuckAndStall := by
  refine ⟨fun st s => ⟨?_, ?_⟩, fun st s => ?_, fun s => ⟨stallDue_iff s, fun h => ?_⟩⟩
  · simp only [lateDue_iff, watchDue_iff, watchesActed_iff, deferred_iff, joinsStop_iff]
  · simp only [stuckDue_iff, watchDue_iff, watchesActed_iff, deferred_iff, joinsStop_iff]
  · intro report takesLate takesStuck
    refine ⟨fun x rest r hlist hr hlate => ?_, doneIf_of_false (s := s) (t := takeLate st s), fun o r hslot hr hstuck => ?_,
      doneIf_of_false (s := s) (t := takeStuck st s), takeDueExpiries_none⟩
    · have htake : takeLate st s = takesLate x rest r := takeLate_of hlist hr
      refine ⟨(if_pos hlate).trans (by rw [htake]; rfl), fun hstuck => ?_, fun o q hslot hq hstuck => ?_⟩
      · exact (takeDueExpiries_late hlate (htake ▸ hstuck)).trans htake
      · rw [takeDueExpiries_both hlate (htake ▸ hstuck), takeStuck_of (o := o) (r := q) (by simpa using hslot) (by simpa using hq),
          stuckTaken, expiryCause, htake]
        simp [takesStuck, takesLate, report]
    · have htake : takeStuck st s = takesStuck o r s := takeStuck_of hslot hr
      exact ⟨(if_pos hstuck).trans (by rw [htake]; rfl), fun hlate => (takeDueExpiries_stuck hlate hstuck).trans htake⟩
  · exact (if_pos h).trans (by rw [afterEvent_eq]; rfl)

end Sys2Proof.Machine
end


-- ==== Sys2Proof/Proofs/StandbySampling.lean ====
section
/-! SUPPORT. The emitter pulse and the sampling of the stations in STANDBY (R27, R28, R69, R77, R189). -/

namespace Sys2Proof.Machine

/-! ### The pulse -/

theorem exec_emitPulse {s : State} (hstate : s.sup.state = .standby) (hemit : s.front.emit = false)
    (hdue : s.front.emitFrom + 480000 ≤ s.pos.clock) :
    exec .emitPulse s = .next (finish { s with front.emit := true, front.emitFrom := s.pos.clock }) := by
  have htime : decide (20 * clkMs ≤ s.pos.clock - s.front.emitFrom) = true :=
    decide_eq_true (show 20 * 24000 ≤ s.pos.clock - s.front.emitFrom by omega)
  exact if_pos (by simp only [hstate, hemit, htime, decide_true, Bool.not_false, Bool.and_self])

theorem exec_standbySample (order : List Station) {s : State} (hstate : s.sup.state = .standby) (hemit : s.front.emit = true)
    (hdue : s.front.emitFrom + 12000 ≤ s.pos.clock) :
    exec (.standbySample order) s = .next (finish (handSampled ((samplingOrder order).filterMap (sampledEdge s))
      (((samplingOrder order).filter (dropsSample s)).foldl (fun s st => takeDueExpiries st s) (sampleAll s)))) := by
  have htime : decide (10 * clk50us ≤ s.pos.clock - s.front.emitFrom) = true :=
    decide_eq_true (show 10 * 1200 ≤ s.pos.clock - s.front.emitFrom by omega)
  exact if_pos (by simp only [hstate, hemit, htime, decide_true, Bool.and_self])

/-! ### One sample of every station -/

theorem sampled_eq (p : Pos) (x : StationSense) :
    x.sampled p = if x.raw = x.qual then { x with sample := none }
      else if x.sample = none then { x with sample := some p } else { x with qual := x.raw, sample := none } := by
  rw [StationSense.sampled]
  split
  · rfl
  · rcases x.sample <;> rfl

theorem sampleAll_station (s : State) (st : Station) :
    (sampleAll s).front.stations[st] =
      if (s.tables.stations[st]).defined then (s.front.stations[st]).sampled s.pos.p else s.front.stations[st] :=
  tabulate_getElem _ _ st.isLt

theorem sampleAll_eq (s : State) :
    sampleAll s = { s with
      front.emit := false
      front.stations := tabulate fun st =>
        if (s.tables.stations[st]).defined = true then
          (if (s.front.stations[st]).raw = (s.front.stations[st]).qual then { s.front.stations[st] with sample := none }
           else if (s.front.stations[st]).sample = none then { s.front.stations[st] with sample := some s.pos.p }
           else { s.front.stations[st] with qual := (s.front.stations[st]).raw, sample := none })
        else s.front.stations[st] } := by
  simp only [sampleAll, sampled_eq]

theorem samplingOrder_eq (order : List Station) :
    samplingOrder order = order ++ (List.finRange 16).filter fun st => decide (st ∉ order) := by
  simp [samplingOrder]

/-- A first differing sample is dropped by the sample that follows it. -/
theorem dropsSample_iff (s : State) (st : Station) :
    dropsSample s st = true ↔ (s.tables.stations[st]).defined = true ∧
      (s.front.stations[st]).raw = (s.front.stations[st]).qual ∧ (s.front.stations[st]).sample ≠ none := by
  simp only [dropsSample, Bool.and_eq_true, decide_eq_true_iff, Option.isSome_iff_ne_none, and_assoc, and_congr_right_iff]
  exact fun _ => and_comm

/-- The edge of a station is the one that its second differing sample in a row accepts. -/
theorem sampledEdge_eq (s : State) (st : Station) :
    sampledEdge s st =
      if (s.tables.stations[st]).defined = true ∧ (s.front.stations[st]).raw ≠ (s.front.stations[st]).qual ∧
        (s.front.stations[st]).sample ≠ none then
        some (st, (s.front.stations[st]).raw, (s.front.stations[st]).sample.getD 0)
      else none := by
  simp only [sampledEdge]
  rcases (s.front.stations[st]).sample with _ | p
  · simp
  · simp [bne_iff_ne]

theorem filterMap_ite {α β : Type} (p : α → Prop) [DecidablePred p] (f : α → β) (l : List α) :
    l.filterMap (fun a => if p a then some (f a) else none) = (l.filter fun a => decide (p a)).map f := by
  induction l with
  | nil => rfl
  | cons a l ih => by_cases h : p a <;> simp [h, ih]

/-- Handing the accepted edges on is a fold over the stations that have one. -/
theorem handSampled_eq (sts : List Station) (s u : State) :
    handSampled (sts.filterMap (sampledEdge s)) u =
      (sts.filter fun st => decide ((s.tables.stations[st]).defined = true ∧
        (s.front.stations[st]).raw ≠ (s.front.stations[st]).qual ∧ (s.front.stations[st]).sample ≠ none)).foldl
        (fun v st => handSample v (st, (s.front.stations[st]).raw, (s.front.stations[st]).sample.getD 0)) u := by
  rw [funext (sampledEdge_eq s), filterMap_ite, handSampled, List.foldl_map]

/-! ### What the edges and the expiries leave unchanged -/

/-- The raw and the qualified level of a station. -/
def HasLevels (st : Station) (raw qual : Bool) (u : State) : Prop :=
  (u.front.stations[st]).raw = raw ∧ (u.front.stations[st]).qual = qual

theorem sharedKeep_hasLevels (st : Station) (raw qual : Bool) : SharedKeep (HasLevels st raw qual) where
  same hsame h := by rwa [HasLevels, hsame.2.1]
  serviceNotice n u h := by simpa [HasLevels] using h
  enterState next u h := by
    have hlevels := enterState_raw_qual next u st
    exact ⟨hlevels.1.trans h.1, hlevels.2.trans h.2⟩
  lists _ _ _ h := h
  causes _ _ _ h := h
  deferred _ _ _ h := h
  records _ _ _ h := h
  opened _ _ _ _ h := h
  formed _ _ _ h := h
  closed _ _ _ h := h

theorem handSampled_raw_qual (edges : List (Station × Bool × Pos)) (dropped : List Station) (u : State) (st : Station) :
    let t := handSampled edges (dropped.foldl (fun s st => takeDueExpiries st s) u)
    (t.front.stations[st]).raw = (u.front.stations[st]).raw ∧ (t.front.stations[st]).qual = (u.front.stations[st]).qual := by
  have hI := sharedKeep_hasLevels st (u.front.stations[st]).raw (u.front.stations[st]).qual
  have hstart : HasLevels st (u.front.stations[st]).raw (u.front.stations[st]).qual u := ⟨rfl, rfl⟩
  have hdropped := SharedKeep.fold _ (fun v x hv => hI.takeDueExpiries x hv) dropped hstart
  exact SharedKeep.fold handSample (fun v x hv => hI.handEdge _ _ _ (hI.offerEvent _ _ _ _ _ hv)) edges hdropped

theorem foldl_same_tables_p {α : Type} (f : State → α → State)
    (hf : ∀ u a, (f u a).tables = u.tables ∧ (f u a).pos.p = u.pos.p) (l : List α) (u : State) :
    (l.foldl f u).tables = u.tables ∧ (l.foldl f u).pos.p = u.pos.p := by
  induction l generalizing u with
  | nil => exact ⟨rfl, rfl⟩
  | cons a l ih => exact ⟨(ih _).1.trans (hf u a).1, (ih _).2.trans (hf u a).2⟩

theorem handSampled_tables_p (edges : List (Station × Bool × Pos)) (dropped : List Station) (u : State) :
    let t := handSampled edges (dropped.foldl (fun s st => takeDueExpiries st s) u)
    t.tables = u.tables ∧ t.pos.p = u.pos.p := by
  have hedges := foldl_same_tables_p handSample (fun u x => by simp [handSample]) edges
    (dropped.foldl (fun s st => takeDueExpiries st s) u)
  have hdropped := foldl_same_tables_p (fun s st => takeDueExpiries st s) (fun u x => by simp) dropped u
  exact ⟨hedges.1.trans hdropped.1, hedges.2.trans hdropped.2⟩

/-! ### What a sample finds -/

theorem sampled_raw_qual (p : Pos) (x : StationSense) :
    (x.sampled p).raw = x.raw ∧ (x.sampled p).qual = if x.sample.isSome then x.raw else x.qual := by
  rw [sampled_eq]
  by_cases h : x.raw = x.qual
  · simp [h]
  · rcases x.sample <;> simp [h]

theorem sampleAll_raw_qual (s : State) (st : Station) :
    ((sampleAll s).front.stations[st]).raw = (s.front.stations[st]).raw ∧
    ((sampleAll s).front.stations[st]).qual =
      if (s.tables.stations[st]).defined ∧ (s.front.stations[st]).sample.isSome then (s.front.stations[st]).raw
      else (s.front.stations[st]).qual := by
  rw [sampleAll_station]
  by_cases h : (s.tables.stations[st]).defined = true
  · rw [if_pos h]
    simp only [h, true_and]
    exact sampled_raw_qual s.pos.p s.front.stations[st]
  · rw [if_neg h, if_neg (mt And.left h)]
    exact ⟨rfl, rfl⟩

section
variable {s : State} (hnone : ∀ st : Station, (s.tables.stations[st]).defined = true → (s.front.stations[st]).sample = none)
include hnone

/-- With no differing sample held, a sample settles nothing and accepts nothing. -/
theorem handSampled_nothing (sts : List Station) (u : State) :
    handSampled (sts.filterMap (sampledEdge s))
      ((sts.filter (dropsSample s)).foldl (fun s st => takeDueExpiries st s) u) = u := by
  have hdrops : sts.filter (dropsSample s) = [] :=
    List.filter_eq_nil_iff.2 fun st _ h => ((dropsSample_iff s st).1 h).2.2 (hnone st ((dropsSample_iff s st).1 h).1)
  have hedges : sts.filterMap (sampledEdge s) = [] :=
    List.filterMap_eq_nil_iff.2 fun st _ => (sampledEdge_eq s st).trans (if_neg fun h => h.2.2 (hnone st h.1))
  rw [hdrops, hedges]
  rfl

theorem sampleAll_first (st : Station) :
    (sampleAll s).front.stations[st] =
      if (s.tables.stations[st]).defined ∧ (s.front.stations[st]).raw ≠ (s.front.stations[st]).qual
        then { s.front.stations[st] with sample := some s.pos.p } else s.front.stations[st] := by
  rw [sampleAll_station]
  by_cases hdefined : (s.tables.stations[st]).defined = true
  · have hsample := hnone st hdefined
    rw [if_pos hdefined, sampled_eq]
    by_cases h : (s.front.stations[st]).raw = (s.front.stations[st]).qual
    · rw [if_pos h, if_neg fun hne => hne.2 h, ← hsample]
    · rw [if_neg h, if_pos hsample, if_pos ⟨hdefined, h⟩]
  · rw [if_neg hdefined, if_neg fun h => hdefined h.1]

end

/-- Settles O49. -/
theorem standbySamplesTheStations : Obligations.StandbySamplesTheStations := by
  refine ⟨fun s => exec_emitPulse, fun order s hstate hemit hdue => ?_, fun st p v => ⟨fun hstate hempty hslot => ⟨fun hlist => ?_, ?_⟩,
    fun hstate hnot hslot => ?_, fun hstate hslot => ?_, fun hstate hslot => ?_, fun hstate covered => ?_⟩,
    fun order s hstate hemit hdue => ?_⟩
  · intro sensed isDefined w sts dropped edge handOn
    have hdropped : dropsSample s = dropped := funext fun st => Bool.eq_iff_iff.2 <| by
      rw [dropsSample_iff]
      exact decide_eq_true_iff.symm
    rw [exec_standbySample order hstate hemit hdue, handSampled_eq, sampleAll_eq, hdropped, samplingOrder_eq]
    rfl
  · exact handEdge_foreign (by simp [edgesHanded_iff, hstate]) (isForeignOn_iff.2 ⟨.inr hstate, hempty, hslot, hlist⟩)
  · rw [handEdge_off (by simp [edgesHanded_iff, hstate]), trackOff_quiet hslot (.inr hstate) hempty]
  · rw [handEdge_on (by simp [edgesHanded_iff, hstate]) ?_, settledByOn_emptySlot _ _ _ _ hslot]
    rw [← Bool.not_eq_true, isForeignOn_iff]
    rintro ⟨-, hempty, -, hlist⟩
    exact hnot.elim (fun h => by simp [hempty] at h) (fun h => h hlist)
  · intro w
    have hhand : handEdge st true p v = settledByOn v st p w := by
      rw [handEdge_on (by rcases hstate with h | h <;> simp [edgesHanded_iff, h]) ?_, trackOn_unmatched (.inl hslot)]
      rw [← Bool.not_eq_true, isForeignOn_iff]
      exact fun h => hslot h.2.2.1
    refine ⟨fun hlist => hhand.trans (settledByOn_emptyList hlist), fun x rest hlist => ⟨fun h => ?_, fun h => ?_⟩⟩
    · rw [hhand, settledByOn_head hslot hlist, if_pos h]
    · rw [hhand, settledByOn_head hslot hlist, if_neg (by omega)]
      rfl
  · rw [handEdge_on (by simp [edgesHanded_iff, hstate]) ?_, settledByOn_emptySlot _ _ _ _ hslot]
    rw [← Bool.not_eq_true, isForeignOn_iff, hstate]
    simp
  · exact handEdge_unhanded (by rw [hstate]; rfl)
  · have hkept := handSampled_tables_p ((samplingOrder order).filterMap (sampledEdge s))
      ((samplingOrder order).filter (dropsSample s)) (sampleAll s)
    refine ⟨_, exec_standbySample order hstate hemit hdue, by simpa using hkept.2, by simpa using hkept.1, fun st => ?_,
      fun hnone hgranted => ?_⟩
    · have hlevels := handSampled_raw_qual ((samplingOrder order).filterMap (sampledEdge s))
        ((samplingOrder order).filter (dropsSample s)) (sampleAll s) st
      have hsampled := sampleAll_raw_qual s st
      simp only [finish_frame]
      exact ⟨hlevels.1.trans hsampled.1, hlevels.2.trans hsampled.2⟩
    · rw [handSampled_nothing hnone, finish_unchanged s (sampleAll s) ((granted_iff s).1 hgranted) rfl rfl rfl]
      exact ⟨rfl, sampleAll_first hnone⟩

end Sys2Proof.Machine
end


-- ==== Sys2Proof/Proofs/FinisherReports.lean ====
section
/-! SUPPORT. SET DONE, SET FAULT, SET CLEARED and the set-confirm timer (R94, R96, R131, R142 to R146, R172). -/

namespace Sys2Proof.Machine

/-! ### A finisher report as it is read -/

theorem findSet_some_name {s : State} {n : SetName} {r : SetRec} (h : findSet s n = some r) : r.name = n := by
  simpa using List.find?_some h

theorem findSet_passUp (kind : Byte) (payload : List Byte) (s : State) (n : SetName) :
    findSet (passUp kind payload s) n = findSet s n := by
  simp [findSet]

theorem reportedSet_eq_some_iff {bin set : Byte} {s : State} {r : SetRec} :
    reportedSet bin set s = some r ↔ ∃ b : Bin, bin = byteOf b.val ∧ findSet s { bin := b, set := set } = some r := by
  have hbin (b : Bin) : indexOf 8 bin = some b ↔ bin = byteOf b.val := by
    rw [indexOf_eq_some_iff, ← BitVec.toNat_inj, byteOf_toNat (by omega), eq_comm]
  simp only [reportedSet, setNameOf, Option.bind_eq_some_iff, Option.map_eq_some_iff, hbin]
  exact ⟨fun ⟨_, ⟨b, hb, rfl⟩, hr⟩ => ⟨b, hb, hr⟩, fun ⟨b, hb, hr⟩ => ⟨_, ⟨b, hb, rfl⟩, hr⟩⟩

section
variable {kind bin set : Byte} {act : SetRec → State → Option State} {s : State}

theorem readFinisherReport_starting (h : s.sup.state = .starting) : readFinisherReport kind [bin, set] act s = s :=
  if_pos h

theorem readFinisherReport_acted {b : Bin} {r : SetRec} {t : State} (h : s.sup.state ≠ .starting)
    (hr : findSet s { bin := b, set := set } = some r) (hact : act r s = some t) :
    readFinisherReport kind [byteOf b.val, set] act s = t := by
  have hreported : reportedSet (byteOf b.val) set s = some r := reportedSet_eq_some_iff.2 ⟨b, rfl, hr⟩
  rw [readFinisherReport, if_neg h, hreported, Option.bind_some, hact, Option.getD_some]

theorem readFinisherReport_unexpected (h : s.sup.state ≠ .starting)
    (hact : ∀ b : Bin, bin = byteOf b.val → ∀ r, findSet s { bin := b, set := set } = some r → act r s = none) :
    readFinisherReport kind [bin, set] act s = makeNotice (.unexpectedReport kind bin (set.setWidth 16)) s := by
  have hnone : (reportedSet bin set s).bind (fun r => act r s) = none := by
    rw [Option.bind_eq_none_iff]
    intro r hr
    obtain ⟨b, hb, hfind⟩ := reportedSet_eq_some_iff.1 hr
    exact hact b hb r hfind
  rw [readFinisherReport, if_neg h, hnone, Option.getD_none, unexpectedFinisher]

end

/-! ### A finisher report that is passed up -/

section
variable {kind bin set : Byte} {act : SetRec → State → Option State} {s : State}
  (hc : frameCompletes .lower kind [bin, set] s = true)
include hc

theorem finisherReport_starting (h : s.sup.state = .starting) :
    takeReport kind [bin, set] (readFinisherReport kind [bin, set] act) s = .next (finish (passUp kind [bin, set] s)) := by
  rw [takeReport_eq hc, readFinisherReport_starting (by simpa using h)]

theorem finisherReport_unexpected (h : s.sup.state ≠ .starting)
    (hact : ∀ b : Bin, bin = byteOf b.val → ∀ r, findSet s { bin := b, set := set } = some r →
      act r (passUp kind [bin, set] s) = none) :
    takeReport kind [bin, set] (readFinisherReport kind [bin, set] act) s =
      .next (finish (makeNotice (.unexpectedReport kind bin (set.setWidth 16)) (passUp kind [bin, set] s))) := by
  rw [takeReport_eq hc, readFinisherReport_unexpected (by simpa using h)
    (fun b hb r hr => hact b hb r (by rwa [findSet_passUp] at hr))]

theorem finisherReport_unheld (h : s.sup.state ≠ .starting)
    (hnone : ∀ b : Bin, bin = byteOf b.val → findSet s { bin := b, set := set } = none) :
    takeReport kind [bin, set] (readFinisherReport kind [bin, set] act) s =
      .next (finish (makeNotice (.unexpectedReport kind bin (set.setWidth 16)) (passUp kind [bin, set] s))) :=
  finisherReport_unexpected hc h fun b hb r hr => by simp [hnone b hb] at hr

end

theorem finisherReport_acted {kind set : Byte} {act : SetRec → State → Option State} {s t : State} {b : Bin} {r : SetRec}
    (hc : frameCompletes .lower kind [byteOf b.val, set] s = true) (h : s.sup.state ≠ .starting)
    (hr : findSet s { bin := b, set := set } = some r) (hact : act r (passUp kind [byteOf b.val, set] s) = some t) :
    takeReport kind [byteOf b.val, set] (readFinisherReport kind [byteOf b.val, set] act) s = .next (finish t) := by
  rw [takeReport_eq hc, readFinisherReport_acted (r := r) (by simpa using h) (by rwa [findSet_passUp]) hact]

/-! ### SET FAULT and the set-confirm timer -/

/-- The cause of a finisher fault, and the timer stopped, of a state that agrees with `s` in its tables, place and sets. -/
theorem faultSet_eq {s u : State} (n : SetName) (htables : u.tables = s.tables) (hp : u.pos = s.pos) (hsets : u.sets = s.sets) :
    faultSet n u = takeCause
      { kind := .finisher, station := none, cover := none, set := some n, zones := zoneBit (s.tables.bins[n.bin]).zone,
        sheet := none, pos := s.pos.p }
      { u with sets.records := s.sets.records.map fun x => if x.name = n then { x with deadline := none } else x } := by
  simp only [faultSet, finisherCause, stopConfirm, updateSet, htables, hp, hsets]

theorem confirmDue_of {n : SetName} {s : State} {r : SetRec} {due : Nat} (hr : findSet s n = some r)
    (hdue : r.deadline = some due) (hpast : due ≤ s.pos.clock) : confirmDue n s = true := by
  simp [confirmDue, hr, hdue, hpast]

/-- Settles O55. -/
theorem finisherFaultsRaiseACause : Obligations.FinisherFaultsRaiseACause := by
  refine ⟨fun b set r s hr => ?_, fun bin set s hc => ⟨finisherReport_unheld hc, finisherReport_starting hc⟩⟩
  intro n cause stopped
  refine ⟨fun hstate hc => ?_, fun due hdue hpast => ?_⟩
  · refine finisherReport_acted hc hstate hr (congrArg some ?_)
    rw [findSet_some_name hr]
    exact faultSet_eq n (by simp) (by simp) (by simp)
  · exact (if_pos (confirmDue_of hr hdue hpast)).trans
      (congrArg (fun t => Host.Outcome.next (finish t)) (faultSet_eq n rfl rfl rfl))

/-! ### SET DONE -/

/-- The members are committed one by one, each with the COMMIT event of one place. -/
theorem foldl_commitMember {p : Pos} (members : List Entry) {u : State} (h : u.pos.p = p) :
    members.foldl commitMember u = members.foldl (fun u e => offerEvent .commit p none (some e.order) 1 { u with
      ret.entries := u.ret.entries.map fun x => if x.order = e.order then { x with state := .committed } else x }) u := by
  induction members generalizing u with
  | nil => rfl
  | cons e members ih =>
    rw [List.foldl_cons, List.foldl_cons, ih (by simpa using h), commitMember, commitEntry, h]
    rfl

theorem commitMembers_eq {s u : State} (r : SetRec) (hret : u.ret = s.ret) (htables : u.tables = s.tables) (hp : u.pos = s.pos) :
    commitMembers r u = (s.ret.entries.filter fun e => memberOf s.tables r e && e.state = .delivered).foldl
      (fun u e => offerEvent .commit s.pos.p none (some e.order) 1 { u with
        ret.entries := u.ret.entries.map fun x => if x.order = e.order then { x with state := .committed } else x }) u := by
  rw [commitMembers, membersWhere, hret, htables, foldl_commitMember (p := s.pos.p) _ (by rw [hp])]

/-- Settles O54. -/
theorem setDoneCommitsTheSet : Obligations.SetDoneCommitsTheSet := by
  refine ⟨fun bin set s hc => ?_, fun payload s hlen hc => ?_, fun n s => ⟨rfl, rfl⟩⟩
  · refine ⟨fun b r hstate hb hr hawaiting => ?_, fun hstate hother => ?_, finisherReport_starting hc⟩
    · subst hb
      refine finisherReport_acted hc hstate hr ((if_pos hawaiting).trans (congrArg some ?_))
      rw [findSet_some_name hr, commitMembers_eq (s := s) r (by simp) (by simp) (by simp)]
    · exact finisherReport_unexpected hc hstate fun b hb r hr => if_neg (hother b hb r hr)
  · rw [exec, execSetDone, takeReport_eq hc, readFinisherReport_of_otherLength _ _ hlen]

/-! ### SET CLEARED -/

/-- A cleared set of a state that agrees with `s`: DONE while a sheet is bound for it, freed, or opened again. -/
theorem settleCleared_eq {s u : State} {n : SetName} {r : SetRec} (hn : r.name = n) (hret : u.ret = s.ret)
    (htables : u.tables = s.tables) (hsets : u.sets = s.sets) (hjam : u.jam = s.jam) (hsup : u.sup = s.sup)
    (hcontrol : u.link.pathControl = s.link.pathControl) :
    let w : State := { u with
      link.pathControl := s.link.pathControl.filter fun f : PathControl => f ≠ .setVoid n
      sets.voidOrder := s.sets.voidOrder.filter fun m : SetName => m ≠ n }
    settleCleared r (withdrawSetVoid n u) =
      if s.ret.entries.any (isBound s.tables r) then { w with
        sets.records := s.sets.records.map fun x : SetRec =>
          if x.name = n then { x with state := .done, deadline := none } else x }
      else if r.members = 0 then { w with
        sets.records := s.sets.records.filter fun x : SetRec => x.name ≠ n
        jam.deferred := if s.sup.state = .awaitClear then s.jam.deferred.filter fun c : Cause => c.set ≠ some n
          else s.jam.deferred }
      else { w with
        sets.records := s.sets.records.map fun x : SetRec => if x.name = n then
          { r with
            first := ((s.ret.entries.find? fun e : Entry => memberOf s.tables r e && e.state ≠ .skipped).map (·.order)).getD
              r.first
            delivered := 0
            state := .opened
            deadline := none }
          else x } := by
  subst hn
  simp only [settleCleared, withdrawSetVoid, anyBound, releaseSet, freeSet, updateSet, reform, hret, htables, hsets, hjam, hsup,
    hcontrol, List.filter_filter, Bool.and_self]

theorem leaveOutstanding_outside {n : SetName} {s : State}
    (h : ∀ p, s.sup.purge = some p → p.phase = .driveOut ∨ n ∉ p.outstanding) : leaveOutstanding n s = s := by
  simp only [leaveOutstanding]
  split
  next p hp =>
    refine if_neg fun hwait => ?_
    obtain ⟨hphase, hmem⟩ := Bool.and_eq_true_iff.1 hwait
    rcases h p hp with hdrive | hnot
    · simp [hdrive] at hphase
    · exact hnot (List.contains_iff_mem.1 hmem)
  next => rfl

section
variable {n : SetName} {s : State} {p : Purge} (hp : s.sup.purge = some p) (hphase : p.phase = .voidWait)
  (hmem : n ∈ p.outstanding)
include hp hphase hmem

theorem leaveOutstanding_waiting :
    leaveOutstanding n s =
      if p.outstanding.filter (fun m : SetName => m ≠ n) = [] then
        replay { s with sup.purge := some { p with outstanding := p.outstanding.filter (fun m : SetName => m ≠ n) } }
      else { s with sup.purge := some { p with outstanding := p.outstanding.filter (fun m : SetName => m ≠ n) } } := by
  have hwait : (decide (p.phase = .voidWait) && p.outstanding.contains n) = true := by
    simp only [hphase, decide_true, Bool.true_and, List.contains_iff_mem, hmem]
  simp only [leaveOutstanding, hp, if_pos hwait, List.isEmpty_iff]

end

theorem boundFor_iff (t : Tables) (r : SetRec) (e : Entry) :
    isBound t r e = true ↔ e.state = .inFlight ∧ memberOf t r e = true ∧
      (e.mark = some .wasteAtDest ∨ (r.cancelled = true ∧ e.mark = none)) := by
  simp only [isBound, Bool.and_eq_true, Bool.or_eq_true, decide_eq_true_iff, and_assoc]

theorem memberOf_iff (t : Tables) (r : SetRec) (e : Entry) :
    memberOf t r e = true ↔ (∃ n, e.set = some n ∧ r.name = { bin := (t.routes[e.route]).bin, set := n }) ∧
      0 ≤ (e.order - r.first).toInt := by
  simp only [memberOf, entrySet, fromFirst, Bool.and_eq_true, decide_eq_true_iff, Option.map_eq_some_iff, eq_comm (b := r.name)]

/-- Settles O56. -/
theorem setClearedSettlesAVoidedSet : Obligations.SetClearedSettlesAVoidedSet := by
  refine ⟨fun b set r s hr hstate hc => ?_, fun bin set s hc => ⟨finisherReport_unheld hc, finisherReport_starting hc⟩,
    fun t r e => ⟨memberOf_iff t r e, boundFor_iff t r e⟩⟩
  intro n up u bound settled
  have hname : r.name = n := findSet_some_name hr
  have hsettled : settleCleared r (withdrawSetVoid n up) = settled :=
    settleCleared_eq hname (by simp [up]) (by simp [up]) (by simp [up]) (by simp [up]) (by simp [up]) (by simp [up])
  have hpurge : settled.sup.purge = s.sup.purge := by
    rw [← hsettled]
    simp [up]
  refine ⟨fun hvoided => ?_, fun hother => ?_⟩
  · have hexec : exec (.setCleared [byteOf b.val, set]) s = .next (finish (leaveOutstanding n settled)) := by
      refine finisherReport_acted hc hstate hr ((if_pos hvoided).trans (congrArg some ?_))
      rw [hname, hsettled]
    refine ⟨fun hnone => ?_, fun p hp => ⟨fun hout => ?_, fun hphase hmem => ?_⟩⟩
    · rw [hexec, leaveOutstanding_outside fun p hp => by simp [hpurge, hnone] at hp]
    · rw [hexec, leaveOutstanding_outside fun q hq => ?_]
      obtain rfl := Option.some.inj (hp.symm.trans (hpurge.symm.trans hq))
      exact hout
    · have hleave := leaveOutstanding_waiting (hpurge.trans hp) hphase hmem
      refine ⟨fun ⟨m, hm, hne⟩ => ?_, fun hlast => ?_⟩
      · rw [hexec, hleave, if_neg]
        exact List.ne_nil_of_mem (List.mem_filter.2 ⟨hm, decide_eq_true hne⟩)
      · rw [hexec, hleave, if_pos]
        exact List.filter_eq_nil_iff.2 fun m hm => by simp [hlast m hm]
  · exact finisherReport_unexpected hc hstate fun b' hb r' hr' => if_neg (by
      have : b' = b := by
        have := (indexOf_byteOf b (by omega)).symm.trans (hb ▸ indexOf_byteOf b' (by omega))
        simpa using this.symm
      subst this
      rwa [← Option.some.inj (hr.symm.trans hr')])

end Sys2Proof.Machine
end


-- ==== Sys2Proof/Proofs/SpeedChanges.lean ====
section
/-! SUPPORT. SPEED READY and the running-out of the speed wait (R160, R161, R162, R172). -/

namespace Sys2Proof.Machine

/-! ### SPEED READY -/

section
variable {cls : Byte} {s : State}

theorem readyClass_of_named {c : SpeedClass} {n : OrderNo} (hstate : s.sup.state = .speedChange)
    (hrequest : s.fwd.request = some (c, n)) : readyClass (byteOf c.val) s = some c := by
  simp [readyClass, hstate, hrequest]

theorem readyClass_of_other (h : s.sup.state ≠ .speedChange ∨ s.fwd.request = none ∨
    (∃ c n, s.fwd.request = some (c, n) ∧ cls ≠ byteOf c.val)) : readyClass cls s = none := by
  by_cases hstate : s.sup.state = .speedChange
  · rcases h.resolve_left (Classical.not_not.2 hstate) with h | ⟨c, n, h, hne⟩
    · simp [readyClass, h]
    · simp [readyClass, h, hne.symm]
  · simp [readyClass, hstate]

theorem readyClass_passUp (kind : Byte) (payload : List Byte) : readyClass cls (passUp kind payload s) = readyClass cls s := by
  simp [readyClass]

section
variable (hc : frameCompletes .lower 0x42 [cls] s = true)
include hc

theorem exec_speedReady (h : s.sup.state ≠ .starting) :
    exec (.speedReady [cls]) s = .next (finish (takeSpeedReady cls (passUp 0x42 [cls] s))) := by
  have hread : ¬(passUp 0x42 [cls] s).sup.state = .starting := by simpa using h
  exact (takeReport_eq hc).trans (congrArg (fun t => Host.Outcome.next (finish t)) (if_neg hread))

theorem exec_speedReady_starting (h : s.sup.state = .starting) :
    exec (.speedReady [cls]) s = .next (finish (passUp 0x42 [cls] s)) := by
  have hread : (passUp 0x42 [cls] s).sup.state = .starting := by simpa using h
  exact (takeReport_eq hc).trans (congrArg (fun t => Host.Outcome.next (finish t)) (if_pos hread))

end

theorem takeSpeedReady_named {c : SpeedClass} (h : readyClass cls s = some c) :
    takeSpeedReady cls s = forwarderPass (enterChosen { s with
      fwd.speed := c
      fwd.request := none
      sup.speedWait := none }) := by
  simp only [takeSpeedReady, h]
  rfl

theorem takeSpeedReady_other (h : readyClass cls s = none) :
    takeSpeedReady cls s = makeNotice (.unexpectedReport 0x42 0xFF (cls.setWidth 16)) s := by
  simp only [takeSpeedReady, h]

end

/-! ### The end of the speed wait -/

theorem enterState_lossCount {s : State} {st : PartState} (hcap : s.cap.state ≠ .running) (hroom : s.link.notices.length < 48)
    (h : s.sup.state ≠ st) : (enterState st s).link.lossCount = s.link.lossCount := by
  rw [enterState_entering h, offerEvent_unrecorded (.inl (by rwa [(entering_frame st s).2.2.1])),
    makeNotice_of_room _ (by rwa [(entering_frame st s).1])]
  simp [(entering_frame st s).1]

/-- With room for both and no capture running, HELD is announced by its own notice and then by the STATE notice. -/
theorem enterHeld_notices {s : State} {reason : HeldReason} {n : OrderNo} (hcap : s.cap.state ≠ .running)
    (hloss : s.link.lossCount = 0) (hroom : s.link.notices.length + 2 ≤ 48) (h : s.sup.state ≠ .held) :
    noticesHeld (finish (enterHeld reason n s)) = noticesHeld s ++ [.held n reason, .state .held (some reason)] := by
  obtain ⟨v, hv⟩ : ∃ v, v = ({ s with
    link.notices := s.link.notices ++ [.held n reason]
    sup.heldReason := some reason } : State) := ⟨_, rfl⟩
  have henter : enterHeld reason n s = enterState .held v := by
    rw [enterHeld_eq, makeNotice_of_room _ (by omega), hv]
  have hvstate : v.sup.state ≠ .held := by rwa [hv]
  have hvcap : v.cap.state ≠ .running := by rwa [hv]
  have hvroom : v.link.notices.length < 48 := by
    simp only [hv, List.length_append, List.length_singleton]
    omega
  have hvloss : (enterState .held v).link.lossCount = 0 := by
    rw [enterState_lossCount hvcap hvroom hvstate, hv]
    exact hloss
  rw [henter, noticesHeld_finish _ hvloss, noticesHeld, noticesHeld, enterState_notices hvstate hvcap hvroom]
  simp [hv]

theorem enterHeld_sup {s : State} {reason : HeldReason} {n : OrderNo} (h : s.sup.state ≠ .held) :
    (enterHeld reason n s).sup = ({ s.sup with heldReason := some reason } : Supervisor).moveTo .held := by
  rw [enterHeld_eq]
  exact enterState_sup _ _ h

theorem speedWaitDue_of {s : State} {due : Nat} (hstate : s.sup.state = .speedChange) (hwait : s.sup.speedWait = some due)
    (hdue : due ≤ s.pos.clock) : speedWaitDue s = true := by
  simp [speedWaitDue, hstate, hwait, hdue]

/-- Settles O57. -/
theorem speedChangeEnds : Obligations.SpeedChangeEnds := by
  intro cls s up
  refine ⟨fun hc => ⟨fun c n hstate hrequest hcls => ?_, fun hstarting h => ?_, exec_speedReady_starting hc⟩,
    fun c n due hstate hrequest hwait hdue => ?_⟩
  · subst hcls
    rw [exec_speedReady hc (by simp [hstate]),
      takeSpeedReady_named ((readyClass_passUp _ _).trans (readyClass_of_named hstate hrequest))]
  · rw [exec_speedReady hc hstarting, takeSpeedReady_other ((readyClass_passUp _ _).trans (readyClass_of_other h))]
  · have hexec : exec .speedWaitExpiry s = .next (finish (enterHeld .speed n (dropSpeedChange s))) := by
      simp only [exec, execSpeedWaitExpiry, hrequest, doneIf, speedWaitDue_of hstate hwait hdue] <;> rfl
    have hnot : (dropSpeedChange s).sup.state ≠ .held := by simp [dropSpeedChange, hstate]
    refine ⟨_, hexec, ?_, ?_, ?_, ?_, by simp [dropSpeedChange], by simp [dropSpeedChange], by simp [dropSpeedChange],
      by simp [dropSpeedChange], by simp [dropSpeedChange], by simp [dropSpeedChange], by simp [dropSpeedChange],
      by simp [dropSpeedChange], fun hcap hloss hroom => enterHeld_notices hcap hloss hroom hnot⟩
    · simp [enterHeld_sup hnot, Supervisor.moveTo]
    · simp [enterHeld_sup hnot, Supervisor.moveTo]
    · simp [dropSpeedChange]
    · simp [enterHeld_sup hnot, Supervisor.moveTo, haltAsserted]

end Sys2Proof.Machine
end


-- ==== Sys2Proof/Proofs/Stops.lean ====
section
/-! SUPPORT. The declaration of a stop, the causes that join it, and the frames that a HALT lets stand (R20, R31, R47, R83 to R90,
R92, R96). -/

namespace Sys2Proof.Machine

/-! ### The frames that a HALT lets stand -/

theorem survivesHalt_eq (f : PathControl) : f.survivesHalt = (decide (f = .linkStart) || decide (f = .halt) || f.isSetVoid) := by
  cases f <;> simp [PathControl.survivesHalt, PathControl.isSetVoid]

theorem survivesHalt_iff (f : PathControl) : f.survivesHalt = true ↔ f = .halt ∨ f = .linkStart ∨ ∃ n, f = .setVoid n := by
  cases f <;> simp [PathControl.survivesHalt]

theorem isSetVoid_survives {f : PathControl} (h : f.isSetVoid = true) : f.survivesHalt = true := by
  simp [survivesHalt_eq, h]

section
variable {waiting : List PathControl}

theorem haltFrames_waiting (h : .halt ∈ waiting) : haltFrames waiting = waiting.filter (·.survivesHalt) :=
  if_pos (List.contains_iff_mem.2 (List.mem_filter.2 ⟨h, rfl⟩))

theorem haltFrames_new (h : .halt ∉ waiting) :
    haltFrames waiting = (waiting.filter (·.survivesHalt)).takeWhile (!·.isSetVoid) ++
      .halt :: (waiting.filter (·.survivesHalt)).dropWhile (!·.isSetVoid) :=
  if_neg fun hmem => h (List.mem_filter.1 (List.contains_iff_mem.1 hmem)).1

end

/-- The frames after a HALT, whether one waited or not, hold what survives it, and one HALT. -/
theorem haltFrames_perm (waiting : List PathControl) :
    (haltFrames waiting).Perm (if .halt ∈ waiting then waiting.filter (·.survivesHalt)
      else .halt :: waiting.filter (·.survivesHalt)) := by
  by_cases h : .halt ∈ waiting
  · rw [if_pos h, haltFrames_waiting h]
  · rw [if_neg h, haltFrames_new h]
    refine List.perm_middle.trans (List.Perm.cons _ ?_)
    rw [List.takeWhile_append_dropWhile]

theorem count_halt_haltFrames (waiting : List PathControl) :
    (haltFrames waiting).count .halt = max 1 (waiting.count .halt) := by
  have hkept : (waiting.filter (·.survivesHalt)).count .halt = waiting.count .halt := List.count_filter rfl
  rw [(haltFrames_perm waiting).count_eq]
  split
  next h => rw [hkept, Nat.max_eq_right (List.count_pos_iff.2 h)]
  next h => rw [List.count_cons_self, hkept, List.count_eq_zero.2 h, Nat.max_eq_left (Nat.zero_le 1)]

theorem mem_haltFrames {waiting : List PathControl} {f : PathControl} (h : f ∈ haltFrames waiting) :
    f = .halt ∨ f = .linkStart ∨ ∃ n, f = .setVoid n := by
  have hmem := (haltFrames_perm waiting).mem_iff.1 h
  split at hmem
  · exact (survivesHalt_iff f).1 (List.mem_filter.1 hmem).2
  · rcases List.mem_cons.1 hmem with hhalt | hkept
    · exact .inl hhalt
    · exact (survivesHalt_iff f).1 (List.mem_filter.1 hkept).2

theorem haltFrames_setVoids (waiting : List PathControl) :
    (haltFrames waiting).filter (·.isSetVoid) = waiting.filter (·.isSetVoid) := by
  have hkept : (waiting.filter (·.survivesHalt)).filter (·.isSetVoid) = waiting.filter (·.isSetVoid) := by
    rw [List.filter_filter]
    refine List.filter_congr fun f _ => ?_
    rcases hvoid : f.isSetVoid with _ | _
    · rfl
    · rw [isSetVoid_survives hvoid, Bool.and_self]
  by_cases h : .halt ∈ waiting
  · rw [haltFrames_waiting h, hkept]
  · rw [haltFrames_new h, List.filter_append, List.filter_cons_of_neg (by simp [PathControl.isSetVoid]), ← List.filter_append,
      List.takeWhile_append_dropWhile, hkept]

theorem haltFrames_front {waiting : List PathControl} (h : .halt ∉ waiting) :
    ∃ front back, haltFrames waiting = front ++ .halt :: back ∧ (∀ f ∈ front, f = .linkStart) ∧
      ∀ f, back.head? = some f → f.isSetVoid = true := by
  refine ⟨_, _, haltFrames_new h, fun f hf => ?_, fun f hf => ?_⟩
  · have hkept := List.mem_filter.1 ((List.takeWhile_sublist _).subset hf)
    have hnot : f.isSetVoid = false := by simpa using of_mem_takeWhile hf
    rcases (survivesHalt_iff f).1 hkept.2 with rfl | rfl | ⟨n, rfl⟩
    · exact absurd hkept.1 h
    · rfl
    · simp [PathControl.isSetVoid] at hnot
  · have := List.head?_dropWhile_not (!·.isSetVoid) (waiting.filter (·.survivesHalt))
    rw [hf] at this
    simpa using this

/-! ### The entries that return -/

theorem isForForwarded_of {s : State} {e : Entry} {f : ForwardedOrder} (he : e ∈ s.ret.entries) (hforwarded : e.state = .forwarded)
    (horder : f.entry.order = e.order) : isForForwarded s f = true :=
  List.any_eq_true.2 ⟨e, he, by simp [horder, hforwarded]⟩

theorem returnForwarded_entries (s : State) :
    (returnForwarded s).ret.entries = s.ret.entries.map (fun e =>
      if e.state = .forwarded then
        { e with
          state := .queued
          unpicked := true
          firstSent := e.firstSent || s.link.forwarded.any fun f => decide (f.entry.order = e.order) }
      else e) := by
  simp only [returnForwarded]
  refine List.map_congr_left fun e he => ?_
  by_cases hforwarded : e.state = .forwarded
  · have hsame : ((s.link.forwarded.filter (isForForwarded s)).any fun f => decide (f.entry.order = e.order)) =
        s.link.forwarded.any fun f => decide (f.entry.order = e.order) := by
      rw [List.any_filter]
      refine List.any_congr rfl fun f => ?_
      by_cases horder : f.entry.order = e.order
      · rw [isForForwarded_of he hforwarded horder, Bool.true_and]
      · rw [decide_eq_false horder, Bool.and_false]
    rw [if_pos hforwarded, if_pos hforwarded, hsame]
  · rw [if_neg hforwarded, if_neg hforwarded]

/-! ### What is due at the declaration -/

theorem mem_reachedNow_late {s : State} {st : Station} {x : Expectation} :
    (st, x) ∈ (reachedNow s).late ↔ lateDue s st = true ∧ (s.trk.lists[st]).head? = some x := by
  simp only [reachedNow, headWatch, List.mem_filterMap, mem_indexesWhere, Option.map_eq_some_iff, Prod.mk.injEq]
  exact ⟨fun ⟨_, hdue, _, hhead, hst, hx⟩ => by subst hst hx; exact ⟨hdue, hhead⟩, fun ⟨hdue, hhead⟩ => ⟨st, hdue, x, hhead, rfl, rfl⟩⟩

theorem mem_reachedNow_stuck {s : State} {st : Station} {o : Occupant} :
    (st, o) ∈ (reachedNow s).stuck ↔ stuckDue s st = true ∧ s.trk.slots[st] = some o := by
  simp only [reachedNow, slotWatch, List.mem_filterMap, mem_indexesWhere, Option.map_eq_some_iff, Prod.mk.injEq]
  exact ⟨fun ⟨_, hdue, _, hslot, hst, ho⟩ => by subst hst ho; exact ⟨hdue, hslot⟩, fun ⟨hdue, hslot⟩ => ⟨st, hdue, o, hslot, rfl, rfl⟩⟩

theorem heldFor_iff (limit now : Nat) (pending : Option Nat) :
    heldFor limit now pending = true ↔ ∃ since, pending = some since ∧ limit ≤ now - since := by
  cases pending <;> simp [heldFor]

theorem coverHeld_iff (c : Cover) (toClosed : Bool) (s : State) :
    coverHeld c toClosed s = true ↔ (s.front.covers[c]).rawClosed = toClosed ∧ (s.front.covers[c]).closed ≠ toClosed ∧
      ∃ since, (s.front.covers[c]).pending = some since ∧ 120000 ≤ s.pos.clock - since := by
  simp only [coverHeld, Bool.and_eq_true, heldFor_iff, decide_eq_true_iff]
  exact ⟨fun ⟨⟨hheld, hraw⟩, hclosed⟩ => ⟨hraw, hclosed, hheld⟩, fun ⟨hraw, hclosed, hheld⟩ => ⟨⟨hheld, hraw⟩, hclosed⟩⟩

theorem mem_reachedNow_covers {s : State} {d : Cover} :
    d ∈ (reachedNow s).covers ↔ (s.front.covers[d]).rawClosed = false ∧ (s.front.covers[d]).closed = true ∧
      (∃ since, (s.front.covers[d]).pending = some since ∧ 120000 ≤ s.pos.clock - since) ∧
      (trackingEmpty s = false ∨ s.sup.state = .running ∨ s.sup.state = .purging) := by
  simp only [reachedNow, mem_indexesWhere, Bool.and_eq_true, coverHeld_iff, coverMatters, Bool.or_eq_true, Bool.not_eq_true',
    decide_eq_true_iff, ne_eq, Bool.not_eq_false, and_assoc, or_assoc]

/-! ### The declaration -/

/-- The state of a stop before its announcement and the entry into STOPPING. -/
def stopOf (c : Cause) (s : State) : State :=
  dropSpeedChange (returnForwarded (requestHalt (startCauses c (keepReached s))))

theorem declareStop_eq (c : Cause) (s : State) :
    declareStop c s = enterState .stopping (announceCause .declared 1 c (stopOf c s)) := rfl

theorem stopOf_frame (c : Cause) (s : State) :
    (stopOf c s).reached = reachedNow s ∧ (stopOf c s).jam = { s.jam with causes := [c], more := false } ∧
    (stopOf c s).fwd = { s.fwd with limit := s.fwd.f, windowHold := true, request := none } ∧
    (stopOf c s).sup = { s.sup with speedWait := none } ∧ (stopOf c s).link.pathControl = haltFrames s.link.pathControl ∧
    (stopOf c s).link.notices = s.link.notices ∧ (stopOf c s).cap = s.cap ∧ (stopOf c s).svc = s.svc ∧
    (stopOf c s).free = s.free ∧ (stopOf c s).pos = s.pos := by
  simp [stopOf, dropSpeedChange, startCauses, keepReached, requestHalt]

theorem stopOf_forwarded (c : Cause) (s : State) :
    (stopOf c s).link.forwarded = s.link.forwarded.filter (fun f =>
      !(s.ret.entries.any fun e => decide (e.order = f.entry.order) && decide (e.state = .forwarded))) := by
  simp only [stopOf, dropSpeedChange, startCauses, keepReached, requestHalt, returnForwarded, isForForwarded]

theorem stopOf_entries (c : Cause) (s : State) :
    (stopOf c s).ret.entries = s.ret.entries.map (fun e =>
      if e.state = .forwarded then
        { e with
          state := .queued
          unpicked := true
          firstSent := e.firstSent || s.link.forwarded.any fun f => decide (f.entry.order = e.order) }
      else e) :=
  returnForwarded_entries _

/-- The announcement and the entry into STOPPING leave these as the stop has put them. -/
theorem declareStop_blocks (c : Cause) (s : State) :
    (declareStop c s).jam = { s.jam with causes := [c], more := false } ∧
    (declareStop c s).fwd = { s.fwd with limit := s.fwd.f, windowHold := true, request := none } ∧
    (declareStop c s).link.pathControl = haltFrames s.link.pathControl ∧
    (declareStop c s).link.forwarded = s.link.forwarded.filter (fun f =>
      !(s.ret.entries.any fun e => decide (e.order = f.entry.order) && decide (e.state = .forwarded))) ∧
    (declareStop c s).ret.entries = s.ret.entries.map (fun e =>
      if e.state = .forwarded then
        { e with
          state := .queued
          unpicked := true
          firstSent := e.firstSent || s.link.forwarded.any fun f => decide (f.entry.order = e.order) }
      else e) := by
  simp only [declareStop_eq, enterState_frame, announceCause_frame]
  exact ⟨rfl, rfl, rfl, stopOf_forwarded c s, stopOf_entries c s⟩

theorem takeCause_declares {c : Cause} {s : State} (h : s.sup.state = .idle ∨ s.sup.state = .standby ∨ s.sup.state = .running ∨
    s.sup.state = .speedChange ∨ s.sup.state = .held ∨ s.sup.state = .purging) : takeCause c s = declareStop c s := by
  rcases h with h | h | h | h | h | h <;> simp only [takeCause, h]

section
variable {c : Cause} {s : State} (h : s.sup.state ≠ .stopping)
include h

theorem announced_ne_stopping : (announceCause .declared 1 c (stopOf c s)).sup.state ≠ .stopping := by
  simp only [announceCause_frame]
  exact h

theorem declareStop_sup : (declareStop c s).sup = ({ s.sup with speedWait := none } : Supervisor).moveTo .stopping := by
  rw [declareStop_eq, enterState_sup _ _ (announced_ne_stopping h)]
  simp only [announceCause_frame]
  rfl

theorem declareStop_settleFrom : (declareStop c s).pos.settleFrom = some s.pos.clock := by
  rw [declareStop_eq, enterState_settleFrom _ _ (announced_ne_stopping h), if_pos rfl]
  simp only [announceCause_frame]
  rfl

theorem declareStop_reached : (declareStop c s).reached = reachedNow s := by
  rw [declareStop_eq, enterState_reached_eq (announced_ne_stopping h), if_pos rfl]
  simp only [announceCause_frame]
  rfl

/-- The JAM notice precedes the STATE notice. -/
theorem declareStop_notices (hcap : s.cap.state ≠ .running) (hroom : s.link.notices.length + 2 ≤ 48) :
    (declareStop c s).link.notices =
      s.link.notices ++ [.jam .declared 1 c (Config.absentWord s.free), .state .stopping none] := by
  have hstop : (stopOf c s).cap.state ≠ .running := hcap
  obtain ⟨u, hu⟩ : ∃ u, u = ({ stopOf c s with
    link.notices := s.link.notices ++ [.jam .declared 1 c (freeWord s)]
    free := s.free + 1 } : State) := ⟨_, rfl⟩
  have hannounce : announceCause .declared 1 c (stopOf c s) = u := by
    rw [announceCause_unrecorded hstop, makeNotice_of_room (s := stopOf c s) _ (show s.link.notices.length < 48 by omega), hu]
    rfl
  have hroom' : u.link.notices.length < 48 := by
    simp only [hu, List.length_append, List.length_singleton]
    omega
  rw [declareStop_eq, hannounce, enterState_notices (by rw [hu]; exact h) (by rw [hu]; exact hcap) hroom', hu]
  simp [freeWord]

end

/-! ### The other states -/

theorem takeCause_joins {c : Cause} {s : State} (h : s.sup.state = .stopping) : takeCause c s = joinStop c s := by
  simp only [takeCause, h]

theorem takeCause_defers {c : Cause} {s : State} (h : s.sup.state = .awaitClear) (hkind : c.kind = .finisher) :
    takeCause c s = deferCause c s := by
  simp only [takeCause, h, if_pos hkind]

theorem takeCause_passes {c : Cause} {s : State} (h : s.sup.state = .awaitClear) (hkind : c.kind ≠ .finisher) :
    takeCause c s = s := by
  simp only [takeCause, h, if_neg hkind]

theorem deferCause_new {c : Cause} {s : State} (hnone : ∀ d ∈ s.jam.deferred, d.set ≠ c.set) (hroom : s.jam.deferred.length < 8) :
    deferCause c s = announceCause .deferred 0 c { s with jam.deferred := s.jam.deferred ++ [c] } := by
  refine if_neg fun h => ?_
  rw [Bool.or_eq_true, List.any_eq_true, decide_eq_true_iff] at h
  rcases h with ⟨d, hd, hset⟩ | hfull
  · exact hnone d hd (by simpa using hset)
  · omega

theorem deferCause_known {c : Cause} {s : State} (h : ∃ d ∈ s.jam.deferred, d.set = c.set) : deferCause c s = s := by
  obtain ⟨d, hd, hset⟩ := h
  exact if_pos (Bool.or_eq_true_iff.2 (.inl (List.any_eq_true.2 ⟨d, hd, by simp [hset]⟩)))

theorem announceCause_eq (treatment : Treatment) (index : Nat) (c : Cause) (s : State) :
    announceCause treatment index c s =
      offerEvent .cause c.pos c.station c.sheet (c.kind.code ||| (treatment.code <<< 4))
        { makeNotice (.jam treatment index c (Config.absentWord s.free)) s with free := s.free + 1 } := by
  simp only [announceCause, useFree, freeWord, makeNotice_frame]

/-- Settles O53. -/
theorem causesStopThePartOrJoin : Obligations.CausesStopThePartOrJoin := by
  refine ⟨fun c s hstate => ?_, fun waiting => ?_, fun c s => ⟨fun h hroom => ?_, fun h hfull => ?_, fun h hkind hnone hroom => ?_,
    fun h hquiet => ?_, fun h => ?_⟩, announceCause_eq, fun z w => ?_⟩
  · intro t
    have ht : t = declareStop c s := takeCause_declares hstate
    have hnot : s.sup.state ≠ .stopping := by rcases hstate with h | h | h | h | h | h <;> simp [h]
    have hsup := declareStop_sup (c := c) hnot
    rw [ht]
    refine ⟨by simp [hsup, Supervisor.moveTo], by simp [hsup, Supervisor.moveTo, haltAsserted], declareStop_settleFrom hnot, ?_⟩
    obtain ⟨hjam, hfwd, hcontrol, hforwarded, hentries⟩ := declareStop_blocks c s
    obtain ⟨-, -, -, -, -, hnotices, hcap, hsvc, hfree, hpos⟩ := stopOf_frame c s
    have hreached := declareStop_reached (c := c) hnot
    refine ⟨by rw [hjam], by rw [hjam], by rw [hjam], by rw [hfwd], by rw [hfwd], by rw [hfwd], by rw [hfwd],
      by simp [hsup, Supervisor.moveTo], by simp [hsup, Supervisor.moveTo], by simp [hsup, Supervisor.moveTo], by rw [hcontrol, count_halt_haltFrames],
      fun f hf => mem_haltFrames (hcontrol ▸ hf), hcontrol, ?_⟩
    simp only [declareStop_frame]
    refine ⟨trivial, trivial, hentries, hforwarded, trivial, trivial, trivial, trivial, trivial, trivial, trivial, trivial, fun st => ?_,
      by rw [hreached]; rfl, fun d => hreached ▸ mem_reachedNow_covers, ⟨stopOf c s, declareStop_eq c s, hnotices, hcap, hsvc, hfree, hpos⟩,
      declareStop_notices hnot⟩
    rw [hreached]
    exact ⟨fun x => mem_reachedNow_late, fun o => mem_reachedNow_stuck⟩
  · intro isVoid kept
    have hvoid : isVoid = PathControl.isSetVoid := funext fun f => by cases f <;> rfl
    have hkept : kept = waiting.filter (·.survivesHalt) := by
      simp only [kept, hvoid, survivesHalt_eq]
    rw [hvoid, hkept]
    exact ⟨haltFrames_waiting, haltFrames_new, haltFrames_setVoids waiting, haltFrames_front⟩
  · exact (takeCause_joins h).trans (if_pos hroom)
  · exact (takeCause_joins h).trans (if_neg (by omega))
  · exact (takeCause_defers h hkind).trans (deferCause_new hnone hroom)
  · by_cases hkind : c.kind = .finisher
    · exact (takeCause_defers h hkind).trans (deferCause_known (hquiet.resolve_left (Classical.not_not.2 hkind)))
    · exact takeCause_passes h hkind
  · rcases h with h | h <;> simp only [takeCause, h]
  · rw [zoneBit_getLsbD, decide_eq_true_iff]

end Sys2Proof.Machine
end


-- ==== Sys2Proof/Proofs/PlanReading.lean ====
section
/-! SUPPORT. The steps of the snapshot, each read as its rule says it (R104 to R111, R139). -/

namespace Sys2Proof.Machine

/-! ### Sets of zones -/

theorem foldl_or_getLsbD {α : Type} (f : α → ZoneSet) (l : List α) (acc : ZoneSet) (i : Nat) :
    (l.foldl (fun acc a => acc ||| f a) acc).getLsbD i = true ↔
      acc.getLsbD i = true ∨ ∃ a ∈ l, (f a).getLsbD i = true := by
  induction l generalizing acc with
  | nil => simp
  | cons a l ih =>
    simp only [List.foldl_cons, ih, BitVec.getLsbD_or, Bool.or_eq_true, List.mem_cons, or_and_right, exists_or, exists_eq_left,
      or_assoc]

theorem causeZones_getLsbD (causes : List Cause) (i : Nat) :
    (causes.foldl (fun (acc : ZoneSet) c => acc ||| c.zones) 0).getLsbD i = true ↔ ∃ c ∈ causes, c.zones.getLsbD i = true := by
  rw [foldl_or_getLsbD]
  simp

/-- A zone is a fault zone (R105). -/
def IsFaultZone (s : State) (z : Zone) : Prop :=
  (∃ c ∈ s.jam.causes, c.zones.getLsbD z.val = true) ∨ (s.tables.zones[z]).purgeable = false

theorem faultZones_getLsbD (s : State) (z : Zone) : (faultZones s).getLsbD z.val = true ↔ IsFaultZone s z := by
  rw [faultZones, foldl_zoneBit_getLsbD, Bool.or_eq_true, causeZones_getLsbD, decide_eq_true_iff, mem_indexesWhere,
    Bool.not_eq_true', IsFaultZone]

theorem inZones_faultZones (s : State) (st : Station) :
    inZones s.tables (faultZones s) st = true ↔ IsFaultZone s (s.tables.stations[st]).zone :=
  faultZones_getLsbD s _

/-! ### The steps -/

/-- The station that a sheet goes next to. -/
def nextStationOf (s : State) (r : TrackRec) : Option Station := (followedVisit s.tables r r.next).map (·.station)

theorem recordOf_eq_some_iff {s : State} {e : Entry} {r : TrackRec} :
    recordOf s e = some r ↔ e.state = .inFlight ∧ ∃ tag, e.tag = some tag ∧ s.trk.table[tag] = some r := by
  rw [recordOf_eq, Option.ite_none_right_eq_some, Option.bind_eq_some_iff]

theorem isLost_iff (s : State) (r : TrackRec) :
    isLost s r = true ↔ (∃ c ∈ s.jam.causes, c.sheet = some r.order) ∨
      (∃ x ∈ r.occupied, IsFaultZone s (s.tables.stations[x.1]).zone) ∨
      (r.occupied = [] ∧ ∃ st, nextStationOf s r = some st ∧ IsFaultZone s (s.tables.stations[st]).zone) := by
  rw [isLost, nextStationOf, Bool.or_eq_true, Bool.or_eq_true, Bool.and_eq_true, List.any_eq_true, List.any_eq_true,
    List.isEmpty_iff, or_assoc]
  simp only [decide_eq_true_iff, inZones_faultZones]
  rcases followedVisit s.tables r r.next with _ | v
  · simp
  · simp [inZones_faultZones]

theorem breaksJob_iff (s : State) (e : Entry) :
    breaksJob s e = true ↔
      (∃ r, recordOf s e = some r ∧
        (isLost s r = true ∨ r.complete = false ∨ r.disp = some .wasteDivert ∨ r.disp = some .wasteAtDest)) ∨
      (e.state = .delivered ∧ ∃ c ∈ s.jam.causes, c.kind = .finisher ∧ c.set.isSome = true ∧ c.set = entrySet s.tables e) ∨
      e.state = .reprint := by
  rw [breaksJob, Bool.or_eq_true, Bool.or_eq_true, Bool.and_eq_true, List.any_eq_true, or_assoc]
  simp only [decide_eq_true_iff, Bool.and_eq_true, and_assoc]
  refine or_congr_left ?_
  rcases recordOf s e with _ | r
  · simp
  · simp [or_assoc]

theorem resumePoint_none {s : State} (h : ∀ e ∈ s.ret.entries, breaksJob s e = false) : resumePoint s = none := by
  have hnone : breakPoint s = none := List.find?_eq_none.2 fun e he => by simp [h e he]
  simp only [resumePoint, hnone]

section
variable {s : State} {b : Entry} (hb : s.ret.entries.find? (breaksJob s) = some b)
include hb

theorem resumePoint_unset (h : b.set = none) : resumePoint s = some b.order := by
  have hbreak : breakPoint s = some b := hb
  have hset : entrySet s.tables b = none := by rw [entrySet, h]; rfl
  simp only [resumePoint, hbreak, hset]

section
variable {name : SetName} (hname : entrySet s.tables b = some name)
include hname

theorem resumePoint_unheld (h : findSet s name = none) : resumePoint s = some b.order := by
  have hbreak : breakPoint s = some b := hb
  simp only [resumePoint, hbreak, hname, h]

theorem resumePoint_member {x : SetRec} {m : Entry} (h : findSet s name = some x)
    (hm : s.ret.entries.find? (memberOf s.tables x) = some m) : resumePoint s = some m.order := by
  have hbreak : breakPoint s = some b := hb
  simp only [resumePoint, hbreak, hname, h, hm, Option.map_some, Option.getD_some]

end

end

theorem atOrAbove_iff (s : State) (r : Option OrderNo) (n : OrderNo) :
    atOrAbove s r n = true ↔ ∃ x h, r = some x ∧ s.ret.h = some h ∧ (x - h).toNat ≤ (n - h).toNat := by
  rcases r with _ | x
  · simp [atOrAbove]
  · rcases hh : s.ret.h with _ | h
    · simp [atOrAbove, hh]
    · simp only [atOrAbove, hh, Option.some.injEq, exists_and_left, exists_eq_left']
      exact decide_eq_true_iff

section
variable {s : State} {r : TrackRec}

theorem splitPurge_below (h : atOrAbove s (resumePoint s) r.order = false) : splitPurge s r = .salvage := by
  simp [splitPurge, h]

section
variable (h : atOrAbove s (resumePoint s) r.order = true)
include h

theorem splitPurge_tail (htail : r.wasteTail = true) : splitPurge s r = .wasteDivert := by
  simp [splitPurge, h, htail]

theorem splitPurge_divert {dv : Divert} (htail : r.wasteTail = false) (hdv : (s.tables.routes[r.route]).divert = some dv) :
    splitPurge s r = if r.next ≤ dv.d.val then .wasteDivert else .wasteAtDest := by
  simp only [splitPurge, h, htail, hdv, if_true, Bool.false_eq_true, if_false]

theorem splitPurge_dest (htail : r.wasteTail = false) (hdv : (s.tables.routes[r.route]).divert = none) :
    splitPurge s r = .wasteAtDest := by
  simp only [splitPurge, h, htail, hdv, if_true, Bool.false_eq_true, if_false]

end

end

theorem isVoidedNow_iff (s : State) (x : SetRec) :
    isVoidedNow s x = true ↔ (x.state = .opened ∨ x.state = .completeAwaiting) ∧
      ∃ e ∈ s.ret.entries, memberOf s.tables x e = true ∧ atOrAbove s (resumePoint s) e.order = true ∧
        (e.state = .delivered ∨ ∃ r, recordOf s e = some r ∧ isLost s r = false ∧ splitPurge s r = .wasteAtDest) := by
  simp only [isVoidedNow, Bool.and_eq_true, Bool.or_eq_true, List.any_eq_true, decide_eq_true_iff, and_assoc]
  refine and_congr_right fun _ => exists_congr fun e => and_congr_right fun _ => and_congr_right fun _ =>
    and_congr_right fun _ => or_congr_right ?_
  rcases recordOf s e with _ | r
  · simp
  · simp

/-! ### The clear zones -/

/-- The zones that a LOST sheet covers, or the one it goes next to (R111). -/
def lostZones (s : State) (o : Option TrackRec) : ZoneSet :=
  match o with
  | some r =>
    if isLost s r then
      zonesOf s.tables (r.occupied.map (·.1)) |||
        (if r.occupied.isEmpty then
          match followedVisit s.tables r r.next with
          | some v => zoneBit (stationZone s.tables v.station)
          | none => 0
        else 0)
    else 0
  | none => 0

theorem clearZones_eq (s : State) :
    clearZones s = s.trk.table.toList.foldl (fun acc o => acc ||| lostZones s o)
      (s.jam.causes.foldl (fun acc c => acc ||| c.zones) 0) := by
  rw [clearZones]
  congr 1
  funext acc o
  rcases o with _ | r
  · simp [lostZones]
  · by_cases h : isLost s r = true
    · simp only [lostZones, if_pos h, BitVec.or_assoc] <;> rfl
    · simp only [lostZones, if_neg h] <;> simp

theorem lostZones_getLsbD (s : State) (r : TrackRec) (z : Zone) :
    (lostZones s (some r)).getLsbD z.val = true ↔ isLost s r = true ∧
      ((∃ x ∈ r.occupied, (s.tables.stations[x.1]).zone = z) ∨
        (r.occupied = [] ∧ ∃ st, nextStationOf s r = some st ∧ (s.tables.stations[st]).zone = z)) := by
  have hzero : (0 : ZoneSet).getLsbD z.val = false := BitVec.getLsbD_zero
  rw [lostZones, nextStationOf]
  by_cases hlost : isLost s r = true
  · rw [if_pos hlost, BitVec.getLsbD_or, Bool.or_eq_true, zonesOf_getLsbD]
    by_cases hnone : r.occupied = []
    · rcases followedVisit s.tables r r.next with _ | v
      · simp only [hnone, List.isEmpty_nil, if_true, hzero, hlost]
        simp
      · simp only [hnone, List.isEmpty_nil, if_true, zoneBit_getLsbD, hlost]
        simp [stationZone, eq_comm (a := z)]
    · have hoccupied : r.occupied.isEmpty = false := by simpa using hnone
      simp only [hoccupied, hzero, hlost, hnone, Bool.false_eq_true, if_false, List.mem_map, true_and,
        false_and, or_false]
      exact ⟨fun ⟨_, ⟨x, hx, hst⟩, hz⟩ => ⟨x, hx, hst ▸ hz⟩, fun ⟨x, hx, hz⟩ => ⟨x.1, ⟨x, hx, rfl⟩, hz⟩⟩
  · rw [if_neg hlost, hzero]
    simp [hlost]

theorem mem_table_iff (s : State) (o : Option TrackRec) : o ∈ s.trk.table.toList ↔ ∃ tag : Tag, s.trk.table[tag] = o := by
  rw [Vector.mem_toList_iff, Vector.mem_iff_getElem]
  exact ⟨fun ⟨i, hi, h⟩ => ⟨⟨i, hi⟩, h⟩, fun ⟨tag, h⟩ => ⟨tag.val, tag.isLt, h⟩⟩

theorem clearZones_getLsbD (s : State) (z : Zone) :
    (clearZones s).getLsbD z.val = true ↔ (∃ c ∈ s.jam.causes, c.zones.getLsbD z.val = true) ∨
      ∃ (tag : Tag) (r : TrackRec), s.trk.table[tag] = some r ∧ isLost s r = true ∧
        ((∃ x ∈ r.occupied, (s.tables.stations[x.1]).zone = z) ∨
          (r.occupied = [] ∧ ∃ st, nextStationOf s r = some st ∧ (s.tables.stations[st]).zone = z)) := by
  rw [clearZones_eq, foldl_or_getLsbD, causeZones_getLsbD]
  refine or_congr_right ⟨fun ⟨o, ho, hbit⟩ => ?_, fun ⟨tag, r, hr, h⟩ => ?_⟩
  · obtain ⟨tag, rfl⟩ := (mem_table_iff s o).1 ho
    rcases hr : s.trk.table[tag] with _ | r
    · rw [hr] at hbit
      simp [lostZones] at hbit
    · exact ⟨tag, r, hr, (lostZones_getLsbD s r z).1 (hr ▸ hbit)⟩
  · exact ⟨some r, (mem_table_iff s _).2 ⟨tag, hr⟩, (lostZones_getLsbD s r z).2 h⟩

/-! ### The list of the plan and the places of the sets -/

theorem planDispositions_eq (s : State) :
    planDispositions s = s.ret.entries.filterMap (fun e =>
      match recordOf s e with
      | some r => some (e.order, if isLost s r then .lost else match splitPurge s r with
        | .salvage => .salvage
        | .wasteDivert => .wasteDivert
        | .wasteAtDest => .wasteAtDest)
      | none => if e.unpicked then some (e.order, .unpicked) else none) := by
  refine congrArg (fun f => s.ret.entries.filterMap f) (funext fun e => ?_)
  rcases recordOf s e with _ | r
  · rfl
  · rcases splitPurge s r <;> rfl

theorem firstPlace_eq {s : State} {h : OrderNo} (x : SetRec) (hh : s.ret.h = some h) : firstPlace s x = (x.first - h).toInt := by
  simp only [firstPlace, hh]

end Sys2Proof.Machine
end


-- ==== Sys2Proof/Proofs/SnapshotSteps.lean ====
section
/-! SUPPORT. What the steps of the snapshot do to the records, the lists and the sets (R101 to R112, R142, R146, R147). -/

namespace Sys2Proof.Machine

/-! ### Notices and events are a matter of the link, the service port and the capture -/

/-- Two states agree in what a notice or an event speaks of. -/
def SameOutputs (u v : State) : Prop :=
  u.link = v.link ∧ u.svc = v.svc ∧ u.cap = v.cap ∧ u.pos.msCount = v.pos.msCount

theorem SameOutputs.makeNotice {u v : State} (n : Notice) (h : SameOutputs u v) :
    SameOutputs (makeNotice n u) (makeNotice n v) := by
  obtain ⟨hlink, hsvc, hcap, hms⟩ := h
  exact ⟨makeNotice_link_congr n hlink, by simpa using hsvc, by simpa using hcap, by simpa using hms⟩

theorem SameOutputs.makeCaptureDone {u v : State} (h : SameOutputs u v) :
    SameOutputs (makeCaptureDone u) (makeCaptureDone v) := by
  obtain ⟨hlink, hsvc, hcap, hms⟩ := h
  simp only [Machine.makeCaptureDone, hsvc, hcap]
  split
  · simp only [makeServiceNotice, hsvc]
    split
    · exact ⟨hlink, rfl, hcap, hms⟩
    · exact ⟨hlink, hsvc, hcap, hms⟩
  · exact SameOutputs.makeNotice _ ⟨hlink, hsvc, hcap, hms⟩

theorem SameOutputs.offerEvent {u v : State} (k : EventKind) (p : Pos) (st : Option Station) (order : Option OrderNo)
    (detail : Byte) (h : SameOutputs u v) :
    SameOutputs (offerEvent k p st order detail u) (offerEvent k p st order detail v) := by
  obtain ⟨hlink, hsvc, hcap, hms⟩ := h
  simp only [Machine.offerEvent, hcap, hms]
  split
  · split
    · exact SameOutputs.makeCaptureDone ⟨hlink, hsvc, rfl, hms⟩
    · exact ⟨hlink, hsvc, rfl, hms⟩
  · exact ⟨hlink, hsvc, hcap, hms⟩

theorem SameOutputs.useFree {u v : State} (n : Nat) (h : SameOutputs u v) : SameOutputs (useFree n u) v := h

/-! ### The tracking records that are freed -/

/-- The records of the tags go, with their expectations and their slots. -/
theorem foldl_freeRecord_trk (tags : List Tag) (s : State) :
    let t := tags.foldl (fun s tag => freeRecord tag s) s
    (∀ tag : Tag, t.trk.table[tag] = if tag ∈ tags then none else s.trk.table[tag]) ∧
    ∀ st : Station, t.trk.lists[st] = (s.trk.lists[st]).filter (fun x => decide (x.tag ∉ tags)) ∧
      t.trk.slots[st] = (s.trk.slots[st]).filter fun o => decide (o.tag ∉ tags) := by
  induction tags generalizing s with
  | nil => exact ⟨fun tag => by simp, fun st => ⟨by simp [filter_const_true], by
      show s.trk.slots[st] = _
      cases s.trk.slots[st] <;> simp [Option.filter]⟩⟩
  | cons tag tags ih =>
    have hfreed : (freeRecord tag s).trk = (untracked tag s).trk := by rw [freeRecord_untracked]; rfl
    obtain ⟨htable, hstations⟩ := ih (freeRecord tag s)
    refine ⟨fun tag' => ?_, fun st => ?_⟩
    · rw [List.foldl_cons, htable, hfreed]
      simp only [untracked]
      by_cases hmem : tag' ∈ tags
      · rw [if_pos hmem, if_pos (List.mem_cons_of_mem _ hmem)]
      · rw [if_neg hmem]
        by_cases heq : tag' = tag
        · rw [if_pos (heq ▸ List.mem_cons_self), heq]
          exact Vector.getElem_set_self _
        · rw [if_neg (by simp [heq, hmem])]
          exact Vector.getElem_set_ne _ _ fun h => heq (Fin.ext h.symm)
    · obtain ⟨hlists, hslots⟩ := untracked_station tag s st
      rw [List.foldl_cons, (hstations st).1, (hstations st).2, hfreed, hlists, hslots, List.filter_filter, Option.filter_filter]
      simp only [List.mem_cons, not_or, Bool.decide_and, Bool.and_comm, ne_eq, and_self]

/-! ### The sets that are voided -/

/-- A record after the plan has voided the sets of these names. -/
def SetRec.voidedIn (names : List SetName) (r : SetRec) : SetRec :=
  if r.name ∈ names then { r with state := .voided, deadline := none } else r

theorem SetRec.voidedIn_name (names : List SetName) (r : SetRec) : (r.voidedIn names).name = r.name := by
  rw [SetRec.voidedIn]
  split <;> rfl

theorem foldl_becomeVoided_sets (names : List SetName) (s : State) :
    (names.foldl (fun s n => becomeVoided n s) s).sets =
      { records := s.sets.records.map (SetRec.voidedIn names), voidOrder := s.sets.voidOrder ++ names } := by
  induction names generalizing s with
  | nil =>
    have hsame : SetRec.voidedIn [] = id := funext fun r => if_neg List.not_mem_nil
    simp [hsame, filter_const_true]
  | cons n names ih =>
    rw [List.foldl_cons, ih]
    simp only [becomeVoided, updateSet, List.map_map, List.append_assoc, List.singleton_append]
    congr 1
    refine List.map_congr_left fun r _ => ?_
    simp only [Function.comp, SetRec.voidedIn]
    by_cases hn : r.name = n
    · simp [hn]
    · simp [hn]

/-! ### The order of the voided sets -/

section
variable (s : State)

theorem insertByFirst_perm (r : SetRec) (l : List SetRec) : (insertByFirst s r l).Perm (r :: l) := by
  induction l with
  | nil => exact List.Perm.refl _
  | cons x l ih =>
    simp only [insertByFirst]
    split
    · exact List.Perm.refl _
    · exact (ih.cons x).trans (List.Perm.swap r x l)

theorem insertByFirst_ascends {r : SetRec} {l : List SetRec} (h : l.Pairwise fun a b => firstPlace s a ≤ firstPlace s b) :
    (insertByFirst s r l).Pairwise fun a b => firstPlace s a ≤ firstPlace s b := by
  induction l with
  | nil => simp [insertByFirst]
  | cons x l ih =>
    obtain ⟨hx, hl⟩ := List.pairwise_cons.1 h
    simp only [insertByFirst]
    split
    next hlt =>
      refine List.pairwise_cons.2 ⟨fun y hy => ?_, h⟩
      rcases List.mem_cons.1 hy with rfl | hy
      · exact Int.le_of_lt hlt
      · exact Int.le_trans (Int.le_of_lt hlt) (hx y hy)
    next hle =>
      refine List.pairwise_cons.2 ⟨fun y hy => ?_, ih hl⟩
      rcases List.mem_cons.1 ((insertByFirst_perm s r l).mem_iff.1 hy) with rfl | hy
      · exact Int.not_lt.1 hle
      · exact hx y hy

/-- The records that the plan voids, in ascending order of their first order numbers. -/
def newlyVoided : List SetRec := (s.sets.records.filter (isVoidedNow s)).foldl (fun acc r => insertByFirst s r acc) []

theorem voidedNow_eq : voidedNow s = (newlyVoided s).map (·.name) := rfl

theorem foldl_insertByFirst (l acc : List SetRec) (h : acc.Pairwise fun a b => firstPlace s a ≤ firstPlace s b) :
    let sorted := l.foldl (fun acc r => insertByFirst s r acc) acc
    sorted.Pairwise (fun a b => firstPlace s a ≤ firstPlace s b) ∧ ∀ x, x ∈ sorted ↔ x ∈ l ∨ x ∈ acc := by
  induction l generalizing acc with
  | nil => exact ⟨h, by simp⟩
  | cons r l ih =>
    obtain ⟨hsorted, hmem⟩ := ih (insertByFirst s r acc) (insertByFirst_ascends s h)
    refine ⟨hsorted, fun x => (hmem x).trans ?_⟩
    rw [(insertByFirst_perm s r acc).mem_iff, List.mem_cons, List.mem_cons, ← or_assoc, or_comm (a := x ∈ l)]

theorem newlyVoided_ascends : (newlyVoided s).Pairwise fun a b => firstPlace s a ≤ firstPlace s b :=
  (foldl_insertByFirst s _ [] List.Pairwise.nil).1

theorem mem_newlyVoided (x : SetRec) : x ∈ newlyVoided s ↔ x ∈ s.sets.records ∧ isVoidedNow s x = true := by
  rw [newlyVoided, (foldl_insertByFirst s _ [] List.Pairwise.nil).2, List.mem_filter]
  simp

end

/-! ### The sets that are released -/

/-- A record after the release of those listed: the record of that name with members held is opened again. -/
def reopenedBy (s : State) (released : List SetRec) (x : SetRec) : SetRec :=
  match released.find? fun r => r.members ≠ 0 && r.name = x.name with
  | some r => reform s r
  | none => x

theorem reopenedBy_of_find {s : State} {released : List SetRec} {x r : SetRec}
    (h : released.find? (fun r => r.members ≠ 0 && r.name = x.name) = some r) : reopenedBy s released x = reform s r := by
  simp only [reopenedBy, h]

theorem reopenedBy_of_none {s : State} {released : List SetRec} {x : SetRec}
    (h : ∀ r ∈ released, r.members ≠ 0 → r.name ≠ x.name) : reopenedBy s released x = x := by
  have hnone : released.find? (fun r => r.members ≠ 0 && r.name = x.name) = none :=
    List.find?_eq_none.2 fun r hr => by
      have := h r hr
      simpa using this
  simp only [reopenedBy, hnone]

/-- A record of a name is freed by the release of those listed. -/
def freedBy (released : List SetRec) (n : SetName) : Prop := ∃ r ∈ released, r.members = 0 ∧ r.name = n

theorem releaseSet_freed {r : SetRec} (s : State) (h : r.members = 0) :
    (releaseSet r s).sets = {
      records := s.sets.records.filter fun x => decide (x.name ≠ r.name)
      voidOrder := s.sets.voidOrder.filter fun n => decide (n ≠ r.name) } := by
  rw [releaseSet, if_pos h]
  rfl

theorem releaseSet_reopened {r : SetRec} (s : State) (h : r.members ≠ 0) :
    (releaseSet r s).sets = { s.sets with
      records := s.sets.records.map fun x => if x.name = r.name then reform s r else x } := by
  rw [releaseSet, if_neg h]
  rfl

theorem reform_congr {s t : State} (r : SetRec) (hret : t.ret = s.ret) (htables : t.tables = s.tables) : reform t r = reform s r := by
  rw [reform, reform, hret, htables]

theorem reopenedBy_congr {s t : State} (released : List SetRec) (hret : t.ret = s.ret) (htables : t.tables = s.tables) :
    reopenedBy t released = reopenedBy s released := by
  funext x
  rcases h : released.find? fun r => r.members ≠ 0 && r.name = x.name with _ | r
  · simp only [reopenedBy, h]
  · simp only [reopenedBy, h, reform_congr r hret htables]

/-- Releasing records of different names frees some sets and opens the others again. -/
theorem foldl_releaseSet_sets (released : List SetRec) (hnodup : (released.map (·.name)).Nodup) (s : State) :
    (released.foldl (fun s r => releaseSet r s) s).sets = {
      records := (s.sets.records.filter fun x => released.all fun r => r.members ≠ 0 || r.name ≠ x.name).map
        (reopenedBy s released)
      voidOrder := s.sets.voidOrder.filter fun n => released.all fun r => r.members ≠ 0 || r.name ≠ n } := by
  induction released generalizing s with
  | nil =>
    have hsame : reopenedBy s [] = id := funext fun x => reopenedBy_of_none (by simp)
    simp [hsame, filter_const_true]
  | cons r released ih =>
    obtain ⟨hr, hrest⟩ := List.nodup_cons.1 hnodup
    have hret : (releaseSet r s).ret = s.ret := by simp
    have htables : (releaseSet r s).tables = s.tables := by simp
    rw [List.foldl_cons, ih hrest, reopenedBy_congr released hret htables]
    by_cases hmembers : r.members = 0
    · have hskip : reopenedBy s (r :: released) = reopenedBy s released := by
        funext x
        simp [reopenedBy, hmembers]
      rw [releaseSet_freed s hmembers, hskip]
      simp [List.filter_filter, hmembers, Bool.and_comm, eq_comm]
    · rw [releaseSet_reopened s hmembers]
      have hname (x : SetRec) : (if x.name = r.name then reform s r else x).name = x.name := by
        split
        next h => exact h.symm
        next => rfl
      have hcons (n : SetName) : (r :: released).all (fun r => r.members ≠ 0 || r.name ≠ n) =
          released.all fun r => r.members ≠ 0 || r.name ≠ n := by
        simp [hmembers]
      have hopened (x : SetRec) : reopenedBy s released (if x.name = r.name then reform s r else x) =
          reopenedBy s (r :: released) x := by
        by_cases hx : x.name = r.name
        · rw [if_pos hx, reopenedBy_of_none (x := reform s r) fun y hy _ hyr => hr (List.mem_map.2 ⟨y, hy, hyr⟩),
            reopenedBy_of_find (r := r) (List.find?_cons_of_pos (by simp [hmembers, hx]))]
        · have hskip : (r :: released).find? (fun y => y.members ≠ 0 && y.name = x.name) =
              released.find? fun y => y.members ≠ 0 && y.name = x.name :=
            List.find?_cons_of_neg (by simp [eq_comm (a := r.name), hx])
          rw [if_neg hx, reopenedBy, reopenedBy, hskip]
      simp only [List.filter_map, List.map_map, Function.comp_def, hname, hcons, hopened]

end Sys2Proof.Machine
end


-- ==== Sys2Proof/Proofs/Settling.lean ====
section
/-! SUPPORT. SETTLE and the snapshot as a whole (R22, R62, R98, R100 to R112, R116, R142, R147). -/

namespace Sys2Proof.Machine

/-! ### The DONE records that are released -/

/-- A DONE record for which no sheet is bound. -/
def releasedDone (s : State) (x : SetRec) : Bool := x.state = .done && !anyBound s x

theorem releaseDone_eq (s : State) :
    releaseDone s = (s.sets.records.filter (releasedDone s)).foldl (fun s r => releaseSet r s) s := rfl

section
variable {s : State}

theorem all_released_iff (p : SetRec → Prop) [DecidablePred p] :
    (s.sets.records.filter (releasedDone s)).all (fun r => r.members ≠ 0 || decide (p r)) = true ↔
      ∀ r ∈ s.sets.records, releasedDone s r = true → r.members = 0 → p r := by
  simp only [List.all_eq_true, List.mem_filter, Bool.or_eq_true, decide_eq_true_iff, and_imp]
  exact ⟨fun h r hr hreleased hmembers => (h r hr hreleased).resolve_left (not_not_intro hmembers),
    fun h r hr hreleased => Decidable.or_iff_not_imp_left.2 fun hmembers => h r hr hreleased (Decidable.not_not.1 hmembers)⟩

variable (hnodup : (s.sets.records.map (·.name)).Nodup)
include hnodup

theorem reopenedBy_released {x : SetRec} (hx : x ∈ s.sets.records) (hkept : ¬(releasedDone s x = true ∧ x.members = 0)) :
    reopenedBy s (s.sets.records.filter (releasedDone s)) x = if releasedDone s x then reform s x else x := by
  have hsame {r : SetRec} (hr : r ∈ s.sets.records) (hname : r.name = x.name) : r = x := record_eq_of_name hnodup hr hx hname
  by_cases hreleased : releasedDone s x = true
  · have hmem : x ∈ s.sets.records.filter (releasedDone s) := List.mem_filter.2 ⟨hx, hreleased⟩
    have hmembers : x.members ≠ 0 := fun h => hkept ⟨hreleased, h⟩
    rw [if_pos hreleased]
    rcases hfind : (s.sets.records.filter (releasedDone s)).find? (fun r => r.members ≠ 0 && r.name = x.name) with _ | r
    · have := List.find?_eq_none.1 hfind x hmem
      simp [hmembers] at this
    · have hr : r ∈ s.sets.records := (List.mem_filter.1 (List.mem_of_find?_eq_some hfind)).1
      have hname : r.name = x.name := by
        have := List.find?_some hfind
        simp only [Bool.and_eq_true, decide_eq_true_iff] at this
        exact this.2
      rw [reopenedBy_of_find hfind, hsame hr hname]
  · rw [if_neg hreleased]
    refine reopenedBy_of_none fun r hr _ hname => hreleased ?_
    obtain ⟨hmem, hdone⟩ := List.mem_filter.1 hr
    rwa [hsame hmem hname] at hdone

/-- The DONE records for which no sheet is bound are freed, or opened again where members are held. -/
theorem releaseDone_sets :
    (releaseDone s).sets = {
      records := (s.sets.records.filter fun x => decide (¬(releasedDone s x = true ∧ x.members = 0))).map fun x =>
        if releasedDone s x then reform s x else x
      voidOrder := s.sets.voidOrder.filter fun n =>
        decide (∀ x ∈ s.sets.records, releasedDone s x = true → x.members = 0 → x.name ≠ n) } := by
  have hsub : ((s.sets.records.filter (releasedDone s)).map (·.name)).Nodup :=
    hnodup.sublist (List.filter_sublist.map _)
  have hrecords : (s.sets.records.filter fun x =>
      (s.sets.records.filter (releasedDone s)).all fun r => r.members ≠ 0 || r.name ≠ x.name) =
      s.sets.records.filter fun x => decide (¬(releasedDone s x = true ∧ x.members = 0)) := by
    refine List.filter_congr fun x hx => Bool.eq_iff_iff.2 ?_
    rw [all_released_iff, decide_eq_true_iff]
    refine ⟨fun h hfreed => h x hx hfreed.1 hfreed.2 rfl, fun h r hr hreleased hmembers hname => h ?_⟩
    rw [← record_eq_of_name hnodup hr hx hname]
    exact ⟨hreleased, hmembers⟩
  have hvoid : (s.sets.voidOrder.filter fun n =>
      (s.sets.records.filter (releasedDone s)).all fun r => r.members ≠ 0 || r.name ≠ n) =
      s.sets.voidOrder.filter fun n =>
        decide (∀ x ∈ s.sets.records, releasedDone s x = true → x.members = 0 → x.name ≠ n) :=
    List.filter_congr fun n _ => Bool.eq_iff_iff.2 ((all_released_iff _).trans decide_eq_true_iff.symm)
  rw [releaseDone_eq, foldl_releaseSet_sets _ hsub, hrecords, hvoid]
  congr 1
  refine List.map_congr_left fun x hx => ?_
  obtain ⟨hmem, hkept⟩ := List.mem_filter.1 hx
  exact reopenedBy_released hnodup hmem (of_decide_eq_true hkept)

end

/-! ### The snapshot by its steps -/

section
variable (s : State)

/-- The plan that the snapshot forms. -/
def planOf : PlanRec := { snapshotPlan s with number := nextPlanNumber s.plan.counter, isOpen := true }

/-- The marks are made, the sets voided and the LOST sheets freed; the cause list has passed to the plan. -/
def withoutLost : State :=
  let t := (lostTags s).foldl (fun s t => freeRecord t s) ((voidedNow s).foldl (fun s n => becomeVoided n s) (applyMarks s))
  { t with jam.causes := [], jam.more := false }

theorem snapshot_eq : snapshot s = enterState .awaitClear (releaseDone (formPlan (snapshotPlan s) (withoutLost s))) := rfl

theorem withoutLost_frame :
    (withoutLost s).tables = s.tables ∧ (withoutLost s).ret = (applyMarks s).ret ∧ (withoutLost s).plan = s.plan ∧
    (withoutLost s).sup = s.sup ∧ (withoutLost s).link = s.link ∧ (withoutLost s).svc = s.svc ∧ (withoutLost s).cap = s.cap ∧
    (withoutLost s).front = s.front ∧ (withoutLost s).free = s.free ∧ (withoutLost s).pos.msCount = s.pos.msCount ∧
    (withoutLost s).pos.p = s.pos.p ∧
    (withoutLost s).sets = {
      records := s.sets.records.map fun r => (uncountDelivered s r).voidedIn (voidedNow s)
      voidOrder := s.sets.voidOrder ++ voidedNow s } := by
  obtain ⟨u, hu⟩ : ∃ u, u = (voidedNow s).foldl (fun s n => becomeVoided n s) (applyMarks s) := ⟨_, rfl⟩
  obtain ⟨v, hv⟩ : ∃ v, v = (lostTags s).foldl (fun s t => freeRecord t s) u := ⟨_, rfl⟩
  have hfree := freeRecord_fold _ _ _ hv
  have hvoid := becomeVoided_fold _ _ _ hu
  have hsets : u.sets = _ := hu ▸ foldl_becomeVoided_sets (voidedNow s) (applyMarks s)
  have hv' : withoutLost s = { v with jam.causes := [], jam.more := false } := by rw [hv, hu]; rfl
  rw [hv']
  simp only [hfree, hvoid, hsets, applyMarks_frame]
  simp [applyMarks, Function.comp_def]

theorem mem_lostTags (tag : Tag) : tag ∈ lostTags s ↔ ∃ r, s.trk.table[tag] = some r ∧ isLost s r = true := by
  rw [lostTags, mem_indexesWhere]
  rcases s.trk.table[tag] with _ | r <;> simp

theorem withoutLost_trk :
    (∀ tag : Tag, (withoutLost s).trk.table[tag] =
      if tag ∈ lostTags s then none else (s.trk.table[tag]).map (markRecord s)) ∧
    ∀ st : Station, (withoutLost s).trk.lists[st] = (s.trk.lists[st]).filter (fun x => decide (x.tag ∉ lostTags s)) ∧
      (withoutLost s).trk.slots[st] = (s.trk.slots[st]).filter fun o => decide (o.tag ∉ lostTags s) := by
  have hfreed := foldl_freeRecord_trk (lostTags s) ((voidedNow s).foldl (fun s n => becomeVoided n s) (applyMarks s))
  have htrk : ((voidedNow s).foldl (fun s n => becomeVoided n s) (applyMarks s)).trk = (applyMarks s).trk := by
    simp [becomeVoided_fold _ _ _ rfl]
  have hmarked (tag : Tag) : (applyMarks s).trk.table[tag] = (s.trk.table[tag]).map (markRecord s) :=
    tabulate_getElem _ _ tag.isLt
  rw [htrk] at hfreed
  simp only [hmarked, applyMarks_frame] at hfreed
  exact hfreed

/-! ### The plan, its notice and its event -/

theorem formPlan_plan (p : PlanRec) : (formPlan p s).plan =
    { plan := some { p with number := nextPlanNumber s.plan.counter, isOpen := true }, counter := nextPlanNumber s.plan.counter } := by
  simp [formPlan]

/-- The PLAN notice and the PLAN event of the snapshot, as they come out. -/
theorem formPlan_outputs : SameOutputs (formPlan (snapshotPlan s) (withoutLost s))
    (offerEvent .plan s.pos.p none none (planOf s).number
      (makeNotice (.plan (planSummary (planOf s) (Config.absentWord s.free))) s)) := by
  obtain ⟨-, -, hplan, -, hlink, hsvc, hcap, -, hfree, hms, -, -⟩ := withoutLost_frame s
  obtain ⟨u, hu⟩ : ∃ u, u = withoutLost s := ⟨_, rfl⟩
  rw [← hu] at hplan hlink hsvc hcap hfree hms ⊢
  have hstart (y : Planner) : SameOutputs { u with plan := y, free := s.free } s := ⟨hlink, hsvc, hcap, hms⟩
  simp only [formPlan, hplan, freeWord, hfree]
  exact SameOutputs.offerEvent _ _ _ _ _ (SameOutputs.useFree 1 ((hstart _).makeNotice _))

/-! ### The entries and the sets -/

theorem markEntry_order (e : Entry) : (markEntry s e).order = e.order := by
  simp only [markEntry]
  (repeat' split) <;> rfl

theorem markEntry_eq (e : Entry) :
    markEntry s e = match recordOf s e with
      | some r =>
        if isLost s r then { e with state := .reprint, tag := none, mark := none }
        else { e with mark := some (splitPurge s r) }
      | none =>
        if e.state = .delivered ∧ atOrAbove s (resumePoint s) e.order = true then { e with state := .reprint, mark := none }
        else { e with mark := none } := by
  rw [markEntry]
  rcases recordOf s e with _ | r
  · simp only [Bool.and_eq_true, decide_eq_true_iff]
  · rfl

theorem reprintCount_eq (entries : List Entry) :
    reprintCount entries = (entries.filter fun e => e.state = .reprint ||
      (e.state = .inFlight && (e.mark = some .wasteDivert || e.mark = some .wasteAtDest))).length := by
  rw [reprintCount]
  congr 2
  funext e
  rcases e.mark with _ | m
  · simp
  · cases m <;> simp [Mark.isWaste]

end

theorem memberOf_congr (t : Tables) {r q : SetRec} (e : Entry) (hname : q.name = r.name) (hfirst : q.first = r.first) :
    memberOf t q e = memberOf t r e := by
  rw [memberOf, memberOf, hname, hfirst]

/-- A record as the marks and the voiding of the plan leave it. -/
def plannedRecord (s : State) (x : SetRec) : SetRec := (uncountDelivered s x).voidedIn (voidedNow s)

theorem plannedRecord_frame (s : State) (x : SetRec) :
    (plannedRecord s x).name = x.name ∧ (plannedRecord s x).first = x.first ∧ (plannedRecord s x).last = x.last ∧
    (plannedRecord s x).members = x.members ∧ (plannedRecord s x).cancelled = x.cancelled ∧
    (plannedRecord s x).rebuilt = x.rebuilt := by
  rw [plannedRecord, SetRec.voidedIn]
  split <;> exact ⟨rfl, rfl, rfl, rfl, rfl, rfl⟩

section
variable {s : State} {x : SetRec} (hnodup : (s.sets.records.map (·.name)).Nodup) (hx : x ∈ s.sets.records)
include hnodup hx

theorem mem_voidedNow_iff : x.name ∈ voidedNow s ↔ isVoidedNow s x = true := by
  rw [voidedNow_eq, List.mem_map]
  constructor
  · rintro ⟨y, hy, hname⟩
    obtain ⟨hmem, hvoided⟩ := (mem_newlyVoided s y).1 hy
    rwa [record_eq_of_name hnodup hmem hx hname] at hvoided
  · exact fun h => ⟨x, (mem_newlyVoided s x).2 ⟨hx, h⟩, rfl⟩

theorem plannedRecord_eq :
    plannedRecord s x =
      if isVoidedNow s x = true then { uncountDelivered s x with state := .voided, deadline := none }
      else uncountDelivered s x := by
  have hvoided : (uncountDelivered s x).name ∈ voidedNow s ↔ isVoidedNow s x = true :=
    mem_voidedNow_iff (x := x) hnodup hx
  by_cases h : isVoidedNow s x = true
  · rw [plannedRecord, SetRec.voidedIn, if_pos (hvoided.2 h), if_pos h]
  · rw [plannedRecord, SetRec.voidedIn, if_neg (mt hvoided.1 h), if_neg h]

theorem plannedRecord_done_iff : (plannedRecord s x).state = .done ↔ x.state = .done := by
  rw [plannedRecord_eq hnodup hx]
  by_cases h : isVoidedNow s x = true
  · rw [if_pos h]
    have hstate := ((isVoidedNow_iff s x).1 h).1
    constructor
    · intro hdone
      cases hdone
    · intro hdone
      rcases hstate with hopened | hcomplete
      · rw [hdone] at hopened
        cases hopened
      · rw [hdone] at hcomplete
        cases hcomplete
  · rw [if_neg h]
    rfl

end

/-! ### The sets after the snapshot -/

/-- The snapshot before the change of state. -/
def settledPlan (s : State) : State := formPlan (snapshotPlan s) (withoutLost s)

theorem settledPlan_frame (s : State) :
    (settledPlan s).tables = s.tables ∧ (settledPlan s).ret = (applyMarks s).ret ∧
    (settledPlan s).plan = { plan := some (planOf s), counter := (planOf s).number } ∧ (settledPlan s).sup = s.sup ∧
    (settledPlan s).front = s.front ∧ (settledPlan s).pos.p = s.pos.p ∧ (settledPlan s).trk = (withoutLost s).trk ∧
    (settledPlan s).jam.causes = [] ∧ (settledPlan s).jam.more = false ∧
    (settledPlan s).sets = { records := s.sets.records.map (plannedRecord s), voidOrder := s.sets.voidOrder ++ voidedNow s } := by
  obtain ⟨htables, hret, hplan, hsup, -, -, -, hfront, -, -, hp, hsets⟩ := withoutLost_frame s
  have hmade : (settledPlan s).plan = { plan := some (planOf s), counter := (planOf s).number } := by
    rw [settledPlan, formPlan_plan, hplan]
    rfl
  rw [hmade]
  simp only [settledPlan, formPlan_frame]
  exact ⟨htables, hret, trivial, hsup, hfront, hp, trivial, rfl, rfl, hsets⟩

theorem snapshot_settled (s : State) : snapshot s = enterState .awaitClear (releaseDone (settledPlan s)) := rfl

/-- A sheet is bound for a set once the plan has marked the entries (R142). -/
def BoundAfter (s : State) (x : SetRec) : Prop :=
  ∃ e ∈ s.ret.entries.map (markEntry s), e.state = .inFlight ∧ memberOf s.tables x e = true ∧
    (e.mark = some .wasteAtDest ∨ (x.cancelled = true ∧ e.mark = none))

theorem reform_planned (s : State) (x : SetRec) :
    reform (settledPlan s) (plannedRecord s x) = { x with
      first := (((s.ret.entries.map (markEntry s)).find? fun e => memberOf s.tables x e && decide (e.state ≠ .skipped)).map
        (·.order)).getD x.first
      delivered := 0
      state := .opened
      deadline := none } := by
  obtain ⟨htables, hret, -⟩ := settledPlan_frame s
  obtain ⟨hname, hfirst, hlast, hmembers, hcancelled, hrebuilt⟩ := plannedRecord_frame s x
  have hmember (e : Entry) : memberOf s.tables (plannedRecord s x) e = memberOf s.tables x e := memberOf_congr _ e hname hfirst
  simp only [reform, htables, hret, hmember, hfirst]
  rcases hplanned : plannedRecord s x with ⟨name, first, last, members, delivered, state, cancelled, rebuilt, deadline⟩
  rw [hplanned] at hname hlast hmembers hcancelled hrebuilt
  simp only at hname hlast hmembers hcancelled hrebuilt
  subst hname hlast hmembers hcancelled hrebuilt
  rfl

section
variable {s : State} {x : SetRec} (hnodup : (s.sets.records.map (·.name)).Nodup) (hx : x ∈ s.sets.records)
include hnodup hx

theorem releasedDone_planned_iff : releasedDone (settledPlan s) (plannedRecord s x) = true ↔ x.state = .done ∧ ¬BoundAfter s x := by
  obtain ⟨htables, hret, -⟩ := settledPlan_frame s
  obtain ⟨hname, hfirst, -, -, hcancelled, -⟩ := plannedRecord_frame s x
  have hbound : anyBound (settledPlan s) (plannedRecord s x) = true ↔ BoundAfter s x := by
    rw [anyBound, htables, hret, List.any_eq_true]
    simp only [boundFor_iff, memberOf_congr _ _ hname hfirst, hcancelled]
    rfl
  rw [releasedDone, Bool.and_eq_true, decide_eq_true_iff, plannedRecord_done_iff hnodup hx, Bool.not_eq_true', ← hbound,
    Bool.not_eq_true]

end

end Sys2Proof.Machine
end


-- ==== Sys2Proof/Proofs/Snapshot.lean ====
section
/-! SUPPORT. The settling of SETTLE's statement from the steps of the snapshot (R98 to R112, R116, R142, R147). -/

namespace Sys2Proof.Machine

/-! ### The sets -/

section
variable {s : State} (hnodup : (s.sets.records.map (·.name)).Nodup)
include hnodup

theorem settled_sets :
    (releaseDone (settledPlan s)).sets = {
      records := (s.sets.records.filter fun x =>
          decide (¬(releasedDone (settledPlan s) (plannedRecord s x) = true ∧ x.members = 0))).map fun x =>
        if releasedDone (settledPlan s) (plannedRecord s x) then reform (settledPlan s) (plannedRecord s x) else plannedRecord s x
      voidOrder := (s.sets.voidOrder ++ voidedNow s).filter fun n => decide (∀ x ∈ s.sets.records,
        releasedDone (settledPlan s) (plannedRecord s x) = true → x.members = 0 → x.name ≠ n) } := by
  obtain ⟨-, -, -, -, -, -, -, -, -, hsets⟩ := settledPlan_frame s
  have hnames : ((settledPlan s).sets.records.map (·.name)).Nodup := by
    have hsame : ((·.name) : SetRec → SetName) ∘ plannedRecord s = (·.name) := funext fun x => (plannedRecord_frame s x).1
    rwa [hsets, List.map_map, hsame]
  have hmembers (x : SetRec) : (plannedRecord s x).members = x.members := (plannedRecord_frame s x).2.2.2.1
  have hname (x : SetRec) : (plannedRecord s x).name = x.name := (plannedRecord_frame s x).1
  rw [releaseDone_sets hnames, hsets]
  simp only [List.filter_map, List.map_map, Function.comp_def, hmembers, List.forall_mem_map, hname]

end

/-! ### The tracking -/

theorem snapshot_trk (s : State) :
    (snapshot s).trk.table = (withoutLost s).trk.table ∧ (snapshot s).trk.lists = (withoutLost s).trk.lists ∧
    (snapshot s).trk.slots = (withoutLost s).trk.slots := by
  obtain ⟨-, -, -, -, -, -, htrk, -⟩ := settledPlan_frame s
  simp only [snapshot_settled, enterState_frame, releaseDone_frame, htrk, and_self]

/-- A LOST sheet is freed, and the others have their disposition. -/
theorem snapshot_record {s : State} {tag : Tag} {r : TrackRec} (hr : s.trk.table[tag] = some r) :
    ((snapshot s).trk.table[tag] = none ↔ isLost s r = true) ∧
    (isLost s r = false → (snapshot s).trk.table[tag] = some { r with disp := some (splitPurge s r) }) := by
  have htable : (snapshot s).trk.table[tag] = if tag ∈ lostTags s then none else some (markRecord s r) := by
    rw [(snapshot_trk s).1, (withoutLost_trk s).1 tag, hr, Option.map_some]
  have hlost : tag ∈ lostTags s ↔ isLost s r = true := by
    rw [mem_lostTags, hr]
    simp
  rw [htable]
  by_cases h : isLost s r = true
  · rw [if_pos (hlost.2 h)]
    simp [h]
  · rw [if_neg (mt hlost.1 h), markRecord, if_neg h]
    simp [h]

theorem lostTags_stays (s : State) (tag : Tag) :
    decide (tag ∉ lostTags s) = match s.trk.table[tag] with
      | some r => !isLost s r
      | none => true := by
  rw [Bool.eq_iff_iff, decide_eq_true_iff, mem_lostTags]
  rcases s.trk.table[tag] with _ | r
  · simp
  · simp

/-! ### What comes out -/

theorem settledPlan_outputs (s : State) :
    SameOutputs (releaseDone (settledPlan s)) (offerEvent .plan s.pos.p none none (planOf s).number
      (makeNotice (.plan (planSummary (planOf s) (Config.absentWord s.free))) s)) := by
  obtain ⟨hlink, hsvc, hcap, hms⟩ := formPlan_outputs s
  simp only [SameOutputs, releaseDone_frame]
  exact ⟨hlink, hsvc, hcap, hms⟩

theorem settled_frame (s : State) : (releaseDone (settledPlan s)).sup = s.sup ∧ (releaseDone (settledPlan s)).front = s.front := by
  obtain ⟨-, -, -, hsup, hfront, -⟩ := settledPlan_frame s
  simp only [releaseDone_frame]
  exact ⟨hsup, hfront⟩

/-- The PLAN notice precedes the STATE notice. -/
theorem snapshot_notices {s : State} (hstate : s.sup.state = .stopping) (hcap : s.cap.state ≠ .running) (hloss : s.link.lossCount = 0)
    (hroom : s.link.notices.length + 2 ≤ 48) :
    noticesHeld (finish (snapshot s)) =
      noticesHeld s ++ [.plan (planSummary (planOf s) (Config.absentWord s.free)), .state .awaitClear none] := by
  obtain ⟨v, hv⟩ : ∃ v, v = releaseDone (settledPlan s) := ⟨_, rfl⟩
  obtain ⟨hlink, -, hcap', -⟩ := settledPlan_outputs s
  rw [offerEvent_unrecorded (.inl (by simpa using hcap)), makeNotice_of_room (s := s) _ (by omega), ← hv] at hlink hcap'
  have hvstate : v.sup.state ≠ .awaitClear := by rw [hv, (settled_frame s).1, hstate]; decide
  have hvcap : v.cap.state ≠ .running := by rwa [hcap']
  have hvroom : v.link.notices.length < 48 := by
    rw [hlink]
    simp only [List.length_append, List.length_singleton]
    omega
  have hvloss : (enterState .awaitClear v).link.lossCount = 0 := by rw [enterState_lossCount hvcap hvroom hvstate, hlink]; exact hloss
  rw [snapshot_settled, ← hv, noticesHeld_finish _ hvloss, noticesHeld, noticesHeld, enterState_notices hvstate hvcap hvroom]
  simp [hlink]

theorem settleDue_of {s : State} {since : Nat} (hstate : s.sup.state = .stopping) (hfrom : s.pos.settleFrom = some since)
    (hdue : max since s.pos.lastPulse + s.tables.limits.settleTime * 24000 ≤ s.pos.clock) : settleDue s = true := by
  have htime : decide (s.tables.limits.settleTime * clkMs ≤ s.pos.clock - max since s.pos.lastPulse) = true :=
    decide_eq_true (show s.tables.limits.settleTime * 24000 ≤ s.pos.clock - max since s.pos.lastPulse by omega)
  simp only [settleDue, hfrom, hstate, htime, decide_true, Bool.and_self]

/-- Settles O52. -/
theorem settleFormsThePlan : Obligations.SettleFormsThePlan := by
  refine ⟨fun since s hstate hfrom hdue => ?_, fun s => ?_⟩
  · have hnot : s.sup.state ≠ .awaitClear := by simp [hstate]
    obtain ⟨htables, hret, hplan, hsup, hfront, hp, -, hcauses, hmore, -⟩ := settledPlan_frame s
    obtain ⟨htable, hlists, hslots⟩ := snapshot_trk s
    have hstopping : (releaseDone (settledPlan s)).sup.state ≠ .awaitClear := by rwa [(settled_frame s).1]
    have hsnapshotRet : (snapshot s).ret = (applyMarks s).ret := by
      rw [snapshot_settled]
      simp only [enterState_frame, releaseDone_frame, hret]
    have hentries : (finish (snapshot s)).ret.entries = s.ret.entries.map (markEntry s) := by
      rw [finish_frame .. |>.2.2.2.2.2.2.1, hsnapshotRet]
      rfl
    refine ⟨finish (snapshot s), planOf s, if_pos (settleDue_of hstate hfrom hdue), ?_, rfl, rfl, rfl, rfl, rfl, rfl, rfl, rfl, rfl,
      ?_, ?_, ?_, ?_, ?_, by simp, by simp, fun tag r hr => ?_, fun st => ?_, by simp, ?_, ?_, ?_, ⟨?_, snapshot_notices hstate⟩,
      newlyVoided s, rfl, newlyVoided_ascends s, mem_newlyVoided s, fun hnodup => ?_⟩
    · simp only [finish_frame, snapshot_settled, enterState_frame, releaseDone_frame, hplan]
    · simp only [finish_frame, snapshot_settled, enterState_sup _ _ hstopping, Supervisor.moveTo]
    · simp only [finish_frame, snapshot_settled, enterState_sup _ _ hstopping, Supervisor.moveTo, haltAsserted]
    · simp only [finish_frame, snapshot_settled, enterState_notedP hstopping, releaseDone_frame, hp, if_true]
    · simp only [finish_frame, snapshot_settled, enterState_frame, releaseDone_frame, hcauses]
    · simp only [finish_frame, snapshot_settled, enterState_frame, releaseDone_frame, hmore]
    · simp only [finish_frame]
      exact snapshot_record hr
    · simp only [finish_frame, hlists, hslots]
      rw [((withoutLost_trk s).2 st).1, ((withoutLost_trk s).2 st).2]
      exact ⟨List.filter_congr fun x _ => lostTags_stays s x.tag,
        congrArg (fun p => Option.filter p s.trk.slots[st]) (funext fun o => lostTags_stays s o.tag)⟩
    · rw [hentries, List.map_map]
      exact List.map_congr_left fun e _ => markEntry_order s e
    · rw [hentries]
      exact List.map_congr_left fun e _ => markEntry_eq s e
    · rw [hentries]
      exact reprintCount_eq _
    · obtain ⟨hlink, hsvc, hcap, -⟩ := settledPlan_outputs s
      exact ⟨releaseDone (settledPlan s), rfl, hlink, hsvc, hcap, (settled_frame s).1, (settled_frame s).2⟩
    · intro bound freed gone
      have hbound (x : SetRec) : bound x ↔ BoundAfter s x := by
        simp only [bound, hentries, BoundAfter]
      have hreleased {x : SetRec} (hx : x ∈ s.sets.records) :
          releasedDone (settledPlan s) (plannedRecord s x) = true ↔ x.state = .done ∧ ¬bound x := by
        rw [releasedDone_planned_iff hnodup hx, hbound]
      have hfreed {x : SetRec} (hx : x ∈ s.sets.records) :
          (releasedDone (settledPlan s) (plannedRecord s x) = true ∧ x.members = 0) ↔ freed x := by
        rw [hreleased hx, and_assoc]
      have hsets : (finish (snapshot s)).sets = (releaseDone (settledPlan s)).sets := by
        simp only [finish_frame, snapshot_settled, enterState_frame]
      rw [hsets, settled_sets hnodup]
      refine ⟨?_, List.filter_congr fun n _ => Bool.eq_iff_iff.2 ?_⟩
      · have hkept : (s.sets.records.filter fun x =>
            decide (¬(releasedDone (settledPlan s) (plannedRecord s x) = true ∧ x.members = 0))) =
            s.sets.records.filter fun x => decide (¬freed x) :=
          List.filter_congr fun x hx => Bool.eq_iff_iff.2 (by rw [decide_eq_true_iff, decide_eq_true_iff, hfreed hx])
        simp only [hkept]
        refine List.map_congr_left fun x hmem => ?_
        have hx := (List.mem_filter.1 hmem).1
        by_cases hdone : x.state = .done ∧ ¬bound x
        · rw [if_pos ((hreleased hx).2 hdone), if_pos hdone, reform_planned, ← hentries]
        · rw [if_neg (mt (hreleased hx).1 hdone), if_neg hdone, plannedRecord_eq hnodup hx]
          rfl
      · rw [decide_eq_true_iff, decide_eq_true_iff]
        exact ⟨fun h x hx hfree => h x hx ((hfreed hx).2 hfree).1 ((hfreed hx).2 hfree).2,
          fun h x hx hdone hmembers => h x hx ((hfreed hx).1 ⟨hdone, hmembers⟩)⟩
  · refine ⟨fun e r => recordOf_eq_some_iff, isLost_iff s, breaksJob_iff s, resumePoint_none,
      fun b hb => ⟨resumePoint_unset hb, fun n hn => ?_⟩, atOrAbove_iff s _, fun r => ⟨splitPurge_below, fun h =>
      ⟨splitPurge_tail h, fun dv => splitPurge_divert h, splitPurge_dest h⟩⟩, isVoidedNow_iff s, clearZones_getLsbD s,
      planDispositions_eq s, fun x h => firstPlace_eq x⟩
    have hname : entrySet s.tables b = some { bin := (s.tables.routes[b.route]).bin, set := n } := by rw [entrySet, hn]; rfl
    exact ⟨resumePoint_unheld hb hname, fun x m => resumePoint_member hb hname⟩

end Sys2Proof.Machine
end


-- ==== Sys2Proof/Proofs/Transfer.lean ====
section
/-! SUPPORT. The transfer from the serial memory word by word, and the words that it gives (R17; log 13). -/

namespace Sys2Proof.Machine

/-! ### The words -/

theorem memoryWords_getElem (memory : List Byte) {n i : Nat} (h : i < n) :
    (memoryWords memory n)[i]? = some (wordOf (memory[2 * i]?.getD 0xFF) (memory[2 * i + 1]?.getD 0xFF)) := by
  simp only [memoryWords, List.getElem?_map, List.getElem?_range h, Option.map_some]

theorem imageWords_getElem (image : List Word) {n i : Nat} (h : i < n) :
    (imageWords image n)[i]? = some (image[i]?.getD 0xFFFF) := by
  rw [imageWords]
  by_cases hi : i < image.length
  · rw [List.getElem?_append_left (by rw [List.length_take]; omega), List.getElem?_take_of_lt h, List.getElem?_eq_getElem hi,
      Option.getD_some]
  · rw [List.getElem?_append_right (by rw [List.length_take]; omega), List.getElem?_eq_none (by omega : image.length ≤ i),
      List.getElem?_replicate_of_lt (by rw [List.length_take]; omega), Option.getD_none]

/-- Word `k` that the serial memory gives. -/
def memoryWord (memory : List Byte) (k : Nat) : Word := wordOf (memory[2 * k]?.getD 0xFF) (memory[2 * k + 1]?.getD 0xFF)

theorem memoryWords_succ (memory : List Byte) (k : Nat) :
    memoryWords memory (k + 1) = memoryWords memory k ++ [memoryWord memory k] := by
  rw [memoryWords, List.range_succ, List.map_append]
  rfl

theorem loadWords_append (ws vs : List Word) (x : Reading × Tables) : loadWords (ws ++ vs) x = loadWords vs (loadWords ws x) := by
  induction ws generalizing x with
  | nil => rfl
  | cons w ws ih =>
    by_cases h : x.1.ended = true
    · rw [loadWords_ended h, loadWords_ended h, loadWords_ended h]
    · simp only [List.cons_append, loadWords, if_neg h, ih]

theorem loadWords_singleton (w : Word) (x : Reading × Tables) : loadWords [w] x = loadWord x w := by
  by_cases h : x.1.ended = true
  · rw [loadWords_ended h, loadWord_ended h]
  · simp only [loadWords, if_neg h]

/-! ### The bits of a word -/

/-- The shift register after `j` bits from bit `i` of the transfer on. -/
def shiftedIn (memory : List Byte) (i : Nat) : Nat → Word → Word
  | 0, w => w
  | j + 1, w => (shiftedIn memory i j w <<< 1) ||| (if mdiLevel memory (i + j) then 1 else 0)

theorem bitWord_getLsbD (b : Bool) (p : Nat) : (if b then 1 else 0 : Word).getLsbD p = (b && decide (p = 0)) := by
  cases b
  · simp
  · rcases p with _ | p
    · rfl
    · simp [BitVec.getLsbD_one]

theorem shiftedIn_getLsbD (memory : List Byte) (i : Nat) (w : Word) {j p : Nat} (hj : j ≤ 16) (hp : p < j) :
    (shiftedIn memory i j w).getLsbD p = mdiLevel memory (i + (j - 1 - p)) := by
  induction j generalizing p with
  | zero => omega
  | succ j ih =>
    rw [shiftedIn, BitVec.getLsbD_or, bitWord_getLsbD, BitVec.getLsbD_shiftLeft]
    rcases p with _ | p
    · simp
    · have hstep := ih (by omega) (show p < j by omega)
      rw [show j + 1 - 1 - (p + 1) = j - 1 - p by omega, ← hstep]
      simp [show p + 1 < 16 by omega]

/-- Sixteen bits from a word's first bit on are the word, whatever the register held. -/
theorem shiftedIn_word (memory : List Byte) (k : Nat) (w : Word) : shiftedIn memory (16 * k) 16 w = memoryWord memory k := by
  refine BitVec.eq_of_getLsbD_eq fun p hp => ?_
  rw [shiftedIn_getLsbD memory (16 * k) w (Nat.le_refl 16) hp, memoryWord, wordOf_getLsbD, mdiLevel]
  by_cases hlow : p < 8
  · rw [if_pos hlow, show (16 * k + (16 - 1 - p)) / 8 = 2 * k + 1 by omega,
      show (16 * k + (16 - 1 - p)) % 8 = 7 - p by omega, BitVec.getMsbD_eq_getLsbD]
    simp [show 7 - p < 8 by omega, show 7 - (7 - p) = p by omega]
  · rw [if_neg hlow, show (16 * k + (16 - 1 - p)) / 8 = 2 * k by omega,
      show (16 * k + (16 - 1 - p)) % 8 = 15 - p by omega, BitVec.getMsbD_eq_getLsbD]
    simp [show 15 - p < 8 by omega, show 7 - (15 - p) = p - 8 by omega]

/-! ### The periods of a word -/

/-- The transfer goes on: the periods gone by, the shift register, and what has been read. -/
def LoaderAt (memory : List Byte) (n : Nat) (w : Word) (x : Reading × Tables) (s : State) : Prop :=
  s.load.msel = true ∧ s.load.memory = memory ∧ s.load.periods = n ∧ s.load.shift = w ∧ s.load.reading = x.1 ∧ s.tables = x.2

/-- The transfer has ended with what has been read. -/
def LoaderDone (x : Reading × Tables) (s : State) : Prop :=
  s.load.msel = false ∧ s.load.reading = x.1 ∧ s.tables = x.2 ∧ x.1.ended = true

theorem loaderPeriods_add (m n : Nat) (s : State) : loaderPeriods (m + n) s = loaderPeriods n (loaderPeriods m s) := by
  induction m generalizing s with
  | zero => rw [Nat.zero_add, loaderPeriods]
  | succ m ih => rw [Nat.succ_add, loaderPeriods, loaderPeriods, ih]

section
variable {memory : List Byte} {n : Nat} {w : Word} {x : Reading × Tables} {s : State}

theorem LoaderDone.periods (h : LoaderDone x s) (k : Nat) : LoaderDone x (loaderPeriods k s) := by
  induction k with
  | zero => exact h
  | succ k ih =>
    have hsame : loaderPeriod s = s := by simp [loaderPeriod, h.1]
    rwa [loaderPeriods, hsame]

theorem LoaderAt.quiet (h : LoaderAt memory n w x s) (hn : (n + 1) % 24 ≠ 12 ∨ n + 1 < 576) :
    LoaderAt memory (n + 1) w x (loaderPeriod s) := by
  obtain ⟨hmsel, hmemory, hperiods, hshift, hreading, htables⟩ := h
  rw [loaderPeriod_clock hmsel (by rwa [hperiods])]
  exact ⟨hmsel, hmemory, congrArg (· + 1) hperiods, hshift, hreading, htables⟩

theorem LoaderAt.quietPeriods (h : LoaderAt memory n w x s) (k : Nat)
    (hn : ∀ j < k, (n + j + 1) % 24 ≠ 12 ∨ n + j + 1 < 576) : LoaderAt memory (n + k) w x (loaderPeriods k s) := by
  induction k generalizing n s with
  | zero => exact h
  | succ k ih =>
    have hnext := ih (h.quiet (hn 0 (Nat.succ_pos k))) fun j hj => by
      have := hn (j + 1) (by omega)
      rwa [show n + 1 + j + 1 = n + (j + 1) + 1 by omega]
    rwa [show n + (k + 1) = n + 1 + k by omega]

/-- The period in which bit `i` is sampled. -/
theorem LoaderAt.sampled {i : Nat} (h : LoaderAt memory (24 * (24 + i) + 11) w x s) :
    loaderPeriod s = sampleMdi i (loaderClocked s) ∧ LoaderAt memory (24 * (24 + i) + 12) w x (loaderClocked s) := by
  obtain ⟨hmsel, hmemory, hperiods, hshift, hreading, htables⟩ := h
  exact ⟨loaderPeriod_sample hmsel (by rw [hperiods]), hmsel, hmemory, congrArg (· + 1) hperiods, hshift, hreading, htables⟩

/-- The register once bit `i` has been sampled. -/
def sampledWord (memory : List Byte) (i : Nat) (w : Word) : Word := (w <<< 1) ||| (if mdiLevel memory i then 1 else 0)

theorem LoaderAt.bit {i : Nat} (h : LoaderAt memory (24 * (24 + i)) w x s) (hi : i % 16 ≠ 15) :
    LoaderAt memory (24 * (24 + (i + 1))) (sampledWord memory i w) x (loaderPeriods 24 s) := by
  have hbefore := h.quietPeriods 11 fun j hj => .inl (by omega)
  obtain ⟨hperiod, hclocked⟩ := hbefore.sampled
  have hsampled : LoaderAt memory (24 * (24 + i) + 12) (sampledWord memory i w) x (loaderPeriod (loaderPeriods 11 s)) := by
    obtain ⟨hmsel, hmemory, hperiods, hshift, hreading, htables⟩ := hclocked
    rw [hperiod, sampleMdi, if_neg hi, hmemory, hshift]
    exact ⟨hmsel, hmemory, hperiods, rfl, hreading, htables⟩
  have hafter := hsampled.quietPeriods 12 fun j hj => .inl (by omega)
  rw [show 24 * (24 + (i + 1)) = 24 * (24 + i) + 12 + 12 by omega, show 24 = 11 + (1 + 12) from rfl, loaderPeriods_add,
    loaderPeriods_add]
  exact hafter

theorem LoaderAt.bits {k : Nat} (h : LoaderAt memory (24 * (24 + 16 * k)) w x s) {j : Nat} (hj : j ≤ 15) :
    LoaderAt memory (24 * (24 + (16 * k + j))) (shiftedIn memory (16 * k) j w) x (loaderPeriods (24 * j) s) := by
  induction j with
  | zero => exact h
  | succ j ih =>
    have hbit := (ih (by omega)).bit (by omega)
    rw [show 24 * (j + 1) = 24 * j + 24 by omega, loaderPeriods_add]
    exact hbit

/-- The periods of one word: it is read, and the transfer goes on or has ended. -/
theorem LoaderAt.word {k : Nat} (h : LoaderAt memory (24 * (24 + 16 * k)) w x s) :
    ((loadWord x (memoryWord memory k)).1.ended = false →
      LoaderAt memory (24 * (24 + 16 * (k + 1))) (memoryWord memory k) (loadWord x (memoryWord memory k)) (loaderPeriods 384 s)) ∧
    ((loadWord x (memoryWord memory k)).1.ended = true →
      LoaderDone (loadWord x (memoryWord memory k)) (loaderPeriods 384 s)) := by
  obtain ⟨u, hu⟩ : ∃ u, u = loaderPeriods (24 * 15) s := ⟨_, rfl⟩
  have hbits : LoaderAt memory (24 * (24 + (16 * k + 15))) (shiftedIn memory (16 * k) 15 w) x u := hu ▸ h.bits (Nat.le_refl 15)
  have hbefore := hbits.quietPeriods 11 fun j hj => .inl (by omega)
  obtain ⟨hperiod, hmsel, hmemory, hperiods, hshift, hreading, htables⟩ := hbefore.sampled
  have hword : sampledWord memory (16 * k + 15) (shiftedIn memory (16 * k) 15 w) = memoryWord memory k :=
    shiftedIn_word memory k w
  obtain ⟨v, hv⟩ : ∃ v, v = loaderClocked (loaderPeriods 11 u) := ⟨_, rfl⟩
  rw [← hv] at hperiod hmsel hmemory hperiods hshift hreading htables
  have htaken : loaderPeriod (loaderPeriods 11 u) = takeWord (memoryWord memory k) { v with load.shift := memoryWord memory k } := by
    rw [hperiod, sampleMdi, if_pos (by omega), hmemory, hshift, ← hword]
    rfl
  have hsplit : loaderPeriods 384 s = loaderPeriods 12 (loaderPeriod (loaderPeriods 11 u)) := by
    rw [show 384 = 24 * 15 + (11 + (1 + 12)) from rfl, loaderPeriods_add, loaderPeriods_add, loaderPeriods_add, hu]
    rfl
  have hx : (v.load.reading, v.tables) = x := by rw [hreading, htables]
  rw [hsplit, htaken]
  refine ⟨fun hgoes => ?_, fun hends => ?_⟩
  · have hafter : LoaderAt memory (24 * (24 + (16 * k + 15)) + 12) (memoryWord memory k) (loadWord x (memoryWord memory k))
        (takeWord (memoryWord memory k) { v with load.shift := memoryWord memory k }) :=
      ⟨by simp only [takeWord, hx, hgoes]; rfl, hmemory, hperiods, rfl, by simp only [takeWord, hx], by simp only [takeWord, hx]; rfl⟩
    rw [show 24 * (24 + 16 * (k + 1)) = 24 * (24 + (16 * k + 15)) + 12 + 12 by omega]
    exact hafter.quietPeriods 12 fun j hj => .inl (by omega)
  · refine LoaderDone.periods (x := loadWord x (memoryWord memory k)) ⟨?_, ?_, ?_, hends⟩ 12
    · simp only [takeWord, hx, hends]
      rfl
    · simp only [takeWord, hx]
    · simp only [takeWord, hx]
      rfl

end

/-! ### The whole transfer -/

/-- After the words of a memory have gone by, the loader has read them, as far as the load needs them. -/
theorem loaderPeriods_words (memory : List Byte) (k : Nat) {s : State} (h : s.load = .start memory) :
    let x := loadWords (memoryWords memory k) (.start, s.tables)
    let t := loaderPeriods (576 + 384 * k) s
    (∃ w, LoaderAt memory (24 * (24 + 16 * k)) w x t ∧ x.1.ended = false) ∨ LoaderDone x t := by
  induction k with
  | zero =>
    have hstart : LoaderAt memory 0 0 (.start, s.tables) s := by
      rw [LoaderAt, h]
      exact ⟨rfl, rfl, rfl, rfl, rfl, rfl⟩
    have hlead := hstart.quietPeriods 576 fun j hj => by omega
    exact .inl ⟨0, hlead, rfl⟩
  | succ k ih =>
    rw [memoryWords_succ, loadWords_append, loadWords_singleton, show 576 + 384 * (k + 1) = 576 + 384 * k + 384 by omega,
      loaderPeriods_add]
    rcases ih with ⟨w, hat, hgoes⟩ | hdone
    · rcases hended : (loadWord (loadWords (memoryWords memory k) (.start, s.tables)) (memoryWord memory k)).1.ended with _ | _
      · exact .inl ⟨_, hat.word.1 hended, hended⟩
      · exact .inr (hat.word.2 hended)
    · rw [loadWord_ended hdone.2.2.2]
      exact .inr (hdone.periods 384)

theorem loaderPeriods_reading (memory : List Byte) (k : Nat) {s : State} (h : s.load = .start memory) :
    let x := loadWords (memoryWords memory k) (.start, s.tables)
    let t := loaderPeriods (576 + 384 * k) s
    t.load.reading = x.1 ∧ t.tables = x.2 ∧ (t.load.msel = true ↔ x.1.ended = false) := by
  rcases loaderPeriods_words memory k h with ⟨w, ⟨hmsel, -, -, -, hreading, htables⟩, hgoes⟩ | ⟨hmsel, hreading, htables, hended⟩
  · exact ⟨hreading, htables, by rw [hmsel, hgoes]; simp⟩
  · exact ⟨hreading, htables, by rw [hmsel, hended]; simp⟩

end Sys2Proof.Machine
end


-- ==== Sys2Proof/Proofs/LoadOutcomes.lean ====
section
/-! SUPPORT. What the end of a load leaves in the tables, and the two failures of the first words (R16, R17, R18). -/

namespace Sys2Proof.Machine

/-! ### No failure is coded as a load -/

/-- A reading that fails does not fail with the outcome of a success. -/
def FailsUnloaded {α : Type} (x : Except LoadOutcome α) : Prop := x ≠ .error .loaded

section
variable {α β : Type}

theorem FailsUnloaded.bind {x : Except LoadOutcome α} {f : α → Except LoadOutcome β} (hx : FailsUnloaded x)
    (hf : ∀ a, FailsUnloaded (f a)) : FailsUnloaded (x >>= f) := by
  rcases x with o | a
  · exact fun h => hx (by cases h; rfl)
  · exact hf a

theorem FailsUnloaded.ok (a : α) : FailsUnloaded (.ok a : Except LoadOutcome α) := fun h => by cases h

theorem orBadRecord_failsUnloaded (o : Option α) : FailsUnloaded (orBadRecord o) := by
  rcases o with _ | a
  · exact fun h => by cases h
  · exact .ok a

end

theorem nextWord_failsUnloaded (ws : List Word) : FailsUnloaded (nextWord ws) := by
  rcases ws with _ | ⟨w, ws⟩
  · exact fun h => by cases h
  · exact .ok _

theorem readVisits_failsUnloaded (n : Nat) (ws : List Word) : FailsUnloaded (readVisits n ws) := by
  induction n generalizing ws with
  | zero => exact .ok _
  | succ n ih =>
    exact (nextWord_failsUnloaded ws).bind fun _ => (orBadRecord_failsUnloaded _).bind fun _ =>
      (nextWord_failsUnloaded _).bind fun _ => (ih _).bind fun _ => .ok _

theorem readRoute_failsUnloaded (seen : List RouteIx) (ws : List Word) : FailsUnloaded (readRoute seen ws) := by
  refine (nextWord_failsUnloaded ws).bind fun x => (orBadRecord_failsUnloaded _).bind fun i => ?_
  dsimp only
  split
  · exact fun h => by cases h
  · exact (nextWord_failsUnloaded _).bind fun _ => (orBadRecord_failsUnloaded _).bind fun _ =>
      (orBadRecord_failsUnloaded _).bind fun _ => (nextWord_failsUnloaded _).bind fun _ =>
      (readVisits_failsUnloaded _ _).bind fun _ => .ok _

theorem readWord_failsUnloaded (w : Word) {stage : LoadStage} (t : Tables) (h : stage ≠ .failed .loaded) :
    (readWord w stage t).1 ≠ .failed .loaded := by
  rcases stage with _ | _ | read | i | i | i | _ | ⟨left, seen, read⟩ | _ | o
  · simp only [readWord]; split <;> simp
  · simp only [readWord]; split <;> simp
  · simp only [readWord]; split <;> simp
  · simp only [readWord, afterStation]; (repeat' split) <;> simp
  · simp only [readWord, afterZone]; (repeat' split) <;> simp
  · simp only [readWord, afterBin]; (repeat' split) <;> simp
  · simp only [readWord, routesFrom]; (repeat' split) <;> simp
  · simp only [readWord]
    split
    · simp only [routesFrom]
      split <;> simp
    · simp
    next o _ ho => exact fun hloaded => readRoute_failsUnloaded seen _ (ho.trans (by cases hloaded; rfl))
  · simp [readWord]
  · exact h

theorem goTo_failsUnloaded (r : Reading) (n : Nat) {stage : LoadStage} (h : stage ≠ .failed .loaded) :
    (r.goTo n stage).stage ≠ .failed .loaded := by
  simp only [Reading.goTo]
  split
  · split <;> simp
  · exact h
  · split
    · simp
    · exact h

theorem loadWord_failsUnloaded (w : Word) {x : Reading × Tables} (h : x.1.stage ≠ .failed .loaded) :
    (loadWord x w).1.stage ≠ .failed .loaded := by
  rw [loadWord]
  split
  · exact h
  · exact goTo_failsUnloaded _ _ (readWord_failsUnloaded w x.2 h)

theorem loadWords_failsUnloaded (ws : List Word) {x : Reading × Tables} (h : x.1.stage ≠ .failed .loaded) :
    (loadWords ws x).1.stage ≠ .failed .loaded := by
  induction ws generalizing x with
  | nil => exact h
  | cons w ws ih =>
    rw [loadWords]
    split
    · exact h
    · exact ih (loadWord_failsUnloaded w h)

/-! ### The end of a load -/

section
variable {r : Reading} {t : Tables}

theorem loadEnd_sound (hstage : r.stage = .complete) (hsound : validate t = none) :
    loadEnd r t = { t with checked := true, loadResult := { outcome := .loaded, length := r.length, fault := none } } := by
  simp only [loadEnd, hstage, hsound]

theorem loadEnd_faulty {f : FaultRec} (hstage : r.stage = .complete) (hfault : validate t = some f) :
    loadEnd r t = { Tables.empty with loadResult := { outcome := .tableFault, length := r.length, fault := some f } } := by
  simp only [loadEnd, hstage, hfault, emptyTablesWith]

theorem loadEnd_failed {o : LoadOutcome} (hstage : r.stage = .failed o) :
    loadEnd r t = { Tables.empty with loadResult := { outcome := o, length := r.length, fault := none } } := by
  simp only [loadEnd, hstage, emptyTablesWith]

/-- A load ends with its sound tables, or with emptied tables and the outcome of a failure. -/
theorem loadEnd_outcomes (h : r.stage ≠ .failed .loaded) :
    (validate t = none ∧ loadEnd r t =
      { t with checked := true, loadResult := { outcome := .loaded, length := r.length, fault := none } }) ∨
    ∃ result : LoadResult, result.outcome ≠ .loaded ∧ loadEnd r t = { Tables.empty with loadResult := result } := by
  rcases hstage : r.stage with _ | _ | read | i | i | i | _ | ⟨left, seen, read⟩ | _ | o
  case complete =>
    rcases hsound : validate t with _ | f
    · exact .inl ⟨rfl, loadEnd_sound hstage hsound⟩
    · exact .inr ⟨_, by simp, loadEnd_faulty hstage hsound⟩
  case failed => exact .inr ⟨_, fun ho => h (hstage.trans (congrArg LoadStage.failed ho)), loadEnd_failed hstage⟩
  all_goals exact .inr ⟨{ outcome := .badLength, length := r.length, fault := none }, by simp, by simp only [loadEnd, hstage, emptyTablesWith]⟩

end

section
variable (t : Tables) (checked : Bool) (result : LoadResult)

theorem visitsFault_marked (named : Bool) (k : Nat) (prev : Option Visit) (vs : List Visit) :
    visitsFault { t with checked := checked, loadResult := result } named k prev vs = visitsFault t named k prev vs := by
  induction vs generalizing k prev with
  | nil => rfl
  | cons v vs ih =>
    have hvisit : visitFault { t with checked := checked, loadResult := result } named prev v = visitFault t named prev v := rfl
    simp only [visitsFault, hvisit, ih]

theorem routeFault_marked (i : RouteIx) :
    routeFault { t with checked := checked, loadResult := result } i = routeFault t i := by
  have hnamed : isNamedWaste { t with checked := checked, loadResult := result } i = isNamedWaste t i := rfl
  have hdivert : divertFault { t with checked := checked, loadResult := result } = divertFault t := rfl
  simp only [routeFault, hnamed, hdivert, visitsFault_marked]

/-- Validation reads the records alone (R16). -/
theorem validate_marked : validate { t with checked := checked, loadResult := result } = validate t := by
  have hstation : stationFault { t with checked := checked, loadResult := result } = stationFault t := rfl
  have hbin : binFault { t with checked := checked, loadResult := result } = binFault t := rfl
  have hroute : routeFault { t with checked := checked, loadResult := result } = routeFault t :=
    funext (routeFault_marked t checked result)
  simp only [validate, hstation, hbin, hroute]

end

/-- An image loads sound tables, or leaves emptied tables with the outcome of a failure. -/
theorem loadImage_outcomes (image : List Word) :
    (validate (loadImage image) = none ∧ (loadImage image).checked = true ∧ (loadImage image).loadResult.outcome = .loaded) ∨
    ((loadImage image).checked = false ∧ (loadImage image).loadResult.outcome ≠ .loaded ∧
      loadImage image = { Tables.empty with loadResult := (loadImage image).loadResult }) := by
  have hstage := loadWords_failsUnloaded (imageWords image 1173) (x := (.start, .empty)) (by decide)
  rcases loadEnd_outcomes (t := (loadWords (imageWords image 1173) (.start, .empty)).2) hstage with ⟨hsound, hend⟩ | ⟨result, hresult, hend⟩
  · have himage : loadImage image = _ := hend
    rw [himage]
    exact .inl ⟨(validate_marked _ _ _).trans hsound, rfl, rfl⟩
  · have himage : loadImage image = _ := hend
    rw [himage]
    exact .inr ⟨rfl, hresult, rfl⟩

/-! ### The first two words -/

theorem imageWords_cons (w : Word) (ws : List Word) (n : Nat) : imageWords (w :: ws) (n + 1) = w :: imageWords ws n := by
  simp [imageWords]

theorem loadImage_noSignature {w : Word} (ws : List Word) (h : w ≠ 0x4D53) :
    (loadImage (w :: ws)).loadResult = { outcome := .noSignature, length := none, fault := none } := by
  obtain ⟨r, hr⟩ : ∃ r : Reading, r = { count := 1, length := none, stage := .failed .noSignature } := ⟨_, rfl⟩
  have hword : loadWord (.start, .empty) w = (r, .empty) := by
    simp only [loadWord, Reading.start, Reading.ended, readWord, if_neg h, Reading.goTo, LoadStage.leaves, hr, Bool.false_eq_true,
      if_false, reduceCtorEq]
  have hwords : loadWords (imageWords (w :: ws) 1173) (.start, .empty) = (r, .empty) := by
    rw [imageWords_cons, loadWords, if_neg (by decide), hword]
    exact loadWords_ended (by rw [hr]; rfl) _
  simp only [loadImage, hwords]
  rw [loadEnd_failed (by rw [hr]), hr]

theorem loadImage_badLength {n : Word} (ws : List Word) (h : n.toNat < 53 ∨ 1173 < n.toNat) :
    (loadImage (0x4D53 :: n :: ws)).loadResult = { outcome := .badLength, length := some n, fault := none } := by
  obtain ⟨r, hr⟩ : ∃ r : Reading, r = { count := 2, length := some n, stage := .failed .badLength } := ⟨_, rfl⟩
  have hsignature : loadWord (.start, .empty) 0x4D53 = ({ count := 1, length := none, stage := .length }, .empty) := rfl
  have hlength : loadWord ({ count := 1, length := none, stage := .length }, .empty) n = (r, .empty) := by
    have hbad : (decide (n.toNat < 53) || decide (1173 < n.toNat)) = true := by simpa using h
    simp only [loadWord, Reading.ended, readWord, hbad, Reading.goTo, LoadStage.leaves, hr, if_true, Bool.false_eq_true, if_false]
  have hwords : loadWords (imageWords (0x4D53 :: n :: ws) 1173) (.start, .empty) = (r, .empty) := by
    rw [imageWords_cons, imageWords_cons, loadWords, if_neg (by decide), hsignature, loadWords, if_neg (by decide), hlength]
    exact loadWords_ended (by rw [hr]; rfl) _
  simp only [loadImage, hwords]
  rw [loadEnd_failed (by rw [hr]), hr]

end Sys2Proof.Machine
end


-- ==== Sys2Proof/Proofs/ImageRecords.lean ====
section
/-! SUPPORT. Each word of a path image reads back as the record it was made of (R18). -/

namespace Sys2Proof.Machine

/-! ### Fields of a word -/

theorem bitsOf_eq (w : Word) (lo len : Nat) : bitsOf w lo len = w.toNat / 2 ^ lo % 2 ^ len := by
  rw [bitsOf, BitVec.extractLsb'_toNat, Nat.shiftRight_eq_div_pow]

theorem finOf_val {n : Nat} (i : Fin n) {k : Nat} (h : k = i.val) : finOf n k = some i := by
  subst h
  exact dif_pos i.isLt

/-- The top bit beside a value below it. -/
theorem topBit_toNat {n : Nat} (h : n < 32768) : (0x8000 ||| BitVec.ofNat 16 n : Word).toNat = 32768 + n := by
  have hor := Nat.two_pow_add_eq_or_of_lt (i := 15) (b := n) h 1
  rw [BitVec.toNat_or, BitVec.toNat_ofNat, Nat.mod_eq_of_lt (by omega)]
  exact hor.symm

theorem topBit_getLsbD (n : Nat) : (0x8000 ||| BitVec.ofNat 16 n : Word).getLsbD 15 = true := by
  rw [BitVec.getLsbD_or]
  rfl

/-! ### Records of one word -/

theorem stationWord_image {r : StationRec} (h : if r.defined then 1 ≤ r.qualify ∧ r.qualify ≤ 255 else r = .undefined) :
    stationWord (stationImage r) = some r := by
  rcases hdefined : r.defined with _ | _
  · rw [hdefined, if_neg Bool.false_ne_true] at h
    rw [h]
    rfl
  · rw [hdefined, if_pos rfl] at h
    obtain ⟨hlow, hhigh⟩ := h
    have hzone := r.zone.isLt
    have hword := topBit_toNat (n := r.zone.val * 256 + r.qualify) (by omega)
    have hz : bitsOf (stationImage r) 8 4 = r.zone.val := by
      rw [stationImage, if_pos hdefined, bitsOf_eq, hword]
      omega
    have hq : max 1 (bitsOf (stationImage r) 0 8) = r.qualify := by
      rw [stationImage, if_pos hdefined, bitsOf_eq, hword]
      omega
    have htop : (stationImage r).getLsbD 15 = true := by
      rw [stationImage, if_pos hdefined]
      exact topBit_getLsbD _
    rw [stationWord, if_pos htop, hq, finOf_val r.zone hz, Option.map_some, ← hdefined]

theorem zoneWord_image {r : ZoneRec} (h : r.defined = false → r = .undefined) : zoneWord (zoneImage r) = some r := by
  rcases r with ⟨_ | _, purgeable, cover⟩
  · rw [h rfl]
    rfl
  · rcases cover with _ | c
    · revert purgeable
      decide
    · revert purgeable c
      decide

theorem binWord_image {r : BinRec} (h : r.defined = false → r = .undefined) : binWord (binImage r) = some r := by
  rcases r with ⟨_ | _, kind, zone⟩
  · rw [h rfl]
    rfl
  · revert zone
    rcases kind <;> decide

/-! ### The visits of a route -/

/-- The first word of a visit. -/
def visitWord (v : Visit) : Word :=
  BitVec.ofNat 16 (v.station.val * 4096 + v.anchor.number * 256 + (if v.check then 1 else 0))

theorem visitImage_eq (v : Visit) : visitImage v = [visitWord v, v.distance] := rfl

theorem anchor_number_lt (a : Anchor) : a.number < 3 := by
  cases a <;> decide

theorem anchor_ofNumber (a : Anchor) : Anchor.ofNumber a.number = some a := by
  cases a <;> rfl

theorem visitWord_toNat (v : Visit) :
    (visitWord v).toNat = v.station.val * 4096 + v.anchor.number * 256 + (if v.check then 1 else 0) := by
  have hstation := v.station.isLt
  have hanchor := anchor_number_lt v.anchor
  rw [visitWord, BitVec.toNat_ofNat, Nat.mod_eq_of_lt]
  split <;> omega

theorem visitWord_anchor (v : Visit) : Anchor.ofNumber (bitsOf (visitWord v) 8 2) = some v.anchor := by
  have hanchor := anchor_number_lt v.anchor
  have hbits : bitsOf (visitWord v) 8 2 = v.anchor.number := by
    rw [bitsOf_eq, visitWord_toNat]
    split <;> omega
  rw [hbits, anchor_ofNumber]

theorem visitWord_station (v : Visit) : ((visitWord v).extractLsb' 12 4).toFin = v.station := by
  have hstation := v.station.isLt
  have hanchor := anchor_number_lt v.anchor
  have hbits := bitsOf_eq (visitWord v) 12 4
  rw [visitWord_toNat] at hbits
  refine Fin.ext (hbits.trans ?_)
  split <;> omega

theorem visitWord_check (v : Visit) : (visitWord v).getLsbD 0 = v.check := by
  rw [← BitVec.testBit_toNat, visitWord_toNat, Nat.testBit_zero]
  rcases v.check with _ | _
  · simp
    omega
  · simp
    omega

theorem readVisits_nil (n : Nat) : readVisits (n + 1) [] = .error .badLength := rfl

section
variable {n : Nat} {w : Word} {a : Anchor} (ha : Anchor.ofNumber (bitsOf w 8 2) = some a)
include ha

theorem readVisits_one : readVisits (n + 1) [w] = .error .badLength := by
  simp [readVisits, nextWord, ha, orBadRecord, bind, Except.bind]

theorem readVisits_cons (d : Word) (ws : List Word) :
    readVisits (n + 1) (w :: d :: ws) = (readVisits n ws).map fun x =>
      ({ station := (w.extractLsb' 12 4).toFin, anchor := a, distance := d, check := w.getLsbD 0 } :: x.1, x.2) := by
  simp only [readVisits, nextWord, ha, orBadRecord, bind, Except.bind, pure, Except.pure]
  rcases readVisits n ws with o | x <;> rfl

end

theorem readVisits_visit (v : Visit) (n : Nat) (ws : List Word) :
    readVisits (n + 1) (visitImage v ++ ws) = (readVisits n ws).map fun x => (v :: x.1, x.2) := by
  rw [visitImage_eq, List.cons_append, List.singleton_append, readVisits_cons (visitWord_anchor v), visitWord_station,
    visitWord_check]

/-- The words of the visits read back. -/
theorem readVisits_image (vs : List Visit) : readVisits vs.length (vs.flatMap visitImage) = .ok (vs, []) := by
  induction vs with
  | nil => rfl
  | cons v vs ih =>
    rw [List.flatMap_cons, List.length_cons, readVisits_visit, ih]
    rfl

/-- Fewer words than the visits have do not reach the end of the record. -/
theorem readVisits_prefix (vs : List Visit) {k : Nat} (hk : k < (vs.flatMap visitImage).length) :
    readVisits vs.length ((vs.flatMap visitImage).take k) = .error .badLength := by
  induction vs generalizing k with
  | nil => simp at hk
  | cons v vs ih =>
    rw [List.flatMap_cons, List.length_append] at hk
    have htwo : (visitImage v).length = 2 := rfl
    rcases k with _ | _ | k
    · exact readVisits_nil _
    · exact readVisits_one (visitWord_anchor v)
    · rw [List.flatMap_cons, show k + 1 + 1 = (visitImage v).length + k by omega, List.take_length_add_append, List.length_cons,
        readVisits_visit, ih (by omega)]
      rfl

/-! ### A route -/

/-- Word A, word B and word C of a route (R18). -/
def routeWordA (i : RouteIx) (r : RouteRec) : Word := BitVec.ofNat 16 (i.val * 256 + r.visits.length)
def routeWordB (r : RouteRec) : Word := BitVec.ofNat 16 (r.bin.val * 256 + r.completeAfter.val)
def routeWordC (r : RouteRec) : Word :=
  match r.divert with
  | some dv => 0x8000 ||| BitVec.ofNat 16 (dv.w.val * 256 + dv.d.val)
  | none => 0

theorem routeImage_eq (i : RouteIx) (r : RouteRec) :
    routeImage i r = routeWordA i r :: routeWordB r :: routeWordC r :: r.visits.flatMap visitImage := rfl

/-- The divert that word C gives. -/
def divertWord (w : Word) : Option Divert :=
  if w.getLsbD 15 then some { d := (w.extractLsb' 0 4).toFin, w := (w.extractLsb' 8 5).toFin } else none

theorem divertWord_image (r : RouteRec) : divertWord (routeWordC r) = r.divert := by
  rcases hdivert : r.divert with _ | dv
  · simp only [routeWordC, hdivert]
    rfl
  · have hd := dv.d.isLt
    have hw := dv.w.isLt
    have hword : routeWordC r = 0x8000 ||| BitVec.ofNat 16 (dv.w.val * 256 + dv.d.val) := by simp only [routeWordC, hdivert]
    have hnat : (routeWordC r).toNat = 32768 + (dv.w.val * 256 + dv.d.val) := by rw [hword, topBit_toNat (by omega)]
    have hlow := bitsOf_eq (routeWordC r) 0 4
    have hhigh := bitsOf_eq (routeWordC r) 8 5
    rw [hnat] at hlow hhigh
    have hdivertIndex : ((routeWordC r).extractLsb' 0 4).toFin = dv.d := Fin.ext (hlow.trans (by omega))
    have hwaste : ((routeWordC r).extractLsb' 8 5).toFin = dv.w := Fin.ext (hhigh.trans (by omega))
    rw [divertWord, hdivertIndex, hwaste, if_pos (by rw [hword]; exact topBit_getLsbD _)]

theorem readRoute_nil (seen : List RouteIx) : readRoute seen [] = .error .badLength := rfl

section
variable {seen : List RouteIx} {i : RouteIx} {n : Nat} {a : Word} (hi : finOf 32 (bitsOf a 8 8) = some i) (hn : bitsOf a 0 8 = n)
  (hlisted : (seen.contains i || decide (n = 0) || decide (16 < n)) = false)
include hi hn hlisted

theorem readRoute_one : readRoute seen [a] = .error .badLength := by
  simp only [readRoute, nextWord, orBadRecord, bind, Except.bind, hi, hn, hlisted, Bool.false_eq_true, if_false]

variable {b : Word} {bin : Bin} {after : Fin 16} (hbin : finOf 8 (bitsOf b 8 8) = some bin) (hafter : finOf 16 (bitsOf b 0 8) = some after)
include hbin hafter

theorem readRoute_two : readRoute seen [a, b] = .error .badLength := by
  simp only [readRoute, nextWord, orBadRecord, bind, Except.bind, hi, hn, hlisted, hbin, hafter, Bool.false_eq_true, if_false]

theorem readRoute_visits (c : Word) (ws : List Word) :
    readRoute seen (a :: b :: c :: ws) = (readVisits n ws).map fun x =>
      ((i, { defined := true, visits := x.1, bin := bin, completeAfter := after, divert := divertWord c }), x.2) := by
  simp only [readRoute, nextWord, orBadRecord, bind, Except.bind, pure, Except.pure, hi, hn, hlisted, hbin, hafter,
    Bool.false_eq_true, if_false]
  rcases readVisits n ws with o | x <;> rfl

end

section
variable {seen : List RouteIx} {i : RouteIx} {r : RouteRec} (hseen : i ∉ seen) (hdefined : r.defined = true)
  (hone : 1 ≤ r.visits.length) (hmost : r.visits.length ≤ 16)
include hseen hone hmost

/-- The fields of words A and B. -/
theorem routeWords_fields :
    finOf 32 (bitsOf (routeWordA i r) 8 8) = some i ∧ bitsOf (routeWordA i r) 0 8 = r.visits.length ∧
    (seen.contains i || decide (r.visits.length = 0) || decide (16 < r.visits.length)) = false ∧
    finOf 8 (bitsOf (routeWordB r) 8 8) = some r.bin ∧ finOf 16 (bitsOf (routeWordB r) 0 8) = some r.completeAfter := by
  have hi := i.isLt
  have hbin := r.bin.isLt
  have hafter := r.completeAfter.isLt
  have ha : (routeWordA i r).toNat = i.val * 256 + r.visits.length := by
    rw [routeWordA, BitVec.toNat_ofNat, Nat.mod_eq_of_lt (by omega)]
  have hb : (routeWordB r).toNat = r.bin.val * 256 + r.completeAfter.val := by
    rw [routeWordB, BitVec.toNat_ofNat, Nat.mod_eq_of_lt (by omega)]
  refine ⟨finOf_val i ?_, ?_, ?_, finOf_val r.bin ?_, finOf_val r.completeAfter ?_⟩
  · rw [bitsOf_eq, ha]
    omega
  · rw [bitsOf_eq, ha]
    omega
  · simp only [Bool.or_eq_false_iff, decide_eq_false_iff_not]
    exact ⟨⟨by simpa using hseen, by omega⟩, by omega⟩
  · rw [bitsOf_eq, hb]
    omega
  · rw [bitsOf_eq, hb]
    omega

/-- Fewer words than the route has do not reach the end of the record. -/
theorem readRoute_prefix {k : Nat} (hk : k < (routeImage i r).length) :
    readRoute seen ((routeImage i r).take k) = .error .badLength := by
  obtain ⟨hi, hn, hlisted, hbin, hafter⟩ := routeWords_fields hseen hone hmost
  rw [routeImage_eq] at hk ⊢
  rcases k with _ | _ | _ | k
  · exact readRoute_nil seen
  · exact readRoute_one hi hn hlisted
  · exact readRoute_two hi hn hlisted hbin hafter
  · simp only [List.take_succ_cons]
    rw [readRoute_visits hi hn hlisted hbin hafter, readVisits_prefix _ (by simpa using hk)]
    rfl

include hdefined

/-- The words of a route read back. -/
theorem readRoute_image : readRoute seen (routeImage i r) = .ok ((i, r), []) := by
  obtain ⟨hi, hn, hlisted, hbin, hafter⟩ := routeWords_fields hseen hone hmost
  rw [routeImage_eq, readRoute_visits hi hn hlisted hbin hafter, readVisits_image, divertWord_image, ← hdefined]
  rfl

end

end Sys2Proof.Machine
end


-- ==== Sys2Proof/Proofs/ImageSections.lean ====
section
/-! SUPPORT. The sections of a path image, word by word, and the tables that the whole image loads (R16, R17, R18). -/

namespace Sys2Proof.Machine

/-! ### Words in a row -/

/-- A stage in which a word is read that is not the stated length. -/
def Reads (stage : LoadStage) : Prop := stage ≠ .length ∧ stage ≠ .complete ∧ ∀ o, stage ≠ .failed o

/-- With `c` words read of the stated number, the load goes on, or the last record is complete at the last word. -/
def Follows (total c : Nat) (stage : LoadStage) : Prop := (Reads stage ∧ c ≠ total) ∨ (stage = .complete ∧ c = total)

theorem ended_of_reads {r : Reading} (h : Reads r.stage) : r.ended = false := by
  obtain ⟨-, hcomplete, hfailed⟩ := h
  rw [Reading.ended]
  split
  next hstage => exact absurd hstage hcomplete
  next o hstage => exact absurd hstage (hfailed o)
  next => rfl

theorem goTo_follows {r : Reading} {c : Nat} {stage : LoadStage} {w : Word} (hlength : r.length = some w)
    (h : Follows w.toNat c stage) : r.goTo c stage = { r with count := c, stage := stage } := by
  have hlast : r.length.map (·.toNat) = some c ↔ w.toNat = c := by simp [hlength]
  rcases h with ⟨⟨-, hcomplete, hfailed⟩, hmore⟩ | ⟨rfl, rfl⟩
  · have hnot : ¬r.length.map (·.toNat) = some c := fun h => hmore (hlast.1 h).symm
    rcases stage with _ | _ | _ | _ | _ | _ | _ | _ | _ | o
    case complete => exact absurd rfl hcomplete
    case failed => exact absurd rfl (hfailed o)
    all_goals simp only [Reading.goTo, if_neg hnot]
  · simp only [Reading.goTo, if_pos (hlast.2 rfl)]

theorem loadWord_follows {c : Nat} {l w : Word} {stage next : LoadStage} {t u : Tables} (hreads : Reads stage)
    (hword : readWord w stage t = (next, u)) (hfollows : Follows l.toNat (c + 1) next) :
    loadWord ({ count := c, length := some l, stage := stage }, t) w = ({ count := c + 1, length := some l, stage := next }, u) := by
  have hgoes : ({ count := c, length := some l, stage := stage } : Reading).ended = false := ended_of_reads hreads
  have hleaves : next.leaves u = u := by
    rcases hfollows with ⟨⟨-, -, hfailed⟩, -⟩ | ⟨rfl, -⟩
    · rcases next with _ | _ | _ | _ | _ | _ | _ | _ | _ | o
      case failed => exact absurd rfl (hfailed o)
      all_goals rfl
    · rfl
  simp only [loadWord, hgoes, hword, if_neg hreads.1, Bool.false_eq_true, if_false]
  rw [goTo_follows rfl hfollows]
  simp only [hleaves]

/-- Words that lead from stage to stage, none of them too soon. -/
theorem loadWords_follows {l : Word} (words : List Word) (stages : Nat → LoadStage) (tables : Nat → Tables) (c : Nat)
    (hword : ∀ i (h : i < words.length), readWord words[i] (stages i) (tables i) = (stages (i + 1), tables (i + 1)))
    (hreads : ∀ i < words.length, Reads (stages i)) (hfollows : ∀ i < words.length, Follows l.toNat (c + i + 1) (stages (i + 1))) :
    loadWords words ({ count := c, length := some l, stage := stages 0 }, tables 0) =
      ({ count := c + words.length, length := some l, stage := stages words.length }, tables words.length) := by
  induction words generalizing stages tables c with
  | nil => rfl
  | cons w words ih =>
    have hgoes : ({ count := c, length := some l, stage := stages 0 } : Reading).ended = false :=
      ended_of_reads (hreads 0 (Nat.succ_pos _))
    have hfirst : readWord w (stages 0) (tables 0) = (stages 1, tables 1) := hword 0 (Nat.succ_pos _)
    have hrest := ih (fun i => stages (i + 1)) (fun i => tables (i + 1)) (c + 1) (fun i h => hword (i + 1) (Nat.succ_lt_succ h))
      (fun i h => hreads (i + 1) (Nat.succ_lt_succ h)) fun i h => by
        have := hfollows (i + 1) (Nat.succ_lt_succ h)
        rwa [show c + 1 + i + 1 = c + (i + 1) + 1 by omega]
    rw [loadWords, if_neg (by simp [hgoes]), loadWord_follows (hreads 0 (Nat.succ_pos _)) hfirst
      (hfollows 0 (Nat.succ_pos _)), hrest, List.length_cons, show c + 1 + words.length = c + (words.length + 1) by omega]

/-- Words of a section that is not the last. -/
theorem loadWords_section {l : Word} {words : List Word} {stages : Nat → LoadStage} {tables : Nat → Tables} {c : Nat}
    (hword : ∀ i (h : i < words.length), readWord words[i] (stages i) (tables i) = (stages (i + 1), tables (i + 1)))
    (hreads : ∀ i, Reads (stages i)) (hshort : c + words.length < l.toNat) :
    loadWords words ({ count := c, length := some l, stage := stages 0 }, tables 0) =
      ({ count := c + words.length, length := some l, stage := stages words.length }, tables words.length) :=
  loadWords_follows words stages tables c hword (fun i _ => hreads i) fun i h => .inl ⟨hreads _, by omega⟩

/-! ### Records put in one after the other -/

/-- The first `i` records of `v`, and the others of `w`. -/
def putFirst {α : Type} {n : Nat} (v w : Vector α n) (i : Nat) : Vector α n := tabulate fun j => if j.val < i then v[j] else w[j]

section
variable {α : Type} {n : Nat} (v w : Vector α n)

theorem putFirst_getElem (i : Nat) (j : Fin n) : (putFirst v w i)[j] = if j.val < i then v[j] else w[j] :=
  tabulate_getElem _ _ j.isLt

theorem vector_ext {v w : Vector α n} (h : ∀ j : Fin n, v[j] = w[j]) : v = w := Vector.ext fun j hj => h ⟨j, hj⟩

theorem putFirst_zero : putFirst v w 0 = w := vector_ext fun j => (putFirst_getElem v w 0 j).trans (if_neg (Nat.not_lt_zero _))

theorem putFirst_all : putFirst v w n = v := vector_ext fun j => (putFirst_getElem v w n j).trans (if_pos j.isLt)

theorem putFirst_set (i : Fin n) : (putFirst v w i.val).set i v[i] = putFirst v w (i.val + 1) := by
  refine vector_ext fun j => ?_
  rw [putFirst_getElem]
  by_cases h : i = j
  · subst h
    rw [if_pos (Nat.lt_succ_self _)]
    exact Vector.getElem_set_self _
  · have hne : i.val ≠ j.val := fun hv => h (Fin.ext hv)
    refine (Vector.getElem_set_ne _ _ hne).trans ((putFirst_getElem v w i.val j).trans ?_)
    by_cases hlt : j.val < i.val
    · rw [if_pos hlt, if_pos (by omega)]
    · rw [if_neg hlt, if_neg (by omega)]

end

/-! ### The limits -/

theorem limitsOf_of_length {values : List Nat} (h : values.length ≠ 14) : limitsOf values = none := by
  unfold limitsOf
  split
  · exact absurd rfl h
  · rfl

/-- The words of a limits record. -/
def limitsWords (l : Limits) : List Word := (limitsValues l).map (BitVec.ofNat 16)

theorem limitsWords_toNat {l : Limits} (h : limitsOf (limitsValues l) = some l) : (limitsWords l).map (·.toNat) = limitsValues l := by
  rw [limitsWords, List.map_map]
  refine (List.map_congr_left fun v hv => ?_).trans (List.map_id _)
  exact (BitVec.toNat_ofNat v 16).trans (Nat.mod_eq_of_lt (limitsValues_lt h v hv))

theorem readWord_limits_more {read : List Word} {w : Word} (t : Tables)
    (h : limitsOf ((read ++ [w]).map (·.toNat)) = none) : readWord w (.limits read) t = (.limits (read ++ [w]), t) := by
  simp only [readWord, h]

theorem readWord_limits_done {read : List Word} {w : Word} {limits : Limits} (t : Tables)
    (h : limitsOf ((read ++ [w]).map (·.toNat)) = some limits) :
    readWord w (.limits read) t = (.station 0, { t with limits := limits }) := by
  simp only [readWord, h]

theorem loadWords_limits {l : Word} {limits : Limits} (h : limitsOf (limitsValues limits) = some limits) (c : Nat) (t : Tables)
    (hshort : c + 14 < l.toNat) :
    loadWords (limitsWords limits) ({ count := c, length := some l, stage := .limits [] }, t) =
      ({ count := c + 14, length := some l, stage := .station 0 }, { t with limits := limits }) := by
  have hlength : (limitsWords limits).length = 14 := rfl
  refine loadWords_section (stages := fun i => if i < 14 then .limits ((limitsWords limits).take i) else .station 0)
    (tables := fun i => if i < 14 then t else { t with limits := limits }) (fun i hi => ?_) (fun i => ?_) hshort
  · rw [hlength] at hi
    have htake : (limitsWords limits).take i ++ [(limitsWords limits)[i]] = (limitsWords limits).take (i + 1) :=
      List.take_append_getElem hi
    rw [if_pos hi, if_pos hi]
    by_cases hlast : i + 1 < 14
    · have hnone : limitsOf (((limitsWords limits).take i ++ [(limitsWords limits)[i]]).map (·.toNat)) = none :=
        limitsOf_of_length (by rw [htake, List.length_map, List.length_take, hlength]; omega)
      rw [if_pos hlast, if_pos hlast]
      exact (readWord_limits_more t hnone).trans (by rw [htake])
    · have hall : limitsOf (((limitsWords limits).take i ++ [(limitsWords limits)[i]]).map (·.toNat)) = some limits := by
        rw [htake, List.take_of_length_le (by omega), limitsWords_toNat h, h]
      rw [if_neg hlast, if_neg hlast]
      exact readWord_limits_done t hall
  · split <;> simp [Reads]

/-! ### The records of one word -/

/-- A section with one word for each record of a table. -/
theorem loadWords_records {α : Type} {n : Nat} {l : Word} (v w : Vector α n) (word : α → Word) (stageOf : Fin n → LoadStage)
    (done : LoadStage) (put : Vector α n → Tables) (c : Nat) (hn : 0 < n)
    (hread : ∀ (i : Fin n) (u : Vector α n), readWord (word v[i]) (stageOf i) (put u) =
      (if h : i.val + 1 < n then stageOf ⟨i.val + 1, h⟩ else done, put (u.set i v[i])))
    (hreads : ∀ i, Reads (stageOf i)) (hdone : Reads done) (hshort : c + n < l.toNat) :
    loadWords (v.toList.map word) ({ count := c, length := some l, stage := stageOf ⟨0, hn⟩ }, put w) =
      ({ count := c + n, length := some l, stage := done }, put v) := by
  have hlength : (v.toList.map word).length = n := by simp
  have hrow := loadWords_section (l := l) (words := v.toList.map word)
    (stages := fun i => if h : i < n then stageOf ⟨i, h⟩ else done) (tables := fun i => put (putFirst v w i)) (c := c)
    (fun i hi => by
      have hi' : i < n := hlength ▸ hi
      have hword : (v.toList.map word)[i] = word v[(⟨i, hi'⟩ : Fin n)] := by simp
      rw [dif_pos hi', hword, hread ⟨i, hi'⟩, putFirst_set v w ⟨i, hi'⟩])
    (fun i => by
      split
      · exact hreads _
      · exact hdone)
    (by rwa [hlength])
  rw [hlength] at hrow
  simpa only [dif_pos hn, dif_neg (Nat.lt_irrefl n), putFirst_zero, putFirst_all] using hrow

section
variable {l : Word} {t : Tables} (c : Nat) (u : Tables)

theorem loadWords_stations (h : ∀ st : Station, stationWord (stationImage t.stations[st]) = some t.stations[st])
    (hshort : c + 16 < l.toNat) :
    loadWords (t.stations.toList.map stationImage) ({ count := c, length := some l, stage := .station 0 }, u) =
      ({ count := c + 16, length := some l, stage := .zone 0 }, { u with stations := t.stations }) :=
  loadWords_records t.stations u.stations stationImage .station (.zone 0) (fun v => { u with stations := v }) c (by decide)
    (fun i v => by simp only [readWord, h i] <;> rfl) (fun i => by simp [Reads]) (by simp [Reads]) hshort

theorem loadWords_zones (h : ∀ z : Zone, zoneWord (zoneImage t.zones[z]) = some t.zones[z]) (hguarded : u.guarded = guardedSets u.zones)
    (hshort : c + 12 < l.toNat) :
    loadWords (t.zones.toList.map zoneImage) ({ count := c, length := some l, stage := .zone 0 }, u) =
      ({ count := c + 12, length := some l, stage := .bin 0 }, { u with zones := t.zones, guarded := guardedSets t.zones }) := by
  have hrow := loadWords_records (l := l) t.zones u.zones zoneImage .zone (.bin 0)
    (fun v => { u with zones := v, guarded := guardedSets v }) c (by decide) (fun i v => by simp only [readWord, h i] <;> rfl)
    (fun i => by simp [Reads]) (by simp [Reads]) hshort
  rwa [← hguarded] at hrow

theorem loadWords_bins (h : ∀ b : Bin, binWord (binImage t.bins[b]) = some t.bins[b]) (hshort : c + 8 < l.toNat) :
    loadWords (t.bins.toList.map binImage) ({ count := c, length := some l, stage := .bin 0 }, u) =
      ({ count := c + 8, length := some l, stage := .routeCount }, { u with bins := t.bins }) :=
  loadWords_records t.bins u.bins binImage .bin .routeCount (fun v => { u with bins := v }) c (by decide)
    (fun i v => by simp only [readWord, h i] <;> rfl) (fun i => by simp [Reads]) (by simp [Reads]) hshort

end

/-! ### The routes -/

section
variable {l : Word} {seen : List RouteIx} {i : RouteIx} {r : RouteRec} {left : Nat} {u : Tables}

theorem readWord_route_more {read : List Word} {w : Word} (h : readRoute seen (read ++ [w]) = .error .badLength) :
    readWord w (.route left seen read) u = (.route left seen (read ++ [w]), u) := by
  simp only [readWord, h]

theorem readWord_route_done {read rest : List Word} {w : Word} (h : readRoute seen (read ++ [w]) = .ok ((i, r), rest)) :
    readWord w (.route left seen read) u = (routesFrom (left - 1) (i :: seen), { u with routes := u.routes.set i r }) := by
  simp only [readWord, h]

/-- The words of one listed route. -/
theorem loadWords_route (c : Nat) (hseen : i ∉ seen) (hdefined : r.defined = true) (hone : 1 ≤ r.visits.length)
    (hmost : r.visits.length ≤ 16)
    (hshort : c + (routeImage i r).length < l.toNat ∧ left ≠ 0 ∨ c + (routeImage i r).length = l.toNat ∧ left = 0) :
    loadWords (routeImage i r) ({ count := c, length := some l, stage := .route (left + 1) seen [] }, u) =
      ({ count := c + (routeImage i r).length, length := some l, stage := routesFrom left (i :: seen) },
        { u with routes := u.routes.set i r }) := by
  obtain ⟨words, hwords⟩ : ∃ words, words = routeImage i r := ⟨_, rfl⟩
  rw [← hwords] at hshort ⊢
  have hpositive : 0 < words.length := by rw [hwords, routeImage_eq]; simp
  have hlast : routesFrom left (i :: seen) = .complete ∧ left = 0 ∨ Reads (routesFrom left (i :: seen)) ∧ left ≠ 0 := by
    rw [routesFrom]
    split
    · exact .inl ⟨rfl, ‹_›⟩
    · exact .inr ⟨by simp [Reads], ‹_›⟩
  have hrow := loadWords_follows (l := l) words
    (fun k => if k < words.length then .route (left + 1) seen (words.take k) else routesFrom left (i :: seen))
    (fun k => if k < words.length then u else { u with routes := u.routes.set i r }) c
    (fun k hk => by
      have htake : words.take k ++ [words[k]] = words.take (k + 1) := List.take_append_getElem hk
      rw [if_pos hk, if_pos hk]
      by_cases hmore : k + 1 < words.length
      · rw [if_pos hmore, if_pos hmore, ← htake]
        refine readWord_route_more ?_
        rw [htake, hwords]
        exact readRoute_prefix hseen hone hmost (hwords ▸ hmore)
      · rw [if_neg hmore, if_neg hmore]
        refine readWord_route_done (rest := []) ?_
        rw [htake, List.take_of_length_le (by omega), hwords]
        exact readRoute_image hseen hdefined hone hmost)
    (fun k hk => by
      rw [if_pos hk]
      simp [Reads])
    (fun k hk => by
      by_cases hmore : k + 1 < words.length
      · rw [if_pos hmore]
        exact .inl ⟨by simp [Reads], by omega⟩
      · rw [if_neg hmore]
        rcases hlast with ⟨hcomplete, hleft⟩ | ⟨hreads, hleft⟩
        · exact .inr ⟨hcomplete, by omega⟩
        · exact .inl ⟨hreads, by omega⟩)
  simpa only [if_pos hpositive, if_neg (Nat.lt_irrefl _), List.take_zero] using hrow

end

end Sys2Proof.Machine
end


-- ==== Sys2Proof/Proofs/PathImage.lean ====
section
/-! SUPPORT. The path image as a whole: the image of tables that pass validation loads those tables (R16, R17, R18). -/

namespace Sys2Proof.Machine

/-! ### The listed routes -/

theorem foldl_set_getElem {α : Type} {n : Nat} (f : Fin n → α) (l : List (Fin n)) (v : Vector α n) (j : Fin n) :
    (l.foldl (fun v i => v.set i (f i)) v)[j] = if j ∈ l then f j else v[j] := by
  induction l generalizing v with
  | nil => exact (if_neg List.not_mem_nil).symm
  | cons i l ih =>
    rw [List.foldl_cons, ih]
    by_cases hmem : j ∈ l
    · rw [if_pos hmem, if_pos (List.mem_cons_of_mem _ hmem)]
    · rw [if_neg hmem]
      by_cases h : i = j
      · subst h
        rw [if_pos List.mem_cons_self]
        exact Vector.getElem_set_self _
      · rw [if_neg (by simp [hmem, eq_comm (a := j), h])]
        exact Vector.getElem_set_ne _ _ fun hv => h (Fin.ext hv)

theorem routeImage_length (i : RouteIx) (r : RouteRec) : (routeImage i r).length = 3 + 2 * r.visits.length := by
  have hvisits : (r.visits.flatMap visitImage).length = 2 * r.visits.length := by
    induction r.visits with
    | nil => rfl
    | cons v vs ih =>
      rw [List.flatMap_cons, List.length_append, ih, List.length_cons, visitImage_eq]
      simp only [List.length_cons, List.length_nil]
      omega
  rw [routeImage_eq]
  simp only [List.length_cons, hvisits]
  omega

/-- A route that an image can list. -/
def Listable (r : RouteRec) : Prop := r.defined = true ∧ 1 ≤ r.visits.length ∧ r.visits.length ≤ 16

theorem routeImages_length {routes : Vector RouteRec 32} {listed : List RouteIx} (h : ∀ i ∈ listed, Listable routes[i]) :
    (listed.flatMap fun i => routeImage i routes[i]).length ≤ 35 * listed.length := by
  induction listed with
  | nil => simp
  | cons i listed ih =>
    obtain ⟨-, -, hmost⟩ := h i List.mem_cons_self
    have hrest := ih fun j hj => h j (List.mem_cons_of_mem _ hj)
    rw [List.flatMap_cons, List.length_append, routeImage_length, List.length_cons]
    omega

theorem loadWords_routes {l : Word} {routes : Vector RouteRec 32} (listed seen : List RouteIx) (u : Tables) (c : Nat)
    (hnodup : listed.Nodup) (hseen : ∀ i ∈ listed, i ∉ seen) (hlistable : ∀ i ∈ listed, Listable routes[i])
    (htotal : c + (listed.flatMap fun i => routeImage i routes[i]).length = l.toNat) :
    loadWords (listed.flatMap fun i => routeImage i routes[i])
        ({ count := c, length := some l, stage := routesFrom listed.length seen }, u) =
      ({ count := l.toNat, length := some l, stage := .complete },
        { u with routes := listed.foldl (fun v (i : RouteIx) => v.set i routes[i]) u.routes }) := by
  induction listed generalizing seen u c with
  | nil =>
    rw [List.flatMap_nil, List.length_nil] at htotal
    rw [← htotal]
    rfl
  | cons i listed ih =>
    obtain ⟨hi, hrest⟩ := List.nodup_cons.1 hnodup
    obtain ⟨hdefined, hone, hmost⟩ := hlistable i List.mem_cons_self
    rw [List.flatMap_cons, List.length_append] at htotal
    have hshort : c + (routeImage i routes[i]).length < l.toNat ∧ listed.length ≠ 0 ∨
        c + (routeImage i routes[i]).length = l.toNat ∧ listed.length = 0 := by
      rcases listed with _ | ⟨j, listed⟩
      · exact .inr ⟨by simpa using htotal, rfl⟩
      · refine .inl ⟨?_, by simp⟩
        rw [List.flatMap_cons, List.length_append, routeImage_length j] at htotal
        omega
    have hstage : routesFrom (i :: listed).length seen = .route (listed.length + 1) seen [] := rfl
    rw [List.flatMap_cons, loadWords_append, hstage,
      loadWords_route c (hseen i List.mem_cons_self) hdefined hone hmost hshort,
      ih (i :: seen) _ _ hrest (fun j hj => ?_) (fun j hj => hlistable j (List.mem_cons_of_mem _ hj)) (by omega)]
    · rfl
    · rw [List.mem_cons, not_or]
      exact ⟨fun hji => hi (hji ▸ hj), hseen j (List.mem_cons_of_mem _ hj)⟩

/-! ### The image of tables -/

/-- The words of the listed routes. -/
def routeWords (t : Tables) : List Word := (listedRoutes t).flatMap fun i => routeImage i t.routes[i]

/-- The stated length of the image of these tables. -/
def statedLength (t : Tables) : Nat := 53 + (routeWords t).length

theorem imageOf_eq (t : Tables) :
    imageOf t = 0x4D53 :: BitVec.ofNat 16 (statedLength t) :: (limitsWords t.limits ++ (t.stations.toList.map stationImage ++
      (t.zones.toList.map zoneImage ++ (t.bins.toList.map binImage ++
        ([BitVec.ofNat 16 (listedRoutes t).length] ++ routeWords t))))) := by
  have hlength : (limitsValues t.limits).length = 14 := rfl
  have hrecords : ((limitsValues t.limits).map (BitVec.ofNat 16) ++ t.stations.toList.map stationImage ++
      t.zones.toList.map zoneImage ++ t.bins.toList.map binImage ++ BitVec.ofNat 16 (listedRoutes t).length ::
      (listedRoutes t).flatMap fun i => routeImage i t.routes[i]).length + 2 = statedLength t := by
    simp only [List.length_append, List.length_map, List.length_cons, Vector.length_toList, hlength, statedLength, routeWords]
    omega
  rw [imageOf]
  simp only [hrecords]
  simp [limitsWords, routeWords, List.append_assoc]

/-- A stated length in the range of images. -/
theorem loadWord_length {l : Word} (hleast : 53 ≤ l.toNat) (hmost : l.toNat ≤ 1173) :
    loadWord ({ count := 1, length := none, stage := .length }, .empty) l =
      ({ count := 2, length := some l, stage := .limits [] }, .empty) := by
  have hrange : (decide (l.toNat < 53) || decide (1173 < l.toNat)) = false := by
    rw [Bool.or_eq_false_iff, decide_eq_false_iff_not, decide_eq_false_iff_not]
    omega
  have hgoTo : ({ count := 1, length := some l, stage := .length } : Reading).goTo 2 (.limits []) =
      { count := 2, length := some l, stage := .limits [] } :=
    goTo_follows rfl (.inl ⟨by simp [Reads], by omega⟩)
  simp only [loadWord, Reading.ended, readWord, hrange, if_true, Bool.false_eq_true, if_false, hgoTo, LoadStage.leaves]

/-- The word of the route count: the load goes on with the routes, or is complete without any. -/
theorem loadWord_routeCount {t : Tables} {l : Word} (htotal : l.toNat = 53 + (routeWords t).length) (u : Tables) :
    loadWords [BitVec.ofNat 16 (listedRoutes t).length] ({ count := 52, length := some l, stage := .routeCount }, u) =
      ({ count := 53, length := some l, stage := routesFrom (listedRoutes t).length [] }, u) := by
  have hmost : (listedRoutes t).length ≤ 32 := Nat.le_trans (List.length_filter_le _ _) (by simp)
  have hcount : (BitVec.ofNat 16 (listedRoutes t).length : Word).toNat = (listedRoutes t).length := by
    rw [BitVec.toNat_ofNat, Nat.mod_eq_of_lt (by omega)]
  have hread : readWord (BitVec.ofNat 16 (listedRoutes t).length) .routeCount u = (routesFrom (listedRoutes t).length [], u) := by
    simp only [readWord, hcount, if_neg (Nat.not_lt.2 hmost)]
  rw [loadWords_singleton]
  refine loadWord_follows (by simp [Reads]) hread ?_
  rcases hlisted : listedRoutes t with _ | ⟨i, listed⟩
  · exact .inr ⟨rfl, by rw [htotal, routeWords, hlisted]; rfl⟩
  · refine .inl ⟨by simp [Reads, routesFrom], ?_⟩
    rw [htotal, routeWords, hlisted, List.flatMap_cons, List.length_append, routeImage_length]
    omega

section
variable {t : Tables} (hstorable : Storable t)
include hstorable

theorem listedRoutes_listable : ∀ i ∈ listedRoutes t, Listable t.routes[i] := by
  obtain ⟨-, -, -, -, hroutes, -⟩ := hstorable
  intro i hi
  have hdefined : (t.routes[i]).defined = true := (List.mem_filter.1 hi).2
  have hroute := hroutes i
  rw [if_pos hdefined] at hroute
  exact ⟨hdefined, hroute⟩

theorem statedLength_range : 53 ≤ statedLength t ∧ statedLength t ≤ 1173 := by
  have hroutes := routeImages_length (listedRoutes_listable hstorable)
  have hcount : (listedRoutes t).length ≤ 32 := Nat.le_trans (List.length_filter_le _ _) (by simp)
  rw [statedLength, routeWords]
  omega

theorem listedRoutes_restore : (listedRoutes t).foldl (fun v (i : RouteIx) => v.set i t.routes[i]) Tables.empty.routes = t.routes := by
  obtain ⟨-, -, -, -, hroutes, -⟩ := hstorable
  refine vector_ext fun j => ?_
  rw [foldl_set_getElem]
  split
  · rfl
  next hmem =>
    have hundefined : ¬(t.routes[j]).defined = true := fun h => hmem (List.mem_filter.2 ⟨List.mem_finRange j, h⟩)
    have hroute := hroutes j
    rw [if_neg hundefined] at hroute
    rw [hroute]
    exact Vector.getElem_replicate _

/-- The words of the image, read into the emptied tables. -/
theorem loadWords_image :
    loadWords (imageOf t) (.start, .empty) =
      ({ count := statedLength t, length := some (BitVec.ofNat 16 (statedLength t)), stage := .complete },
        { t with checked := Tables.empty.checked, loadResult := Tables.empty.loadResult }) := by
  obtain ⟨hleast, hmost⟩ := statedLength_range hstorable
  have hrestore := listedRoutes_restore hstorable
  have hlistable := listedRoutes_listable hstorable
  obtain ⟨hlimits, hstations, hzones, hbins, -, hguarded⟩ := hstorable
  obtain ⟨l, hl⟩ : ∃ l : Word, l = BitVec.ofNat 16 (statedLength t) := ⟨_, rfl⟩
  have htotal : l.toNat = statedLength t := by rw [hl, BitVec.toNat_ofNat, Nat.mod_eq_of_lt (by omega)]
  have hroom : l.toNat = 53 + (routeWords t).length := htotal
  have hnodup : (listedRoutes t).Nodup := (List.nodup_finRange 32).filter _
  have hsignature : loadWord (.start, .empty) 0x4D53 = ({ count := 1, length := none, stage := .length }, .empty) := rfl
  rw [imageOf_eq, ← hl, loadWords, if_neg (by decide), hsignature, loadWords, if_neg (by decide), loadWord_length (by omega) (by omega),
    loadWords_append,
    loadWords_limits hlimits 2 _ (by omega), loadWords_append,
    loadWords_stations _ _ (fun st => stationWord_image (hstations st)) (by omega), loadWords_append,
    loadWords_zones _ _ (fun z => zoneWord_image (hzones z)) rfl (by omega), loadWords_append,
    loadWords_bins _ _ (fun b => binWord_image (hbins b)) (by omega), loadWords_append,
    loadWord_routeCount hroom _, routeWords,
    loadWords_routes _ _ _ _ hnodup (fun i _ => List.not_mem_nil) hlistable hroom.symm, htotal]
  simp only [hrestore, ← hguarded]

/-- The image of tables that pass validation loads those tables. -/
theorem loadImage_imageOf (hsound : validate t = none) :
    loadImage (imageOf t) = { t with checked := true, loadResult :=
      { outcome := .loaded, length := some (BitVec.ofNat 16 (imageOf t).length), fault := none } } := by
  obtain ⟨-, hmost⟩ := statedLength_range hstorable
  have hlength : (imageOf t).length = statedLength t := by
    have hlimits : (limitsWords t.limits).length = 14 := rfl
    rw [imageOf_eq]
    simp only [List.length_cons, List.length_append, List.length_map, Vector.length_toList, hlimits, statedLength, List.length_nil]
    omega
  have hread : loadWords (imageWords (imageOf t) 1173) (.start, .empty) =
      ({ count := statedLength t, length := some (BitVec.ofNat 16 (statedLength t)), stage := .complete },
        { t with checked := Tables.empty.checked, loadResult := Tables.empty.loadResult }) := by
    rw [imageWords, List.take_of_length_le (by omega), loadWords_append, loadWords_image hstorable, loadWords_ended rfl]
  simp only [loadImage, hread]
  rw [loadEnd_sound rfl ((validate_marked t _ _).trans hsound), hlength]

end

/-- Settles O14. -/
theorem loadLeavesCheckedOrEmptiedTables : Obligations.LoadLeavesCheckedOrEmptiedTables := by
  refine ⟨fun image => ⟨?_, fun hloaded => ?_, fun hother => ?_, fun w ws himage hw => ?_, fun n ws himage hn => ?_⟩,
    fun r t => ⟨loadEnd_sound, fun f => loadEnd_faulty, fun o => loadEnd_failed⟩, fun memory k s => loaderPeriods_reading memory k,
    fun t => loadImage_imageOf, fun memory image n i hi => ⟨memoryWords_getElem memory hi, imageWords_getElem image hi⟩⟩
  · rcases loadImage_outcomes image with ⟨-, hchecked, houtcome⟩ | ⟨hchecked, houtcome, -⟩
    · simp [hchecked, houtcome]
    · simp [hchecked, houtcome]
  · rcases loadImage_outcomes image with ⟨hsound, -, -⟩ | ⟨-, houtcome, -⟩
    · exact hsound
    · exact absurd hloaded houtcome
  · rcases loadImage_outcomes image with ⟨-, -, houtcome⟩ | ⟨-, -, hempty⟩
    · exact absurd houtcome hother
    · exact hempty
  · rw [himage, loadImage_noSignature ws hw]
  · rw [himage, loadImage_badLength ws hn]

end Sys2Proof.Machine
end
